-- ==== Sys2Proof/Machine/Sparse.lean ====
section
/-! DEFINITION. Sys2Proof/Machine/Sparse.lean: lists of (key, value) pairs in one canonical form.

Keys rise strictly and no entry holds the default value, so two lists that read the same everywhere are the same list. Memory is
such a list over bytes with default zero. -/
namespace Sys2Proof.Machine

/-- The value at a key: the default where the list holds no entry. [DESIGN CHOICE, log 9: unsafe] -/
def sparseGet {α : Type} (d : α) (l : List (Nat × α)) (k : Nat) : α :=
  match l with
  | [] => d
  | (a, v) :: rest => if a = k then v else sparseGet d rest k

/-- The list with the value v at the key k; the default value removes the entry. [DESIGN CHOICE, log 9: unsafe] -/
def sparseSet {α : Type} [DecidableEq α] (d : α) (l : List (Nat × α)) (k : Nat) (v : α) : List (Nat × α) :=
  match l with
  | [] => if v = d then [] else [(k, v)]
  | (a, w) :: rest =>
    if k < a then (if v = d then (a, w) :: rest else (k, v) :: (a, w) :: rest)
    else if a = k then (if v = d then rest else (k, v) :: rest)
    else (a, w) :: sparseSet d rest k v

/-- The canonical form: keys rise strictly, and no entry holds the default. [DESIGN CHOICE, log 9: unsafe] -/
def sparseWf {α : Type} [DecidableEq α] (d : α) : List (Nat × α) → Bool
  | [] => true
  | (a, v) :: rest => (v != d) && rest.all (fun e => a < e.1) && sparseWf d rest

/-- Values at consecutive keys. -/
def sparseSets {α : Type} [DecidableEq α] (d : α) (l : List (Nat × α)) (k : Nat) : List α → List (Nat × α)
  | [] => l
  | v :: vs => sparseSets d (sparseSet d l k v) (k + 1) vs

/-- The first n values from a key. -/
def sparseGets {α : Type} (d : α) (l : List (Nat × α)) (k : Nat) : Nat → List α
  | 0 => []
  | n + 1 => sparseGet d l k :: sparseGets d l (k + 1) n

/-- The list with the entry of a key replaced by what f makes of it, in a list that is no canonical map but a record by key. -/
def adjust {α : Type} (p : α → Bool) (f : α → α) (l : List α) : List α := l.map fun a => if p a then f a else a

/-- The number of a little-endian list of bytes (R4). -/
def leNat : List (BitVec 8) → Nat
  | [] => 0
  | b :: rest => b.toNat + 256 * leNat rest

/-- The n little-endian bytes of a number (R4). -/
def natLe : Nat → Nat → List (BitVec 8)
  | 0, _ => []
  | n + 1, v => BitVec.ofNat 8 v :: natLe n (v / 256)

/-! ## Sorting -/

/-- The lexicographic order of lists of numbers. -/
def lexLt : List Nat → List Nat → Bool
  | [], [] => false
  | [], _ :: _ => true
  | _ :: _, [] => false
  | a :: as, b :: bs => a < b || (a == b && lexLt as bs)

/-- An element put into a sorted list before the elements whose keys are not smaller. -/
def insertOn {α : Type} (key : α → List Nat) (a : α) : List α → List α
  | [] => [a]
  | b :: rest => if lexLt (key b) (key a) then b :: insertOn key a rest else a :: b :: rest

/-- A list sorted by a key, equal keys in their order. -/
def sortOn {α : Type} (key : α → List Nat) (l : List α) : List α := l.foldr (insertOn key) []

/-- A list with an element that it may hold already. -/
def insertNew {α : Type} [BEq α] (a : α) (l : List α) : List α := if l.contains a then l else l ++ [a]

end Sys2Proof.Machine
end

