-- ==== Sys2Proof/Word.lean ====
section
/-! DEFINITION. Sys2Proof/Word.lean: the word types of the AX960 model.

Bit vectors hold what the manual treats as bits: registers, addresses while they are computed, fields of an encoding. A key of
memory is a plain natural number (Host.Cell). -/
namespace Sys2Proof

/-- A 64-bit register value. -/
abbrev Word := BitVec 64

/-- One byte. -/
abbrev Byte := BitVec 8

/-- The number of an x register (R122, class x). -/
abbrev XReg := BitVec 5

/-- The number of an f register (R122, class f). -/
abbrev FReg := BitVec 5

/-- The number of a predicate (R122, class p): 12 to 15 are reserved. -/
abbrev PReg := BitVec 4

/-- The number of a buffer record (R122, class b). -/
abbrev BReg := BitVec 4

/-- The number of a distribution register (R122, class d). -/
abbrev DReg := BitVec 3

/-- The number of an index register (R122, class k). -/
abbrev KReg := BitVec 2

/-- The number of an array word w0 to w63. -/
abbrev WIdx := BitVec 6

end Sys2Proof
end

