-- ==== Sys2Proof/Config.lean ====
section
/-! DEFINITION. Sys2Proof/Config.lean: what an implementation fixes, and the free values.

A free value is an opaque constant applied to the counter of free values in the state (and to what it depends on): nothing in Lean
can evaluate it, so whatever is proved holds for every value (R6). -/
namespace Sys2Proof.Config

/-- A free bit: a choice the manual leaves to the device. -/
opaque freeBool : Nat → Bool

/-- A free 32-bit value: an unspecified result element (R223). -/
opaque freeWord32 : Nat → BitVec 32

/-- A free 64-bit value: a register whose content the manual leaves open (R33). -/
opaque freeWord : Nat → Word

/-- A free number: an over-count of a page estimate, a choice among several candidates, a report's private bytes.
[DESIGN CHOICE, log 54: safe] -/
opaque freeNat : Nat → Nat

/-- An undefined byte of SRAM: the epoch at which its range became undefined, and its window offset (R6, R83, R207, R217).
[DESIGN CHOICE, log 76: safe] -/
opaque undefByte : Nat → Nat → Byte

/-- The value of an FP function that the correctly rounding evaluation did not decide within its working precision (R237, R255).
[DEDUCED, log 17: unsafe] -/
opaque roundingFallback : Nat → Nat → Nat → BitVec 64

/-- The L-clocks of an L-core in an A-clock: the free values drawn so far, zaclk, and the core's number (R11, R12).
[DESIGN CHOICE, log 102: unsafe] -/
opaque lClocks : Nat → Nat → Nat → Nat

/-- The clocks of a Roustabout core in an A-clock, likewise (R11). [DESIGN CHOICE, log 102: unsafe] -/
opaque roustClocks : Nat → Nat → Nat → Nat

/-- The package's fused serial number (R341). [DESIGN CHOICE, log 81: safe] -/
opaque serial : BitVec 64

/-- The fused SHA-384 of the public key of the first firmware stage (R340). -/
opaque fusedKeyHash : BitVec 384

/-- The fused minimum of the security version (R340). -/
opaque minVersion : Nat

/-- The bytes over which the running firmware is measured, from the images of its stages (R341). [DESIGN CHOICE, log 81: safe] -/
opaque firmwareImage : List (List Byte) → List Byte

/-- The memory channel and the directory slice of a line under a distribution that the reset has set (R79, R326).
[DESIGN CHOICE, log 83: unsafe] -/
opaque channel : Nat → Nat → Nat
opaque slice : Nat → Nat → Nat

/-- The rows of a W-core's Press, by physical number, that have become faulty by a bring-up (R355). [DESIGN CHOICE, log 83: unsafe] -/
opaque badRows : Nat → Nat → List Nat

/-- What a faulty physical row of a W-core's Press adds to its half steps in a column, by the code on the odd K-rows of the test pattern
(R355). [DESIGN CHOICE, log 83: unsafe] -/
opaque rowError : Nat → Nat → Nat → Nat → Int

/-- The bytes of the list of a partition's memory ranges, those granted to it on other packages among them, over which a report measures them
(R15, R341). [DESIGN CHOICE, log 81: safe] -/
opaque rangesImage : List (Nat × Nat) → List Byte

/-- The private part of the package's identity key (R341). [DESIGN CHOICE, log 81: safe] -/
opaque identityKey : Nat

/-- The value the architecture identifiers read as (mvendorid, marchid, mimpid): a partition never reads them (R118). -/
opaque machineId : Nat → Word

end Sys2Proof.Config
end

