-- ==== Sys2Proof/Syntax.lean ====
section
/-! DEFINITION. Sys2Proof/Syntax.lean: the instructions of the AX960 as data.

The opcode table lists the steps of the part: the RISC-V base (one row), the prefix (one row), the Zaryar encodings, and events
that no encoding stands for (wake-ups, migrations, engine steps, host and firmware actions). Every row is one constructor of
Instr. A base instruction is a constructor of BaseInstr. -/
namespace Sys2Proof

/-- The format of a RISC-V F or D operation (R118, R119: single and double only). -/
inductive Fmt where
  | s | d
  deriving DecidableEq, Repr

/-- The conditional branches of the base ISA; the hint-bearing subjects of R123. -/
inductive BranchOp where
  | beq | bne | blt | bge | bltu | bgeu
  deriving DecidableEq, Repr

/-- The integer loads of RV64I. -/
inductive LoadOp where
  | lb | lh | lw | ld | lbu | lhu | lwu
  deriving DecidableEq, Repr

/-- The integer stores of RV64I. -/
inductive StoreOp where
  | sb | sh | sw | sd
  deriving DecidableEq, Repr

/-- Operations of a register and a 12-bit immediate (OP-IMM, and ADDIW of OP-IMM-32). -/
inductive ImmOp where
  | addi | slti | sltiu | xori | ori | andi | addiw
  deriving DecidableEq, Repr

/-- Operations of a register and a 6-bit shift amount (RV64I, Zba SLLI.UW, Zbb RORI, Zbs). -/
inductive ShiftOp where
  | slli | srli | srai | rori | bclri | bexti | binvi | bseti | slliUw
  deriving DecidableEq, Repr

/-- Operations of a register and a 5-bit shift amount (OP-IMM-32). -/
inductive ShiftWOp where
  | slliw | srliw | sraiw | roriw
  deriving DecidableEq, Repr

/-- The one-operand operations of Zbb. -/
inductive UnaryOp where
  | clz | ctz | cpop | clzw | ctzw | cpopw | sextB | sextH | zextH | rev8 | orcB
  deriving DecidableEq, Repr

/-- The register-register operations: RV64I, M, Zba, Zbb, Zbs, Zicond. -/
inductive AluOp where
  | add | sub | sll | slt | sltu | xor | srl | sra | or | and
  | addw | subw | sllw | srlw | sraw
  | mul | mulh | mulhsu | mulhu | div | divu | rem | remu
  | mulw | divw | divuw | remw | remuw
  | addUw | sh1add | sh2add | sh3add | sh1addUw | sh2addUw | sh3addUw
  | andn | orn | xnor | max | maxu | min | minu | rol | ror | rolw | rorw
  | bclr | bext | binv | bset
  | czeroEqz | czeroNez
  deriving DecidableEq, Repr

/-- The read-modify-write operations of the A extension. -/
inductive AmoOp where
  | swap | add | xor | and | or | min | max | minu | maxu
  deriving DecidableEq, Repr

/-- The operations of Zicsr. -/
inductive CsrOp where
  | rw | rs | rc
  deriving DecidableEq, Repr

/-- The four fused multiply-adds of F and D. -/
inductive FmaOp where
  | madd | msub | nmsub | nmadd
  deriving DecidableEq, Repr

/-- The two-operand arithmetic of F and D. -/
inductive FArithOp where
  | add | sub | mul | div
  deriving DecidableEq, Repr

/-- The sign injections of F and D. -/
inductive FSgnOp where
  | sgnj | sgnjn | sgnjx
  deriving DecidableEq, Repr

/-- The compares of F and D. -/
inductive FCmpOp where
  | le | lt | eq
  deriving DecidableEq, Repr

/-- The integer types of the F and D conversions. -/
inductive IntTy where
  | w | wu | l | lu
  deriving DecidableEq, Repr

/-- An instruction of the RISC-V base profile (R118), in its 32-bit form. Branch and jump offsets hold the encoded bits
without their zero bit 0. -/
inductive BaseInstr where
  | lui (rd : XReg) (imm : BitVec 20)
  | auipc (rd : XReg) (imm : BitVec 20)
  | jal (rd : XReg) (off : BitVec 20)
  | jalr (rd rs1 : XReg) (imm : BitVec 12)
  | branch (op : BranchOp) (rs1 rs2 : XReg) (off : BitVec 12)
  | load (op : LoadOp) (rd rs1 : XReg) (imm : BitVec 12)
  | store (op : StoreOp) (rs1 rs2 : XReg) (imm : BitVec 12)
  | imm (op : ImmOp) (rd rs1 : XReg) (imm : BitVec 12)
  | shift (op : ShiftOp) (rd rs1 : XReg) (sh : BitVec 6)
  | shiftW (op : ShiftWOp) (rd rs1 : XReg) (sh : BitVec 5)
  | unary (op : UnaryOp) (rd rs1 : XReg)
  | alu (op : AluOp) (rd rs1 rs2 : XReg)
  | fence (pred succ : BitVec 4)
  | fenceTso
  | fenceI
  | ecall
  | ebreak
  | sret
  | mret
  | wfi
  | sfenceVma (rs1 rs2 : XReg)
  | csr (op : CsrOp) (rd rs1 : XReg) (addr : BitVec 12)
  | csrImm (op : CsrOp) (rd : XReg) (uimm : BitVec 5) (addr : BitVec 12)
  | lr (dbl : Bool) (aq rl : Bool) (rd rs1 : XReg)
  | sc (dbl : Bool) (aq rl : Bool) (rd rs1 rs2 : XReg)
  | amo (op : AmoOp) (dbl : Bool) (aq rl : Bool) (rd rs1 rs2 : XReg)
  | fload (fmt : Fmt) (rd : FReg) (rs1 : XReg) (imm : BitVec 12)
  | fstore (fmt : Fmt) (rs1 : XReg) (rs2 : FReg) (imm : BitVec 12)
  | fma (op : FmaOp) (fmt : Fmt) (rd rs1 rs2 rs3 : FReg) (rm : BitVec 3)
  | farith (op : FArithOp) (fmt : Fmt) (rd rs1 rs2 : FReg) (rm : BitVec 3)
  | fsqrt (fmt : Fmt) (rd rs1 : FReg) (rm : BitVec 3)
  | fsgn (op : FSgnOp) (fmt : Fmt) (rd rs1 rs2 : FReg)
  | fminmax (isMax : Bool) (fmt : Fmt) (rd rs1 rs2 : FReg)
  | fcmp (op : FCmpOp) (fmt : Fmt) (rd : XReg) (rs1 rs2 : FReg)
  | fclass (fmt : Fmt) (rd : XReg) (rs1 : FReg)
  | fmvToX (fmt : Fmt) (rd : XReg) (rs1 : FReg)
  | fmvFromX (fmt : Fmt) (rd : FReg) (rs1 : XReg)
  | fcvtToInt (ty : IntTy) (fmt : Fmt) (rd : XReg) (rs1 : FReg) (rm : BitVec 3)
  | fcvtFromInt (ty : IntTy) (fmt : Fmt) (rd : FReg) (rs1 : XReg) (rm : BitVec 3)
  | fcvtSD (rd rs1 : FReg) (rm : BitVec 3)
  | fcvtDS (rd rs1 : FReg) (rm : BitVec 3)
  deriving DecidableEq, Repr

/-- The fields of the prefix PFX (R123); its bits 31:26 are zero. -/
structure Pfx where
  sense : Bool
  guard : BitVec 4
  hint : BitVec 2
  rm : BitVec 3
  mz : Bool
  rs4 : FReg
  deriving DecidableEq, Repr

/-- The prefix with every field at its neutral value (R141). -/
def Pfx.neutral : Pfx := ⟨false, 15, 0, 7, false, 0⟩

/-- The agents that execute instructions: an L-core, a W-site thread named by its context image, a Roustabout core running an
emulation handler (R7, R304, R312). -/
inductive HartId where
  | lcore (n : Nat)
  | wthread (ctx : Nat)
  | roust (n : Nat)
  deriving DecidableEq, Repr, Inhabited

/-- A core by its package number (R7). -/
inductive CoreId where
  | l (n : Nat)
  | w (n : Nat)
  deriving DecidableEq, Repr

/-- A host request on its partition's memory (R323): a read of n bytes, or a write of bytes, at a local physical address. -/
inductive HostMem where
  | read (addr n : Nat)
  | write (addr : Nat) (bytes : List Byte)
  deriving DecidableEq, Repr

/-- An atomic update of a sync object (R72, R191 to R194, R291): a release, the reset of a barrier to a count, an arrival, a publication. -/
inductive SyncOp where
  | release
  | init (count : Nat)
  | arrive (amount : Nat)
  | publish (fin : Bool)
  deriving DecidableEq, Repr

/-- The operation of a BAMO (R184). -/
inductive BamoOp where
  | add | min | max | addf
  deriving DecidableEq, Repr

/-- A request on Trapeze by another package of the domain under a (package id, partition id) pair (R328, R329): a read, a write, an AMO, a
BAMO of elements of 2^esz bytes, an LR and the SC that follows it, the update of a sync object, an arrival of a copy among them, and a
probe. [DESIGN CHOICE, log 99: unsafe] -/
inductive TrapezeReq where
  | read (pkg pid addr n : Nat)
  | write (pkg pid addr : Nat) (bytes : List Byte)
  | amo (pkg pid addr : Nat) (op : AmoOp) (dbl : Bool) (v : BitVec 64)
  | bamo (pkg pid addr : Nat) (op : BamoOp) (esz : BitVec 2) (v : BitVec 64)
  | lr (pkg pid addr n : Nat)
  | sc (pkg pid addr : Nat) (bytes : List Byte)
  | sync (pkg pid addr : Nat) (op : SyncOp)
  | probe (pkg pid addr : Nat)
  deriving DecidableEq, Repr

/-- A request of the management function to form or dissolve the partition (R15, R322); a partition is formed with a boot image, which
the firmware loads at an address (R341). -/
inductive FormationReq where
  | form (pid : Nat) (lcores wcores : List Nat) (ranges : List (Nat × Nat)) (tasks : Nat) (notify : Option Nat) (bootAt : Nat)
      (boot : List Byte)
  | dissolve
  deriving DecidableEq, Repr

/-- A failed step of bring-up with its code (R351). -/
structure BringUpFailure where
  step : Nat
  code : Nat
  deriving DecidableEq, Repr

/-- A link with retry (R325, R353). -/
inductive LinkId where
  | ucie (a b : Nat)
  | trapeze (port : Nat)
  | tightrope
  deriving DecidableEq, Repr

/-- Where a corrected error was found (R353). -/
inductive ErrorSite where
  | hbm (channel : Nat)
  | lpddr (channel : Nat)
  | registerFile (die : Nat)
  | sram (die : Nat)
  | l2Data (die : Nat)
  | l2Tags (die : Nat)
  deriving DecidableEq, Repr

/-- Where thermal protection acts (R352). -/
inductive HeatSite where
  | die (n : Nat)
  | wcore (n : Nat)
  deriving DecidableEq, Repr

/-- What ends a stop of A-clocks: the die or the W-core has cooled, or package power has fallen back (R352). -/
inductive ThrottleCause where
  | heat (h : HeatSite)
  | power
  deriving DecidableEq, Repr

/-- Every step of the opcode table: the instructions of the part and its events, one constructor for each row. -/
inductive Instr where
  /-- BASE_INSTRUCTION (R118): A standard RV64 instruction of the base profile executes at either site under the device's profile choices. -/
  | base (c : Option (BitVec 16)) (i : BaseInstr)
  /-- PFX (R124): A prefix and its subject execute as one instruction at the prefix address, with guard, MZ, rounding, hint and fourth
  operand applied. -/
  | pfx (p : Pfx) (sub : Instr)
  /-- MIGR_W (R147): Migrates the thread to the W-site, making it the home site and clearing HOLD. -/
  | migrW
  /-- MIGR_L (R147): Migrates the thread to the L-site, making it the home site and clearing HOLD. -/
  | migrL
  /-- REFORM (R148): A re-binning point that also clears the detached state. -/
  | reform
  /-- GLEAVE (R149): Puts the thread into the detached state with set width 1. -/
  | gleave
  /-- GYIELD (R150): Re-files the thread with its wait reset and skips the next draw. -/
  | gyield
  /-- TJOIN (R151): Joins the thread to a team, moving it to the team W-core if needed, and returns the rank or a failure code. -/
  | tjoin (d : BitVec 5) (a : BitVec 5)
  /-- TLEAVE (R152): Removes the thread from its team, withdrawing any pending barrier arrival. -/
  | tleave (d : BitVec 5)
  /-- TBAR_ARR (R156): Arrives at a team barrier and continues. -/
  | tbarArr (n : BitVec 4)
  /-- TBAR_WAIT (R156): Waits until the thread's pending arrival phase of a team barrier completes. -/
  | tbarWait (n : BitVec 4)
  /-- TBAR_SYNC (R156): Arrives at a team barrier and waits for the phase to complete. -/
  | tbarSync (n : BitVec 4)
  /-- TBAR_WAKE (R156): A barrier phase completes and the members waiting on it become runnable with the stores of the phase visible. -/
  | tbarWake (h : HartId)
  /-- SHFL (R164): Each lane reads rs1 from the source vlane named by rs2. -/
  | shfl (d : BitVec 5) (a : BitVec 5) (b : BitVec 5)
  /-- SHFL_XOR (R164): Each lane reads rs1 from vlane xor rs2. -/
  | shflXor (d : BitVec 5) (a : BitVec 5) (b : BitVec 5)
  /-- SHFL_UP (R164): Each lane reads rs1 from vlane minus rs2. -/
  | shflUp (d : BitVec 5) (a : BitVec 5) (b : BitVec 5)
  /-- SHFL_DN (R164): Each lane reads rs1 from vlane plus rs2. -/
  | shflDn (d : BitVec 5) (a : BitVec 5) (b : BitVec 5)
  /-- GSUM_I (R161): Sums the set's integer contributions modulo 2^64. -/
  | gsumI (d : BitVec 5) (a : BitVec 5)
  /-- GMIN_I (R161): Signed minimum over the set. -/
  | gminI (d : BitVec 5) (a : BitVec 5)
  /-- GMAX_I (R161): Signed maximum over the set. -/
  | gmaxI (d : BitVec 5) (a : BitVec 5)
  /-- GMINU (R161): Unsigned minimum over the set. -/
  | gminu (d : BitVec 5) (a : BitVec 5)
  /-- GMAXU (R161): Unsigned maximum over the set. -/
  | gmaxu (d : BitVec 5) (a : BitVec 5)
  /-- GAND (R161): Bitwise AND over the set. -/
  | gand (d : BitVec 5) (a : BitVec 5)
  /-- GOR (R161): Bitwise OR over the set. -/
  | gor (d : BitVec 5) (a : BitVec 5)
  /-- GXOR (R161): Bitwise XOR over the set. -/
  | gxor (d : BitVec 5) (a : BitVec 5)
  /-- GSCAN_I (R162): Inclusive integer prefix sum over the set. -/
  | gscanI (d : BitVec 5) (a : BitVec 5)
  /-- BALLOT (R163): Returns the mask of present guard-true lanes with a nonzero operand. -/
  | ballot (d : BitVec 5) (a : BitVec 5)
  /-- GCOUNT (R163): Returns the count of present guard-true lanes with a nonzero operand. -/
  | gcount (d : BitVec 5) (a : BitVec 5)
  /-- SHFL_F (R165): Shuffles raw 64-bit f-register values across the set. -/
  | shflF (d : BitVec 5) (a : BitVec 5) (b : BitVec 5)
  /-- GSUM_S (R166): FP32 tree sum over the set. -/
  | gsumS (d : BitVec 5) (a : BitVec 5)
  /-- GSUM_D (R166): FP64 tree sum over the set. -/
  | gsumD (d : BitVec 5) (a : BitVec 5)
  /-- GMIN_S (R166): FP32 FMIN tree over the set. -/
  | gminS (d : BitVec 5) (a : BitVec 5)
  /-- GMAX_S (R166): FP32 FMAX tree over the set. -/
  | gmaxS (d : BitVec 5) (a : BitVec 5)
  /-- GMIN_D (R166): FP64 FMIN tree over the set. -/
  | gminD (d : BitVec 5) (a : BitVec 5)
  /-- GMAX_D (R166): FP64 FMAX tree over the set. -/
  | gmaxD (d : BitVec 5) (a : BitVec 5)
  /-- GSCAN_S (R166): Inclusive FP32 prefix sum over the set. -/
  | gscanS (d : BitVec 5) (a : BitVec 5)
  /-- PCMP_EQ (R168): Writes a predicate with rs1 equal to rs2. -/
  | pcmpEq (d : BitVec 4) (a : BitVec 5) (b : BitVec 5)
  /-- PCMP_NE (R168): Writes a predicate with rs1 not equal to rs2. -/
  | pcmpNe (d : BitVec 4) (a : BitVec 5) (b : BitVec 5)
  /-- PCMP_LT (R168): Writes a predicate with signed rs1 less than rs2. -/
  | pcmpLt (d : BitVec 4) (a : BitVec 5) (b : BitVec 5)
  /-- PCMP_GE (R168): Writes a predicate with signed rs1 at least rs2. -/
  | pcmpGe (d : BitVec 4) (a : BitVec 5) (b : BitVec 5)
  /-- PCMP_LTU (R168): Writes a predicate with unsigned rs1 less than rs2. -/
  | pcmpLtu (d : BitVec 4) (a : BitVec 5) (b : BitVec 5)
  /-- PCMP_GEU (R168): Writes a predicate with unsigned rs1 at least rs2. -/
  | pcmpGeu (d : BitVec 4) (a : BitVec 5) (b : BitVec 5)
  /-- PFEQ_S (R169): FP32 equality into a predicate. -/
  | pfeqS (d : BitVec 4) (a : BitVec 5) (b : BitVec 5)
  /-- PFLT_S (R169): FP32 less-than into a predicate. -/
  | pfltS (d : BitVec 4) (a : BitVec 5) (b : BitVec 5)
  /-- PFLE_S (R169): FP32 less-or-equal into a predicate. -/
  | pfleS (d : BitVec 4) (a : BitVec 5) (b : BitVec 5)
  /-- PFUN_S (R169): FP32 unordered test into a predicate. -/
  | pfunS (d : BitVec 4) (a : BitVec 5) (b : BitVec 5)
  /-- PFEQ_D (R169): FP64 equality into a predicate. -/
  | pfeqD (d : BitVec 4) (a : BitVec 5) (b : BitVec 5)
  /-- PFLT_D (R169): FP64 less-than into a predicate. -/
  | pfltD (d : BitVec 4) (a : BitVec 5) (b : BitVec 5)
  /-- PFLE_D (R169): FP64 less-or-equal into a predicate. -/
  | pfleD (d : BitVec 4) (a : BitVec 5) (b : BitVec 5)
  /-- PFUN_D (R169): FP64 unordered test into a predicate. -/
  | pfunD (d : BitVec 4) (a : BitVec 5) (b : BitVec 5)
  /-- PAND (R170): Predicate AND. -/
  | pand (d : BitVec 4) (a : BitVec 4) (b : BitVec 4)
  /-- POR (R170): Predicate OR. -/
  | por (d : BitVec 4) (a : BitVec 4) (b : BitVec 4)
  /-- PXOR (R170): Predicate XOR. -/
  | pxor (d : BitVec 4) (a : BitVec 4) (b : BitVec 4)
  /-- PANDN (R170): Predicate AND-NOT. -/
  | pandn (d : BitVec 4) (a : BitVec 4) (b : BitVec 4)
  /-- PNOT (R170): Predicate NOT. -/
  | pnot (d : BitVec 4) (a : BitVec 4)
  /-- PMV_XP (R171): Copies p0-p11 into an x register. -/
  | pmvXp (d : BitVec 5)
  /-- PMV_PX (R171): Sets p0-p11 from the low bits of an x register. -/
  | pmvPx (a : BitVec 5)
  /-- PANY (R172): Tests whether any masked predicate is set. -/
  | pany (d : BitVec 5) (a : BitVec 5)
  /-- PALL (R172): Tests whether all masked predicates are set. -/
  | pall (d : BitVec 5) (a : BitVec 5)
  /-- JTAB (R175): Jumps through a checked jump table, checking the index and the target's W-profile. -/
  | jtab (d : BitVec 5) (a : BitVec 5) (b : BitVec 5)
  /-- BLD_B (R182): Loads a sign-extended byte per lane through a buffer record. -/
  | bldB (d : BitVec 5) (a : BitVec 5) (b : BitVec 4)
  /-- BLD_H (R182): Loads a sign-extended halfword per lane through a buffer record. -/
  | bldH (d : BitVec 5) (a : BitVec 5) (b : BitVec 4)
  /-- BLD_W (R182): Loads a sign-extended word per lane through a buffer record. -/
  | bldW (d : BitVec 5) (a : BitVec 5) (b : BitVec 4)
  /-- BLD_D (R182): Loads a doubleword per lane through a buffer record. -/
  | bldD (d : BitVec 5) (a : BitVec 5) (b : BitVec 4)
  /-- BLD_BU (R182): Loads a zero-extended byte per lane through a buffer record. -/
  | bldBu (d : BitVec 5) (a : BitVec 5) (b : BitVec 4)
  /-- BLD_HU (R182): Loads a zero-extended halfword per lane through a buffer record. -/
  | bldHu (d : BitVec 5) (a : BitVec 5) (b : BitVec 4)
  /-- BLD_WU (R182): Loads a zero-extended word per lane through a buffer record. -/
  | bldWu (d : BitVec 5) (a : BitVec 5) (b : BitVec 4)
  /-- BLD_FW (R182): Loads an FP32 per lane, NaN-boxed, through a buffer record. -/
  | bldFw (d : BitVec 5) (a : BitVec 5) (b : BitVec 4)
  /-- BLD_FD (R182): Loads an FP64 per lane through a buffer record. -/
  | bldFd (d : BitVec 5) (a : BitVec 5) (b : BitVec 4)
  /-- BLD_FH (R182): Loads a binary16 per lane and widens it exactly to FP32. -/
  | bldFh (d : BitVec 5) (a : BitVec 5) (b : BitVec 4)
  /-- BST_B (R183): Stores a byte per lane through a buffer record. -/
  | bstB (d : BitVec 4) (a : BitVec 5) (b : BitVec 5)
  /-- BST_H (R183): Stores a halfword per lane through a buffer record. -/
  | bstH (d : BitVec 4) (a : BitVec 5) (b : BitVec 5)
  /-- BST_W (R183): Stores a word per lane through a buffer record. -/
  | bstW (d : BitVec 4) (a : BitVec 5) (b : BitVec 5)
  /-- BST_D (R183): Stores a doubleword per lane through a buffer record. -/
  | bstD (d : BitVec 4) (a : BitVec 5) (b : BitVec 5)
  /-- BST_FW (R183): Stores the low 32 bits of an f register per lane. -/
  | bstFw (d : BitVec 4) (a : BitVec 5) (b : BitVec 5)
  /-- BST_FD (R183): Stores an f register per lane. -/
  | bstFd (d : BitVec 4) (a : BitVec 5) (b : BitVec 5)
  /-- BST_FH (R183): Narrows FP32 to binary16 and stores it per lane. -/
  | bstFh (d : BitVec 4) (a : BitVec 5) (b : BitVec 5)
  /-- WLD_DIRECT (R186): Loads an array word, named directly, sign-extended into x. -/
  | wldDirect (d : BitVec 5) (w : BitVec 6)
  /-- WLD_INDEXED (R186): Loads an array word through an index register. -/
  | wldIndexed (d : BitVec 5) (k : BitVec 2) (a : BitVec 5)
  /-- WST_DIRECT (R186): Stores the low 32 bits of x into a directly named array word. -/
  | wstDirect (d : BitVec 5) (w : BitVec 6)
  /-- WST_INDEXED (R186): Stores the low 32 bits of x into an indexed array word. -/
  | wstIndexed (d : BitVec 5) (k : BitVec 2) (a : BitVec 5)
  /-- WLDF_DIRECT (R186): Loads a directly named array word NaN-boxed into f. -/
  | wldfDirect (d : BitVec 5) (w : BitVec 6)
  /-- WLDF_INDEXED (R186): Loads an indexed array word NaN-boxed into f. -/
  | wldfIndexed (d : BitVec 5) (k : BitVec 2) (a : BitVec 5)
  /-- WSTF_DIRECT (R186): Stores the low 32 bits of f into a directly named array word. -/
  | wstfDirect (d : BitVec 5) (w : BitVec 6)
  /-- WSTF_INDEXED (R186): Stores the low 32 bits of f into an indexed array word. -/
  | wstfIndexed (d : BitVec 5) (k : BitVec 2) (a : BitVec 5)
  /-- KSET (R187): Sets an index register's base and length, checked against the W-profile. -/
  | kset (k : BitVec 2) (a : BitVec 5) (b : BitVec 5)
  /-- WMV (R186): Copies one array word to another. -/
  | wmv (dst : BitVec 6) (src : BitVec 6)
  /-- WMVW (R186): Reads an even-odd pair of array words into a 64-bit x register. -/
  | wmvw (d : BitVec 5) (w : BitVec 6)
  /-- SOBIND (R189): Binds a described region to a sync object and returns a status. -/
  | sobind (d : BitVec 5) (a : BitVec 5) (b : BitVec 5)
  /-- SOUNBIND (R190): Releases the object, recalls private copies of the region and removes the binding. -/
  | sounbind (d : BitVec 5) (a : BitVec 5) (b : BitVec 5)
  /-- ACQ (R191): Performs an acquire of a sync object and returns its release count. -/
  | acq (d : BitVec 5) (a : BitVec 5)
  /-- REL (R191): Performs a release of a sync object. -/
  | rel (a : BitVec 5)
  /-- MWATCH (R198): Arms a watch on the 128-byte line of an address. -/
  | mwatch (a : BitVec 5)
  /-- MWAIT (R91): Waits until the watched line is written or invalidated, or spuriously. -/
  | mwait
  /-- MWAIT_WAKE (R91): A write or invalidation of the watched line ends a waiting MWAIT and disarms the watch. -/
  | mwaitWake (h : HartId)
  /-- BARINIT (R193): Resets a barrier object's phase and arrived count and sets its expected count. -/
  | barinit (a : BitVec 5) (b : BitVec 5)
  /-- BARARR (R194): Releases the object and arrives with an amount, returning the prior phase. -/
  | bararr (d : BitVec 5) (a : BitVec 5) (b : BitVec 5)
  /-- BARWAIT (R195): Waits until the barrier phase reaches a target, then acquires. -/
  | barwait (a : BitVec 5) (b : BitVec 5)
  /-- BARWAIT_WAKE (R195): An arrival raises the phase to a waiter's target; the waiter becomes runnable and acquires. -/
  | barwaitWake (h : HartId)
  /-- BARTEST (R196): Tests without waiting whether the barrier phase reaches a target. -/
  | bartest (d : BitVec 5) (a : BitVec 5) (b : BitVec 5)
  /-- XCOPY (R200): Reads a copy request, checks it and issues it to a copy channel, returning a ticket. -/
  | xcopy (d : BitVec 5) (a : BitVec 5)
  /-- XCFENCE (R203): Waits until every copy the thread issued has ended, reporting an unreported fault. -/
  | xcfence
  /-- XCWAIT (R202): Waits until a copy ticket is no longer pending and returns its status or traps on its fault. -/
  | xcwait (d : BitVec 5) (a : BitVec 5)
  /-- XCQRY (R202): Returns a copy ticket's status without waiting. -/
  | xcqry (d : BitVec 5) (a : BitVec 5)
  /-- SMAP (R206): Maps a stash window over a bound region for the thread's team. -/
  | smap (d : BitVec 5) (a : BitVec 5)
  /-- SUNMAP (R207): Writes back and unmaps a stash window. -/
  | sunmap (d : BitVec 5) (a : BitVec 5)
  /-- SFLUSH (R207): Writes back the dirty bytes of one or all of the team's windows. -/
  | sflush (a : BitVec 5)
  /-- BSET (R181): Loads and checks a 16-byte buffer record into a b register. -/
  | bset (d : BitVec 4) (a : BitVec 5)
  /-- BGET (R181): Stores a b register as a 16-byte record. -/
  | bget (d : BitVec 4) (a : BitVec 5)
  /-- BAMO_ADD (R184): Atomic integer add per lane at a buffer-record element. -/
  | bamoAdd (d : BitVec 4) (a : BitVec 5) (b : BitVec 5)
  /-- BAMO_MIN (R184): Atomic signed minimum per lane at a buffer-record element. -/
  | bamoMin (d : BitVec 4) (a : BitVec 5) (b : BitVec 5)
  /-- BAMO_MAX (R184): Atomic signed maximum per lane at a buffer-record element. -/
  | bamoMax (d : BitVec 4) (a : BitVec 5) (b : BitVec 5)
  /-- BAMO_ADDF (R184): Atomic floating-point add per lane at a buffer-record element. -/
  | bamoAddf (d : BitVec 4) (a : BitVec 5) (b : BitVec 5)
  /-- FUSE_S (R236): Evaluates a zexp expression slot in FP32 on up to four inputs. -/
  | fuseS (d : BitVec 5) (a : BitVec 5) (b : BitVec 5) (c : BitVec 5) (slot : BitVec 4)
  /-- FUSE_D (R236): Evaluates a zexp expression slot in FP64 on up to four inputs. -/
  | fuseD (d : BitVec 5) (a : BitVec 5) (b : BitVec 5) (c : BitVec 5) (slot : BitVec 4)
  /-- OBRES (R216): Reserves an operand-buffer range from a record and returns its id or a failure code. -/
  | obres (d : BitVec 5) (a : BitVec 5)
  /-- OBREL (R217): Releases a reservation, at once or once its queued users end. -/
  | obrel (a : BitVec 5)
  /-- MXFENCE (R222): Makes earlier operand-buffer writes visible to later Press commands. -/
  | mxfence
  /-- MXLDW (R224): Issues a command to load the shadow plane from a weight reservation. -/
  | mxldw (d : BitVec 5) (a : BitVec 5)
  /-- MXSWAP (R225): Queues a swap of the active and shadow planes. -/
  | mxswap
  /-- MXSTRM (R226): Issues a stream of activation rows through the active plane as products. -/
  | mxstrm (d : BitVec 5) (a : BitVec 5)
  /-- MXSQD (R226): Issues a stream computing squared differences against the active plane. -/
  | mxsqd (d : BitVec 5) (a : BitVec 5)
  /-- MXTOPK (R228): Issues a top-k selection over tile rows. -/
  | mxtopk (d : BitVec 5) (a : BitVec 5)
  /-- MXWAIT (R221): Waits until a Press ticket is no longer pending and returns its status. -/
  | mxwait (d : BitVec 5) (a : BitVec 5)
  /-- ACRD (R229): Reads a tile element into x, stalling while its row is pending. -/
  | acrd (d : BitVec 5) (a : BitVec 5) (b : BitVec 5)
  /-- ACRDF (R229): Reads a tile element NaN-boxed into f, stalling while its row is pending. -/
  | acrdf (d : BitVec 5) (a : BitVec 5) (b : BitVec 5)
  /-- ACZERO (R230): Zeroes a tile and sets its kind to NONE after earlier users end. -/
  | aczero (a : BitVec 5)
  /-- ACWM (R229): Returns the lowest pending row of a tile. -/
  | acwm (d : BitVec 5) (a : BitVec 5)
  /-- MXSTAT (R227): Reads MXSTAT and clears the selected bits in one step. -/
  | mxstat (d : BitVec 5) (a : BitVec 5)
  /-- MXSAVE (R233): Saves a W-core's Press state to an image once its queue is empty. -/
  | mxsave (a : BitVec 5)
  /-- MXREST (R233): Restores a W-core's Press state from an image once its queue is empty. -/
  | mxrest (a : BitVec 5)
  /-- NCVT_E4 (R239): Narrows FP32 to FP8-E4. -/
  | ncvtE4 (d : BitVec 5) (a : BitVec 5)
  /-- NCVT_E5 (R239): Narrows FP32 to FP8-E5. -/
  | ncvtE5 (d : BitVec 5) (a : BitVec 5)
  /-- NCVT_E5S (R239): Narrows FP32 to saturating FP8-E5. -/
  | ncvtE5s (d : BitVec 5) (a : BitVec 5)
  /-- NCVT_BF (R239): Narrows FP32 to BF16. -/
  | ncvtBf (d : BitVec 5) (a : BitVec 5)
  /-- NCVT_HF (R239): Narrows FP32 to FP16. -/
  | ncvtHf (d : BitVec 5) (a : BitVec 5)
  /-- NCVT_I8 (R239): Rounds FP32 to a clamped signed byte. -/
  | ncvtI8 (d : BitVec 5) (a : BitVec 5)
  /-- NCVT_N8 (R239): Rounds FP32 to a clamped unsigned byte. -/
  | ncvtN8 (d : BitVec 5) (a : BitVec 5)
  /-- WCVT_E4 (R240): Widens FP8-E4 exactly to FP32. -/
  | wcvtE4 (d : BitVec 5) (a : BitVec 5)
  /-- WCVT_E5 (R240): Widens FP8-E5 exactly to FP32. -/
  | wcvtE5 (d : BitVec 5) (a : BitVec 5)
  /-- WCVT_BF (R240): Widens BF16 exactly to FP32. -/
  | wcvtBf (d : BitVec 5) (a : BitVec 5)
  /-- WCVT_HF (R240): Widens FP16 exactly to FP32. -/
  | wcvtHf (d : BitVec 5) (a : BitVec 5)
  /-- WCVT_I8 (R240): Widens a signed byte to FP32. -/
  | wcvtI8 (d : BitVec 5) (a : BitVec 5)
  /-- WCVT_N8 (R240): Widens an unsigned byte to FP32. -/
  | wcvtN8 (d : BitVec 5) (a : BitVec 5)
  /-- FSCL_S (R241): Multiplies FP32 by a clamped power of two with one rounding. -/
  | fsclS (d : BitVec 5) (a : BitVec 5) (b : BitVec 5)
  /-- DADD (R252): Adds two distributions, pointwise or all-pairs with condensation. -/
  | dadd (d : BitVec 3) (a : BitVec 3) (b : BitVec 3)
  /-- DSUB (R252): Subtracts two distributions. -/
  | dsub (d : BitVec 3) (a : BitVec 3) (b : BitVec 3)
  /-- DMUL (R252): Multiplies two distributions. -/
  | dmul (d : BitVec 3) (a : BitVec 3) (b : BitVec 3)
  /-- DDIV (R252): Divides two distributions. -/
  | ddiv (d : BitVec 3) (a : BitVec 3) (b : BitVec 3)
  /-- DMIN (R252): Pointwise or all-pairs minimum of two distributions. -/
  | dmin (d : BitVec 3) (a : BitVec 3) (b : BitVec 3)
  /-- DMAX (R252): Pointwise or all-pairs maximum of two distributions. -/
  | dmax (d : BitVec 3) (a : BitVec 3) (b : BitVec 3)
  /-- DMIX (R253): Forms the condensed mixture of two distributions with weight p. -/
  | dmix (d : BitVec 3) (a : BitVec 3) (b : BitVec 3)
  /-- DAFF (R254): Applies an affine map to each point of a distribution. -/
  | daff (d : BitVec 3) (a : BitVec 3) (b : BitVec 5)
  /-- DMAP (R255): Applies a pointwise function to each point of a distribution. -/
  | dmap (d : BitVec 3) (a : BitVec 3) (n : BitVec 3)
  /-- DFORM (R256): Converts a distribution between Q-form and S-form. -/
  | dform (d : BitVec 3) (a : BitVec 3) (t : BitVec 1)
  /-- DMV (R257): Copies a distribution register. -/
  | dmv (d : BitVec 3) (a : BitVec 3)
  /-- DPT (R258): Writes a point-mass distribution from an f register. -/
  | dpt (d : BitVec 3) (a : BitVec 5)
  /-- DUNI (R259): Writes the eight stratum midpoints of an interval with a tag. -/
  | duni (d : BitVec 3) (a : BitVec 5) (t : BitVec 4)
  /-- DSAMP (R260): Draws eight uniform samples from a stream and advances its counter. -/
  | dsamp (d : BitVec 3) (a : BitVec 5)
  /-- DLD (R261): Loads and checks a 64-byte distribution image. -/
  | dld (d : BitVec 3) (a : BitVec 5)
  /-- DST (R262): Stores a distribution register as a 64-byte image. -/
  | dst (d : BitVec 3) (a : BitVec 5)
  /-- DMOM (R264): Extracts the k-th moment of a distribution. -/
  | dmom (d : BitVec 5) (a : BitVec 3) (n : BitVec 3)
  /-- DQNT (R265): Extracts a p-quantile of a distribution. -/
  | dqnt (d : BitVec 5) (a : BitVec 3) (b : BitVec 5)
  /-- DCDF (R266): Extracts the cumulative distribution at x. -/
  | dcdf (d : BitVec 5) (a : BitVec 3) (b : BitVec 5)
  /-- DTAG (R267): Reads a distribution's tag set and form bit. -/
  | dtag (d : BitVec 5) (a : BitVec 3)
  /-- DTAGS (R267): Sets a distribution's tag set. -/
  | dtags (d : BitVec 3) (a : BitVec 5)
  /-- TSPAWN (R274): Creates a task from a descriptor and returns its handle. -/
  | tspawn (d : BitVec 5) (a : BitVec 5)
  /-- TTAKE (R277): Waits until Ringmaster assigns a ready task, then starts it with an acquire of every object. -/
  | ttake (d : BitVec 5)
  /-- TEND (R284): Ends the current run, releasing written objects and decrementing successors once. -/
  | tend
  /-- TDEC (R286): Decrements a task's dependence count under the underflow check. -/
  | tdec (a : BitVec 5)
  /-- TYIELD (R284): Gives the current task back unfinished as READY. -/
  | tyield
  /-- TBUDG (R281): Returns and replaces the remaining budget of the current run. -/
  | tbudg (d : BitVec 5) (a : BitVec 5)
  /-- TCANCEL (R287): Cancels and frees a task. -/
  | tcancel (d : BitVec 5) (a : BitVec 5)
  /-- TSTAT (R289): Returns a task's state, count, DECR flag and run count. -/
  | tstat (d : BitVec 5) (a : BitVec 5)
  /-- VPUB (R291): Releases a version object and advances its version. -/
  | vpub (a : BitVec 5)
  /-- VFIN (R291): Releases a version object, advances its version and marks it final. -/
  | vfin (a : BitVec 5)
  /-- VACQ (R295): Acquires a version object and records the consumed version. -/
  | vacq (d : BitVec 5) (a : BitVec 5)
  /-- VCHK (R295): Tests whether an input has moved past its consumed version. -/
  | vchk (d : BitVec 5) (a : BitVec 5)
  /-- VSUB (R295): Adds a version object as an input of the current task. -/
  | vsub (d : BitVec 5) (a : BitVec 5)
  /-- VSETTLE (R297): Waits until a troupe settles, then acquires every object. -/
  | vsettle (d : BitVec 5) (a : BitVec 5)
  /-- ZRESUME (R315): Disposes a queue record as RETRY/RESUME or FATAL. -/
  | zresume (a : BitVec 5) (b : BitVec 5)
  /-- ZPARK (R316): Parks a W-site thread for time-slicing or saves and uninstalls an installed one. -/
  | zpark (d : BitVec 5) (a : BitVec 5)
  /-- ZSIGNAL (R317): Requests extraction of a W-site thread for signal delivery. -/
  | zsignal (a : BitVec 5) (b : BitVec 5)
  /-- ZFQPOP (R314): Pops the oldest record of the W-fault or emulation queue into a buffer. -/
  | zfqpop (d : BitVec 5) (a : BitVec 5)
  /-- EXTRACTION (R37): At its next boundary a ZSIGNAL target becomes absent and migrates to the L-site with an ARRIVE record. -/
  | extraction (h : HartId)
  /-- MIGRATION_DEPART (R30): Once the thread's accesses and mending entries have drained and a destination entry and slot exist, its user
  state moves. -/
  | migrationDepart (h : HartId)
  /-- ARRIVAL_W_SITE (R33): A migrating thread takes a Carousel entry and park slot at the W-core and re-bins. -/
  | arrivalWSite (ctx : Nat)
  /-- ARRIVAL_L_SITE (R33): A thread arriving at the L-site frees its Carousel entry; the device writes its image and an ARRIVE record and
  raises interrupt 16. -/
  | arrivalLSite (ctx : Nat)
  /-- CAROUSEL_DRAW (R50): In each A-clock each free issue slot draws the first aged or full bin and fills its lanes by whole sets. -/
  | carouselDraw (w slot : Nat)
  /-- BIN_AGED (R50): A bin's oldest thread's wait exceeds zage.AGE, making it an aged bin. -/
  | binAged (w : Nat)
  /-- GROUP_SLOT_LIMIT (R49): A group that has held its issue slot for 64 consecutive A-clocks ends and re-files. -/
  | groupSlotLimit (w slot : Nat)
  /-- MENDING_ENTRY_PERFORM (R66): The memory unit performs a thread's next mending-buffer entry in entry order. -/
  | mendingEntryPerform (w ctx : Nat)
  /-- DRAIN_COMPLETE (R66): A thread's mending entries have all drained and an instruction waiting for the drain executes. -/
  | drainComplete (h : HartId)
  /-- MENDING_BUFFER_ROOM (R66): A mending entry drains and a store stalled for buffer space proceeds. -/
  | mendingBufferRoom (h : HartId)
  /-- COPY_REQUEST_PERFORM (R87): A copy channel starts its next request and writes its rows in order. -/
  | copyRequestPerform (e ch : Nat)
  /-- COPY_COMPLETION (R89): A copy request completes and adds its byte count to its barrier object as a release. -/
  | copyCompletion (e ch : Nat)
  /-- COPY_ENGINE_ROOM (R200): A request ends and an XCOPY stalled on a full engine issues. -/
  | copyEngineRoom (h : HartId)
  /-- XCWAIT_WAKE (R202): A copy ticket leaves pending status and a waiting XCWAIT or XCFENCE proceeds. -/
  | xcwaitWake (h : HartId)
  /-- PRESS_COMMAND_QUEUE_ROOM (R218): A Press command ends and a command stalled on a full queue is queued. -/
  | pressCommandQueueRoom (h : HartId)
  /-- PRESS_LOAD_WEIGHTS (R224): Once earlier readers of the shadow plane end, the array loads it from the weight reservation. -/
  | pressLoadWeights (w : Nat)
  /-- PRESS_SWAP_EFFECT (R225): When earlier readers of the active plane and earlier loads have ended, the planes exchange roles. -/
  | pressSwapEffect (w : Nat)
  /-- PRESS_STREAM (R226): The array performs a stream, making each output row final in ascending order. -/
  | pressStream (w : Nat)
  /-- PRESS_TOPK (R228): The array performs a top-k selection after its source rows are final. -/
  | pressTopk (w : Nat)
  /-- MXWAIT_WAKE (R221): A Press ticket leaves pending status and a waiting MXWAIT returns it. -/
  | mxwaitWake (h : HartId)
  /-- ACRD_ROW_FINAL (R229): A pending row becomes final and a stalled ACRD or ACRDF returns. -/
  | acrdRowFinal (h : HartId)
  /-- ACZERO_USERS_DONE (R230): Earlier users of a tile end and a waiting ACZERO zeroes it. -/
  | aczeroUsersDone (h : HartId)
  /-- OBRES_STALL_END (R216): Overlapping releasing reservations are freed and a stalled OBRES completes. -/
  | obresStallEnd (h : HartId)
  /-- MXSAVE_QUEUE_EMPTY (R233): The array's queue becomes empty and a waiting MXSAVE or MXREST acts. -/
  | mxsaveQueueEmpty (h : HartId)
  /-- TASK_ABANDON (R294): A marked RESTART run is abandoned at its worker's next boundary and the task re-queued. -/
  | taskAbandon (h : HartId)
  /-- BUDGET_EXHAUSTED (R280): zbudget reaches 0 and the worker takes cause 28 at its next boundary. -/
  | budgetExhausted (h : HartId)
  /-- EMULATION_HANDLER_RUN (R312): A Roustabout core takes the next emulation record and runs its class handler in restricted mode. -/
  | emulationHandlerRun (r : Nat)
  /-- HANDLER_TIME_LIMIT (R312): A handler run reaching 2^20 A-clocks disposes its record as FATAL. -/
  | handlerTimeLimit (r : Nat)
  /-- ZPACK_WRITE (R40): A write to zpack sets the pack class and is a re-binning point at the W-site. -/
  | zpackWrite (v : Word)
  /-- ZWIDTH_WRITE (R41): A write to zwidth caps the partition's set width from each thread's next re-binning point. -/
  | zwidthWrite (v : Word)
  /-- ZPARK_WRITE (R53): A write to zpark places the park area and sets PLACED when accepted. -/
  | zparkWrite (v : Word)
  /-- ZRBT_WRITE (R71): A write to zrbt places or enables the region binding table when allowed. -/
  | zrbtWrite (v : Word)
  /-- ZBANKROLE_WRITE (R83): A write to zbankrole changes bank roles, writing back L1 contents and freeing reservations. -/
  | zbankroleWrite (v : Word)
  /-- ZHOTL_WRITE (R93): A write to zhotl places the hot-page list and sets its interval and enable. -/
  | zhotlWrite (v : Word)
  /-- ZSEED_WRITE (R247): A write to zseed sets the seed and resets all sixteen draw counters. -/
  | zseedWrite (v : Word)
  /-- ZWFQ_WRITE (R306): A write to zwfq places or enables the W-fault queue when allowed. -/
  | zwfqWrite (v : Word)
  /-- ZEMQ_WRITE (R309): A write to zemq places the emulation area and sets SERVE, EN and SIZE. -/
  | zemqWrite (v : Word)
  /-- CSR_WRITE (R134): A write to a CSR with no behaviour of its own. -/
  | csrWrite (addr : BitVec 12) (v : Word)
  /-- CHECKPOINT (R334): Host command 3 writes the partition's memory, save area and digest to a safe-tier slot. -/
  | checkpoint (slot : Nat) (stay : Bool)
  /-- RESTORE (R337): Host command 4 checks a slot and replaces the partition's memory and saved state from it. -/
  | restore (slot : Nat)
  /-- ATTEST (R341): Host command 5 returns a signed attestation report for the partition. -/
  | attest (nonce : List Byte)
  /-- HOST_MEMORY_REQUEST (R323): A host read or write of its partition's memory through its virtual interface. -/
  | hostMemoryRequest (r : HostMem)
  /-- PARTITION_FORMATION (R322): Firmware forms or dissolves a partition on a management request. -/
  | partitionFormation (r : FormationReq)
  /-- CORE_REMOVAL (R17): Firmware removes a core from a pre-empted partition when its conditions hold, resetting and powering it down. -/
  | coreRemoval (c : CoreId)
  /-- CORE_ASSIGNMENT (R16): Firmware assigns a core to a pre-empted partition. -/
  | coreAssignment (c : CoreId)
  /-- LINK_RETRY (R325): A link error is recovered by link-level retry of the flit. -/
  | linkRetry (l : LinkId)
  /-- PACKAGE_UNREACHABLE (R330): The domain firmware declares a package unreachable; outstanding and later requests to it fault. -/
  | packageUnreachable (pkg : Nat)
  /-- UNCORRECTABLE_ERROR (R333): An uncorrectable memory error poisons its 8-byte word. -/
  | uncorrectableError (pa : Nat)
  /-- BRING_UP (R351): Release of package reset runs the ordered bring-up steps. -/
  | bringUp (fail : Option BringUpFailure)
  /-- RECOVERY_SCRUB (R355): Firmware runs the Press test on a W-core outside every partition. -/
  | recoveryScrub (w : Nat) (bad : List Nat)
  /-- POWER_THROTTLE (R352): Package power above 3.6 kW stops A-clocks on the most Press-active W-cores. -/
  | powerThrottle (ws : List Nat)
  /-- THERMAL_THROTTLE (R352): A die above 105 °C has its W-core A-clocks stopped until below 100 °C. -/
  | thermalThrottle (h : HeatSite)
  /-- EMERGENCY_SHUTDOWN (R352): A die above 115 °C stops every core and link and resets the package. -/
  | emergencyShutdown (die : Nat)
  /-- TRAPEZE_REQUEST (R329): A request or probe from another package of the domain arrives over Trapeze at this package's home slice or
  caches and is served. -/
  | trapezeRequest (r : TrapezeReq)
  /-- INTERRUPT_TAKEN (R303): An L-core with a pending, enabled interrupt 16, 17 or 18 traps to S-mode at its next instruction boundary. -/
  | interruptTaken (n : Nat)
  /-- MWAIT_SPURIOUS_RETURN (R91): A waiting MWAIT returns with no write or invalidation of the watched line. -/
  | mwaitSpuriousReturn (h : HartId)
  /-- THROTTLING_END (R352): A die that has cooled below 100 °C, or a package whose power has fallen back within the limit, has the
  stopped A-clocks of its W-cores restarted. -/
  | throttlingEnd (c : ThrottleCause)
  /-- CORRECTABLE_ERROR (R353): A memory channel, register file, SRAM bank or L2 array corrects an error and the lifetime record counts it. -/
  | correctableError (e : ErrorSite)
  /-- L2_POWER_GATING (R82): An L2 slice's data array is power-gated into retention, or woken from it. -/
  | l2PowerGating (die slice : Nat) (gate : Bool)
  /-- RINGMASTER_CLOCK (R288): Ringmaster applies one A-clock's version updates, completions and spawns, then readies, assigns and tests
  settling. -/
  | ringmasterClock
  /-- HOT_PAGE_PUBLISH (R92): At the end of a sampling interval the hottest 64 pages are written to the list and interrupt 18 raised. -/
  | hotPagePublish
  /-- PREEMPT (R319): Host command 1 pre-empts the partition and saves its state. -/
  | preempt
  /-- RESUME (R322): Host command 2 restores the saved state and continues the partition. -/
  | resume
  /-- LIFETIME_COMMIT (R353): Firmware commits the lifetime record at least every 60 s and at orderly shutdown. -/
  | lifetimeCommit
  deriving DecidableEq, Repr

end Sys2Proof
end

