-- ==== Sys2Proof/WellFormed.lean ====
section
/-! DEFINITION. Sys2Proof/WellFormed.lean: which instructions of the syntax the encoding admits.

The checks are the field rules of R122, R123 and the opcode map, as far as the types of the fields do not already say them. Events
carry no encoding and are well formed. -/
namespace Sys2Proof

/-- An rm field of a base F or D instruction: 101 and 110 are reserved (R102, R103). -/
def rmOk (rm : BitVec 3) : Bool := rm != 5 && rm != 6

/-- A predicate number names p0 to p11 (R122). -/
def predOk (p : PReg) : Bool := p.toNat < 12

def BaseInstr.wf : BaseInstr → Bool
  | .fma _ _ _ _ _ _ rm => rmOk rm
  | .farith _ _ _ _ _ rm => rmOk rm
  | .fsqrt _ _ _ rm => rmOk rm
  | .fcvtToInt _ _ _ _ rm => rmOk rm
  | .fcvtFromInt _ _ _ _ rm => rmOk rm
  | .fcvtSD _ _ rm => rmOk rm
  | .fcvtDS _ _ rm => rmOk rm
  | _ => true

/-- The subject classes of R123 for a base instruction: it has an rm field. -/
def BaseInstr.rmBearing : BaseInstr → Bool
  | .fma .. | .farith .. | .fsqrt .. | .fcvtToInt .. | .fcvtFromInt .. | .fcvtSD .. | .fcvtDS .. => true
  | _ => false

/-- A base instruction that writes an x or f register, a write to x0 included (R123). -/
def BaseInstr.hasDest : BaseInstr → Bool
  | .branch .. | .store .. | .fence .. | .fenceTso | .fenceI | .ecall | .ebreak | .sret | .mret | .wfi | .sfenceVma .. | .fstore .. => false
  | _ => true

/-- The hint-bearing subjects of R123. -/
def Instr.hintBearing : Instr → Bool
  | .base _ (.branch ..) => true
  | _ => false

/-- The rm-bearing subjects of R123. -/
def Instr.rmBearing : Instr → Bool
  | .base _ b => b.rmBearing
  | .fuseS .. | .fuseD ..
  | .ncvtE4 .. | .ncvtE5 .. | .ncvtE5s .. | .ncvtBf .. | .ncvtHf .. | .ncvtI8 .. | .ncvtN8 ..
  | .fsclS .. | .bstFh ..
  | .dadd .. | .dsub .. | .dmul .. | .ddiv .. | .dmix .. | .daff .. | .dmap .. | .duni .. => true
  | _ => false

/-- The rs4-bearing subjects of R123. -/
def Instr.rs4Bearing : Instr → Bool
  | .fuseS .. | .fuseD .. | .dmix .. | .daff .. | .duni .. => true
  | _ => false

/-- The encoded rows that write no register: every other encoded row has a destination (R123, R177, R179, R211, R249, R273). -/
def Instr.noDest : Instr → Bool
  | .migrW | .migrL | .reform | .gleave | .gyield | .tbarArr .. | .tbarWait .. | .tbarSync ..
  | .bstB .. | .bstH .. | .bstW .. | .bstD .. | .bstFw .. | .bstFd .. | .bstFh ..
  | .rel .. | .mwatch .. | .mwait | .barinit .. | .barwait .. | .xcfence | .sflush .. | .bget ..
  | .bamoAdd .. | .bamoMin .. | .bamoMax .. | .bamoAddf ..
  | .obrel .. | .mxfence | .mxswap | .aczero .. | .mxsave .. | .mxrest ..
  | .dst .. | .tend | .tdec .. | .tyield | .vpub .. | .vfin ..
  | .zresume .. | .zsignal .. => true
  | _ => false

/-- The supervisor instructions of the custom opcodes (R130, R313). -/
def Instr.superZ : Instr → Bool
  | .mxsave .. | .mxrest .. | .zresume .. | .zpark .. | .zsignal .. | .zfqpop .. => true
  | _ => false

/-- The four instructions that accept no PFX field other than neutral (R313). -/
def Instr.noPfx : Instr → Bool
  | .zresume .. | .zpark .. | .zsignal .. | .zfqpop .. => true
  | _ => false

/-- The rows that stand for an encoding of 32 bits: neither PFX nor an event. -/
def Instr.plain : Instr → Bool
  | .pfx .. => false
  | .tbarWake .. | .mwaitWake .. | .barwaitWake .. | .extraction .. | .migrationDepart .. | .arrivalWSite .. | .arrivalLSite ..
  | .carouselDraw .. | .binAged .. | .groupSlotLimit .. | .mendingEntryPerform .. | .drainComplete .. | .mendingBufferRoom ..
  | .copyRequestPerform .. | .copyCompletion .. | .copyEngineRoom .. | .xcwaitWake .. | .pressCommandQueueRoom ..
  | .pressLoadWeights .. | .pressSwapEffect .. | .pressStream .. | .pressTopk .. | .mxwaitWake .. | .acrdRowFinal ..
  | .aczeroUsersDone .. | .obresStallEnd .. | .mxsaveQueueEmpty .. | .ringmasterClock | .taskAbandon .. | .budgetExhausted ..
  | .emulationHandlerRun .. | .handlerTimeLimit .. | .hotPagePublish | .zpackWrite .. | .zwidthWrite .. | .zparkWrite ..
  | .zrbtWrite .. | .zbankroleWrite .. | .zhotlWrite .. | .zseedWrite .. | .zwfqWrite .. | .zemqWrite .. | .csrWrite ..
  | .preempt | .resume | .checkpoint .. | .restore .. | .attest .. | .hostMemoryRequest .. | .partitionFormation ..
  | .coreRemoval .. | .coreAssignment .. | .linkRetry .. | .packageUnreachable .. | .uncorrectableError .. | .bringUp ..
  | .recoveryScrub .. | .powerThrottle .. | .thermalThrottle .. | .emergencyShutdown .. | .lifetimeCommit | .trapezeRequest ..
  | .interruptTaken .. | .mwaitSpuriousReturn .. | .throttlingEnd .. | .correctableError .. | .l2PowerGating .. => false
  | _ => true

/-- A subject writes an x, f, p, w, k, d or b register, a write to x0 included (R123). -/
def Instr.hasDest (i : Instr) : Bool :=
  match i with
  | .base _ b => b.hasDest
  | _ => i.plain && !i.noDest

/-- The field rules of R123 for the prefix p before the subject i. -/
def Pfx.legalOn (p : Pfx) (i : Instr) : Bool :=
  (p.guard.toNat < 12 || (p.guard == 15 && !p.sense)) &&
  (p.hint == 0 || i.hintBearing) &&
  (p.rm == 7 || i.rmBearing) &&
  (!p.mz || (p.guard != 15 && i.hasDest)) &&
  (p.rs4 == 0 || i.rs4Bearing) &&
  (!i.noPfx || p == Pfx.neutral)

/-- The field rules of the opcode map for a row of 32 bits. -/
def Instr.fieldsOk : Instr → Bool
  | .base none b => b.wf
  | .base (some c) b => b.wf && (c.extractLsb' 0 2 != 3#2)
  | .pcmpEq d _ _ | .pcmpNe d _ _ | .pcmpLt d _ _ | .pcmpGe d _ _ | .pcmpLtu d _ _ | .pcmpGeu d _ _ => predOk d
  | .pfeqS d _ _ | .pfltS d _ _ | .pfleS d _ _ | .pfunS d _ _ | .pfeqD d _ _ | .pfltD d _ _ | .pfleD d _ _ | .pfunD d _ _ => predOk d
  | .pand d a b | .por d a b | .pxor d a b | .pandn d a b => predOk d && predOk a && predOk b
  | .pnot d a => predOk d && predOk a
  | .wmvw _ w => w.extractLsb' 0 1 == 0#1
  | .dmom _ _ k => k.toNat ≤ 4
  | _ => true

/-- Well-formed instructions: the rows of 32 bits under the opcode map, a pair of a prefix and a subject of 32 bits under R123, and
the events. -/
def Instr.wf (i : Instr) : Bool :=
  match i with
  | .pfx p sub =>
      sub.plain && sub.fieldsOk && p.legalOn sub &&
      (match sub with | .base (some _) _ => false | _ => true)
  | _ => i.fieldsOk

end Sys2Proof
end

