-- ==== Sys2Proof/Decode.lean ====
section
/-! DEFINITION. Sys2Proof/Decode.lean: from bytes to instructions, and back.

The decoder is total on every list of bytes: it answers an instruction with its length, or says that more bytes are needed, or
rejects the encoding by name with what a cause-2 trap reports of it (R119 to R132). The encoder stands after it, written from the
same encoding tables. -/
namespace Sys2Proof

/-- Why an encoding is no instruction. -/
inductive Reject where
  /-- Unassigned under R119, R120 or the opcode map. -/
  | unassigned
  /-- A reserved field or a register field out of its class (R122). -/
  | reservedField
  /-- An rm field of a base F or D instruction that holds 101 or 110 (R103, R132). -/
  | reservedRm
  /-- A 16-bit encoding that RV64C reserves (R119). -/
  | reserved16
  /-- An encoding of 48 bits or more (R119, R120). -/
  | long
  /-- A field rule of the prefix is broken (R123). -/
  | pfxField
  /-- A PFX followed by a PFX (R123). -/
  | pfxOnPfx
  /-- A PFX followed by a 16-bit encoding (R123). -/
  | pfxOn16
  /-- A PFX followed by an encoding of 48 bits or more (R123). -/
  | pfxOnLong
  deriving DecidableEq, Repr

/-- What a cause 2 for an encoding reports (R131, R132). -/
structure Illegal where
  reason : Reject
  /-- Bits 31:0 of stval: the subject or the lone instruction. -/
  word : BitVec 32
  /-- Bits 63:32 of stval: the PFX word of a pair. -/
  pfx : BitVec 32
  /-- The emulation class (R120, R132). -/
  cls : Nat
  /-- Emulation-eligible (R132). -/
  eligible : Bool
  /-- The length in bytes of what was read as one instruction. -/
  len : Nat
  deriving DecidableEq, Repr

/-- The stval of a cause 2 for an encoding (R131). -/
def Illegal.stval (e : Illegal) : Word := e.pfx ++ e.word

/-- What the decoder answers. -/
inductive Decoded where
  | ok (i : Instr) (len : Nat)
  | illegal (e : Illegal)
  | more (n : Nat)
  deriving DecidableEq, Repr

/-- The fields of a 32-bit encoding (R121), the same cut for every format. -/
structure Fields where
  f7 : BitVec 7
  rs2 : BitVec 5
  rs1 : BitVec 5
  f3 : BitVec 3
  rd : BitVec 5
  op : BitVec 7
  deriving DecidableEq, Repr

/-- The fields of a word. -/
def fieldsOf (w : BitVec 32) : Fields :=
  ⟨w.extractLsb' 25 7, w.extractLsb' 20 5, w.extractLsb' 15 5, w.extractLsb' 12 3, w.extractLsb' 7 5, w.extractLsb' 0 7⟩

/-- The word of some fields. -/
def Fields.word (f : Fields) : BitVec 32 := f.f7 ++ f.rs2 ++ f.rs1 ++ f.f3 ++ f.rd ++ f.op

/-- The 12-bit immediate of the I and ZI formats. -/
def Fields.immI (f : Fields) : BitVec 12 := f.f7 ++ f.rs2

/-- The 12-bit immediate of the S format. -/
def Fields.immS (f : Fields) : BitVec 12 := f.f7 ++ f.rd

/-- The 20-bit immediate of the U format. -/
def Fields.immU (f : Fields) : BitVec 20 := f.f7 ++ f.rs2 ++ f.rs1 ++ f.f3

/-- The branch offset of the B format without its zero bit 0. -/
def Fields.offB (f : Fields) : BitVec 12 :=
  f.f7.extractLsb' 6 1 ++ f.rd.extractLsb' 0 1 ++ f.f7.extractLsb' 0 6 ++ f.rd.extractLsb' 1 4

/-- The jump offset of the J format without its zero bit 0. -/
def Fields.offJ (f : Fields) : BitVec 20 :=
  f.immU.extractLsb' 19 1 ++ f.immU.extractLsb' 0 8 ++ f.immU.extractLsb' 8 1 ++ f.immU.extractLsb' 9 10

/-- The rs3 field of the R4 formats. -/
def Fields.rs3 (f : Fields) : BitVec 5 := f.f7.extractLsb' 2 5

/-- The fmt or funct2 field of the R4 formats. -/
def Fields.f2 (f : Fields) : BitVec 2 := f.f7.extractLsb' 0 2

/-! ## Checks on the fields of a Zaryar instruction (R122) -/

/-- A field that must hold an operand of its class: a breach is a reserved field. -/
def need (o : Option Instr) : Except Reject Instr :=
  match o with
  | some i => .ok i
  | none => .error .reservedField

/-- Class 0: no operand. -/
def zeroF (x : BitVec 5) : Option Unit := if x == 0#5 then some () else none

/-- Class p: bit 4 is reserved, and so are 12 to 15. -/
def pOf (x : BitVec 5) : Option PReg :=
  if x.extractLsb' 4 1 == 0#1 && predOk (x.extractLsb' 0 4) then some (x.extractLsb' 0 4) else none

/-- Class b, and the tag bit of DUNI: bit 4 is reserved. -/
def bOf (x : BitVec 5) : Option (BitVec 4) :=
  if x.extractLsb' 4 1 == 0#1 then some (x.extractLsb' 0 4) else none

/-- Class d, and the function code of DMAP: bits 4:3 are reserved. -/
def dOf (x : BitVec 5) : Option (BitVec 3) :=
  if x.extractLsb' 3 2 == 0#2 then some (x.extractLsb' 0 3) else none

/-- Class k: bits 4:2 are reserved. -/
def kOf (x : BitVec 5) : Option KReg :=
  if x.extractLsb' 2 3 == 0#3 then some (x.extractLsb' 0 2) else none

/-- The target form of DFORM: bits 4:1 must be zero. -/
def oneOf (x : BitVec 5) : Option (BitVec 1) :=
  if x.extractLsb' 1 4 == 0#4 then some (x.extractLsb' 0 1) else none

/-- The k of DMOM: 0 to 4 (R130). -/
def momK (x : BitVec 5) : Option (BitVec 3) := if x.toNat ≤ 4 then some (x.extractLsb' 0 3) else none

/-- WMV: rs2[4:2] must be zero. -/
def zeroHi3 (x : BitVec 5) : Option Unit := if x.extractLsb' 2 3 == 0#3 then some () else none

/-- The pair word of WMVW: rs2[4:1] must be zero and the word even (R128). -/
def evenW (f : Fields) : Option WIdx :=
  if f.rs2.extractLsb' 1 4 == 0#4 && f.rs1.extractLsb' 0 1 == 0#1 then some (f.rs2.extractLsb' 0 1 ++ f.rs1) else none

/-- The word selector of WLD, WST, WLDF and WSTF (R128). -/
def wordSel (f : Fields) (direct : WIdx → Instr) (indexed : KReg → XReg → Instr) : Option Instr :=
  if f.rs2.extractLsb' 1 4 == 0#4 then some (direct (f.rs2.extractLsb' 0 1 ++ f.rs1))
  else if f.rs2.extractLsb' 3 2 == 1#2 && f.rs2.extractLsb' 0 1 == 0#1 then some (indexed (f.rs2.extractLsb' 1 2) f.rs1)
  else none

/-! ## The base profile (R118, R119) -/

/-- A base instruction, or the unassigned encoding. -/
def ok32 (b : BaseInstr) : Except Reject Instr := .ok (.base none b)

/-- An optional base instruction; none is unassigned. -/
def opt32 (o : Option BaseInstr) : Except Reject Instr :=
  match o with
  | some b => ok32 b
  | none => .error .unassigned

/-- LOAD (0000011). -/
def decLoad (f : Fields) : Option BaseInstr :=
  (match f.f3 with
   | 0#3 => some LoadOp.lb | 1#3 => some .lh | 2#3 => some .lw | 3#3 => some .ld
   | 4#3 => some .lbu | 5#3 => some .lhu | 6#3 => some .lwu | _ => none).map fun o => .load o f.rd f.rs1 f.immI

/-- LOAD-FP (0000111): FLW and FLD. -/
def decLoadFp (f : Fields) : Option BaseInstr :=
  match f.f3 with
  | 2#3 => some (.fload .s f.rd f.rs1 f.immI)
  | 3#3 => some (.fload .d f.rd f.rs1 f.immI)
  | _ => none

/-- MISC-MEM (0001111): FENCE, FENCE.TSO and FENCE.I; a nonzero reserved field is cause 2 (R5). [DEDUCED, log 94: unsafe] -/
def decMiscMem (f : Fields) : Option BaseInstr :=
  match f.f3 with
  | 0#3 =>
    if f.rs1 ≠ 0#5 || f.rd ≠ 0#5 then none
    else if f.immI.extractLsb' 8 4 = 0#4 then some (.fence (f.immI.extractLsb' 4 4) (f.immI.extractLsb' 0 4))
    else if f.immI = 0x833#12 then some .fenceTso
    else none
  | 1#3 => if f.rs1 ≠ 0#5 || f.rd ≠ 0#5 || f.immI ≠ 0#12 then none else some .fenceI
  | _ => none

/-- The left shifts of OP-IMM and the one-operand operations beside them. -/
def decOpImmLeft (f : Fields) : Option BaseInstr :=
  let sh : BitVec 6 := f.immI.extractLsb' 0 6
  match f.immI.extractLsb' 6 6 with
  | 0x00#6 => some (.shift .slli f.rd f.rs1 sh)
  | 0x0A#6 => some (.shift .bseti f.rd f.rs1 sh)
  | 0x12#6 => some (.shift .bclri f.rd f.rs1 sh)
  | 0x1A#6 => some (.shift .binvi f.rd f.rs1 sh)
  | 0x18#6 =>
    match sh with
    | 0#6 => some (.unary .clz f.rd f.rs1)
    | 1#6 => some (.unary .ctz f.rd f.rs1)
    | 2#6 => some (.unary .cpop f.rd f.rs1)
    | 4#6 => some (.unary .sextB f.rd f.rs1)
    | 5#6 => some (.unary .sextH f.rd f.rs1)
    | _ => none
  | _ => none

/-- The right shifts of OP-IMM and the one-operand operations beside them. -/
def decOpImmRight (f : Fields) : Option BaseInstr :=
  let sh : BitVec 6 := f.immI.extractLsb' 0 6
  match f.immI.extractLsb' 6 6 with
  | 0x00#6 => some (.shift .srli f.rd f.rs1 sh)
  | 0x10#6 => some (.shift .srai f.rd f.rs1 sh)
  | 0x18#6 => some (.shift .rori f.rd f.rs1 sh)
  | 0x12#6 => some (.shift .bexti f.rd f.rs1 sh)
  | 0x0A#6 => if sh == 0x07#6 then some (.unary .orcB f.rd f.rs1) else none
  | 0x1A#6 => if sh == 0x38#6 then some (.unary .rev8 f.rd f.rs1) else none
  | _ => none

/-- OP-IMM (0010011). -/
def decOpImm (f : Fields) : Option BaseInstr :=
  match f.f3 with
  | 0#3 => some (.imm .addi f.rd f.rs1 f.immI)
  | 1#3 => decOpImmLeft f
  | 2#3 => some (.imm .slti f.rd f.rs1 f.immI)
  | 3#3 => some (.imm .sltiu f.rd f.rs1 f.immI)
  | 4#3 => some (.imm .xori f.rd f.rs1 f.immI)
  | 5#3 => decOpImmRight f
  | 6#3 => some (.imm .ori f.rd f.rs1 f.immI)
  | _ => some (.imm .andi f.rd f.rs1 f.immI)

/-- OP-IMM-32 (0011011). -/
def decOpImm32 (f : Fields) : Option BaseInstr :=
  match f.f3 with
  | 0#3 => some (.imm .addiw f.rd f.rs1 f.immI)
  | 1#3 =>
    if f.immI.extractLsb' 6 6 == 0x02#6 then some (.shift .slliUw f.rd f.rs1 (f.immI.extractLsb' 0 6))
    else
      match f.f7 with
      | 0x00#7 => some (.shiftW .slliw f.rd f.rs1 f.rs2)
      | 0x30#7 =>
        match f.rs2 with
        | 0#5 => some (.unary .clzw f.rd f.rs1)
        | 1#5 => some (.unary .ctzw f.rd f.rs1)
        | 2#5 => some (.unary .cpopw f.rd f.rs1)
        | _ => none
      | _ => none
  | 5#3 =>
    match f.f7 with
    | 0x00#7 => some (.shiftW .srliw f.rd f.rs1 f.rs2)
    | 0x20#7 => some (.shiftW .sraiw f.rd f.rs1 f.rs2)
    | 0x30#7 => some (.shiftW .roriw f.rd f.rs1 f.rs2)
    | _ => none
  | _ => none

/-- STORE (0100011). -/
def decStore (f : Fields) : Option BaseInstr :=
  match f.f3 with
  | 0#3 => some (.store .sb f.rs1 f.rs2 f.immS)
  | 1#3 => some (.store .sh f.rs1 f.rs2 f.immS)
  | 2#3 => some (.store .sw f.rs1 f.rs2 f.immS)
  | 3#3 => some (.store .sd f.rs1 f.rs2 f.immS)
  | _ => none

/-- STORE-FP (0100111): FSW and FSD. -/
def decStoreFp (f : Fields) : Option BaseInstr :=
  match f.f3 with
  | 2#3 => some (.fstore .s f.rs1 f.rs2 f.immS)
  | 3#3 => some (.fstore .d f.rs1 f.rs2 f.immS)
  | _ => none

/-- AMO (0101111): widths of 32 and 64 bits. -/
def decAmo (f : Fields) : Option BaseInstr :=
  let aq := f.f7.extractLsb' 1 1 == 1#1
  let rl := f.f7.extractLsb' 0 1 == 1#1
  let go (dbl : Bool) : Option BaseInstr :=
    match f.f7.extractLsb' 2 5 with
    | 0x02#5 => if f.rs2 == 0#5 then some (.lr dbl aq rl f.rd f.rs1) else none
    | 0x03#5 => some (.sc dbl aq rl f.rd f.rs1 f.rs2)
    | 0x01#5 => some (.amo .swap dbl aq rl f.rd f.rs1 f.rs2)
    | 0x00#5 => some (.amo .add dbl aq rl f.rd f.rs1 f.rs2)
    | 0x04#5 => some (.amo .xor dbl aq rl f.rd f.rs1 f.rs2)
    | 0x0C#5 => some (.amo .and dbl aq rl f.rd f.rs1 f.rs2)
    | 0x08#5 => some (.amo .or dbl aq rl f.rd f.rs1 f.rs2)
    | 0x10#5 => some (.amo .min dbl aq rl f.rd f.rs1 f.rs2)
    | 0x14#5 => some (.amo .max dbl aq rl f.rd f.rs1 f.rs2)
    | 0x18#5 => some (.amo .minu dbl aq rl f.rd f.rs1 f.rs2)
    | 0x1C#5 => some (.amo .maxu dbl aq rl f.rd f.rs1 f.rs2)
    | _ => none
  match f.f3 with
  | 2#3 => go false
  | 3#3 => go true
  | _ => none

/-- The operations of OP (0110011) by funct7 and funct3. -/
def aluOfOp (f7 : BitVec 7) (f3 : BitVec 3) : Option AluOp :=
  match f7 with
  | 0x00#7 =>
    match f3 with
    | 0#3 => some .add | 1#3 => some .sll | 2#3 => some .slt | 3#3 => some .sltu
    | 4#3 => some .xor | 5#3 => some .srl | 6#3 => some .or | _ => some .and
  | 0x20#7 =>
    match f3 with
    | 0#3 => some .sub | 5#3 => some .sra | 4#3 => some .xnor | 6#3 => some .orn | 7#3 => some .andn | _ => none
  | 0x01#7 =>
    match f3 with
    | 0#3 => some .mul | 1#3 => some .mulh | 2#3 => some .mulhsu | 3#3 => some .mulhu
    | 4#3 => some .div | 5#3 => some .divu | 6#3 => some .rem | _ => some .remu
  | 0x10#7 => match f3 with | 2#3 => some .sh1add | 4#3 => some .sh2add | 6#3 => some .sh3add | _ => none
  | 0x05#7 => match f3 with | 4#3 => some .min | 5#3 => some .minu | 6#3 => some .max | 7#3 => some .maxu | _ => none
  | 0x30#7 => match f3 with | 1#3 => some .rol | 5#3 => some .ror | _ => none
  | 0x24#7 => match f3 with | 1#3 => some .bclr | 5#3 => some .bext | _ => none
  | 0x34#7 => match f3 with | 1#3 => some .binv | _ => none
  | 0x14#7 => match f3 with | 1#3 => some .bset | _ => none
  | 0x07#7 => match f3 with | 5#3 => some .czeroEqz | 7#3 => some .czeroNez | _ => none
  | _ => none

/-- The operations of OP-32 (0111011) by funct7 and funct3; ZEXT.H stands apart. -/
def aluOfOp32 (f7 : BitVec 7) (f3 : BitVec 3) : Option AluOp :=
  match f7 with
  | 0x00#7 => match f3 with | 0#3 => some .addw | 1#3 => some .sllw | 5#3 => some .srlw | _ => none
  | 0x20#7 => match f3 with | 0#3 => some .subw | 5#3 => some .sraw | _ => none
  | 0x01#7 =>
    match f3 with
    | 0#3 => some .mulw | 4#3 => some .divw | 5#3 => some .divuw | 6#3 => some .remw | 7#3 => some .remuw | _ => none
  | 0x04#7 => match f3 with | 0#3 => some .addUw | _ => none
  | 0x10#7 => match f3 with | 2#3 => some .sh1addUw | 4#3 => some .sh2addUw | 6#3 => some .sh3addUw | _ => none
  | 0x30#7 => match f3 with | 1#3 => some .rolw | 5#3 => some .rorw | _ => none
  | _ => none

/-- OP (0110011). -/
def decOp (f : Fields) : Option BaseInstr := (aluOfOp f.f7 f.f3).map fun o => .alu o f.rd f.rs1 f.rs2

/-- OP-32 (0111011). -/
def decOp32 (f : Fields) : Option BaseInstr :=
  if f.f7 == 0x04#7 && f.f3 == 4#3 then if f.rs2 == 0#5 then some (.unary .zextH f.rd f.rs1) else none
  else (aluOfOp32 f.f7 f.f3).map fun o => .alu o f.rd f.rs1 f.rs2

/-- The format of an F or D operation. -/
def fmtOf (x : BitVec 2) : Option Fmt := match x with | 0#2 => some .s | 1#2 => some .d | _ => none

/-- The instruction if its rm field is no reserved code (R103, R132). -/
def withRm (rm : BitVec 3) (b : BaseInstr) : Except Reject Instr := if rmOk rm then ok32 b else .error .reservedRm

/-- MADD, MSUB, NMSUB and NMADD. -/
def decFma (o : FmaOp) (f : Fields) : Except Reject Instr :=
  match fmtOf f.f2 with
  | some fmt => withRm f.f3 (.fma o fmt f.rd f.rs1 f.rs2 f.rs3 f.f3)
  | none => .error .unassigned

/-- The integer type of a conversion by the rs2 field. -/
def intTyOf (x : BitVec 5) : Option IntTy :=
  match x with | 0#5 => some .w | 1#5 => some .wu | 2#5 => some .l | 3#5 => some .lu | _ => none

/-- The operations of OP-FP (1010011) of one format, by the upper five bits of funct7. -/
def decOpFpFmt (fmt : Fmt) (f : Fields) : Except Reject Instr :=
  match f.f7.extractLsb' 2 5 with
  | 0x00#5 => withRm f.f3 (.farith .add fmt f.rd f.rs1 f.rs2 f.f3)
  | 0x01#5 => withRm f.f3 (.farith .sub fmt f.rd f.rs1 f.rs2 f.f3)
  | 0x02#5 => withRm f.f3 (.farith .mul fmt f.rd f.rs1 f.rs2 f.f3)
  | 0x03#5 => withRm f.f3 (.farith .div fmt f.rd f.rs1 f.rs2 f.f3)
  | 0x0B#5 => if f.rs2 == 0#5 then withRm f.f3 (.fsqrt fmt f.rd f.rs1 f.f3) else .error .unassigned
  | 0x04#5 =>
    match f.f3 with
    | 0#3 => ok32 (.fsgn .sgnj fmt f.rd f.rs1 f.rs2)
    | 1#3 => ok32 (.fsgn .sgnjn fmt f.rd f.rs1 f.rs2)
    | 2#3 => ok32 (.fsgn .sgnjx fmt f.rd f.rs1 f.rs2)
    | _ => .error .unassigned
  | 0x05#5 =>
    match f.f3 with
    | 0#3 => ok32 (.fminmax false fmt f.rd f.rs1 f.rs2)
    | 1#3 => ok32 (.fminmax true fmt f.rd f.rs1 f.rs2)
    | _ => .error .unassigned
  | 0x08#5 =>
    match fmt, f.rs2 with
    | .s, 1#5 => withRm f.f3 (.fcvtSD f.rd f.rs1 f.f3)
    | .d, 0#5 => withRm f.f3 (.fcvtDS f.rd f.rs1 f.f3)
    | _, _ => .error .unassigned
  | 0x14#5 =>
    match f.f3 with
    | 0#3 => ok32 (.fcmp .le fmt f.rd f.rs1 f.rs2)
    | 1#3 => ok32 (.fcmp .lt fmt f.rd f.rs1 f.rs2)
    | 2#3 => ok32 (.fcmp .eq fmt f.rd f.rs1 f.rs2)
    | _ => .error .unassigned
  | 0x18#5 =>
    match intTyOf f.rs2 with
    | some t => withRm f.f3 (.fcvtToInt t fmt f.rd f.rs1 f.f3)
    | none => .error .unassigned
  | 0x1A#5 =>
    match intTyOf f.rs2 with
    | some t => withRm f.f3 (.fcvtFromInt t fmt f.rd f.rs1 f.f3)
    | none => .error .unassigned
  | 0x1C#5 =>
    if f.rs2 == 0#5 then
      match f.f3 with
      | 0#3 => ok32 (.fmvToX fmt f.rd f.rs1)
      | 1#3 => ok32 (.fclass fmt f.rd f.rs1)
      | _ => .error .unassigned
    else .error .unassigned
  | 0x1E#5 => if f.rs2 == 0#5 && f.f3 == 0#3 then ok32 (.fmvFromX fmt f.rd f.rs1) else .error .unassigned
  | _ => .error .unassigned

/-- OP-FP (1010011). -/
def decOpFp (f : Fields) : Except Reject Instr :=
  match fmtOf f.f2 with
  | some fmt => decOpFpFmt fmt f
  | none => .error .unassigned

/-- BRANCH (1100011). -/
def decBranch (f : Fields) : Option BaseInstr :=
  match f.f3 with
  | 0#3 => some (.branch .beq f.rs1 f.rs2 f.offB)
  | 1#3 => some (.branch .bne f.rs1 f.rs2 f.offB)
  | 4#3 => some (.branch .blt f.rs1 f.rs2 f.offB)
  | 5#3 => some (.branch .bge f.rs1 f.rs2 f.offB)
  | 6#3 => some (.branch .bltu f.rs1 f.rs2 f.offB)
  | 7#3 => some (.branch .bgeu f.rs1 f.rs2 f.offB)
  | _ => none

/-- The SYSTEM encodings of funct3 000. -/
def decPriv (f : Fields) : Option BaseInstr :=
  if f.rd == 0#5 then
    if f.f7 == 0x09#7 then some (.sfenceVma f.rs1 f.rs2)
    else if f.rs1 == 0#5 then
      match f.immI with
      | 0x000#12 => some .ecall
      | 0x001#12 => some .ebreak
      | 0x102#12 => some .sret
      | 0x302#12 => some .mret
      | 0x105#12 => some .wfi
      | _ => none
    else none
  else none

/-- SYSTEM (1110011). -/
def decSystem (f : Fields) : Option BaseInstr :=
  match f.f3 with
  | 0#3 => decPriv f
  | 1#3 => some (.csr .rw f.rd f.rs1 f.immI)
  | 2#3 => some (.csr .rs f.rd f.rs1 f.immI)
  | 3#3 => some (.csr .rc f.rd f.rs1 f.immI)
  | 5#3 => some (.csrImm .rw f.rd f.rs1 f.immI)
  | 6#3 => some (.csrImm .rs f.rd f.rs1 f.immI)
  | 7#3 => some (.csrImm .rc f.rd f.rs1 f.immI)
  | _ => none

/-! ## The Zaryar opcodes (R127 to R130) -/

/-- custom0, funct3 1: TBAR in the ZI format (R127). -/
def decTbar (f : Fields) : Except Reject Instr :=
  if f.immI.extractLsb' 10 2 == 3#2 || f.immI.extractLsb' 4 6 != 0#6 || f.rd != 0#5 || f.rs1 != 0#5 then .error .reservedField
  else
    match f.immI.extractLsb' 10 2 with
    | 0#2 => .ok (.tbarArr (f.immI.extractLsb' 0 4))
    | 1#2 => .ok (.tbarWait (f.immI.extractLsb' 0 4))
    | _ => .ok (.tbarSync (f.immI.extractLsb' 0 4))

/-- custom2: FUSE in the ZR4 format; every encoding is assigned (R129). -/
def decFuse (f : Fields) : Except Reject Instr :=
  if f.f2.extractLsb' 1 1 == 0#1 then .ok (.fuseS f.rd f.rs1 f.rs2 f.rs3 (f.f2.extractLsb' 0 1 ++ f.f3))
  else .ok (.fuseD f.rd f.rs1 f.rs2 f.rs3 (f.f2.extractLsb' 0 1 ++ f.f3))

/-- custom0, funct3 0 (R127). -/
def decCustom0F0 (f : Fields) : Except Reject Instr :=
    match f.f7 with
    | 0#7 => need (do zeroF f.rd; zeroF f.rs1; zeroF f.rs2; pure (.migrW))
    | 1#7 => need (do zeroF f.rd; zeroF f.rs1; zeroF f.rs2; pure (.migrL))
    | 2#7 => need (do zeroF f.rd; zeroF f.rs1; zeroF f.rs2; pure (.reform))
    | 3#7 => need (do zeroF f.rd; zeroF f.rs1; zeroF f.rs2; pure (.gleave))
    | 4#7 => need (do zeroF f.rd; zeroF f.rs1; zeroF f.rs2; pure (.gyield))
    | 5#7 => need (do zeroF f.rs2; pure (.tjoin f.rd f.rs1))
    | 6#7 => need (do zeroF f.rs1; zeroF f.rs2; pure (.tleave f.rd))
    | _ => .error .unassigned

/-- custom0, funct3 2 (R127). -/
def decCustom0F2 (f : Fields) : Except Reject Instr :=
    match f.f7 with
    | 0#7 => .ok (.shfl f.rd f.rs1 f.rs2)
    | 1#7 => .ok (.shflXor f.rd f.rs1 f.rs2)
    | 2#7 => .ok (.shflUp f.rd f.rs1 f.rs2)
    | 3#7 => .ok (.shflDn f.rd f.rs1 f.rs2)
    | 4#7 => need (do zeroF f.rs2; pure (.gsumI f.rd f.rs1))
    | 5#7 => need (do zeroF f.rs2; pure (.gminI f.rd f.rs1))
    | 6#7 => need (do zeroF f.rs2; pure (.gmaxI f.rd f.rs1))
    | 7#7 => need (do zeroF f.rs2; pure (.gminu f.rd f.rs1))
    | 8#7 => need (do zeroF f.rs2; pure (.gmaxu f.rd f.rs1))
    | 9#7 => need (do zeroF f.rs2; pure (.gand f.rd f.rs1))
    | 10#7 => need (do zeroF f.rs2; pure (.gor f.rd f.rs1))
    | 11#7 => need (do zeroF f.rs2; pure (.gxor f.rd f.rs1))
    | 12#7 => need (do zeroF f.rs2; pure (.gscanI f.rd f.rs1))
    | 13#7 => need (do zeroF f.rs2; pure (.ballot f.rd f.rs1))
    | 14#7 => need (do zeroF f.rs2; pure (.gcount f.rd f.rs1))
    | _ => .error .unassigned

/-- custom0, funct3 3 (R127). -/
def decCustom0F3 (f : Fields) : Except Reject Instr :=
    match f.f7 with
    | 0#7 => .ok (.shflF f.rd f.rs1 f.rs2)
    | 1#7 => need (do zeroF f.rs2; pure (.gsumS f.rd f.rs1))
    | 2#7 => need (do zeroF f.rs2; pure (.gsumD f.rd f.rs1))
    | 3#7 => need (do zeroF f.rs2; pure (.gminS f.rd f.rs1))
    | 4#7 => need (do zeroF f.rs2; pure (.gmaxS f.rd f.rs1))
    | 5#7 => need (do zeroF f.rs2; pure (.gminD f.rd f.rs1))
    | 6#7 => need (do zeroF f.rs2; pure (.gmaxD f.rd f.rs1))
    | 7#7 => need (do zeroF f.rs2; pure (.gscanS f.rd f.rs1))
    | _ => .error .unassigned

/-- custom0, funct3 4 (R127). -/
def decCustom0F4 (f : Fields) : Except Reject Instr :=
    match f.f7 with
    | 0#7 => need (do let d ← pOf f.rd; pure (.pcmpEq d f.rs1 f.rs2))
    | 1#7 => need (do let d ← pOf f.rd; pure (.pcmpNe d f.rs1 f.rs2))
    | 2#7 => need (do let d ← pOf f.rd; pure (.pcmpLt d f.rs1 f.rs2))
    | 3#7 => need (do let d ← pOf f.rd; pure (.pcmpGe d f.rs1 f.rs2))
    | 4#7 => need (do let d ← pOf f.rd; pure (.pcmpLtu d f.rs1 f.rs2))
    | 5#7 => need (do let d ← pOf f.rd; pure (.pcmpGeu d f.rs1 f.rs2))
    | _ => .error .unassigned

/-- custom0, funct3 5 (R127). -/
def decCustom0F5 (f : Fields) : Except Reject Instr :=
    match f.f7 with
    | 0#7 => need (do let d ← pOf f.rd; pure (.pfeqS d f.rs1 f.rs2))
    | 1#7 => need (do let d ← pOf f.rd; pure (.pfltS d f.rs1 f.rs2))
    | 2#7 => need (do let d ← pOf f.rd; pure (.pfleS d f.rs1 f.rs2))
    | 3#7 => need (do let d ← pOf f.rd; pure (.pfunS d f.rs1 f.rs2))
    | 4#7 => need (do let d ← pOf f.rd; pure (.pfeqD d f.rs1 f.rs2))
    | 5#7 => need (do let d ← pOf f.rd; pure (.pfltD d f.rs1 f.rs2))
    | 6#7 => need (do let d ← pOf f.rd; pure (.pfleD d f.rs1 f.rs2))
    | 7#7 => need (do let d ← pOf f.rd; pure (.pfunD d f.rs1 f.rs2))
    | 8#7 => need (do let d ← pOf f.rd; let a ← pOf f.rs1; let b ← pOf f.rs2; pure (.pand d a b))
    | 9#7 => need (do let d ← pOf f.rd; let a ← pOf f.rs1; let b ← pOf f.rs2; pure (.por d a b))
    | 10#7 => need (do let d ← pOf f.rd; let a ← pOf f.rs1; let b ← pOf f.rs2; pure (.pxor d a b))
    | 11#7 => need (do let d ← pOf f.rd; let a ← pOf f.rs1; let b ← pOf f.rs2; pure (.pandn d a b))
    | 12#7 => need (do let d ← pOf f.rd; let a ← pOf f.rs1; zeroF f.rs2; pure (.pnot d a))
    | 13#7 => need (do zeroF f.rs1; zeroF f.rs2; pure (.pmvXp f.rd))
    | 14#7 => need (do zeroF f.rd; zeroF f.rs2; pure (.pmvPx f.rs1))
    | 15#7 => need (do zeroF f.rs2; pure (.pany f.rd f.rs1))
    | 16#7 => need (do zeroF f.rs2; pure (.pall f.rd f.rs1))
    | _ => .error .unassigned

/-- custom0, funct3 6 (R127). -/
def decCustom0F6 (f : Fields) : Except Reject Instr :=
    match f.f7 with
    | 0#7 => .ok (.jtab f.rd f.rs1 f.rs2)
    | _ => .error .unassigned

/-- custom1, funct3 0 (R128). -/
def decCustom1F0 (f : Fields) : Except Reject Instr :=
    match f.f7 with
    | 0#7 => need (do let b ← bOf f.rs2; pure (.bldB f.rd f.rs1 b))
    | 1#7 => need (do let b ← bOf f.rs2; pure (.bldH f.rd f.rs1 b))
    | 2#7 => need (do let b ← bOf f.rs2; pure (.bldW f.rd f.rs1 b))
    | 3#7 => need (do let b ← bOf f.rs2; pure (.bldD f.rd f.rs1 b))
    | 4#7 => need (do let b ← bOf f.rs2; pure (.bldBu f.rd f.rs1 b))
    | 5#7 => need (do let b ← bOf f.rs2; pure (.bldHu f.rd f.rs1 b))
    | 6#7 => need (do let b ← bOf f.rs2; pure (.bldWu f.rd f.rs1 b))
    | 7#7 => need (do let b ← bOf f.rs2; pure (.bldFw f.rd f.rs1 b))
    | 8#7 => need (do let b ← bOf f.rs2; pure (.bldFd f.rd f.rs1 b))
    | 9#7 => need (do let b ← bOf f.rs2; pure (.bldFh f.rd f.rs1 b))
    | _ => .error .unassigned

/-- custom1, funct3 1 (R128). -/
def decCustom1F1 (f : Fields) : Except Reject Instr :=
    match f.f7 with
    | 0#7 => need (do let d ← bOf f.rd; pure (.bstB d f.rs1 f.rs2))
    | 1#7 => need (do let d ← bOf f.rd; pure (.bstH d f.rs1 f.rs2))
    | 2#7 => need (do let d ← bOf f.rd; pure (.bstW d f.rs1 f.rs2))
    | 3#7 => need (do let d ← bOf f.rd; pure (.bstD d f.rs1 f.rs2))
    | 4#7 => need (do let d ← bOf f.rd; pure (.bstFw d f.rs1 f.rs2))
    | 5#7 => need (do let d ← bOf f.rd; pure (.bstFd d f.rs1 f.rs2))
    | 6#7 => need (do let d ← bOf f.rd; pure (.bstFh d f.rs1 f.rs2))
    | _ => .error .unassigned

/-- custom1, funct3 2 (R128). -/
def decCustom1F2 (f : Fields) : Except Reject Instr :=
    match f.f7 with
    | 0#7 => need (wordSel f (.wldDirect f.rd) (.wldIndexed f.rd))
    | 1#7 => need (wordSel f (.wstDirect f.rd) (.wstIndexed f.rd))
    | 2#7 => need (wordSel f (.wldfDirect f.rd) (.wldfIndexed f.rd))
    | 3#7 => need (wordSel f (.wstfDirect f.rd) (.wstfIndexed f.rd))
    | 4#7 => need (do let k ← kOf f.rd; pure (.kset k f.rs1 f.rs2))
    | 5#7 => need (do zeroHi3 f.rs2; pure (.wmv (f.rs2.extractLsb' 1 1 ++ f.rd) (f.rs2.extractLsb' 0 1 ++ f.rs1)))
    | 6#7 => need (do let w ← evenW f; pure (.wmvw f.rd w))
    | _ => .error .unassigned

/-- custom1, funct3 3 (R128). -/
def decCustom1F3 (f : Fields) : Except Reject Instr :=
    match f.f7 with
    | 0#7 => .ok (.sobind f.rd f.rs1 f.rs2)
    | 1#7 => .ok (.sounbind f.rd f.rs1 f.rs2)
    | 2#7 => need (do zeroF f.rs2; pure (.acq f.rd f.rs1))
    | 3#7 => need (do zeroF f.rd; zeroF f.rs2; pure (.rel f.rs1))
    | 4#7 => need (do zeroF f.rd; zeroF f.rs2; pure (.mwatch f.rs1))
    | 5#7 => need (do zeroF f.rd; zeroF f.rs1; zeroF f.rs2; pure (.mwait))
    | 6#7 => need (do zeroF f.rd; pure (.barinit f.rs1 f.rs2))
    | 7#7 => .ok (.bararr f.rd f.rs1 f.rs2)
    | 8#7 => need (do zeroF f.rd; pure (.barwait f.rs1 f.rs2))
    | 9#7 => .ok (.bartest f.rd f.rs1 f.rs2)
    | _ => .error .unassigned

/-- custom1, funct3 4 (R128). -/
def decCustom1F4 (f : Fields) : Except Reject Instr :=
    match f.f7 with
    | 0#7 => need (do zeroF f.rs2; pure (.xcopy f.rd f.rs1))
    | 1#7 => need (do zeroF f.rd; zeroF f.rs1; zeroF f.rs2; pure (.xcfence))
    | 2#7 => need (do zeroF f.rs2; pure (.xcwait f.rd f.rs1))
    | 3#7 => need (do zeroF f.rs2; pure (.xcqry f.rd f.rs1))
    | _ => .error .unassigned

/-- custom1, funct3 5 (R128). -/
def decCustom1F5 (f : Fields) : Except Reject Instr :=
    match f.f7 with
    | 0#7 => need (do zeroF f.rs2; pure (.smap f.rd f.rs1))
    | 1#7 => need (do zeroF f.rs2; pure (.sunmap f.rd f.rs1))
    | 2#7 => need (do zeroF f.rd; zeroF f.rs2; pure (.sflush f.rs1))
    | _ => .error .unassigned

/-- custom1, funct3 6 (R128). -/
def decCustom1F6 (f : Fields) : Except Reject Instr :=
    match f.f7 with
    | 0#7 => need (do let d ← bOf f.rd; zeroF f.rs2; pure (.bset d f.rs1))
    | 1#7 => need (do let d ← bOf f.rd; zeroF f.rs2; pure (.bget d f.rs1))
    | 2#7 => need (do let d ← bOf f.rd; pure (.bamoAdd d f.rs1 f.rs2))
    | 3#7 => need (do let d ← bOf f.rd; pure (.bamoMin d f.rs1 f.rs2))
    | 4#7 => need (do let d ← bOf f.rd; pure (.bamoMax d f.rs1 f.rs2))
    | 5#7 => need (do let d ← bOf f.rd; pure (.bamoAddf d f.rs1 f.rs2))
    | _ => .error .unassigned

/-- custom3, funct3 0 (R130). -/
def decCustom3F0 (f : Fields) : Except Reject Instr :=
    match f.f7 with
    | 0#7 => need (do zeroF f.rs2; pure (.obres f.rd f.rs1))
    | 1#7 => need (do zeroF f.rd; zeroF f.rs2; pure (.obrel f.rs1))
    | 2#7 => need (do zeroF f.rd; zeroF f.rs1; zeroF f.rs2; pure (.mxfence))
    | 3#7 => need (do zeroF f.rs2; pure (.mxldw f.rd f.rs1))
    | 4#7 => need (do zeroF f.rd; zeroF f.rs1; zeroF f.rs2; pure (.mxswap))
    | 5#7 => need (do zeroF f.rs2; pure (.mxstrm f.rd f.rs1))
    | 6#7 => need (do zeroF f.rs2; pure (.mxsqd f.rd f.rs1))
    | 7#7 => need (do zeroF f.rs2; pure (.mxtopk f.rd f.rs1))
    | 8#7 => need (do zeroF f.rs2; pure (.mxwait f.rd f.rs1))
    | 9#7 => .ok (.acrd f.rd f.rs1 f.rs2)
    | 10#7 => .ok (.acrdf f.rd f.rs1 f.rs2)
    | 11#7 => need (do zeroF f.rd; zeroF f.rs2; pure (.aczero f.rs1))
    | 12#7 => need (do zeroF f.rs2; pure (.acwm f.rd f.rs1))
    | 13#7 => need (do zeroF f.rs2; pure (.mxstat f.rd f.rs1))
    | 14#7 => need (do zeroF f.rd; zeroF f.rs2; pure (.mxsave f.rs1))
    | 15#7 => need (do zeroF f.rd; zeroF f.rs2; pure (.mxrest f.rs1))
    | _ => .error .unassigned

/-- custom3, funct3 1 (R130). -/
def decCustom3F1 (f : Fields) : Except Reject Instr :=
    match f.f7 with
    | 0#7 => need (do zeroF f.rs2; pure (.ncvtE4 f.rd f.rs1))
    | 1#7 => need (do zeroF f.rs2; pure (.ncvtE5 f.rd f.rs1))
    | 2#7 => need (do zeroF f.rs2; pure (.ncvtE5s f.rd f.rs1))
    | 3#7 => need (do zeroF f.rs2; pure (.ncvtBf f.rd f.rs1))
    | 4#7 => need (do zeroF f.rs2; pure (.ncvtHf f.rd f.rs1))
    | 5#7 => need (do zeroF f.rs2; pure (.ncvtI8 f.rd f.rs1))
    | 6#7 => need (do zeroF f.rs2; pure (.ncvtN8 f.rd f.rs1))
    | 7#7 => need (do zeroF f.rs2; pure (.wcvtE4 f.rd f.rs1))
    | 8#7 => need (do zeroF f.rs2; pure (.wcvtE5 f.rd f.rs1))
    | 9#7 => need (do zeroF f.rs2; pure (.wcvtBf f.rd f.rs1))
    | 10#7 => need (do zeroF f.rs2; pure (.wcvtHf f.rd f.rs1))
    | 11#7 => need (do zeroF f.rs2; pure (.wcvtI8 f.rd f.rs1))
    | 12#7 => need (do zeroF f.rs2; pure (.wcvtN8 f.rd f.rs1))
    | 13#7 => .ok (.fsclS f.rd f.rs1 f.rs2)
    | _ => .error .unassigned

/-- custom3, funct3 2 (R130). -/
def decCustom3F2 (f : Fields) : Except Reject Instr :=
    match f.f7 with
    | 0#7 => need (do let d ← dOf f.rd; let a ← dOf f.rs1; let b ← dOf f.rs2; pure (.dadd d a b))
    | 1#7 => need (do let d ← dOf f.rd; let a ← dOf f.rs1; let b ← dOf f.rs2; pure (.dsub d a b))
    | 2#7 => need (do let d ← dOf f.rd; let a ← dOf f.rs1; let b ← dOf f.rs2; pure (.dmul d a b))
    | 3#7 => need (do let d ← dOf f.rd; let a ← dOf f.rs1; let b ← dOf f.rs2; pure (.ddiv d a b))
    | 4#7 => need (do let d ← dOf f.rd; let a ← dOf f.rs1; let b ← dOf f.rs2; pure (.dmin d a b))
    | 5#7 => need (do let d ← dOf f.rd; let a ← dOf f.rs1; let b ← dOf f.rs2; pure (.dmax d a b))
    | 6#7 => need (do let d ← dOf f.rd; let a ← dOf f.rs1; let b ← dOf f.rs2; pure (.dmix d a b))
    | 7#7 => need (do let d ← dOf f.rd; let a ← dOf f.rs1; pure (.daff d a f.rs2))
    | 8#7 => need (do let d ← dOf f.rd; let a ← dOf f.rs1; let n ← dOf f.rs2; pure (.dmap d a n))
    | 9#7 => need (do let d ← dOf f.rd; let a ← dOf f.rs1; let t ← oneOf f.rs2; pure (.dform d a t))
    | 10#7 => need (do let d ← dOf f.rd; let a ← dOf f.rs1; zeroF f.rs2; pure (.dmv d a))
    | _ => .error .unassigned

/-- custom3, funct3 3 (R130). -/
def decCustom3F3 (f : Fields) : Except Reject Instr :=
    match f.f7 with
    | 0#7 => need (do let d ← dOf f.rd; zeroF f.rs2; pure (.dpt d f.rs1))
    | 1#7 => need (do let d ← dOf f.rd; let t ← bOf f.rs2; pure (.duni d f.rs1 t))
    | 2#7 => need (do let d ← dOf f.rd; zeroF f.rs2; pure (.dsamp d f.rs1))
    | 3#7 => need (do let d ← dOf f.rd; zeroF f.rs2; pure (.dld d f.rs1))
    | 4#7 => need (do let d ← dOf f.rd; zeroF f.rs2; pure (.dst d f.rs1))
    | 5#7 => need (do let a ← dOf f.rs1; let n ← momK f.rs2; pure (.dmom f.rd a n))
    | 6#7 => need (do let a ← dOf f.rs1; pure (.dqnt f.rd a f.rs2))
    | 7#7 => need (do let a ← dOf f.rs1; pure (.dcdf f.rd a f.rs2))
    | 8#7 => need (do let a ← dOf f.rs1; zeroF f.rs2; pure (.dtag f.rd a))
    | 9#7 => need (do let d ← dOf f.rd; zeroF f.rs2; pure (.dtags d f.rs1))
    | _ => .error .unassigned

/-- custom3, funct3 4 (R130). -/
def decCustom3F4 (f : Fields) : Except Reject Instr :=
    match f.f7 with
    | 0#7 => need (do zeroF f.rs2; pure (.tspawn f.rd f.rs1))
    | 1#7 => need (do zeroF f.rs1; zeroF f.rs2; pure (.ttake f.rd))
    | 2#7 => need (do zeroF f.rd; zeroF f.rs1; zeroF f.rs2; pure (.tend))
    | 3#7 => need (do zeroF f.rd; zeroF f.rs2; pure (.tdec f.rs1))
    | 4#7 => need (do zeroF f.rd; zeroF f.rs1; zeroF f.rs2; pure (.tyield))
    | 5#7 => need (do zeroF f.rs2; pure (.tbudg f.rd f.rs1))
    | 6#7 => need (do zeroF f.rs2; pure (.tcancel f.rd f.rs1))
    | 7#7 => need (do zeroF f.rs2; pure (.tstat f.rd f.rs1))
    | _ => .error .unassigned

/-- custom3, funct3 5 (R130). -/
def decCustom3F5 (f : Fields) : Except Reject Instr :=
    match f.f7 with
    | 0#7 => need (do zeroF f.rd; zeroF f.rs2; pure (.vpub f.rs1))
    | 1#7 => need (do zeroF f.rd; zeroF f.rs2; pure (.vfin f.rs1))
    | 2#7 => need (do zeroF f.rs2; pure (.vacq f.rd f.rs1))
    | 3#7 => need (do zeroF f.rs2; pure (.vchk f.rd f.rs1))
    | 4#7 => need (do zeroF f.rs2; pure (.vsub f.rd f.rs1))
    | 5#7 => need (do zeroF f.rs2; pure (.vsettle f.rd f.rs1))
    | _ => .error .unassigned

/-- custom3, funct3 6 (R130). -/
def decCustom3F6 (f : Fields) : Except Reject Instr :=
    match f.f7 with
    | 0#7 => need (do zeroF f.rd; pure (.zresume f.rs1 f.rs2))
    | 1#7 => need (do zeroF f.rs2; pure (.zpark f.rd f.rs1))
    | 2#7 => need (do zeroF f.rd; pure (.zsignal f.rs1 f.rs2))
    | 3#7 => need (do zeroF f.rs2; pure (.zfqpop f.rd f.rs1))
    | _ => .error .unassigned

/-- custom-0 (R127). -/
def decCustom0 (f : Fields) : Except Reject Instr :=
  match f.f3 with
  | 0#3 => decCustom0F0 f
  | 1#3 => decTbar f
  | 2#3 => decCustom0F2 f
  | 3#3 => decCustom0F3 f
  | 4#3 => decCustom0F4 f
  | 5#3 => decCustom0F5 f
  | 6#3 => decCustom0F6 f
  | _ => .error .unassigned

/-- custom-1 (R128). -/
def decCustom1 (f : Fields) : Except Reject Instr :=
  match f.f3 with
  | 0#3 => decCustom1F0 f
  | 1#3 => decCustom1F1 f
  | 2#3 => decCustom1F2 f
  | 3#3 => decCustom1F3 f
  | 4#3 => decCustom1F4 f
  | 5#3 => decCustom1F5 f
  | 6#3 => decCustom1F6 f
  | _ => .error .unassigned

/-- custom-3 (R130) but for PFX, which no subject may be (R123). -/
def decCustom3 (f : Fields) : Except Reject Instr :=
  match f.f3 with
  | 0#3 => decCustom3F0 f
  | 1#3 => decCustom3F1 f
  | 2#3 => decCustom3F2 f
  | 3#3 => decCustom3F3 f
  | 4#3 => decCustom3F4 f
  | 5#3 => decCustom3F5 f
  | 6#3 => decCustom3F6 f
  | _ => .error .unassigned

/-- One 32-bit encoding other than PFX, by its major opcode (R120). -/
def decFields (f : Fields) : Except Reject Instr :=
  match f.op with
  | 0x03#7 => opt32 (decLoad f)
  | 0x07#7 => opt32 (decLoadFp f)
  | 0x0B#7 => decCustom0 f
  | 0x0F#7 => opt32 (decMiscMem f)
  | 0x13#7 => opt32 (decOpImm f)
  | 0x17#7 => ok32 (.auipc f.rd f.immU)
  | 0x1B#7 => opt32 (decOpImm32 f)
  | 0x23#7 => opt32 (decStore f)
  | 0x27#7 => opt32 (decStoreFp f)
  | 0x2B#7 => decCustom1 f
  | 0x2F#7 => opt32 (decAmo f)
  | 0x33#7 => opt32 (decOp f)
  | 0x37#7 => ok32 (.lui f.rd f.immU)
  | 0x3B#7 => opt32 (decOp32 f)
  | 0x43#7 => decFma .madd f
  | 0x47#7 => decFma .msub f
  | 0x4B#7 => decFma .nmsub f
  | 0x4F#7 => decFma .nmadd f
  | 0x53#7 => decOpFp f
  | 0x5B#7 => decFuse f
  | 0x63#7 => opt32 (decBranch f)
  | 0x67#7 => if f.f3 == 0#3 then ok32 (.jalr f.rd f.rs1 f.immI) else .error .unassigned
  | 0x6F#7 => ok32 (.jal f.rd f.offJ)
  | 0x73#7 => opt32 (decSystem f)
  | 0x7B#7 => decCustom3 f
  | _ => .error .unassigned

/-! ## RV64C (R118, R119) -/

/-- The register of a 3-bit field of RV64C. -/
def cReg (x : BitVec 3) : XReg := 1#2 ++ x

/-- Quadrant 0 of RV64C. -/
def decC0 (c : BitVec 16) : Option BaseInstr :=
  let rdp := cReg (c.extractLsb' 2 3)
  let rs1p := cReg (c.extractLsb' 7 3)
  let uimmD : BitVec 12 := 0#4 ++ c.extractLsb' 5 2 ++ c.extractLsb' 10 3 ++ 0#3
  let uimmW : BitVec 12 := 0#5 ++ c.extractLsb' 5 1 ++ c.extractLsb' 10 3 ++ c.extractLsb' 6 1 ++ 0#2
  match c.extractLsb' 13 3 with
  | 0#3 =>
    let nz : BitVec 10 := c.extractLsb' 7 4 ++ c.extractLsb' 11 2 ++ c.extractLsb' 5 1 ++ c.extractLsb' 6 1 ++ 0#2
    if nz == 0#10 then none else some (.imm .addi rdp 2#5 (0#2 ++ nz))
  | 1#3 => some (.fload .d rdp rs1p uimmD)
  | 2#3 => some (.load .lw rdp rs1p uimmW)
  | 3#3 => some (.load .ld rdp rs1p uimmD)
  | 5#3 => some (.fstore .d rs1p rdp uimmD)
  | 6#3 => some (.store .sw rs1p rdp uimmW)
  | 7#3 => some (.store .sd rs1p rdp uimmD)
  | _ => none

/-- The register operations of quadrant 1 of RV64C. -/
def decC1Alu (c : BitVec 16) : Option BaseInstr :=
  let rdp := cReg (c.extractLsb' 7 3)
  let rs2p := cReg (c.extractLsb' 2 3)
  let imm6 : BitVec 6 := c.extractLsb' 12 1 ++ c.extractLsb' 2 5
  match c.extractLsb' 10 2 with
  | 0#2 => some (.shift .srli rdp rdp imm6)
  | 1#2 => some (.shift .srai rdp rdp imm6)
  | 2#2 => some (.imm .andi rdp rdp (imm6.signExtend 12))
  | _ =>
    match c.extractLsb' 12 1 ++ c.extractLsb' 5 2 with
    | 0#3 => some (.alu .sub rdp rdp rs2p)
    | 1#3 => some (.alu .xor rdp rdp rs2p)
    | 2#3 => some (.alu .or rdp rdp rs2p)
    | 3#3 => some (.alu .and rdp rdp rs2p)
    | 4#3 => some (.alu .subw rdp rdp rs2p)
    | 5#3 => some (.alu .addw rdp rdp rs2p)
    | _ => none

/-- Quadrant 1 of RV64C. -/
def decC1 (c : BitVec 16) : Option BaseInstr :=
  let rd : XReg := c.extractLsb' 7 5
  let imm6 : BitVec 6 := c.extractLsb' 12 1 ++ c.extractLsb' 2 5
  let offJ11 : BitVec 11 :=
    c.extractLsb' 12 1 ++ c.extractLsb' 8 1 ++ c.extractLsb' 9 2 ++ c.extractLsb' 6 1 ++ c.extractLsb' 7 1 ++
    c.extractLsb' 2 1 ++ c.extractLsb' 11 1 ++ c.extractLsb' 3 3
  let offB8 : BitVec 8 :=
    c.extractLsb' 12 1 ++ c.extractLsb' 5 2 ++ c.extractLsb' 2 1 ++ c.extractLsb' 10 2 ++ c.extractLsb' 3 2
  match c.extractLsb' 13 3 with
  | 0#3 => some (.imm .addi rd rd (imm6.signExtend 12))
  | 1#3 => if rd == 0#5 then none else some (.imm .addiw rd rd (imm6.signExtend 12))
  | 2#3 => some (.imm .addi rd 0#5 (imm6.signExtend 12))
  | 3#3 =>
    if imm6 == 0#6 then none
    else if rd == 2#5 then
      let sp6 : BitVec 6 := c.extractLsb' 12 1 ++ c.extractLsb' 3 2 ++ c.extractLsb' 5 1 ++ c.extractLsb' 2 1 ++ c.extractLsb' 6 1
      some (.imm .addi 2#5 2#5 ((sp6 ++ 0#4).signExtend 12))
    else some (.lui rd (imm6.signExtend 20))
  | 4#3 => decC1Alu c
  | 5#3 => some (.jal 0#5 (offJ11.signExtend 20))
  | 6#3 => some (.branch .beq (cReg (c.extractLsb' 7 3)) 0#5 (offB8.signExtend 12))
  | _ => some (.branch .bne (cReg (c.extractLsb' 7 3)) 0#5 (offB8.signExtend 12))

/-- Quadrant 2 of RV64C. -/
def decC2 (c : BitVec 16) : Option BaseInstr :=
  let rd : XReg := c.extractLsb' 7 5
  let rs2 : XReg := c.extractLsb' 2 5
  let imm6 : BitVec 6 := c.extractLsb' 12 1 ++ c.extractLsb' 2 5
  let ldsp : BitVec 12 := 0#3 ++ c.extractLsb' 2 3 ++ c.extractLsb' 12 1 ++ c.extractLsb' 5 2 ++ 0#3
  let lwsp : BitVec 12 := 0#4 ++ c.extractLsb' 2 2 ++ c.extractLsb' 12 1 ++ c.extractLsb' 4 3 ++ 0#2
  let sdsp : BitVec 12 := 0#3 ++ c.extractLsb' 7 3 ++ c.extractLsb' 10 3 ++ 0#3
  let swsp : BitVec 12 := 0#4 ++ c.extractLsb' 7 2 ++ c.extractLsb' 9 4 ++ 0#2
  match c.extractLsb' 13 3 with
  | 0#3 => some (.shift .slli rd rd imm6)
  | 1#3 => some (.fload .d rd 2#5 ldsp)
  | 2#3 => if rd == 0#5 then none else some (.load .lw rd 2#5 lwsp)
  | 3#3 => if rd == 0#5 then none else some (.load .ld rd 2#5 ldsp)
  | 4#3 =>
    if c.extractLsb' 12 1 == 0#1 then
      if rs2 == 0#5 then (if rd == 0#5 then none else some (.jalr 0#5 rd 0#12))
      else some (.alu .add rd 0#5 rs2)
    else if rs2 == 0#5 then (if rd == 0#5 then some .ebreak else some (.jalr 1#5 rd 0#12))
    else some (.alu .add rd rd rs2)
  | 5#3 => some (.fstore .d 2#5 rs2 sdsp)
  | 6#3 => some (.store .sw 2#5 rs2 swsp)
  | _ => some (.store .sd 2#5 rs2 sdsp)

/-- A 16-bit encoding: none is reserved by RV64C (R119). -/
def decC (c : BitVec 16) : Option BaseInstr :=
  match c.extractLsb' 0 2 with
  | 0#2 => decC0 c
  | 1#2 => decC1 c
  | 2#2 => decC2 c
  | _ => none

/-! ## Bytes -/

/-- The parcel of 16 bits of two bytes, little-endian (R4). -/
def parcel (b0 b1 : Byte) : BitVec 16 := b1 ++ b0

/-- The word of 32 bits of two parcels, little-endian (R4). -/
def word32 (lo hi : BitVec 16) : BitVec 32 := hi ++ lo

/-- An encoding of 16 bits: bits 1:0 are not 11. -/
def is16 (c : BitVec 16) : Bool := c.extractLsb' 0 2 != 3#2

/-- An encoding of 48 bits or more: the major opcodes of class 33 (R120). -/
def isLong (c : BitVec 16) : Bool := c.extractLsb' 0 5 == 0x1F#5

/-- The length in bytes that the first parcel of an encoding of 48 bits or more gives (RISC-V length encoding); one of 192 bits or more
counts as 24 bytes. [DEDUCED, log 94: unsafe] -/
def longLen (c : BitVec 16) : Nat :=
  if c.extractLsb' 0 6 = 0x1F#6 then 6
  else if c.extractLsb' 0 7 = 0x3F#7 then 8
  else 10 + 2 * (c.extractLsb' 12 3).toNat

/-- PFX: custom-3 with funct3 111 (R123). -/
def isPfx (w : BitVec 32) : Bool := w.extractLsb' 0 7 == 0x7B#7 && w.extractLsb' 12 3 == 7#3

/-- The class of a 32-bit encoding: its major opcode (R120). -/
def classOf (w : BitVec 32) : Nat := (w.extractLsb' 2 5).toNat

/-- An instruction that R132 names a supervisor instruction. -/
def Instr.supervisor : Instr → Bool
  | .zresume .. | .zpark .. | .zsignal .. | .zfqpop .. | .mxsave .. | .mxrest .. => true
  | .base _ .sret | .base _ .mret | .base _ (.sfenceVma ..) => true
  | _ => false

/-- A word of a row of a supervisor instruction, whatever its reserved fields and its register fields hold (R130, R132).
[DEDUCED, log 49: unsafe] -/
def supervisorRow (w : BitVec 32) : Bool :=
  let op := w.extractLsb' 0 7
  let f3 := w.extractLsb' 12 3
  let f7 := w.extractLsb' 25 7
  let imm := w.extractLsb' 20 12
  (op == 0x7B#7 && f3 == 6#3 && f7.toNat < 4) || (op == 0x7B#7 && f3 == 0#3 && (f7 == 14#7 || f7 == 15#7)) ||
  (op == 0x73#7 && f3 == 0#3 && (f7 == 9#7 || imm == 0x102#12 || imm == 0x302#12))

/-- The fields of a PFX word (R123). -/
def pfxOf (w : BitVec 32) : Pfx :=
  { sense := w.extractLsb' 25 1 == 1#1, guard := w.extractLsb' 21 4, hint := w.extractLsb' 19 2, rm := w.extractLsb' 16 3,
    mz := w.extractLsb' 15 1 == 1#1, rs4 := w.extractLsb' 7 5 }

/-- A 16-bit encoding by itself. -/
def decode16 (c : BitVec 16) : Decoded :=
  match decC c with
  | some b => .ok (.base (some c) b) 2
  | none => .illegal ⟨.reserved16, c.setWidth 32, 0, 32, true, 2⟩

/-- A 32-bit encoding by itself, not a PFX. -/
def decode32 (w : BitVec 32) : Decoded :=
  match decFields (fieldsOf w) with
  | .ok i => .ok i 4
  | .error r => .illegal ⟨r, w, 0, classOf w, !supervisorRow w, 4⟩

/-- A PFX word and the 32-bit subject after it (R123, R131, R132). -/
def decodePair (p w : BitVec 32) : Decoded :=
  match decFields (fieldsOf w) with
  | .ok i =>
    if p.extractLsb' 26 6 == 0#6 && (pfxOf p).legalOn i then .ok (.pfx (pfxOf p) i) 8
    else .illegal ⟨.pfxField, w, p, classOf w, !i.supervisor, 8⟩
  | .error r => .illegal ⟨r, w, p, classOf w, !supervisorRow w, 8⟩

/-- What follows a PFX word, from its first parcel on. -/
def decodeAfterPfx (p : BitVec 32) : List Byte → Decoded
  | b0 :: b1 :: rest =>
    let c := parcel b0 b1
    if is16 c then .illegal ⟨.pfxOn16, c.setWidth 32, p, 32, true, 6⟩
    else
      match rest with
      | b2 :: b3 :: _ =>
        let w := word32 c (parcel b2 b3)
        if isLong c then (if rest.length + 2 < longLen c then .more (longLen c + 4) else .illegal ⟨.pfxOnLong, w, p, 33, true, 8⟩)
        else if isPfx w then .illegal ⟨.pfxOnPfx, w, p, 30, true, 8⟩
        else decodePair p w
      | _ => .more 8
  | _ => .more 6

/-- The decoder: total on any bytes. [DEDUCED, log 20: safe; DEDUCED, log 94: unsafe] -/
def decode : List Byte → Decoded
  | b0 :: b1 :: rest =>
    let c := parcel b0 b1
    if is16 c then decode16 c
    else
      match rest with
      | b2 :: b3 :: rest' =>
        let w := word32 c (parcel b2 b3)
        if isLong c then (if rest.length + 2 < longLen c then .more (longLen c) else .illegal ⟨.long, w, 0, 33, true, 4⟩)
        else if isPfx w then decodeAfterPfx w rest'
        else decode32 w
      | _ => .more 4
  | _ => .more 2

/-- The first n bytes of a number, the least significant first. -/
def bytesOfNat : Nat → Nat → List Byte
  | 0, _ => []
  | n + 1, w => BitVec.ofNat 8 w :: bytesOfNat n (w / 256)

/-- The instruction the decoder reads from an instruction whose bits are w, as the opcode table numbers them: nbits bits, every
bit above them zero, in little-endian bytes. [DEDUCED, log 20: safe] -/
def decodeTableWord (nbits w : Nat) : Option Instr :=
  match decode (bytesOfNat 8 (w % 2 ^ nbits)) with
  | .ok i _ => some i
  | _ => none

/-! ## The encoder -/

/-- The R and ZR formats. -/
def rType (f7 : BitVec 7) (rs2 rs1 : BitVec 5) (f3 : BitVec 3) (rd : BitVec 5) (op : BitVec 7) : Fields := ⟨f7, rs2, rs1, f3, rd, op⟩

/-- The I and ZI formats. -/
def iType (imm : BitVec 12) (rs1 : BitVec 5) (f3 : BitVec 3) (rd : BitVec 5) (op : BitVec 7) : Fields :=
  ⟨imm.extractLsb' 5 7, imm.extractLsb' 0 5, rs1, f3, rd, op⟩

/-- The S format. -/
def sType (imm : BitVec 12) (rs2 rs1 : BitVec 5) (f3 : BitVec 3) (op : BitVec 7) : Fields :=
  ⟨imm.extractLsb' 5 7, rs2, rs1, f3, imm.extractLsb' 0 5, op⟩

/-- The B format, the offset without its zero bit 0. -/
def bType (off : BitVec 12) (rs2 rs1 : BitVec 5) (f3 : BitVec 3) (op : BitVec 7) : Fields :=
  ⟨off.extractLsb' 11 1 ++ off.extractLsb' 4 6, rs2, rs1, f3, off.extractLsb' 0 4 ++ off.extractLsb' 10 1, op⟩

/-- The U format. -/
def uType (imm : BitVec 20) (rd : BitVec 5) (op : BitVec 7) : Fields :=
  ⟨imm.extractLsb' 13 7, imm.extractLsb' 8 5, imm.extractLsb' 3 5, imm.extractLsb' 0 3, rd, op⟩

/-- The J format, the offset without its zero bit 0. -/
def jType (off : BitVec 20) (rd : BitVec 5) (op : BitVec 7) : Fields :=
  uType (off.extractLsb' 19 1 ++ off.extractLsb' 0 10 ++ off.extractLsb' 10 1 ++ off.extractLsb' 11 8) rd op

/-- The R4 and ZR4 formats. -/
def r4 (rs3 : BitVec 5) (f2 : BitVec 2) (rs2 rs1 : BitVec 5) (f3 : BitVec 3) (rd : BitVec 5) (op : BitVec 7) : Fields :=
  ⟨rs3 ++ f2, rs2, rs1, f3, rd, op⟩

/-- The fmt field. -/
def Fmt.code : Fmt → BitVec 2 | .s => 0#2 | .d => 1#2

/-- funct7 and funct3 of an OP or OP-32 operation, and its major opcode. -/
def AluOp.code : AluOp → BitVec 7 × BitVec 3 × BitVec 7
  | .add => (0x00#7, 0#3, 0x33#7) | .sub => (0x20#7, 0#3, 0x33#7) | .sll => (0x00#7, 1#3, 0x33#7)
  | .slt => (0x00#7, 2#3, 0x33#7) | .sltu => (0x00#7, 3#3, 0x33#7) | .xor => (0x00#7, 4#3, 0x33#7)
  | .srl => (0x00#7, 5#3, 0x33#7) | .sra => (0x20#7, 5#3, 0x33#7) | .or => (0x00#7, 6#3, 0x33#7)
  | .and => (0x00#7, 7#3, 0x33#7)
  | .addw => (0x00#7, 0#3, 0x3B#7) | .subw => (0x20#7, 0#3, 0x3B#7) | .sllw => (0x00#7, 1#3, 0x3B#7)
  | .srlw => (0x00#7, 5#3, 0x3B#7) | .sraw => (0x20#7, 5#3, 0x3B#7)
  | .mul => (0x01#7, 0#3, 0x33#7) | .mulh => (0x01#7, 1#3, 0x33#7) | .mulhsu => (0x01#7, 2#3, 0x33#7)
  | .mulhu => (0x01#7, 3#3, 0x33#7) | .div => (0x01#7, 4#3, 0x33#7) | .divu => (0x01#7, 5#3, 0x33#7)
  | .rem => (0x01#7, 6#3, 0x33#7) | .remu => (0x01#7, 7#3, 0x33#7)
  | .mulw => (0x01#7, 0#3, 0x3B#7) | .divw => (0x01#7, 4#3, 0x3B#7) | .divuw => (0x01#7, 5#3, 0x3B#7)
  | .remw => (0x01#7, 6#3, 0x3B#7) | .remuw => (0x01#7, 7#3, 0x3B#7)
  | .addUw => (0x04#7, 0#3, 0x3B#7) | .sh1add => (0x10#7, 2#3, 0x33#7) | .sh2add => (0x10#7, 4#3, 0x33#7)
  | .sh3add => (0x10#7, 6#3, 0x33#7) | .sh1addUw => (0x10#7, 2#3, 0x3B#7) | .sh2addUw => (0x10#7, 4#3, 0x3B#7)
  | .sh3addUw => (0x10#7, 6#3, 0x3B#7)
  | .andn => (0x20#7, 7#3, 0x33#7) | .orn => (0x20#7, 6#3, 0x33#7) | .xnor => (0x20#7, 4#3, 0x33#7)
  | .max => (0x05#7, 6#3, 0x33#7) | .maxu => (0x05#7, 7#3, 0x33#7) | .min => (0x05#7, 4#3, 0x33#7)
  | .minu => (0x05#7, 5#3, 0x33#7)
  | .rol => (0x30#7, 1#3, 0x33#7) | .ror => (0x30#7, 5#3, 0x33#7) | .rolw => (0x30#7, 1#3, 0x3B#7)
  | .rorw => (0x30#7, 5#3, 0x3B#7)
  | .bclr => (0x24#7, 1#3, 0x33#7) | .bext => (0x24#7, 5#3, 0x33#7) | .binv => (0x34#7, 1#3, 0x33#7)
  | .bset => (0x14#7, 1#3, 0x33#7)
  | .czeroEqz => (0x07#7, 5#3, 0x33#7) | .czeroNez => (0x07#7, 7#3, 0x33#7)

/-- The upper six bits of the immediate of a 6-bit shift, funct3 and the major opcode. -/
def ShiftOp.code : ShiftOp → BitVec 6 × BitVec 3 × BitVec 7
  | .slli => (0x00#6, 1#3, 0x13#7) | .srli => (0x00#6, 5#3, 0x13#7) | .srai => (0x10#6, 5#3, 0x13#7)
  | .rori => (0x18#6, 5#3, 0x13#7) | .bclri => (0x12#6, 1#3, 0x13#7) | .bexti => (0x12#6, 5#3, 0x13#7)
  | .binvi => (0x1A#6, 1#3, 0x13#7) | .bseti => (0x0A#6, 1#3, 0x13#7) | .slliUw => (0x02#6, 1#3, 0x1B#7)

/-- funct7 and funct3 of a 5-bit shift. -/
def ShiftWOp.code : ShiftWOp → BitVec 7 × BitVec 3
  | .slliw => (0x00#7, 1#3) | .srliw => (0x00#7, 5#3) | .sraiw => (0x20#7, 5#3) | .roriw => (0x30#7, 5#3)

/-- The immediate, funct3 and major opcode of a one-operand operation. -/
def UnaryOp.code : UnaryOp → BitVec 12 × BitVec 3 × BitVec 7
  | .clz => (0x600#12, 1#3, 0x13#7) | .ctz => (0x601#12, 1#3, 0x13#7) | .cpop => (0x602#12, 1#3, 0x13#7)
  | .sextB => (0x604#12, 1#3, 0x13#7) | .sextH => (0x605#12, 1#3, 0x13#7)
  | .clzw => (0x600#12, 1#3, 0x1B#7) | .ctzw => (0x601#12, 1#3, 0x1B#7) | .cpopw => (0x602#12, 1#3, 0x1B#7)
  | .zextH => (0x080#12, 4#3, 0x3B#7) | .rev8 => (0x6B8#12, 5#3, 0x13#7) | .orcB => (0x287#12, 5#3, 0x13#7)

/-- funct3 of a branch. -/
def BranchOp.code : BranchOp → BitVec 3
  | .beq => 0#3 | .bne => 1#3 | .blt => 4#3 | .bge => 5#3 | .bltu => 6#3 | .bgeu => 7#3

/-- funct3 of a load. -/
def LoadOp.code : LoadOp → BitVec 3
  | .lb => 0#3 | .lh => 1#3 | .lw => 2#3 | .ld => 3#3 | .lbu => 4#3 | .lhu => 5#3 | .lwu => 6#3

/-- funct3 of a store. -/
def StoreOp.code : StoreOp → BitVec 3
  | .sb => 0#3 | .sh => 1#3 | .sw => 2#3 | .sd => 3#3

/-- funct3 and major opcode of an operation with a 12-bit immediate. -/
def ImmOp.code : ImmOp → BitVec 3 × BitVec 7
  | .addi => (0#3, 0x13#7) | .slti => (2#3, 0x13#7) | .sltiu => (3#3, 0x13#7) | .xori => (4#3, 0x13#7)
  | .ori => (6#3, 0x13#7) | .andi => (7#3, 0x13#7) | .addiw => (0#3, 0x1B#7)

/-- funct5 of a read-modify-write. -/
def AmoOp.code : AmoOp → BitVec 5
  | .swap => 0x01#5 | .add => 0x00#5 | .xor => 0x04#5 | .and => 0x0C#5 | .or => 0x08#5
  | .min => 0x10#5 | .max => 0x14#5 | .minu => 0x18#5 | .maxu => 0x1C#5

/-- funct3 of a Zicsr operation with a register; the immediate form adds 4. -/
def CsrOp.code : CsrOp → BitVec 3
  | .rw => 1#3 | .rs => 2#3 | .rc => 3#3

/-- The major opcode of a fused multiply-add. -/
def FmaOp.code : FmaOp → BitVec 7
  | .madd => 0x43#7 | .msub => 0x47#7 | .nmsub => 0x4B#7 | .nmadd => 0x4F#7

/-- The upper five bits of funct7 of a two-operand F or D operation. -/
def FArithOp.code : FArithOp → BitVec 5
  | .add => 0x00#5 | .sub => 0x01#5 | .mul => 0x02#5 | .div => 0x03#5

/-- funct3 of a sign injection. -/
def FSgnOp.code : FSgnOp → BitVec 3
  | .sgnj => 0#3 | .sgnjn => 1#3 | .sgnjx => 2#3

/-- funct3 of an F or D compare. -/
def FCmpOp.code : FCmpOp → BitVec 3
  | .le => 0#3 | .lt => 1#3 | .eq => 2#3

/-- The rs2 field of a conversion. -/
def IntTy.code : IntTy → BitVec 5
  | .w => 0#5 | .wu => 1#5 | .l => 2#5 | .lu => 3#5

/-- One bit of a Bool. -/
def bit1 (b : Bool) : BitVec 1 := if b then 1#1 else 0#1

/-- funct3 of a width of the A extension. -/
def amoF3 (dbl : Bool) : BitVec 3 := if dbl then 3#3 else 2#3

/-- The fields of a base instruction in its 32-bit form. -/
def BaseInstr.fields : BaseInstr → Fields
  | .lui rd im => uType im rd 0x37#7
  | .auipc rd im => uType im rd 0x17#7
  | .jal rd off => jType off rd 0x6F#7
  | .jalr rd rs1 im => iType im rs1 0#3 rd 0x67#7
  | .branch op rs1 rs2 off => bType off rs2 rs1 op.code 0x63#7
  | .load op rd rs1 im => iType im rs1 op.code rd 0x03#7
  | .store op rs1 rs2 im => sType im rs2 rs1 op.code 0x23#7
  | .imm op rd rs1 im => iType im rs1 op.code.1 rd op.code.2
  | .shift op rd rs1 sh => iType (op.code.1 ++ sh) rs1 op.code.2.1 rd op.code.2.2
  | .shiftW op rd rs1 sh => rType op.code.1 sh rs1 op.code.2 rd 0x1B#7
  | .unary op rd rs1 => iType op.code.1 rs1 op.code.2.1 rd op.code.2.2
  | .alu op rd rs1 rs2 => rType op.code.1 rs2 rs1 op.code.2.1 rd op.code.2.2
  | .fence pred succ => iType (0#4 ++ pred ++ succ) 0#5 0#3 0#5 0x0F#7
  | .fenceTso => iType 0x833#12 0#5 0#3 0#5 0x0F#7
  | .fenceI => iType 0#12 0#5 1#3 0#5 0x0F#7
  | .ecall => iType 0x000#12 0#5 0#3 0#5 0x73#7
  | .ebreak => iType 0x001#12 0#5 0#3 0#5 0x73#7
  | .sret => iType 0x102#12 0#5 0#3 0#5 0x73#7
  | .mret => iType 0x302#12 0#5 0#3 0#5 0x73#7
  | .wfi => iType 0x105#12 0#5 0#3 0#5 0x73#7
  | .sfenceVma rs1 rs2 => rType 0x09#7 rs2 rs1 0#3 0#5 0x73#7
  | .csr op rd rs1 addr => iType addr rs1 op.code rd 0x73#7
  | .csrImm op rd uimm addr => iType addr uimm (op.code ||| 4#3) rd 0x73#7
  | .lr dbl aq rl rd rs1 => rType (0x02#5 ++ bit1 aq ++ bit1 rl) 0#5 rs1 (amoF3 dbl) rd 0x2F#7
  | .sc dbl aq rl rd rs1 rs2 => rType (0x03#5 ++ bit1 aq ++ bit1 rl) rs2 rs1 (amoF3 dbl) rd 0x2F#7
  | .amo op dbl aq rl rd rs1 rs2 => rType (op.code ++ bit1 aq ++ bit1 rl) rs2 rs1 (amoF3 dbl) rd 0x2F#7
  | .fload fmt rd rs1 im => iType im rs1 (0b01#2 ++ fmt.code.extractLsb' 0 1) rd 0x07#7
  | .fstore fmt rs1 rs2 im => sType im rs2 rs1 (0b01#2 ++ fmt.code.extractLsb' 0 1) 0x27#7
  | .fma op fmt rd rs1 rs2 rs3 rm => r4 rs3 fmt.code rs2 rs1 rm rd op.code
  | .farith op fmt rd rs1 rs2 rm => rType (op.code ++ fmt.code) rs2 rs1 rm rd 0x53#7
  | .fsqrt fmt rd rs1 rm => rType (0x0B#5 ++ fmt.code) 0#5 rs1 rm rd 0x53#7
  | .fsgn op fmt rd rs1 rs2 => rType (0x04#5 ++ fmt.code) rs2 rs1 op.code rd 0x53#7
  | .fminmax isMax fmt rd rs1 rs2 => rType (0x05#5 ++ fmt.code) rs2 rs1 (0#2 ++ bit1 isMax) rd 0x53#7
  | .fcmp op fmt rd rs1 rs2 => rType (0x14#5 ++ fmt.code) rs2 rs1 op.code rd 0x53#7
  | .fclass fmt rd rs1 => rType (0x1C#5 ++ fmt.code) 0#5 rs1 1#3 rd 0x53#7
  | .fmvToX fmt rd rs1 => rType (0x1C#5 ++ fmt.code) 0#5 rs1 0#3 rd 0x53#7
  | .fmvFromX fmt rd rs1 => rType (0x1E#5 ++ fmt.code) 0#5 rs1 0#3 rd 0x53#7
  | .fcvtToInt ty fmt rd rs1 rm => rType (0x18#5 ++ fmt.code) ty.code rs1 rm rd 0x53#7
  | .fcvtFromInt ty fmt rd rs1 rm => rType (0x1A#5 ++ fmt.code) ty.code rs1 rm rd 0x53#7
  | .fcvtSD rd rs1 rm => rType (0x08#5 ++ 0#2) 1#5 rs1 rm rd 0x53#7
  | .fcvtDS rd rs1 rm => rType (0x08#5 ++ 1#2) 0#5 rs1 rm rd 0x53#7

/-- The fields of a row of 32 bits that is no base instruction; an event has none, and answers the all-zero fields. -/
def Instr.fields : Instr → Fields
  | .base _ b => b.fields
  | .migrW => rType 0#7 0#5 0#5 0#3 0#5 11#7
  | .migrL => rType 1#7 0#5 0#5 0#3 0#5 11#7
  | .reform => rType 2#7 0#5 0#5 0#3 0#5 11#7
  | .gleave => rType 3#7 0#5 0#5 0#3 0#5 11#7
  | .gyield => rType 4#7 0#5 0#5 0#3 0#5 11#7
  | .tjoin d a => rType 5#7 0#5 a 0#3 d 11#7
  | .tleave d => rType 6#7 0#5 0#5 0#3 d 11#7
  | .tbarArr n => iType (0#2 ++ 0#6 ++ n) 0#5 1#3 0#5 11#7
  | .tbarWait n => iType (1#2 ++ 0#6 ++ n) 0#5 1#3 0#5 11#7
  | .tbarSync n => iType (2#2 ++ 0#6 ++ n) 0#5 1#3 0#5 11#7
  | .shfl d a b => rType 0#7 b a 2#3 d 11#7
  | .shflXor d a b => rType 1#7 b a 2#3 d 11#7
  | .shflUp d a b => rType 2#7 b a 2#3 d 11#7
  | .shflDn d a b => rType 3#7 b a 2#3 d 11#7
  | .gsumI d a => rType 4#7 0#5 a 2#3 d 11#7
  | .gminI d a => rType 5#7 0#5 a 2#3 d 11#7
  | .gmaxI d a => rType 6#7 0#5 a 2#3 d 11#7
  | .gminu d a => rType 7#7 0#5 a 2#3 d 11#7
  | .gmaxu d a => rType 8#7 0#5 a 2#3 d 11#7
  | .gand d a => rType 9#7 0#5 a 2#3 d 11#7
  | .gor d a => rType 10#7 0#5 a 2#3 d 11#7
  | .gxor d a => rType 11#7 0#5 a 2#3 d 11#7
  | .gscanI d a => rType 12#7 0#5 a 2#3 d 11#7
  | .ballot d a => rType 13#7 0#5 a 2#3 d 11#7
  | .gcount d a => rType 14#7 0#5 a 2#3 d 11#7
  | .shflF d a b => rType 0#7 b a 3#3 d 11#7
  | .gsumS d a => rType 1#7 0#5 a 3#3 d 11#7
  | .gsumD d a => rType 2#7 0#5 a 3#3 d 11#7
  | .gminS d a => rType 3#7 0#5 a 3#3 d 11#7
  | .gmaxS d a => rType 4#7 0#5 a 3#3 d 11#7
  | .gminD d a => rType 5#7 0#5 a 3#3 d 11#7
  | .gmaxD d a => rType 6#7 0#5 a 3#3 d 11#7
  | .gscanS d a => rType 7#7 0#5 a 3#3 d 11#7
  | .pcmpEq d a b => rType 0#7 b a 4#3 (0#1 ++ d) 11#7
  | .pcmpNe d a b => rType 1#7 b a 4#3 (0#1 ++ d) 11#7
  | .pcmpLt d a b => rType 2#7 b a 4#3 (0#1 ++ d) 11#7
  | .pcmpGe d a b => rType 3#7 b a 4#3 (0#1 ++ d) 11#7
  | .pcmpLtu d a b => rType 4#7 b a 4#3 (0#1 ++ d) 11#7
  | .pcmpGeu d a b => rType 5#7 b a 4#3 (0#1 ++ d) 11#7
  | .pfeqS d a b => rType 0#7 b a 5#3 (0#1 ++ d) 11#7
  | .pfltS d a b => rType 1#7 b a 5#3 (0#1 ++ d) 11#7
  | .pfleS d a b => rType 2#7 b a 5#3 (0#1 ++ d) 11#7
  | .pfunS d a b => rType 3#7 b a 5#3 (0#1 ++ d) 11#7
  | .pfeqD d a b => rType 4#7 b a 5#3 (0#1 ++ d) 11#7
  | .pfltD d a b => rType 5#7 b a 5#3 (0#1 ++ d) 11#7
  | .pfleD d a b => rType 6#7 b a 5#3 (0#1 ++ d) 11#7
  | .pfunD d a b => rType 7#7 b a 5#3 (0#1 ++ d) 11#7
  | .pand d a b => rType 8#7 (0#1 ++ b) (0#1 ++ a) 5#3 (0#1 ++ d) 11#7
  | .por d a b => rType 9#7 (0#1 ++ b) (0#1 ++ a) 5#3 (0#1 ++ d) 11#7
  | .pxor d a b => rType 10#7 (0#1 ++ b) (0#1 ++ a) 5#3 (0#1 ++ d) 11#7
  | .pandn d a b => rType 11#7 (0#1 ++ b) (0#1 ++ a) 5#3 (0#1 ++ d) 11#7
  | .pnot d a => rType 12#7 0#5 (0#1 ++ a) 5#3 (0#1 ++ d) 11#7
  | .pmvXp d => rType 13#7 0#5 0#5 5#3 d 11#7
  | .pmvPx a => rType 14#7 0#5 a 5#3 0#5 11#7
  | .pany d a => rType 15#7 0#5 a 5#3 d 11#7
  | .pall d a => rType 16#7 0#5 a 5#3 d 11#7
  | .jtab d a b => rType 0#7 b a 6#3 d 11#7
  | .bldB d a b => rType 0#7 (0#1 ++ b) a 0#3 d 43#7
  | .bldH d a b => rType 1#7 (0#1 ++ b) a 0#3 d 43#7
  | .bldW d a b => rType 2#7 (0#1 ++ b) a 0#3 d 43#7
  | .bldD d a b => rType 3#7 (0#1 ++ b) a 0#3 d 43#7
  | .bldBu d a b => rType 4#7 (0#1 ++ b) a 0#3 d 43#7
  | .bldHu d a b => rType 5#7 (0#1 ++ b) a 0#3 d 43#7
  | .bldWu d a b => rType 6#7 (0#1 ++ b) a 0#3 d 43#7
  | .bldFw d a b => rType 7#7 (0#1 ++ b) a 0#3 d 43#7
  | .bldFd d a b => rType 8#7 (0#1 ++ b) a 0#3 d 43#7
  | .bldFh d a b => rType 9#7 (0#1 ++ b) a 0#3 d 43#7
  | .bstB d a b => rType 0#7 b a 1#3 (0#1 ++ d) 43#7
  | .bstH d a b => rType 1#7 b a 1#3 (0#1 ++ d) 43#7
  | .bstW d a b => rType 2#7 b a 1#3 (0#1 ++ d) 43#7
  | .bstD d a b => rType 3#7 b a 1#3 (0#1 ++ d) 43#7
  | .bstFw d a b => rType 4#7 b a 1#3 (0#1 ++ d) 43#7
  | .bstFd d a b => rType 5#7 b a 1#3 (0#1 ++ d) 43#7
  | .bstFh d a b => rType 6#7 b a 1#3 (0#1 ++ d) 43#7
  | .wldDirect d w => rType 0#7 (0#4 ++ w.extractLsb' 5 1) (w.extractLsb' 0 5) 2#3 d 43#7
  | .wldIndexed d k a => rType 0#7 (0b01#2 ++ k ++ 0#1) a 2#3 d 43#7
  | .wstDirect d w => rType 1#7 (0#4 ++ w.extractLsb' 5 1) (w.extractLsb' 0 5) 2#3 d 43#7
  | .wstIndexed d k a => rType 1#7 (0b01#2 ++ k ++ 0#1) a 2#3 d 43#7
  | .wldfDirect d w => rType 2#7 (0#4 ++ w.extractLsb' 5 1) (w.extractLsb' 0 5) 2#3 d 43#7
  | .wldfIndexed d k a => rType 2#7 (0b01#2 ++ k ++ 0#1) a 2#3 d 43#7
  | .wstfDirect d w => rType 3#7 (0#4 ++ w.extractLsb' 5 1) (w.extractLsb' 0 5) 2#3 d 43#7
  | .wstfIndexed d k a => rType 3#7 (0b01#2 ++ k ++ 0#1) a 2#3 d 43#7
  | .kset k a b => rType 4#7 b a 2#3 (0#3 ++ k) 43#7
  | .wmv wd ws => rType 5#7 (0#3 ++ wd.extractLsb' 5 1 ++ ws.extractLsb' 5 1) (ws.extractLsb' 0 5) 2#3 (wd.extractLsb' 0 5) 43#7
  | .wmvw d w => rType 6#7 (0#4 ++ w.extractLsb' 5 1) (w.extractLsb' 0 5) 2#3 d 43#7
  | .sobind d a b => rType 0#7 b a 3#3 d 43#7
  | .sounbind d a b => rType 1#7 b a 3#3 d 43#7
  | .acq d a => rType 2#7 0#5 a 3#3 d 43#7
  | .rel a => rType 3#7 0#5 a 3#3 0#5 43#7
  | .mwatch a => rType 4#7 0#5 a 3#3 0#5 43#7
  | .mwait => rType 5#7 0#5 0#5 3#3 0#5 43#7
  | .barinit a b => rType 6#7 b a 3#3 0#5 43#7
  | .bararr d a b => rType 7#7 b a 3#3 d 43#7
  | .barwait a b => rType 8#7 b a 3#3 0#5 43#7
  | .bartest d a b => rType 9#7 b a 3#3 d 43#7
  | .xcopy d a => rType 0#7 0#5 a 4#3 d 43#7
  | .xcfence => rType 1#7 0#5 0#5 4#3 0#5 43#7
  | .xcwait d a => rType 2#7 0#5 a 4#3 d 43#7
  | .xcqry d a => rType 3#7 0#5 a 4#3 d 43#7
  | .smap d a => rType 0#7 0#5 a 5#3 d 43#7
  | .sunmap d a => rType 1#7 0#5 a 5#3 d 43#7
  | .sflush a => rType 2#7 0#5 a 5#3 0#5 43#7
  | .bset d a => rType 0#7 0#5 a 6#3 (0#1 ++ d) 43#7
  | .bget d a => rType 1#7 0#5 a 6#3 (0#1 ++ d) 43#7
  | .bamoAdd d a b => rType 2#7 b a 6#3 (0#1 ++ d) 43#7
  | .bamoMin d a b => rType 3#7 b a 6#3 (0#1 ++ d) 43#7
  | .bamoMax d a b => rType 4#7 b a 6#3 (0#1 ++ d) 43#7
  | .bamoAddf d a b => rType 5#7 b a 6#3 (0#1 ++ d) 43#7
  | .fuseS d a b c slot => r4 c (0#1 ++ slot.extractLsb' 3 1) b a (slot.extractLsb' 0 3) d 91#7
  | .fuseD d a b c slot => r4 c (1#1 ++ slot.extractLsb' 3 1) b a (slot.extractLsb' 0 3) d 91#7
  | .obres d a => rType 0#7 0#5 a 0#3 d 123#7
  | .obrel a => rType 1#7 0#5 a 0#3 0#5 123#7
  | .mxfence => rType 2#7 0#5 0#5 0#3 0#5 123#7
  | .mxldw d a => rType 3#7 0#5 a 0#3 d 123#7
  | .mxswap => rType 4#7 0#5 0#5 0#3 0#5 123#7
  | .mxstrm d a => rType 5#7 0#5 a 0#3 d 123#7
  | .mxsqd d a => rType 6#7 0#5 a 0#3 d 123#7
  | .mxtopk d a => rType 7#7 0#5 a 0#3 d 123#7
  | .mxwait d a => rType 8#7 0#5 a 0#3 d 123#7
  | .acrd d a b => rType 9#7 b a 0#3 d 123#7
  | .acrdf d a b => rType 10#7 b a 0#3 d 123#7
  | .aczero a => rType 11#7 0#5 a 0#3 0#5 123#7
  | .acwm d a => rType 12#7 0#5 a 0#3 d 123#7
  | .mxstat d a => rType 13#7 0#5 a 0#3 d 123#7
  | .mxsave a => rType 14#7 0#5 a 0#3 0#5 123#7
  | .mxrest a => rType 15#7 0#5 a 0#3 0#5 123#7
  | .ncvtE4 d a => rType 0#7 0#5 a 1#3 d 123#7
  | .ncvtE5 d a => rType 1#7 0#5 a 1#3 d 123#7
  | .ncvtE5s d a => rType 2#7 0#5 a 1#3 d 123#7
  | .ncvtBf d a => rType 3#7 0#5 a 1#3 d 123#7
  | .ncvtHf d a => rType 4#7 0#5 a 1#3 d 123#7
  | .ncvtI8 d a => rType 5#7 0#5 a 1#3 d 123#7
  | .ncvtN8 d a => rType 6#7 0#5 a 1#3 d 123#7
  | .wcvtE4 d a => rType 7#7 0#5 a 1#3 d 123#7
  | .wcvtE5 d a => rType 8#7 0#5 a 1#3 d 123#7
  | .wcvtBf d a => rType 9#7 0#5 a 1#3 d 123#7
  | .wcvtHf d a => rType 10#7 0#5 a 1#3 d 123#7
  | .wcvtI8 d a => rType 11#7 0#5 a 1#3 d 123#7
  | .wcvtN8 d a => rType 12#7 0#5 a 1#3 d 123#7
  | .fsclS d a b => rType 13#7 b a 1#3 d 123#7
  | .dadd d a b => rType 0#7 (0#2 ++ b) (0#2 ++ a) 2#3 (0#2 ++ d) 123#7
  | .dsub d a b => rType 1#7 (0#2 ++ b) (0#2 ++ a) 2#3 (0#2 ++ d) 123#7
  | .dmul d a b => rType 2#7 (0#2 ++ b) (0#2 ++ a) 2#3 (0#2 ++ d) 123#7
  | .ddiv d a b => rType 3#7 (0#2 ++ b) (0#2 ++ a) 2#3 (0#2 ++ d) 123#7
  | .dmin d a b => rType 4#7 (0#2 ++ b) (0#2 ++ a) 2#3 (0#2 ++ d) 123#7
  | .dmax d a b => rType 5#7 (0#2 ++ b) (0#2 ++ a) 2#3 (0#2 ++ d) 123#7
  | .dmix d a b => rType 6#7 (0#2 ++ b) (0#2 ++ a) 2#3 (0#2 ++ d) 123#7
  | .daff d a b => rType 7#7 b (0#2 ++ a) 2#3 (0#2 ++ d) 123#7
  | .dmap d a n => rType 8#7 (0#2 ++ n) (0#2 ++ a) 2#3 (0#2 ++ d) 123#7
  | .dform d a t => rType 9#7 (0#4 ++ t) (0#2 ++ a) 2#3 (0#2 ++ d) 123#7
  | .dmv d a => rType 10#7 0#5 (0#2 ++ a) 2#3 (0#2 ++ d) 123#7
  | .dpt d a => rType 0#7 0#5 a 3#3 (0#2 ++ d) 123#7
  | .duni d a t => rType 1#7 (0#1 ++ t) a 3#3 (0#2 ++ d) 123#7
  | .dsamp d a => rType 2#7 0#5 a 3#3 (0#2 ++ d) 123#7
  | .dld d a => rType 3#7 0#5 a 3#3 (0#2 ++ d) 123#7
  | .dst d a => rType 4#7 0#5 a 3#3 (0#2 ++ d) 123#7
  | .dmom d a n => rType 5#7 (0#2 ++ n) (0#2 ++ a) 3#3 d 123#7
  | .dqnt d a b => rType 6#7 b (0#2 ++ a) 3#3 d 123#7
  | .dcdf d a b => rType 7#7 b (0#2 ++ a) 3#3 d 123#7
  | .dtag d a => rType 8#7 0#5 (0#2 ++ a) 3#3 d 123#7
  | .dtags d a => rType 9#7 0#5 a 3#3 (0#2 ++ d) 123#7
  | .tspawn d a => rType 0#7 0#5 a 4#3 d 123#7
  | .ttake d => rType 1#7 0#5 0#5 4#3 d 123#7
  | .tend => rType 2#7 0#5 0#5 4#3 0#5 123#7
  | .tdec a => rType 3#7 0#5 a 4#3 0#5 123#7
  | .tyield => rType 4#7 0#5 0#5 4#3 0#5 123#7
  | .tbudg d a => rType 5#7 0#5 a 4#3 d 123#7
  | .tcancel d a => rType 6#7 0#5 a 4#3 d 123#7
  | .tstat d a => rType 7#7 0#5 a 4#3 d 123#7
  | .vpub a => rType 0#7 0#5 a 5#3 0#5 123#7
  | .vfin a => rType 1#7 0#5 a 5#3 0#5 123#7
  | .vacq d a => rType 2#7 0#5 a 5#3 d 123#7
  | .vchk d a => rType 3#7 0#5 a 5#3 d 123#7
  | .vsub d a => rType 4#7 0#5 a 5#3 d 123#7
  | .vsettle d a => rType 5#7 0#5 a 5#3 d 123#7
  | .zresume a b => rType 0#7 b a 6#3 0#5 123#7
  | .zpark d a => rType 1#7 0#5 a 6#3 d 123#7
  | .zsignal a b => rType 2#7 b a 6#3 0#5 123#7
  | .zfqpop d a => rType 3#7 0#5 a 6#3 d 123#7
  | _ => ⟨0, 0, 0, 0, 0, 0⟩

/-- The word of a prefix (R123). -/
def Pfx.word (p : Pfx) : BitVec 32 :=
  0#6 ++ bit1 p.sense ++ p.guard ++ p.hint ++ p.rm ++ bit1 p.mz ++ 7#3 ++ p.rs4 ++ 0x7B#7

/-- The bytes of a 32-bit word, little-endian (R4). -/
def bytes32 (w : BitVec 32) : List Byte := [w.extractLsb' 0 8, w.extractLsb' 8 8, w.extractLsb' 16 8, w.extractLsb' 24 8]

/-- The bytes of an instruction in address order: two for a 16-bit encoding, eight for a pair, four for every other row of the
encoding, none for an event. -/
def encode : Instr → List Byte
  | .base (some c) _ => [c.extractLsb' 0 8, c.extractLsb' 8 8]
  | .pfx p sub => bytes32 p.word ++ bytes32 sub.fields.word
  | i => if i.plain then bytes32 i.fields.word else []

/-- A row that has an encoding, and whose 16-bit form, if it is one, stands for the base instruction it carries. -/
def Instr.encodable : Instr → Bool
  | .base (some c) b => decC c == some b
  | .pfx _ _ => true
  | i => i.plain

end Sys2Proof
end

