-- ==== Sys2Proof/Machine/Crypto.lean ====
section
/-! DEFINITION. Sys2Proof/Machine/Crypto.lean: SHA-384, and ECDSA over brainpoolP384r1 (R340).

The manual fixes both by name alone: the hash is as FIPS 180-4 defines it, the curve as RFC 5639 does, ECDSA as FIPS 186 does (log 116). -/
namespace Sys2Proof.Machine

/-! ## SHA-384 -/

/-- The largest number below 2^b whose k-th power does not pass n, from the bits found so far. -/
def rootBelow (k n : Nat) : Nat → Nat → Nat
  | 0, r => r
  | b + 1, r => rootBelow k n b (if (r + 2 ^ b) ^ k ≤ n then r + 2 ^ b else r)

/-- The first 80 primes. -/
def shaPrimes : List Nat := (List.range 410).filter fun p => 2 ≤ p && (List.range p).all fun d => d < 2 || p % d != 0

/-- The first 64 bits of the fraction of the k-th root of p. -/
def rootFraction (k p : Nat) : Word := BitVec.ofNat 64 (rootBelow k (p * 2 ^ (64 * k)) 68 0)

/-- The 80 round constants: of the cube roots of the first 80 primes. -/
def shaRounds : List Word := shaPrimes.map (rootFraction 3)

/-- The initial hash value: of the square roots of the 9th to the 16th prime. -/
def shaInit : List Word := ((shaPrimes.drop 8).take 8).map (rootFraction 2)

/-- The number that big-endian bytes show. -/
def beNat (bs : List Byte) : Nat := leNat bs.reverse

/-- The n bytes of a number, big-endian. -/
def natBe (n v : Nat) : List Byte := (natLe n v).reverse

/-- The message padded to blocks of 128 bytes. -/
def shaPad (m : List Byte) : List Byte :=
  m ++ [0x80] ++ List.replicate ((239 - m.length % 128) % 128) 0 ++ natBe 16 (8 * m.length)

/-- The message schedule's next n words, newest first. -/
def shaSchedule : Nat → List Word → List Word
  | 0, w => w
  | n + 1, w =>
    let a := w.getD 1 0
    let b := w.getD 14 0
    let s1 := a.rotateRight 19 ^^^ a.rotateRight 61 ^^^ (a >>> 6)
    let s0 := b.rotateRight 1 ^^^ b.rotateRight 8 ^^^ (b >>> 7)
    shaSchedule n ((s1 + w.getD 6 0 + s0 + w.getD 15 0) :: w)

/-- The eight working variables. -/
structure ShaVars where
  a : Word
  b : Word
  c : Word
  d : Word
  e : Word
  f : Word
  g : Word
  h : Word

/-- A round with its constant and its word of the schedule. -/
def shaRound (v : ShaVars) (k w : Word) : ShaVars :=
  let s1 := v.e.rotateRight 14 ^^^ v.e.rotateRight 18 ^^^ v.e.rotateRight 41
  let t1 := v.h + s1 + ((v.e &&& v.f) ^^^ (~~~v.e &&& v.g)) + k + w
  let s0 := v.a.rotateRight 28 ^^^ v.a.rotateRight 34 ^^^ v.a.rotateRight 39
  let t2 := s0 + ((v.a &&& v.b) ^^^ (v.a &&& v.c) ^^^ (v.b &&& v.c))
  ⟨t1 + t2, v.a, v.b, v.c, v.d + t1, v.e, v.f, v.g⟩

/-- A block of 128 bytes taken into the hash value. -/
def shaBlock (h : List Word) (block : List Byte) : List Word :=
  let w := (shaSchedule 64 ((List.range 16).map fun i => BitVec.ofNat 64 (beNat ((block.drop (8 * i)).take 8))).reverse).reverse
  let at' (i : Nat) : Word := h.getD i 0
  let v := (shaRounds.zip w).foldl (fun v e => shaRound v e.1 e.2)
    ⟨at' 0, at' 1, at' 2, at' 3, at' 4, at' 5, at' 6, at' 7⟩
  List.zipWith (· + ·) h [v.a, v.b, v.c, v.d, v.e, v.f, v.g, v.h]

/-- The 48 bytes of the SHA-384 of a message. [PRESUMED, log 116: unsafe] -/
def shaBytes (m : List Byte) : List Byte :=
  let p := shaPad m
  let h := (List.range (p.length / 128)).foldl (fun h i => shaBlock h ((p.drop (128 * i)).take 128)) shaInit
  (h.take 6).flatMap fun w => natBe 8 w.toNat

/-- SHA-384 as a field of 48 bytes holds it: byte i of the hash at offset i (R340, R341). [PRESUMED, log 116: unsafe] -/
def sha384 (m : List Byte) : BitVec 384 := BitVec.ofNat 384 (leNat (shaBytes m))

/-! ## brainpoolP384r1 -/

/-- The prime of the field. -/
def curveP : Nat := 0x8CB91E82A3386D280F5D6F7E50E641DF152F7109ED5456B412B1DA197FB71123ACD3A729901D1A71874700133107EC53

/-- The coefficients of the curve. -/
def curveA : Nat := 0x7BC382C63D8C150C3C72080ACE05AFA0C2BEA28E4FB22787139165EFBA91F90F8AA5814A503AD4EB04A8C7DD22CE2826
def curveB : Nat := 0x04A8C7DD22CE28268B39B55416F0447C2FB77DE107DCD2A62E880EA53EEB62D57CB4390295DBC9943AB78696FA504C11

/-- The order of the base point. -/
def curveN : Nat := 0x8CB91E82A3386D280F5D6F7E50E641DF152F7109ED5456B31F166E6CAC0425A7CF3AB6AF6B7FC3103B883202E9046565

/-- A point of the curve; none is the point at infinity. -/
abbrev CurvePoint := Option (Nat × Nat)

/-- The base point. -/
def curveG : CurvePoint :=
  some (0x1D1C64F068CF45FFA2A63A81B7C13F6B8847A3E77EF14FE3DB7FCAFE0CBD10E8E826E03436D646AAEF87B2E247D4AF1E,
    0x8ABE1D7520F9C2A45CB1EB8E95CFD55262B70B29FEEC5864E19C054FF99129280E4646217791811142820341263C5315)

/-- b^e modulo m, of the low bits of e that the fuel counts. -/
def powMod (m : Nat) : Nat → Nat → Nat → Nat
  | 0, _, _ => 1
  | n + 1, b, e =>
    let r := powMod m n (b * b % m) (e / 2)
    if e % 2 = 1 then b * r % m else r

/-- The inverse modulo a prime of 384 bits. -/
def invMod (m a : Nat) : Nat := powMod m 384 (a % m) (m - 2)

/-- The difference modulo the prime of the field. -/
def subP (a b : Nat) : Nat := (a + (curveP - b % curveP)) % curveP

/-- The sum of two points. [PRESUMED, log 116: unsafe] -/
def curveAdd (x y : CurvePoint) : CurvePoint :=
  match x, y with
  | none, q => q
  | p, none => p
  | some (x1, y1), some (x2, y2) =>
    if x1 = x2 ∧ (y1 + y2) % curveP = 0 then none
    else
      let l := if x1 = x2 then (3 * x1 * x1 + curveA) * invMod curveP (2 * y1) % curveP else subP y2 y1 * invMod curveP (subP x2 x1) % curveP
      let x3 := subP (subP (l * l % curveP) x1) x2
      some (x3, subP (l * subP x1 x3 % curveP) y1)

/-- k times a point, of the low bits of k that the fuel counts. -/
def curveMul : Nat → Nat → CurvePoint → CurvePoint
  | 0, _, _ => none
  | n + 1, k, p =>
    let r := curveMul n (k / 2) (curveAdd p p)
    if k % 2 = 1 then curveAdd p r else r

/-- A point of the curve by its coordinates. -/
def onCurve (x y : Nat) : Bool := x < curveP && y < curveP && (y * y) % curveP == (x * x * x + curveA * x + curveB) % curveP

/-! ## ECDSA -/

/-- The number that ECDSA takes from a message. -/
def ecdsaHash (m : List Byte) : Nat := beNat (shaBytes m)

/-- The signature of a message, r then s, each of 48 little-endian bytes, verifies under a public key: its coordinates x and y in the same
form (R340). [DESIGN CHOICE, log 101: unsafe; PRESUMED, log 116: unsafe] -/
def ecdsaVerify (key m : List Byte) (sig : BitVec 768) : Bool :=
  let x := leNat (key.take 48)
  let y := leNat (key.drop 48)
  let r := sig.toNat % 2 ^ 384
  let s := sig.toNat / 2 ^ 384
  let w := invMod curveN s
  let u := ecdsaHash m * w % curveN
  let v := r * w % curveN
  key.length == 96 && onCurve x y && 0 < r && r < curveN && 0 < s && s < curveN &&
  match curveAdd (curveMul 384 u curveG) (curveMul 384 v (some (x, y))) with
  | some p => p.1 % curveN == r
  | none => false

/-- The signature of a message under a private key with the nonce k, or with the next one that leaves neither part zero; fuel bounds the
nonces tried. [DESIGN CHOICE, log 101: unsafe; PRESUMED, log 116: unsafe] -/
def ecdsaSign (d : Nat) (m : List Byte) : Nat → Nat → BitVec 768
  | 0, _ => 0
  | n + 1, k =>
    let r := match curveMul 384 k curveG with | some p => p.1 % curveN | none => 0
    let s := invMod curveN k * (ecdsaHash m + r * d) % curveN
    if r = 0 ∨ s = 0 then ecdsaSign d m n (k + 1) else BitVec.ofNat 768 (r + 2 ^ 384 * s)

/-- The public key of a private key. [DESIGN CHOICE, log 101: unsafe] -/
def ecdsaPublic (d : Nat) : List Byte :=
  match curveMul 384 d curveG with | some p => natLe 48 p.1 ++ natLe 48 p.2 | none => []

end Sys2Proof.Machine
end

