-- ==== Sys2Proof/Machine/State.lean ====
section
/-! DEFINITION. Sys2Proof/Machine/State.lean: the state of the package and the one partition the model holds.

State is plain data. The user state of a thread is User (R24); a hart is an L-core, a thread resident at the W-site, or a
Roustabout core running an emulation handler; the current hart stands unpacked in State.hart, every other hart in State.harts. -/
namespace Sys2Proof.Machine

/-- Why a run stops with a fault. -/
inductive Fault where
  /-- Raised by an M-mode access to a firmware CSR, 0x7C0 to 0x7FF, which R134 lists as not described. Safe: the run ends where the
  hardware goes on. -/
  | firmwareCsr (addr : Nat)
  deriving DecidableEq, Repr

/-- Why an instruction has no meaning. -/
inductive Refusal where
  /-- Raised by an arm of exec whose instruction has no meaning yet. Safe: nothing is claimed of it. -/
  | notModelled (mnemonic : String)
  deriving DecidableEq, Repr

/-- The two sites (R19). -/
inductive Site where
  | l | w
  deriving DecidableEq, Repr, Inhabited

/-- The privilege modes (R118). -/
inductive Mode where
  | u | s | m
  deriving DecidableEq, Repr, Inhabited

/-- An index register (R62). -/
structure KIdx where
  base : BitVec 6
  len : BitVec 7
  deriving DecidableEq, Repr, Inhabited

/-- A distribution register (R242). -/
structure Dist where
  v : Vector (BitVec 32) 8
  w : Vector (BitVec 16) 8
  tag : BitVec 16
  form : Bool
  deriving DecidableEq, Repr, Inhabited

/-- The zero distribution (R243). -/
def Dist.zero : Dist := ⟨Vector.replicate 8 0#32, Vector.replicate 8 8192#16, 0#16, false⟩

/-- The user state of a thread (R24), without its membership record (R356). -/
structure User where
  x : Vector Word 32
  f : Vector Word 32
  pc : Word
  fflags : BitVec 5
  frm : BitVec 3
  p : BitVec 12
  w : Vector (BitVec 32) 64
  k : Vector KIdx 4
  d : Vector Dist 8
  b : Vector (BitVec 128) 16
  zfmode : BitVec 7
  zamax : BitVec 31
  zaflags : BitVec 3
  zdflags : BitVec 7
  zdctl : BitVec 1
  zpack : BitVec 2
  zrfvec : BitVec 63
  zseed : Word
  zsitectl : BitVec 2
  zexp : Vector Word 16
  draw : Vector (BitVec 61) 16
  ztask : BitVec 32
  zbudget : Word
  zwprof : BitVec 16
  home : Site
  deriving DecidableEq, Repr, Inhabited

/-- The user state with every field at its reset value (R24 to R26, R40, R106, R110, R111, R173, R180, R186, R243, R245 to R247,
R283, R294). [DESIGN CHOICE, log 2: unsafe] -/
def User.init : User where
  x := Vector.replicate 32 0
  f := Vector.replicate 32 0
  pc := 0
  fflags := 0
  frm := 0
  p := 0
  w := Vector.replicate 64 0
  k := Vector.replicate 4 ⟨0, 0⟩
  d := Vector.replicate 8 Dist.zero
  b := Vector.replicate 16 0
  zfmode := 0
  zamax := 0
  zaflags := 0
  zdflags := 0
  zdctl := 0
  zpack := 3
  zrfvec := 0
  zseed := 0
  zsitectl := 0
  zexp := Vector.replicate 16 0
  draw := Vector.replicate 16 0
  ztask := 0
  zbudget := 0
  zwprof := 0x4204
  home := .l

/-- The mode and the S-mode and M-mode CSRs of a hart (R2, R118, R134). Of an interrupt's pending bit only those that software
writes are held; bits 16 and 17 follow the queues (R303). -/
structure Sup where
  mode : Mode
  mstatus : Word
  mie : Word
  mip : Word
  stvec : Word
  scounteren : Word
  senvcfg : Word
  sscratch : Word
  sepc : Word
  scause : Word
  stval : Word
  satp : Word
  medeleg : Word
  mideleg : Word
  mtvec : Word
  mcounteren : Word
  menvcfg : Word
  mcountinhibit : Word
  mscratch : Word
  mepc : Word
  mcause : Word
  mtval : Word
  deriving DecidableEq, Repr, Inhabited

/-- The supervisor registers of an L-core as the model starts them; the manual gives no reset value. [DESIGN CHOICE, log 4: unsafe] -/
def Sup.init : Sup where
  mode := .s
  mstatus := 0x8000000A00006000
  mie := 0
  mip := 0
  stvec := 0
  scounteren := 7
  senvcfg := 0
  sscratch := 0
  sepc := 0
  scause := 0
  stval := 0
  satp := 0
  medeleg := 0x000F0000FF00B1FF
  mideleg := 0x0000000000070222
  mtvec := 0
  mcounteren := 7
  menvcfg := 0
  mcountinhibit := 0
  mscratch := 0
  mepc := 0
  mcause := 0
  mtval := 0

/-- What a hart that has not retired its instruction waits for. The first eight are the waiting state of R47; the others are
stalls, which are no waiting state. The instruction at the pc executes again from its start when the wait ends. -/
inductive Wait where
  | mwait
  | barwait (obj : Nat) (target : Word)
  | ttake
  | vsettle (troupe : BitVec 32)
  | xcwait (ticket : Word)
  | xcfence
  | mxwait (ticket : Word)
  | tbar (n : BitVec 4)
  | drain
  | mendRoom
  /-- An XCOPY on a full engine, with the bytes of the request it has read (R199). -/
  | copyRoom (bs : List Byte)
  | pressRoom
  /-- A stalled ACRD or ACRDF: whether it writes an f register, the destination, the element, the commands issued before it, its
  length. -/
  | acrdRow (fp : Bool) (rd : BitVec 5) (tile row col before len : Nat)
  /-- A waiting ACZERO: the tile, the commands issued before it, its length. -/
  | aczero (tile before len : Nat)
  /-- A stalled OBRES, with the bytes of the record it has read (R216). -/
  | obres (bs : List Byte)
  /-- A waiting MXSAVE or MXREST: the W-core and the Press commands issued before it. -/
  | pressIdle (w before : Nat)
  | migrate
  /-- A MIGR.L whose thread has left its set and waits for the drain, with its length (R147). -/
  | leave (len : Nat)
  | teamMove (w : Nat)
  | rmRequest
  | zpark (ctx : Nat)
  deriving DecidableEq, Repr

/-- A trap to be taken when a thread is next installed (R33). -/
structure PendTrap where
  cause : Nat
  epc : Word
  tval : Word
  deriving DecidableEq, Repr

/-- A record that waits for room in its queue (R308): a fault by cause, access code and address, or an illegal
encoding with its class's handler entry at the trap. -/
inductive Unfiled where
  | fault (cause acc : Nat) (va : Word)
  | emul (e : Illegal) (entry : List Byte)
  deriving DecidableEq, Repr

/-- The Carousel's record of a resident thread (R47, R48, R54). A thread with no wait, no park and no conv is runnable. -/
structure Car where
  core : Nat
  slot : Nat
  active : Bool
  entered : Nat
  waited : Nat
  /-- The A-clock up to which the thread is not drawn (R150). -/
  skip : Option Nat
  w32 : Bool
  conv : Option Word
  faultTag : Option Nat
  emulTag : Option Nat
  zparked : Bool
  preempted : Bool
  unfiled : Option Unfiled
  /-- The trap with which the thread migrates once its mending entries have drained (R30, R64, R315). -/
  leaving : Option PendTrap
  deriving DecidableEq, Repr

/-- The watch of MWATCH (R91). -/
structure Watch where
  line : Nat
  hit : Bool
  deriving DecidableEq, Repr

/-- The run of an emulation handler (R312). -/
structure HandlerRun where
  recordAddr : Nat
  recordVa : Word
  ctx : Nat
  tag : Nat
  started : Nat
  deriving DecidableEq, Repr

/-- An agent that executes instructions. -/
structure Hart where
  id : HartId
  u : User
  sup : Sup
  installed : Option Nat
  resv : Option Nat
  watch : Option Watch
  instret : Word
  cycle : Word
  wait : Option Wait
  /-- The wait that has ended, until its instruction executes again: a BARWAIT whose phase has ended acquires, an XCOPY issues the request
  it has read (R195, R199). -/
  resume : Option Wait
  /-- The W-core that a migration which waits at the L-site has chosen (R31). -/
  chosen : Option Nat
  car : Option Car
  /-- ZSIGNAL's SIGCODE (R317). -/
  extract : Option (BitVec 8)
  /-- zbudget has reached 0 and cause 28 has not been taken (R280). -/
  budgetDue : Bool
  /-- The address of the oldest dropped entry since the last cause 30 (R67). -/
  dropped : Option Word
  /-- The thread has returned to U-mode at the L-site and goes to its home site before it executes an instruction (R34). -/
  homing : Bool
  /-- The objects of the bound regions written since the run of the current task began (R73, R284). -/
  wrote : List Nat
  handler : Option HandlerRun
  deriving DecidableEq, Repr, Inhabited

/-- A hart with nothing pending. [DESIGN CHOICE, log 2: unsafe] -/
def Hart.init (id : HartId) : Hart where
  id := id
  u := User.init
  sup := Sup.init
  installed := none
  resv := none
  watch := none
  instret := 0
  cycle := 0
  wait := none
  resume := none
  chosen := none
  car := none
  extract := none
  budgetDue := false
  dropped := none
  homing := false
  wrote := []
  handler := none

/-- A migration on its way (R30, R33). -/
structure Transit where
  ctx : Nat
  hart : Hart
  /-- The destination W-core; none is the L-site. -/
  dest : Option Nat
  /-- The W-core left, for the ARRIVE record (R307). -/
  fromCore : Nat
  trap : Option PendTrap
  sig : Option (BitVec 8)
  deriving DecidableEq, Repr

/-- The device's membership record of a thread (R38, R151, R155, R356). -/
structure Member where
  who : HartId
  team : BitVec 16
  rank : BitVec 12
  detached : Bool
  pending : BitVec 16
  phase : Vector (BitVec 32) 16
  /-- The A-clock of its TJOIN (R157). -/
  since : Word
  deriving DecidableEq, Repr

/-- A team barrier (R155), and the members whose arrivals fall in this A-clock: they are applied together at its end (R157). -/
structure TeamBar where
  phase : BitVec 32
  count : Nat
  arriving : List HartId
  deriving DecidableEq, Repr

/-- A filled granule of a stash window: its index, the physical line it was filled from, its dirty bytes with the member that wrote each,
and its clean bytes that have been discarded and fill anew at the next touch (R74, R85). -/
structure Granule where
  idx : Nat
  pa : Nat
  dirty : List (Nat × HartId)
  gone : List Nat
  deriving DecidableEq, Repr

/-- A stash window (R84, R206). -/
structure Window where
  num : Nat
  base : Word
  len : Nat
  off : Nat
  obj : Nat
  asid : BitVec 16
  granules : List Granule
  deriving DecidableEq, Repr

/-- A team (R38). -/
structure Team where
  num : BitVec 16
  wcore : Nat
  bars : Vector TeamBar 16
  windows : List Window
  deriving DecidableEq, Repr

/-- A binding of a region to a sync object (R70). -/
structure Binding where
  asid : BitVec 16
  base : Word
  len64 : Nat
  stash : Bool
  obj : Nat
  deriving DecidableEq, Repr

/-- A private byte of a bound region: dirty, or a clean copy (R73 to R75). -/
structure PrivByte where
  who : HartId
  pa : Nat
  /-- The virtual address at which the thread accessed it last (R84, R158). -/
  va : Nat
  val : Byte
  /-- The region it belongs to: the ASID and base of the binding, and the object. -/
  asid : BitVec 16
  base : Word
  obj : Nat
  dirty : Bool
  deriving DecidableEq, Repr

/-- How a mending entry acts on memory (R65, R307). -/
inductive MendOp where
  | store
  | amo (op : AmoOp)
  | bamoAdd
  | bamoMin
  | bamoMax
  | bamoAddf
  deriving DecidableEq, Repr

/-- Where a mending entry stands: it has not been tried at its turn, its MEND record waits for room in the queue, or its record
awaits disposition (R65, R66, R308). -/
inductive MendState where
  | queued
  | unfiled
  | awaiting (tag : Nat)
  deriving DecidableEq, Repr

/-- An entry of the mending buffer (R65). -/
structure Mend where
  ctx : Nat
  pc : Word
  va : Word
  op : MendOp
  bytes : List Byte
  state : MendState
  deriving DecidableEq, Repr

/-- A group in an issue slot (R38, R49): its lanes in order, the lanes that have not yet executed its instruction, whether a
re-binning point has been met, and the bytes fetched for its instruction, which are the same for all its lanes (R133). -/
structure Group where
  lanes : List Nat
  todo : List Nat
  ending : Bool
  clocks : Nat
  code : List Byte
  deriving DecidableEq, Repr

/-- The kind of an accumulator tile (R212). -/
inductive TileKind where
  | none | fp32 | int32
  deriving DecidableEq, Repr

/-- The descriptor of a plane (R212, R233). -/
structure PlaneDesc where
  valid : Bool
  fmt : BitVec 3
  bl : BitVec 2
  sc : Bool
  sfmt : Bool
  deriving DecidableEq, Repr

/-- A weight plane: packed weights as R224 reads them, and scale (q, n) as FP32 at q × 256 + n. -/
structure Plane where
  desc : PlaneDesc
  weights : Array Byte
  scales : Array (BitVec 32)
  deriving DecidableEq, Repr

/-- A tile: its elements at row × 256 + column, an unlisted one zero (R212). -/
structure Tile where
  kind : TileKind
  cells : List (Nat × BitVec 32)
  deriving DecidableEq, Repr

/-- A reservation of the operand buffer (R214, R216). -/
structure Resv where
  base : Nat
  len : Nat
  fmt : BitVec 3
  sfmt : Bool
  sc : Bool
  bl : BitVec 2
  soff : Nat
  releasing : Bool
  deriving DecidableEq, Repr

/-- The kinds of Press commands (R218). -/
inductive CmdKind where
  | ldw | swap | strm | sqd | topk
  deriving DecidableEq, Repr

/-- A parameter block as read at issue (R219). -/
structure Blk where
  aid : Nat
  wid : Nat
  dt : Nat
  st : Nat
  acc : Bool
  i32 : Bool
  largest : Bool
  m : Nat
  row0 : Nat
  kbase : Nat
  kcnt : Nat
  nbase : Nat
  ncnt : Nat
  aoff : Nat
  apitch : Nat
  aspitch : Nat
  woff : Nat
  g : Nat
  k : Nat
  resume : Nat
  deriving DecidableEq, Repr

/-- A queued Press command: its place in the issue order, its ticket's sequence number (0 for MXSWAP), its block and the block's
window offset, the reservation it reads as it stood at issue, the next row, the operand-buffer bytes written since its issue with the
values they held then (R223), the older values that bytes not fenced at its issue may still show (R222), and whether it has started. -/
structure Cmd where
  kind : CmdKind
  no : Nat
  seq : Nat
  blk : Blk
  blkOff : Nat
  resv : Option Resv
  row : Nat
  taint : List (Nat × Byte)
  stale : List (Nat × List Byte)
  started : Bool
  deriving DecidableEq, Repr

/-- The Press of a W-core (R212). -/
structure Press where
  active : Plane
  shadow : Plane
  tiles : Vector Tile 4
  queue : List Cmd
  resvs : Vector (Option Resv) 32
  mxstat : BitVec 5
  /-- The commands issued, MXSWAP among them: the place in the issue order (R220, R234). -/
  issued : Nat
  seq : Nat
  /-- The status of ended tickets, newest first, at most 1,024 (R221). -/
  status : List (Nat × Nat)
  deriving DecidableEq, Repr

/-- A copy request in flight (R199). -/
structure Req where
  seq : Nat
  who : HartId
  /-- The address space of the issuing thread: its mode, SUM, MXR and satp. -/
  mode : Mode
  sum : Bool
  mxr : Bool
  satp : Word
  asid : BitVec 16
  src : Word
  dst : Word
  rows : Nat
  rowlen : Nat
  spitch : Nat
  dpitch : Nat
  barrier : Word
  row : Nat
  /-- The values that bytes it has written held before, by place: (in the SRAM, address) (R201). -/
  olds : List ((Bool × Nat) × List Byte)
  /-- The bytes it has written in memory while regions are bound: address, length (R89). -/
  out : List (Nat × Nat)
  deriving DecidableEq, Repr

/-- A copy fault for one of the threads whose requests it ended: its stop address, when it happened, whether it has been reported to the
thread, and the thread's requests it ended (R90, R202). -/
structure CopyFault where
  who : HartId
  stop : Word
  stamp : Nat
  reported : Bool
  seqs : List Nat
  deriving DecidableEq, Repr

/-- A request of a copy channel by its issuer, its channel and its sequence number. -/
structure CopySrc where
  who : HartId
  ch : Nat
  seq : Nat
  deriving DecidableEq, Repr

/-- A write of an operand-buffer byte that no MXFENCE covers: the value before it, the copy request that made it if one did, the sync objects
released for that request, and the threads to which it is visible (R222). [DESIGN CHOICE, log 75: safe] -/
structure ObWrite where
  old : Byte
  src : Option CopySrc
  objs : List Nat
  seen : List HartId
  deriving DecidableEq, Repr

/-- An operand-buffer byte with writes that no MXFENCE covers: its window offset, those writes, newest first (R222). -/
structure Unfenced where
  off : Nat
  writes : List ObWrite
  deriving DecidableEq, Repr

/-- Bytes of memory that a copy request has written: the request, address, length. -/
structure CopyOut where
  src : CopySrc
  addr : Nat
  len : Nat
  deriving DecidableEq, Repr

/-- A copy channel (R87, R88, R202). -/
structure Chan where
  seq : Nat
  queue : List Req
  cwp : Word
  /-- The status of ended requests, newest first, at most 1,024. -/
  status : List (Nat × Nat)
  faults : List CopyFault
  /-- The bytes it has written in memory while regions are bound (R201). -/
  boundOut : List CopyOut
  /-- The newest request of each thread (R204). -/
  newest : List (HartId × Nat)
  deriving DecidableEq, Repr, Inhabited

/-- A W-core of the partition. -/
structure WCore where
  num : Nat
  /-- Written bytes of the banks by window offset. -/
  sram : List (Nat × Byte)
  /-- Ranges of undefined bytes, newest first: offset, length, epoch. -/
  undef : List (Nat × Nat × Nat)
  unfenced : List Unfenced
  slots : Vector (Option Group) 4
  mend : List Mend
  press : Press
  chans : Vector Chan 16
  deriving DecidableEq, Repr

/-- The states of a task (R270). -/
inductive TaskState where
  | free | waiting | ready | running | ended
  deriving DecidableEq, Repr

/-- An input of a task: the object's address, its physical address once known, and the consumed version (R292). -/
structure TaskInput where
  va : Word
  pa : Option Nat
  consumed : Nat
  deriving DecidableEq, Repr

/-- The descriptor of a task (R271). -/
structure TaskDesc where
  entry : Word
  arg : Word
  deadline : Word
  budget : Word
  deps : Nat
  complete : Bool
  prio : Nat
  troupe : BitVec 32
  succ : Word
  nsucc : Nat
  deriving DecidableEq, Repr

/-- An entry of the task table (R269, R270). -/
structure Task where
  idx : Nat
  gen : Nat
  state : TaskState
  count : Nat
  decr : Bool
  runs : Nat
  desc : TaskDesc
  inputs : Vector (Option TaskInput) 8
  marked : Bool
  /-- In the ready set; a READY task outside it is held (R276). -/
  inSet : Bool
  stamp : Nat
  deriving DecidableEq, Repr

/-- A request to Ringmaster (R288). The TYIELD that TTAKE performs does not retire its instruction. -/
inductive RmReq where
  | tend (handle : BitVec 32) (succ : List (BitVec 32))
  | tyield (handle : BitVec 32) (retires : Bool)
  | tdec (handle : Word)
  | tcancel (rd : XReg) (handle : Word)
  | tspawn (rd : XReg) (desc : TaskDesc) (inputs : List Word)
  deriving DecidableEq, Repr

/-- A request that waits for its A-clock: its issuer and the length of its instruction. -/
structure RmPost where
  who : HartId
  len : Nat
  req : RmReq
  deriving DecidableEq, Repr

/-- A thread that waits in TTAKE, with the clock at which it entered and its place in the order of R278. -/
structure Taker where
  who : HartId
  rd : XReg
  since : Nat
  isW : Bool
  core : Nat
  rank : Nat
  len : Nat
  deriving DecidableEq, Repr

/-- A thread that waits in VSETTLE (R297), and the number of entries freed once its troupe has settled: a thread of a stopped W-core goes on
when the core runs again (R10). -/
structure Settler where
  who : HartId
  rd : XReg
  troupe : BitVec 32
  len : Nat
  freed : Option Nat
  deriving DecidableEq, Repr

/-- Ringmaster (R269 to R299). -/
structure Ringmaster where
  tasks : List Task
  takers : List Taker
  settlers : List Settler
  reqs : List RmPost
  /-- Requests wait for the next A-clock, in which they are applied together: the model's own field. -/
  hold : Bool
  /-- A request has been applied in this A-clock: the model's own field. -/
  used : Bool
  deriving DecidableEq, Repr, Inhabited

/-- The kinds of records that await disposition (R307, R315). -/
inductive AwaitKind where
  | arrive | fault | mend | emul
  deriving DecidableEq, Repr

/-- A record awaiting disposition: what the device keeps of it, and for an emulation record the class's handler entry as it stood when
the trap occurred (R310). -/
structure Await where
  tag : Nat
  kind : AwaitKind
  ctx : Nat
  cause : Nat
  addr : Word
  pc : Word
  entry : List Byte
  deriving DecidableEq, Repr

/-- What the device keeps of a thread whose user state is in its context image, in the image's device word (R304): its counts, the
oldest dropped store, the objects written in its run, and whether cause 28 is due. -/
structure Asleep where
  ctx : Nat
  instret : Word
  cycle : Word
  dropped : Option Word
  wrote : List Nat
  budgetDue : Bool
  deriving DecidableEq, Repr

/-- A command of the partition's virtual interface (R322). -/
inductive HostCmd where
  | preempt
  | resume
  /-- whole says that it is part of the whole-device checkpoint of R336. -/
  | checkpoint (slot : Nat) (stay whole : Bool)
  | restore (slot : Nat)
  | attest (nonce : List Byte)
  deriving DecidableEq, Repr

/-- Whether the partition runs (R322). -/
inductive Status where
  | running | stopped
  deriving DecidableEq, Repr, Inhabited

/-- A ring of records in memory that the device fills (R306, R309). The oldest records are those taken by emulation handlers, with whether
each has been disposed: they keep their places until then (R312). -/
structure Queue where
  base : Nat
  en : Bool
  size : Nat
  serve : Bool
  head : Nat
  count : Nat
  taken : List Bool
  deriving DecidableEq, Repr, Inhabited

/-- An event whose W-fault record waits for room, by its thread (R308): a parked lane's FAULT, or the MEND of an entry of a W-core. -/
inductive Backlog where
  | fault (ctx : Nat)
  | mend (w ctx : Nat)
  deriving DecidableEq, Repr

/-- The partition (R15). [DESIGN CHOICE, log 10: safe] -/
structure Part where
  formed : Bool
  pid : Nat
  lcores : List Nat
  wcoreNums : List Nat
  ranges : List (Nat × Nat)
  tasks : Nat
  status : Status
  notify : Option Nat
  /-- The SHA-384 of the boot image loaded at its formation (R341). -/
  bootHash : BitVec 384
  rbtBase : Nat
  rbtEn : Bool
  bindings : List Binding
  wfq : Queue
  emq : Queue
  nextTag : Nat
  awaiting : List Await
  /-- The events whose records wait for room in the W-fault queue, and the threads whose emulation records wait, oldest first (R308). -/
  backlog : List Backlog
  emBacklog : List Nat
  parkBase : Nat
  parkPlaced : Bool
  parkSize : Nat
  zage : BitVec 16
  bankrole : Word
  w32 : Bool
  hotBase : Nat
  hotIvl : Nat
  hotEn : Bool
  hotCounts : List (Nat × Nat)
  hotClock : Nat
  dlmiss : Word
  teams : List Team
  members : List Member
  priv : List PrivByte
  /-- The bytes that copy requests have released to a sync object: object, address, length (R89). -/
  copyRel : List (Nat × Nat × Nat)
  wcores : List WCore
  lce : Vector (Vector Chan 16) 2
  rm : Ringmaster
  transit : List Transit
  asleep : List Asleep
  /-- The commands that have arrived, the one being performed first. -/
  cmds : List HostCmd
  /-- Host requests that wait for a CHECKPOINT or RESTORE (R323). -/
  hostReqs : List HostMem
  /-- Trapeze requests under the partition's own pair that wait for a CHECKPOINT or RESTORE (R335). -/
  netReqs : List TrapezeReq
  /-- Pre-emption has begun: the W-cores draw no groups (R319). -/
  preempting : Bool
  deriving DecidableEq, Repr, Inhabited

/-- A safe-tier slot's contents (R334): the package and partition ids, the ranges, the memory and poison of the ranges, the
partition's save area, and the digest over everything written. -/
structure Saved where
  pkg : Nat
  pid : Nat
  ranges : List (Nat × Nat)
  mem : List Host.Cell
  poison : List Nat
  hart : Hart
  harts : List Hart
  part : Part
  deriving DecidableEq, Repr, Inhabited

/-- The bytes of what a CHECKPOINT writes (R334). [DESIGN CHOICE, log 81: safe] -/
opaque saveImage : Saved → List Byte

/-- The SHA-384 of R334 over everything written. [DESIGN CHOICE, log 81: safe] -/
def saveDigest (x : Saved) : BitVec 384 := sha384 (saveImage x)

/-- A safe-tier slot. -/
structure Slot where
  num : Nat
  saved : Saved
  digest : BitVec 384
  deriving DecidableEq, Repr, Inhabited

/-- The contents of a slot whose writing the safe tier did not complete (R336). [DESIGN CHOICE, log 81: safe] -/
opaque undefSlot : Nat → Slot

/-- The lifetime record (R353): seconds by die and temperature bin and by die, rail and voltage bin, events by place, the rows that the
spares of a W-core serve in the order of the spares, each remap by W-core, row, zaclk and power-on hour, failures by step and code, hours. -/
structure Lifetime where
  temps : List ((Nat × Nat) × Nat)
  volts : List ((Nat × Nat × Nat) × Nat)
  correctable : List (ErrorSite × Nat)
  uncorrectable : List (ErrorSite × Nat)
  retries : List (LinkId × Nat)
  rowMap : List (Nat × List Nat)
  remaps : List (Nat × Nat × Nat × Nat)
  shutdowns : Nat
  bringUpFailures : List (Nat × Nat)
  hours : Nat
  deriving DecidableEq, Repr

/-- A message to the host (R324), to the management function or to another package, the answer to a host command, the data of a host read,
an attestation report. -/
inductive HostMsg where
  | notify (line : List Byte)
  | status (code : Nat)
  | data (bytes : List Byte)
  | error
  | report (bytes : List Byte)
  | bringUpFailure (step code : Nat)
  | mgmt (done : Bool)
  /-- The lifetime record, and events of the trace ring, as the management function reads them (R353, R354). -/
  | record (life : Lifetime)
  | trace (events : List (List Byte))
  /-- The answers to a request on Trapeze: the bytes read, a write performed or a copy invalidated, an SC that stores nothing, "no copy",
  the access fault. -/
  | trapezeData (bytes : List Byte)
  | trapezeDone
  | trapezeLost
  | trapezeNoCopy
  | trapezeFault
  /-- A probe of a line, sent to a package under the pair of the writer (R79, R81, R328, R329). -/
  | trapezeProbe (dest pkg pid line : Nat)
  deriving DecidableEq, Repr

/-- A trace event (R354). -/
structure TraceEvent where
  source : Nat
  pid : Nat
  kind : Nat
  seq : Nat
  time : Word
  payload : Nat
  deriving DecidableEq, Repr

/-- The trace ring: where in memory the management function placed it and for how many events, the place of the oldest event in it and the
number of its events, the sequence numbers and the drop counts of the sources (R354). -/
structure Trace where
  place : Option (Nat × Nat)
  oldest : Nat
  count : Nat
  seqs : List (Nat × Nat)
  drops : List (Nat × Nat)
  deriving DecidableEq, Repr

/-- A stage of the firmware as it stands in the package's store: the image, the public key it is checked against, its signature, its
security version (R340). [DESIGN CHOICE, log 101: unsafe] -/
structure Stage where
  image : List Byte
  key : List Byte
  sig : BitVec 768
  version : Nat
  deriving DecidableEq, Repr

/-- A memory range on this package granted to a partition of another package (R328). -/
structure Grant where
  pkg : Nat
  pid : Nat
  base : Nat
  len : Nat
  deriving DecidableEq, Repr

/-- The package (R7 to R14). -/
structure Pkg where
  zaclk : Word
  /-- The bring-up step last passed: 7 is done (R351). -/
  bringUp : Nat
  bringUpFailed : Bool
  /-- The firmware in the package's store, first stage first (R340). -/
  stages : List Stage
  /-- The firmware that runs: the stages that the bring-up verified (R340, R341). -/
  firmware : List Stage
  pkgId : Nat
  /-- The distribution of addresses over stacks, channels and slices that the reset set (R79, R326). -/
  spread : Nat
  /-- The firmware-reserved memory (R326). -/
  reserved : List (Nat × Nat)
  grants : List Grant
  unreachable : List Nat
  /-- The groups of packages that may hold a copy of a line: line number, bit (R79, R329). -/
  remote : List (Nat × Nat)
  /-- The reservations of LRs of other packages' threads: line, package, partition (R118, R329). -/
  held : List (Nat × Nat × Nat)
  gated : List (Nat × Nat)
  slots : List Slot
  hostOut : List HostMsg
  lifetime : Lifetime
  committed : Lifetime
  trace : Trace
  /-- The W-dies and the W-cores whose A-clocks are stopped because they are hot, and the W-cores stopped because the package's power is
  beyond the limit (R352). -/
  hotDies : List Nat
  hotCores : List Nat
  powerStops : List Nat
  /-- The physical Press rows that are faulty, by W-core, and the W-cores that need more than their spares (R355). -/
  faults : List (Nat × List Nat)
  leftOut : List Nat
  deriving DecidableEq, Repr

/-- Where an 8-byte word of an image goes: to memory, to a W-core's window offset, or to an offset of a granule of a stash window, which lies
at a physical address (R263). [DESIGN CHOICE, log 95: safe] -/
inductive WordPlace where
  | home (pa : Nat)
  | window (core off : Nat)
  | stash (team : BitVec 16) (num idx off pa : Nat)
  deriving DecidableEq, Repr

/-- An 8-byte word of a distribution image that a DST has not yet performed: its thread, its place, its bytes (R263).
[DESIGN CHOICE, log 95: safe] -/
structure Tail where
  who : HartId
  place : WordPlace
  bytes : List Byte
  deriving DecidableEq, Repr

/-- What the firmware and the management function do without a row of the opcode table: they place the trace ring, read events out of it,
read the lifetime record, store firmware, reserve memory, grant memory to a partition of another package, order a shutdown, and sensors and
clocks add to the record: seconds of a die at a temperature in °C, of a die's rail at a voltage in mV, an hour of power. -/
inductive Service where
  | placeTrace (base cap : Nat)
  | readTrace (n : Nat)
  | readRecord
  | storeFirmware (stages : List Stage)
  | reserve (ranges : List (Nat × Nat))
  | grant (g : Grant)
  | orderlyShutdown
  | temperature (die : Nat) (celsius : Int) (secs : Nat)
  | voltage (die rail mv secs : Nat)
  | powerOnHour
  deriving DecidableEq, Repr

/-- Who moves next, where the manual leaves the order open, and the inputs from outside: the model's own field.
[DESIGN CHOICE, log 1: unsafe] -/
inductive Action where
  | run (h : HartId)
  /-- As run, the words of an image that the mask names staying unperformed (R263). -/
  | runSplit (h : HartId) (mask : BitVec 8)
  /-- The oldest unperformed word of an image is performed. -/
  | performWord
  | focus (h : HartId)
  | event (i : Instr)
  | collect
  | teamCreate (num wcore : Nat)
  | teamDissolve (num : Nat)
  | service (e : Service)
  | wholeCheckpoint (slot : Nat) (stay : Bool)
  deriving DecidableEq, Repr

/-- The state of the machine. [DESIGN CHOICE, log 10: safe] -/
structure State where
  mem : List Host.Cell
  poison : List Nat
  hart : Hart
  harts : List Hart
  part : Part
  pkg : Pkg
  /-- The prefix of the pair being executed; none between steps. The model's own field. -/
  pfx : Option Pfx
  /-- What moves next; empty leaves the choice to the step function. The model's own field. -/
  agenda : List Action
  /-- The number of free values used so far. The model's own field. -/
  freeCount : Nat
  /-- The harts that have moved in this A-clock, for the schedule of an empty agenda. The model's own field. -/
  ran : List HartId
  /-- The words that the next image store leaves unperformed; none between steps. The model's own field. -/
  split : BitVec 8
  /-- The unperformed words of images, oldest first (R263). The model's own field. -/
  tail : List Tail
  deriving DecidableEq, Repr

/-! ## Reset -/

/-- A plane that is not valid (R212). Of its other fields the manual gives no reset value: format 0, block length code 0, no scales, weights of
zero, as an MXSAVE image shows them. [DESIGN CHOICE, log 107: unsafe] -/
def Plane.empty : Plane := ⟨⟨false, 0, 0, false, false⟩, #[], #[]⟩

/-- A tile of zeros of kind NONE (R212). -/
def Tile.zero : Tile := ⟨.none, []⟩

/-- The Press at reset (R212). -/
def Press.init : Press where
  active := Plane.empty
  shadow := Plane.empty
  tiles := Vector.replicate 4 Tile.zero
  queue := []
  resvs := Vector.replicate 32 none
  mxstat := 0
  issued := 0
  seq := 0
  status := []

/-- A copy channel at reset (R88, R200). -/
def Chan.init : Chan := ⟨0, [], 0, [], [], [], []⟩

/-- A W-core at reset. [DESIGN CHOICE, log 5: unsafe] -/
def WCore.init (n : Nat) : WCore where
  num := n
  sram := []
  undef := []
  unfenced := []
  slots := Vector.replicate 4 none
  mend := []
  press := Press.init
  chans := Vector.replicate 16 Chan.init

/-- An unplaced, empty queue (R306, R309). -/
def Queue.init : Queue := ⟨0, false, 0, false, 0, 0, []⟩

/-- Ringmaster with no task (R269). [DESIGN CHOICE, log 6: unsafe] -/
def Ringmaster.init : Ringmaster := ⟨[], [], [], [], false, false⟩

/-- No partition, every partition register at its reset value (R41, R51, R53, R71, R83, R93, R283, R306, R309).
[DESIGN CHOICE, log 7: unsafe] -/
def Part.init : Part where
  formed := false
  pid := 0
  lcores := []
  wcoreNums := []
  ranges := []
  tasks := 0
  status := .stopped
  notify := none
  bootHash := 0
  rbtBase := 0
  rbtEn := false
  bindings := []
  wfq := Queue.init
  emq := Queue.init
  nextTag := 1
  awaiting := []
  backlog := []
  emBacklog := []
  parkBase := 0
  parkPlaced := false
  parkSize := 0
  zage := 0x0040
  bankrole := 0xAAAA555555550000
  w32 := false
  hotBase := 0
  hotIvl := 4
  hotEn := false
  hotCounts := []
  hotClock := 0
  dlmiss := 0
  teams := []
  members := []
  priv := []
  copyRel := []
  wcores := []
  lce := Vector.replicate 2 (Vector.replicate 16 Chan.init)
  rm := Ringmaster.init
  transit := []
  asleep := []
  cmds := []
  hostReqs := []
  netReqs := []
  preempting := false

/-- An empty lifetime record. [DESIGN CHOICE, log 7: unsafe] -/
def Lifetime.init : Lifetime where
  temps := []
  volts := []
  correctable := []
  uncorrectable := []
  retries := []
  rowMap := []
  remaps := []
  shutdowns := 0
  bringUpFailures := []
  hours := 0

/-- The package out of reset, before bring-up (R351). [DESIGN CHOICE, log 7: unsafe] -/
def Pkg.init : Pkg where
  zaclk := 0
  bringUp := 0
  bringUpFailed := false
  stages := []
  firmware := []
  pkgId := 0
  spread := 0
  reserved := []
  grants := []
  unreachable := []
  remote := []
  held := []
  gated := []
  slots := []
  hostOut := []
  lifetime := Lifetime.init
  committed := Lifetime.init
  trace := ⟨none, 0, 0, [], []⟩
  hotDies := []
  hotCores := []
  powerStops := []
  faults := []
  leftOut := []

/-- The machine right after the package reset is released: no bring-up step has run and no partition is formed (R351).
[DESIGN CHOICE, log 3: unsafe] -/
def State.reset : State where
  mem := []
  poison := []
  hart := Hart.init (.lcore 0)
  harts := []
  part := Part.init
  pkg := Pkg.init
  pfx := none
  agenda := []
  freeCount := 0
  ran := []
  split := 0
  tail := []

end Sys2Proof.Machine
end

