-- ==== Sys2Proof/Machine/Image.lean ====
section
/-! DEFINITION. Sys2Proof/Machine/Image.lean: the images of a thread's user state in memory (R26, R27, R244, R304). -/
namespace Sys2Proof.Machine

/-! ## The W-profile (R26) -/

/-- The usable distribution registers. -/
def profD (z : BitVec 16) : Nat := (z.extractLsb' 0 4).toNat

/-- The usable array words. -/
def profW (z : BitVec 16) : Nat := (z.extractLsb' 4 7).toNat

/-- The usable buffer records. -/
def profB (z : BitVec 16) : Nat := (z.extractLsb' 11 5).toNat

/-- The W-profile class (R27). -/
def profClass (z : BitVec 16) : Nat :=
  let ctx := 512 + (if profD z = 0 then 0 else 128) + 64 * profD z + 4 * profW z + 16 * profB z
  if ctx ≤ 672 then 0 else if ctx ≤ 1024 then 1 else if ctx ≤ 1536 then 2 else 3

/-- The space that a context of a class occupies (R27). -/
def classSpace (c : Nat) : Nat := if c = 0 then 672 else if c = 1 then 1024 else if c = 2 then 1536 else 2048

/-! ## Images -/

/-- The points of a distribution as (value, weight). -/
def Dist.points (d : Dist) : List (Nat × Nat) := (List.range 8).map fun i => ((d.v.toList.getD i 0).toNat, (d.w.toList.getD i 0).toNat)

/-- The image of a distribution (R244). -/
def imageOf (x : Dist) : List Byte :=
  x.points.flatMap (fun p => natLe 4 p.1) ++ x.points.flatMap (fun p => natLe 2 p.2) ++ natLe 2 x.tag.toNat ++
  natLe 1 (if x.form then 1 else 0) ++ natLe 13 0

/-- Part A of an image: the base-architecture state. -/
def imageA (u : User) : List Byte :=
  natLe 8 0 ++ (u.x.toList.drop 1).flatMap (fun v => natLe 8 v.toNat) ++ u.f.toList.flatMap (fun v => natLe 8 v.toNat) ++
  natLe 8 u.pc.toNat ++ natLe 8 (u.frm.toNat * 32 + u.fflags.toNat)

/-- The bytes of the elements below a count, zeros at and above it. -/
def belowCount {α : Type} (l : List α) (count size : Nat) (f : α → List Byte) : List Byte :=
  (l.mapIdx fun i v => if i < count then f v else natLe size 0).flatten

/-- Part B of an image of a thread with a membership record; the device word, which the manual leaves open, is the free value n, and the
reserved bytes are zero (R5, R304). [DEDUCED, log 65: unsafe] -/
def imageB (u : User) (m : Option Member) (n : Nat) : List Byte :=
  natLe 8 u.p.toNat ++ u.k.toList.flatMap (fun k => natLe 1 k.base.toNat ++ natLe 1 k.len.toNat) ++
  natLe 8 u.zfmode.toNat ++ natLe 8 u.zamax.toNat ++ natLe 8 u.zaflags.toNat ++ natLe 8 u.zdflags.toNat ++ natLe 8 u.zdctl.toNat ++
  natLe 8 u.zpack.toNat ++ natLe 8 (2 * u.zrfvec.toNat) ++ natLe 8 u.zseed.toNat ++ natLe 8 u.zsitectl.toNat ++
  natLe 8 u.ztask.toNat ++ natLe 8 u.zbudget.toNat ++
  natLe 8 (u.zwprof.toNat + (if u.home = .w then 2 ^ 16 else 0) + (match m with | some m => if m.detached then 2 ^ 17 else 0 | none => 0)) ++
  natLe 8 (match m with | some m => m.team.toNat + 2 ^ 16 * m.rank.toNat | none => 0) ++
  natLe 8 (Config.freeWord n).toNat ++
  u.zexp.toList.flatMap (fun v => natLe 8 v.toNat) ++ u.draw.toList.flatMap (fun v => natLe 8 v.toNat) ++
  natLe 8 (match m with | some m => m.pending.toNat | none => 0) ++
  (match m with | some m => m.phase.toList.flatMap (fun v => natLe 4 v.toNat) | none => natLe 64 0) ++
  natLe 40 0 ++
  belowCount u.w.toList (profW u.zwprof) 4 (fun v => natLe 4 v.toNat) ++
  belowCount u.b.toList (profB u.zwprof) 16 (fun v => natLe 16 v.toNat) ++
  belowCount u.d.toList (profD u.zwprof) 64 imageOf

/-- The image of a thread's whole user state. -/
def imageAll (u : User) (m : Option Member) (n : Nat) : List Byte := imageA u ++ imageB u m n

/-- The 32 bytes of a trace event (R354). -/
def TraceEvent.bytes (e : TraceEvent) : List Byte :=
  natLe 2 e.source ++ natLe 1 e.pid ++ natLe 1 e.kind ++ natLe 4 e.seq ++ natLe 8 e.time.toNat ++ natLe 16 e.payload

end Sys2Proof.Machine
end

