-- ==== Sys2Proof/Machine/Ops.lean ====
section
/-! DEFINITION. Sys2Proof/Machine/Ops.lean: the named operations over registers, memory at the home, records, traps and migration.

A meaning is a computation of type M: it goes on with a state, or it ends in an Exc, from which finish makes the outcome. -/
namespace Sys2Proof.Machine

open Host (Outcome)

/-- How an instruction ends when it does not retire. -/
inductive Exc where
  /-- A synchronous exception at the instruction (R300, R301). -/
  | trap (cause : Nat) (tval : Word)
  /-- A window access from the L-site: cause 24 with the instruction word (R58). -/
  | siteTrap
  /-- An emulation-eligible cause 2 (R132). -/
  | illegal (e : Illegal)
  /-- A page fault of a load, or of an AMO with a destination, at the W-site: cause, access code, address (R64). -/
  | park (cause acc : Nat) (va : Word)
  /-- The instruction waits and executes again from its start. -/
  | wait (w : Wait)
  /-- The same on an operand from memory: a stall that is a re-binning point (R49). -/
  | stall (w : Wait)
  /-- The computation has set the whole next state. -/
  | done
  /-- The machine stops. -/
  | stop (f : Fault)
  deriving DecidableEq, Repr

/-- A meaning's computation. -/
abbrev M := EStateM Exc State

/-! ## Fields -/

/-- The field of len bits from bit lo. -/
def field (w : Word) (lo len : Nat) : Nat := (w.toNat >>> lo) % 2 ^ len

/-- A word with its field of len bits from bit lo replaced. -/
def putField (w : Word) (lo len v : Nat) : Word :=
  (w &&& ~~~(BitVec.ofNat 64 ((2 ^ len - 1) <<< lo))) ||| BitVec.ofNat 64 ((v % 2 ^ len) <<< lo)

/-- The word of an instruction as stval holds it: the subject's word, or the 16-bit encoding zero-extended (R35, R131). -/
def instrWord : Instr → BitVec 32
  | .base (some c) _ => c.setWidth 32
  | .pfx _ sub => sub.fields.word
  | i => i.fields.word

/-! ## The current hart -/

namespace State

/-- The user state of the current hart with f applied. -/
def modU (f : User → User) (s : State) : State := { s with hart := { s.hart with u := f s.hart.u } }

/-- The supervisor registers of the current hart with f applied. -/
def modSup (f : Sup → Sup) (s : State) : State := { s with hart := { s.hart with sup := f s.hart.sup } }

/-- The partition with f applied. -/
def modPart (f : Part → Part) (s : State) : State := { s with part := f s.part }

/-- The package with f applied. -/
def modPkg (f : Pkg → Pkg) (s : State) : State := { s with pkg := f s.pkg }

/-- Ringmaster with f applied. -/
def modRm (f : Ringmaster → Ringmaster) (s : State) : State := s.modPart fun p => { p with rm := f p.rm }

/-- The W-core n with f applied. -/
def modW (n : Nat) (f : WCore → WCore) (s : State) : State :=
  s.modPart fun p => { p with wcores := adjust (fun w => w.num == n) f p.wcores }

/-- The current hart's Carousel record with f applied. -/
def modCar (f : Car → Car) (s : State) : State := { s with hart := { s.hart with car := s.hart.car.map f } }

/-- x[r]: x0 reads zero (R118, R304). -/
def rx (s : State) (r : XReg) : Word := if r.toNat = 0 then 0 else s.hart.u.x[r.toNat]'r.isLt

/-- f[r]. -/
def rf (s : State) (r : FReg) : Word := s.hart.u.f[r.toNat]'r.isLt

/-- x[r] := v: a write to x0 is discarded. -/
def wx (s : State) (r : XReg) (v : Word) : State :=
  if r.toNat = 0 then s else s.modU fun u => { u with x := u.x.set r.toNat v r.isLt }

/-- f[r] := v. -/
def wf (s : State) (r : FReg) (v : Word) : State := s.modU fun u => { u with f := u.f.set r.toNat v r.isLt }

/-- p[n] for a number below 12. -/
def rp (s : State) (n : PReg) : Bool := s.hart.u.p.getLsbD n.toNat

/-- p[n] := b. -/
def wp (s : State) (n : PReg) (b : Bool) : State :=
  s.modU fun u => { u with p := if b then u.p ||| (1#12 <<< n.toNat) else u.p &&& ~~~(1#12 <<< n.toNat) }

/-- The program counter. -/
def pc (s : State) : Word := s.hart.u.pc

/-- The site at which the current hart executes (R19). -/
def site (s : State) : Site := match s.hart.id with | .wthread _ => .w | _ => .l

end State

/-- The thread a hart executes: the installed thread of an L-core, the core itself where none is installed (R305). -/
def whoOf (h : Hart) : HartId :=
  match h.id, h.installed with
  | .lcore _, some c => .wthread c
  | id, _ => id

namespace State

/-- The thread the current hart executes. -/
def who (s : State) : HartId := whoOf s.hart

/-- The membership record of a thread (R356). -/
def memberOf (s : State) (w : HartId) : Option Member := s.part.members.find? fun m => m.who == w

/-- The team of a number. -/
def team? (s : State) (n : BitVec 16) : Option Team := s.part.teams.find? fun t => t.num == n

/-- A W-core of the partition by its package number. -/
def wcore? (s : State) (n : Nat) : Option WCore := s.part.wcores.find? fun w => w.num == n

/-- Every hart, the current one first. -/
def allHarts (s : State) : List Hart := s.hart :: s.harts

/-- A hart by its name. -/
def hart? (s : State) (h : HartId) : Option Hart := s.allHarts.find? fun x => x.id == h

/-- The state with f applied to the harts of a name. -/
def modHart (h : HartId) (f : Hart → Hart) (s : State) : State :=
  { s with hart := if s.hart.id == h then f s.hart else s.hart, harts := adjust (fun x => x.id == h) f s.harts }

/-- The hart h made the current one; the state is unchanged where there is none. -/
def focus (h : HartId) (s : State) : State :=
  if s.hart.id == h then s
  else
    match s.harts.find? fun x => x.id == h with
    | some x => { s with hart := x, harts := s.hart :: s.harts.filter fun y => y.id != h }
    | none => s

/-- f applied with the hart h current; the hart that was current is current again, where it is still there. -/
def withHart (h : HartId) (f : State → State) (s : State) : State :=
  if (s.hart? h).isSome then (f (s.focus h)).focus s.hart.id else s

/-- The current hart leaves the machine: the next one becomes current. -/
def dropCurrent (s : State) : State :=
  match s.harts with
  | [] => s
  | h :: rest => { s with hart := h, harts := rest }

/-- A free value's argument, and the state that has used it. -/
def fresh (s : State) : Nat × State := (s.freeCount, { s with freeCount := s.freeCount + 1 })

end State

/-! ## Sets (R39 to R43) -/

/-- The largest set width in force for a hart: the value at its last re-binning point at the W-site, the value last written at the
L-site (R41). -/
def capOf (s : State) (h : Hart) : Nat :=
  match h.car with
  | some c => if c.w32 then 32 else 64
  | none => if s.part.w32 then 32 else 64

/-- The effective set width of a hart (R42, R149). [DEDUCED, log 12: unsafe] -/
def setwOf (s : State) (h : Hart) : Nat :=
  match s.memberOf (whoOf h) with
  | some m => if m.detached then 1 else min (8 <<< h.u.zpack.toNat) (capOf s h)
  | none => 1

/-- The team rank of a hart: 0 in no team (R38). -/
def rankOf (s : State) (h : Hart) : Nat := match s.memberOf (whoOf h) with | some m => m.rank.toNat | none => 0

/-- The team number of a hart: 0 in no team (R38). -/
def teamOf (s : State) (h : Hart) : Nat := match s.memberOf (whoOf h) with | some m => m.team.toNat | none => 0

/-- The vlane of a hart (R42). [DEDUCED, log 12: unsafe] -/
def vlaneOf (s : State) (h : Hart) : Nat := rankOf s h % setwOf s h

/-- A resident of a W-core. -/
def Hart.residentOn (h : Hart) (w : Nat) : Bool := match h.car with | some c => c.core == w | none => false

/-- A runnable resident thread (R47). -/
def Car.free (c : Car) : Bool := c.faultTag.isNone && c.emulTag.isNone && !c.zparked && !c.preempted && c.unfiled.isNone && c.leaving.isNone

/-! ## Memory at the home -/

/-- The byte at a physical address; memory nothing has written reads zero (R351). [DESIGN CHOICE, log 9: unsafe] -/
def State.byte (s : State) (pa : Nat) : Byte := sparseGet 0#8 s.mem pa

/-- The bytes at a physical address. -/
def State.bytes (s : State) (pa n : Nat) : List Byte := sparseGets 0#8 s.mem pa n

/-- Bytes written to memory, poison observed: a poisoned 8-byte word takes only a write of all its bytes, which clears the poison
(R333). -/
def writePoisoned (pa len : Nat) (s : State) : List Byte → Nat → State
  | [], _ => s
  | b :: bs, a =>
    let covered := pa ≤ 8 * (a / 8) && 8 * (a / 8) + 8 ≤ pa + len
    if s.poison.contains (a / 8) && !covered then writePoisoned pa len s bs (a + 1)
    else
      writePoisoned pa len { s with mem := sparseSet 0#8 s.mem a b, poison := s.poison.filter fun w => w != a / 8 || a % 8 != 7 }
        bs (a + 1)

/-- Bytes written to memory at the home. -/
def State.rawWrite (s : State) (pa : Nat) (bs : List Byte) : State :=
  if s.poison.isEmpty then { s with mem := sparseSets 0#8 s.mem pa bs } else writePoisoned pa bs.length s bs pa

/-- A write of len bytes reaches lines: reservations and watches of the other harts on them (R91, R118). [DEDUCED, log 27: unsafe] -/
def touched (pa len : Nat) (h : Hart) : Hart :=
  let hit (l : Nat) : Bool := pa / 128 ≤ l && l ≤ (pa + len - 1) / 128
  { h with
    resv := match h.resv with | some l => if hit l then none else some l | none => none
    watch := match h.watch with | some w => some { w with hit := w.hit || hit w.line } | none => none }

/-- The message that a store of a thread to the notify line sends: one for every store, none merged (R324).
[DESIGN CHOICE, log 114: unsafe] -/
def State.notifyHost (s : State) (pa len : Nat) : State :=
  match s.part.notify with
  | some l =>
    if pa < l + 128 && l < pa + len then s.modPkg fun k => { k with hostOut := k.hostOut ++ [.notify (s.bytes l 128)] } else s
  | none => s

/-- The remote copies of the lines that a write reaches are probed: a probe goes to all eight packages of each group recorded for a line,
under the pair of the writer, and the record is cleared (R79, R81, R328, R329). -/
def State.probeFor (s : State) (pkg pid pa len : Nat) : State :=
  let hit (e : Nat × Nat) : Bool := pa / 128 ≤ e.1 && e.1 ≤ (pa + len - 1) / 128
  s.modPkg fun k =>
    { k with
      remote := k.remote.filter fun e => !hit e
      held := k.held.filter fun e => !(pa / 128 ≤ e.1 && e.1 ≤ (pa + len - 1) / 128)
      hostOut := k.hostOut ++ (k.remote.filter hit).flatMap fun e => (List.range 8).map fun i => .trapezeProbe (8 * e.2 + i) pkg pid e.1 }

/-- The probes of a write by the partition. -/
def State.probeRemote (s : State) (pa len : Nat) : State := s.probeFor s.pkg.pkgId s.part.pid pa len

/-- A store of the current thread performed at the home. [DESIGN CHOICE, log 11: unsafe] -/
def State.store (s : State) (pa : Nat) (bs : List Byte) : State :=
  (State.notifyHost { s.rawWrite pa bs with harts := s.harts.map (touched pa bs.length) } pa bs.length).probeRemote pa bs.length

/-- Accesses counted for the pages of physical addresses (R92). -/
def State.sample (s : State) (pas : List Nat) : State :=
  if s.part.hotEn then
    s.modPart fun p =>
      { p with hotCounts := pas.foldl (fun l pa => sparseSet 0 l (pa / 4096) (sparseGet 0 l (pa / 4096) + 1)) p.hotCounts }
  else s

/-- An access of n bytes counted for its pages (R92). -/
def State.sampleSpan (s : State) (pa n : Nat) : State :=
  s.sample ((List.range ((pa + n - 1) / 4096 + 1 - pa / 4096)).map fun i => pa + 4096 * i)

/-- A write of an engine, the device or the host (R91, R92). -/
def State.engineWrite (s : State) (pa : Nat) (bs : List Byte) : State :=
  let t := s.rawWrite pa bs
  ({ t with hart := touched pa bs.length s.hart, harts := s.harts.map (touched pa bs.length) }.probeRemote pa bs.length).sampleSpan pa bs.length

/-- A physical byte address lies in a tier of its package (R55, R326). -/
def inTier (pa : Nat) : Bool :=
  let loc := pa % 2 ^ 47
  pa / 2 ^ 47 < 320 && (loc < 0x8000000000 || (0x10000000000 ≤ loc && loc < 0x30000000000))

/-- A byte lies in one of some ranges. -/
def inRanges (rs : List (Nat × Nat)) (pa : Nat) : Bool := rs.any fun r => r.1 ≤ pa && pa < r.1 + r.2

/-- Every byte of a span of less than 4 KiB lies within the ranges: they begin and end on 4 KiB boundaries (R15). -/
def spanIn (rs : List (Nat × Nat)) (pa n : Nat) : Bool := inRanges rs pa && inRanges rs (pa + n - 1)

/-- Every 4 KiB page of a longer span lies within the ranges (R15). -/
def pagesIn (rs : List (Nat × Nat)) (pa : Nat) : Nat → Bool
  | 0 => true
  | k + 1 => inRanges rs pa && pagesIn rs (pa + 4096) k

/-- A span lies within the ranges (R15). -/
def areaIn (rs : List (Nat × Nat)) (pa n : Nat) : Bool := pagesIn rs pa ((n + 4095) / 4096) && inRanges rs (pa + n - 1)

/-- A physical address lies on the partition's own package (R328). -/
def State.onPackage (s : State) (pa : Nat) : Bool := pa / 2 ^ 47 == s.pkg.pkgId

/-- A span may be accessed: within the partition's ranges, in a tier, and on no unreachable package (R55, R326, R330). -/
def State.physOk (s : State) (pa n : Nat) : Bool :=
  spanIn s.part.ranges pa n && inTier pa && inTier (pa + n - 1) && !s.pkg.unreachable.contains (pa / 2 ^ 47)

/-- Some word of a span is poisoned (R333). -/
def State.poisoned (s : State) (pa n : Nat) : Bool := s.poison.any fun w => pa / 8 ≤ w && w ≤ (pa + n - 1) / 8

/-- A span overlaps the region binding table while bindings are enabled (R71). [DESIGN CHOICE, log 103: unsafe] -/
def State.inTable (s : State) (pa n : Nat) : Bool :=
  s.part.rbtEn && (pa < s.part.rbtBase + 0x8000 && s.part.rbtBase < pa + n)

/-! ## The local SRAM (R57) -/

/-- The byte at a window offset: the byte written last, or an undefined byte of the newest undefined range that covers it, or zero.
[DESIGN CHOICE, log 5: unsafe; DESIGN CHOICE, log 76: safe] -/
def WCore.sramByte (w : WCore) (off : Nat) : Byte :=
  match w.sram.find? fun e => e.1 == off with
  | some e => e.2
  | none =>
    match w.undef.find? fun r => r.1 ≤ off && off < r.1 + r.2.1 with
    | some r => Config.undefByte r.2.2 off
    | none => 0

/-- Bytes written at a window offset. -/
def sramPut (l : List (Nat × Byte)) (off : Nat) : List Byte → List (Nat × Byte)
  | [] => l
  | b :: bs => sramPut ((off, b) :: l.filter fun e => e.1 != off) (off + 1) bs

/-- A range of the SRAM made undefined (R83, R207, R217). [DESIGN CHOICE, log 76: safe] -/
def WCore.undefine (w : WCore) (off len epoch : Nat) : WCore :=
  { w with sram := w.sram.filter fun e => !(off ≤ e.1 && e.1 < off + len), undef := (off, len, epoch) :: w.undef }

/-- The role of a bank: 0 L1, 1 stash, 2 operand buffer (R83). -/
def State.role (s : State) (bank : Nat) : Nat := field s.part.bankrole (2 * bank) 2

/-- A window offset names a data byte of a bank (R57). -/
def inBank (off : Nat) : Bool := off < 0x400000 && off % 0x20000 < 0x18000

/-- The unfenced writes of a W-core with f applied to those that sel names. -/
def WCore.modWrites (sel : ObWrite → Bool) (f : ObWrite → ObWrite) (w : WCore) : WCore :=
  { w with unfenced := w.unfenced.map fun u => { u with writes := adjust sel f u.writes } }

/-- A write to the SRAM through the window, by a copy engine or by a stash fill: operand-buffer bytes keep their older values until an
MXFENCE that covers them (R222), and queued commands note the bytes they held at issue (R223). -/
def State.sramWrite (s : State) (wn off : Nat) (bs : List Byte) (src : Option CopySrc := none) : State :=
  s.modW wn fun w =>
    let offs := (List.range bs.length).map (· + off)
    if s.role (off / 0x20000) == 2 then
      { w with
        sram := sramPut w.sram off bs
        unfenced :=
          offs.foldl (fun l o =>
            let old := w.sramByte o
            match l.find? fun e => e.off == o with
            | some _ => adjust (fun e => e.off == o) (fun e => ⟨o, ⟨old, src, [], []⟩ :: e.writes⟩) l
            | none => ⟨o, [⟨old, src, [], []⟩]⟩ :: l) w.unfenced
        press :=
          { w.press with
            queue := w.press.queue.map fun c =>
              { c with
                taint :=
                  offs.foldl (fun l o => if l.any fun e => e.1 == o then l else (o, w.sramByte o) :: l) c.taint } } }
    else { w with sram := sramPut w.sram off bs }

/-! ## Private bytes of bound regions and stash windows (R73 to R77, R84 to R86) -/

/-- Poisoned words that a write covers whole lose their poison (R333). -/
def State.unpoison (s : State) (whole : Nat → Bool) : State := { s with poison := s.poison.filter fun w => !whole w }

/-- A byte that a thread wrote earlier reaches the home: another thread's write ends the current thread's reservation and watch there (R91,
R118). [DESIGN CHOICE, log 114: unsafe] -/
def State.homeByte (s : State) (who : HartId) (pa : Nat) (v : Byte) : State :=
  if who == s.who then (s.sample [pa]).store pa [v] else (s.engineWrite pa [v]).notifyHost pa 1

/-- The windows of a team with f applied. -/
def State.modWindows (s : State) (team : BitVec 16) (f : Window → Window) : State :=
  s.modPart fun p => { p with teams := adjust (fun x => x.num == team) (fun x => { x with windows := x.windows.map f }) p.teams }

/-- The granule i of window n of a team with f applied. -/
def State.modGranule (s : State) (team : BitVec 16) (n i : Nat) (f : Granule → Granule) : State :=
  s.modWindows team fun w => if w.num = n then { w with granules := adjust (fun g => g.idx == i) f w.granules } else w

/-- The byte at an offset of a granule is dirty. -/
def Granule.isDirty (g : Granule) (o : Nat) : Bool := g.dirty.any fun d => d.1 == o

/-- A granule one of whose clean bytes sel names, by physical address: its clean bytes are discarded together, so that what fills it anew is of
one time; one without a dirty byte goes whole, the others keep their dirty bytes (R74, R85).
[DESIGN CHOICE, log 41: unsafe; DESIGN CHOICE, log 93: unsafe] -/
def Granule.drop (sel : Nat → Bool) (g : Granule) : Option Granule :=
  let clean := (List.range 128).filter fun o => !g.isDirty o
  if clean.all fun o => !sel (g.pa + o) then some g
  else if g.dirty.isEmpty then none
  else some { g with gone := clean }

/-- The clean bytes of the windows of a team that sel names, by window and physical address, discarded (R74, R85, R86, R88). -/
def State.dropGranules (s : State) (team : BitVec 16) (sel : Window → Nat → Bool) : State :=
  s.modWindows team fun w => { w with granules := w.granules.filterMap (Granule.drop (sel w)) }

/-- The team number of a thread as its record holds it. -/
def State.teamNum (s : State) (who : HartId) : BitVec 16 := match s.memberOf who with | some m => m.team | none => 0

/-- The team number of the current thread. -/
def State.myTeam (s : State) : BitVec 16 := s.teamNum s.who

/-- A private byte written back to the home, where it stays as a clean copy; the stash of its thread's team keeps no clean byte that is older
(R75). -/
def State.writeBackByte (s : State) (b : PrivByte) : State :=
  ((s.homeByte b.who b.pa b.val).modPart fun p =>
    { p with priv := p.priv.map fun c => if c.who == b.who && c.pa == b.pa then { c with dirty := false } else c }).dropGranules
      (s.teamNum b.who) fun _ pa => pa == b.pa

/-- One thread's bytes of a list cover the 8-byte word w whole. -/
def coversWord (bs : List PrivByte) (w : Nat) : Bool :=
  bs.any fun b => (List.range 8).all fun i => bs.any fun c => c.who == b.who && c.pa == 8 * w + i

/-- Private bytes written back under their byte masks, in the order given (R73, R333). -/
def State.writeBackAll (s : State) (bs : List PrivByte) : State := bs.foldl State.writeBackByte (s.unpoison (coversWord bs))

/-- The private dirty bytes that sel names written back under their byte masks (R73). [DEDUCED, log 38: unsafe] -/
def State.writeBack (s : State) (sel : PrivByte → Bool) : State := s.writeBackAll (s.part.priv.filter fun b => b.dirty && sel b)

/-- The private clean copies that sel names discarded (R74). [DEDUCED, log 38: unsafe] -/
def State.dropClean (s : State) (sel : PrivByte → Bool) : State :=
  s.modPart fun p => { p with priv := p.priv.filter fun b => b.dirty || !sel b }

/-- The dirty bytes offs of the granule g written back under their mask (R85, R333). [DESIGN CHOICE, log 41: unsafe] -/
def State.writeGranule (s : State) (wn off : Nat) (g : Granule) (offs : List (Nat × HartId)) : State :=
  offs.foldl (fun t o =>
    match t.wcore? wn with
    | some w => t.homeByte o.2 (g.pa + o.1) (w.sramByte (off + 128 * g.idx + o.1))
    | none => t) (s.unpoison fun w => (List.range 8).all fun i => offs.any fun o => g.pa + o.1 == 8 * w + i)

/-- The windows of a team that sel names with their dirty bytes written back; the granules stay filled and clean (R85, R207).
[DESIGN CHOICE, log 41: unsafe] -/
def State.flushWindows (s : State) (team : BitVec 16) (sel : Window → Bool) : State :=
  match s.team? team with
  | none => s
  | some t =>
    ((t.windows.filter sel).foldl (fun a w => w.granules.foldl (fun b g => b.writeGranule t.wcore w.off g g.dirty) a) s).modWindows team
      fun w => if sel w then { w with granules := w.granules.map fun g => { g with dirty := [] } } else w

/-- Step 1 of a release by the current thread: the dirty bytes of the regions of the objects that sel names reach the home (R73). -/
def State.releaseBytes (s : State) (sel : Nat → Bool) : State :=
  (s.writeBack fun b => b.who == s.who && sel b.obj).flushWindows s.myTeam fun w => sel w.obj

/-- Step 2 of an acquire by a thread of the objects that sel names (R74). [DEDUCED, log 78: unsafe] -/
def State.acquireFor (s : State) (who : HartId) (sel : Nat → Bool) : State :=
  let copied := (s.part.copyRel.filter fun r => sel r.1).map fun r => r.2
  let s1 := (s.dropClean fun b => b.who == who && (sel b.obj || inRanges copied b.pa)).dropGranules (s.teamNum who) fun w pa =>
    sel w.obj || inRanges copied pa
  s1.modPart fun p =>
    { p with wcores := p.wcores.map (WCore.modWrites (fun e => e.objs.any sel) fun e => { e with seen := who :: e.seen }) }

/-- Words of a sync object at the home (R72). -/
def State.objWord (s : State) (pa i : Nat) : Word := BitVec.ofNat 64 (leNat (s.bytes (pa + 8 * i) 8))

/-- A word of a sync object written by the current thread's atomic update (R72). -/
def State.setObjWord (s : State) (pa i : Nat) (v : Word) : State := s.store (pa + 8 * i) (natLe 8 v.toNat)

/-- The arrival of R192 on an object, by an engine or by the current thread. -/
def arrivalWords (w2 w3 : Word) (amount : Nat) : Word × Word :=
  let n := (w3.toNat + amount) % 2 ^ 64
  (BitVec.ofNat 64 (n / (if w2 = 0 then 1 else w2.toNat)), BitVec.ofNat 64 n)

/-! ## Records (R306 to R311) -/

/-- The capacity of the W-fault ring, in records. -/
def wfqCap (q : Queue) : Nat := 2 ^ (q.size + 6)

/-- The capacity of the emulation ring, in records. -/
def emqCap (q : Queue) : Nat := 2 ^ (q.size + 5)

/-- The W-fault queue has a free place. -/
def State.wfqFree (s : State) : Bool := s.part.wfq.en && s.part.wfq.count < wfqCap s.part.wfq

/-- The emulation queue has a free place. -/
def State.emqFree (s : State) : Bool := s.part.emq.en && s.part.emq.count < emqCap s.part.emq

/-- The W-fault queue can take the record of an event that happens now: none waits before it (R308). [DESIGN CHOICE, log 50: safe] -/
def State.wfqRoom (s : State) : Bool := s.wfqFree && s.part.backlog.isEmpty

/-- The emulation queue can take the record of an event that happens now: none waits before it (R308). [DESIGN CHOICE, log 50: safe] -/
def State.emqRoom (s : State) : Bool := s.emqFree && s.part.emBacklog.isEmpty

/-- The physical address of the place of the i-th queued record of the W-fault ring. -/
def wfqAddr (q : Queue) (i : Nat) : Nat := q.base + 64 * ((q.head + i) % wfqCap q)

/-- The physical address of the place of the i-th queued record of the emulation ring (R309). -/
def emqAddr (q : Queue) (i : Nat) : Nat := q.base + 0x1000 + 128 * ((q.head + i) % emqCap q)

/-- A W-fault record (R307). -/
structure WfRec where
  kind : Nat
  cause : Nat := 0
  flags : Nat := 0
  sigcode : Nat := 0
  tag : Nat := 0
  ctx : Nat
  pc : Word
  addr : Word := 0
  data : Nat := 0
  bmask : Nat := 0
  op : Nat := 0
  core : Nat := 0
  width : Nat := 0
  deriving DecidableEq, Repr

/-- The 64 bytes of a W-fault record (R307). -/
def WfRec.bytes (r : WfRec) (time : Word) : List Byte :=
  natLe 1 r.kind ++ natLe 1 r.cause ++ natLe 1 r.flags ++ natLe 1 r.sigcode ++ natLe 4 r.tag ++ natLe 8 r.ctx ++
  natLe 8 r.pc.toNat ++ natLe 8 r.addr.toNat ++ natLe 8 r.data ++ natLe 1 r.bmask ++ natLe 1 r.op ++ natLe 2 r.core ++
  natLe 1 r.width ++ natLe 3 0 ++ natLe 8 time.toNat ++ natLe 8 0

/-- A record written at the end of the W-fault queue. The caller has seen that there is room. -/
def State.pushWf (s : State) (r : WfRec) : State :=
  (s.engineWrite (wfqAddr s.part.wfq s.part.wfq.count) (r.bytes s.pkg.zaclk)).modPart fun p =>
    { p with wfq := { p.wfq with count := p.wfq.count + 1 } }

/-- The first of the TAGs from t on that no record of the list has; fuel is the list's length. -/
def freeTag (l : List Await) : Nat → Nat → Nat
  | 0, t => t
  | n + 1, t => if l.any fun a => a.tag == t then freeTag l n (t % (2 ^ 32 - 1) + 1) else t

/-- A new TAG for a record that awaits disposition, unlike those of the records awaiting it (R307). -/
def State.newTag (s : State) (k : AwaitKind) (ctx cause : Nat) (addr pc : Word) (entry : List Byte := []) : Nat × State :=
  let tag := freeTag s.part.awaiting s.part.awaiting.length s.part.nextTag
  (tag,
   s.modPart fun p =>
    { p with nextTag := tag % (2 ^ 32 - 1) + 1, awaiting := p.awaiting ++ [⟨tag, k, ctx, cause, addr, pc, entry⟩] })

/-- A record that no longer awaits disposition. -/
def State.dropTag (s : State) (tag : Nat) : State :=
  s.modPart fun p => { p with awaiting := p.awaiting.filter fun a => a.tag != tag }

/-! ## Retirement -/

/-- The length of the instruction being executed: a pair, a 16-bit encoding, or 32 bits (R124). -/
def State.ilen (s : State) (c : Option (BitVec 16)) : Word :=
  match s.pfx with
  | some _ => 8
  | none => match c with | some _ => 2 | none => 4

/-- A thread is in a group of a W-core. -/
def WCore.grouped (w : WCore) (ctx : Nat) : Bool :=
  w.slots.toList.any fun g => match g with | some g => g.lanes.contains ctx | none => false

/-- A hart is a lane of a group. -/
def State.inGroup (s : State) (h : Hart) : Bool :=
  match h.id, h.car with
  | .wthread ctx, some c => match s.wcore? c.core with | some w => w.grouped ctx | none => false
  | _, _ => false

/-- A W-core's A-clocks are stopped: its die or the W-core itself is hot, or it is stopped for the package's power (R10, R352). -/
def State.clockStopped (s : State) (w : Nat) : Bool :=
  s.pkg.hotDies.contains (w / 64) || s.pkg.hotCores.contains w || s.pkg.powerStops.contains w

/-- The clock of a hart's core runs: no throttling stops its W-core (R10). -/
def State.coreRuns (s : State) (h : Hart) : Bool := match h.car with | some c => !s.clockStopped c.core | none => true

/-- The lane of the current thread has executed the instruction of its group (R49). -/
def Group.laneDone (ctx : Nat) (g : Group) : Group := { g with todo := g.todo.filter (· != ctx) }

/-- The groups of the current thread's W-core with f applied to the one that holds it. -/
def State.modMyGroup (s : State) (f : Group → Group) : State :=
  match s.hart.id, s.hart.car with
  | .wthread ctx, some c =>
    s.modW c.core fun w => { w with slots := w.slots.map fun g => g.map fun g => if g.lanes.contains ctx then f g else g }
  | _, _ => s

/-- The group that holds the current thread's lane. -/
def State.myGroup (s : State) : Option Group :=
  match s.hart.id, s.hart.car with
  | .wthread ctx, some c =>
    (s.wcore? c.core).bind fun w => w.slots.toList.findSome? fun g => g.bind fun g => if g.lanes.contains ctx then some g else none
  | _, _ => none

/-- The lane of the current thread has executed. -/
def State.laneDone (s : State) : State :=
  match s.hart.id with
  | .wthread ctx => s.modMyGroup (Group.laneDone ctx)
  | _ => s

/-- A re-binning point of the current thread's group (R49): the group ends when its lanes have executed. -/
def State.rebin (s : State) : State := s.modMyGroup fun g => { g with ending := true }

/-- A thread's record after a re-binning point: the width cap in force is read anew (R41) and its wait starts (R48). -/
def Car.refiled (s : State) (c : Car) : Car := { c with w32 := s.part.w32, waited := 0, entered := s.pkg.zaclk.toNat, conv := none }

/-- A re-binning point for the current thread. -/
def State.refile (s : State) : State := s.modCar (Car.refiled s)

/-- The instruction retires and the pc becomes npc; instret counts one (R118). -/
def State.retireTo (s : State) (npc : Word) : State :=
  let t : State :=
    { s with
      hart :=
        { s.hart with
          u := { s.hart.u with pc := npc }
          wait := none
          resume := none
          instret := if s.hart.sup.mcountinhibit.getLsbD 2 then s.hart.instret else s.hart.instret + 1 } }
  t.laneDone

/-- The instruction retires and the pc passes it. -/
def State.retire (s : State) (c : Option (BitVec 16) := none) : State := s.retireTo (s.pc + s.ilen c)

/-- A register instruction: the effect, then retirement. -/
def plainReg (g : State → State) (s : State) : Outcome State Fault Refusal := .next (g s).retire

/-! ## Traps at the L-site -/

/-- The vector of a trap: BASE, or BASE plus four times the cause of an interrupt in vectored mode. -/
def vectorOf (tvec : Word) (intr : Bool) (cause : Nat) : Word :=
  let base := tvec &&& ~~~3#64
  if intr && tvec.extractLsb' 0 2 == 1#2 then base + BitVec.ofNat 64 (4 * cause) else base

/-- The cause register's value. -/
def causeWord (intr : Bool) (cause : Nat) : Word := (if intr then 1#64 <<< 63 else 0) ||| BitVec.ofNat 64 cause

/-- Entry into S-mode (RISC-V privileged architecture, R118): sepc, scause and stval are written, SPIE takes SIE, SPP the mode, SIE is
cleared, the pc goes to stvec, and the reservation is lost (R118). [DEDUCED, log 27: unsafe] -/
def enterS (intr : Bool) (cause : Nat) (epc tval : Word) (h : Hart) : Hart :=
  let st := h.sup.mstatus
  let st1 := putField (putField (putField st 5 1 (field st 1 1)) 8 1 (if h.sup.mode = .u then 0 else 1)) 1 1 0
  { h with
    resv := none
    wait := none
    resume := none
    chosen := none
    homing := false
    u := { h.u with pc := vectorOf h.sup.stvec intr cause }
    sup := { h.sup with mode := .s, mstatus := st1, sepc := epc &&& ~~~1#64, scause := causeWord intr cause, stval := tval } }

/-- The two-bit code of a mode in MPP. -/
def Mode.code : Mode → Nat
  | .u => 0 | .s => 1 | .m => 3

/-- Entry into M-mode (RISC-V privileged architecture, R118). [DEDUCED, log 27: unsafe] -/
def enterM (intr : Bool) (cause : Nat) (epc tval : Word) (h : Hart) : Hart :=
  let st := h.sup.mstatus
  let st1 := putField (putField (putField st 7 1 (field st 3 1)) 11 2 h.sup.mode.code) 3 1 0
  { h with
    resv := none
    wait := none
    resume := none
    chosen := none
    homing := false
    u := { h.u with pc := vectorOf h.sup.mtvec intr cause }
    sup := { h.sup with mode := .m, mstatus := st1, mepc := epc &&& ~~~1#64, mcause := causeWord intr cause, mtval := tval } }

/-- A trap of an L-core is taken in S-mode when it is delegated and does not come from M-mode. -/
def enterTrap (intr : Bool) (cause : Nat) (epc tval : Word) (h : Hart) : Hart :=
  let deleg := if intr then h.sup.mideleg else h.sup.medeleg
  if h.sup.mode != .m && deleg.getLsbD cause then enterS intr cause epc tval h else enterM intr cause epc tval h

/-- The L-core of a thread has returned to U-mode: the thread goes home first when its home is the W-site and its HOLD is 0 (R34).
[DEDUCED, log 43: unsafe] -/
def Hart.homeward (h : Hart) : Hart :=
  { h with homing := h.installed.isSome && h.sup.mode == .u && h.u.home == .w && !h.u.zsitectl.getLsbD 1 }

/-- The return of SRET: the mode of SPP, SIE takes SPIE, the pc takes sepc; MPRV is cleared on a return to U or S.
[DEDUCED, log 43: unsafe] -/
def returnS (h : Hart) : Hart :=
  let st := h.sup.mstatus
  let st1 := putField (putField (putField (putField st 1 1 (field st 5 1)) 5 1 1) 8 1 0) 17 1 0
  { h with
    u := { h.u with pc := h.sup.sepc }
    sup := { h.sup with mode := if field st 8 1 = 1 then .s else .u, mstatus := st1 } }.homeward

/-- The return of MRET. [DEDUCED, log 43: unsafe] -/
def returnM (h : Hart) : Hart :=
  let st := h.sup.mstatus
  let mpp := field st 11 2
  let st1 := putField (putField (putField st 3 1 (field st 7 1)) 7 1 1) 11 2 0
  let st2 := if mpp = 3 then st1 else putField st1 17 1 0
  { h with
    u := { h.u with pc := h.sup.mepc }
    sup := { h.sup with mode := if mpp = 3 then .m else if mpp = 1 then .s else .u, mstatus := st2 } }.homeward

/-! ## Migration (R30 to R36) -/

/-- The Carousel entries of a W-core in use: residents, threads on their way to it, and threads that have left it and not arrived. -/
def State.entriesOn (s : State) (w : Nat) : Nat :=
  (s.allHarts.filter fun h => h.residentOn w).length +
  (s.part.transit.filter fun t => t.dest == some w || (t.dest == none && t.fromCore == w)).length

/-- The W-core that a waiting migration of a hart has chosen (R31). -/
def Hart.waitsFor (h : Hart) : Option Nat := match h.wait with | some (.teamMove w) => some w | _ => h.chosen

/-- The threads counted for the choice of a W-core: residents, threads on their way to it, and threads whose waiting migration has chosen
it (R31). -/
def State.threadsOn (s : State) (w : Nat) : Nat :=
  (s.allHarts.filter fun h => h.residentOn w).length + (s.part.transit.filter fun t => t.dest == some w).length +
  (s.allHarts.filter fun h => h.waitsFor == some w).length

/-- The park slots in use: those of the threads resident at the W-site and on their way to it (R53). -/
def State.slotsUsed (s : State) : Nat :=
  (s.allHarts.filter fun h => h.car.isSome).length + (s.part.transit.filter fun t => t.dest.isSome).length

/-- The W-core with the fewest threads, ties to the lowest number (R31). -/
def leastLoaded (s : State) : List Nat → Option Nat
  | [] => none
  | w :: rest =>
    match leastLoaded s rest with
    | some v => if s.threadsOn v < s.threadsOn w || (s.threadsOn v == s.threadsOn w && v < w) then some v else some w
    | none => some w

/-- The W-core a thread migrates to (R31). -/
def State.destOf (s : State) (who : HartId) : Option Nat :=
  match s.memberOf who with
  | some m => (s.team? m.team).map Team.wcore
  | none => leastLoaded s s.part.wcoreNums

/-- A thread that returns to its home site has chosen its W-core (R31, R34). -/
def State.chooseHome (s : State) : State :=
  if s.hart.homing then { s with hart := { s.hart with chosen := s.destOf s.who } } else s

/-- A W-core can take a thread: it has a free Carousel entry, and the placed park area a free slot (R31, R53). -/
def State.canTake (s : State) (w : Nat) : Bool :=
  s.part.wcoreNums.contains w && s.entriesOn w < 4096 && s.part.parkPlaced && s.slotsUsed < 2 ^ s.part.parkSize * 512

/-- The registers an L-core is left with when its thread has departed: part B at its reset values (R305), fcsr at 0, the x and f
registers free (R33). [DEDUCED, log 68: safe; DESIGN CHOICE, log 113: unsafe] -/
def emptyUser (n : Nat) : User :=
  { User.init with x := Vector.ofFn fun i => Config.freeWord (n + i.val), f := Vector.ofFn fun i => Config.freeWord (n + 32 + i.val) }

/-- The thread of the current L-core departs for the W-core w with its pc at rpc: its state moves, a DEPART record is written, and the
L-core enters S-mode with interrupt 16 (R30, R33). [DEDUCED, log 45: unsafe] -/
def State.departToW (s : State) (w : Nat) (rpc : Word) : State :=
  match s.hart.installed with
  | none => s
  | some ctx =>
    let th : Hart :=
      { Hart.init (.wthread ctx) with
        u := { s.hart.u with pc := rpc }
        sup :=
          { Sup.init with
            mode := .u
            satp := s.hart.sup.satp
            scounteren := s.hart.sup.scounteren
            mcounteren := s.hart.sup.mcounteren }
        instret := s.hart.instret
        cycle := s.hart.cycle
        extract := s.hart.extract
        budgetDue := s.hart.budgetDue
        dropped := s.hart.dropped
        wrote := s.hart.wrote }
    let core := match s.hart.id with | .lcore n => n | _ => 0
    let s1 := s.pushWf { kind := 1, ctx := ctx, pc := rpc, core := core }
    let s2 := s1.modPart fun p => { p with transit := p.transit ++ [⟨ctx, th, some w, 0, none, none⟩] }
    let h := s2.hart
    { s2 with
      freeCount := s.freeCount + 64
      hart :=
        enterS true 16 rpc 0
          { h with
            u := emptyUser s.freeCount
            installed := none
            resv := none
            watch := none
            extract := none
            budgetDue := false
            dropped := none
            wrote := [] } }

/-- The lane of a thread leaves its group; ends says whether that is a re-binning point, as a wait or a park is and a migration is not
(R37, R49). -/
def Group.leave (ctx : Nat) (ends : Bool) (g : Group) : Group :=
  if g.lanes.contains ctx then
    { g with lanes := g.lanes.filter (· != ctx), todo := g.todo.filter (· != ctx), ending := g.ending || ends }
  else g

/-- A thread's lane taken out of the groups of its W-core. -/
def State.leaveGroup (s : State) (ctx w : Nat) (ends : Bool) : State :=
  s.modW w fun c => { c with slots := c.slots.map fun g => g.map (Group.leave ctx ends) }

/-- zsitectl.HOLD cleared (R34, R318). [DEDUCED, log 44: unsafe] -/
def User.clearHold (u : User) : User := { u with zsitectl := u.zsitectl &&& 1#2 }

/-- The park slot of a resident thread (R53). -/
def State.slotAddr (s : State) (c : Car) : Nat := s.part.parkBase + 2048 * c.slot

/-- The registers of a resident thread stand in its park slot and not in the register file; while the area is not placed no slot is written
(R47, R53, R54). [DESIGN CHOICE, log 46: safe; DESIGN CHOICE, log 48: unsafe] -/
def State.stow (s : State) (ctx : Nat) : State :=
  match (s.hart? (.wthread ctx)).bind fun h => h.car.map fun c => (h, c) with
  | some (h, c) =>
    let t : State :=
      if s.part.parkPlaced then
        { s.engineWrite (s.slotAddr c) (imageAll h.u (s.memberOf h.id) s.freeCount) with freeCount := s.freeCount + 1 }
      else s
    t.modHart h.id fun h => { h with car := h.car.map fun c => { c with active := false } }
  | none => s

/-- The slot of an inactive resident thread written anew when its user state has changed (R53). [DESIGN CHOICE, log 48: unsafe] -/
def State.restow (s : State) (ctx : Nat) : State :=
  match (s.hart? (.wthread ctx)).bind Hart.car with
  | some c => if c.active then s else s.stow ctx
  | none => s

/-- The thread number of a hart. -/
def Hart.ctx (h : Hart) : Nat := match h.id with | .wthread c => c | _ => 0

/-- The active contexts of a W-core. -/
def State.activeOn (s : State) (w : Nat) : List Hart :=
  s.allHarts.filter fun h => h.residentOn w && (match h.car with | some c => c.active | none => false)

/-- The register file of a W-core holds too much: more than 1,536 contexts or 1 MiB (R27). -/
def State.fileOver (s : State) (w : Nat) : Bool :=
  1536 < (s.activeOn w).length || 2 ^ 20 < ((s.activeOn w).map fun h => classSpace (profClass h.u.zwprof)).sum

/-- The current thread leaves the W-site for the L-site with its pc at rpc: the dirty bytes of its team's windows are written back
(R86), its lane leaves its group, and it is in transit until its arrival (R30, R33, R36). A signal still to be extracted for rides on
the ARRIVE record (R317). [DEDUCED, log 45: unsafe; DEDUCED, log 67: unsafe] -/
def State.departToL (s : State) (rpc : Word) (trap : Option PendTrap) (sig : Option (BitVec 8)) : State :=
  match s.hart.id, s.hart.car with
  | .wthread ctx, some c =>
    let s1 := if s.memberOf s.who |>.isSome then s.flushWindows s.myTeam fun _ => true else s
    let s2 := s1.leaveGroup ctx c.core false
    let th : Hart :=
      { s2.hart with
        u := { s2.hart.u with pc := rpc }, car := none, wait := none, resume := none, resv := none, watch := none, extract := none }
    (s2.modPart fun p => { p with transit := p.transit ++ [⟨ctx, th, none, c.core, trap, sig.or s.hart.extract⟩] }).dropCurrent
  | _, _ => s

/-- The mending entries of the current thread. -/
def State.myMends (s : State) : List Mend :=
  match s.hart.id, s.hart.car with
  | .wthread ctx, some c => match s.wcore? c.core with | some w => w.mend.filter fun m => m.ctx == ctx | none => []
  | _, _ => []

/-- The current W-site thread migrates with a trap, cause 30 in its place when a mended store has been dropped (R30, R36). -/
def State.migrateTrap (s : State) (t : PendTrap) : State :=
  match s.hart.dropped with
  | some va => { s with hart := { s.hart with dropped := none } }.departToL s.pc (some ⟨30, t.epc, va⟩) none
  | none => s.departToL s.pc (some t) none

/-- A W-site thread leaves with a trap: at once, or when its mending entries have drained and its W-core's clock runs (R10, R30). From here
on it is migrating: its lane is out of its group and absent from its set (R37, R279). [DEDUCED, log 34: safe; DEDUCED, log 67: unsafe] -/
def State.leaveWith (s : State) (t : PendTrap) : State :=
  if s.myMends.isEmpty && s.coreRuns s.hart then s.migrateTrap t
  else
    let s1 : State := match s.hart.car with | some c => s.leaveGroup s.hart.ctx c.core false | none => s
    { s1 with hart := { s1.hart with wait := none, resume := none } }.modCar fun c =>
      { c with faultTag := none, emulTag := none, leaving := some t }

/-- An emulation handler's record disposed as FATAL: the thread migrates and takes cause 2 with the record's epc and stval (R312,
R315). -/
def State.fatalEmul (s : State) (a : Await) : State :=
  (s.dropTag a.tag).withHart (.wthread a.ctx) fun s => s.leaveWith ⟨a.cause, a.pc, a.addr⟩

/-- The records of the emulation ring that wait for a handler. -/
def Queue.waiting (q : Queue) : Nat := q.count - q.taken.length

/-- The oldest places of the emulation ring whose records are disposed freed (R312). [DEDUCED, log 68: safe] -/
def Queue.freed (q : Queue) : Queue :=
  let k := (q.taken.takeWhile id).length
  { q with taken := q.taken.drop k, head := (q.head + k) % emqCap q, count := q.count - k }

/-- The oldest waiting record of the emulation ring taken; done says whether its place is free at once. [DEDUCED, log 68: safe] -/
def Queue.take (q : Queue) (done : Bool) : Queue := Queue.freed { q with taken := q.taken ++ [done] }

/-- The taken record at a physical address disposed. -/
def Queue.release (q : Queue) (pa : Nat) : Queue := Queue.freed { q with taken := q.taken.mapIdx fun i d => d || emqAddr q i == pa }

/-- The run of the current Roustabout core's handler ends: its record's place is free, and the core executes nothing more until its next
record. [DEDUCED, log 68: safe] -/
def State.endHandler (s : State) : State :=
  match s.hart.handler with
  | some r => (s.modPart fun p => { p with emq := p.emq.release r.recordAddr }).dropCurrent
  | none => s.dropCurrent

/-- The disposition of a Roustabout handler's record as FATAL (R312). -/
def State.handlerFatal (s : State) (r : HandlerRun) : State :=
  let s1 := s.endHandler
  match s1.part.awaiting.find? fun a => a.tag == r.tag with
  | some a => s1.fatalEmul a
  | none => s1

/-- A synchronous exception with epc and stval, at either site: the one trap operation. At the L-site the L-core enters the handler; at
the W-site the thread migrates, once its mending entries have drained, and the trap is pending in its ARRIVE record (R30, R33, R36), cause
30 in its place when a mended store has been dropped (R30); a trap of an emulation handler disposes its record as FATAL (R312).
[DEDUCED, log 34: safe] -/
def State.takeTrap (s : State) (cause : Nat) (epc tval : Word) : State :=
  match s.hart.id with
  | .lcore _ => { s with hart := enterTrap false cause epc tval s.hart }
  | .wthread _ => s.leaveWith ⟨cause, epc, tval⟩
  | .roust _ => match s.hart.handler with | some r => s.handlerFatal r | none => s

/-- A wait that is the waiting state of R47. -/
def Wait.waits : Wait → Bool
  | .mwait | .barwait _ _ | .ttake | .vsettle _ | .xcwait _ | .xcfence | .mxwait _ | .tbar _ => true
  | _ => false

/-- A wait of a thread that has left its set by MIGR.L (R147). -/
def Wait.leaves : Wait → Bool
  | .leave _ => true
  | _ => false

/-- A wait of a thread that is about to leave its W-core. -/
def Wait.departs : Wait → Bool
  | .leave _ | .teamMove _ => true
  | _ => false

/-- The current thread waits: its instruction has not retired. The waiting state ends its group for it, a departure takes it out of its
group, and a stalled lane stays in its group's slot (R37, R47, R49). -/
def State.setWait (s : State) (w : Wait) : State :=
  let s1 :=
    match s.hart.id, s.hart.car with
    | .wthread ctx, some c => if w.waits then (s.leaveGroup ctx c.core true).refile else if w.departs then s.leaveGroup ctx c.core false else s
    | _, _ => s
  { s1 with hart := { s1.hart with wait := some w, resume := none } }

/-- The current lane stalls on an operand from memory: a re-binning point for its group, which it leaves (R49).
[DESIGN CHOICE, log 29: safe] -/
def State.stallWait (s : State) (w : Wait) : State :=
  match s.hart.id, s.hart.car with
  | .wthread ctx, some c => (s.leaveGroup ctx c.core true).refile.setWait w
  | _, _ => s.setWait w

/-- The current lane is parked at its instruction with a record still to be filed: its group ends for it, and its registers go to its park
slot (R47, R49, R54). -/
def State.parkLane (s : State) (ctx core : Nat) (u : Unfiled) : State :=
  let s1 := (s.leaveGroup ctx core true).refile
  ({ s1 with hart := { s1.hart with resv := none, wait := none, resume := none } }.modCar fun c => { c with unfiled := some u }).stow ctx

/-- The FAULT record of a parked lane (R64, R307). [DESIGN CHOICE, log 50: safe] -/
def State.fileFault (s : State) (ctx core cause acc : Nat) (va pc : Word) : State :=
  let (tag, s1) := s.newTag .fault ctx cause va pc
  (s1.pushWf { kind := 3, cause := cause, flags := 4 * acc, tag := tag, ctx := ctx, pc := pc, addr := va, core := core }).modHart
    (.wthread ctx) fun h => { h with car := h.car.map fun c => { c with faultTag := some tag, unfiled := none } }

/-- The current lane is parked on a page fault, with its FAULT record or waiting for room for it (R64, R308). -/
def State.parkFault (s : State) (cause acc : Nat) (va : Word) : State :=
  match s.hart.id, s.hart.car with
  | .wthread ctx, some c =>
    let s1 := s.parkLane ctx c.core (.fault cause acc va)
    if s.wfqRoom then s1.fileFault ctx c.core cause acc va s.pc
    else s1.modPart fun p => { p with backlog := p.backlog ++ [.fault ctx] }
  | _, _ => s

/-- The handler entry of a class: 32 bytes of the handler table (R310). -/
def State.handlerEntry (s : State) (cls : Nat) : List Byte := s.bytes (s.part.emq.base + 32 * cls) 32

/-- A class has a registered emulation handler (R310). [DEDUCED, log 49: unsafe] -/
def State.registered (s : State) (cls : Nat) : Bool := s.part.emq.en && ((s.handlerEntry cls).getD 24 0).getLsbD 0

/-- The operand values of an emulation record (R311). [DEDUCED, log 49: unsafe] -/
def emulOps (s : State) (e : Illegal) : Word × Word × Word :=
  let r1 : BitVec 5 := e.word.extractLsb' 15 5
  let r2 : BitVec 5 := e.word.extractLsb' 20 5
  let r3 : BitVec 5 := e.word.extractLsb' 27 5
  let rs4 : BitVec 5 := e.pfx.extractLsb' 7 5
  let pair := e.pfx != 0#32
  if e.cls = 32 || e.cls = 33 then (0, 0, 0)
  else if e.cls = 9 then (s.rx r1, s.rf r2, 0)
  else if (16 ≤ e.cls && e.cls ≤ 20) || e.cls = 22 then (s.rf r1, s.rf r2, if pair && rs4 != 0#5 then s.rf rs4 else s.rf r3)
  else (s.rx r1, s.rx r2, if pair && rs4 != 0#5 then s.rf rs4 else s.rx r3)

/-- The 64 bytes of an emulation record that the device writes (R311). -/
def emulRecord (s : State) (e : Illegal) (tag ctx : Nat) : List Byte :=
  let (o1, o2, o3) := emulOps s e
  natLe 1 6 ++ natLe 1 e.cls ++ natLe 1 1 ++ natLe 1 0 ++ natLe 4 tag ++ natLe 8 ctx ++ natLe 8 s.pc.toNat ++
  natLe 8 e.stval.toNat ++ natLe 8 o1.toNat ++ natLe 8 o2.toNat ++ natLe 8 o3.toNat ++
  natLe 1 (s.hart.u.frm.toNat * 32 + s.hart.u.fflags.toNat) ++ natLe 3 0 ++ natLe 2 (rankOf s s.hart) ++ natLe 2 (teamOf s s.hart)

/-- The emulation record of the current parked lane, with the handler entry that was in force at its trap (R308, R310, R311). -/
def State.fileEmul (s : State) (ctx : Nat) (e : Illegal) (entry : List Byte) : State :=
  let (tag, s1) := s.newTag .emul ctx 2 e.stval s.pc entry
  ((s1.engineWrite (emqAddr s1.part.emq s1.part.emq.count) (emulRecord s e tag ctx)).modPart fun p =>
    { p with emq := { p.emq with count := p.emq.count + 1 } }).modCar fun c => { c with emulTag := some tag, unfiled := none }

/-- A cause 2 for an encoding or an eligible CSR access: the emulation queue at the W-site when the class is registered, the trap
otherwise (R132). With a full queue the parked lane waits for its record (R308). -/
def State.takeIllegal (s : State) (e : Illegal) : State :=
  match s.hart.id, s.hart.car with
  | .wthread ctx, some c =>
    if e.eligible && s.registered e.cls then
      let entry := s.handlerEntry e.cls
      let s1 := (s.sample [s.part.emq.base + 32 * e.cls]).parkLane ctx c.core (.emul e entry)
      if s.emqRoom then s1.fileEmul ctx e entry else s1.modPart fun p => { p with emBacklog := p.emBacklog ++ [ctx] }
    else s.takeTrap 2 s.pc e.stval
  | _, _ => s.takeTrap 2 s.pc e.stval

/-! ## From a computation to an outcome -/

/-- The outcome of a meaning on the state s, for an instruction whose word is w. -/
def finish (w : BitVec 32) (m : M Unit) (s : State) : Outcome State Fault Refusal :=
  match m s with
  | .ok () t => .next t
  | .error .done t => .next t
  | .error (.wait r) t => .next (t.setWait r)
  | .error (.stall r) t => .next (t.stallWait r)
  | .error (.park c a va) t => .next (t.parkFault c a va)
  | .error (.stop f) _ => .fault f
  | .error (.trap c v) t => .next (t.takeTrap c s.pc v)
  | .error .siteTrap t => .next (t.takeTrap 24 s.pc (w.setWidth 64))
  | .error (.illegal e) t => .next (t.takeIllegal e)

/-- The stval of a cause 2 for the executing instruction: its word, and the PFX word of a pair (R131). -/
def illegalTval (w : BitVec 32) (s : State) : Word := (match s.pfx with | some p => p.word | none => 0#32) ++ w

/-- A cause 2 that is not emulation-eligible (R132). -/
def raiseIllegal {α : Type} (w : BitVec 32) : M α := fun s => .error (.trap 2 (illegalTval w s)) s

/-- The bytes of a store drained: an instruction that waits for the thread's mending entries (R66). [DEDUCED, log 34: safe] -/
def waitDrain : M Unit := fun s => if s.myMends.isEmpty then .ok () s else .error (.wait .drain) s

/-- The same for an instruction whose operand is the memory that the drain makes known: its lane stalls on it (R49, R66).
[DEDUCED, log 91: unsafe] -/
def stallDrain : M Unit := fun s => if s.myMends.isEmpty then .ok () s else .error (.stall .drain) s

/-- An ordering point: it waits for the drain, and cause 30 is taken when the kernel has dropped a store (R67). -/
def orderingPoint : M Unit := fun s =>
  if s.myMends.isEmpty then
    match s.hart.dropped with
    | some va => .error (.trap 30 va) { s with hart := { s.hart with dropped := none } }
    | none => .ok () s
  else .error (.wait .drain) s

end Sys2Proof.Machine
end

