-- ==== Sys2Proof/Machine/Access.lean ====
section
/-! DEFINITION. Sys2Proof/Machine/Access.lean: translation and the accesses of a thread.

Loads, stores and atomics of the current hart: the core-local window (R57, R58), page-table walks (R56), the partition's ranges (R55),
the mending buffer (R65, R66), bound regions (R73 to R77) and stash windows (R85). -/
namespace Sys2Proof.Machine

/-- The kind of an access. -/
inductive Acc where
  | fetch | load | store
  deriving DecidableEq, Repr

/-- The page-fault cause of an access kind; an AMO faults as a store. -/
def Acc.page : Acc → Nat
  | .fetch => 12 | .load => 13 | .store => 15

/-- The access-fault cause of an access kind. -/
def Acc.access : Acc → Nat
  | .fetch => 1 | .load => 5 | .store => 7

/-! ## Translation (R56) -/

/-- How an access is translated: the mode it counts as, SUM and MXR. -/
structure XMode where
  mode : Mode
  sum : Bool
  mxr : Bool
  satp : Word
  deriving DecidableEq, Repr

/-- The translation mode of a hart's access: U-mode at the W-site; MPRV applies to loads and stores of M-mode. -/
def xmodeOf (h : Hart) (acc : Acc) : XMode :=
  let st := h.sup.mstatus
  let mode : Mode :=
    if h.sup.mode = .m && acc != .fetch && field st 17 1 = 1 then
      (if field st 11 2 = 3 then .m else if field st 11 2 = 1 then .s else .u)
    else h.sup.mode
  ⟨mode, field st 18 1 = 1, field st 19 1 = 1, h.sup.satp⟩

/-- What a walk answers: the physical address with the table entry to be written for the A and D bits, or the fault. -/
inductive Walked where
  | ok (pa : Nat) (upd : Option (Nat × Word))
  | page
  | access
  deriving DecidableEq, Repr

/-- A leaf entry may serve an access (RISC-V privileged architecture). -/
def leafOk (x : XMode) (acc : Acc) (pte : Word) : Bool :=
  let r := pte.getLsbD 1
  let w := pte.getLsbD 2
  let e := pte.getLsbD 3
  let u := pte.getLsbD 4
  (match acc with
   | .fetch => e
   | .load => r || (x.mxr && e)
   | .store => w) &&
  (match x.mode with
   | .u => u
   | _ => !u || (x.sum && acc != .fetch))

/-- A leaf at a level: its alignment, or the 64 KiB page of Svnapot; pages are 4 KiB, 64 KiB, 2 MiB and 1 GiB (R56).
[DEDUCED, log 30: unsafe] -/
def leafAddr (pte : Word) (level : Nat) (va : Nat) : Option Nat :=
  let ppn := field pte 10 44
  let napot := pte.getLsbD 63
  let size := 4096 * 512 ^ level
  if level > 2 then none
  else if napot then
    if level = 0 && ppn % 16 = 8 then some ((ppn / 16) * 0x10000 + va % 0x10000) else none
  else if ppn % 512 ^ level ≠ 0 then none
  else some (ppn * 4096 + va % size)

/-- One level of a walk: the entry at the table base is a leaf, a pointer that next follows, or a fault; a pointer's U, A, D and N bits
are reserved and zero (RISC-V privileged architecture). [DEDUCED, log 30: unsafe] -/
def walkStep (s : State) (x : XMode) (acc : Acc) (va base level : Nat) (next : Nat → Walked) : Walked :=
  let a := base + 8 * ((va / (4096 * 512 ^ level)) % 512)
  if !s.physOk a 8 || s.poisoned a 8 then .access
  else
    let pte : Word := BitVec.ofNat 64 (leNat (s.bytes a 8))
    let v := pte.getLsbD 0
    let r := pte.getLsbD 1
    let w := pte.getLsbD 2
    let e := pte.getLsbD 3
    if !v || (!r && w) || field pte 54 9 ≠ 0 then .page
    else if !r && !e then (if pte.getLsbD 63 || field pte 4 1 ≠ 0 || field pte 6 2 ≠ 0 then .page else next (field pte 10 44 * 4096))
    else if !leafOk x acc pte then .page
    else
      match leafAddr pte level va with
      | none => .page
      | some pa =>
        let upd := pte ||| 0x40#64 ||| (if acc = .store then 0x80#64 else 0)
        .ok pa (if upd = pte then none else some (a, upd))

/-- A walk from a level down to level 0. -/
def walk (s : State) (x : XMode) (acc : Acc) (va : Nat) : Nat → Nat → Walked
  | 0, base => walkStep s x acc va base 0 fun _ => .page
  | level + 1, base => walkStep s x acc va base (level + 1) (walk s x acc va level)

/-- The address bits above the scheme's width equal its top bit. [DEDUCED, log 90: safe] -/
def canonical (va : Word) (bits : Nat) : Bool := (va.setWidth bits).signExtend 64 == va

/-- The translation of a virtual address: none in M-mode and where satp is bare, Sv48 and Sv57 as satp selects them (R56). An untranslated
address of 2^56 or more is no physical address: the access fault. [DEDUCED, log 90: safe] -/
def walkOf (s : State) (x : XMode) (acc : Acc) (va : Word) : Walked :=
  let root := field x.satp 0 44 * 4096
  match (if x.mode = .m then 0 else field x.satp 60 4) with
  | 9 => if canonical va 48 then walk s x acc va.toNat 3 root else .page
  | 10 => if canonical va 57 then walk s x acc va.toNat 4 root else .page
  | _ => if va.toNat < 2 ^ 56 then .ok va.toNat none else .access

/-- The table entries that a walk from a level down reads (R92). -/
def walkReads (s : State) (va : Nat) : Nat → Nat → List Nat
  | 0, base => [base + 8 * (va / 4096 % 512)]
  | level + 1, base =>
    let a := base + 8 * ((va / (4096 * 512 ^ (level + 1))) % 512)
    let pte : Word := BitVec.ofNat 64 (leNat (s.bytes a 8))
    a :: (if pte.getLsbD 0 && !pte.getLsbD 1 && !pte.getLsbD 3 then walkReads s va level (field pte 10 44 * 4096) else [])

/-- The table entries that a translation reads (R92). -/
def tableReads (s : State) (x : XMode) (va : Word) : List Nat :=
  match (if x.mode = .m then 0 else field x.satp 60 4) with
  | 9 => walkReads s va.toNat 3 (field x.satp 0 44 * 4096)
  | 10 => walkReads s va.toNat 4 (field x.satp 0 44 * 4096)
  | _ => []

/-- A translated address, or the cause of the fault. -/
abbrev Located := Except Nat Nat

/-- The physical address of an access of n bytes within a page, with the A and D bits set and the accesses counted, or the cause of the
fault (R55, R56, R92). [DEDUCED, log 90: safe] -/
def locate (acc : Acc) (x : XMode) (va : Word) (n : Nat) : State → Located × State := fun s =>
  match walkOf s x acc va with
  | .page => (.error acc.page, s.sample (tableReads s x va))
  | .access => (.error acc.access, s.sample (tableReads s x va))
  | .ok pa upd =>
    let s1 := match upd with | some (a, v) => s.engineWrite a (natLe 8 v.toNat) | none => s
    if !s1.physOk pa n then (.error acc.access, s1.sample (tableReads s x va))
    else if acc = .store && s1.inTable pa n then (.error 7, s1.sample (tableReads s x va))
    else (.ok pa, s1.sample (tableReads s x va ++ [pa]))

/-! ## The core-local window (R57, R58) -/

/-- The window offset of a virtual address. -/
def windowOff (va : Word) : Option Nat :=
  if 0x00FFFF0000000000 ≤ va.toNat && va.toNat < 0x00FFFF0000400000 then some (va.toNat - 0x00FFFF0000000000) else none

/-- A window access by a thread of a W-core: the offset when its bank has the stash or operand-buffer role. -/
def windowOk (s : State) (off n : Nat) : Bool :=
  inBank off && off % 0x20000 + n ≤ 0x18000 && (s.role (off / 0x20000) == 1 || s.role (off / 0x20000) == 2)

/-! ## Bound regions and stash windows -/

/-- The ASID of a hart's address space (R70). -/
def asidOf (h : Hart) : BitVec 16 := h.sup.satp.extractLsb' 44 16

/-- The binding that covers a virtual address under an ASID (R70). -/
def State.bindingAt (s : State) (asid : BitVec 16) (va : Nat) : Option Binding :=
  s.part.bindings.find? fun b => b.asid == asid && b.base.toNat ≤ va && va < b.base.toNat + 64 * b.len64

/-- The stash window of the current thread's team that serves an access at the W-site (R85). -/
def State.stashFor (s : State) (va : Word) : Option (Team × Window) :=
  match s.site, s.memberOf s.who with
  | .w, some m =>
    match s.team? m.team with
    | some t =>
      (t.windows.find? fun w => w.asid == asidOf s.hart && w.base.toNat ≤ va.toNat && va.toNat < w.base.toNat + w.len).map fun w => (t, w)
    | none => none
  | _, _ => none

/-- A window lies in a region. -/
def Binding.holds (b : Binding) (w : Window) : Bool :=
  w.asid == b.asid && b.base.toNat ≤ w.base.toNat && w.base.toNat + w.len ≤ b.base.toNat + 64 * b.len64

/-- A private byte belongs to a region. -/
def Binding.owns (b : Binding) (p : PrivByte) : Bool := p.asid == b.asid && p.base == b.base && p.obj == b.obj

/-- The private byte of a thread at a physical address. -/
def State.privAt (s : State) (who : HartId) (pa : Nat) : Option PrivByte := s.part.priv.find? fun b => b.who == who && b.pa == pa

/-- The clean copies that the current thread holds of the 64-byte unit of a bound region at va and pa taken anew from the home, all at one
time; its dirty bytes stand, and a poisoned word has no copy (R75, R333). [DEDUCED, log 38: unsafe; DESIGN CHOICE, log 93: unsafe] -/
def State.fillUnit (s : State) (g : Binding) (va pa : Nat) : State :=
  let at0 := pa / 64 * 64
  let mine (b : PrivByte) : Bool := b.who == s.who && b.pa / 64 == pa / 64
  let dirty (a : Nat) : Bool := s.part.priv.any fun b => b.who == s.who && b.pa == a && b.dirty
  let offs := (List.range 64).filter fun i => !dirty (at0 + i) && !s.poison.contains ((at0 + i) / 8)
  s.modPart fun p =>
    { p with
      priv := (p.priv.filter fun b => !mine b || b.dirty) ++
        offs.map fun i => ⟨s.who, at0 + i, va / 64 * 64 + i, s.byte (at0 + i), g.asid, g.base, g.obj, false⟩ }

/-- A load of n bytes of one 64-byte unit of a bound region: the thread's dirty bytes, and for the others its clean copies, kept or taken anew
as the device pleases; where a copy is missing the unit's copies are taken anew. What is loaded beside the thread's own writes is so of one
time (R61, R68, R75, R175). [DESIGN CHOICE, log 39: unsafe; DESIGN CHOICE, log 93: unsafe] -/
def State.boundUnit (s : State) (g : Binding) (va pa n : Nat) : List Byte × State :=
  let (k, s1) := s.fresh
  let held := (List.range n).all fun i => (s.privAt s.who (pa + i)).isSome
  let s2 := if held && Config.freeBool k then s1 else s1.fillUnit g va pa
  ((List.range n).map fun i => ((s2.privAt s2.who (pa + i)).map PrivByte.val).getD (s2.byte (pa + i)), s2)

/-- The current thread has written a region of an object (R73). [DEDUCED, log 37: unsafe] -/
def State.noteWrote (s : State) (obj : Nat) : State :=
  if s.hart.wrote.contains obj then s else { s with hart := { s.hart with wrote := s.hart.wrote ++ [obj] } }

/-- A store of one byte of a bound region: it stays with the thread as a dirty byte until a release (R73). -/
def State.storeBoundByte (s : State) (who : HartId) (g : Binding) (va pa : Nat) (v : Byte) : State :=
  (s.noteWrote g.obj).modPart fun p => { p with priv := (p.priv.filter fun b => !(b.who == who && b.pa == pa)) ++
    [⟨who, pa, va, v, g.asid, g.base, g.obj, true⟩] }

/-- Bytes read by the current thread from located memory, all of them in one 64-byte unit: bound, or at the home. -/
def State.readUnit (s : State) (va pa n : Nat) : List Byte × State :=
  match s.bindingAt (asidOf s.hart) va with
  | some g => s.boundUnit g va pa n
  | none => (s.bytes pa n, s)

/-- Bytes read by the current thread from located memory, cut at the 64-byte boundaries where regions begin and end (R70); fuel bounds the
number of pieces. [DESIGN CHOICE, log 39: unsafe] -/
def State.readPieces (s : State) (va pa n : Nat) : Nat → List Byte × State
  | 0 => ([], s)
  | fuel + 1 =>
    let k := 64 - va % 64
    if n ≤ k then s.readUnit va pa n
    else
      let (bs, s1) := s.readUnit va pa k
      let (cs, s2) := s1.readPieces (va + k) (pa + k) (n - k) fuel
      (bs ++ cs, s2)

/-- Bytes read by the current thread from located memory: at the home, in one load, where none of them is bound.
[DESIGN CHOICE, log 39: unsafe] -/
def State.readBytes (s : State) (va pa n : Nat) : List Byte × State :=
  if (List.range n).all fun i => (s.bindingAt (asidOf s.hart) (va + i)).isNone then (s.bytes pa n, s)
  else s.readPieces va pa n (n / 64 + 2)

/-- Bytes written by the current thread to located memory, all of them bound or none: those of a bound region stay with the thread, the
others go to the home in one store. [DESIGN CHOICE, log 36: safe] -/
def State.writePart (s : State) (va pa : Nat) (bs : List Byte) : State :=
  match s.bindingAt (asidOf s.hart) va with
  | some g => (List.range bs.length).foldl (fun t i => t.storeBoundByte t.who g (va + i) (pa + i) (bs.getD i 0)) s
  | none => s.store pa bs

/-- Bytes written by the current thread to located memory, cut at the 64-byte boundaries where regions begin and end (R70); fuel bounds the
number of pieces. [DESIGN CHOICE, log 36: safe] -/
def State.writePieces (s : State) (va pa : Nat) (bs : List Byte) : Nat → State
  | 0 => s
  | fuel + 1 =>
    let k := 64 - va % 64
    if bs.length ≤ k then s.writePart va pa bs
    else (s.writePart va pa (bs.take k)).writePieces (va + k) (pa + k) (bs.drop k) fuel

/-- Bytes written by the current thread to located memory: in one store where none of them is bound. [DESIGN CHOICE, log 11: unsafe] -/
def State.writeBytes (s : State) (va pa : Nat) (bs : List Byte) : State :=
  if (List.range bs.length).all fun i => (s.bindingAt (asidOf s.hart) (va + i)).isNone then s.store pa bs
  else s.writePieces va pa bs (bs.length / 64 + 2)

/-- The current thread holds a dirty private byte at a physical address (R73). -/
def State.ownDirty (s : State) (pa : Nat) : Option Byte :=
  (s.part.priv.find? fun b => b.who == s.who && b.pa == pa && b.dirty).map PrivByte.val

/-- A load of n bytes at a physical address reads a poisoned word: own says which bytes it takes from elsewhere than memory (R333). -/
def State.readsPoison (s : State) (pa n : Nat) (own : Nat → Bool) : Bool :=
  s.poison.any fun w => pa / 8 ≤ w && w ≤ (pa + n - 1) / 8 && (List.range n).any fun i => (pa + i) / 8 == w && !own (pa + i)

/-- Bytes of granule i of a window put in the stash: the current thread's own write where it holds one, else the byte of the home, since no
member of the team may find there a byte older than a write that is visible to it (R75, R85). Another member's own dirty bytes are laid over
them as it reads (State.stashBytes). [DESIGN CHOICE, log 41: unsafe] -/
def State.fillBytes (s : State) (t : Team) (w : Window) (i pa : Nat) (offs : List Nat) : State :=
  s.modW t.wcore fun c =>
    { c with sram := offs.foldl (fun l o => sramPut l (w.off + 128 * i + o) [(s.ownDirty (pa + o)).getD (s.byte (pa + o))]) c.sram }

/-- A granule of a stash window translated for an access, and filled from memory on its first touch, or where its clean bytes have been
discarded (R85), or the fault of its translation. [DESIGN CHOICE, log 41: unsafe] -/
def fillGranule (t : Team) (w : Window) (i : Nat) (acc : Acc) : State → Except Nat Granule × State := fun s =>
  match locate acc (xmodeOf s.hart acc) (w.base + BitVec.ofNat 64 (128 * i)) 128 s with
  | (.error c, s1) => (.error c, s1)
  | (.ok pa, s1) =>
    match w.granules.find? fun g => g.idx == i with
    | some g =>
      let g1 : Granule := { g with gone := [] }
      (.ok g1, if g.gone.isEmpty then s1 else (s1.fillBytes t w i g.pa g.gone).modGranule t.num w.num i fun _ => g1)
    | none =>
      let g : Granule := ⟨i, pa, [], []⟩
      (.ok g,
       (s1.fillBytes t w i pa (List.range 128)).modWindows t.num fun y =>
         if y.num = w.num then { y with granules := y.granules ++ [g] } else y)

/-- n bytes of a filled granule as the current thread reads them: its own dirty private bytes, which no later store to the stash has
superseded, else the stash (R75, R85, R158). [DESIGN CHOICE, log 41: unsafe] -/
def State.stashBytes (s : State) (t : Team) (w : Window) (g : Granule) (off n : Nat) : List Byte :=
  match s.wcore? t.wcore with
  | some c => (List.range n).map fun k => (s.ownDirty (g.pa + off + k)).getD (c.sramByte (w.off + 128 * g.idx + off + k))
  | none => []

/-- Bytes written by the current thread to a filled granule: they are dirty there, and supersede the thread's private bytes. A dirty byte that
another member holds elsewhere takes the newer value: the member reads the store through the window, and reads and releases no older byte
afterwards (R73, R75, R76, R85, R158). [DEDUCED, log 38: unsafe; DESIGN CHOICE, log 41: unsafe] -/
def State.stashWrite (s : State) (t : Team) (w : Window) (g : Granule) (off : Nat) (bs : List Byte) : State :=
  let span (o : Nat) : Bool := off ≤ o && o < off + bs.length
  let held (b : PrivByte) : Bool := g.pa + off ≤ b.pa && b.pa < g.pa + off + bs.length
  (((s.noteWrote w.obj).modW t.wcore fun c => { c with sram := sramPut c.sram (w.off + 128 * g.idx + off) bs }).modGranule t.num w.num g.idx
    fun g => { g with dirty := (g.dirty.filter fun o => !span o.1) ++ (List.range bs.length).map fun k => (off + k, s.who) }).modPart fun p =>
      { p with
        priv :=
          adjust (fun b => held b && b.dirty && s.teamNum b.who == t.num) (fun b => { b with val := bs.getD (b.pa - (g.pa + off)) 0 })
            (p.priv.filter fun b => !(b.who == s.who && held b)) }

/-! ## The mending buffer (R65, R66) -/

/-- The number of mending entries of a W-core. -/
def WCore.mendCount (w : WCore) : Nat := w.mend.length

/-- The access code of an entry in its record (R307). -/
def MendOp.acc : MendOp → Nat
  | .store => 1 | .amo _ => 2 | _ => 3

/-- The OP byte of an entry in its record (R307). -/
def MendOp.code : MendOp → Nat
  | .store => 0x20 | .amo o => o.code.toNat | .bamoAdd => 0x21 | .bamoMin => 0x22 | .bamoMax => 0x23 | .bamoAddf => 0x24

/-- log2 of an access width, at most 3. [DEDUCED, log 33: unsafe] -/
def widthCode (n : Nat) : Nat := if n ≤ 1 then 0 else if n ≤ 2 then 1 else if n ≤ 4 then 2 else 3

/-- The MEND record of an entry (R65, R307). -/
def State.writeMend (s : State) (core : Nat) (m : Mend) : Mend × State :=
  let (tag, s1) := s.newTag .mend m.ctx 15 m.va m.pc
  ({ m with state := .awaiting tag },
   s1.pushWf
    { kind := 4, cause := 15, flags := 4 * m.op.acc, tag := tag, ctx := m.ctx, pc := m.pc, addr := m.va,
      data := leNat (m.bytes.take 8), bmask := 2 ^ min m.bytes.length 8 - 1, op := m.op.code, core := core,
      width := widthCode m.bytes.length })

/-- The MEND record of an entry, written when there is room, waiting for it otherwise (R308). [DEDUCED, log 33: unsafe] -/
def State.fileMend (s : State) (core : Nat) (m : Mend) : Mend × State :=
  if s.wfqRoom then s.writeMend core m
  else ({ m with state := .unfiled }, s.modPart fun p => { p with backlog := p.backlog ++ [.mend core m.ctx] })

/-- A new entry at the end of the thread's entries: a full buffer stalls the store (R66). The thread's first entry has faulted and gets
its record; a later one is tried at its turn. -/
def enqueueMend (va : Word) (op : MendOp) (bs : List Byte) : M Unit := fun s =>
  match s.hart.id, s.hart.car with
  | .wthread ctx, some c =>
    match s.wcore? c.core with
    | some w =>
      if w.mendCount ≥ 256 then .error (.wait .mendRoom) s
      else
        let m : Mend := ⟨ctx, s.pc, va, op, bs, .queued⟩
        let (m1, s1) := if s.myMends.isEmpty then s.fileMend c.core m else (m, s)
        .ok () (s1.modW c.core fun w => { w with mend := w.mend ++ [m1] })
    | none => .ok () s
  | _, _ => .ok () s

/-- A store dropped because its package is unreachable (R330): the thread takes cause 30 at its next ordering point.
[DEDUCED, log 35: unsafe] -/
def State.markDropped (s : State) (va : Word) : State :=
  { s with hart := { s.hart with dropped := s.hart.dropped.or (some va) } }

/-- The youngest of the thread's mending entries, listed oldest first, that holds the byte at an address. [DEDUCED, log 32: unsafe] -/
def youngestMend (ms : List Mend) (a : Nat) : Option Mend :=
  ms.reverse.find? fun m => decide (m.va.toNat ≤ a ∧ a < m.va.toNat + m.bytes.length)

/-- The byte at an address that the youngest entry holding it gives, else that of memory; none where that entry is an atomic one, whose result
is not known before it is performed (R66). [DEDUCED, log 32: unsafe] -/
def forwardByte (ms : List Mend) (a : Nat) (v : Byte) : Option Byte :=
  match youngestMend ms a with
  | none => some v
  | some m => match m.op with | .store => some (m.bytes.getD (a - m.va.toNat) 0) | _ => none

/-- The bytes of the thread's mending entries laid over what memory gives from an address on (R66). [DEDUCED, log 32: unsafe] -/
def forwardMends (ms : List Mend) : Nat → List Byte → Option (List Byte)
  | _, [] => some []
  | a, v :: vs =>
    match forwardByte ms a v, forwardMends ms (a + 1) vs with
    | some b, some bs => some (b :: bs)
    | _, _ => none

/-- The thread's mending entries hold every one of the n bytes at va: a load of them needs no memory (R66). [DEDUCED, log 32: unsafe] -/
def fullyHeld (ms : List Mend) (va n : Nat) : Bool :=
  (List.range n).all fun i => ms.any fun m => decide (m.va.toNat ≤ va + i ∧ va + i < m.va.toNat + m.bytes.length)

/-! ## Loads -/

/-- The exception of a load fault: a page fault parks the lane at the W-site (R63, R64). [DEDUCED, log 28: unsafe] -/
def loadFault (cause : Nat) (acc : Nat) (va : Word) (s : State) : Exc :=
  match s.site with
  | .w => if cause = 13 || cause = 15 then .park cause acc va else .trap cause va
  | .l => .trap cause va

/-- A load of n bytes by the current thread from where they lie, with the bytes of its mending entries laid over them (R66).
[DEDUCED, log 31: unsafe] -/
def loadMemory (va : Word) (n : Nat) : M (List Byte) := fun s =>
  match windowOff va with
  | some off =>
    match s.hart.car with
    | none => .error .siteTrap s
    | some c =>
      if windowOk s off n then
        match s.wcore? c.core with
        | some w =>
          match forwardMends s.myMends va.toNat ((List.range n).map fun i => w.sramByte (off + i)) with
          | some bs => .ok bs s
          | none => .error (.stall .drain) s
        | none => .error (.trap 5 va) s
      else .error (.trap 5 va) s
  | none =>
    match s.stashFor va with
    | some (t, w) =>
      let d := va.toNat - w.base.toNat
      match fillGranule t w (d / 128) .load s with
      | (.error c, s1) => .error (loadFault c 0 va s1) s1
      | (.ok g, s1) =>
        if s1.readsPoison (g.pa + d % 128) n fun a => (s1.ownDirty a).isSome || g.isDirty (a - g.pa) then .error (.trap 5 va) s1
        else
          match forwardMends s1.myMends va.toNat (s1.stashBytes t w g (d % 128) n) with
          | some bs => .ok bs s1
          | none => .error (.stall .drain) s1
    | none =>
      match locate .load (xmodeOf s.hart .load) va n s with
      | (.error c, s1) => .error (loadFault c 0 va s1) s1
      | (.ok pa, s1) =>
        if s1.readsPoison pa n fun a => (s1.ownDirty a).isSome then .error (.trap 5 va) s1
        else
          let (bs, s2) := s1.readBytes va.toNat pa n
          match forwardMends s2.myMends va.toNat bs with
          | some r => .ok r s2
          | none => .error (.stall .drain) s2

/-- A load of n bytes that lie in one 128-byte line, or in one aligned image, by the current thread: bytes that its mending entries hold
alone are read from them, whether or not their page faults (R66). [DEDUCED, log 32: unsafe] -/
def loadBytes (va : Word) (n : Nat) : M (List Byte) := fun s =>
  if fullyHeld s.myMends va.toNat n then
    match forwardMends s.myMends va.toNat (List.replicate n 0) with
    | some bs => .ok bs s
    | none => .error (.stall .drain) s
  else loadMemory va n s

/-- A scalar load: crossing a 128-byte line raises cause 4 (R118). -/
def loadScalar (va : Word) (n : Nat) : M Word := do
  if va.toNat % 128 + n > 128 then throw (.trap 4 va)
  let bs ← loadBytes va n
  pure (BitVec.ofNat 64 (leNat bs))

/-! ## Stores -/

/-- A store tried by the current thread: performed, or the cause of its fault. -/
def tryStore (va : Word) (bs : List Byte) : State → Option Exc × State := fun s =>
  match windowOff va with
  | some off =>
    match s.hart.car with
    | none => (some .siteTrap, s)
    | some c => if windowOk s off bs.length then (none, s.sramWrite c.core off bs) else (some (.trap 7 va), s)
  | none =>
    match s.stashFor va with
    | some (t, w) =>
      let d := va.toNat - w.base.toNat
      match fillGranule t w (d / 128) .store s with
      | (.error c, s1) => (some (.trap c va), s1)
      | (.ok g, s1) => (none, s1.stashWrite t w g (d % 128) bs)
    | none =>
      match locate .store (xmodeOf s.hart .store) va bs.length s with
      | (.error c, s1) => (some (.trap c va), s1)
      | (.ok pa, s1) => (none, s1.writeBytes va.toNat pa bs)

/-- A store's or an AMO's virtual address, which is none of the window, lies on an unreachable package (R58, R330).
[DEDUCED, log 35: unsafe] -/
def unreachableStore (va : Word) (s : State) : Bool :=
  (windowOff va).isNone &&
  match walkOf s (xmodeOf s.hart .store) .store va with
  | .ok pa _ => s.pkg.unreachable.contains (pa / 2 ^ 47)
  | _ => false

/-- What a W-site thread does with the outcome of a store or an AMO without a destination at va: a page fault goes to the mending
buffer, a store to an unreachable package is dropped, any other fault is the instruction's (R63, R65, R330). -/
inductive StoreEnd where
  | done
  | mend
  | drop
  | trap (e : Exc)
  deriving DecidableEq, Repr

/-- The end of a store or AMO at va that met e, in the state s. -/
def storeEnd (va : Word) (s : State) : Option Exc → StoreEnd
  | none => .done
  | some e =>
    match s.site with
    | .w => match e with | .trap 15 _ => .mend | e => if e == .trap 7 va && unreachableStore va s then .drop else .trap e
    | .l => .trap e

/-- A store or AMO without a destination, tried by act, or queued as the mending entry of op and bs. Behind earlier entries it enters the
buffer whether or not it would take a page fault, and takes any other fault precisely (R63, R65, R66). -/
def mendable (va : Word) (op : MendOp) (bs : List Byte) (act : State → Option Exc × State) : M Unit := fun s =>
  let (e, s1) := act s
  if !s.myMends.isEmpty then
    match storeEnd va s e with
    | .trap x => .error x s
    | _ => enqueueMend va op bs s
  else
    match storeEnd va s1 e with
    | .done => .ok () s1
    | .mend => enqueueMend va op bs s1
    | .drop => .ok () (s1.markDropped va)
    | .trap x => .error x s1

/-- A store by the current thread of bytes that lie in one line or one aligned image (R65, R66). [DEDUCED, log 35: unsafe] -/
def storeBytes (va : Word) (bs : List Byte) : M Unit := mendable va .store bs (tryStore va bs)

/-- A scalar store: crossing a 128-byte line raises cause 6 (R118). -/
def storeScalar (va : Word) (n : Nat) (v : Word) : M Unit := do
  if va.toNat % 128 + n > 128 then throw (.trap 6 va)
  storeBytes va (natLe n v.toNat)

/-! ## Atomics (R68, R77) -/

/-- The thread's private bytes of a span brought home: dirty bytes written back, clean copies discarded (R77). -/
def State.homeSpan (s : State) (pa n : Nat) : State :=
  (s.writeBack fun b => b.who == s.who && pa ≤ b.pa && b.pa < pa + n).dropClean fun b => b.who == s.who && pa ≤ b.pa && b.pa < pa + n

/-- The same for n bytes at va under a stash window: its dirty bytes of the span written back, its clean ones discarded (R77, R85). -/
def State.homeStash (s : State) (va : Word) (n : Nat) : State :=
  match s.stashFor va with
  | some (t, w) =>
    let d := va.toNat - w.base.toNat
    let span (o : Nat) : Bool := d % 128 ≤ o && o < d % 128 + n
    match w.granules.find? fun g => g.idx == d / 128 with
    | some g =>
      ((s.writeGranule t.wcore w.off g (g.dirty.filter fun o => span o.1)).modGranule t.num w.num (d / 128) fun g =>
        { g with dirty := g.dirty.filter fun o => !span o.1 }).dropGranules t.num fun y pa =>
          y.num == w.num && g.pa + d % 128 ≤ pa && pa < g.pa + d % 128 + n
    | none => s
  | none => s

/-- The span of an access of the current thread brought home from its team's stash, then from the thread's own private bytes, which are
newer (R77). -/
def State.bringHome (s : State) (va : Word) (pa n : Nat) : State := (s.homeStash va n).homeSpan pa n

/-- The current thread has written bytes at va by an access at the home: a region that holds them counts as written (R77, R284).
[DEDUCED, log 37: unsafe] -/
def State.noteAtomic (s : State) (va : Word) : State :=
  match s.bindingAt (asidOf s.hart) va.toNat with
  | some g => s.noteWrote g.obj
  | none => s

/-- An atomic read-modify-write of n aligned bytes at the home: the old value, or the exception of its fault. A poisoned word that the thread's
own dirty bytes cover whole is none once they have been written back (R77, R333). [DEDUCED, log 31: unsafe; DEDUCED, log 37: unsafe] -/
def tryAtomic (va : Word) (n : Nat) (f : Nat → Nat) : State → Except Exc Nat × State := fun s =>
  match windowOff va with
  | some _ => match s.site with | .w => (.error (.trap 7 va), s) | .l => (.error .siteTrap, s)
  | none =>
    match locate .store (xmodeOf s.hart .store) va n s with
    | (.error c, s1) => (.error (.trap c va), s1)
    | (.ok pa, s1) =>
      let s2 := s1.bringHome va pa n
      if s1.poisoned pa n && s2.poisoned pa n then (.error (.trap 7 va), s1)
      else
        let old := leNat (s2.bytes pa n)
        (.ok old, (s2.store pa (natLe n (f old))).noteAtomic va)

/-- An AMO of the current thread with a destination register: it waits for the drain (R66), and a page fault parks it (R64). The row of
R66 that names it is taken as none of R67's ordering points. [DEDUCED, log 91: unsafe] -/
def atomicDest (va : Word) (n : Nat) (f : Nat → Nat) : M Nat := fun s =>
  if !s.myMends.isEmpty then .error (.stall .drain) s
  else
    match tryAtomic va n f s with
    | (.ok v, s1) => .ok v s1
    | (.error (.trap 15 v), s1) => .error (loadFault 15 2 v s1) s1
    | (.error e, s1) => .error e s1

/-- An AMO with rd = x0, or a buffer-record reduction: it enters the mending buffer as a store does (R65, R66). -/
def atomicNoDest (va : Word) (n : Nat) (f : Nat → Nat) (op : MendOp) (operand : Nat) : M Unit :=
  mendable va op (natLe n operand) fun s =>
    match tryAtomic va n f s with
    | (.ok _, s1) => (none, s1)
    | (.error e, s1) => (some e, s1)

/-! ## Sync objects and records (R188) -/

/-- The physical address of the sync object at va, in the order of R188: alignment, the window, bound regions, access faults, page
faults; writes says whether the instruction writes its object, words which words of it the instruction reads: a poisoned one is an
access fault (R333). -/
def objAddr (va : Word) (writes : Bool) (words : List Nat) : M Nat := fun s =>
  if va.toNat % 32 ≠ 0 then .error (.trap 6 va) s
  else
    match windowOff va with
    | some _ => match s.site with | .w => .error (.trap 7 va) s | .l => .error .siteTrap s
    | none =>
      if (s.bindingAt (asidOf s.hart) va.toNat).isSome then .error (.trap 7 va) s
      else
        let acc : Acc := if writes then .store else .load
        match locate acc (xmodeOf s.hart acc) va 32 s with
        | (.error c, s1) => .error (loadFault c (if writes then 2 else 0) va s1) s1
        | (.ok pa, s1) => if words.any fun i => s1.poison.contains (pa / 8 + i) then .error (.trap acc.access va) s1
          else .ok pa s1

/-- A record of n bytes read as one load; misaligned raises the cause given (R188 step 4). -/
def loadRecord (va : Word) (n align cause : Nat) : M (List Byte) := do
  if va.toNat % align ≠ 0 then throw (.trap cause va)
  loadBytes va n

/-- The little-endian number of len bytes from byte off of a record. -/
def recNat (bs : List Byte) (off len : Nat) : Nat := leNat ((bs.drop off).take len)

/-! ## Fetch -/

/-- A byte of code that the current thread, or a member through its team's stash, has written and that has not reached the home (R133). -/
def State.ownCode (s : State) (va : Word) (pa : Nat) : Option Byte :=
  match s.ownDirty pa with
  | some b => some b
  | none =>
    match (s.stashFor va).bind fun x => (x.2.granules.find? fun g => g.pa ≤ pa && pa < g.pa + 128 &&
      g.isDirty (pa - g.pa)).map fun g => (x, g) with
    | some ((t, w), g) => (s.stashBytes t w g (pa - g.pa) 1).head?
    | none => none

/-- The byte of code at a physical address that the current thread fetches: the newest at the home, or the thread's own write that has
not reached it, for a fetch gives no byte older than a store visible at the thread's FENCE.I (R133). [DESIGN CHOICE, log 92: unsafe] -/
def State.codeByte (s : State) (va : Word) (pa : Nat) : Byte := (s.ownCode va pa).getD (s.byte pa)

/-- n bytes of code at va from one page, or the fault of the fetch with the faulting byte's address (R58, R124, R300).
[DESIGN CHOICE, log 92: unsafe] -/
def fetchBytes (va : Word) (n : Nat) : State → Except (Nat × Word) (List Byte) × State := fun s =>
  match windowOff va with
  | some _ => (.error (1, va), s)
  | none =>
    match locate .fetch (xmodeOf s.hart .fetch) va n s with
    | (.error c, s1) => (.error (c, va), s1)
    | (.ok pa, s1) =>
      if s1.poisoned pa n then (.error (1, va), s1)
      else (.ok ((List.range n).map fun i => s1.codeByte (va + BitVec.ofNat 64 i) (pa + i)), s1)

/-! ## An instruction (R119, R124, R133) -/

/-- What a fetch gives: an instruction, an encoding that is none, or the cause and the address of the fetch's fault. -/
inductive Fetched where
  | ok (i : Instr)
  | illegal (e : Illegal)
  | fault (cause : Nat) (va : Word)
  deriving DecidableEq, Repr

/-- The parcel of the current hart's instruction that begins k bytes into it: the one that its group has fetched, else the memory's, which
its group then holds (R133). -/
def fetchParcel (k : Nat) (s : State) : Except (Nat × Word) (List Byte) × State :=
  let code := (s.myGroup.map Group.code).getD []
  if k + 2 ≤ code.length then (.ok ((code.drop k).take 2), s)
  else
    match fetchBytes (s.pc + BitVec.ofNat 64 k) 2 s with
    | (.ok b, s1) => (.ok b, s1.modMyGroup fun g => { g with code := g.code ++ b })
    | r => r

/-- Parcels of 16 bits fetched from the pc on until the decoder has an answer; at most fourteen make an encoding.
[DESIGN CHOICE, log 92: unsafe] -/
def fetchLoop : Nat → List Byte → State → Fetched × State
  | 0, bs, s => (.illegal ⟨.long, BitVec.ofNat 32 (leNat (bs.take 4)), 0, 33, true, bs.length⟩, s)
  | n + 1, bs, s =>
    match fetchParcel bs.length s with
    | (.error (c, a), s1) => (.fault c a, s1)
    | (.ok b, s1) =>
      match decode (bs ++ b) with
      | .ok i _ => (.ok i, s1)
      | .illegal e => (.illegal e, s1)
      | .more _ => fetchLoop n (bs ++ b) s1

/-- The instruction at the current hart's pc, and the state after the fetch. -/
def State.fetch (s : State) : Fetched × State := fetchLoop 14 [] s

/-- Bytes of code that the group of the current lane has fetched differ from a write of the lane's own: the lanes of a group execute the same
bytes, and no lane executes one older than a store visible at its own FENCE.I (R133). -/
def State.codeApart (s : State) : Bool :=
  let code := (s.myGroup.map Group.code).getD []
  (List.range code.length).any fun i =>
    let va := s.pc + BitVec.ofNat 64 i
    match walkOf s (xmodeOf s.hart .fetch) .fetch va with
    | .ok pa _ => (match s.ownCode va pa with | some b => b != code.getD i 0 | none => false)
    | _ => false

end Sys2Proof.Machine
end

