-- ==== Sys2Proof/Machine/Fp.lean ====
section
/-! DEFINITION. Sys2Proof/Machine/Fp.lean: floating-point values, rounding, and the IEEE 754-2019 operations on them (R95 to R104).

A finite value is a sign and a natural number times a power of two. An operation computes exactly, or with a sticky tail, and rounds
once. Flags are the five bits NV DZ OF UF NX, NV highest (R105). -/
namespace Sys2Proof.Machine

/-- The six rounding modes (R102). -/
inductive Rnd where
  | rne | rtz | rdn | rup | rmm | rod
  deriving DecidableEq, Repr

/-- A binary format: the widths of exponent and fraction; ext marks FP8-E4, whose top exponent is normal and holds one NaN code
(R95). -/
structure Fmt2 where
  ew : Nat
  fw : Nat
  ext : Bool
  deriving DecidableEq, Repr

def fp64 : Fmt2 := ⟨11, 52, false⟩
def fp32 : Fmt2 := ⟨8, 23, false⟩
def fp16 : Fmt2 := ⟨5, 10, false⟩
def bf16 : Fmt2 := ⟨8, 7, false⟩
def fp8e4 : Fmt2 := ⟨4, 3, true⟩
def fp8e5 : Fmt2 := ⟨5, 2, false⟩

namespace Fmt2

/-- The exponent bias. -/
def bias (t : Fmt2) : Nat := 2 ^ (t.ew - 1) - 1

/-- The all-ones exponent field. -/
def emaxF (t : Fmt2) : Nat := 2 ^ t.ew - 1

/-- The exponent of the least bit of a subnormal. -/
def qmin (t : Fmt2) : Int := 1 - (t.bias : Int) - t.fw

/-- The code of +infinity. -/
def infBits (t : Fmt2) : Nat := t.emaxF * 2 ^ t.fw

/-- The code of the largest finite value. -/
def maxBits (t : Fmt2) : Nat := if t.ext then t.infBits + 2 ^ t.fw - 2 else t.infBits - 1

/-- The sign bit. -/
def signBit (t : Fmt2) : Nat := 2 ^ (t.ew + t.fw)

/-- The canonical NaN (R96). -/
def nanBits (t : Fmt2) : Nat := if t.ext then t.infBits + 2 ^ t.fw - 1 else t.infBits + 2 ^ (t.fw - 1)

end Fmt2

/-- A floating-point value: a NaN, signalling or quiet; an infinity or a zero with its sign; m × 2^e with m > 0 and a sign. -/
inductive Fp where
  | nan (signalling : Bool)
  | inf (neg : Bool)
  | zero (neg : Bool)
  | fin (neg : Bool) (m : Nat) (e : Int)
  deriving DecidableEq, Repr

/-- A code and the flags its making raised. -/
structure FRes where
  bits : Nat
  flags : BitVec 5
  deriving DecidableEq, Repr

def flagNV : BitVec 5 := 16
def flagDZ : BitVec 5 := 8
def flagOF : BitVec 5 := 4
def flagUF : BitVec 5 := 2
def flagNX : BitVec 5 := 1

/-- The value of a code (R95). -/
def unpack (t : Fmt2) (bits : Nat) : Fp :=
  let s := (bits / t.signBit) % 2 = 1
  let e := (bits / 2 ^ t.fw) % 2 ^ t.ew
  let f := bits % 2 ^ t.fw
  if t.ext && e = t.emaxF && f = 2 ^ t.fw - 1 then .nan false
  else if !t.ext && e = t.emaxF then (if f = 0 then .inf s else .nan (f < 2 ^ (t.fw - 1)))
  else if e = 0 then (if f = 0 then .zero s else .fin s f t.qmin)
  else .fin s (2 ^ t.fw + f) (t.qmin + (e : Int) - 1)

/-- The sign as a code. -/
def signOf (t : Fmt2) (neg : Bool) : Nat := if neg then t.signBit else 0

/-- Whether a magnitude with the kept part keep and the remainder rem of 2^sh rounds up. -/
def roundsUp (rm : Rnd) (neg : Bool) (keep rem sh : Nat) : Bool :=
  match rm with
  | .rne => 2 ^ sh < 2 * rem || (2 ^ sh = 2 * rem && keep % 2 = 1)
  | .rtz => false
  | .rdn => neg && rem ≠ 0
  | .rup => !neg && rem ≠ 0
  | .rmm => rem ≠ 0 && 2 ^ sh ≤ 2 * rem
  | .rod => keep % 2 = 0 && rem ≠ 0

/-- m × 2^e rounded to a multiple of 2^q: the kept number and whether it is inexact. -/
def roundAt (rm : Rnd) (neg : Bool) (m : Nat) (e q : Int) : Nat × Bool :=
  if q ≤ e then (m * 2 ^ (e - q).toNat, false)
  else
    let sh := (q - e).toNat
    let keep := m / 2 ^ sh
    let rem := m % 2 ^ sh
    (if roundsUp rm neg keep rem sh then keep + 1 else keep, rem ≠ 0)

/-- The number of bits of a number. -/
def bitLen (m : Nat) : Nat := if m = 0 then 0 else Nat.log2 m + 1

/-- The code of a finite magnitude keep × 2^q that the format holds, q at least qmin and keep at most fw + 1 bits. -/
def packFin (t : Fmt2) (keep : Nat) (q : Int) : Nat :=
  if keep < 2 ^ t.fw then keep
  else ((q - t.qmin).toNat + 1) * 2 ^ t.fw + (keep - 2 ^ t.fw)

/-- The result of an overflow under a mode (R104, R108). -/
def overflowBits (t : Fmt2) (rm : Rnd) (neg : Bool) : Nat :=
  let big := if t.ext then t.maxBits else t.infBits
  match rm with
  | .rne | .rmm => big
  | .rtz | .rod => t.maxBits
  | .rdn => if neg then big else t.maxBits
  | .rup => if neg then t.maxBits else big

/-- The largest finite magnitude of a format as a multiple of 2^q, q its least bit. -/
def maxQ (t : Fmt2) : Nat × Int :=
  let e := t.maxBits / 2 ^ t.fw
  (2 ^ t.fw + t.maxBits % 2 ^ t.fw, t.qmin + (e : Int) - 1)

/-- a × 2^p exceeds b × 2^q. -/
def magGt (a : Nat) (p : Int) (b : Nat) (q : Int) : Bool :=
  if p ≤ q then b * 2 ^ (q - p).toNat < a else b < a * 2 ^ (p - q).toNat

/-- The exact magnitude (m + tail) × 2^e, 0 ≤ tail < 1 and tail > 0 exactly when sticky, rounded once into a format (R102, R104). With a
tail, m has at least two bits more than the format's precision, or is scaled so that it has. ftz flushes a result that is tiny, as R104
detects it, and not zero after rounding (R107). [DEDUCED, log 13: unsafe] -/
def roundPack (t : Fmt2) (rm : Rnd) (ftz : Bool) (neg : Bool) (m0 : Nat) (e0 : Int) (sticky : Bool) : FRes :=
  let p := t.fw + 1
  let m := if sticky then m0 * 2 ^ (p + 4) + 1 else m0
  let e := if sticky then e0 - (p + 4 : Nat) else e0
  if m = 0 then ⟨signOf t neg, 0⟩
  else
    let q0 : Int := e + bitLen m - p
    let q := if q0 < t.qmin then t.qmin else q0
    let (keep, inexact) := roundAt rm neg m e q
    let (mx, mq) := maxQ t
    let ovf := magGt keep q mx mq || (rm = .rod && inexact && magGt m e mx mq)
    if ovf then ⟨signOf t neg + overflowBits t rm neg, flagOF ||| flagNX⟩
    else
      let (k0, _) := roundAt rm neg m e q0
      let tiny := magGt (2 ^ t.fw) t.qmin k0 q0
      let k := if keep = 2 ^ p then 2 ^ t.fw else keep
      let q1 := if keep = 2 ^ p then q + 1 else q
      let code := packFin t k q1
      if ftz && tiny && code ≠ 0 then ⟨signOf t neg, flagUF ||| flagNX⟩
      else ⟨signOf t neg + code, if inexact then (if tiny then flagUF ||| flagNX else flagNX) else 0⟩

/-- A canonical NaN that raises NV when invalid (R96). -/
def nanRes (t : Fmt2) (nv : Bool) : FRes := ⟨t.nanBits, if nv then flagNV else 0⟩

/-- Infinity of a sign. -/
def infRes (t : Fmt2) (neg : Bool) : FRes := ⟨signOf t neg + t.infBits, 0⟩

/-- Zero of a sign. -/
def zeroRes (t : Fmt2) (neg : Bool) : FRes := ⟨signOf t neg, 0⟩

namespace Fp

/-- A NaN. -/
def isNan : Fp → Bool | .nan _ => true | _ => false

/-- A signalling NaN. -/
def isSnan : Fp → Bool | .nan s => s | _ => false

/-- The sign; a NaN has none. -/
def neg : Fp → Bool
  | .nan _ => false | .inf s => s | .zero s => s | .fin s _ _ => s

/-- The value with its sign flipped. -/
def flip : Fp → Fp
  | .nan s => .nan s | .inf s => .inf !s | .zero s => .zero !s | .fin s m e => .fin (!s) m e

/-- A subnormal of a format reads as zero (DAZ, R107). -/
def daz (t : Fmt2) : Fp → Fp
  | .fin s m e => if e = t.qmin && m < 2 ^ t.fw then .zero s else .fin s m e
  | x => x

end Fp

/-- A value rounded into a format: a NaN is canonical, an infinity and a zero keep their sign. -/
def roundFp (t : Fmt2) (rm : Rnd) (ftz : Bool) : Fp → FRes
  | .nan s => nanRes t s
  | .inf s => infRes t s
  | .zero s => zeroRes t s
  | .fin s m e => roundPack t rm ftz s m e false

/-- The exact signed sum of two finite magnitudes at the smaller exponent. -/
def alignAdd (s1 : Bool) (m1 : Nat) (e1 : Int) (s2 : Bool) (m2 : Nat) (e2 : Int) : Int × Int :=
  let e := if e1 ≤ e2 then e1 else e2
  let a : Int := (m1 * 2 ^ (e1 - e).toNat : Nat)
  let b : Int := (m2 * 2 ^ (e2 - e).toNat : Nat)
  ((if s1 then -a else a) + (if s2 then -b else b), e)

/-- An exact signed sum rounded: a sum of zero is −0.0 under RDN and +0.0 otherwise. -/
def roundSum (t : Fmt2) (rm : Rnd) (ftz : Bool) (v e : Int) : FRes :=
  if v = 0 then zeroRes t (rm = .rdn)
  else roundPack t rm ftz (decide (v < 0)) v.natAbs e false

/-- x + y. -/
def fpAdd (t : Fmt2) (rm : Rnd) (ftz : Bool) (x y : Fp) : FRes :=
  match x, y with
  | .nan a, .nan b => nanRes t (a || b)
  | .nan a, _ => nanRes t a
  | _, .nan b => nanRes t b
  | .inf a, .inf b => if a = b then infRes t a else nanRes t true
  | .inf a, _ => infRes t a
  | _, .inf b => infRes t b
  | .zero a, .zero b => if a = b then zeroRes t a else zeroRes t (rm = .rdn)
  | .zero _, .fin s m e => roundPack t rm ftz s m e false
  | .fin s m e, .zero _ => roundPack t rm ftz s m e false
  | .fin s1 m1 e1, .fin s2 m2 e2 => let (v, e) := alignAdd s1 m1 e1 s2 m2 e2; roundSum t rm ftz v e

/-- x − y. -/
def fpSub (t : Fmt2) (rm : Rnd) (ftz : Bool) (x y : Fp) : FRes := fpAdd t rm ftz x y.flip

/-- x × y. -/
def fpMul (t : Fmt2) (rm : Rnd) (ftz : Bool) (x y : Fp) : FRes :=
  let s := x.neg != y.neg
  match x, y with
  | .nan a, .nan b => nanRes t (a || b)
  | .nan a, _ => nanRes t a
  | _, .nan b => nanRes t b
  | .inf _, .zero _ => nanRes t true
  | .zero _, .inf _ => nanRes t true
  | .inf _, _ => infRes t s
  | _, .inf _ => infRes t s
  | .zero _, _ => zeroRes t s
  | _, .zero _ => zeroRes t s
  | .fin _ m1 e1, .fin _ m2 e2 => roundPack t rm ftz s (m1 * m2) (e1 + e2) false

/-- x ÷ y. -/
def fpDiv (t : Fmt2) (rm : Rnd) (ftz : Bool) (x y : Fp) : FRes :=
  let s := x.neg != y.neg
  match x, y with
  | .nan a, .nan b => nanRes t (a || b)
  | .nan a, _ => nanRes t a
  | _, .nan b => nanRes t b
  | .inf _, .inf _ => nanRes t true
  | .zero _, .zero _ => nanRes t true
  | .inf _, _ => infRes t s
  | _, .inf _ => zeroRes t s
  | .zero _, _ => zeroRes t s
  | .fin _ _ _, .zero _ => ⟨signOf t s + t.infBits, flagDZ⟩
  | .fin _ m1 e1, .fin _ m2 e2 =>
    let k := bitLen m2 + t.fw + 4
    let n := m1 * 2 ^ k
    roundPack t rm ftz s (n / m2) (e1 - e2 - k) (n % m2 ≠ 0)

/-- One bit of a square root: with root r of the digits taken so far, the next root and the remainder. -/
def sqrtStep (v i r : Nat) : Nat := if (r + 2 ^ i) * (r + 2 ^ i) ≤ v then r + 2 ^ i else r

/-- The integer square root of v from bit i − 1 down. -/
def sqrtBits (v : Nat) : Nat → Nat → Nat
  | 0, r => r
  | i + 1, r => sqrtBits v i (sqrtStep v i r)

/-- The integer square root. -/
def isqrt (v : Nat) : Nat := sqrtBits v (bitLen v / 2 + 1) 0

/-- The square root of x. -/
def fpSqrt (t : Fmt2) (rm : Rnd) (ftz : Bool) (x : Fp) : FRes :=
  match x with
  | .nan a => nanRes t a
  | .zero s => zeroRes t s
  | .inf false => infRes t false
  | .inf true => nanRes t true
  | .fin true _ _ => nanRes t true
  | .fin false m e =>
    let k := 2 * (t.fw + 4) + (if (e % 2 = 0) then 0 else 1)
    let n := m * 2 ^ k
    let r := isqrt n
    roundPack t rm ftz false r ((e - k) / 2) (r * r ≠ n)

/-- x × y + z with one rounding; ∞ × 0 raises NV even when z is a quiet NaN (R237, R254). -/
def fpFma (t : Fmt2) (rm : Rnd) (ftz : Bool) (x y z : Fp) : FRes :=
  let s := x.neg != y.neg
  let bad := match x, y with | .inf _, .zero _ => true | .zero _, .inf _ => true | _, _ => false
  if bad then nanRes t true
  else if x.isNan || y.isNan || z.isNan then nanRes t (x.isSnan || y.isSnan || z.isSnan)
  else
    match x, y with
    | .inf _, _ | _, .inf _ => match z with | .inf c => if c = s then infRes t s else nanRes t true | _ => infRes t s
    | .fin _ m1 e1, .fin _ m2 e2 =>
      match z with
      | .inf c => infRes t c
      | .fin s3 m3 e3 => let (v, e) := alignAdd s (m1 * m2) (e1 + e2) s3 m3 e3; roundSum t rm ftz v e
      | _ => roundPack t rm ftz s (m1 * m2) (e1 + e2) false
    | _, _ =>
      match z with
      | .inf c => infRes t c
      | .fin s3 m3 e3 => roundPack t rm ftz s3 m3 e3 false
      | .zero c => if c = s then zeroRes t s else zeroRes t (rm = .rdn)
      | .nan c => nanRes t c

/-- The order of two values that are no NaN: −0.0 equals +0.0. -/
def fpLt (x y : Fp) : Bool :=
  match x, y with
  | .nan _, _ | _, .nan _ => false
  | .inf a, .inf b => a && !b
  | .inf a, _ => a
  | _, .inf b => !b
  | .zero _, .zero _ => false
  | .zero _, .fin s _ _ => !s
  | .fin s _ _, .zero _ => s
  | .fin s1 m1 e1, .fin s2 m2 e2 => decide ((alignAdd s1 m1 e1 (!s2) m2 e2).1 < 0)

/-- IEEE equality. -/
def fpEq (x y : Fp) : Bool := !x.isNan && !y.isNan && !fpLt x y && !fpLt y x

/-- FMIN or FMAX of two codes of a format (R115): the code of the chosen operand, NaNs canonical, −0.0 below +0.0; a signalling NaN raises
NV. bx and by are the codes of x and y. -/
def fpMinMax (t : Fmt2) (isMax : Bool) (bx bY : Nat) (x y : Fp) : FRes :=
  let fl : BitVec 5 := if x.isSnan || y.isSnan then flagNV else 0
  let lt := fpLt x y || (fpEq x y && x.neg && !y.neg)
  if x.isNan && y.isNan then ⟨t.nanBits, fl⟩
  else if x.isNan then ⟨bY, fl⟩
  else if y.isNan then ⟨bx, fl⟩
  else ⟨if isMax then (if lt then bY else bx) else (if lt then bx else bY), fl⟩

/-- x rounded to an integer: its sign, its magnitude and whether it is inexact. -/
def roundInt (rm : Rnd) (neg : Bool) (m : Nat) (e : Int) : Nat × Bool := roundAt rm neg m e 0

/-- x converted to an integer between lo and hi: out of range and NaN raise NV and give the bound; the RISC-V FCVT rule. -/
def fpToInt (rm : Rnd) (lo hi : Int) (x : Fp) : Int × BitVec 5 :=
  match x with
  | .nan _ => (hi, flagNV)
  | .inf s => (if s then lo else hi, flagNV)
  | .zero _ => (0, 0)
  | .fin s m e =>
    let (k, inexact) := roundInt rm s m e
    let v : Int := if s then -(k : Int) else k
    if v < lo then (lo, flagNV) else if hi < v then (hi, flagNV) else (v, if inexact then flagNX else 0)

/-- An integer rounded into a format. -/
def intToFp (t : Fmt2) (rm : Rnd) (ftz : Bool) (v : Int) : FRes :=
  if v = 0 then zeroRes t false else roundPack t rm ftz (decide (v < 0)) v.natAbs 0 false

/-! ## Correctly rounded functions (R237, R255)

Each is enclosed between two fixed-point bounds; when both round alike, that is the result. -/

/-- Σ z^(2i+1) / (2i+1), i < n, in fixed point with P bits, for z given in fixed point; num is the current odd power. -/
def atanhSum (P : Nat) (z2 : Int) : Nat → Nat → Int → Int
  | 0, _, _ => 0
  | n + 1, k, num => num / (k : Int) + atanhSum P z2 n (k + 2) (num * z2 / 2 ^ P)

/-- ln 2 in fixed point with P bits, within 2P + 8 units: 2 atanh(1/3). -/
def ln2Fix (P : Nat) : Int :=
  let z : Int := 2 ^ P / 3
  2 * atanhSum P (2 ^ P / 9) (P / 3 + 2) 1 z

/-- Σ r^i / i!, i from k up, in fixed point with P bits; term is the current one. -/
def expSum (P : Nat) (r : Int) : Nat → Nat → Int → Int
  | 0, _, _ => 0
  | n + 1, k, term => term + expSum P r n (k + 1) (term * r / 2 ^ P / (k : Int))

/-- e^r in fixed point with P bits for |r| at most 1, within 4P + 64 units. -/
def expFix (P : Nat) (r : Int) : Int := expSum P r (P + 8) 1 (2 ^ P)

/-- m × 2^e in fixed point with P bits, rounded down. -/
def toFix (P : Nat) (m : Nat) (e : Int) : Nat :=
  let sh := e + P
  if 0 ≤ sh then m * 2 ^ sh.toNat else m / 2 ^ (-sh).toNat

/-- An enclosure: the value lies strictly between lo × 2^e and hi × 2^e. -/
structure Encl where
  lo : Int
  hi : Int
  e : Int
  deriving DecidableEq, Repr

/-- e^x for x = v in fixed point with P bits, |x| below 2^12: k and the enclosure of e^(x − k ln 2). -/
def expEncl (P : Nat) (v : Int) : Encl :=
  let l := ln2Fix P
  let k := v / l
  let r := v - k * l
  let err : Int := (64 * P + 4096 : Nat)
  let y := expFix P r
  ⟨y - err * (1 + k.natAbs), y + err * (1 + k.natAbs), k - P⟩

/-- 2^x for x = v in fixed point with P bits. -/
def exp2Encl (P : Nat) (v : Int) : Encl :=
  let k := v / 2 ^ P
  let r := (v - k * 2 ^ P) * ln2Fix P / 2 ^ P
  let err : Int := (64 * P + 4096 : Nat)
  let y := expFix P r
  ⟨y - err, y + err, k - P⟩

/-- ln(m × 2^e) in fixed point with P bits. -/
def logEncl (P : Nat) (m : Nat) (e : Int) : Encl :=
  let L := bitLen m
  let f : Int := toFix P m (-(L : Int))
  let (f, k) := if f < 3 * 2 ^ (P - 2) then (2 * f, e + L - 1) else (f, e + L)
  let z := (f - 2 ^ P) * 2 ^ P / (f + 2 ^ P)
  let y := 2 * atanhSum P (z * z / 2 ^ P) (P / 2 + 4) 1 z + k * ln2Fix P
  let err : Int := (64 * P + 4096 : Nat)
  ⟨y - err * (1 + k.natAbs), y + err * (1 + k.natAbs), -(P : Int)⟩

/-- A quotient of enclosures of positive numbers. -/
def divEncl (P : Nat) (nlo nhi dlo dhi : Int) : Encl := ⟨nlo * 2 ^ P / dhi, nhi * 2 ^ P / dlo + 1, -(P : Int)⟩

/-- The rounding of both ends of an enclosure, if they agree. -/
def roundEncl (t : Fmt2) (rm : Rnd) (ftz : Bool) (c : Encl) : Option FRes :=
  let go (v : Int) : FRes := roundPack t rm ftz (decide (v < 0)) v.natAbs c.e true
  if c.lo = 0 || c.hi = 0 || (decide (c.lo < 0) != decide (c.hi < 0)) then none
  else if go c.lo = go c.hi then some (go c.lo) else none

/-- The first precision that decides the rounding; otherwise a free value. [DEDUCED, log 17: unsafe] -/
def decideRound (t : Fmt2) (rm : Rnd) (ftz : Bool) (fn bits : Nat) (encl : Nat → Encl) : List Nat → FRes
  | [] => ⟨(Config.roundingFallback fn bits t.fw).toNat % 2 ^ (t.ew + t.fw + 1), flagNX⟩
  | P :: rest =>
    match roundEncl t rm ftz (encl P) with
    | some r => r
    | none => decideRound t rm ftz fn bits encl rest

/-- The working precisions. -/
def precisions : List Nat := [128, 256, 512, 1280]

/-- A value just above a finite m × 2^e, or just below it, closer than any precision of use. [DEDUCED, log 17: unsafe] -/
def roundNear (t : Fmt2) (rm : Rnd) (ftz : Bool) (neg above : Bool) (m : Nat) (e : Int) : FRes :=
  if above then roundPack t rm ftz neg (m * 2 ^ 128) (e - 128) true else roundPack t rm ftz neg (m * 2 ^ 128 - 1) (e - 128) true

/-- m × 2^e is at least 2^n. -/
def magGe (m : Nat) (e : Int) (n : Int) : Bool := n < e + bitLen m

/-- A signed fixed-point value. -/
def toFixS (P : Nat) (s : Bool) (m : Nat) (e : Int) : Int := if s then -(toFix P m e : Int) else toFix P m e

/-- e^x, correctly rounded (R255). [DEDUCED, log 17: unsafe] -/
def fpExp (t : Fmt2) (rm : Rnd) (ftz : Bool) (bits : Nat) (x : Fp) : FRes :=
  match x with
  | .nan a => nanRes t a
  | .inf s => if s then zeroRes t false else infRes t false
  | .zero _ => ⟨t.bias * 2 ^ t.fw, 0⟩
  | .fin s m e =>
    if magGe m e 12 then roundPack t rm ftz false 1 (if s then -8000 else 8000) true
    else if !magGe m e (-100) then roundNear t rm ftz false (!s) 1 0
    else decideRound t rm ftz 1 bits (fun P => expEncl P (toFixS P s m e)) precisions

/-- 2^x, correctly rounded (R237); exact for an integer x. [DEDUCED, log 17: unsafe] -/
def fpExp2 (t : Fmt2) (rm : Rnd) (ftz : Bool) (bits : Nat) (x : Fp) : FRes :=
  match x with
  | .nan a => nanRes t a
  | .inf s => if s then zeroRes t false else infRes t false
  | .zero _ => ⟨t.bias * 2 ^ t.fw, 0⟩
  | .fin s m e =>
    if magGe m e 12 then roundPack t rm ftz false 1 (if s then -8000 else 8000) true
    else if !magGe m e (-100) then roundNear t rm ftz false (!s) 1 0
    else if toFix 0 m e * 2 ^ 200 = toFix 200 m e then
      roundPack t rm ftz false 1 (if s then -(toFix 0 m e : Int) else toFix 0 m e) false
    else decideRound t rm ftz 2 bits (fun P => exp2Encl P (toFixS P s m e)) precisions

/-- ln x, correctly rounded (R255). [DEDUCED, log 17: unsafe] -/
def fpLog (t : Fmt2) (rm : Rnd) (ftz : Bool) (bits : Nat) (x : Fp) : FRes :=
  match x with
  | .nan a => nanRes t a
  | .zero _ => ⟨t.signBit + t.infBits, flagDZ⟩
  | .inf s => if s then nanRes t true else infRes t false
  | .fin true _ _ => nanRes t true
  | .fin false m e =>
    if magGe m e 0 && !magGe m e 1 && m = 2 ^ (bitLen m - 1) then zeroRes t false
    else decideRound t rm ftz 3 bits (fun P => logEncl P m e) precisions

/-- The enclosure of 1 / (1 + e^−x), or of its complement e^−x / (1 + e^−x), for x ≥ 0 given in fixed point. -/
def sigmoidEncl (P : Nat) (v : Int) (upper : Bool) : Encl :=
  let c := expEncl P (-v)
  let one : Int := 2 ^ (-c.e).toNat
  if upper then divEncl P one one (one + c.lo) (one + c.hi)
  else
    let q := divEncl P (c.lo * one) (c.hi * one) (one + c.lo) (one + c.hi)
    ⟨q.lo, q.hi, q.e + c.e⟩

/-- 1 / (1 + e^−x), correctly rounded (R255). [DEDUCED, log 17: unsafe] -/
def fpSigmoid (t : Fmt2) (rm : Rnd) (ftz : Bool) (bits : Nat) (x : Fp) : FRes :=
  match x with
  | .nan a => nanRes t a
  | .inf s => if s then zeroRes t false else ⟨t.bias * 2 ^ t.fw, 0⟩
  | .zero _ => ⟨(t.bias - 1) * 2 ^ t.fw, 0⟩
  | .fin s m e =>
    if s && magGe m e 10 then roundPack t rm ftz false 1 (-8000) true
    else if !s && magGe m e 8 then roundNear t rm ftz false false 1 0
    else if !magGe m e (-100) then roundNear t rm ftz false (!s) 1 (-1)
    else decideRound t rm ftz 4 bits (fun P => sigmoidEncl P (toFix P m e) (!s)) precisions

/-- tanh x for x > 0 in fixed point: (1 − e^−2x) / (1 + e^−2x). -/
def tanhEncl (P : Nat) (v : Int) : Encl :=
  let c := expEncl P (-2 * v)
  let one : Int := 2 ^ (-c.e).toNat
  divEncl P (one - c.hi) (one - c.lo) (one + c.lo) (one + c.hi)

/-- tanh x, correctly rounded (R255). [DEDUCED, log 17: unsafe] -/
def fpTanh (t : Fmt2) (rm : Rnd) (ftz : Bool) (bits : Nat) (x : Fp) : FRes :=
  match x with
  | .nan a => nanRes t a
  | .inf s => ⟨signOf t s + t.bias * 2 ^ t.fw, 0⟩
  | .zero s => zeroRes t s
  | .fin s m e =>
    if magGe m e 8 then roundNear t rm ftz s false 1 0
    else if !magGe m e (-40) then roundNear t rm ftz s false m e
    else
      decideRound t rm ftz 5 bits
        (fun P => let c := tanhEncl P (toFix P m e); if s then ⟨-c.hi, -c.lo, c.e⟩ else c) precisions

end Sys2Proof.Machine
end

