-- ==== Sys2Proof/Machine/Flags.lean ====
section
/-! DEFINITION. Sys2Proof/Machine/Flags.lean: rounding modes in force and the sticky flags.

fflags (R105), zaflags (R111) and zdflags (R245) only gain bits; the effective rounding mode follows R102 and R103. -/
namespace Sys2Proof.Machine

/-- fflags gains flags (R105). -/
def State.accrue (s : State) (fl : BitVec 5) : State := s.modU fun u => { u with fflags := u.fflags ||| fl }

/-- zaflags gains bits: OVINF 2, SAT 1, NANSEEN 0 (R111). -/
def State.accrueZa (s : State) (fl : BitVec 3) : State := s.modU fun u => { u with zaflags := u.zaflags ||| fl }

/-- zdflags gains the IEEE flags of value arithmetic in its bits 6:2 — NX 6, UF 5, OF 4, DZ 3, NV 2 — and DNAN, DX (R245). -/
def zdOf (fl : BitVec 5) (dnan dx : Bool) : BitVec 7 :=
  bit1 (fl.getLsbD 0) ++ bit1 (fl.getLsbD 1) ++ bit1 (fl.getLsbD 2) ++ bit1 (fl.getLsbD 3) ++ bit1 (fl.getLsbD 4) ++ bit1 dnan ++ bit1 dx

/-- zdflags gains bits (R245). -/
def State.accrueZd (s : State) (fl : BitVec 7) : State := s.modU fun u => { u with zdflags := u.zdflags ||| fl }

/-- DAZ32 (R106). -/
def User.daz32 (u : User) : Bool := u.zfmode.getLsbD 0

/-- FTZ32 (R106). -/
def User.ftz32 (u : User) : Bool := u.zfmode.getLsbD 1

/-- DAZ16 (R106). -/
def User.daz16 (u : User) : Bool := u.zfmode.getLsbD 2

/-- FTZ16 (R106). -/
def User.ftz16 (u : User) : Bool := u.zfmode.getLsbD 3

/-- LRM (R106). -/
def User.lrm (u : User) : BitVec 3 := u.zfmode.extractLsb' 4 3

/-- The mode of a code 000 to 101 (R102). -/
def rndOf (c : BitVec 3) : Rnd :=
  match c with
  | 0#3 => .rne | 1#3 => .rtz | 2#3 => .rdn | 3#3 => .rup | 4#3 => .rmm | _ => .rod

/-- The effective rounding mode of an instruction with or without an rm field (R103): the PFX code, the field, or fcsr.frm; LEG is
zfmode.LRM; none is a reserved dynamic mode. -/
def effRnd (s : State) (rm : Option (BitVec 3)) : Option Rnd :=
  let pfx := match s.pfx with | some p => p.rm | none => 7#3
  if pfx = 6#3 then some (rndOf s.hart.u.lrm)
  else if pfx != 7#3 then some (rndOf pfx)
  else
    match rm with
    | some c => if c != 7#3 then some (rndOf c) else if s.hart.u.frm.toNat < 5 then some (rndOf s.hart.u.frm) else none
    | none => if s.hart.u.frm.toNat < 5 then some (rndOf s.hart.u.frm) else none

/-- The effective mode, or cause 2 for a reserved dynamic mode, which is not emulation-eligible (R103, R132). -/
def withRnd (w : BitVec 32) (rm : Option (BitVec 3)) : M Rnd := fun s =>
  match effRnd s rm with
  | some r => .ok r s
  | none => raiseIllegal w s

end Sys2Proof.Machine
end

