-- ==== Sys2Proof/Machine/Operands.lean ====
section
/-! DEFINITION. Sys2Proof/Machine/Operands.lean: the operand forms.

FP32 operands of f registers (R96), the fourth operand (R124), W-profile checks (R28), array words (R62, R186), buffer-record elements
(R59, R60). -/
namespace Sys2Proof.Machine

/-- The FP32 code an f register holds: the canonical NaN when it is not NaN-boxed (R96). -/
def unbox (v : Word) : Nat := if v.extractLsb' 32 32 = 0xFFFFFFFF#32 then (v.extractLsb' 0 32).toNat else fp32.nanBits

/-- An FP32 code as an f register holds it (R96). -/
def nanBox (b : Nat) : Word := 0xFFFFFFFF#32 ++ BitVec.ofNat 32 b

/-- The FP32 code in f[r] (R96). -/
def State.fs (s : State) (r : FReg) : Nat := unbox (s.rf r)

/-- The FP64 code in f[r]. -/
def State.fd (s : State) (r : FReg) : Nat := (s.rf r).toNat

/-- An FP32 value with DAZ32 applied when it is on (R107). -/
def dazS (s : State) (x : Fp) : Fp := if s.hart.u.daz32 then x.daz fp32 else x

/-- The FP32 operand of f[r] after DAZ32 (R96, R107). -/
def State.valS (s : State) (r : FReg) : Fp := dazS s (unpack fp32 (s.fs r))

/-- The FP64 operand of f[r]. -/
def State.valD (s : State) (r : FReg) : Fp := unpack fp64 (s.fd r)

/-- The register of the fourth operand: none when RS4 is 0 or there is no prefix (R123, R124). -/
def State.rs4 (s : State) : Option FReg :=
  match s.pfx with
  | some p => if p.rs4 = 0#5 then none else some p.rs4
  | none => none

/-! ## The W-profile (R26, R28) -/

/-- stval of cause 48: the number named and its kind (R28). -/
def prof48 (kind n : Nat) : Word := BitVec.ofNat 64 (kind * 256 + n % 256)

/-- Every number named is within the profile's count, or cause 48 (R28). Where several are not, the manual does not say which one stval
names: a choice left free. [DESIGN CHOICE, log 21: safe] -/
def needProf (kind : Nat) (limit : BitVec 16 → Nat) (ns : List Nat) : M Unit := fun s =>
  match ns.filter fun n => limit s.hart.u.zwprof ≤ n with
  | [] => .ok () s
  | [n] => .error (.trap 48 (prof48 kind n)) s
  | n :: rest =>
    .error (.trap 48 (prof48 kind ((n :: rest).getD (Config.freeNat s.freeCount % (rest.length + 1)) n)))
      { s with freeCount := s.freeCount + 1 }

/-- The d-registers named are within the profile, or cause 48. -/
def needD (ns : List DReg) : M Unit := needProf 1 profD (ns.map BitVec.toNat)

/-- An array word within the profile, or cause 48. -/
def needW (n : Nat) : M Unit := fun s =>
  if n < profW s.hart.u.zwprof then .ok () s else .error (.trap 48 (prof48 2 n)) s

/-- A buffer record within the profile, or cause 48. -/
def needB (n : BReg) : M Unit := fun s =>
  if n.toNat < profB s.hart.u.zwprof then .ok () s else .error (.trap 48 (prof48 3 n.toNat)) s

/-! ## Registers of the narrower classes -/

/-- w[n]. -/
def State.rw (s : State) (n : Nat) : BitVec 32 := if h : n < 64 then s.hart.u.w[n] else 0

/-- w[n] := v. -/
def State.ww (s : State) (n : Nat) (v : BitVec 32) : State :=
  if h : n < 64 then s.modU fun u => { u with w := u.w.set n v h } else s

/-- k[n]. -/
def State.rk (s : State) (n : KReg) : KIdx := s.hart.u.k[n.toNat]'n.isLt

/-- k[n] := v. -/
def State.wk (s : State) (n : KReg) (v : KIdx) : State := s.modU fun u => { u with k := u.k.set n.toNat v n.isLt }

/-- d[n]. -/
def State.rd (s : State) (n : DReg) : Dist := s.hart.u.d[n.toNat]'n.isLt

/-- d[n] := v. -/
def State.wd (s : State) (n : DReg) (v : Dist) : State := s.modU fun u => { u with d := u.d.set n.toNat v n.isLt }

/-- b[n]: word 0 in bits 63:0. -/
def State.rb (s : State) (n : BReg) : BitVec 128 := s.hart.u.b[n.toNat]'n.isLt

/-- b[n] := v. -/
def State.wb (s : State) (n : BReg) (v : BitVec 128) : State := s.modU fun u => { u with b := u.b.set n.toNat v n.isLt }

/-- A word selector: a direct word number, or BASE + i of an index register checked against LEN and then against the profile (R62,
R186). -/
def indexedWord (k : KReg) (a : XReg) : M Nat := do
  let s ← get
  let i := (s.rx a).toNat
  if (s.rk k).len.toNat ≤ i then throw (.trap 25 (s.rx a))
  let n := (s.rk k).base.toNat + i
  needW n
  pure n

/-- A direct word checked against the profile (R186). -/
def directWord (w : WIdx) : M Nat := do
  needW w.toNat
  pure w.toNat

/-! ## Buffer records (R59, R60) -/

/-- A buffer record's fields. -/
structure BufRec where
  esz : Nat
  swz : Nat
  base : Word
  extent : Nat
  stride : Nat
  deriving DecidableEq, Repr

/-- The record in b[n] (R59). -/
def bufOf (v : BitVec 128) : BufRec :=
  ⟨(v.extractLsb' 60 2).toNat, (v.extractLsb' 57 3).toNat, (v.extractLsb' 0 57).signExtend 64, (v.extractLsb' 96 32).toNat,
   (v.extractLsb' 64 32).toNat⟩

/-- The address of an element (R60). -/
def bufAddr (r : BufRec) (i setw vlane : Nat) : Word :=
  match r.swz with
  | 0 => r.base + BitVec.ofNat 64 (i * r.stride)
  | 1 => r.base + BitVec.ofNat 64 ((i * setw + vlane) * 2 ^ r.esz)
  | _ => r.base + BitVec.ofNat 64 ((i ^^^ ((i >>> 3) &&& 7)) * r.stride)

/-- The address of the element of b[n] that x[a] names: the profile check, then the extent check (R185). -/
def bufElem (n : BReg) (a : XReg) : M (Word × BufRec) := do
  needB n
  let s ← get
  let r := bufOf (s.rb n)
  let i := (s.rx a).toNat
  if r.extent ≤ i then throw (.trap 26 (s.rx a))
  pure (bufAddr r i (setwOf s s.hart) (vlaneOf s s.hart), r)

end Sys2Proof.Machine
end

