-- ==== Sys2Proof/Machine/Alu.lean ====
section
/-! DEFINITION. Sys2Proof/Machine/Alu.lean: the integer operations of RV64I, M, Zba, Zbb, Zbs, Zicond and A as functions of their
operands (R2, R118). -/
namespace Sys2Proof.Machine

/-- A 32-bit result sign-extended. -/
def sx32 (v : BitVec 32) : Word := v.signExtend 64

/-- The low 32 bits. -/
def lo32 (v : Word) : BitVec 32 := v.setWidth 32

/-- Leading zeros of a word of w bits. -/
def clzOf {w : Nat} (v : BitVec w) : Nat := if v = 0 then w else w - 1 - Nat.log2 v.toNat

/-- Trailing zeros of a word of w bits, counted up to fuel bits. -/
def ctzOf (v : Nat) : Nat → Nat
  | 0 => 0
  | n + 1 => if v % 2 = 1 then 0 else 1 + ctzOf (v / 2) n

/-- The number of ones among the low n bits. -/
def popOf (v : Nat) : Nat → Nat
  | 0 => 0
  | n + 1 => v % 2 + popOf (v / 2) n

/-- Signed division: by zero all ones, the overflow the dividend (M). -/
def sdivOf {w : Nat} (a b : BitVec w) : BitVec w :=
  if b = 0 then BitVec.allOnes w else BitVec.ofInt w (a.toInt.tdiv b.toInt)

/-- Signed remainder: by zero the dividend (M). -/
def sremOf {w : Nat} (a b : BitVec w) : BitVec w :=
  if b = 0 then a else BitVec.ofInt w (a.toInt.tmod b.toInt)

/-- Unsigned division: by zero all ones. -/
def udivOf {w : Nat} (a b : BitVec w) : BitVec w := if b = 0 then BitVec.allOnes w else BitVec.ofNat w (a.toNat / b.toNat)

/-- Unsigned remainder: by zero the dividend. -/
def uremOf {w : Nat} (a b : BitVec w) : BitVec w := if b = 0 then a else BitVec.ofNat w (a.toNat % b.toNat)

/-- One of two values as a flag of a word. -/
def flagWord (b : Bool) : Word := if b then 1 else 0

/-- The low six bits of a word, as a shift amount. -/
def sh6 (v : Word) : Nat := v.toNat % 64

/-- The low five bits of a word, as a shift amount. -/
def sh5 (v : Word) : Nat := v.toNat % 32

/-- The bytes of a word in reverse order (REV8). -/
def rev8Of (v : Word) : Word := BitVec.ofNat 64 (leNat (natLe 8 v.toNat).reverse)

/-- Each nonzero byte becomes 0xFF (ORC.B). -/
def orcOf (v : Word) : Word := BitVec.ofNat 64 (leNat ((natLe 8 v.toNat).map fun b => if b = 0 then 0 else 0xFF))

/-- The register-register operations. [DEDUCED, log 89: unsafe] -/
def aluOf (op : AluOp) (a b : Word) : Word :=
  match op with
  | .add => a + b
  | .sub => a - b
  | .sll => a <<< sh6 b
  | .slt => flagWord (a.slt b)
  | .sltu => flagWord (a.ult b)
  | .xor => a ^^^ b
  | .srl => a >>> sh6 b
  | .sra => a.sshiftRight (sh6 b)
  | .or => a ||| b
  | .and => a &&& b
  | .addw => sx32 (lo32 a + lo32 b)
  | .subw => sx32 (lo32 a - lo32 b)
  | .sllw => sx32 (lo32 a <<< sh5 b)
  | .srlw => sx32 (lo32 a >>> sh5 b)
  | .sraw => sx32 ((lo32 a).sshiftRight (sh5 b))
  | .mul => a * b
  | .mulh => BitVec.ofInt 64 ((a.toInt * b.toInt) >>> 64)
  | .mulhsu => BitVec.ofInt 64 ((a.toInt * b.toNat) >>> 64)
  | .mulhu => BitVec.ofNat 64 ((a.toNat * b.toNat) >>> 64)
  | .div => sdivOf a b
  | .divu => udivOf a b
  | .rem => sremOf a b
  | .remu => uremOf a b
  | .mulw => sx32 (lo32 a * lo32 b)
  | .divw => sx32 (sdivOf (lo32 a) (lo32 b))
  | .divuw => sx32 (udivOf (lo32 a) (lo32 b))
  | .remw => sx32 (sremOf (lo32 a) (lo32 b))
  | .remuw => sx32 (uremOf (lo32 a) (lo32 b))
  | .addUw => (lo32 a).setWidth 64 + b
  | .sh1add => (a <<< 1) + b
  | .sh2add => (a <<< 2) + b
  | .sh3add => (a <<< 3) + b
  | .sh1addUw => ((lo32 a).setWidth 64 <<< 1) + b
  | .sh2addUw => ((lo32 a).setWidth 64 <<< 2) + b
  | .sh3addUw => ((lo32 a).setWidth 64 <<< 3) + b
  | .andn => a &&& ~~~b
  | .orn => a ||| ~~~b
  | .xnor => ~~~(a ^^^ b)
  | .max => if a.slt b then b else a
  | .maxu => if a.ult b then b else a
  | .min => if a.slt b then a else b
  | .minu => if a.ult b then a else b
  | .rol => a.rotateLeft (sh6 b)
  | .ror => a.rotateRight (sh6 b)
  | .rolw => sx32 ((lo32 a).rotateLeft (sh5 b))
  | .rorw => sx32 ((lo32 a).rotateRight (sh5 b))
  | .bclr => a &&& ~~~(1#64 <<< sh6 b)
  | .bext => flagWord (a.getLsbD (sh6 b))
  | .binv => a ^^^ (1#64 <<< sh6 b)
  | .bset => a ||| (1#64 <<< sh6 b)
  | .czeroEqz => if b = 0 then 0 else a
  | .czeroNez => if b = 0 then a else 0

/-- The operations with a 12-bit immediate. -/
def immOf (op : ImmOp) (a : Word) (i : BitVec 12) : Word :=
  let b : Word := i.signExtend 64
  match op with
  | .addi => a + b
  | .slti => flagWord (a.slt b)
  | .sltiu => flagWord (a.ult b)
  | .xori => a ^^^ b
  | .ori => a ||| b
  | .andi => a &&& b
  | .addiw => sx32 (lo32 a + lo32 b)

/-- The operations with a 6-bit shift amount. -/
def shiftOf (op : ShiftOp) (a : Word) (n : Nat) : Word :=
  match op with
  | .slli => a <<< n
  | .srli => a >>> n
  | .srai => a.sshiftRight n
  | .rori => a.rotateRight n
  | .bclri => a &&& ~~~(1#64 <<< n)
  | .bexti => flagWord (a.getLsbD n)
  | .binvi => a ^^^ (1#64 <<< n)
  | .bseti => a ||| (1#64 <<< n)
  | .slliUw => (lo32 a).setWidth 64 <<< n

/-- The operations with a 5-bit shift amount. -/
def shiftWOf (op : ShiftWOp) (a : Word) (n : Nat) : Word :=
  match op with
  | .slliw => sx32 (lo32 a <<< n)
  | .srliw => sx32 (lo32 a >>> n)
  | .sraiw => sx32 ((lo32 a).sshiftRight n)
  | .roriw => sx32 ((lo32 a).rotateRight n)

/-- The one-operand operations of Zbb. -/
def unaryOf (op : UnaryOp) (a : Word) : Word :=
  match op with
  | .clz => BitVec.ofNat 64 (clzOf a)
  | .ctz => BitVec.ofNat 64 (ctzOf a.toNat 64)
  | .cpop => BitVec.ofNat 64 (popOf a.toNat 64)
  | .clzw => BitVec.ofNat 64 (clzOf (lo32 a))
  | .ctzw => BitVec.ofNat 64 (ctzOf (lo32 a).toNat 32)
  | .cpopw => BitVec.ofNat 64 (popOf (lo32 a).toNat 32)
  | .sextB => (a.setWidth 8).signExtend 64
  | .sextH => (a.setWidth 16).signExtend 64
  | .zextH => (a.setWidth 16).setWidth 64
  | .rev8 => rev8Of a
  | .orcB => orcOf a

/-- Whether a branch is taken. -/
def branchTaken (op : BranchOp) (a b : Word) : Bool :=
  match op with
  | .beq => a == b
  | .bne => a != b
  | .blt => a.slt b
  | .bge => !a.slt b
  | .bltu => a.ult b
  | .bgeu => !a.ult b

/-- The bytes of a load. -/
def loadSize : LoadOp → Nat
  | .lb | .lbu => 1 | .lh | .lhu => 2 | .lw | .lwu => 4 | .ld => 8

/-- The register value of a load. -/
def loadExtend (op : LoadOp) (v : Word) : Word :=
  match op with
  | .lb => (v.setWidth 8).signExtend 64
  | .lh => (v.setWidth 16).signExtend 64
  | .lw => sx32 (lo32 v)
  | _ => v

/-- The bytes of a store. -/
def storeSize : StoreOp → Nat
  | .sb => 1 | .sh => 2 | .sw => 4 | .sd => 8

/-- The signed value of an operand of n bytes. -/
def signedOf (n v : Nat) : Int := if v < 2 ^ (8 * n - 1) then v else (v : Int) - 2 ^ (8 * n)

/-- The new value of an AMO of n bytes on the old value (A). [DEDUCED, log 89: unsafe] -/
def amoOf (op : AmoOp) (n old v : Nat) : Nat :=
  match op with
  | .swap => v
  | .add => (old + v) % 2 ^ (8 * n)
  | .xor => old ^^^ v
  | .and => old &&& v
  | .or => old ||| v
  | .min => if signedOf n v < signedOf n old then v else old
  | .max => if signedOf n old < signedOf n v then v else old
  | .minu => if v < old then v else old
  | .maxu => if old < v then v else old

/-- The register value of an atomic's old value. -/
def atomExtend (dbl : Bool) (v : Nat) : Word := if dbl then BitVec.ofNat 64 v else sx32 (BitVec.ofNat 32 v)

end Sys2Proof.Machine
end

