-- ==== Sys2Proof/Machine/Csr.lean ====
section
/-! DEFINITION. Sys2Proof/Machine/Csr.lean: the CSR map and the writes of each CSR (R134 and the rule of each CSR).

The standard CSRs follow the RISC-V privileged architecture (R2); the writable bits are those of a machine without H, V, debug and
physical memory protection entries. -/
namespace Sys2Proof.Machine

/-! ## Writes with a behaviour of their own -/

/-- A write to zpack: the pack class, and at the W-site a re-binning point (R40). -/
def State.writeZpack (s : State) (v : Word) : State := (s.modU fun u => { u with zpack := v.setWidth 2 }).rebin

/-- A write to zwidth (R41). -/
def State.writeZwidth (s : State) (v : Word) : State := s.modPart fun p => { p with w32 := v.getLsbD 0 }

/-- Some thread of the partition is resident at the W-site. -/
def State.anyResident (s : State) : Bool := s.allHarts.any fun h => h.car.isSome

/-- A write to zpark: unchanged while a thread is resident or when the area leaves the ranges; codes 12 to 15 read back 11 (R53). -/
def State.writeZpark (s : State) (v : Word) : State :=
  let size := min (field v 0 4) 11
  let len := 2 ^ (20 + size)
  let base := field v 12 44 * 4096 / len * len
  if s.anyResident || !areaIn s.part.ranges base len then s
  else s.modPart fun p => { p with parkBase := base, parkSize := size, parkPlaced := true }

/-- A write to zrbt: unchanged while a binding is held or when the table leaves the ranges (R71). -/
def State.writeZrbt (s : State) (v : Word) : State :=
  let base := field v 15 41 * 0x8000
  if !s.part.bindings.isEmpty || !areaIn s.part.ranges base 0x8000 then s
  else s.modPart fun p => { p with rbtBase := base, rbtEn := v.getLsbD 0 }

/-- The roles that a written zbankrole leaves, field by field: 11 keeps the previous role (R83). -/
def mergeRoles (old v : Word) : Nat → Word
  | 0 => old
  | n + 1 => let r := mergeRoles old v n; if field v (2 * n) 2 = 3 then r else putField r (2 * n) 2 (field v (2 * n) 2)

/-- The number of L1 banks of a role word. -/
def l1Banks (v : Word) : Nat := ((List.range 32).filter fun n => field v (2 * n) 2 = 0).length

/-- A W-core whose banks change from one role word to another: the contents of a changed bank are undefined, and every reservation is
freed (R83, R214). [DEDUCED, log 52: unsafe] -/
def WCore.reroled (w : WCore) (old new : Word) (epoch : Nat) : WCore :=
  let w1 :=
    (List.range 32).foldl
      (fun (a : WCore) n => if field old (2 * n) 2 = field new (2 * n) 2 then a else a.undefine (0x20000 * n) 0x18000 epoch) w
  { w1 with press := { w1.press with resvs := Vector.replicate 32 none } }

/-- A write to zbankrole: unchanged while a thread is resident or when fewer than 2 L1 banks would be left; L1 contents, the private
bytes of the threads named by a context image, are written back first (R83). [DEDUCED, log 52: unsafe] -/
def State.writeZbankrole (s : State) (v : Word) : State :=
  let new := mergeRoles s.part.bankrole v 32
  if s.anyResident || l1Banks new < 2 then s
  else if new = s.part.bankrole then s
  else
    let old := s.part.bankrole
    let s1 := s.writeBack fun b => match b.who with | .wthread _ => true | _ => false
    { s1 with freeCount := s1.freeCount + 1 }.modPart fun p =>
      { p with bankrole := new, wcores := p.wcores.map fun w => WCore.reroled w old new s.freeCount }

/-- A write to zhotl: unchanged when the list leaves the ranges; an interval starts when sampling is turned on (R93).
[DEDUCED, log 53: unsafe] -/
def State.writeZhotl (s : State) (v : Word) : State :=
  let base := field v 10 46 * 1024
  if !areaIn s.part.ranges base 1024 then s
  else
    s.modPart fun p =>
      { p with
        hotBase := base
        hotIvl := field v 1 4
        hotEn := v.getLsbD 0
        hotCounts := if p.hotEn then p.hotCounts else []
        hotClock := if p.hotEn then p.hotClock else 0 }

/-- A write to zseed: the seed, and every draw counter 0 (R247). -/
def State.writeZseed (s : State) (v : Word) : State := s.modU fun u => { u with zseed := v, draw := Vector.replicate 16 0 }

/-- A write to zwfq: unchanged when it moves or resizes a queue that holds a record, or places the ring outside the ranges or on another
package (R306, R328). [DEDUCED, log 51: unsafe; DEDUCED, log 65: unsafe] -/
def State.writeZwfq (s : State) (v : Word) : State :=
  let size := field v 0 4
  let len := 4096 * 2 ^ size
  let base := field v 12 44 * 4096 / len * len
  let q := s.part.wfq
  let moved := base ≠ q.base || size ≠ q.size
  if (moved && q.count ≠ 0) || !areaIn s.part.ranges base len || !s.onPackage base then s
  else
    s.modPart fun p =>
      { p with wfq := { q with base := base, size := size, en := v.getLsbD 4, head := if moved then 0 else q.head } }

/-- A write to zemq, under the conditions of R306 (R309). [DEDUCED, log 51: unsafe; DEDUCED, log 65: unsafe] -/
def State.writeZemq (s : State) (v : Word) : State :=
  let size := field v 0 4
  let len := 4096 + 4096 * 2 ^ size
  let base := field v 12 44 * 4096
  let q := s.part.emq
  let moved := base ≠ q.base || size ≠ q.size
  if (moved && q.count ≠ 0) || !areaIn s.part.ranges base len || !s.onPackage base then s
  else
    s.modPart fun p =>
      { p with
        emq := { q with base := base, size := size, en := v.getLsbD 4, serve := v.getLsbD 5, head := if moved then 0 else q.head } }

/-- A write to zage: 0 reads back 1 (R51). -/
def State.writeZage (s : State) (v : Word) : State :=
  s.modPart fun p => { p with zage := if v.setWidth 16 = 0#16 then 1 else v.setWidth 16 }

/-! ## Standard CSRs -/

/-- The mode number against which a CSR's bits 9:8 are compared. -/
def Mode.level : Mode → Nat
  | .u => 0 | .s => 1 | .m => 3

/-- The CSR mstatus after a write: FS is 0 or 3, MPP keeps its value against the reserved code, SD follows FS.
[DEDUCED, log 22: unsafe; DESIGN CHOICE, log 23: unsafe] -/
def mstatusPut (old v : Word) : Word :=
  let w0 := (old &&& ~~~0x00000000007E19AA#64) ||| (v &&& 0x00000000007E19AA#64)
  let w1 := if field v 11 2 = 2 then putField w0 11 2 (field old 11 2) else w0
  let fs := if field v 13 2 = 0 then 0 else 3
  putField (putField w1 13 2 fs) 63 1 (if fs = 3 then 1 else 0)

/-- The bits of mstatus that sstatus shows. -/
def sstatusMask : Word := 0x80000003000DE762

/-- The bits of mstatus that a write to sstatus reaches. -/
def sstatusWrite : Word := 0x00000000000C6122

/-- The interrupts that follow the queues (R303). -/
def State.queueBits (s : State) : Word :=
  (if s.part.wfq.count ≠ 0 then 0x10000 else 0) ||| (if s.part.emq.waiting ≠ 0 && !s.part.emq.serve then 0x20000 else 0)

/-- mip as it reads. [DEDUCED, log 88: safe] -/
def State.mipVal (s : State) : Word := s.hart.sup.mip ||| s.queueBits

/-- The interrupts an L-core can have: software, timer and external of S-mode, and 16 to 18. [DESIGN CHOICE, log 23: unsafe] -/
def irqMask : Word := 0x70222

/-- The exceptions that may be delegated. [DESIGN CHOICE, log 23: unsafe] -/
def medelegMask : Word := 0x000F0000FF00B3FF

/-- The L-die copy engine of a hart: that of the die of its L-core or Roustabout core. -/
def lceOf (h : Hart) : Fin 2 :=
  match h.id with
  | .lcore k => if k < 64 then 0 else 1
  | .roust k => if k < 4 then 0 else 1
  | .wthread _ => 0

/-- The engine whose channels the current hart sees: its W-core's, or that of its L-die (R87, R205). -/
def State.chanOf (s : State) (n : Nat) : Chan :=
  match s.hart.car with
  | some c => match s.wcore? c.core with | some w => w.chans.toList.getD n Chan.init | none => Chan.init
  | none => (s.part.lce[lceOf s.hart]).toList.getD n Chan.init

/-- A read of channel n's count, or a wait for requests of the channel that sel names: what they wrote is visible to the reader. Its
clean copies of those bytes are discarded, and an MXFENCE of its covers them (R88, R201, R204, R222). e is the engine.
[DEDUCED, log 78: unsafe] -/
def State.sawChan (s : State) (e ch : Nat) (c : Chan) (sel : CopySrc → Bool) : State :=
  let outs := (c.boundOut.filter fun o => sel o.src).map fun o => (o.addr, o.len)
  let s1 :=
    if outs.isEmpty then s else (s.dropClean fun b => b.who == s.who && inRanges outs b.pa).dropGranules s.myTeam fun _ pa => inRanges outs pa
  let waited (u : ObWrite) : Bool := match u.src with | some x => x.ch == ch && sel x | none => false
  s1.modW e (WCore.modWrites waited fun u => { u with seen := s.who :: u.seen })

/-- The engine of a hart: that of its W-core, or 256 and the number of its L-die (R200). -/
def engineOf (h : Hart) : Nat :=
  match h.car with
  | some c => c.core
  | none => 256 + (lceOf h).val

/-- zpart (R320). -/
def State.zpart (s : State) : Word :=
  BitVec.ofNat 64
    (s.part.tasks * 2 ^ 42 + s.pkg.pkgId * 2 ^ 32 + s.part.wcoreNums.length * 2 ^ 16 + s.part.lcores.length * 2 ^ 8 + s.part.pid)

/-- A word of a Boolean at a bit. -/
def bitAt (b : Bool) (n : Nat) : Word := if b then 1#64 <<< n else 0

/-- zrbt, zwfq, zemq, zpark and zhotl as they read (R53, R71, R93, R306, R309). -/
def State.placeCsr (s : State) (a : Nat) : Word :=
  let p := s.part
  match a with
  | 0x5C1 => BitVec.ofNat 64 p.rbtBase ||| bitAt p.rbtEn 0
  | 0x5C2 => BitVec.ofNat 64 (p.wfq.base + p.wfq.size) ||| bitAt p.wfq.en 4
  | 0x5C3 => BitVec.ofNat 64 (p.emq.base + p.emq.size) ||| bitAt p.emq.en 4 ||| bitAt p.emq.serve 5
  | 0x5C4 => BitVec.ofNat 64 (p.parkBase + p.parkSize) ||| bitAt p.parkPlaced 11
  | _ => BitVec.ofNat 64 (p.hotBase + 2 * p.hotIvl) ||| bitAt p.hotEn 0

/-- zfeat (R135). -/
def zfeat : Word := 0x0100000000003FFF

/-- The value of a CSR for the current hart, none where the address is unassigned.
[DESIGN CHOICE, log 23: unsafe; DEDUCED, log 24: unsafe; PRESUMED, log 121: unsafe] -/
def State.csrVal (s : State) (a : Nat) : Option Word :=
  let h := s.hart
  let u := h.u
  let c := h.sup
  match a with
  | 0x001 => some (u.fflags.setWidth 64)
  | 0x002 => some (u.frm.setWidth 64)
  | 0x003 => some ((u.frm ++ u.fflags).setWidth 64)
  | 0xC00 | 0xB00 => some h.cycle
  | 0xC01 => some s.pkg.zaclk
  | 0xC02 | 0xB02 => some h.instret
  | 0x800 => some (u.zfmode.setWidth 64)
  | 0x801 => some (u.zamax.setWidth 64)
  | 0x802 => some (u.zaflags.setWidth 64)
  | 0x803 => some (u.zdflags.setWidth 64)
  | 0x804 => some (u.zdctl.setWidth 64)
  | 0x805 => some (u.zpack.setWidth 64)
  | 0x806 => some ((u.zrfvec ++ 0#1).setWidth 64)
  | 0x807 => some u.zseed
  | 0x808 => some (u.zsitectl.setWidth 64)
  | 0xCC0 => some (if s.site = .w then 1 else 0)
  | 0xCC1 => some (BitVec.ofNat 64 (rankOf s h))
  | 0xCC2 => some (BitVec.ofNat 64 (vlaneOf s h))
  | 0xCC3 => some (BitVec.ofNat 64 (setwOf s h))
  | 0xCC4 => some (BitVec.ofNat 64 (teamOf s h))
  | 0xCC5 => some (u.ztask.setWidth 64)
  | 0xCC6 => some u.zbudget
  | 0xCC7 => some s.pkg.zaclk
  | 0xCC8 => some zfeat
  | 0xCC9 => some (u.zwprof.setWidth 64)
  | 0xCCA => some s.part.dlmiss
  | 0x100 => some (c.mstatus &&& sstatusMask)
  | 0x104 => some (c.mie &&& c.mideleg)
  | 0x105 => some c.stvec
  | 0x106 => some c.scounteren
  | 0x10A => some c.senvcfg
  | 0x140 => some c.sscratch
  | 0x141 => some c.sepc
  | 0x142 => some c.scause
  | 0x143 => some c.stval
  | 0x144 => some (s.mipVal &&& c.mideleg)
  | 0x180 => some c.satp
  | 0x5C0 => some s.zpart
  | 0x5C1 | 0x5C2 | 0x5C3 | 0x5C4 | 0x5C8 => some (s.placeCsr a)
  | 0x5C5 => some (s.part.zage.setWidth 64)
  | 0x5C6 => some s.part.bankrole
  | 0x5C7 => some (bitAt s.part.w32 0)
  | 0x300 => some c.mstatus
  | 0x301 => some 0x800000000094112F
  | 0x302 => some c.medeleg
  | 0x303 => some c.mideleg
  | 0x304 => some c.mie
  | 0x305 => some c.mtvec
  | 0x306 => some c.mcounteren
  | 0x30A => some c.menvcfg
  | 0x320 => some c.mcountinhibit
  | 0x340 => some c.mscratch
  | 0x341 => some c.mepc
  | 0x342 => some c.mcause
  | 0x343 => some c.mtval
  | 0x344 => some s.mipVal
  | 0xF11 => some (((Config.machineId a).setWidth 32).setWidth 64)
  | 0xF12 | 0xF13 => some (Config.machineId a)
  | 0xF14 => some (match h.id with | .lcore n => BitVec.ofNat 64 n | .roust n => BitVec.ofNat 64 n | .wthread n => BitVec.ofNat 64 n)
  | 0xF15 => some 0
  | _ =>
    if 0x810 ≤ a && a ≤ 0x81F then some (u.zexp.toList.getD (a - 0x810) 0)
    else if 0xCD0 ≤ a && a ≤ 0xCDF then some (s.chanOf (a - 0xCD0)).cwp
    else if (0xC03 ≤ a && a ≤ 0xC1F) || (0xB03 ≤ a && a ≤ 0xB1F) || (0x323 ≤ a && a ≤ 0x33F) then some 0
    else if (0x3A0 ≤ a && a ≤ 0x3AE && a % 2 = 0) || (0x3B0 ≤ a && a ≤ 0x3EF) then some 0
    else none

/-- The registers of a hart with f applied to the supervisor ones. -/
def State.putSup (s : State) (f : Sup → Sup) : State := s.modSup f

/-- The effect of a write on a user CSR. -/
def userPut (a : Nat) (v : Word) (u : User) : User :=
  match a with
  | 0x001 => { u with fflags := v.setWidth 5 }
  | 0x002 => { u with frm := v.setWidth 3 }
  | 0x003 => { u with fflags := v.setWidth 5, frm := v.extractLsb' 5 3 }
  | 0x800 =>
    { u with zfmode := if 6 ≤ (v.extractLsb' 4 3).toNat then (v.setWidth 4).setWidth 7 else v.setWidth 7 }
  | 0x801 => { u with zamax := if 0x7F800000 < (v.setWidth 31).toNat then 0x7F800000 else v.setWidth 31 }
  | 0x802 => { u with zaflags := v.setWidth 3 }
  | 0x803 => { u with zdflags := v.setWidth 7 }
  | 0x804 => { u with zdctl := v.setWidth 1 }
  | 0x806 => { u with zrfvec := v.extractLsb' 1 63 }
  | 0x808 => { u with zsitectl := v.setWidth 2 }
  | _ =>
    if h : 0x810 ≤ a ∧ a ≤ 0x81F then { u with zexp := u.zexp.set (a - 0x810) v (by omega) } else u

/-- The effect of a write on a standard supervisor or machine CSR (RISC-V privileged architecture). [DESIGN CHOICE, log 23: unsafe] -/
def supPut (a : Nat) (v : Word) (c : Sup) : Sup :=
  match a with
  | 0x100 => { c with mstatus := mstatusPut c.mstatus ((c.mstatus &&& ~~~sstatusWrite) ||| (v &&& sstatusWrite)) }
  | 0x104 => { c with mie := (c.mie &&& ~~~c.mideleg) ||| (v &&& c.mideleg &&& irqMask) }
  | 0x105 => { c with stvec := v &&& ~~~2#64 }
  | 0x106 => { c with scounteren := v &&& 7#64 }
  | 0x10A => { c with senvcfg := v &&& 1#64 }
  | 0x140 => { c with sscratch := v }
  | 0x141 => { c with sepc := v &&& ~~~1#64 }
  | 0x142 => { c with scause := v }
  | 0x143 => { c with stval := v }
  | 0x144 => { c with mip := (c.mip &&& ~~~(c.mideleg &&& 0x40002#64)) ||| (v &&& c.mideleg &&& 0x40002#64) }
  | 0x180 => if field v 60 4 = 0 || field v 60 4 = 9 || field v 60 4 = 10 then { c with satp := v } else c
  | 0x300 => { c with mstatus := mstatusPut c.mstatus v }
  | 0x302 => { c with medeleg := v &&& medelegMask }
  | 0x303 => { c with mideleg := v &&& irqMask }
  | 0x304 => { c with mie := v &&& irqMask }
  | 0x305 => { c with mtvec := v &&& ~~~2#64 }
  | 0x306 => { c with mcounteren := v &&& 7#64 }
  | 0x30A => { c with menvcfg := v &&& 1#64 }
  | 0x320 => { c with mcountinhibit := v &&& 5#64 }
  | 0x340 => { c with mscratch := v }
  | 0x341 => { c with mepc := v &&& ~~~1#64 }
  | 0x342 => { c with mcause := v }
  | 0x343 => { c with mtval := v }
  | 0x344 => { c with mip := v &&& 0x40222#64 }
  | _ => c

/-- The effect of a write to an assigned, writable CSR: its own behaviour where the manual gives one. A written mcycle or minstret
holds the value after the instruction that writes it. [DEDUCED, log 24: unsafe] -/
def State.csrPut (s : State) (a : Nat) (v : Word) : State :=
  match a with
  | 0x805 => s.writeZpack v
  | 0x807 => s.writeZseed v
  | 0x5C1 => s.writeZrbt v
  | 0x5C2 => s.writeZwfq v
  | 0x5C3 => s.writeZemq v
  | 0x5C4 => s.writeZpark v
  | 0x5C5 => s.writeZage v
  | 0x5C6 => s.writeZbankrole v
  | 0x5C7 => s.writeZwidth v
  | 0x5C8 => s.writeZhotl v
  | 0xB00 => { s with hart := { s.hart with cycle := v } }
  | 0xB02 => { s with hart := { s.hart with instret := if s.hart.sup.mcountinhibit.getLsbD 2 then v else v - 1 } }
  | _ => if a / 256 % 4 = 0 then s.modU (userPut a v) else s.modSup (supPut a v)

/-! ## Accesses -/

/-- A U-level CSR of a RISC-V extension outside the profile: V, Zkr, Zcmt, Zicfiss. [DEDUCED, log 49: unsafe] -/
def extensionCsr (a : Nat) : Bool :=
  (0x008 ≤ a && a ≤ 0x00A) || a == 0x00F || a == 0x011 || a == 0x015 || a == 0x017 || (0xC20 ≤ a && a ≤ 0xC22)

/-- A CSR access whose cause 2 is emulation-eligible (R132). [DEDUCED, log 49: unsafe] -/
def csrEligible (s : State) (a : Nat) (writes : Bool) : Bool :=
  s.hart.sup.mode == .u && a / 256 % 4 == 0 && !(writes && a / 1024 == 3) &&
  ((0x800 ≤ a && a ≤ 0x8FF) || (0xCC0 ≤ a && a ≤ 0xCFF) || extensionCsr a)

/-- The counters that mcounteren and scounteren gate. [DEDUCED, log 24: unsafe] -/
def counterOk (s : State) (a : Nat) : Bool :=
  if 0xC00 ≤ a && a ≤ 0xC02 then
    let n := a - 0xC00
    match s.hart.sup.mode with
    | .m => true
    | .s => s.hart.sup.mcounteren.getLsbD n
    | .u => s.hart.sup.mcounteren.getLsbD n && s.hart.sup.scounteren.getLsbD n
  else true

/-- The floating-point CSRs and instructions need mstatus.FS other than 0. [DEDUCED, log 22: unsafe] -/
def fsOn (s : State) : Bool := field s.hart.sup.mstatus 13 2 != 0

/-- S-mode may not reach satp while TVM is set. -/
def satpOk (s : State) (a : Nat) : Bool :=
  !(a == 0x180 && s.hart.sup.mode == .s && s.hart.sup.mstatus.getLsbD 20)

/-- The checks of a CSR access (R134): the privilege, the firmware CSRs, the read-only addresses, the unassigned ones. A write from
S-mode to a counter beyond the three is ignored (R118), and so is no breach. The word is that of the instruction.
[DEDUCED, log 22: unsafe] -/
def csrCheck (w : BitVec 32) (a : Nat) (writes : Bool) : M Unit := fun s =>
  let e : Exc :=
    if csrEligible s a writes then
      .illegal { reason := .unassigned, word := w, pfx := (match s.pfx with | some p => p.word | none => 0), cls := 28, eligible := true,
                 len := 4 }
    else .trap 2 (illegalTval w s)
  if s.hart.sup.mode.level < a / 256 % 4 then .error (.trap 2 (illegalTval w s)) s
  else if 0x7C0 ≤ a && a ≤ 0x7FF then .error (.stop (.firmwareCsr a)) s
  else if (s.csrVal a).isNone then .error e s
  else if writes && a / 1024 == 3 && !(s.hart.sup.mode == .s && 0xC03 ≤ a && a ≤ 0xC1F) then .error e s
  else if writes && a == 0x5C0 then .error e s
  else if !counterOk s a || !satpOk s a || (1 ≤ a && a ≤ 3 && !fsOn s) then .error e s
  else .ok () s

/-- A CSR instruction: the old value to rd, the new value written where the instruction writes (Zicsr). [DESIGN CHOICE, log 25: safe] -/
def csrAccess (w : BitVec 32) (op : CsrOp) (rd : XReg) (operand : Word) (writes : Bool) (addr : BitVec 12) : M Unit := do
  let a := addr.toNat
  csrCheck w a writes
  let s ← get
  let old := (s.csrVal a).getD 0
  let new := match op with | .rw => operand | .rs => old ||| operand | .rc => old &&& ~~~operand
  let base := if a == 0x344 || a == 0x144 then (match op with
    | .rw => operand
    | .rs => s.hart.sup.mip ||| operand
    | .rc => s.hart.sup.mip &&& ~~~operand) else new
  modify fun s => if writes && a / 1024 != 3 then s.csrPut a base else s
  modify fun s => (if 0xCD0 ≤ a && a ≤ 0xCDF then s.sawChan (engineOf s.hart) (a - 0xCD0) (s.chanOf (a - 0xCD0)) fun _ => true else s).wx rd old

end Sys2Proof.Machine
end

