-- ==== Sys2Proof/Machine/Base.lean ====
section
/-! DEFINITION. Sys2Proof/Machine/Base.lean: the instructions of the RISC-V base profile (R2, R118, R119) under the device's choices. -/
namespace Sys2Proof.Machine

open Host (Outcome)

/-- The instruction retires: c is its 16-bit encoding when it is one. -/
def retireM (c : Option (BitVec 16) := none) : M Unit := modify fun s => s.retire c

/-- The effect f, then retirement. -/
def effectM (f : State → State) (c : Option (BitVec 16) := none) : M Unit := modify fun s => (f s).retire c

/-- A lane at the W-site may stall on an operand from memory, which ends its group (R49): a choice the manual leaves to timing.
[DESIGN CHOICE, log 29: safe] -/
def State.mayStall (s : State) : State :=
  match s.hart.car with
  | none => s
  | some _ => let (n, s1) := s.fresh; s1.modMyGroup fun g => { g with ending := g.ending || Config.freeBool n }

/-- The effect f of an instruction that has an operand from memory, then retirement (R49). [DESIGN CHOICE, log 29: safe] -/
abbrev effectMem (f : State → State) (c : Option (BitVec 16) := none) : M Unit := effectM (fun s => (f s).mayStall) c

/-! ## Control transfer -/

/-- A jump: the link register, the re-binning point, the target (R49, R124). -/
def State.jump (s : State) (c : Option (BitVec 16)) (rd : XReg) (target : Word) : State :=
  ((s.wx rd (s.pc + s.ilen c)).rebin).retireTo target

/-- A conditional branch: taken, it is a re-binning point (R49). -/
def State.branch (s : State) (c : Option (BitVec 16)) (taken : Bool) (off : BitVec 12) : State :=
  if taken then s.rebin.retireTo (s.pc + (off ++ 0#1).signExtend 64) else s.retire c

/-! ## Privileged instructions -/

/-- Cause 2 unless the condition holds; such a cause 2 is not emulation-eligible (R132). -/
def needPriv (w : BitVec 32) (ok : State → Bool) : M Unit := fun s => if ok s then .ok () s else raiseIllegal w s

/-- The cause of ECALL in a mode. -/
def ecallCause : Mode → Nat
  | .u => 8 | .s => 9 | .m => 11

/-- ECALL and EBREAK are ordering points; then the trap (R66, R300). -/
def trapInstr (cause : State → Nat) : M Unit := do
  orderingPoint
  let s ← get
  throw (.trap (cause s) 0)

/-- SRET is legal in S-mode without TSR and in M-mode. -/
def sretOk (s : State) : Bool := s.hart.sup.mode == .m || (s.hart.sup.mode == .s && !s.hart.sup.mstatus.getLsbD 22)

/-- WFI is legal in M-mode, and in S-mode without TW (R118). [DEDUCED, log 26: safe] -/
def wfiOk (s : State) : Bool := s.hart.sup.mode == .m || (s.hart.sup.mode == .s && !s.hart.sup.mstatus.getLsbD 21)

/-- SFENCE.VMA is legal in M-mode, and in S-mode without TVM. -/
def sfenceOk (s : State) : Bool := s.hart.sup.mode == .m || (s.hart.sup.mode == .s && !s.hart.sup.mstatus.getLsbD 20)

/-- A return from a trap: the registers as the return leaves them, and the pc it leaves. [DEDUCED, log 89: unsafe] -/
def State.trapReturn (s : State) (f : Hart → Hart) : State :=
  let t : State := State.chooseHome { s with hart := f s.hart }
  t.retireTo t.pc

/-! ## Atomics (R66, R77, R118) -/

/-- The physical address of a reserved or conditional access, with the thread's private bytes of the span brought home. A poisoned word faults
the access that loads it; one that stores follows the rule of a write (R77, R333). -/
def resvAddr (acc : Acc) (va : Word) (n : Nat) : M Nat := fun s =>
  match windowOff va with
  | some _ => match s.site with | .w => .error (.trap 7 va) s | .l => .error .siteTrap s
  | none =>
    match locate acc (xmodeOf s.hart acc) va n s with
    | (.error c, s1) => .error (loadFault c (if acc = .load then 0 else 2) va s1) s1
    | (.ok pa, s1) =>
      let s2 := s1.bringHome va pa n
      if acc = .load && s1.poisoned pa n && s2.poisoned pa n then .error (.trap 5 va) s1 else .ok pa s2

/-- LR: the old value; the line is reserved (R118). [DEDUCED, log 27: unsafe; DEDUCED, log 28: unsafe; DEDUCED, log 91: unsafe] -/
def lrM (dbl : Bool) (rd rs1 : XReg) : M Unit := do
  let n := if dbl then 8 else 4
  let va := (← get).rx rs1
  if va.toNat % n ≠ 0 then throw (.trap 4 va)
  stallDrain
  let pa ← resvAddr .load va n
  modify fun s => ({ s with hart := { s.hart with resv := some (pa / 128) } } : State).wx rd (atomExtend dbl (leNat (s.bytes pa n)))

/-- SC: 0 and the store when the reservation holds the line, 1 otherwise; the reservation is gone either way (R118).
[DEDUCED, log 27: unsafe; DEDUCED, log 28: unsafe; DEDUCED, log 91: unsafe] -/
def scM (dbl : Bool) (rd rs1 rs2 : XReg) : M Unit := do
  let n := if dbl then 8 else 4
  let s0 ← get
  let va := s0.rx rs1
  if va.toNat % n ≠ 0 then throw (.trap 6 va)
  stallDrain
  let pa ← resvAddr .store va n
  modify fun s =>
    let held := s.hart.resv == some (pa / 128)
    let s1 := if held then (s.store pa (natLe n (s0.rx rs2).toNat)).noteAtomic va else s
    ({ s1 with hart := { s1.hart with resv := none } }).wx rd (if held then 0 else 1)

/-- An AMO: with a destination the old value; with rd = x0 a store that may be mended (R64, R65, R66). -/
def amoM (op : AmoOp) (dbl : Bool) (rd rs1 rs2 : XReg) : M Unit := do
  let n := if dbl then 8 else 4
  let s ← get
  let va := s.rx rs1
  let v := (s.rx rs2).toNat % 2 ^ (8 * n)
  if va.toNat % n ≠ 0 then throw (.trap 6 va)
  if rd = 0#5 then atomicNoDest va n (fun old => amoOf op n old v) (.amo op) v
  else do
    let old ← atomicDest va n (fun old => amoOf op n old v)
    modify fun s => (s.wx rd (atomExtend dbl old)).mayStall

/-! ## F and D -/

/-- The format of a code. -/
def formatOf : Fmt → Fmt2
  | .s => fp32 | .d => fp64

/-- An operand of a format, after DAZ32 for single precision (R96, R107). -/
def State.fval (s : State) (fmt : Fmt) (r : FReg) : Fp :=
  match fmt with
  | .s => s.valS r
  | .d => s.valD r

/-- The code of an operand, unaltered. -/
def State.fcode (s : State) (fmt : Fmt) (r : FReg) : Nat :=
  match fmt with
  | .s => s.fs r
  | .d => s.fd r

/-- A code as the register holds it. -/
def boxOf (fmt : Fmt) (b : Nat) : Word :=
  match fmt with
  | .s => nanBox b
  | .d => BitVec.ofNat 64 b

/-- FTZ32 for a single-precision result (R107). [DEDUCED, log 13: unsafe] -/
def State.ftz (s : State) (fmt : Fmt) : Bool := fmt == .s && s.hart.u.ftz32

/-- A result written with its flags (R96, R105). -/
def State.putF (s : State) (fmt : Fmt) (rd : FReg) (r : FRes) : State := (s.wf rd (boxOf fmt r.bits)).accrue r.flags

/-- F and D instructions need mstatus.FS on. [DEDUCED, log 22: unsafe] -/
def needFs (w : BitVec 32) : M Unit := needPriv w fsOn

/-- The bounds of an integer type. -/
def intBounds : IntTy → Int × Int
  | .w => (-2 ^ 31, 2 ^ 31 - 1) | .wu => (0, 2 ^ 32 - 1) | .l => (-2 ^ 63, 2 ^ 63 - 1) | .lu => (0, 2 ^ 64 - 1)

/-- An integer of a type as an x register holds it: 32-bit results are sign-extended. -/
def intWord (t : IntTy) (v : Int) : Word :=
  match t with
  | .w | .wu => sx32 (BitVec.ofInt 32 v)
  | .l | .lu => BitVec.ofInt 64 v

/-- The integer that an x register holds as a type. -/
def wordInt (t : IntTy) (v : Word) : Int :=
  match t with
  | .w => (lo32 v).toInt
  | .wu => (lo32 v).toNat
  | .l => v.toInt
  | .lu => v.toNat

/-- The result of an arithmetic operation. [DEDUCED, log 89: unsafe] -/
def farithOf (op : FArithOp) (t : Fmt2) (rm : Rnd) (ftz : Bool) (x y : Fp) : FRes :=
  match op with
  | .add => fpAdd t rm ftz x y
  | .sub => fpSub t rm ftz x y
  | .mul => fpMul t rm ftz x y
  | .div => fpDiv t rm ftz x y

/-- The result of a fused multiply-add. -/
def fmaOf (op : FmaOp) (t : Fmt2) (rm : Rnd) (ftz : Bool) (x y z : Fp) : FRes :=
  match op with
  | .madd => fpFma t rm ftz x y z
  | .msub => fpFma t rm ftz x y z.flip
  | .nmsub => fpFma t rm ftz x.flip y z
  | .nmadd => fpFma t rm ftz x.flip y z.flip

/-- A sign injection on codes. -/
def fsgnOf (op : FSgnOp) (t : Fmt2) (a b : Nat) : Nat :=
  let sa := (a / t.signBit) % 2
  let sb := (b / t.signBit) % 2
  let mag := a % t.signBit
  let s := match op with | .sgnj => sb | .sgnjn => 1 - sb | .sgnjx => (sa + sb) % 2
  s * t.signBit + mag

/-- A compare and its flags: FEQ is quiet, FLT and FLE signal. [DEDUCED, log 89: unsafe] -/
def fcmpOf (op : FCmpOp) (x y : Fp) : Bool × BitVec 5 :=
  let anyNan := x.isNan || y.isNan
  let anySnan := x.isSnan || y.isSnan
  match op with
  | .eq => (fpEq x y, if anySnan then flagNV else 0)
  | .lt => (!anyNan && fpLt x y, if anyNan then flagNV else 0)
  | .le => (!anyNan && (fpLt x y || fpEq x y), if anyNan then flagNV else 0)

/-- FCLASS of a code. -/
def fclassOf (t : Fmt2) (b : Nat) : Nat :=
  match unpack t b with
  | .inf true => 0
  | .inf false => 7
  | .zero true => 3
  | .zero false => 4
  | .nan true => 8
  | .nan false => 9
  | .fin s m e =>
    let sub := e = t.qmin && m < 2 ^ t.fw
    if s then (if sub then 2 else 1) else (if sub then 5 else 6)

/-- The code of an operand of FMIN and FMAX: a subnormal is zero under DAZ32 (R107). -/
def State.dazCode (s : State) (fmt : Fmt) (b : Nat) : Nat :=
  match fmt with
  | .s => if s.hart.u.daz32 && b % fp32.signBit < 2 ^ fp32.fw then b / fp32.signBit * fp32.signBit else b
  | .d => b

/-! ## The instructions -/

/-- The meaning of each base instruction, its word w and its 16-bit encoding c given. [DEDUCED, log 89: unsafe] -/
def baseM (w : BitVec 32) (c : Option (BitVec 16)) : BaseInstr → M Unit
  | .lui rd i => effectM (fun s => s.wx rd ((i ++ 0#12).signExtend 64)) c
  | .auipc rd i => effectM (fun s => s.wx rd (s.pc + (i ++ 0#12).signExtend 64)) c
  | .jal rd off => modify fun s => s.jump c rd (s.pc + (off ++ 0#1).signExtend 64)
  | .jalr rd rs1 i => modify fun s => s.jump c rd ((s.rx rs1 + i.signExtend 64) &&& ~~~1#64)
  | .branch op rs1 rs2 off => modify fun s => s.branch c (branchTaken op (s.rx rs1) (s.rx rs2)) off
  | .load op rd rs1 i => do
    let va := (← get).rx rs1 + i.signExtend 64
    let v ← loadScalar va (loadSize op)
    effectMem (fun s => s.wx rd (loadExtend op v)) c
  | .store op rs1 rs2 i => do
    let s ← get
    storeScalar (s.rx rs1 + i.signExtend 64) (storeSize op) (s.rx rs2)
    retireM c
  | .imm op rd rs1 i => effectM (fun s => s.wx rd (immOf op (s.rx rs1) i)) c
  | .shift op rd rs1 sh => effectM (fun s => s.wx rd (shiftOf op (s.rx rs1) sh.toNat)) c
  | .shiftW op rd rs1 sh => effectM (fun s => s.wx rd (shiftWOf op (s.rx rs1) sh.toNat)) c
  | .unary op rd rs1 => effectM (fun s => s.wx rd (unaryOf op (s.rx rs1))) c
  | .alu op rd rs1 rs2 => effectM (fun s => s.wx rd (aluOf op (s.rx rs1) (s.rx rs2))) c
  | .fence _ _ => do
    orderingPoint
    retireM c
  | .fenceTso => do
    orderingPoint
    retireM c
  | .fenceI => do
    orderingPoint
    retireM c
  | .ecall => trapInstr fun s => ecallCause s.hart.sup.mode
  | .ebreak => trapInstr fun _ => 3
  | .sret => do
    needPriv w sretOk
    modify fun s => s.trapReturn returnS
  | .mret => do
    needPriv w fun s => s.hart.sup.mode == .m
    modify fun s => s.trapReturn returnM
  | .wfi => do
    needPriv w wfiOk
    retireM c
  | .sfenceVma _ _ => do
    needPriv w sfenceOk
    retireM c
  | .csr op rd rs1 addr => do
    let s ← get
    csrAccess w op rd (s.rx rs1) (op == .rw || rs1 != 0#5) addr
    retireM c
  | .csrImm op rd i addr => do
    csrAccess w op rd (i.setWidth 64) (op == .rw || i != 0#5) addr
    retireM c
  | .lr dbl _ _ rd rs1 => do
    lrM dbl rd rs1
    effectMem id c
  | .sc dbl _ _ rd rs1 rs2 => do
    scM dbl rd rs1 rs2
    effectMem id c
  | .amo op dbl _ _ rd rs1 rs2 => do
    amoM op dbl rd rs1 rs2
    retireM c
  | .fload fmt rd rs1 i => do
    needFs w
    let va := (← get).rx rs1 + i.signExtend 64
    let v ← loadScalar va (match fmt with | .s => 4 | .d => 8)
    effectMem (fun s => s.wf rd (boxOf fmt v.toNat)) c
  | .fstore fmt rs1 rs2 i => do
    needFs w
    let s ← get
    storeScalar (s.rx rs1 + i.signExtend 64) (match fmt with | .s => 4 | .d => 8) (s.rf rs2)
    retireM c
  | .fma op fmt rd rs1 rs2 rs3 rm => do
    needFs w
    let r ← withRnd w (some rm)
    effectM (fun s =>
      s.putF fmt rd (fmaOf op (formatOf fmt) r (s.ftz fmt) (s.fval fmt rs1) (s.fval fmt rs2) (s.fval fmt rs3))) c
  | .farith op fmt rd rs1 rs2 rm => do
    needFs w
    let r ← withRnd w (some rm)
    effectM (fun s => s.putF fmt rd (farithOf op (formatOf fmt) r (s.ftz fmt) (s.fval fmt rs1) (s.fval fmt rs2))) c
  | .fsqrt fmt rd rs1 rm => do
    needFs w
    let r ← withRnd w (some rm)
    effectM (fun s => s.putF fmt rd (fpSqrt (formatOf fmt) r (s.ftz fmt) (s.fval fmt rs1))) c
  | .fsgn op fmt rd rs1 rs2 => do
    needFs w
    effectM (fun s => s.wf rd (boxOf fmt (fsgnOf op (formatOf fmt) (s.fcode fmt rs1) (s.fcode fmt rs2)))) c
  | .fminmax isMax fmt rd rs1 rs2 => do
    needFs w
    effectM (fun s =>
      let a := s.dazCode fmt (s.fcode fmt rs1)
      let b := s.dazCode fmt (s.fcode fmt rs2)
      s.putF fmt rd (fpMinMax (formatOf fmt) isMax a b (unpack (formatOf fmt) a) (unpack (formatOf fmt) b))) c
  | .fcmp op fmt rd rs1 rs2 => do
    needFs w
    effectM (fun s => let r := fcmpOf op (s.fval fmt rs1) (s.fval fmt rs2); (s.wx rd (flagWord r.1)).accrue r.2) c
  | .fclass fmt rd rs1 => do
    needFs w
    effectM (fun s => s.wx rd (1#64 <<< fclassOf (formatOf fmt) (s.fcode fmt rs1))) c
  | .fmvToX fmt rd rs1 => do
    needFs w
    effectM (fun s => s.wx rd (match fmt with | .s => sx32 (lo32 (s.rf rs1)) | .d => s.rf rs1)) c
  | .fmvFromX fmt rd rs1 => do
    needFs w
    effectM (fun s => s.wf rd (match fmt with | .s => nanBox (lo32 (s.rx rs1)).toNat | .d => s.rx rs1)) c
  | .fcvtToInt ty fmt rd rs1 rm => do
    needFs w
    let r ← withRnd w (some rm)
    effectM (fun s =>
      let v := fpToInt r (intBounds ty).1 (intBounds ty).2 (s.fval fmt rs1)
      (s.wx rd (intWord ty v.1)).accrue v.2) c
  | .fcvtFromInt ty fmt rd rs1 rm => do
    needFs w
    let r ← withRnd w (some rm)
    effectM (fun s => s.putF fmt rd (intToFp (formatOf fmt) r (s.ftz fmt) (wordInt ty (s.rx rs1)))) c
  | .fcvtSD rd rs1 rm => do
    needFs w
    let r ← withRnd w (some rm)
    effectM (fun s => s.putF .s rd (roundFp fp32 r (s.ftz .s) (s.valD rs1))) c
  | .fcvtDS rd rs1 rm => do
    needFs w
    let r ← withRnd w (some rm)
    effectM (fun s => s.putF .d rd (roundFp fp64 r false (s.valS rs1))) c

/-- A standard instruction of the base profile (R118). [DEDUCED, log 26: safe; DEDUCED, log 89: unsafe] -/
def execBase (c : Option (BitVec 16)) (i : BaseInstr) (s : State) : Outcome State Fault Refusal :=
  finish (instrWord (.base c i)) (baseM (instrWord (.base c i)) c i) s

end Sys2Proof.Machine
end

