-- ==== Sys2Proof/Machine/Threads.lean ====
section
/-! DEFINITION. Sys2Proof/Machine/Threads.lean: migration, group control, team membership, team barriers, predicates and JTAB
(R146 to R159, R168 to R176), and the site check of the W-only instructions (R35). -/
namespace Sys2Proof.Machine

open Host (Outcome)

/-! ## Sites and migration (R20, R30 to R36) -/

/-- The W-core of the current L-core's thread: the one that its waiting migration has chosen, while the partition holds it, else the choice
of R31. -/
def State.chosenDest (s : State) : Option Nat := (s.hart.chosen.filter fun w => s.part.wcoreNums.contains w).or (s.destOf s.who)

/-- An L-core's thread may depart for a W-core: the chosen one can take it, and the DEPART record has room (R31, R308).
[DEDUCED, log 44: unsafe] -/
def State.departure (s : State) : Option Nat :=
  match s.chosenDest with
  | some w => if s.canTake w && s.wfqRoom then some w else none
  | none => none

/-- A migration of the current L-core's thread to the W-site, explicit (the pc passes the instruction, HOLD is cleared) or implicit:
the fence of R30, the choice of R31, the departure of R33. [DEDUCED, log 44: unsafe] -/
def goW (implicitly : Bool) : M Unit := do
  orderingPoint
  let s ← get
  match s.departure with
  | none => do
    set ({ s with hart := { s.hart with chosen := s.chosenDest } } : State)
    throw (.wait .migrate)
  | some w => do
    let s1 := s.modU fun u => { (if implicitly then u else u.clearHold) with home := .w }
    set ((if implicitly then s1 else s1.retire).departToW w (if implicitly then s.pc else s.pc + s.ilen none))
    throw .done

/-- The site check of a W-only instruction (R35): at the W-site it goes on; at the L-site it is cause 24, or the implicit MIGR.W. -/
def needWSite : M Unit := fun s =>
  match s.site with
  | .w => .ok () s
  | .l =>
    if s.hart.installed.isSome && s.hart.u.zsitectl.getLsbD 0 then goW true s else .error .siteTrap s

/-- MIGR.W (R147): at the L-site cause 24 without an installed thread (R305), else the migration; at the W-site the home site, the fence
and a re-binning point (R32). [DEDUCED, log 44: unsafe] -/
def execMigrW (s : State) : Outcome State Fault Refusal :=
  finish (instrWord .migrW) (do
    let s ← get
    match s.site with
    | .l => if s.hart.installed.isNone then throw .siteTrap else goW false
    | .w => do
      orderingPoint
      effectM fun s => (s.modU fun u => { u.clearHold with home := .w }).rebin) s

/-- The migration of MIGR.L by the current W-site thread, whose instruction has the length len (R20, R30, R147). -/
def State.leaveHome (s : State) (len : Word) : State :=
  ((s.modU fun u => { u.clearHold with home := .l }).retireTo (s.pc + len)).departToL (s.pc + len) none none

/-- MIGR.L (R147): at the W-site the thread is absent from its set from here on, waits for its drain, and migrates; at the L-site the home
site and the fence (R32). -/
def execMigrL (s : State) : Outcome State Fault Refusal :=
  finish (instrWord .migrL) (do
    let s ← get
    if s.site = .w && !s.myMends.isEmpty then throw (.wait (.leave (s.ilen none).toNat))
    orderingPoint
    let s ← get
    match s.site with
    | .l => set (s.modU fun u => { u.clearHold with home := .l }).retire
    | .w => do
      set (s.leaveHome (s.ilen none))
      throw .done) s

/-! ## Group control (R148 to R150) -/

/-- The membership record of the current thread with f applied. -/
def State.modMember (s : State) (f : Member → Member) : State :=
  s.modPart fun p => { p with members := adjust (fun m => m.who == s.who) f p.members }

/-- REFORM: at the W-site a re-binning point that clears the detached state; at the L-site nothing (R35, R148). -/
def execReform (s : State) : Outcome State Fault Refusal :=
  match s.site with
  | .l => .next s.retire
  | .w => .next (s.modMember fun m => { m with detached := false }).rebin.retire

/-- GLEAVE: at the W-site the detached state and a re-binning point; at the L-site nothing (R35, R149). -/
def execGleave (s : State) : Outcome State Fault Refusal :=
  match s.site with
  | .l => .next s.retire
  | .w => .next (s.modMember fun m => { m with detached := true }).rebin.retire

/-- GYIELD: at the W-site a re-binning point with the wait reset, and no draw in the next A-clock; at the L-site nothing (R35, R150). -/
def execGyield (s : State) : Outcome State Fault Refusal :=
  match s.site with
  | .l => .next s.retire
  | .w => .next ((s.modCar fun c => { c with waited := 0, entered := s.pkg.zaclk.toNat, skip := some (s.pkg.zaclk.toNat + 1) }).rebin.retire)

/-! ## Team membership (R151 to R153) -/

/-- The members of a team. -/
def State.teamMembers (s : State) (t : BitVec 16) : List Member := s.part.members.filter fun m => m.team == t

/-- The lowest rank of 4,096 that no member of a list holds, from rank k on. -/
def lowestFree (ms : List Member) : Nat → Nat → Option Nat
  | 0, _ => none
  | n + 1, k => if ms.any fun m => m.rank.toNat == k then lowestFree ms n (k + 1) else some k

/-- A member has arrived in a phase of barrier i. -/
def Member.arrived (m : Member) (i : Fin 16) (phase : BitVec 32) : Bool := m.pending.getLsbD i && m.phase[i] == phase

/-- The members that a phase of barrier i of a team waits for. One that joined in this A-clock is not yet expected, for its join comes after
the clock's withdrawals and arrivals, unless it has arrived itself (R155, R157). -/
def State.expected (s : State) (t : BitVec 16) (i : Fin 16) (phase : BitVec 32) : Nat :=
  ((s.teamMembers t).filter fun m => m.since != s.pkg.zaclk || m.arrived i phase).length

/-- Barriers of a team whose phase is complete advance: M at least 1 and C at least M (R155). -/
def State.completeBars (s : State) (t : BitVec 16) : State :=
  s.modPart fun p =>
    { p with
      teams := adjust (fun x => x.num == t)
        (fun x =>
          { x with
            bars := Vector.ofFn fun i : Fin 16 =>
              let b := x.bars[i]
              let m := s.expected t i b.phase
              if 1 ≤ m && m ≤ b.count then { b with phase := b.phase + 1, count := 0 } else b }) p.teams }

/-- The judgement of a TJOIN that moves nothing: −5, −4, −1, in that order (R151). -/
def tjoinEarly (s : State) (v : Word) : Option Word :=
  if field v 29 35 ≠ 0 then some (-5)
  else if (s.memberOf s.who).isSome then some (-4)
  else if field v 0 16 = 0 || (s.team? (v.setWidth 16)).isNone then some (-1)
  else none

/-- The rank that a TJOIN gives, or −2 or −3 (R151). -/
def tjoinRank (s : State) (v : Word) : Except Word Nat :=
  let ms := s.teamMembers (v.setWidth 16)
  if 4096 ≤ ms.length then .error (-2)
  else if v.getLsbD 28 then (match lowestFree ms 4096 0 with | some r => .ok r | none => .error (-2))
  else if ms.any fun m => m.rank.toNat == field v 16 12 then .error (-3)
  else .ok (field v 16 12)

/-- The membership of the current thread in a team with a rank: no pending arrival, not detached. At the W-site the clean granules of the team's
windows are discarded, as at its arrival there (R86): a byte of them may be older than a write that is visible to the thread, which loads
through the windows from now on (R74, R75, R151, R153, R155). [DESIGN CHOICE, log 41: unsafe] -/
def State.joined (s : State) (team : BitVec 16) (rank : Nat) : State :=
  (if s.site = .w then s.dropGranules team fun _ _ => true else s).modPart fun p =>
    { p with members := p.members ++ [⟨s.who, team, BitVec.ofNat 12 rank, false, 0, Vector.replicate 16 0, s.pkg.zaclk⟩] }

/-- The current thread moves from its W-core to another, its pc standing (R151). -/
def State.moveToW (s : State) (w : Nat) : State :=
  match s.hart.id, s.hart.car with
  | .wthread ctx, some c =>
    let s1 := s.leaveGroup ctx c.core false
    let th : Hart := { s1.hart with car := none, wait := none, resume := none, resv := none, watch := none }
    (s1.modPart fun p => { p with transit := p.transit ++ [⟨ctx, th, some w, c.core, none, none⟩] }).dropCurrent
  | _, _ => s

/-- TJOIN (R151, R153). -/
def execTjoin (d : BitVec 5) (a : BitVec 5) (s : State) : Outcome State Fault Refusal :=
  finish (instrWord (.tjoin d a)) (do
    orderingPoint
    let s ← get
    let v := s.rx a
    match tjoinEarly s v with
    | some e => effectM fun s => (s.wx d e).rebin
    | none => do
      match s.hart.car, (s.team? (v.setWidth 16)).map Team.wcore with
      | some c, some w =>
        if c.core ≠ w then
          if s.part.wcoreNums.contains w && s.entriesOn w < 4096 then do
            set (s.moveToW w)
            throw .done
          else throw (.wait (.teamMove w))
      | _, _ => pure ()
      match tjoinRank s v with
      | .error e => effectM fun s => (s.wx d e).rebin
      | .ok r => effectM fun s => ((s.joined (v.setWidth 16) r).wx d (BitVec.ofNat 64 r)).rebin) s

/-- A member of a team leaves it: its arrivals in incomplete phases, and those of this A-clock, are withdrawn, and phases complete that waited
for it alone (R152, R157). -/
def State.left (s : State) (m : Member) : State :=
  let s1 := s.modPart fun p =>
    { p with
      members := p.members.filter fun x => x.who != m.who
      teams := adjust (fun x => x.num == m.team)
        (fun x =>
          { x with
            bars := Vector.ofFn fun i : Fin 16 =>
              let b := x.bars[i]
              { b with
                count := if m.arrived i b.phase then b.count - 1 else b.count
                arriving := b.arriving.filter (· != m.who) } })
        p.teams }
  s1.completeBars m.team

/-- A thread at the W-site that leaves its team has the dirty bytes of the team's windows written back, as one that departs has (R86): they
reach memory before it loads there itself, and no release of its own would carry them any more (R73, R75, R152, R153).
[DESIGN CHOICE, log 41: unsafe] -/
def State.flushLeaver (s : State) (m : Member) : State :=
  match s.site with
  | .w => s.flushWindows m.team fun _ => true
  | .l => s

/-- TLEAVE (R152, R153). -/
def execTleave (d : BitVec 5) (s : State) : Outcome State Fault Refusal :=
  finish (instrWord (.tleave d)) (do
    orderingPoint
    let s ← get
    match s.memberOf s.who with
    | none => effectM fun s => (s.wx d (-1)).rebin
    | some m => effectM fun s => (((s.flushLeaver m).left m).wx d (m.rank.setWidth 64)).rebin) s

/-! ## Team barriers (R154 to R159) -/

/-- What a thread knows of a team barrier: its pending bit, its arrival phase, the barrier, whether its arrival falls in this A-clock. -/
structure BarView where
  pending : Bool
  mine : BitVec 32
  bar : TeamBar
  arriving : Bool
  deriving DecidableEq, Repr

/-- The view of a thread on barrier n of its team. -/
def State.barView (s : State) (who : HartId) (n : BitVec 4) : Option BarView :=
  match s.memberOf who with
  | none => none
  | some m =>
    (s.team? m.team).map fun t =>
      let b := t.bars[n.toNat]'n.isLt
      ⟨m.pending.getLsbD n.toNat, m.phase[n.toNat]'n.isLt, b, b.arriving.contains who⟩

/-- The thread's pending phase has completed (R155). -/
def BarView.complete (b : BarView) : Bool := b.pending && b.mine != b.bar.phase && !b.arriving

/-- A WAIT of the thread returns: it has no arrival that is still to be counted or whose phase is incomplete (R156). -/
def BarView.passes (b : BarView) : Bool := !b.arriving && (!b.pending || b.mine != b.bar.phase)

/-- The pending bit of the current thread for barrier n (R156). -/
def State.setPending (s : State) (n : BitVec 4) (v : Bool) : State :=
  s.modMember fun m => { m with pending := if v then m.pending ||| (1#16 <<< n.toNat) else m.pending &&& ~~~(1#16 <<< n.toNat) }

/-- Barrier i of a team with f applied. -/
def State.modBar (s : State) (team : BitVec 16) (i : Fin 16) (f : TeamBar → TeamBar) : State :=
  s.modPart fun p => { p with teams := adjust (fun x => x.num == team) (fun x => { x with bars := x.bars.set i (f x.bars[i]) }) p.teams }

/-- The current thread arrives on barrier n of its team in this A-clock, once (R156, R157). -/
def State.arriveBar (s : State) (n : BitVec 4) : State :=
  s.modBar s.myTeam n.toFin fun b => { b with arriving := insertNew s.who b.arriving }

/-- The current thread's own dirty bytes of its team's windows, by their virtual addresses, written back: they are stores that its arrival
performs, and the waiters read them through the windows (R84, R158). [DESIGN CHOICE, log 41: unsafe] -/
def State.homeWindows (s : State) : State :=
  match s.team? s.myTeam with
  | some t =>
    s.writeBack fun b => b.who == s.who && t.windows.any fun w => w.asid == b.asid && w.base.toNat ≤ b.va && b.va < w.base.toNat + w.len
  | none => s

/-- An arrival of a member on barrier i, its completion checked: none while its arrival in the incomplete phase is pending (R156). -/
def State.applyArrival (t : BitVec 16) (i : Fin 16) (s : State) (who : HartId) : State :=
  match s.memberOf who, s.team? t with
  | some m, some x =>
    let b := x.bars[i]
    if m.team != t || m.arrived i b.phase then s
    else
      ((s.modPart fun p =>
        { p with
          members := adjust (fun y => y.who == who)
            (fun y => { y with pending := y.pending ||| (1#16 <<< i.val), phase := y.phase.set i b.phase }) p.members }).modBar t i fun b =>
        { b with count := b.count + 1 }).completeBars t
  | _, _ => s

/-- The arrivals of the A-clock on barrier i of a team applied, in ascending rank (R157). -/
def State.applyArrivals (t : BitVec 16) (s : State) (i : Fin 16) : State :=
  match s.team? t with
  | some x =>
    let rank (who : HartId) : Nat := match s.memberOf who with | some m => m.rank.toNat | none => 0
    (sortOn (fun who => [rank who]) x.bars[i].arriving).foldl (State.applyArrival t i) (s.modBar t i fun b => { b with arriving := [] })
  | none => s

/-- The barrier events that an A-clock leaves to its end: the arrivals on every barrier of every team (R157). -/
def State.barClock (s : State) : State :=
  s.part.teams.foldl (fun (u : State) x =>
    if x.bars.toList.all fun b => b.arriving.isEmpty then u else (List.finRange 16).foldl (State.applyArrivals x.num) u) s

/-- The wait of WAIT and SYNC: it ends when the pending phase has completed (R156). -/
def barrierWait (n : BitVec 4) : M Unit := do
  let s ← get
  match s.barView s.who n with
  | some b => if b.passes then set (if b.pending then s.setPending n false else s) else throw (.wait (.tbar n))
  | none => pure ()

/-- TBAR.ARR: the arrival counts at the end of the A-clock, where a pending one of an incomplete phase has no effect (R156 to R158). -/
def execTbarArr (n : BitVec 4) (s : State) : Outcome State Fault Refusal :=
  finish (instrWord (.tbarArr n)) (do
    needWSite
    orderingPoint
    let s ← get
    match s.barView s.who n with
    | some _ => effectM fun s => s.homeWindows.arriveBar n
    | none => retireM) s

/-- TBAR.WAIT (R156). -/
def execTbarWait (n : BitVec 4) (s : State) : Outcome State Fault Refusal :=
  finish (instrWord (.tbarWait n)) (do
    needWSite
    barrierWait n
    retireM) s

/-- TBAR.SYNC (R156, R158). -/
def execTbarSync (n : BitVec 4) (s : State) : Outcome State Fault Refusal :=
  finish (instrWord (.tbarSync n)) (do
    needWSite
    orderingPoint
    let s ← get
    match s.barView s.who n with
    | some b => if !b.pending then set (s.homeWindows.arriveBar n)
    | none => pure ()
    barrierWait n
    retireM) s

/-! ## Predicates (R168 to R172) -/

/-- PCMP: a condition of two x registers into a predicate (R168). -/
def pcmpS (op : BranchOp) (d : BitVec 4) (a b : BitVec 5) (s : State) : State := s.wp d (branchTaken op (s.rx a) (s.rx b))

/-- PCMP.EQ (R168). -/
def execPcmpEq (d : BitVec 4) (a b : BitVec 5) (s : State) : Outcome State Fault Refusal := plainReg (pcmpS .beq d a b) s
/-- PCMP.NE (R168). -/
def execPcmpNe (d : BitVec 4) (a b : BitVec 5) (s : State) : Outcome State Fault Refusal := plainReg (pcmpS .bne d a b) s
/-- PCMP.LT (R168). -/
def execPcmpLt (d : BitVec 4) (a b : BitVec 5) (s : State) : Outcome State Fault Refusal := plainReg (pcmpS .blt d a b) s
/-- PCMP.GE (R168). -/
def execPcmpGe (d : BitVec 4) (a b : BitVec 5) (s : State) : Outcome State Fault Refusal := plainReg (pcmpS .bge d a b) s
/-- PCMP.LTU (R168). -/
def execPcmpLtu (d : BitVec 4) (a b : BitVec 5) (s : State) : Outcome State Fault Refusal := plainReg (pcmpS .bltu d a b) s
/-- PCMP.GEU (R168). -/
def execPcmpGeu (d : BitVec 4) (a b : BitVec 5) (s : State) : Outcome State Fault Refusal := plainReg (pcmpS .bgeu d a b) s

/-- A floating-point compare into a predicate, its flags accrued (R169). -/
def pfcmpS (op : FCmpOp) (fmt : Fmt) (d : BitVec 4) (a b : BitVec 5) (s : State) : State :=
  let r := fcmpOf op (s.fval fmt a) (s.fval fmt b)
  (s.wp d r.1).accrue r.2

/-- The unordered test into a predicate (R169). -/
def pfunS' (fmt : Fmt) (d : BitVec 4) (a b : BitVec 5) (s : State) : State :=
  let x := unpack (formatOf fmt) (s.fcode fmt a)
  let y := unpack (formatOf fmt) (s.fcode fmt b)
  (s.wp d (x.isNan || y.isNan)).accrue (if x.isSnan || y.isSnan then flagNV else 0)

/-- PFEQ.S (R169). -/
def execPfeqS (d : BitVec 4) (a b : BitVec 5) (s : State) : Outcome State Fault Refusal := plainReg (pfcmpS .eq .s d a b) s
/-- PFLT.S (R169). -/
def execPfltS (d : BitVec 4) (a b : BitVec 5) (s : State) : Outcome State Fault Refusal := plainReg (pfcmpS .lt .s d a b) s
/-- PFLE.S (R169). -/
def execPfleS (d : BitVec 4) (a b : BitVec 5) (s : State) : Outcome State Fault Refusal := plainReg (pfcmpS .le .s d a b) s
/-- PFUN.S (R169). -/
def execPfunS (d : BitVec 4) (a b : BitVec 5) (s : State) : Outcome State Fault Refusal := plainReg (pfunS' .s d a b) s
/-- PFEQ.D (R169). -/
def execPfeqD (d : BitVec 4) (a b : BitVec 5) (s : State) : Outcome State Fault Refusal := plainReg (pfcmpS .eq .d d a b) s
/-- PFLT.D (R169). -/
def execPfltD (d : BitVec 4) (a b : BitVec 5) (s : State) : Outcome State Fault Refusal := plainReg (pfcmpS .lt .d d a b) s
/-- PFLE.D (R169). -/
def execPfleD (d : BitVec 4) (a b : BitVec 5) (s : State) : Outcome State Fault Refusal := plainReg (pfcmpS .le .d d a b) s
/-- PFUN.D (R169). -/
def execPfunD (d : BitVec 4) (a b : BitVec 5) (s : State) : Outcome State Fault Refusal := plainReg (pfunS' .d d a b) s

/-- A logic operation of two predicates (R170). -/
def plogicS (f : Bool → Bool → Bool) (d a b : BitVec 4) (s : State) : State := s.wp d (f (s.rp a) (s.rp b))

/-- PAND (R170). -/
def execPand (d a b : BitVec 4) (s : State) : Outcome State Fault Refusal := plainReg (plogicS (· && ·) d a b) s
/-- POR (R170). -/
def execPor (d a b : BitVec 4) (s : State) : Outcome State Fault Refusal := plainReg (plogicS (· || ·) d a b) s
/-- PXOR (R170). -/
def execPxor (d a b : BitVec 4) (s : State) : Outcome State Fault Refusal := plainReg (plogicS (· != ·) d a b) s
/-- PANDN (R170). -/
def execPandn (d a b : BitVec 4) (s : State) : Outcome State Fault Refusal := plainReg (plogicS (fun x y => x && !y) d a b) s
/-- PNOT (R170). -/
def execPnot (d a : BitVec 4) (s : State) : Outcome State Fault Refusal := plainReg (fun s => s.wp d (!s.rp a)) s
/-- PMV.XP (R171). -/
def execPmvXp (d : BitVec 5) (s : State) : Outcome State Fault Refusal := plainReg (fun s => s.wx d (s.hart.u.p.setWidth 64)) s
/-- PMV.PX (R171). -/
def execPmvPx (a : BitVec 5) (s : State) : Outcome State Fault Refusal :=
  plainReg (fun s => s.modU fun u => { u with p := (s.rx a).setWidth 12 }) s
/-- PANY (R172). -/
def execPany (d a : BitVec 5) (s : State) : Outcome State Fault Refusal :=
  plainReg (fun s => s.wx d (flagWord (s.hart.u.p &&& (s.rx a).setWidth 12 != 0))) s
/-- PALL (R172). -/
def execPall (d a : BitVec 5) (s : State) : Outcome State Fault Refusal :=
  plainReg (fun s => s.wx d (flagWord (s.hart.u.p &&& (s.rx a).setWidth 12 == (s.rx a).setWidth 12))) s

/-! ## JTAB (R174 to R176) -/

/-- A declared W-profile exceeds the thread's in some count (R175). -/
def profExceeds (p z : BitVec 16) : Bool := profD z < profD p || profW z < profW p || profB z < profB p

/-- JTAB (R175, R176): the entry is one single-copy-atomic access, in a bound region too (State.boundUnit). -/
def execJtab (d : BitVec 5) (a : BitVec 5) (b : BitVec 5) (s : State) : Outcome State Fault Refusal :=
  finish (instrWord (.jtab d a b)) (do
    let s ← get
    let i := s.rx a
    let tbl := s.rx b
    if tbl.toNat % 16 ≠ 0 then throw (.trap 4 tbl)
    let hdr ← loadBytes tbl 4
    if leNat hdr ≤ i.toNat then throw (.trap 49 i)
    let va := tbl + 16 * (i + 1)
    let e ← loadBytes va 16
    if recNat e 0 1 % 2 = 1 then throw (.trap 49 i)
    let p := BitVec.ofNat 16 (recNat e 8 2)
    if profExceeds p s.hart.u.zwprof then throw (.trap 48 (BitVec.ofNat 64 (p.toNat * 65536 + 1024)))
    modify fun s => s.jump none d (BitVec.ofNat 64 (recNat e 0 8))) s

end Sys2Proof.Machine
end

