-- ==== Sys2Proof/Machine/CrossLane.lean ====
section
/-! DEFINITION. Sys2Proof/Machine/CrossLane.lean: the cross-lane instructions (R39 to R45, R115 to R117, R160 to R167).

The set of a thread is formed by the threads of its team whose own set width and set base equal its own. A lane that
reaches the instruction leaves its group and stands at the pc; when the whole set stands there, one of its lanes executes it for all. -/
namespace Sys2Proof.Machine

open Host (Outcome)

/-- The cross-lane group operations: custom-0 funct3 010 and 011 (R35). -/
def isCross : Instr → Bool
  | .shfl .. | .shflXor .. | .shflUp .. | .shflDn .. | .gsumI .. | .gminI .. | .gmaxI .. | .gminu .. | .gmaxu .. | .gand .. | .gor ..
  | .gxor .. | .gscanI .. | .ballot .. | .gcount .. | .shflF .. | .gsumS .. | .gsumD .. | .gminS .. | .gmaxS .. | .gminD .. | .gmaxD ..
  | .gscanS .. => true
  | _ => false

/-- A present lane: its vlane, its thread, its user state, whether its guard is true. -/
structure Lane where
  vlane : Nat
  id : HartId
  u : User
  on : Bool
  deriving DecidableEq, Repr

/-- The guard of a prefix is true for a thread (R123, R124). -/
def guardTrue (p : Option Pfx) (u : User) : Bool :=
  match p with
  | none => true
  | some p => p.guard = 15#4 || u.p.getLsbD p.guard.toNat != p.sense

/-- A thread is present in the set of the current one, or is the current one (R42, R43). [DEDUCED, log 12: unsafe] -/
def State.inMySet (s : State) (h : Hart) : Bool :=
  if h.id == s.hart.id then true
  else
    match s.memberOf s.who, s.memberOf (whoOf h) with
    | some m, some n =>
      let setw := setwOf s s.hart
      !m.detached && !n.detached && m.team == n.team && (h.car.any fun c => c.leaving.isNone) && !(h.wait.any Wait.leaves) &&
      setwOf s h == setw &&
      m.rank.toNat / setw == n.rank.toNat / setw
    | _, _ => false

/-- The present members of the current thread's set (R43). -/
def State.mySet (s : State) : List Hart := s.allHarts.filter s.inMySet

/-- A member has reached the pc: it stands there, and nothing keeps it from executing (R44). -/
def Hart.reached (h : Hart) (pc : Word) : Bool :=
  h.u.pc == pc && h.wait.isNone && (match h.car with | some c => c.free | none => true)

/-- The lanes of the current thread's set (R160). -/
def State.lanes (s : State) : List Lane := s.mySet.map fun h => ⟨vlaneOf s h, h.id, h.u, guardTrue s.pfx h.u⟩

/-- The current hart stands at a cross-lane instruction, prefixed or not (R44). -/
def State.atCross (s : State) : Bool :=
  match s.fetch.1 with
  | .ok (.pfx _ sub) => isCross sub
  | .ok i => isCross i
  | _ => false

/-- Every other present member has reached the current thread's pc. -/
def State.setReady (s : State) : Bool := (s.mySet.filter fun h => h.id != s.hart.id).all fun h => h.reached s.pc

/-- A thread that converges at a cross-lane instruction while its set is not complete there: it is not runnable (R44, R47). -/
def State.converges (s : State) (h : Hart) : Bool :=
  let t := s.focus h.id
  t.hart.id == h.id && ((h.car.any fun c => c.conv == some h.u.pc) || t.atCross) && !t.setReady

/-- The order in which contexts give way: those of threads that are not runnable first, the longest wait first (R50).
[DESIGN CHOICE, log 46: safe] -/
def parkKey (s : State) (h : Hart) : List Nat :=
  match h.car with
  | some c => [if c.free && h.wait.isNone && !s.converges h then 1 else 0, 2 ^ 64 - c.waited]
  | none => []

/-- Contexts of threads that are in no group go to their park slots until the register file holds the active ones (R27, R50).
[DESIGN CHOICE, log 46: safe] -/
def State.parkContexts (s : State) (w : Nat) : State :=
  if s.fileOver w then
    (sortOn (parkKey s) ((s.activeOn w).filter fun h => !s.inGroup h)).foldl (fun (t : State) h => if t.fileOver w then t.stow h.ctx else t) s
  else s

/-- A lane after the instruction: its new registers, the next pc, one more instruction retired, and its bin entered anew with its registers in
the register file (R47, R49). -/
def Hart.laneNext (il : Word) (clock : Nat) (w32 : Bool) (u : User) (h : Hart) : Hart :=
  { h with
    u := { u with pc := h.u.pc + il }
    wait := none
    resume := none
    instret := h.instret + 1
    car := h.car.map fun c => { c with active := true, w32 := w32, waited := 0, entered := clock, conv := none } }

/-- The new user state of a lane: by the instruction when its guard is true, its destination zeroed under MZ otherwise (R160). -/
def laneUser (mz : Bool) (setw : Nat) (ls : List Lane) (f : Nat → List Lane → Lane → User) (zero : User → User) (l : Lane) : User :=
  if l.on then f setw ls l else if mz then zero l.u else l.u

/-- The instruction executed for the whole set (R44, R160): every operand is read first. -/
def State.crossPerform (s : State) (f : Nat → List Lane → Lane → User) (zero : User → User) : State :=
  let ls := s.lanes
  let setw := setwOf s s.hart
  let mz := match s.pfx with | some p => p.mz | none => false
  let il := s.ilen none
  let s1 :=
    ls.foldl (fun (t : State) l =>
      match l.id, (t.hart? l.id).bind (·.car) with
      | .wthread ctx, some c => t.leaveGroup ctx c.core true
      | _, _ => t) s
  let s2 :=
    ls.foldl (fun (t : State) l =>
      t.modHart l.id (Hart.laneNext il t.pkg.zaclk.toNat t.part.w32 (laneUser mz setw ls f zero l))) s1
  match s.hart.car with | some c => s2.parkContexts c.core | none => s2

/-- The lane has reached the instruction, a re-binning point: its group ends, and it stands there until its set is complete (R44, R49). -/
def State.converge (s : State) : State :=
  match s.hart.id, s.hart.car with
  | .wthread ctx, some c => (s.leaveGroup ctx c.core true).refile.modCar fun c => { c with conv := some s.pc }
  | _, _ => s

/-- The current thread has re-filed at the instruction (R49). -/
def State.converging (s : State) : Bool := match s.hart.car with | some c => c.conv == some s.pc | none => false

/-- A cross-lane instruction: the site check, the re-binning point as the group reaches it, then its execution for the set when every
present member has reached it (R44, R49, R126). -/
def cross (w : BitVec 32) (f : Nat → List Lane → Lane → User) (zero : User → User) (s : State) : Outcome State Fault Refusal :=
  finish w (do
    needWSite
    modify fun s => if s.converging && s.setReady then s.crossPerform f zero else s.converge) s

/-! ## Registers of a lane -/

/-- x[r] of a user state. -/
def User.rx (u : User) (r : XReg) : Word := if r.toNat = 0 then 0 else u.x[r.toNat]'r.isLt

/-- x[r] := v. -/
def User.wx (u : User) (r : XReg) (v : Word) : User := if r.toNat = 0 then u else { u with x := u.x.set r.toNat v r.isLt }

/-- f[r] of a user state. -/
def User.rf (u : User) (r : FReg) : Word := u.f[r.toNat]'r.isLt

/-- f[r] := v. -/
def User.wf (u : User) (r : FReg) (v : Word) : User := { u with f := u.f.set r.toNat v r.isLt }

/-- The lane of a vlane that is present with its guard true. -/
def laneAt (ls : List Lane) (i : Nat) : Option Lane := ls.find? fun l => l.vlane == i && l.on

/-- The contribution of a vlane: its operand, or the identity (R44). -/
def contrib {α : Type} (ls : List Lane) (ident : α) (val : User → α) (i : Nat) : α :=
  match laneAt ls i with
  | some l => val l.u
  | none => ident

/-- The contributions in vlane order. -/
def contribs {α : Type} (ls : List Lane) (ident : α) (val : User → α) (setw : Nat) : List α :=
  (List.range setw).map (contrib ls ident val)

/-! ## Integer reductions, the scan and the votes (R161 to R163) -/

/-- A reduction with one result for every lane. -/
def gredX (w : BitVec 32) (op : Word → Word → Word) (ident : Word) (d a : XReg) (s : State) : Outcome State Fault Refusal :=
  cross w (fun setw ls l => l.u.wx d ((contribs ls ident (·.rx a) setw).foldl op ident)) (fun u => u.wx d 0) s

/-- GSUM.I (R161). -/
def execGsumI (d : BitVec 5) (a : BitVec 5) (s : State) : Outcome State Fault Refusal :=
  gredX (instrWord (.gsumI d a)) (· + ·) 0 d a s
/-- GMIN.I (R161). -/
def execGminI (d : BitVec 5) (a : BitVec 5) (s : State) : Outcome State Fault Refusal :=
  gredX (instrWord (.gminI d a)) (aluOf .min) 0x7FFFFFFFFFFFFFFF d a s
/-- GMAX.I (R161). -/
def execGmaxI (d : BitVec 5) (a : BitVec 5) (s : State) : Outcome State Fault Refusal :=
  gredX (instrWord (.gmaxI d a)) (aluOf .max) 0x8000000000000000 d a s
/-- GMINU (R161). -/
def execGminu (d : BitVec 5) (a : BitVec 5) (s : State) : Outcome State Fault Refusal :=
  gredX (instrWord (.gminu d a)) (aluOf .minu) 0xFFFFFFFFFFFFFFFF d a s
/-- GMAXU (R161). -/
def execGmaxu (d : BitVec 5) (a : BitVec 5) (s : State) : Outcome State Fault Refusal :=
  gredX (instrWord (.gmaxu d a)) (aluOf .maxu) 0 d a s
/-- GAND (R161). -/
def execGand (d : BitVec 5) (a : BitVec 5) (s : State) : Outcome State Fault Refusal :=
  gredX (instrWord (.gand d a)) (· &&& ·) 0xFFFFFFFFFFFFFFFF d a s
/-- GOR (R161). -/
def execGor (d : BitVec 5) (a : BitVec 5) (s : State) : Outcome State Fault Refusal :=
  gredX (instrWord (.gor d a)) (· ||| ·) 0 d a s
/-- GXOR (R161). -/
def execGxor (d : BitVec 5) (a : BitVec 5) (s : State) : Outcome State Fault Refusal :=
  gredX (instrWord (.gxor d a)) (· ^^^ ·) 0 d a s

/-- GSCAN.I: the inclusive sum modulo 2^64 (R162). -/
def execGscanI (d : BitVec 5) (a : BitVec 5) (s : State) : Outcome State Fault Refusal :=
  cross (instrWord (.gscanI d a))
    (fun _ ls l => l.u.wx d ((contribs ls 0 (·.rx a) (l.vlane + 1)).foldl (· + ·) 0)) (fun u => u.wx d 0) s

/-- The vlanes whose operand is not zero. -/
def voters (ls : List Lane) (a : XReg) (setw : Nat) : List Nat :=
  (List.range setw).filter fun i => contrib ls false (fun u => u.rx a != 0) i

/-- BALLOT (R163). -/
def execBallot (d : BitVec 5) (a : BitVec 5) (s : State) : Outcome State Fault Refusal :=
  cross (instrWord (.ballot d a))
    (fun setw ls l => l.u.wx d ((voters ls a setw).foldl (fun m i => m ||| (1#64 <<< i)) 0)) (fun u => u.wx d 0) s

/-- GCOUNT (R163). -/
def execGcount (d : BitVec 5) (a : BitVec 5) (s : State) : Outcome State Fault Refusal :=
  cross (instrWord (.gcount d a)) (fun setw ls l => l.u.wx d (BitVec.ofNat 64 (voters ls a setw).length)) (fun u => u.wx d 0) s

/-! ## Shuffles (R164, R165) -/

/-- The source of SHFL. -/
def srcIdx (setw _vlane : Nat) (v : Word) : Option Nat := if v.toNat < setw then some v.toNat else none

/-- The source of SHFL.XOR. -/
def srcXor (setw vlane : Nat) (v : Word) : Option Nat := if v.toNat < setw then some (vlane ^^^ v.toNat) else none

/-- The source of SHFL.UP. -/
def srcUp (_setw vlane : Nat) (v : Word) : Option Nat := if v.toNat ≤ vlane then some (vlane - v.toNat) else none

/-- The source of SHFL.DN. -/
def srcDn (setw vlane : Nat) (v : Word) : Option Nat := if v.toNat < setw - vlane then some (vlane + v.toNat) else none

/-- The value a lane reads: that of a valid, present, guard-true source, its own otherwise (R164). -/
def shflVal (src : Option Nat) (ls : List Lane) (own : Word) (val : User → Word) : Word :=
  match src with
  | some i => contrib ls own val i
  | none => own

/-- A shuffle of x registers. -/
def shflX (w : BitVec 32) (src : Nat → Nat → Word → Option Nat) (d a b : XReg) (s : State) : Outcome State Fault Refusal :=
  cross w (fun setw ls l => l.u.wx d (shflVal (src setw l.vlane (l.u.rx b)) ls (l.u.rx a) (·.rx a))) (fun u => u.wx d 0) s

/-- SHFL (R164). -/
def execShfl (d : BitVec 5) (a : BitVec 5) (b : BitVec 5) (s : State) : Outcome State Fault Refusal :=
  shflX (instrWord (.shfl d a b)) srcIdx d a b s
/-- SHFL.XOR (R164). -/
def execShflXor (d : BitVec 5) (a : BitVec 5) (b : BitVec 5) (s : State) : Outcome State Fault Refusal :=
  shflX (instrWord (.shflXor d a b)) srcXor d a b s
/-- SHFL.UP (R164). -/
def execShflUp (d : BitVec 5) (a : BitVec 5) (b : BitVec 5) (s : State) : Outcome State Fault Refusal :=
  shflX (instrWord (.shflUp d a b)) srcUp d a b s
/-- SHFL.DN (R164). -/
def execShflDn (d : BitVec 5) (a : BitVec 5) (b : BitVec 5) (s : State) : Outcome State Fault Refusal :=
  shflX (instrWord (.shflDn d a b)) srcDn d a b s

/-- SHFL.F: the 64 bits of f registers (R165). -/
def execShflF (d : BitVec 5) (a : BitVec 5) (b : BitVec 5) (s : State) : Outcome State Fault Refusal :=
  cross (instrWord (.shflF d a b))
    (fun setw ls l => l.u.wf d (shflVal (srcIdx setw l.vlane (l.u.rx b)) ls (l.u.rf a) (·.rf a))) (fun u => u.wf d 0) s

/-! ## Floating-point reductions (R115 to R117, R166) -/

/-- One level of the tree: adjacent pairs, the flags of every node gathered. -/
def pairUp (op : Nat → Nat → FRes) : List Nat → List Nat × BitVec 5
  | x :: y :: rest =>
    let (r, fl) := pairUp op rest
    let n := op x y
    (n.bits :: r, n.flags ||| fl)
  | l => (l, 0)

/-- The tree of R115 over a power of two of contributions, k levels deep. -/
def treeOf (op : Nat → Nat → FRes) : Nat → List Nat → BitVec 5 → FRes
  | 0, l, fl => ⟨l.headD 0, fl⟩
  | k + 1, l, fl => let (r, f) := pairUp op l; treeOf op k r (fl ||| f)

/-- The depth of the tree of a set width. -/
def treeDepth (setw : Nat) : Nat := Nat.log2 setw

/-- The result of a reduction: at set width 1 the contribution itself with a NaN made canonical. -/
def treeRes (t : Fmt2) (op : Nat → Nat → FRes) (l : List Nat) : FRes :=
  let r := treeOf op (treeDepth l.length) l 0
  if (unpack t r.bits).isNan then ⟨t.nanBits, r.flags⟩ else r

/-- A sum node: round to nearest even, whatever the modes (R103, R117). -/
def sumNode (t : Fmt2) (x y : Nat) : FRes := fpAdd t .rne false (unpack t x) (unpack t y)

/-- A minimum or maximum node. -/
def minmaxNode (t : Fmt2) (isMax : Bool) (x y : Nat) : FRes := fpMinMax t isMax x y (unpack t x) (unpack t y)

/-- The contribution of a lane's f register in a format (R96). -/
def laneCode (fmt : Fmt) (a : FReg) (u : User) : Nat :=
  match fmt with
  | .s => unbox (u.rf a)
  | .d => (u.rf a).toNat

/-- A result written to a lane's f register with its flags. -/
def User.putLane (u : User) (fmt : Fmt) (d : FReg) (r : FRes) : User :=
  { (u.wf d (boxOf fmt r.bits)) with fflags := u.fflags ||| r.flags }

/-- A reduction of f registers. -/
def gredF (w : BitVec 32) (fmt : Fmt) (op : Nat → Nat → FRes) (ident : Nat) (d a : FReg) (s : State) : Outcome State Fault Refusal :=
  cross w (fun setw ls l => l.u.putLane fmt d (treeRes (formatOf fmt) op (contribs ls ident (laneCode fmt a) setw)))
    (fun u => u.wf d (boxOf fmt 0)) s

/-- GSUM.S (R166). -/
def execGsumS (d : BitVec 5) (a : BitVec 5) (s : State) : Outcome State Fault Refusal :=
  gredF (instrWord (.gsumS d a)) .s (sumNode fp32) fp32.signBit d a s
/-- GSUM.D (R166). -/
def execGsumD (d : BitVec 5) (a : BitVec 5) (s : State) : Outcome State Fault Refusal :=
  gredF (instrWord (.gsumD d a)) .d (sumNode fp64) fp64.signBit d a s
/-- GMIN.S (R166). -/
def execGminS (d : BitVec 5) (a : BitVec 5) (s : State) : Outcome State Fault Refusal :=
  gredF (instrWord (.gminS d a)) .s (minmaxNode fp32 false) fp32.nanBits d a s
/-- GMAX.S (R166). -/
def execGmaxS (d : BitVec 5) (a : BitVec 5) (s : State) : Outcome State Fault Refusal :=
  gredF (instrWord (.gmaxS d a)) .s (minmaxNode fp32 true) fp32.nanBits d a s
/-- GMIN.D (R166). -/
def execGminD (d : BitVec 5) (a : BitVec 5) (s : State) : Outcome State Fault Refusal :=
  gredF (instrWord (.gminD d a)) .d (minmaxNode fp64 false) fp64.nanBits d a s
/-- GMAX.D (R166). -/
def execGmaxD (d : BitVec 5) (a : BitVec 5) (s : State) : Outcome State Fault Refusal :=
  gredF (instrWord (.gmaxD d a)) .d (minmaxNode fp64 true) fp64.nanBits d a s

/-- The vector of the scan at a vlane: the contributions up to it, the identity beyond (R116). -/
def scanVec (l : List Nat) (ident i : Nat) : List Nat := l.mapIdx fun j x => if j ≤ i then x else ident

/-- GSCAN.S: the inclusive sum of each vlane; the flags are those of every tree of the set (R116, R117). -/
def execGscanS (d : BitVec 5) (a : BitVec 5) (s : State) : Outcome State Fault Refusal :=
  cross (instrWord (.gscanS d a))
    (fun setw ls l =>
      let c := contribs ls fp32.signBit (laneCode .s a) setw
      let trees := (List.range setw).map fun i => treeRes fp32 (sumNode fp32) (scanVec c fp32.signBit i)
      let fl := trees.foldl (fun b t => b ||| t.flags) 0
      l.u.putLane .s d ⟨(treeRes fp32 (sumNode fp32) (scanVec c fp32.signBit l.vlane)).bits, fl⟩)
    (fun u => u.wf d (boxOf .s 0)) s

end Sys2Proof.Machine
end

