-- ==== Sys2Proof/Machine/Memory.lean ====
section
/-! DEFINITION. Sys2Proof/Machine/Memory.lean: buffer records and the array file (R59 to R62, R180 to R187). -/
namespace Sys2Proof.Machine

open Host (Outcome)

/-! ## Records in memory (R181) -/

/-- The number that bits 127:0 of a record's bytes hold. -/
def recBits (bs : List Byte) : BitVec 128 := BitVec.ofNat 128 (leNat bs)

/-- BSET: the record loaded and checked (R59, R181); the load is single-copy atomic. -/
def execBset (d : BitVec 4) (a : BitVec 5) (s : State) : Outcome State Fault Refusal :=
  finish (instrWord (.bset d a)) (do
    needB d
    let bs ← loadRecord ((← get).rx a) 16 16 4
    let v := recBits bs
    if v.extractLsb' 62 2 ≠ 0#2 || 3 ≤ (v.extractLsb' 57 3).toNat then throw (.trap 26 (v.setWidth 64))
    effectMem fun s => s.wb d v) s

/-- BGET: the record stored as held (R181). -/
def execBget (d : BitVec 4) (a : BitVec 5) (s : State) : Outcome State Fault Refusal :=
  finish (instrWord (.bget d a)) (do
    needB d
    let s ← get
    let va := s.rx a
    if va.toNat % 16 ≠ 0 then throw (.trap 6 va)
    storeBytes va (natLe 16 (s.rb d).toNat)
    retireM) s

/-! ## Elements (R182 to R185) -/

/-- An element loaded through a record: width bytes. -/
def bldVal (n : BReg) (a : XReg) (width : Nat) : M Word := do
  let (va, _) ← bufElem n a
  loadScalar va width

/-- BLD to an x register. -/
def bldX (w : BitVec 32) (op : LoadOp) (d a : XReg) (b : BReg) (s : State) : Outcome State Fault Refusal :=
  finish w (do
    let v ← bldVal b a (loadSize op)
    effectMem fun s => s.wx d (loadExtend op v)) s

/-- BLD.B (R182). -/
def execBldB (d : BitVec 5) (a : BitVec 5) (b : BitVec 4) (s : State) : Outcome State Fault Refusal :=
  bldX (instrWord (.bldB d a b)) .lb d a b s
/-- BLD.H (R182). -/
def execBldH (d : BitVec 5) (a : BitVec 5) (b : BitVec 4) (s : State) : Outcome State Fault Refusal :=
  bldX (instrWord (.bldH d a b)) .lh d a b s
/-- BLD.W (R182). -/
def execBldW (d : BitVec 5) (a : BitVec 5) (b : BitVec 4) (s : State) : Outcome State Fault Refusal :=
  bldX (instrWord (.bldW d a b)) .lw d a b s
/-- BLD.D (R182). -/
def execBldD (d : BitVec 5) (a : BitVec 5) (b : BitVec 4) (s : State) : Outcome State Fault Refusal :=
  bldX (instrWord (.bldD d a b)) .ld d a b s
/-- BLD.BU (R182). -/
def execBldBu (d : BitVec 5) (a : BitVec 5) (b : BitVec 4) (s : State) : Outcome State Fault Refusal :=
  bldX (instrWord (.bldBu d a b)) .lbu d a b s
/-- BLD.HU (R182). -/
def execBldHu (d : BitVec 5) (a : BitVec 5) (b : BitVec 4) (s : State) : Outcome State Fault Refusal :=
  bldX (instrWord (.bldHu d a b)) .lhu d a b s
/-- BLD.WU (R182). -/
def execBldWu (d : BitVec 5) (a : BitVec 5) (b : BitVec 4) (s : State) : Outcome State Fault Refusal :=
  bldX (instrWord (.bldWu d a b)) .lwu d a b s

/-- BLD.FW (R182). -/
def execBldFw (d : BitVec 5) (a : BitVec 5) (b : BitVec 4) (s : State) : Outcome State Fault Refusal :=
  finish (instrWord (.bldFw d a b)) (do
    let v ← bldVal b a 4
    effectMem fun s => s.wf d (nanBox v.toNat)) s

/-- BLD.FD (R182). -/
def execBldFd (d : BitVec 5) (a : BitVec 5) (b : BitVec 4) (s : State) : Outcome State Fault Refusal :=
  finish (instrWord (.bldFd d a b)) (do
    let v ← bldVal b a 8
    effectMem fun s => s.wf d v) s

/-- A value widened exactly to FP32 into an f register: a NaN is canonical, sets NANSEEN, and NV when it signals; a subnormal input
reads as zero under daz (R107, R109). [DEDUCED, log 15: unsafe] -/
def State.widenF (s : State) (t : Fmt2) (daz ftz : Bool) (d : FReg) (code : Nat) : State :=
  let x0 := unpack t code
  let x := if daz then x0.daz t else x0
  let r := roundFp fp32 .rne ftz x
  ((s.wf d (nanBox r.bits)).accrue r.flags).accrueZa (if x.isNan then 1 else 0)

/-- BLD.FH: the binary16 element widened as WCVT.HF does (R182). [DEDUCED, log 104: unsafe] -/
def execBldFh (d : BitVec 5) (a : BitVec 5) (b : BitVec 4) (s : State) : Outcome State Fault Refusal :=
  finish (instrWord (.bldFh d a b)) (do
    let v ← bldVal b a 2
    effectMem fun s => s.widenF fp16 s.hart.u.daz16 false d v.toNat) s

/-- BST of a datum of width bytes. -/
def bstM (w : BitVec 32) (width : Nat) (n : BReg) (a : XReg) (v : State → Word) (s : State) : Outcome State Fault Refusal :=
  finish w (do
    let (va, _) ← bufElem n a
    storeScalar va width (v (← get))
    retireM) s

/-- BST.B (R183). -/
def execBstB (d : BitVec 4) (a : BitVec 5) (b : BitVec 5) (s : State) : Outcome State Fault Refusal :=
  bstM (instrWord (.bstB d a b)) 1 d a (·.rx b) s
/-- BST.H (R183). -/
def execBstH (d : BitVec 4) (a : BitVec 5) (b : BitVec 5) (s : State) : Outcome State Fault Refusal :=
  bstM (instrWord (.bstH d a b)) 2 d a (·.rx b) s
/-- BST.W (R183). -/
def execBstW (d : BitVec 4) (a : BitVec 5) (b : BitVec 5) (s : State) : Outcome State Fault Refusal :=
  bstM (instrWord (.bstW d a b)) 4 d a (·.rx b) s
/-- BST.D (R183). -/
def execBstD (d : BitVec 4) (a : BitVec 5) (b : BitVec 5) (s : State) : Outcome State Fault Refusal :=
  bstM (instrWord (.bstD d a b)) 8 d a (·.rx b) s
/-- BST.FW (R183). -/
def execBstFw (d : BitVec 4) (a : BitVec 5) (b : BitVec 5) (s : State) : Outcome State Fault Refusal :=
  bstM (instrWord (.bstFw d a b)) 4 d a (·.rf b) s
/-- BST.FD (R183). -/
def execBstFd (d : BitVec 4) (a : BitVec 5) (b : BitVec 5) (s : State) : Outcome State Fault Refusal :=
  bstM (instrWord (.bstFd d a b)) 8 d a (·.rf b) s

/-- A narrowed code with its flags and its bits of zaflags. -/
structure Narrow where
  bits : Nat
  flags : BitVec 5
  za : BitVec 3
  deriving DecidableEq, Repr

/-- Narrowing by the IEEE rules: BF16 and FP16 (R108). [DEDUCED, log 16: unsafe] -/
def narrowIeee (t : Fmt2) (rm : Rnd) (ftz : Bool) (x : Fp) : Narrow :=
  let r := roundFp t rm ftz x
  ⟨r.bits, r.flags, if x.isNan then 1 else 0⟩

/-- zamax after a source: the running largest magnitude (R110). -/
def zamaxNext (old : BitVec 31) (x : Fp) (code : Nat) : BitVec 31 :=
  if x.isNan then old else if old.toNat < code % 2 ^ 31 then BitVec.ofNat 31 code else old

/-- The retirement effects of a narrowing of the source code: fflags, zaflags, zamax (R108, R110). -/
def State.narrowed (s : State) (n : Narrow) (code : Nat) : State :=
  ((s.accrue n.flags).accrueZa n.za).modU fun u => { u with zamax := zamaxNext u.zamax (unpack fp32 code) code }

/-- BST.FH: the datum narrowed as NCVT.HF does (R183). [DEDUCED, log 104: unsafe] -/
def execBstFh (d : BitVec 4) (a : BitVec 5) (b : BitVec 5) (s : State) : Outcome State Fault Refusal :=
  finish (instrWord (.bstFh d a b)) (do
    needB d
    let r ← withRnd (instrWord (.bstFh d a b)) none
    let (va, _) ← bufElem d a
    let s ← get
    let code := s.dazCode .s (s.fs b)
    let n := narrowIeee fp16 r s.hart.u.ftz16 (unpack fp32 code)
    storeScalar va 2 (BitVec.ofNat 64 n.bits)
    effectM fun s => s.narrowed n code) s

/-! ## Atomic elements (R184) -/

/-- The current lane's turn among the lanes of its group's instruction, which perform their BAMOs in ascending vlane order: none that has still
to execute has a lower vlane (R184). [DEDUCED, log 70: unsafe] -/
def myTurn (s : State) : Bool :=
  match s.myGroup with
  | some g => g.todo.all fun k => match s.hart? (.wthread k) with | some h => decide (vlaneOf s s.hart ≤ vlaneOf s h) | none => true
  | none => true

/-- The reduction of a BAMO on the old value of n bytes. -/
def bamoOf (op : MendOp) (n old v : Nat) : Nat :=
  match op with
  | .bamoAdd => (old + v) % 2 ^ (8 * n)
  | .bamoMin => amoOf .min n old v
  | .bamoMax => amoOf .max n old v
  | .bamoAddf =>
    if n = 4 then (fpAdd fp32 .rne false (unpack fp32 old) (unpack fp32 v)).bits
    else (fpAdd fp64 .rne false (unpack fp64 old) (unpack fp64 v)).bits
  | .amo o => amoOf o n old v
  | .store => v

/-- BAMO: the checks of R184, then the atomic without a result. -/
def bamoM (w : BitVec 32) (op : MendOp) (d : BReg) (a : XReg) (v : State → Nat → Nat) (s : State) : Outcome State Fault Refusal :=
  finish w (do
    if !myTurn (← get) then throw .done
    let (va, r) ← bufElem d a
    let n := 2 ^ r.esz
    let s ← get
    if va.toNat % n ≠ 0 then throw (.trap 6 va)
    if op = .bamoAddf && r.esz < 2 then throw (.trap 26 ((s.rb d).setWidth 64))
    atomicNoDest va n (fun old => bamoOf op n old (v s n)) op (v s n)
    retireM) s

/-- The low n bytes of x[b]. -/
def lowBytes (b : XReg) (s : State) (n : Nat) : Nat := (s.rx b).toNat % 2 ^ (8 * n)

/-- BAMO.ADD (R184). -/
def execBamoAdd (d : BitVec 4) (a : BitVec 5) (b : BitVec 5) (s : State) : Outcome State Fault Refusal :=
  bamoM (instrWord (.bamoAdd d a b)) .bamoAdd d a (lowBytes b) s
/-- BAMO.MIN (R184). -/
def execBamoMin (d : BitVec 4) (a : BitVec 5) (b : BitVec 5) (s : State) : Outcome State Fault Refusal :=
  bamoM (instrWord (.bamoMin d a b)) .bamoMin d a (lowBytes b) s
/-- BAMO.MAX (R184). -/
def execBamoMax (d : BitVec 4) (a : BitVec 5) (b : BitVec 5) (s : State) : Outcome State Fault Refusal :=
  bamoM (instrWord (.bamoMax d a b)) .bamoMax d a (lowBytes b) s
/-- BAMO.ADDF: f[b] is read under R96 for a 4-byte element (R184). -/
def execBamoAddf (d : BitVec 4) (a : BitVec 5) (b : BitVec 5) (s : State) : Outcome State Fault Refusal :=
  bamoM (instrWord (.bamoAddf d a b)) .bamoAddf d a (fun s n => if n = 4 then s.fs b else s.fd b) s

/-! ## The array file (R186, R187) -/

/-- A read of an array word. -/
def wldM (w : BitVec 32) (sel : M Nat) (put : State → BitVec 32 → State) (s : State) : Outcome State Fault Refusal :=
  finish w (do
    let n ← sel
    effectM fun s => put s (s.rw n)) s

/-- A write of an array word. -/
def wstM (w : BitVec 32) (sel : M Nat) (v : State → Word) (s : State) : Outcome State Fault Refusal :=
  finish w (do
    let n ← sel
    effectM fun s => s.ww n (lo32 (v s))) s

/-- WLD, a word named directly (R186). -/
def execWldDirect (d : BitVec 5) (w : BitVec 6) (s : State) : Outcome State Fault Refusal :=
  wldM (instrWord (.wldDirect d w)) (directWord w) (fun s v => s.wx d (sx32 v)) s
/-- WLD through an index register (R186). -/
def execWldIndexed (d : BitVec 5) (k : BitVec 2) (a : BitVec 5) (s : State) : Outcome State Fault Refusal :=
  wldM (instrWord (.wldIndexed d k a)) (indexedWord k a) (fun s v => s.wx d (sx32 v)) s
/-- WST, a word named directly (R186). -/
def execWstDirect (d : BitVec 5) (w : BitVec 6) (s : State) : Outcome State Fault Refusal :=
  wstM (instrWord (.wstDirect d w)) (directWord w) (·.rx d) s
/-- WST through an index register (R186). -/
def execWstIndexed (d : BitVec 5) (k : BitVec 2) (a : BitVec 5) (s : State) : Outcome State Fault Refusal :=
  wstM (instrWord (.wstIndexed d k a)) (indexedWord k a) (·.rx d) s
/-- WLDF, a word named directly (R186). -/
def execWldfDirect (d : BitVec 5) (w : BitVec 6) (s : State) : Outcome State Fault Refusal :=
  wldM (instrWord (.wldfDirect d w)) (directWord w) (fun s v => s.wf d (nanBox v.toNat)) s
/-- WLDF through an index register (R186). -/
def execWldfIndexed (d : BitVec 5) (k : BitVec 2) (a : BitVec 5) (s : State) : Outcome State Fault Refusal :=
  wldM (instrWord (.wldfIndexed d k a)) (indexedWord k a) (fun s v => s.wf d (nanBox v.toNat)) s
/-- WSTF, a word named directly (R186). -/
def execWstfDirect (d : BitVec 5) (w : BitVec 6) (s : State) : Outcome State Fault Refusal :=
  wstM (instrWord (.wstfDirect d w)) (directWord w) (·.rf d) s
/-- WSTF through an index register (R186). -/
def execWstfIndexed (d : BitVec 5) (k : BitVec 2) (a : BitVec 5) (s : State) : Outcome State Fault Refusal :=
  wstM (instrWord (.wstfIndexed d k a)) (indexedWord k a) (·.rf d) s

/-- WMV: the source read, then the destination written (R186). [DESIGN CHOICE, log 21: safe] -/
def execWmv (dst : BitVec 6) (src : BitVec 6) (s : State) : Outcome State Fault Refusal :=
  finish (instrWord (.wmv dst src)) (do
    needProf 2 profW [dst.toNat, src.toNat]
    effectM fun s => s.ww dst.toNat (s.rw src.toNat)) s

/-- WMVW: an even-odd pair of words (R186). [DESIGN CHOICE, log 21: safe] -/
def execWmvw (d : BitVec 5) (w : BitVec 6) (s : State) : Outcome State Fault Refusal :=
  finish (instrWord (.wmvw d w)) (do
    needProf 2 profW [w.toNat, w.toNat + 1]
    effectM fun s => s.wx d (s.rw (w.toNat + 1) ++ s.rw w.toNat)) s

/-- KSET: the base at most 63 and the exact sum within the profile, or cause 48 (R187). -/
def execKset (k : BitVec 2) (a : BitVec 5) (b : BitVec 5) (s : State) : Outcome State Fault Refusal :=
  finish (instrWord (.kset k a b)) (do
    let s ← get
    let base := (s.rx a).toNat
    let len := (s.rx b).toNat
    if 63 < base || profW s.hart.u.zwprof < base + len then throw (.trap 48 (prof48 2 (min (base + len) 255)))
    effectM fun s => s.wk k ⟨BitVec.ofNat 6 base, BitVec.ofNat 7 len⟩) s

end Sys2Proof.Machine
end

