-- ==== Sys2Proof/Machine/Sync.lean ====
section
/-! DEFINITION. Sys2Proof/Machine/Sync.lean: bindings, sync objects, barriers, monitors and stash windows (R70 to R77, R84 to R86, R91,
R188 to R198, R206 to R208). -/
namespace Sys2Proof.Machine

open Host (Outcome)

/-! ## Wake-ups -/

/-- A waiting hart made runnable: at the W-site it enters its bin anew, a stalled lane of a group goes on there (R47, R49). The wait it
has ended stands for its instruction. -/
def State.wake (s : State) (h : Hart) : Hart :=
  { h with
    wait := none
    resume := h.wait
    car := if s.inGroup h then h.car else h.car.map (Car.refiled s) }

/-- The hart h made runnable when its wait meets the condition; nothing otherwise. -/
def State.wakeIf (s : State) (h : HartId) (p : Hart → Wait → Bool) : State :=
  match s.hart? h with
  | some x =>
    match x.wait with
    | some w => if p x w then s.modHart h s.wake else s
    | none => s
  | none => s

/-! ## Bindings (R70, R189, R190) -/

/-- A region descriptor (R70). -/
structure Region where
  base : Word
  len64 : Nat
  stash : Bool
  reserved : Bool
  deriving DecidableEq, Repr

/-- The descriptor of 16 bytes. -/
def regionOf (bs : List Byte) : Region :=
  ⟨BitVec.ofNat 64 (recNat bs 0 8), recNat bs 8 4 % 2 ^ 27, recNat bs 12 4 % 2 = 1, 2 ^ 27 ≤ recNat bs 8 4 || 2 ≤ recNat bs 12 4⟩

/-- The status of a binding (R70): 2 first, then 3, then 1. [DEDUCED, log 40: unsafe; DESIGN CHOICE, log 103: unsafe] -/
def bindStatus (s : State) (r : Region) : Nat :=
  if r.base.toNat % 64 ≠ 0 || r.len64 = 0 || 2 ^ 26 < r.len64 || r.reserved then 2
  else if s.part.bindings.any fun b =>
      b.asid == asidOf s.hart && b.base.toNat < r.base.toNat + 64 * r.len64 && r.base.toNat < b.base.toNat + 64 * b.len64 then 3
  else if !s.part.rbtEn || 1024 ≤ s.part.bindings.length then 1
  else 0

/-- SOBIND (R189). [DEDUCED, log 40: unsafe; DESIGN CHOICE, log 103: unsafe] -/
def execSobind (d : BitVec 5) (a : BitVec 5) (b : BitVec 5) (s : State) : Outcome State Fault Refusal :=
  finish (instrWord (.sobind d a b)) (do
    orderingPoint
    let s ← get
    let bs ← loadRecord (s.rx a) 16 16 4
    let obj ← objAddr (s.rx b) false []
    let s ← get
    let r := regionOf bs
    let st := bindStatus s r
    if st = 0 then
      set (s.modPart fun p => { p with bindings := p.bindings ++ [⟨asidOf s.hart, r.base, r.len64, r.stash, obj⟩] })
    effectMem fun s => s.wx d (BitVec.ofNat 64 st)) s

/-- The release of the object at pa by the current thread: word 0 counts one, and the words after it, n words in all, become what f makes of
words 1 to 3 in the same update (R73). -/
def State.releaseObj (s : State) (pa n : Nat) (f : Word × Word × Word → Word × Word × Word) : State :=
  let s1 := s.releaseBytes (· == pa)
  let w := f (s1.objWord pa 1, s1.objWord pa 2, s1.objWord pa 3)
  s1.store pa (([s1.objWord pa 0 + 1, w.1, w.2.1, w.2.2].take n).flatMap fun v => natLe 8 v.toNat)

/-- A window unmapped: its dirty bytes written back, its stash range undefined (R207). -/
def State.unmapWindow (s : State) (team : BitVec 16) (num : Nat) : State :=
  let s1 := s.flushWindows team fun w => w.num == num
  match s1.team? team with
  | none => s1
  | some t =>
    match t.windows.find? fun w => w.num == num with
    | none => s1
    | some w =>
      let s2 := s1.modW t.wcore fun c => c.undefine w.off w.len s1.freeCount
      { s2 with freeCount := s2.freeCount + 1 }.modPart fun p =>
        { p with teams := adjust (fun x => x.num == team) (fun x => { x with windows := x.windows.filter fun y => y.num != num }) p.teams }

/-- A list begun at another place. -/
def rotateBy {α : Type} (n : Nat) (l : List α) : List α :=
  if l.isEmpty then l else l.drop (n % l.length) ++ l.take (n % l.length)

/-- The region of a binding brought home: the windows over it unmapped, the dirty bytes of every holder written back in an order left to
the device, the clean copies discarded (R190 steps 2 and 3). -/
def State.recall (s : State) (b : Binding) : State :=
  let s1 :=
    s.part.teams.foldl (fun (t : State) x => (x.windows.filter b.holds).foldl (fun (u : State) w => u.unmapWindow x.num w.num) t) s
  let (n, s2) := s1.fresh
  (s2.writeBackAll (rotateBy (Config.freeNat n) (s2.part.priv.filter fun p => p.dirty && b.owns p))).dropClean b.owns

/-- SOUNBIND (R190). -/
def execSounbind (d : BitVec 5) (a : BitVec 5) (b : BitVec 5) (s : State) : Outcome State Fault Refusal :=
  finish (instrWord (.sounbind d a b)) (do
    orderingPoint
    let obj ← objAddr ((← get).rx b) true [0]
    modify fun s => s.releaseObj obj 1 id
    let s ← get
    match s.part.bindings.find? fun g => g.asid == asidOf s.hart && g.base == s.rx a && g.obj == obj with
    | none => effectMem fun s => s.wx d 1
    | some g =>
      effectMem fun s => ((s.recall g).modPart fun p => { p with bindings := p.bindings.filter fun x => x != g }).wx d 0) s

/-! ## Releases, acquires and barriers (R191 to R197) -/

/-- ACQ (R191). -/
def execAcq (d : BitVec 5) (a : BitVec 5) (s : State) : Outcome State Fault Refusal :=
  finish (instrWord (.acq d a)) (do
    orderingPoint
    let obj ← objAddr ((← get).rx a) false [0]
    effectMem fun s => (s.acquireFor s.who (· == obj)).wx d (s.objWord obj 0)) s

/-- REL (R191). -/
def execRel (a : BitVec 5) (s : State) : Outcome State Fault Refusal :=
  finish (instrWord (.rel a)) (do
    orderingPoint
    let obj ← objAddr ((← get).rx a) true [0]
    effectM fun s => s.releaseObj obj 1 id) s

/-- A hart that waits in BARWAIT on the object at pa for a phase that has ended is made runnable (R195). -/
def State.wakeOne (s : State) (pa : Nat) (h : Hart) : Hart :=
  match h.wait with
  | some (.barwait obj t) => if obj = pa ∧ t.toNat ≤ (s.objWord pa 1).toNat then s.wake h else h
  | _ => h

/-- The other harts that wait in BARWAIT on the object at pa for a phase that has ended are made runnable, before a reinitialisation takes its
word 1 away (R193, R195). -/
def State.wakeEnded (s : State) (pa : Nat) : State :=
  { s with harts := s.harts.map (s.wakeOne pa) }

/-- BARINIT: word 1 and word 3 zero, word 2 the expected count, 1 for 0 (R193). -/
def execBarinit (a : BitVec 5) (b : BitVec 5) (s : State) : Outcome State Fault Refusal :=
  finish (instrWord (.barinit a b)) (do
    let obj ← objAddr ((← get).rx a) true []
    effectM fun s =>
      (s.wakeEnded obj).store (obj + 8) (natLe 8 0 ++ natLe 8 (if s.rx b = 0 then 1 else (s.rx b).toNat) ++ natLe 8 0)) s

/-- Words 1 to 3 after an arrival; an amount of 0 leaves them (R192, R194). -/
def arriveWith (amount : Nat) (w : Word × Word × Word) : Word × Word × Word :=
  if amount = 0 then w
  else
    let r := arrivalWords w.2.1 w.2.2 amount
    (r.1, w.2.1, r.2)

/-- BARARR (R194). -/
def execBararr (d : BitVec 5) (a : BitVec 5) (b : BitVec 5) (s : State) : Outcome State Fault Refusal :=
  finish (instrWord (.bararr d a b)) (do
    orderingPoint
    let obj ← objAddr ((← get).rx a) true [0, 1, 2, 3]
    effectMem fun s => (s.releaseObj obj 4 (arriveWith (s.rx b).toNat)).wx d (s.objWord obj 1)) s

/-- BARWAIT; one whose phase ended while it waited acquires (R195). -/
def execBarwait (a : BitVec 5) (b : BitVec 5) (s : State) : Outcome State Fault Refusal :=
  finish (instrWord (.barwait a b)) (do
    orderingPoint
    let obj ← objAddr ((← get).rx a) false [0, 1]
    let s ← get
    if s.hart.resume = some (.barwait obj (s.rx b)) || (s.rx b).toNat ≤ (s.objWord obj 1).toNat then
      effectMem fun s => s.acquireFor s.who (· == obj)
    else throw (.wait (.barwait obj (s.rx b)))) s

/-- An arrival has raised word 1 to the target of a hart that waits in BARWAIT: it becomes runnable, and its BARWAIT acquires (R195). -/
def execBarwaitWake (h : HartId) (s : State) : Outcome State Fault Refusal :=
  .next (s.wakeIf h fun _ w => match w with | .barwait obj t => t.toNat ≤ (s.objWord obj 1).toNat | _ => false)

/-- BARTEST: a load of word 1 (R196). -/
def execBartest (d : BitVec 5) (a : BitVec 5) (b : BitVec 5) (s : State) : Outcome State Fault Refusal :=
  finish (instrWord (.bartest d a b)) (do
    let va := (← get).rx a
    let _ ← objAddr va false [1]
    let v ← loadScalar (va + 8) 8
    effectMem fun s => s.wx d (flagWord ((s.rx b).toNat ≤ v.toNat))) s

/-! ## Monitors (R91, R198) -/

/-- MWATCH (R198). -/
def execMwatch (a : BitVec 5) (s : State) : Outcome State Fault Refusal :=
  finish (instrWord (.mwatch a)) (do
    let s ← get
    let va := s.rx a
    match windowOff va with
    | some _ => throw (match s.site with | .w => .trap 5 va | .l => .siteTrap)
    | none =>
      match locate .load (xmodeOf s.hart .load) va 1 s with
      | (.error c, s1) => do
        set s1
        throw (loadFault c 0 va s1)
      | (.ok pa, s1) => do
        set ({ s1 with hart := { s1.hart with watch := some ⟨pa / 128, false⟩ } } : State)
        retireM) s

/-- MWAIT: it returns at once with no watch or a written line, and disarms the watch; else it waits (R91). -/
def execMwait (s : State) : Outcome State Fault Refusal :=
  finish (instrWord .mwait) (do
    let s ← get
    match s.hart.watch with
    | none => retireM
    | some w => if w.hit then effectM fun s => { s with hart := { s.hart with watch := none } } else throw (.wait .mwait)) s

/-- A waiting MWAIT ended: the watch is disarmed, and the MWAIT returns when it executes again (R91). -/
def State.endMwait (s : State) (h : HartId) (p : Hart → Bool) : State :=
  match s.hart? h with
  | some x => if x.wait == some .mwait && p x then (s.wakeIf h fun _ _ => true).modHart h fun y => { y with watch := none } else s
  | none => s

/-- A write or invalidation of the watched line ends a waiting MWAIT (R91). -/
def execMwaitWake (h : HartId) (s : State) : Outcome State Fault Refusal :=
  .next (s.endMwait h fun x => match x.watch with | some w => w.hit | none => true)

/-- A waiting MWAIT returns with no event (R91). -/
def execMwaitSpuriousReturn (h : HartId) (s : State) : Outcome State Fault Refusal := .next (s.endMwait h fun _ => true)

/-- A phase of a team barrier has completed: the member that waits on it becomes runnable (R156). -/
def execTbarWake (h : HartId) (s : State) : Outcome State Fault Refusal :=
  .next (s.wakeIf h fun x w =>
    match w with
    | .tbar n => match s.barView (whoOf x) n with | some b => b.passes | none => true
    | _ => false)

/-! ## Stash windows (R84, R206 to R208) -/

/-- A stash range of a window lies in one bank of the stash role. -/
def stashRange (s : State) (off len : Nat) : Bool :=
  off < 0x400000 && off % 0x20000 + len ≤ 0x18000 && s.role (off / 0x20000) == 1

/-- Two ranges overlap. -/
def overlap (a la b lb : Nat) : Bool := a < b + lb && b < a + la

/-- The refusal of SMAP, in the order of its table; none is a window that can be made (R206). [DEDUCED, log 40: unsafe] -/
def smapFail (s : State) (t : Option Team) (base : Word) (len off : Nat) : Option Word :=
  match t with
  | none => some (-1)
  | some t =>
    if 16 ≤ (t.windows.filter fun w => !overlap w.off w.len off len).length then some (-2)
    else if base.toNat % 128 ≠ 0 || len % 128 ≠ 0 || len = 0 || off % 128 ≠ 0 || !stashRange s off len then some (-3)
    else if !(s.part.bindings.any fun b =>
        b.asid == asidOf s.hart && b.stash && b.base.toNat ≤ base.toNat && base.toNat + len ≤ b.base.toNat + 64 * b.len64) then some (-4)
    else if t.windows.any fun w => overlap w.base.toNat w.len base.toNat len then some (-5)
    else none

/-- The lowest window number that a team has free. [DESIGN CHOICE, log 76: safe] -/
def freeWindow (t : Team) : Nat := ((List.range 16).find? fun n => !(t.windows.any fun w => w.num == n)).getD 0

/-- SMAP (R206). [DEDUCED, log 40: unsafe] -/
def execSmap (d : BitVec 5) (a : BitVec 5) (s : State) : Outcome State Fault Refusal :=
  finish (instrWord (.smap d a)) (do
    needWSite
    let bs ← loadRecord ((← get).rx a) 16 16 4
    let s ← get
    let base := BitVec.ofNat 64 (recNat bs 0 8)
    let len := recNat bs 8 4
    let off := recNat bs 12 4
    let t := (s.memberOf s.who).bind fun m => s.team? m.team
    match smapFail s t base len off, t with
    | some e, _ => effectMem fun s => s.wx d e
    | none, none => effectMem fun s => s.wx d (-1)
    | none, some t => do
      let s1 := (t.windows.filter fun w => overlap w.off w.len off len).foldl (fun (u : State) w => u.unmapWindow t.num w.num) s
      let n := freeWindow ((s1.team? t.num).getD t)
      let obj := (s.bindingAt (asidOf s.hart) base.toNat).elim 0 fun b => b.obj
      let win : Window := ⟨n, base, len, off, obj, asidOf s.hart, []⟩
      set (s1.modPart fun p =>
        { p with teams := adjust (fun x => x.num == t.num) (fun x => { x with windows := x.windows ++ [win] }) p.teams })
      effectMem fun s => s.wx d (BitVec.ofNat 64 n)) s

/-- The window of the current thread's team that a register names. -/
def State.myWindow (s : State) (v : Word) : Option (Team × Window) :=
  ((s.memberOf s.who).bind fun m => s.team? m.team).bind fun t =>
    (t.windows.find? fun w => w.num == v.toNat).map fun w => (t, w)

/-- SUNMAP (R207). -/
def execSunmap (d : BitVec 5) (a : BitVec 5) (s : State) : Outcome State Fault Refusal :=
  finish (instrWord (.sunmap d a)) (do
    needWSite
    let s ← get
    match s.myWindow (s.rx a) with
    | some (t, w) => effectM fun s => (s.unmapWindow t.num w.num).wx d 0
    | none => effectM fun s => s.wx d (-1)) s

/-- SFLUSH (R207). -/
def execSflush (a : BitVec 5) (s : State) : Outcome State Fault Refusal :=
  finish (instrWord (.sflush a)) (do
    needWSite
    let s ← get
    let v := s.rx a
    effectM fun s =>
      if (s.memberOf s.who).isSome then s.flushWindows s.myTeam fun w => v == -1 || w.num == v.toNat else s) s

end Sys2Proof.Machine
end

