-- ==== Sys2Proof/Machine/Copy.lean ====
section
/-! DEFINITION. Sys2Proof/Machine/Copy.lean: the copy engines (R69, R87 to R90, R199 to R205). -/
namespace Sys2Proof.Machine

open Host (Outcome)

/-! ## Engines and channels -/

/-- Channel ch of engine e: a W-core's for e below 256, that of L-die e − 256 else (R200). -/
def State.chan? (s : State) (e ch : Nat) : Option Chan :=
  if e < 256 then (s.wcore? e).bind fun w => w.chans[ch]?
  else if h : e - 256 < 2 then (s.part.lce[e - 256])[ch]? else none

/-- Channel ch of engine e with f applied. -/
def State.modChan (s : State) (e ch : Nat) (f : Chan → Chan) : State :=
  if e < 256 then s.modW e fun w => { w with chans := w.chans.mapIdx fun i c => if i = ch then f c else c }
  else
    s.modPart fun p =>
      { p with lce := p.lce.mapIdx fun j l => if j = e - 256 then l.mapIdx fun i c => if i = ch then f c else c else l }

/-- The engine that the current thread's XCOPY uses (R87). -/
def State.myEngine (s : State) : Nat := engineOf s.hart

/-- The requests in flight on an engine. -/
def State.inFlight (s : State) (e : Nat) : Nat :=
  ((List.range 16).map fun ch => match s.chan? e ch with | some c => c.queue.length | none => 0).sum

/-- A ticket (R200). -/
def ticketOf (e seq ch : Nat) : Word := BitVec.ofNat 64 (e * 2 ^ 48 + seq * 16 + ch)

/-- The status of a copy ticket (R202). -/
def State.copyStatus (s : State) (t : Word) : Nat :=
  let e := field t 48 9
  let seq := field t 4 44
  if field t 57 7 ≠ 0 || (e < 256 && !s.part.wcoreNums.contains e) then 3
  else
    match s.chan? e (field t 0 4) with
    | none => 3
    | some c =>
      if seq = 0 || c.seq < seq then 3
      else if seq + 1024 ≤ c.seq then 2
      else match c.status.find? fun x => x.1 == seq with | some x => x.2 | none => 4

/-! ## XCOPY (R199, R200) -/

/-- The request of 64 bytes, issued by the current thread. -/
def reqOf (s : State) (bs : List Byte) : Req where
  seq := 0
  who := s.who
  mode := s.hart.sup.mode
  sum := (xmodeOf s.hart .load).sum
  mxr := (xmodeOf s.hart .load).mxr
  satp := s.hart.sup.satp
  asid := asidOf s.hart
  src := BitVec.ofNat 64 (recNat bs 0 8)
  dst := BitVec.ofNat 64 (recNat bs 8 8)
  rows := recNat bs 16 4
  rowlen := recNat bs 20 4
  spitch := recNat bs 24 4
  dpitch := recNat bs 28 4
  barrier := BitVec.ofNat 64 (recNat bs 32 8)
  row := 0
  olds := []
  out := []

/-- A request keeps the limits of R199. -/
def reqLegal (s : State) (bs : List Byte) : Bool :=
  let r := reqOf s bs
  r.rows ≠ 0 && r.rowlen ≠ 0 && r.rows * r.rowlen ≤ 2 ^ 24 && recNat bs 40 1 < 16 && recNat bs 41 23 = 0 &&
  (r.barrier == 0 ||
    (r.barrier.toNat % 32 = 0 && (windowOff r.barrier).isNone && (s.bindingAt r.asid r.barrier.toNat).isNone))

/-- The channel with a new request at the end of its queue. -/
def Chan.issue (c : Chan) (r : Req) : Chan :=
  let seq := c.seq + 1
  { c with seq := seq, queue := c.queue ++ [{ r with seq := seq }], newest := (r.who, seq) :: c.newest.filter fun x => x.1 != r.who }

/-- The 64 bytes of a request, read once: an XCOPY that stalled on a full engine has read them (R199). -/
def requestBytes (va : Word) : M (List Byte) := fun s =>
  match s.hart.resume with
  | some (.copyRoom bs) => .ok bs s
  | _ => loadRecord va 64 64 4 s

/-- XCOPY (R200). -/
def execXcopy (d : BitVec 5) (a : BitVec 5) (s : State) : Outcome State Fault Refusal :=
  finish (instrWord (.xcopy d a)) (do
    orderingPoint
    let va := (← get).rx a
    let bs ← requestBytes va
    let s ← get
    if !reqLegal s bs then throw (.trap 51 va)
    let e := s.myEngine
    if 256 ≤ s.inFlight e then throw (.wait (.copyRoom bs))
    let ch := recNat bs 40 1
    let seq := (match s.chan? e ch with | some c => c.seq | none => 0) + 1
    set (s.modChan e ch fun c => c.issue (reqOf s bs))
    effectMem fun s => s.wx d (ticketOf e seq ch)) s

/-! ## The waits (R202 to R204) -/

/-- Every channel of the partition's engines, by engine and number. -/
def State.chansAll (s : State) : List (Nat × Nat × Chan) :=
  (s.part.wcores.map WCore.num ++ [256, 257]).flatMap fun e =>
    (List.range 16).filterMap fun ch => (s.chan? e ch).map fun c => (e, ch, c)

/-- The fault of a ticket that has not been reported to the current thread. -/
def State.unreported (s : State) (t : Word) : Option CopyFault :=
  match s.chan? (field t 48 9) (field t 0 4) with
  | none => none
  | some c => c.faults.find? fun f => f.who == s.who && !f.reported && f.seqs.contains (field t 4 44)

/-- A trap of the current instruction is taken with its own cause: no dropped store puts cause 30 in its place (R30). -/
def State.ownCause (s : State) : Bool := s.site == .l || s.hart.dropped.isNone

/-- Faults of a channel that have been reported (R202). -/
def Chan.report (sel : CopyFault → Bool) (c : Chan) : Chan := { c with faults := adjust sel (fun g => { g with reported := true }) c.faults }

/-- XCWAIT; a fault counts as reported once its cause 51 is taken (R202, R204). -/
def execXcwait (d : BitVec 5) (a : BitVec 5) (s : State) : Outcome State Fault Refusal :=
  finish (instrWord (.xcwait d a)) (do
    let s ← get
    let t := s.rx a
    let e := field t 48 9
    let ch := field t 0 4
    let st := s.copyStatus t
    if st = 4 then throw (.wait (.xcwait t))
    match (if st = 1 then s.unreported t else none) with
    | some f => do
      set (if s.ownCause then s.modChan e ch (Chan.report fun g => g == f) else s)
      throw (.trap 51 f.stop)
    | none =>
      effectM fun s =>
        (if st = 0 then match s.chan? e ch with | some c => s.sawChan e ch c fun x => x.seq ≤ field t 4 44 | none => s else s).wx d
          (BitVec.ofNat 64 st)) s

/-- XCQRY (R202). -/
def execXcqry (d : BitVec 5) (a : BitVec 5) (s : State) : Outcome State Fault Refusal :=
  plainReg (fun s => s.wx d (BitVec.ofNat 64 (s.copyStatus (s.rx a)))) s

/-- A request of a thread is pending on some engine. -/
def State.copyPending (s : State) (who : HartId) : Bool := s.chansAll.any fun x => x.2.2.queue.any fun r => r.who == who

/-- The oldest of some faults. [DEDUCED, log 79: unsafe] -/
def oldestFault : List CopyFault → Option CopyFault
  | [] => none
  | f :: rest => match oldestFault rest with | some g => if g.stamp < f.stamp then some g else some f | none => some f

/-- A channel's request is the newest of a thread there, or an earlier one of any thread: a read of zcwpn that covers the thread's requests
covers it (R88, R204). -/
def Chan.coveredFor (c : Chan) (who : HartId) (r : CopySrc) : Bool := c.newest.any fun x => x.1 == who && r.seq ≤ x.2

/-- XCFENCE; faults count as reported once their cause 51 is taken (R203, R204). -/
def execXcfence (s : State) : Outcome State Fault Refusal :=
  finish (instrWord .xcfence) (do
    let s ← get
    let me := s.who
    if s.copyPending me then throw (.wait .xcfence)
    match oldestFault (s.chansAll.flatMap fun x => x.2.2.faults.filter fun f => f.who == me && !f.reported) with
    | some f => do
      set (if s.ownCause then
          s.chansAll.foldl (fun (t : State) x => t.modChan x.1 x.2.1 (Chan.report fun g => g.who == me)) s
        else s)
      throw (.trap 51 f.stop)
    | none => effectM fun s => s.chansAll.foldl (fun (t : State) x => t.sawChan x.1 x.2.1 x.2.2 (x.2.2.coveredFor me)) s) s

/-- A ticket has left pending status, or a thread's requests have ended: a waiting XCWAIT or XCFENCE proceeds (R202, R203). -/
def execXcwaitWake (h : HartId) (s : State) : Outcome State Fault Refusal :=
  .next (s.wakeIf h fun x w =>
    match w with
    | .xcwait t => s.copyStatus t != 4
    | .xcfence => !s.copyPending (whoOf x)
    | _ => false)

/-- A request has ended and an XCOPY stalled on the full engine issues (R200). -/
def execCopyEngineRoom (h : HartId) (s : State) : Outcome State Fault Refusal :=
  .next (s.wakeIf h fun x w => match w with | .copyRoom _ => s.inFlight (engineOf x) < 256 | _ => false)

/-! ## Performing a request (R87 to R90, R201) -/

/-- Where bytes of a copy lie. -/
inductive Place where
  /-- A window offset of the W-core. -/
  | sram (off : Nat)
  /-- A physical address. -/
  | mem (pa : Nat)
  deriving DecidableEq, Repr

/-- The translation mode of a request. -/
def Req.xmode (r : Req) : XMode := ⟨r.mode, r.sum, r.mxr, r.satp⟩

/-- The place of n bytes within a 4 KiB page for an engine, none where the access faults (R90, R201). [DEDUCED, log 77: safe] -/
def placeOf (e : Nat) (r : Req) (acc : Acc) (va : Word) (n : Nat) : State → Option Place × State := fun s =>
  match (if e < 256 then windowOff va else none) with
  | some off => (if windowOk s off n then some (.sram off) else none, s)
  | none =>
    match locate acc r.xmode va n s with
    | (.ok pa, s1) => (some (.mem pa), s1)
    | (.error _, s1) => (none, s1)

/-- The key of byte i of a place in the record of older values. -/
def Place.key (p : Place) (i : Nat) : Bool × Nat :=
  match p with
  | .sram off => (true, off + i)
  | .mem pa => (false, pa + i)

/-- The byte at a place as it stands. -/
def State.placeByte (s : State) (e : Nat) (p : Place) (i : Nat) : Byte :=
  match p with
  | .sram off => match s.wcore? e with | some w => w.sramByte (off + i) | none => 0
  | .mem pa => s.byte (pa + i)

/-- n source bytes read: one that the same request has written is one of the values it has held (R201). [DEDUCED, log 77: safe] -/
def readPlace (e : Nat) (r : Req) (p : Place) : Nat → Nat → State → List Byte × State
  | 0, _, s => ([], s)
  | n + 1, i, s =>
    let now := s.placeByte e p i
    let (b, s1) :=
      match r.olds.find? fun o => o.1 == p.key i with
      | some o => let (k, s1) := s.fresh; ((now :: o.2).getD (Config.freeNat k % (o.2.length + 1)) now, s1)
      | none => (now, s)
    let (bs, s2) := readPlace e r p n (i + 1) s1
    (b :: bs, s2)

/-- A piece of n bytes cut so that no byte it writes is one that it reads later (R201). -/
def overlapCut (src dst : Place) (n : Nat) : Nat :=
  match src, dst with
  | .sram a, .sram b => if a < b then min n (b - a) else n
  | .mem a, .mem b => if a < b then min n (b - a) else n
  | _, _ => n

/-- The older values of a request's destination bytes with those about to be overwritten. [DEDUCED, log 77: safe] -/
def pushOlds (s : State) (e : Nat) (p : Place) (n : Nat) (l : List ((Bool × Nat) × List Byte)) : List ((Bool × Nat) × List Byte) :=
  (List.range n).foldl (fun l i =>
    let v := s.placeByte e p i
    match l.find? fun o => o.1 == p.key i with
    | some _ => adjust (fun o => o.1 == p.key i) (fun o => (o.1, v :: o.2)) l
    | none => (p.key i, [v]) :: l) l

/-- The issuer's dirty bytes of a span written back; it is no release (R201). -/
def State.homeDirty (s : State) (who : HartId) (p : Place) (n : Nat) : State :=
  match p with
  | .sram _ => s
  | .mem pa => s.writeBack fun b => b.who == who && pa ≤ b.pa && b.pa < pa + n

/-- The pages that n bytes from a virtual address on touch, each by the first of its bytes and their number; fuel bounds the number of pages. -/
def pagePieces (va : Word) (n : Nat) : Nat → List (Word × Nat)
  | 0 => []
  | fuel + 1 =>
    let k := 4096 - va.toNat % 4096
    if n ≤ k then [(va, n)] else (va, k) :: pagePieces (va + BitVec.ofNat 64 k) (n - k) fuel

/-- The spans of physical memory that the rows of one side of a request lie in, as its translation stands; the window of a W-core's engine has
none. [DESIGN CHOICE, log 117: unsafe] -/
def sideSpans (s : State) (e : Nat) (r : Req) (acc : Acc) (base : Word) (pitch : Nat) : List (Nat × Nat) :=
  (List.range r.rows).flatMap fun i =>
    (pagePieces (base + BitVec.ofNat 64 (i * pitch)) r.rowlen (r.rowlen / 4096 + 2)).filterMap fun p =>
      if e < 256 && (windowOff p.1).isSome then none
      else match walkOf s r.xmode acc p.1 with | .ok pa _ => some (pa, p.2) | _ => none

/-- The issuer's dirty bytes of the whole source and destination of a request written back, before its first row reads or writes; it is no
release (R201). [DESIGN CHOICE, log 117: unsafe] -/
def State.homeRequest (s : State) (e : Nat) (r : Req) : State :=
  if s.part.priv.any fun b => b.who == r.who && b.dirty then
    let spans := sideSpans s e r .load r.src r.spitch ++ sideSpans s e r .store r.dst r.dpitch
    s.writeBack fun b => b.who == r.who && inRanges spans b.pa
  else s

/-- Bytes written by an engine for a request. -/
def State.writePlace (s : State) (e : Nat) (p : Place) (bs : List Byte) (src : CopySrc) : State :=
  match p with
  | .sram off => s.sramWrite e off bs (some src)
  | .mem pa => s.engineWrite pa bs

/-- The head request of a channel with f applied. -/
def modHead (f : Req → Req) (c : Chan) : Chan :=
  match c.queue with
  | [] => c
  | r :: rest => { c with queue := f r :: rest }

/-- The head request and every later one of its channel end with fault; each issuer has the fault to be reported (R90, R202).
[DEDUCED, log 79: unsafe] -/
def State.copyFault (s : State) (e ch : Nat) (stop : Word) : State :=
  s.modChan e ch fun c =>
    let whos := (c.queue.map Req.who).dedup
    { c with
      queue := []
      status := ((c.queue.map fun (r : Req) => (r.seq, 1)).reverse ++ c.status).take 1024
      faults :=
        c.faults ++ whos.map fun w =>
          ⟨w, stop, s.pkg.zaclk.toNat, false, (c.queue.filter fun r => r.who == w).map Req.seq⟩ }

/-- The rest of a row from byte c on, in pieces that cross no page; fuel bounds the number of pieces. What the issuer has stored there since the
request began is brought home too before a piece is read or written, and before a poisoned word of it ends the request (R201, R333).
[DEDUCED, log 77: safe; DESIGN CHOICE, log 117: unsafe] -/
def copyRow (e ch : Nat) : Nat → Req → Nat → State → State
  | 0, _, _, s => s
  | fuel + 1, r, c, s =>
    if r.rowlen ≤ c then s.modChan e ch (modHead fun q => { q with row := q.row + 1 })
    else
      let src := r.src + BitVec.ofNat 64 (r.row * r.spitch + c)
      let dst := r.dst + BitVec.ofNat 64 (r.row * r.dpitch + c)
      let n0 := min (r.rowlen - c) (min (4096 - src.toNat % 4096) (4096 - dst.toNat % 4096))
      match placeOf e r .load src n0 s with
      | (none, s1) => s1.copyFault e ch src
      | (some sp, s0) =>
        let s1 := s0.homeDirty r.who sp n0
        let bad (n : Nat) : Bool := match sp with | .mem pa => s1.poisoned pa n | .sram _ => false
        let n := if bad n0 then min n0 (8 - src.toNat % 8) else n0
        if bad n then s1.copyFault e ch src
        else
          match placeOf e r .store dst n s1 with
          | (none, s2) => s2.copyFault e ch dst
          | (some dp, s2) =>
            let n := overlapCut sp dp n
            let s3 := s2.homeDirty r.who dp n
            let (bs, s4) := readPlace e r sp n 0 s3
            let olds := pushOlds s4 e dp n r.olds
            let bound := !s4.part.bindings.isEmpty
            let out := match dp with | .mem pa => if bound then r.out ++ [(pa, n)] else r.out | .sram _ => r.out
            let s5 :=
              (s4.writePlace e dp bs ⟨r.who, ch, r.seq⟩).modChan e ch fun k =>
                { (modHead (fun q => { q with olds := olds, out := out }) k) with
                  cwp := k.cwp + BitVec.ofNat 64 n
                  boundOut := match dp with | .mem pa => if bound then k.boundOut ++
                    [⟨⟨r.who, ch, r.seq⟩, pa, n⟩] else k.boundOut | .sram _ => k.boundOut }
            copyRow e ch fuel { r with olds := olds, out := out } (c + n) s5

/-- The engine works: a throttled W-core's does not (R10). -/
def State.engineRuns (s : State) (e : Nat) : Bool := e ≥ 256 || !s.clockStopped e

/-- A channel writes the next row of its head request (R87); before the first the issuer's dirty bytes of both ranges are brought home (R201). -/
def execCopyRequestPerform (e : Nat) (ch : Nat) (s : State) : Outcome State Fault Refusal :=
  match s.chan? e ch with
  | some c =>
    match c.queue with
    | r :: _ =>
      if r.row < r.rows && s.engineRuns e then
        .next (copyRow e ch (r.rowlen + 1) r 0 (if r.row = 0 then s.homeRequest e r else s))
      else .next s
    | [] => .next s
  | none => .next s

/-- The head request ends with status 0. [DEDUCED, log 78: unsafe] -/
def State.copyDone (s : State) (e ch : Nat) : State :=
  s.modChan e ch fun c =>
    match c.queue with
    | [] => c
    | r :: rest => { c with queue := rest, status := ((r.seq, 0) :: c.status).take 1024 }

/-- The arrival of a request on its barrier object, a release of the bytes it has written (R89, R192). [DEDUCED, log 78: unsafe] -/
def State.copyArrive (s : State) (e ch obj : Nat) (r : Req) : State :=
  let w := arriveWith (r.rows * r.rowlen) (s.objWord obj 1, s.objWord obj 2, s.objWord obj 3)
  let s1 : State := s.modW e (WCore.modWrites (fun u => u.src == some ⟨r.who, ch, r.seq⟩) fun u => { u with objs := obj :: u.objs })
  (s1.engineWrite obj
    (natLe 8 (s.objWord obj 0 + 1).toNat ++ natLe 8 w.1.toNat ++ natLe 8 w.2.1.toNat ++ natLe 8 w.2.2.toNat)).modPart fun p =>
      { p with copyRel := p.copyRel ++ r.out.map fun x => (obj, x.1, x.2) }

/-- A request whose rows are all written completes: its arrival on its barrier object, or the fault of that arrival (R89, R90). -/
def execCopyCompletion (e : Nat) (ch : Nat) (s : State) : Outcome State Fault Refusal :=
  match s.chan? e ch with
  | some c =>
    match c.queue with
    | r :: _ =>
      if r.row < r.rows || !s.engineRuns e then .next s
      else if r.barrier = 0 then .next (s.copyDone e ch)
      else
        match locate .store r.xmode r.barrier 32 s with
        | (.error _, s1) => .next (s1.copyFault e ch r.barrier)
        | (.ok obj, s1) =>
          if (s1.bindingAt r.asid r.barrier.toNat).isSome || s1.poisoned obj 32 then .next (s1.copyFault e ch r.barrier)
          else .next ((s1.copyArrive e ch obj r).copyDone e ch)
    | [] => .next s
  | none => .next s

end Sys2Proof.Machine
end

