-- ==== Sys2Proof/Machine/Fuse.lean ====
section
/-! DEFINITION. Sys2Proof/Machine/Fuse.lean: FUSE, the narrowing and widening conversions and FSCL.S (R108 to R111, R236 to R241). -/
namespace Sys2Proof.Machine

open Host (Outcome)

/-! ## Expression slots (R237, R238) -/

/-- The sixteen tokens of a slot, t0 first (R237). -/
def slotTokens (z : Word) : List Nat := (List.range 16).map fun i => field z (4 * i) 4

/-- The number of values a token takes from the stack (R237). -/
def tokenPops (t : Nat) : Nat := if t ≤ 4 then 0 else if t = 8 then 3 else if t ≤ 10 then 2 else 1

/-- The check of a slot (R238): depth and ops so far, ended once END is met. -/
def slotOk : List Nat → Nat → Nat → Bool → Bool
  | [], depth, ops, _ => depth = 1 && ops ≤ 7
  | t :: rest, depth, ops, ended =>
    if ended then t = 0 && slotOk rest depth ops true
    else if t = 0 then slotOk rest depth ops true
    else if t ≤ 4 then depth < 4 && slotOk rest (depth + 1) ops false
    else tokenPops t ≤ depth && slotOk rest (depth - tokenPops t + 1) (ops + 1) false

/-- NEG and ABS: the sign flipped or cleared; a NaN is canonical (R237). -/
def signToken (t : Fmt2) (abs : Bool) (x : Nat) : Nat :=
  if (unpack t x).isNan then t.nanBits
  else if abs then x % t.signBit
  else if x < t.signBit then x + t.signBit else x - t.signBit

/-- +1.0. -/
def fpOne : Fp := .fin false 1 0

/-- A token applied to the values it takes, the first pushed first (R237). -/
def tokenOp (t : Fmt2) (rm : Rnd) (ftz : Bool) (tok : Nat) (args : List Nat) : FRes :=
  let x := args.getD 0 0
  let y := args.getD 1 0
  let z := args.getD 2 0
  let fx := unpack t x
  let fy := unpack t y
  let fz := unpack t z
  match tok with
  | 5 => fpAdd t rm ftz fx fy
  | 6 => fpSub t rm ftz fx fy
  | 7 => fpMul t rm ftz fx fy
  | 8 => fpFma t rm ftz fx fy fz
  | 9 => fpMinMax t false x y fx fy
  | 10 => fpMinMax t true x y fx fy
  | 11 => ⟨signToken t false x, 0⟩
  | 12 => ⟨signToken t true x, 0⟩
  | 13 => fpDiv t rm ftz fpOne fx
  | 14 => fpExp2 t rm ftz x fx
  | _ => fpSqrt t rm ftz fx

/-- The evaluation of a slot on a stack, its top first: the value left and the flags of every operation (R237). -/
def evalSlot (t : Fmt2) (rm : Rnd) (ftz : Bool) (inputs : List Nat) : List Nat → List Nat → BitVec 5 → FRes
  | [], st, fl => ⟨st.headD 0, fl⟩
  | tok :: rest, st, fl =>
    if tok = 0 then ⟨st.headD 0, fl⟩
    else if tok ≤ 4 then evalSlot t rm ftz inputs rest (inputs.getD (tok - 1) 0 :: st) fl
    else
      let r := tokenOp t rm ftz tok (st.take (tokenPops tok)).reverse
      evalSlot t rm ftz inputs rest (r.bits :: st.drop (tokenPops tok)) (fl ||| r.flags)

/-- The result of a slot: a NaN is canonical (R237). [DEDUCED, log 14: unsafe] -/
def fuseRes (t : Fmt2) (rm : Rnd) (ftz : Bool) (inputs : List Nat) (z : Word) : FRes :=
  let r := evalSlot t rm ftz inputs (slotTokens z) [] 0
  if (unpack t r.bits).isNan then ⟨t.nanBits, r.flags⟩ else r

/-- The inputs a, b, c, d (R236): the fourth is +0.0 where there is no fourth operand. -/
def State.fuseInputs (s : State) (fmt : Fmt) (a b c : FReg) : List Nat :=
  [s.dazCode fmt (s.fcode fmt a), s.dazCode fmt (s.fcode fmt b), s.dazCode fmt (s.fcode fmt c),
   match s.rs4 with | some r => s.dazCode fmt (s.fcode fmt r) | none => 0]

/-- FUSE: the check of the slot, then its evaluation (R236 to R238). [DEDUCED, log 14: unsafe] -/
def fuseM (w : BitVec 32) (fmt : Fmt) (d a b c : FReg) (slot : BitVec 4) (s : State) : Outcome State Fault Refusal :=
  finish w (do
    let s ← get
    let z := s.hart.u.zexp[slot.toNat]'slot.isLt
    if !slotOk (slotTokens z) 0 0 false then raiseIllegal w
    let r ← withRnd w none
    effectM fun s => s.putF fmt d (fuseRes (formatOf fmt) r (s.ftz fmt) (s.fuseInputs fmt a b c) z)) s

/-- FUSE.S (R236). -/
def execFuseS (d : BitVec 5) (a : BitVec 5) (b : BitVec 5) (c : BitVec 5) (slot : BitVec 4) (s : State) :
    Outcome State Fault Refusal :=
  fuseM (instrWord (.fuseS d a b c slot)) .s d a b c slot s
/-- FUSE.D (R236). -/
def execFuseD (d : BitVec 5) (a : BitVec 5) (b : BitVec 5) (c : BitVec 5) (slot : BitVec 4) (s : State) :
    Outcome State Fault Refusal :=
  fuseM (instrWord (.fuseD d a b c slot)) .d d a b c slot s

/-! ## Narrowing (R108, R110, R239) -/

/-- zaflags.SAT (R111). -/
def zaSat : BitVec 3 := 2
/-- zaflags.OVINF (R108, R111). [DEDUCED, log 16: unsafe] -/
def zaOvinf : BitVec 3 := 4

/-- An FP8 result that saturates at the largest finite code (NCVT.E4, NCVT.E5S; R108). -/
def narrowSat (t : Fmt2) (rm : Rnd) (x : Fp) : Narrow :=
  match x with
  | .nan s => ⟨t.nanBits, if s then flagNV else 0, 1⟩
  | .inf s => ⟨signOf t s + t.maxBits, 0, zaSat⟩
  | x =>
    let r := roundFp t rm false x
    if r.flags &&& flagOF != 0 then ⟨signOf t x.neg + t.maxBits, r.flags, zaSat⟩ else ⟨r.bits, r.flags, 0⟩

/-- NCVT.E5: the IEEE rules, and OVINF when a finite source becomes infinite (R108). [DEDUCED, log 16: unsafe] -/
def narrowE5 (rm : Rnd) (x : Fp) : Narrow :=
  let n := narrowIeee fp8e5 rm false x
  if n.flags &&& flagOF != 0 && n.bits % fp8e5.signBit == fp8e5.infBits then { n with za := zaOvinf } else n

/-- A clamped byte (NCVT.I8, NCVT.N8; R108). -/
def narrowByte (lo hi : Int) (rm : Rnd) (x : Fp) : Narrow :=
  match x with
  | .nan _ => ⟨0, flagNV, 1⟩
  | x =>
    let (v, fl) := fpToInt rm lo hi x
    ⟨(v % 256).toNat, fl, if fl &&& flagNV != 0 then zaSat else 0⟩

/-- A narrowing conversion: the code into x[d], zero-extended; the flags; zamax (R108, R110, R239). -/
def ncvtM (w : BitVec 32) (conv : State → Rnd → Fp → Narrow) (d : XReg) (a : FReg) (s : State) : Outcome State Fault Refusal :=
  finish w (do
    let r ← withRnd w none
    effectM fun s =>
      let code := s.dazCode .s (s.fs a)
      let n := conv s r (unpack fp32 code)
      (s.wx d (BitVec.ofNat 64 n.bits)).narrowed n code) s

/-- NCVT.E4 (R239). -/
def execNcvtE4 (d : BitVec 5) (a : BitVec 5) (s : State) : Outcome State Fault Refusal :=
  ncvtM (instrWord (.ncvtE4 d a)) (fun _ => narrowSat fp8e4) d a s
/-- NCVT.E5 (R239). -/
def execNcvtE5 (d : BitVec 5) (a : BitVec 5) (s : State) : Outcome State Fault Refusal :=
  ncvtM (instrWord (.ncvtE5 d a)) (fun _ => narrowE5) d a s
/-- NCVT.E5S (R239). -/
def execNcvtE5s (d : BitVec 5) (a : BitVec 5) (s : State) : Outcome State Fault Refusal :=
  ncvtM (instrWord (.ncvtE5s d a)) (fun _ => narrowSat fp8e5) d a s
/-- NCVT.BF: FTZ32 flushes its result (R107, R239). -/
def execNcvtBf (d : BitVec 5) (a : BitVec 5) (s : State) : Outcome State Fault Refusal :=
  ncvtM (instrWord (.ncvtBf d a)) (fun s r => narrowIeee bf16 r s.hart.u.ftz32) d a s
/-- NCVT.HF: FTZ16 flushes its result (R107, R239). -/
def execNcvtHf (d : BitVec 5) (a : BitVec 5) (s : State) : Outcome State Fault Refusal :=
  ncvtM (instrWord (.ncvtHf d a)) (fun s r => narrowIeee fp16 r s.hart.u.ftz16) d a s
/-- NCVT.I8 (R239). -/
def execNcvtI8 (d : BitVec 5) (a : BitVec 5) (s : State) : Outcome State Fault Refusal :=
  ncvtM (instrWord (.ncvtI8 d a)) (fun _ => narrowByte (-128) 127) d a s
/-- NCVT.N8 (R239). -/
def execNcvtN8 (d : BitVec 5) (a : BitVec 5) (s : State) : Outcome State Fault Refusal :=
  ncvtM (instrWord (.ncvtN8 d a)) (fun _ => narrowByte 0 255) d a s

/-! ## Widening (R109, R240) -/

/-- WCVT.E4 (R240). -/
def execWcvtE4 (d : BitVec 5) (a : BitVec 5) (s : State) : Outcome State Fault Refusal :=
  plainReg (fun s => s.widenF fp8e4 false false d (field (s.rx a) 0 8)) s
/-- WCVT.E5 (R240). -/
def execWcvtE5 (d : BitVec 5) (a : BitVec 5) (s : State) : Outcome State Fault Refusal :=
  plainReg (fun s => s.widenF fp8e5 false false d (field (s.rx a) 0 8)) s
/-- WCVT.BF: DAZ32 and FTZ32 act (R107, R240). [DEDUCED, log 15: unsafe] -/
def execWcvtBf (d : BitVec 5) (a : BitVec 5) (s : State) : Outcome State Fault Refusal :=
  plainReg (fun s => s.widenF bf16 s.hart.u.daz32 s.hart.u.ftz32 d (field (s.rx a) 0 16)) s
/-- WCVT.HF: DAZ16 acts (R107, R240). -/
def execWcvtHf (d : BitVec 5) (a : BitVec 5) (s : State) : Outcome State Fault Refusal :=
  plainReg (fun s => s.widenF fp16 s.hart.u.daz16 false d (field (s.rx a) 0 16)) s
/-- WCVT.I8 (R240). -/
def execWcvtI8 (d : BitVec 5) (a : BitVec 5) (s : State) : Outcome State Fault Refusal :=
  plainReg (fun s => s.putF .s d (intToFp fp32 .rne false ((s.rx a).setWidth 8).toInt)) s
/-- WCVT.N8 (R240). -/
def execWcvtN8 (d : BitVec 5) (a : BitVec 5) (s : State) : Outcome State Fault Refusal :=
  plainReg (fun s => s.putF .s d (intToFp fp32 .rne false (field (s.rx a) 0 8))) s

/-! ## Scaling (R241) -/

/-- A signed number clamped to −1,024 … 1,024. -/
def clampScale (v : Int) : Int := if v < -1024 then -1024 else if 1024 < v then 1024 else v

/-- x × 2^n rounded once. -/
def fpScale (t : Fmt2) (rm : Rnd) (ftz : Bool) (x : Fp) (n : Int) : FRes :=
  match x with
  | .fin s m e => roundPack t rm ftz s m (e + n) false
  | x => roundFp t rm ftz x

/-- FSCL.S (R241). -/
def execFsclS (d : BitVec 5) (a : BitVec 5) (b : BitVec 5) (s : State) : Outcome State Fault Refusal :=
  finish (instrWord (.fsclS d a b)) (do
    let r ← withRnd (instrWord (.fsclS d a b)) none
    effectM fun s => s.putF .s d (fpScale fp32 r (s.ftz .s) (s.valS a) (clampScale (s.rx b).toInt))) s

end Sys2Proof.Machine
end

