-- ==== Sys2Proof/Machine/Array.lean ====
section
/-! DEFINITION. Sys2Proof/Machine/Array.lean: the Press array: formats, sums, planes, tiles and the performance of commands (R95 to R100,
R112 to R114, R212 to R215, R218 to R231). -/
namespace Sys2Proof.Machine

open Host (Outcome)

/-! ## Formats (R97 to R100, R213, R214) -/

/-- The bits of an element of a format code. -/
def fmtBits (f : Nat) : Nat := if f = 2 || f = 3 then 16 else if f = 6 then 2 else if f = 7 then 4 else 8

/-- The depth of a plane (R213). -/
def depthOf (f : Nat) : Nat := if f = 6 then 1024 else if f = 7 then 512 else 256

/-- The block length (R214). -/
def blockLen (bl : BitVec 2) : Nat := 16 * 2 ^ bl.toNat

/-- The bytes of a scale (R214). -/
def scaleBytes (sfmt : Bool) : Nat := if sfmt then 4 else 2

/-- An integer as an exact value. [DESIGN CHOICE, log 105: unsafe] -/
def fpInt (v e : Int) : Fp := if v = 0 then .zero false else .fin (decide (v < 0)) v.natAbs e

/-- The integer of a code of an integer format; H4 in half steps (R97 to R99). -/
def elemInt (f code : Nat) : Int :=
  match f with
  | 4 => (BitVec.ofNat 8 code).toInt
  | 6 => if code = 1 then 1 else if code = 3 then -1 else 0
  | 7 => 2 * (code : Int) - 15
  | _ => code

/-- The exact value of a code (R95, R97 to R99). -/
def elemVal (f code : Nat) : Fp :=
  match f with
  | 0 => unpack fp8e4 code
  | 1 => unpack fp8e5 code
  | 2 => unpack bf16 code
  | 3 => unpack fp16 code
  | 7 => fpInt (elemInt 7 code) (-1)
  | _ => fpInt (elemInt f code) 0

/-- Element i of a packed array of b-bit elements (R100). -/
def packedElem (b : Nat) (bs : Array Byte) (i : Nat) : Nat :=
  let at8 (k : Nat) : Nat := (bs.getD k 0).toNat
  if b = 16 then at8 (2 * i) + 256 * at8 (2 * i + 1) else (at8 (i * b / 8) >>> (i * b % 8)) % 2 ^ b

/-- The FP32 code of scale j of packed scales: a BF16 scale is its upper half (R95, R233). -/
def scaleCode (sfmt : Bool) (bs : Array Byte) (j : Nat) : Nat :=
  let b (k : Nat) : Nat := (bs.getD k 0).toNat
  if sfmt then b (4 * j) + 2 ^ 8 * b (4 * j + 1) + 2 ^ 16 * b (4 * j + 2) + 2 ^ 24 * b (4 * j + 3)
  else 2 ^ 16 * (b (2 * j) + 256 * b (2 * j + 1))

/-! ## Exact sums (R112 to R114) -/

/-- The exact product. [DESIGN CHOICE, log 105: unsafe] -/
def exactMul (x y : Fp) : Fp :=
  let s := x.neg != y.neg
  match x, y with
  | .nan _, _ | _, .nan _ => .nan false
  | .inf _, .zero _ | .zero _, .inf _ => .nan false
  | .inf _, _ | _, .inf _ => .inf s
  | .zero _, _ | _, .zero _ => .zero s
  | .fin _ m e, .fin _ n f => .fin s (m * n) (e + f)

/-- The exact difference. -/
def exactSub (x y : Fp) : Fp :=
  match x, y with
  | .nan _, _ | _, .nan _ => .nan false
  | .inf a, .inf b => if a = b then .nan false else .inf a
  | .inf a, _ => .inf a
  | _, .inf b => .inf (!b)
  | .zero _, .zero _ => .zero false
  | .zero _, .fin s m e => .fin (!s) m e
  | .fin s m e, .zero _ => .fin s m e
  | .fin s m e, .fin t n f => let (v, g) := alignAdd s m e (!t) n f; fpInt v g

/-- The exact sum of a block's terms (R113). -/
def exactSum (ts : List Fp) : Fp :=
  let pos := ts.any fun t => t == .inf false
  let neg := ts.any fun t => t == .inf true
  if ts.any Fp.isNan || (pos && neg) then .nan false
  else if pos then .inf false
  else if neg then .inf true
  else
    let r :=
      ts.foldl (fun (a : Int × Int) t =>
        match t with
        | .fin s m e => alignAdd (decide (a.1 < 0)) a.1.natAbs a.2 s m e
        | _ => a) (0, 0)
    if r.1 = 0 then .zero (ts.all fun t => t == .zero true) else fpInt r.1 r.2

/-- A term of MXSTRM, or of MXSQD (R113). -/
def pressTerm (sqd : Bool) (a w : Fp) : Fp :=
  if sqd then (let d := exactSub a w; exactMul d d) else exactMul a w

/-- A value is neither infinite nor a NaN. -/
def Fp.finite : Fp → Bool
  | .zero _ => true | .fin _ _ _ => true | _ => false

/-- A block of an element: its terms' operands and the scale. -/
structure Block where
  pairs : List (Fp × Fp)
  scale : Fp
  deriving DecidableEq, Repr

/-- An element with an FP32 accumulator (R113): the code, and whether every operand was finite. -/
def elemFp32 (sqd : Bool) (acc : Nat) (blocks : List Block) : Nat × Bool :=
  (blocks.foldl (fun a b =>
      let s := exactSum (b.pairs.map fun p => pressTerm sqd p.1 p.2)
      let t := (roundFp fp32 .rne false (exactMul s b.scale)).bits
      (fpAdd fp32 .rne false (unpack fp32 a) (unpack fp32 t)).bits) acc,
   (unpack fp32 acc).finite && blocks.all fun b => b.scale.finite && b.pairs.all fun p => p.1.finite && p.2.finite)

/-- An element with an INT32 accumulator (R114): the value, and whether it was clamped. -/
def elemInt32 (sqd : Bool) (acc : Int) (sums : List (List (Int × Int))) : Int × Bool :=
  sums.foldl (fun a b =>
    let v := a.1 + (b.map fun p => if sqd then (p.1 - p.2) * (p.1 - p.2) else p.1 * p.2).sum
    if 2 ^ 31 - 1 < v then (2 ^ 31 - 1, true) else if v < -2 ^ 31 then (-2 ^ 31, true) else (v, a.2)) (acc, false)

/-! ## Reservations (R214, R215, R217) -/

/-- The window offset of a relative offset of a reservation (R215). -/
def resvOff (base o : Nat) : Nat :=
  let p := base % 0x20000 + o
  (base / 0x20000 + p / 0x18000) * 0x20000 + p % 0x18000

/-- The data bytes of the banks, numbered without the gaps, at which a reservation begins (R215). -/
def resvLin (base : Nat) : Nat := base / 0x20000 * 0x18000 + base % 0x20000

/-- The id of the reservation a command reads. [DESIGN CHOICE, log 75: safe] -/
def Cmd.resvId (c : Cmd) : Option Nat :=
  match c.kind with
  | .ldw => some c.blk.wid
  | .strm | .sqd => some c.blk.aid
  | _ => none

/-- A range of data bytes made undefined, bank by bank (R217). [DESIGN CHOICE, log 76: safe] -/
def undefineRange (w : WCore) (base len epoch : Nat) : WCore :=
  (List.range 32).foldl (fun a n =>
    let lo := max (resvLin base) (n * 0x18000)
    let hi := min (resvLin base + len) ((n + 1) * 0x18000)
    if lo < hi then a.undefine (n * 0x20000 + (lo - n * 0x18000)) (hi - lo) epoch else a) w

/-- A reservation freed: its bytes are undefined (R217). -/
def WCore.freeResv (w : WCore) (id epoch : Nat) : WCore :=
  match w.press.resvs[id]? with
  | some (some r) =>
    let w1 := undefineRange w r.base r.len epoch
    { w1 with press := { w1.press with resvs := w1.press.resvs.setIfInBounds id none } }
  | _ => w

/-- The Press of a W-core with f applied. -/
def State.modPress (s : State) (w : Nat) (f : Press → Press) : State := s.modW w fun c => { c with press := f c.press }

/-! ## The end of a command (R217, R219, R221) -/

/-- A command leaves the queue with a status: its ticket, if it is one of the 1,024 newest, has it (R221), and a releasing reservation that no
queued command references any more is freed. -/
def State.endCmd (s : State) (w no status : Nat) : State :=
  let s1 :=
    s.modW w fun c =>
      match c.press.queue.find? fun k => k.no == no with
      | none => c
      | some k =>
        let q := c.press.queue.filter fun k => k.no != no
        let st := if k.seq = 0 then c.press.status else ((k.seq, status) :: c.press.status).filter fun x => c.press.seq < x.1 + 1024
        let c1 := { c with press := { c.press with queue := q, status := st } }
        match k.resvId with
        | some id =>
          match c.press.resvs[id]? with
          | some (some r) => if r.releasing && !(q.any fun x => x.resvId == some id) then c1.freeResv id s.freeCount else c1
          | _ => c1
        | none => c1
  { s1 with freeCount := s1.freeCount + 1 }

/-- RESUME of a command's block written (R219). -/
def State.writeResume (s : State) (w : Nat) (k : Cmd) (v : Nat) : State := s.sramWrite w (k.blkOff + 34) (natLe 2 v)

/-- A command of a queue replaced. -/
def State.modCmd (s : State) (w no : Nat) (f : Cmd → Cmd) : State :=
  s.modPress w fun p => { p with queue := adjust (fun k => k.no == no) f p.queue }

/-! ## What a command reads (R222, R223) -/

/-- Bytes read by a command: as they stood at its issue; whether some was written since; the free values used so far. -/
structure ObRead where
  bytes : Array Byte
  tainted : Bool
  free : Nat
  deriving DecidableEq, Repr

/-- One byte read: the byte as it stood at issue, or one of the older values of a byte that was not fenced.
[DESIGN CHOICE, log 75: safe] -/
def obByte (w : WCore) (k : Cmd) (off free : Nat) : Byte × Bool × Nat :=
  let t := k.taint.find? fun e => e.1 == off
  let b := match t with | some e => e.2 | none => w.sramByte off
  match k.stale.find? fun e => e.1 == off with
  | some e => ((b :: e.2).getD (Config.freeNat free % (e.2.length + 1)) b, t.isSome, free + 1)
  | none => (b, t.isSome, free)

/-- n bytes from a relative offset of the command's reservation. [DESIGN CHOICE, log 75: safe] -/
def obRead (w : WCore) (k : Cmd) (base : Nat) : Nat → Nat → ObRead → ObRead
  | 0, _, r => r
  | n + 1, o, r =>
    let (b, t, f) := obByte w k (resvOff base o) r.free
    obRead w k base n (o + 1) ⟨r.bytes.push b, r.tainted || t, f⟩

/-! ## Streams (R226, R227) -/

/-- The scale of block q of a column of a plane. -/
def Plane.scaleAt (p : Plane) (q n : Nat) : Nat := (p.scales.getD (q * 256 + n) 0).toNat

/-- The code of weight (k, n) of a plane (R224). -/
def Plane.code (p : Plane) (k n : Nat) : Nat := packedElem (fmtBits p.desc.fmt.toNat) p.weights (k * 256 + n)

/-- The operands of a command row: the reservation, the plane, the bytes of the row and of its scales. -/
structure RowIn where
  b : Blk
  r : Resv
  p : Plane
  acts : Array Byte
  ascales : Array Byte
  deriving DecidableEq, Repr

/-- The block length that applies: the side that carries scales (R226). -/
def RowIn.len (i : RowIn) : Nat := blockLen (if i.r.sc then i.r.bl else i.p.desc.bl)

/-- The scale of the 16-block b of column n (R113, R226). -/
def RowIn.scale (i : RowIn) (n b : Nat) : Fp :=
  let q := 16 * b / i.len
  let sa := if i.r.sc then unpack fp32 (scaleCode i.r.sfmt i.ascales (q - i.b.kbase / i.len)) else fpOne
  let sw := if i.p.desc.sc then unpack fp32 (i.p.scaleAt q n) else fpOne
  exactMul sa sw

/-- The 16-blocks of a command (R226). -/
def RowIn.blocks (i : RowIn) : List Nat := (List.range (i.b.kcnt / 16)).map (· + i.b.kbase / 16)

/-- The code of activation k. -/
def RowIn.act (i : RowIn) (k : Nat) : Nat := packedElem (fmtBits i.r.fmt.toNat) i.acts (k - i.b.kbase)

/-- The operands of an element in the FP32 case. -/
def RowIn.fpBlocks (i : RowIn) (n : Nat) : List Block :=
  i.blocks.map fun b =>
    ⟨(List.range 16).map fun j =>
       (elemVal i.r.fmt.toNat (i.act (16 * b + j)), elemVal i.p.desc.fmt.toNat (i.p.code (16 * b + j) n)), i.scale n b⟩

/-- The operands of an element in the INT32 case. -/
def RowIn.intBlocks (i : RowIn) (n : Nat) : List (List (Int × Int)) :=
  i.blocks.map fun b =>
    (List.range 16).map fun j =>
      (elemInt i.r.fmt.toNat (i.act (16 * b + j)), elemInt i.p.desc.fmt.toNat (i.p.code (16 * b + j) n))

/-- MXSTAT bits: SAT, BAD, NAN, INF, FLUSHED (R227). -/
def mxSat : BitVec 5 := 1
def mxBad : BitVec 5 := 2
def mxNan : BitVec 5 := 4
def mxInf : BitVec 5 := 8
def mxFlushed : BitVec 5 := 16

/-- Element (row, n): its 32 bits and the MXSTAT bits it sets (R113, R114, R227). -/
def RowIn.element (i : RowIn) (sqd : Bool) (old : BitVec 32) (n : Nat) : BitVec 32 × BitVec 5 :=
  if i.b.i32 then
    let r := elemInt32 sqd (if i.b.acc then old.toInt else 0) (i.intBlocks n)
    (BitVec.ofInt 32 r.1, if r.2 then mxSat else 0)
  else
    let r := elemFp32 sqd (if i.b.acc then old.toNat else 0) (i.fpBlocks n)
    let v := unpack fp32 r.1
    (BitVec.ofNat 32 r.1, if v.isNan then mxNan else if !v.finite && r.2 then mxInf else 0)

/-- Some weight that MXSTRM multiplies is the T2 code 0b10 (R98). -/
def RowIn.badCode (i : RowIn) : Bool :=
  i.p.desc.fmt == 6 &&
  (List.range i.b.kcnt).any fun k => (List.range i.b.ncnt).any fun n => i.p.code (i.b.kbase + k) (i.b.nbase + n) == 2

/-- The element of a tile at row m, column n. -/
def Tile.get (t : Tile) (m n : Nat) : BitVec 32 := sparseGet 0 t.cells (256 * m + n)

/-- The element of a tile written. -/
def Tile.put (t : Tile) (m n : Nat) (v : BitVec 32) : Tile := { t with cells := sparseSet 0 t.cells (256 * m + n) v }

/-- The bytes of the scales of one activation row (R226). -/
def ascaleLen (b : Blk) (r : Resv) : Nat :=
  let l := blockLen r.bl
  ((b.kbase + b.kcnt - 1) / l - b.kbase / l + 1) * scaleBytes r.sfmt

/-- The columns of a command. -/
def Blk.cols (b : Blk) : List Nat := (List.range b.ncnt).map (· + b.nbase)

/-- The kind of tile a stream leaves (R226). -/
def Blk.kindAfter (b : Blk) (old : TileKind) : TileKind :=
  if !b.acc || old == .none then (if b.i32 then .int32 else .fp32) else old

/-- A tile of a Press. -/
def Press.tile (p : Press) (t : Nat) : Tile := p.tiles.toList.getD t Tile.zero

/-- A tile of a Press replaced. -/
def Press.setTile (p : Press) (t : Nat) (v : Tile) : Press := { p with tiles := p.tiles.setIfInBounds t v }

/-- The next row of a stream: its elements, those of a row whose operands were written since the issue being free values (R223), and the
MXSTAT bits. -/
def State.streamRow (s : State) (w : Nat) (k : Cmd) (r : Resv) : State :=
  match s.wcore? w with
  | none => s
  | some c =>
    let b := k.blk
    let acts := obRead c k r.base (b.kcnt * fmtBits r.fmt.toNat / 8) (b.aoff + k.row * b.apitch) ⟨#[], false, s.freeCount⟩
    let asc :=
      if r.sc then obRead c k r.base (ascaleLen b r) (r.soff + k.row * b.aspitch) ⟨#[], acts.tainted, acts.free⟩
      else ⟨#[], acts.tainted, acts.free⟩
    let i : RowIn := ⟨b, r, c.press.active, acts.bytes, asc.bytes⟩
    let t := c.press.tile b.dt
    let m := b.row0 + k.row
    let res :=
      b.cols.foldl (fun (a : Tile × BitVec 5) n =>
        let e := i.element (k.kind == .sqd) (t.get m n) n
        (a.1.put m n (if asc.tainted then Config.freeWord32 (asc.free + n) else e.1), a.2 ||| e.2)) (t, 0)
    let bad := if k.kind == .strm && i.badCode then mxBad else 0
    let s1 :=
      s.modPress w fun p =>
        { (p.setTile b.dt { res.1 with kind := b.kindAfter t.kind }) with mxstat := p.mxstat ||| res.2 ||| bad }
    { s1 with freeCount := asc.free + 256 }

/-- One row of a stream performed; after the last the command ends (R226). -/
def State.streamStep (s : State) (w : Nat) (k : Cmd) : State :=
  match k.resv with
  | none => s.endCmd w k.no 0
  | some r =>
    let s1 := (s.streamRow w k r).modCmd w k.no fun k => { k with row := k.row + 1, started := true }
    if k.row + 1 < k.blk.m then s1 else (s1.writeResume w k 0).endCmd w k.no 0

/-! ## Top-k (R228) -/

/-- The place of a value in the order of a tile kind. -/
def topkKey (kind : TileKind) (v : BitVec 32) : Int :=
  match kind with
  | .fp32 =>
    let mag : Int := (v.setWidth 31).toNat
    if 0x7F800000 < mag then 2 ^ 40 else if v.getLsbD 31 then -mag - 1 else mag
  | _ => v.toInt

/-- (column, key) goes before another in a selection. -/
def topkBefore (largest : Bool) (a b : Nat × Int) : Bool :=
  if a.2 = b.2 then a.1 < b.1 else if largest then b.2 < a.2 else a.2 < b.2

/-- A pair put in its place in a sorted list. -/
def topkInsert (largest : Bool) (a : Nat × Int) : List (Nat × Int) → List (Nat × Int)
  | [] => [a]
  | b :: rest => if topkBefore largest a b then a :: b :: rest else b :: topkInsert largest a rest

/-- The k columns selected, in order. -/
def topkSelect (b : Blk) (src : Tile) (m : Nat) : List Nat :=
  ((b.cols.foldl (fun l n => topkInsert b.largest (n, topkKey src.kind (src.get m n)) l) []).take b.k).map Prod.fst

/-- One row of a selection: the source row is read whole (R228). -/
def State.topkRow (s : State) (w : Nat) (k : Cmd) : State :=
  s.modPress w fun p =>
    let b := k.blk
    let src := p.tile b.st
    let m := b.row0 + k.row
    let sel := topkSelect b src m
    let d :=
      (List.range sel.length).foldl (fun (t : Tile) j =>
        let n := sel.getD j 0
        (t.put m j (src.get m n)).put m (16 + j) (BitVec.ofNat 32 n)) (p.tile b.dt)
    p.setTile b.dt { d with kind := if src.kind == .none then .int32 else src.kind }

/-- One row of a top-k performed; after the last the command ends. -/
def State.topkStep (s : State) (w : Nat) (k : Cmd) : State :=
  let s1 := (s.topkRow w k).modCmd w k.no fun k => { k with row := k.row + 1, started := true }
  if k.row + 1 < k.blk.m then s1 else s1.endCmd w k.no 0

/-! ## Loads and swaps (R224, R225) -/

/-- n units of u bytes of weights, a unit that was written since the issue a free value: a weight wider than a byte is one unit (R223). -/
def loadWeights (w : WCore) (k : Cmd) (base u : Nat) : Nat → Nat → ObRead → ObRead
  | 0, _, r => r
  | n + 1, o, r =>
    let x := obRead w k base u o ⟨#[], false, r.free⟩
    if x.tainted then loadWeights w k base u n (o + u) ⟨r.bytes ++ (natLe u (Config.freeNat x.free)).toArray, true, x.free + 1⟩
    else loadWeights w k base u n (o + u) ⟨r.bytes ++ x.bytes, r.tainted, x.free⟩

/-- n scales as FP32 codes, each that was written since the issue a free value (R223). -/
def loadScales (w : WCore) (k : Cmd) (r : Resv) : Nat → Nat → Array (BitVec 32) × Nat → Array (BitVec 32) × Nat
  | 0, _, a => a
  | n + 1, j, (l, f) =>
    let x := obRead w k r.base (scaleBytes r.sfmt) (r.soff + j * scaleBytes r.sfmt) ⟨#[], false, f⟩
    if x.tainted then loadScales w k r n (j + 1) (l.push (Config.freeWord32 x.free), x.free + 1)
    else loadScales w k r n (j + 1) (l.push (BitVec.ofNat 32 (scaleCode r.sfmt x.bytes 0)), x.free)

/-- The descriptor of the plane that a reservation's load makes (R224). -/
def Resv.desc (r : Resv) : PlaneDesc := ⟨true, r.fmt, r.bl, r.sc, r.sfmt⟩

/-- The bytes of a plane's weights. -/
def weightBytes (f : Nat) : Nat := depthOf f * 256 * fmtBits f / 8

/-- The bytes of the least unit of a plane's weights: a weight, or the byte that holds several. -/
def weightUnit (f : Nat) : Nat := max 1 (fmtBits f / 8)

/-- The number of a plane's scales. -/
def PlaneDesc.scaleCount (d : PlaneDesc) : Nat := if d.sc then depthOf d.fmt.toNat / blockLen d.bl * 256 else 0

/-- The shadow plane loaded; the command ends (R224). -/
def State.loadStep (s : State) (w : Nat) (k : Cmd) : State :=
  match s.wcore? w, k.resv with
  | some c, some r =>
    let ws := loadWeights c k r.base (weightUnit r.fmt.toNat) (weightBytes r.fmt.toNat / weightUnit r.fmt.toNat) k.blk.woff
      ⟨#[], false, s.freeCount⟩
    let (sc, f) := loadScales c k r r.desc.scaleCount 0 (#[], ws.free)
    let s1 := s.modPress w fun p => { p with shadow := ⟨r.desc, ws.bytes, sc⟩ }
    ({ s1 with freeCount := f }).endCmd w k.no 0
  | _, _ => s.endCmd w k.no 0

/-- The planes exchange roles; the command ends (R225). -/
def State.swapStep (s : State) (w : Nat) (k : Cmd) : State :=
  (s.modPress w fun p => { p with active := p.shadow, shadow := p.active }).endCmd w k.no 0

/-! ## When a command may act (R218, R224, R225, R230) -/

/-- A command reads or writes a tile. -/
def Cmd.usesTile (k : Cmd) (t : Nat) : Bool :=
  match k.kind with
  | .strm | .sqd => k.blk.dt == t
  | .topk => k.blk.dt == t || k.blk.st == t
  | _ => false

/-- A thread of W-core w waits in an ACZERO issued before command k on a tile that k uses: k waits for it (R230, R234). -/
def State.zeroFirst (s : State) (w : Nat) (k : Cmd) : Bool :=
  s.allHarts.any fun h =>
    h.residentOn w && (match h.wait with | some (.aczero t before _) => before < k.no && k.usesTile t | _ => false)

/-- A wait is that of an MXSAVE or MXREST of W-core w behind fewer than no commands. -/
def Wait.savesBefore (w no : Nat) : Wait → Bool
  | .pressIdle v before => v == w && before < no
  | _ => false

/-- An MXSAVE or MXREST issued before command k waits for the queue to empty or is about to act: k waits for it (R233, R234). -/
def State.saveFirst (s : State) (w : Nat) (k : Cmd) : Bool :=
  s.allHarts.any fun h => h.wait.any (Wait.savesBefore w k.no) || h.resume.any (Wait.savesBefore w k.no)

/-- The commands of a queue before one. -/
def before (q : List Cmd) (no : Nat) : List Cmd := q.filter fun k => k.no < no

/-- A stream or a selection is the first command of the array, and nothing holds it up: the array starts it, whether or not a row of it is final
(R218). -/
def State.startable (s : State) (w : Nat) (q : List Cmd) (k : Cmd) : Bool := (before q k.no).isEmpty && !s.zeroFirst w k

/-- A command runs, or the array starts it now. [DESIGN CHOICE, log 73: safe] -/
def State.begun (s : State) (w : Nat) (q : List Cmd) (k : Cmd) : Bool := k.started || (s.startable w q k && !s.saveFirst w k)

/-- A command's turn has come: the array starts commands in issue order; a load waits for earlier loads and swaps, and so for every reader of its
plane, a swap for the loads and for the readers of the active plane, and neither for an earlier command that runs otherwise (R218, R224, R225,
R234). -/
def State.cmdReady (s : State) (w : Nat) (q : List Cmd) (k : Cmd) : Bool :=
  match k.kind with
  | .ldw => (before q k.no).all fun j => (j.kind == .strm || j.kind == .sqd || j.kind == .topk) && s.begun w q j
  | .swap => (before q k.no).all fun j => j.kind == .topk && s.begun w q j
  | _ => s.startable w q k

/-- The first queued command of some kinds that may act now; a W-core whose clock is stopped does nothing (R10). -/
def State.readyCmd (s : State) (w : Nat) (sel : CmdKind → Bool) : Option Cmd :=
  match s.wcore? w with
  | some c => if s.clockStopped w then none else c.press.queue.find? fun k => sel k.kind && s.cmdReady w c.press.queue k && !s.saveFirst w k
  | none => none

/-- The commands before one are running: the array has started them first (R218). [DESIGN CHOICE, log 73: safe] -/
def State.startBefore (s : State) (w no : Nat) : State :=
  s.modPress w fun p => { p with queue := p.queue.map fun k => if k.no < no then { k with started := true } else k }

/-- Once earlier readers of the shadow plane have ended, the array loads it (R224). -/
def execPressLoadWeights (w : Nat) (s : State) : Outcome State Fault Refusal :=
  match s.readyCmd w (· == .ldw) with
  | some k => .next ((s.startBefore w k.no).loadStep w k)
  | none => .next s

/-- A queued swap takes effect (R225). -/
def execPressSwapEffect (w : Nat) (s : State) : Outcome State Fault Refusal :=
  match s.readyCmd w (· == .swap) with
  | some k => .next ((s.startBefore w k.no).swapStep w k)
  | none => .next s

/-- The array makes the next row of a stream final (R226). -/
def execPressStream (w : Nat) (s : State) : Outcome State Fault Refusal :=
  match s.readyCmd w fun k => k == .strm || k == .sqd with
  | some k => .next (s.streamStep w k)
  | none => .next s

/-- The array makes the next row of a top-k selection final (R228). -/
def execPressTopk (w : Nat) (s : State) : Outcome State Fault Refusal :=
  match s.readyCmd w (· == .topk) with
  | some k => .next (s.topkStep w k)
  | none => .next s

/-! ## The stop of partition pre-emption (R231) -/

/-- A running stream goes on to its next stop point and ends there with status 1, or completes: whether it has completed.
[DESIGN CHOICE, log 73: safe] -/
def State.runToStop (s : State) (w no : Nat) : Nat → Bool × State
  | 0 => (true, s)
  | n + 1 =>
    match (s.wcore? w).bind fun c => c.press.queue.find? fun k => k.no == no with
    | none => (true, s)
    | some k =>
      let t := s.streamStep w k
      if (k.row + 1) % 2 ^ k.blk.g = 0 && k.row + 1 < k.blk.m then (false, (t.writeResume w k (k.row + 1)).endCmd w no 1)
      else runToStop t w no n

/-- A running stream stopped: at once when it stands at a stop point and the request meets it there, else at the next one; whether it has
completed. [DESIGN CHOICE, log 73: safe] -/
def State.stopStream (s : State) (w : Nat) (k : Cmd) : Bool × State :=
  let (n, s1) := s.fresh
  if k.row % 2 ^ k.blk.g = 0 && k.blk.resume < k.row && Config.freeBool n then (false, (s1.writeResume w k k.row).endCmd w k.no 1)
  else s1.runToStop w k.no 130

/-- A running selection completes. -/
def State.runTopk (s : State) (w no : Nat) : Nat → State
  | 0 => s
  | n + 1 =>
    match (s.wcore? w).bind fun c => c.press.queue.find? fun k => k.no == no with
    | none => s
    | some k => runTopk (s.topkStep w k) w no n

/-- The queue's commands ended in order: the running one first, swaps behind completed commands, the others unperformed. ok says whether
every earlier command has completed. -/
def State.flushCmds (s : State) (w : Nat) : List Cmd → Bool → State
  | [], _ => s
  | k :: rest, ok =>
    let flush (t : State) : State := t.modPress w fun p => { p with mxstat := p.mxstat ||| mxFlushed }
    match k.kind with
    | .strm | .sqd =>
      if k.started then
        let r := s.stopStream w k
        flushCmds r.2 w rest (ok && r.1)
      else flushCmds (flush (s.endCmd w k.no 1)) w rest false
    | .topk => if k.started then flushCmds (s.runTopk w k.no 130) w rest ok else flushCmds (flush (s.endCmd w k.no 1)) w rest false
    | .ldw =>
      if k.started then flushCmds (s.loadStep w k) w rest ok else flushCmds (flush (s.endCmd w k.no 1)) w rest false
    | .swap => if ok then flushCmds (s.swapStep w k) w rest ok else flushCmds (flush (s.endCmd w k.no 0)) w rest false

/-- The queue with the commands that may have been started without a row made final or a plane loaded, in issue order: a choice the manual leaves
to timing. [DESIGN CHOICE, log 73: safe] -/
def State.startedCmds (s : State) (w : Nat) : List Cmd → List Cmd → List Cmd
  | done, [] => done
  | done, k :: rest =>
    let ready := !k.started && s.cmdReady w (done ++ k :: rest) k && !s.saveFirst w k && done.all Cmd.started
    startedCmds s w (done ++ [if ready then { k with started := Config.freeBool (s.freeCount + done.length) } else k]) rest

/-- The Press of a W-core stopped: its queue is empty (R231). [DESIGN CHOICE, log 73: safe] -/
def State.stopPress (s : State) (w : Nat) : State :=
  match s.wcore? w with
  | none => s
  | some c =>
    ({ s with freeCount := s.freeCount + c.press.queue.length }).flushCmds w (s.startedCmds w [] c.press.queue) true

end Sys2Proof.Machine
end

