-- ==== Sys2Proof/Machine/Press.lean ====
section
/-! DEFINITION. Sys2Proof/Machine/Press.lean: the thread-side instructions of the Press and the wake-ups of their waits (R210 to R235). -/
namespace Sys2Proof.Machine

open Host (Outcome)

/-! ## Cause 50 (R220) -/

/-- Cause 50 with a reason and the offset of the first offending field, 0xFF for none (R220). -/
def c50 (reason off : Nat) : Exc := .trap 50 (BitVec.ofNat 64 (reason + 256 * off))

/-- The W-core on which the current thread is resident. -/
def myArray : M (Nat × WCore) := fun s =>
  match s.hart.car with
  | some c => match s.wcore? c.core with | some w => .ok (c.core, w) s | none => .error .done s
  | none => .error .done s

/-! ## Reservations (R214 to R217) -/

/-- A reservation record as read (R214). -/
structure ObRec where
  base : Nat
  len : Nat
  fmt : Nat
  sfmt : Bool
  sc : Bool
  bl : Nat
  soff : Nat
  reserved : Bool
  deriving DecidableEq, Repr

/-- The record of 16 bytes (R214). -/
def obRecOf (bs : List Byte) : ObRec :=
  let b9 := recNat bs 9 1
  ⟨recNat bs 0 4, recNat bs 4 4, recNat bs 8 1 % 16, b9 / 8 % 2 = 1, b9 / 4 % 2 = 1, b9 % 4, recNat bs 12 4,
   recNat bs 8 1 / 16 ≠ 0 || b9 / 16 ≠ 0 || recNat bs 10 2 ≠ 0⟩

/-- The record keeps the rules of R214, and every bank it touches has the operand-buffer role. -/
def obLegal (s : State) (r : ObRec) : Bool :=
  r.base % 128 = 0 && inBank r.base && r.len ≠ 0 && r.len % 128 = 0 && r.fmt < 8 && !r.reserved &&
  !(r.sc && r.soff % 4 ≠ 0) && resvLin r.base + r.len ≤ 32 * 0x18000 &&
  (List.range 32).all fun n =>
    !(resvLin r.base < (n + 1) * 0x18000 && n * 0x18000 < resvLin r.base + r.len) || s.role n == 2

/-- A range of data bytes overlaps a reservation. -/
def Resv.hits (r : Resv) (lin len : Nat) : Bool := overlap (resvLin r.base) r.len lin len

/-- Some reservation, releasing or held as rel says, overlaps a range. -/
def Press.overlaps (p : Press) (rel : Bool) (lin len : Nat) : Bool :=
  p.resvs.toList.any fun r => match r with | some r => r.releasing == rel && r.hits lin len | none => false

/-- The lowest free id. -/
def Press.freeId (p : Press) : Option Nat := (List.range 32).find? fun i => p.resvs[i]? == some none

/-- The 16 bytes of a reservation record, read once: an OBRES that stalled has read them (R216). -/
def resvBytes (va : Word) : M (List Byte) := fun s =>
  match s.hart.resume with
  | some (.obres bs) => .ok bs s
  | _ => loadRecord va 16 16 4 s

/-- OBRES (R216). [DESIGN CHOICE, log 118: unsafe] -/
def execObres (d : BitVec 5) (a : BitVec 5) (s : State) : Outcome State Fault Refusal :=
  finish (instrWord (.obres d a)) (do
    needWSite
    let bs ← resvBytes ((← get).rx a)
    let r := obRecOf bs
    let (w, c) ← myArray
    let lin := resvLin r.base
    if !obLegal (← get) r then effectMem fun s => s.wx d (-2)
    else if c.press.overlaps false lin r.len then effectMem fun s => s.wx d (-3)
    else if c.press.overlaps true lin r.len then throw (.wait (.obres bs))
    else
      match c.press.freeId with
      | none => effectMem fun s => s.wx d (-1)
      | some i =>
        effectMem fun s =>
          (s.modPress w fun p =>
            { p with
              resvs := p.resvs.setIfInBounds i
                (some ⟨r.base, r.len, BitVec.ofNat 3 r.fmt, r.sfmt, r.sc, BitVec.ofNat 2 r.bl, r.soff, false⟩) }).wx d
            (BitVec.ofNat 64 i)) s

/-- The overlapping releasing reservations have been freed and a stalled OBRES goes on (R216). [DESIGN CHOICE, log 118: unsafe] -/
def execObresStallEnd (h : HartId) (s : State) : Outcome State Fault Refusal :=
  .next (s.wakeIf h fun x w =>
    match w, x.car with
    | .obres bs, some c => (s.wcore? c.core).elim true fun k => !k.press.overlaps true (resvLin (obRecOf bs).base) (obRecOf bs).len
    | .obres _, none => true
    | _, _ => false)

/-- OBREL (R217). -/
def execObrel (a : BitVec 5) (s : State) : Outcome State Fault Refusal :=
  finish (instrWord (.obrel a)) (do
    needWSite
    let id := ((← get).rx a).toNat
    let (w, c) ← myArray
    match c.press.resvs[id]? with
    | some (some r) =>
      if r.releasing then throw (c50 14 0xFF)
      else if c.press.queue.any fun k => k.resvId == some id then
        effectM fun s => s.modPress w fun p => { p with resvs := p.resvs.setIfInBounds id (some { r with releasing := true }) }
      else effectM fun s => { (s.modW w fun c => c.freeResv id s.freeCount) with freeCount := s.freeCount + 1 }
    | _ => throw (c50 14 0xFF)) s

/-- A write that an MXFENCE of a thread covers: a thread's, or a copy's that is visible to it (R222). -/
def ObWrite.covered (who : HartId) (x : ObWrite) : Bool := x.src.isNone || x.seen.contains who

/-- MXFENCE: later commands read the newest write that it covers, or a later one (R222). [DESIGN CHOICE, log 75: safe] -/
def execMxfence (s : State) : Outcome State Fault Refusal :=
  finish (instrWord .mxfence) (do
    needWSite
    let (w, _) ← myArray
    effectM fun s =>
      s.modW w fun c =>
        { c with
          unfenced :=
            (c.unfenced.map fun u => { u with writes := u.writes.takeWhile fun x => !x.covered s.who }).filter fun u => !u.writes.isEmpty }) s

/-! ## The issue-order view (R220) -/

/-- The descriptors and the tile kinds after every command issued so far. -/
structure View where
  active : PlaneDesc
  shadow : PlaneDesc
  kinds : Vector TileKind 4
  deriving DecidableEq, Repr

/-- The view after a command. -/
def View.after (v : View) (k : Cmd) : View :=
  match k.kind with
  | .ldw => match k.resv with | some r => { v with shadow := r.desc } | none => v
  | .swap => { v with active := v.shadow, shadow := v.active }
  | .strm | .sqd => { v with kinds := v.kinds.setIfInBounds k.blk.dt (k.blk.kindAfter (v.kinds.toList.getD k.blk.dt .none)) }
  | .topk =>
    let src := v.kinds.toList.getD k.blk.st .none
    { v with kinds := v.kinds.setIfInBounds k.blk.dt (if src == .none then .int32 else src) }

/-- The waiting ACZEROs of a W-core: the commands issued before each, and its tile. -/
def State.zeros (s : State) (w : Nat) : List (Nat × Nat) :=
  s.allHarts.filterMap fun h =>
    match h.wait with
    | some (.aczero t n _) => if h.residentOn w then some (n, t) else none
    | _ => none

/-- The tiles zeroed between two places of the issue order. -/
def View.zeroed (v : View) (zs : List (Nat × Nat)) (lo hi : Nat) : View :=
  zs.foldl (fun v z => if lo ≤ z.1 && z.1 < hi then { v with kinds := v.kinds.setIfInBounds z.2 .none } else v) v

/-- The view of a W-core. -/
def State.viewOf (s : State) (w : Nat) (p : Press) : View :=
  let zs := s.zeros w
  let r :=
    p.queue.foldl (fun (a : View × Nat) k => ((a.1.zeroed zs a.2 k.no).after k, k.no))
      (⟨p.active.desc, p.shadow.desc, p.tiles.map Tile.kind⟩, 0)
  r.1.zeroed zs r.2 (p.issued + 1)

/-! ## Parameter blocks and their checks (R219, R220) -/

/-- The parameter block of 64 bytes (R219). -/
def blkOf (bs : List Byte) : Blk where
  aid := recNat bs 0 1 % 32
  wid := recNat bs 1 1 % 32
  dt := recNat bs 2 1 % 4
  st := recNat bs 2 1 / 4 % 4
  acc := recNat bs 3 1 % 2 = 1
  i32 := recNat bs 3 1 / 2 % 2 = 1
  largest := recNat bs 3 1 / 4 % 2 = 1
  m := recNat bs 4 2
  row0 := recNat bs 6 2
  kbase := recNat bs 8 2
  kcnt := recNat bs 10 2
  nbase := recNat bs 12 2
  ncnt := recNat bs 14 2
  aoff := recNat bs 16 4
  apitch := recNat bs 20 4
  aspitch := recNat bs 24 4
  woff := recNat bs 28 4
  g := recNat bs 32 1 % 8
  k := recNat bs 33 1 % 32
  resume := recNat bs 34 2

/-- The block of a command without one. -/
def Blk.none : Blk := blkOf []

/-- The least number of a byte's reserved bits, as a power of two: the byte's values from it on have a reserved bit set. -/
def reservedFrom (i : Nat) : Nat :=
  if i = 0 || i = 1 || i = 33 then 32 else if i = 2 then 16 else if i = 3 || i = 32 then 8 else if 36 ≤ i then 1 else 256

/-- The first byte of a block with a reserved bit set (R219, R220). [DEDUCED, log 71: unsafe] -/
def firstReserved (bs : List Byte) : Option Nat := (List.range 64).find? fun i => reservedFrom i ≤ recNat bs i 1

/-- The first check that a list of them fails: (condition, reason, offset). [DEDUCED, log 71: unsafe] -/
def firstBad (l : List (Bool × Nat × Nat)) : Option (Nat × Nat) := (l.find? fun c => c.1).map fun c => c.2

/-- The checks of rows and columns (R219): reasons 7 and 8. [DEDUCED, log 71: unsafe] -/
def rowChecks (b : Blk) : List (Bool × Nat × Nat) :=
  [(b.m = 0 || 128 < b.m, 7, 4), (128 < b.row0 + b.m, 7, 6), (b.ncnt = 0 || 256 < b.nbase + b.ncnt, 8, 14)]

/-- A span of rows of a reservation reaches past its length: m rows of len bytes at a pitch (R220 reason 5). -/
def pastEnd (r : Resv) (off m pitch len : Nat) : Bool := m ≠ 0 && len ≠ 0 && r.len < off + (m - 1) * pitch + len

/-- The checks of a load (R224). [DEDUCED, log 71: unsafe] -/
def loadChecks (b : Blk) (r : Resv) : List (Bool × Nat × Nat) :=
  [(pastEnd r b.woff 1 0 (weightBytes r.fmt.toNat), 5, 28),
   (pastEnd r r.soff 1 0 (r.desc.scaleCount * scaleBytes r.sfmt), 5, 0xFF)]

/-- A format code is an integer format. -/
def intFmt (f : BitVec 3) : Bool := 4 ≤ f.toNat

/-- The bytes of a command's scales for one row: none without columns along K. -/
def ascaleSpan (b : Blk) (r : Resv) : Nat := if r.sc && b.kcnt ≠ 0 then ascaleLen b r else 0

/-- The checks of a stream, lowest reason first (R112, R220, R226). [DEDUCED, log 71: unsafe] -/
def streamChecks (v : View) (b : Blk) (r : Resv) (sqd : Bool) : List (Bool × Nat × Nat) :=
  let d := v.active
  let kind := v.kinds.toList.getD b.dt .none
  ([(decide (6 ≤ r.fmt.toNat), 4, 0), (sqd && 6 ≤ d.fmt.toNat, 4, 0xFF),
   (pastEnd r b.aoff b.m b.apitch (b.kcnt * fmtBits r.fmt.toNat / 8), 5, 16),
   (pastEnd r r.soff b.m b.aspitch (ascaleSpan b r), 5, 24),
   (b.kbase % 16 ≠ 0, 6, 8), (b.kcnt % 16 ≠ 0 || b.kcnt = 0 || depthOf d.fmt.toNat < b.kbase + b.kcnt, 6, 10)] : List (Bool × Nat × Nat)) ++
  rowChecks b ++
  [(b.i32 && !(intFmt r.fmt && intFmt d.fmt && !r.sc && !d.sc), 9, 3),
   (b.acc && kind != .none && kind != (if b.i32 then .int32 else .fp32), 9, 3),
   (r.sc && d.sc && r.bl != d.bl, 10, 0xFF),
   (b.resume % 2 ^ b.g ≠ 0 || b.m ≤ b.resume, 11, 34),
   (!d.valid, 13, 0xFF)]

/-- The checks of a selection (R219, R228). [DEDUCED, log 71: unsafe] -/
def topkChecks (b : Blk) : List (Bool × Nat × Nat) := rowChecks b ++ [(b.k = 0 || 16 < b.k || b.ncnt < b.k, 12, 33)]

/-- The held reservation of an id. -/
def Press.held (p : Press) (id : Nat) : Option Resv :=
  match p.resvs[id]? with
  | some (some r) => if r.releasing then none else some r
  | _ => none

/-- The reservation of a command, or the failed check: reason 3 first, then those of the kind (R220). [DEDUCED, log 71: unsafe] -/
def judge (v : View) (p : Press) (kind : CmdKind) (b : Blk) : Except (Nat × Nat) (Option Resv) :=
  let answer (f : Option (Nat × Nat)) (r : Option Resv) : Except (Nat × Nat) (Option Resv) :=
    match f with | some e => .error e | none => .ok r
  match kind with
  | .ldw => match p.held b.wid with | none => .error (3, 1) | some r => answer (firstBad (loadChecks b r)) (some r)
  | .strm => match p.held b.aid with | none => .error (3, 0) | some r => answer (firstBad (streamChecks v b r false)) (some r)
  | .sqd => match p.held b.aid with | none => .error (3, 0) | some r => answer (firstBad (streamChecks v b r true)) (some r)
  | .topk => answer (firstBad (topkChecks b)) none
  | .swap => .ok none

/-! ## Issue (R218, R221) -/

/-- A window offset of a 64-byte aligned block in a bank of the stash role (R219, R220 reason 1). -/
def blockOk (s : State) (v : Word) : Bool :=
  v.toNat % 64 = 0 && inBank v.toNat && s.role (v.toNat / 0x20000) == 1

/-- A Press ticket (R221). -/
def pressTicket (w seq : Nat) : Word := BitVec.ofNat 64 (w * 2 ^ 48 + seq)

/-- A command queued behind the others. -/
def State.enqueue (s : State) (w : Nat) (k : Cmd) : State :=
  s.modW w fun c =>
    { c with
      press :=
        { c.press with
          issued := c.press.issued + 1
          seq := if k.seq = 0 then c.press.seq else k.seq
          queue := c.press.queue ++ [{ k with no := c.press.issued + 1, stale := c.unfenced.map fun u => (u.off, u.writes.map ObWrite.old) }] } }

/-- A lane with a lower vlane stands at the same command of the same W-core, stalled on the full queue or woken from that stall and not yet
issued. [DEDUCED, log 70: unsafe] -/
def State.lowerLane (s : State) (w : Nat) : Bool :=
  s.allHarts.any fun x =>
    x.residentOn w && x.u.pc == s.pc && (x.wait == some .pressRoom || x.resume == some .pressRoom) && x.car.elim true Car.free &&
    vlaneOf s x < vlaneOf s s.hart

/-- The queue has room, or the command stalls, behind the stalled commands of lower lanes too; the lanes of a group issue in vlane order (R218).
[DEDUCED, log 70: unsafe] -/
def needRoom : M (Nat × WCore) := do
  let (w, c) ← myArray
  let s ← get
  if 64 ≤ c.press.queue.length || s.lowerLane w then throw (.wait .pressRoom)
  if !myTurn s then throw .done
  pure (w, c)

/-- A ticketed command: its block read once, the checks, its place in the queue, its ticket (R218 to R221). [DEDUCED, log 70: unsafe] -/
def issueM (w : BitVec 32) (kind : CmdKind) (d a : XReg) (s : State) : Outcome State Fault Refusal :=
  finish w (do
    needWSite
    let (n, c) ← needRoom
    let v := (← get).rx a
    if !blockOk (← get) v then throw (c50 1 0xFF)
    let bs ← loadBytes (0x00FFFF0000000000 + v) 64
    match firstReserved bs with
    | some i => throw (c50 2 i)
    | none => pure ()
    let b := blkOf bs
    match judge ((← get).viewOf n c.press) c.press kind b with
    | .error e => throw (c50 e.1 e.2)
    | .ok r =>
      effectMem fun s =>
        (s.enqueue n
          ⟨kind, 0, c.press.seq + 1, b, v.toNat, r, if kind == .strm || kind == .sqd then b.resume else 0, [], [], false⟩).wx d
          (pressTicket n (c.press.seq + 1))) s

/-- MXLDW (R224). -/
def execMxldw (d : BitVec 5) (a : BitVec 5) (s : State) : Outcome State Fault Refusal :=
  issueM (instrWord (.mxldw d a)) .ldw d a s
/-- MXSTRM (R226). -/
def execMxstrm (d : BitVec 5) (a : BitVec 5) (s : State) : Outcome State Fault Refusal :=
  issueM (instrWord (.mxstrm d a)) .strm d a s
/-- MXSQD (R226). -/
def execMxsqd (d : BitVec 5) (a : BitVec 5) (s : State) : Outcome State Fault Refusal :=
  issueM (instrWord (.mxsqd d a)) .sqd d a s
/-- MXTOPK (R228). -/
def execMxtopk (d : BitVec 5) (a : BitVec 5) (s : State) : Outcome State Fault Refusal :=
  issueM (instrWord (.mxtopk d a)) .topk d a s

/-- MXSWAP (R225). -/
def execMxswap (s : State) : Outcome State Fault Refusal :=
  finish (instrWord .mxswap) (do
    needWSite
    let (n, _) ← needRoom
    effectM fun s => s.enqueue n ⟨.swap, 0, 0, Blk.none, 0, none, 0, [], [], false⟩) s

/-- A command has ended and one that stalled on the full queue is issued (R218). -/
def execPressCommandQueueRoom (h : HartId) (s : State) : Outcome State Fault Refusal :=
  .next (s.wakeIf h fun x w =>
    match w, x.car with
    | .pressRoom, some c => (s.wcore? c.core).elim true fun k => k.press.queue.length < 64
    | .pressRoom, none => true
    | _, _ => false)

/-! ## Tickets (R221) -/

/-- The status of a Press ticket (R221). -/
def State.pressStatus (s : State) (t : Word) : Nat :=
  let seq := field t 0 48
  if field t 57 7 ≠ 0 then 3
  else
    match s.wcore? (field t 48 9) with
    | none => 3
    | some c =>
      if seq = 0 || c.press.seq < seq then 3
      else if c.press.queue.any fun k => k.seq == seq then 4
      else if seq + 1024 ≤ c.press.seq then 2
      else match c.press.status.find? fun x => x.1 == seq with | some x => x.2 | none => 4

/-- MXWAIT (R221). -/
def execMxwait (d : BitVec 5) (a : BitVec 5) (s : State) : Outcome State Fault Refusal :=
  finish (instrWord (.mxwait d a)) (do
    needWSite
    let s ← get
    let t := s.rx a
    if s.pressStatus t = 4 then throw (.wait (.mxwait t))
    effectM fun s => s.wx d (BitVec.ofNat 64 (s.pressStatus t))) s

/-- A ticket has left pending status and a waiting MXWAIT returns it (R221). -/
def execMxwaitWake (h : HartId) (s : State) : Outcome State Fault Refusal :=
  .next (s.wakeIf h fun _ w => match w with | .mxwait t => s.pressStatus t != 4 | _ => false)

/-- MXSTAT: read, and the selected bits cleared, in one step (R227). -/
def execMxstat (d : BitVec 5) (a : BitVec 5) (s : State) : Outcome State Fault Refusal :=
  finish (instrWord (.mxstat d a)) (do
    needWSite
    let (w, c) ← myArray
    effectM fun s =>
      (s.modPress w fun p => { p with mxstat := p.mxstat &&& ~~~((s.rx a).setWidth 5) }).wx d (c.press.mxstat.setWidth 64)) s

/-! ## Tiles (R229, R230) -/

/-- A tile number, or cause 50 with reason 14. -/
def needTile (v : Word) : M Nat := if v.toNat < 4 then pure v.toNat else throw (c50 14 0xFF)

/-- The rows of a tile that a command will still write. -/
def Cmd.rows (k : Cmd) (t : Nat) : Option (Nat × Nat) :=
  match k.kind with
  | .strm | .sqd | .topk => if k.blk.dt == t then some (k.blk.row0 + k.row, k.blk.row0 + k.blk.m) else none
  | _ => none

/-- A row is pending for commands issued up to a place (R229). [DEDUCED, log 72: unsafe] -/
def Press.pending (p : Press) (t row upto : Nat) : Bool :=
  p.queue.any fun k => k.no ≤ upto && (match k.rows t with | some (lo, hi) => lo ≤ row && row < hi | none => false)

/-- The watermark of a tile (R229). -/
def Press.watermark (p : Press) (t : Nat) : Nat :=
  p.queue.foldl (fun m k => match k.rows t with | some (lo, hi) => if lo < hi then min m lo else m | none => m) 128

/-- ACWM (R229). -/
def execAcwm (d : BitVec 5) (a : BitVec 5) (s : State) : Outcome State Fault Refusal :=
  finish (instrWord (.acwm d a)) (do
    needWSite
    let t ← needTile ((← get).rx a)
    let (_, c) ← myArray
    effectM fun s => s.wx d (BitVec.ofNat 64 (c.press.watermark t))) s

/-- The element read into x or f: a lane's registers (R229). -/
def putElem (fp : Bool) (d : BitVec 5) (v : BitVec 32) (u : User) : User :=
  if fp then u.wf d (nanBox v.toNat) else u.wx d (sx32 v)

/-- ACRD and ACRDF: a stall while the row is pending (R229). [DEDUCED, log 72: unsafe] -/
def acrdM (w : BitVec 32) (fp : Bool) (d : BitVec 5) (a b : XReg) (s : State) : Outcome State Fault Refusal :=
  finish w (do
    needWSite
    let s ← get
    let t ← needTile (s.rx a)
    let v := (s.rx b).toNat
    if 2 ^ 15 ≤ v then throw (c50 14 0xFF)
    let (_, c) ← myArray
    let row := v / 256
    let col := v % 256
    if c.press.pending t row c.press.issued then throw (.wait (.acrdRow fp d t row col c.press.issued (s.ilen none).toNat))
    effectM fun s => s.modU (putElem fp d ((c.press.tile t).get row col))) s

/-- ACRD (R229). -/
def execAcrd (d : BitVec 5) (a : BitVec 5) (b : BitVec 5) (s : State) : Outcome State Fault Refusal :=
  acrdM (instrWord (.acrd d a b)) false d a b s
/-- ACRDF (R229). -/
def execAcrdf (d : BitVec 5) (a : BitVec 5) (b : BitVec 5) (s : State) : Outcome State Fault Refusal :=
  acrdM (instrWord (.acrdf d a b)) true d a b s

/-- The waiting instruction of a hart completes: f makes its registers, and it retires; one that is in no group enters its bin (R49). -/
def State.completeWait (s : State) (h : HartId) (len : Nat) (f : User → User) : State :=
  let t :=
    s.withHart h fun s =>
      let t := (s.modU f).retireTo (s.pc + BitVec.ofNat 64 len)
      if s.inGroup s.hart then t else t.refile
  match h with
  | .wthread ctx => t.restow ctx
  | _ => t

/-- A pending row has become final and a stalled ACRD or ACRDF returns (R229). [DEDUCED, log 72: unsafe] -/
def execAcrdRowFinal (h : HartId) (s : State) : Outcome State Fault Refusal :=
  match s.hart? h with
  | some x =>
    match x.wait, x.car with
    | some (.acrdRow fp d t row col upto len), some c =>
      match s.wcore? c.core with
      | some k =>
        if s.clockStopped c.core || !c.free || k.press.pending t row upto then .next s
        else .next (s.completeWait h len (putElem fp d ((k.press.tile t).get row col)))
      | none => .next s
    | _, _ => .next s
  | none => .next s

/-- A queued command issued up to a place uses a tile. -/
def Press.inUse (p : Press) (t upto : Nat) : Bool := p.queue.any fun k => k.no ≤ upto && k.usesTile t

/-- A tile zeroed: every bit zero, kind NONE (R230). -/
def State.zeroTile (s : State) (w t : Nat) : State := s.modPress w fun p => p.setTile t Tile.zero

/-- ACZERO: a wait while a command issued before it uses the tile (R230). [DEDUCED, log 72: unsafe] -/
def execAczero (a : BitVec 5) (s : State) : Outcome State Fault Refusal :=
  finish (instrWord (.aczero a)) (do
    needWSite
    let s ← get
    let t ← needTile (s.rx a)
    let (w, c) ← myArray
    if c.press.inUse t c.press.issued then throw (.wait (.aczero t c.press.issued (s.ilen none).toNat))
    effectM fun s => s.zeroTile w t) s

/-- The earlier users of a tile have ended and a waiting ACZERO zeroes it (R230). [DEDUCED, log 72: unsafe] -/
def execAczeroUsersDone (h : HartId) (s : State) : Outcome State Fault Refusal :=
  match s.hart? h with
  | some x =>
    match x.wait, x.car with
    | some (.aczero t upto len), some c =>
      match s.wcore? c.core with
      | some k =>
        if s.clockStopped c.core || !c.free || k.press.inUse t upto then .next s else .next ((s.zeroTile c.core t).completeWait h len id)
      | none => .next s
    | _, _ => .next s
  | none => .next s

/-! ## MXSAVE and MXREST (R233) -/

/-- A supervisor instruction executes in S-mode at the L-site alone (R130). -/
def supOk (s : State) : Bool := s.site == .l && s.hart.sup.mode == .s

/-- MXSAVE and MXREST are supervisor instructions of the L-site (R130, R233). [DEDUCED, log 69: unsafe] -/
def needSup (w : BitVec 32) : M Unit := fun s => if supOk s then .ok () s else raiseIllegal w s

/-- The code of a tile kind (R233). -/
def TileKind.code : TileKind → Nat
  | .none => 0 | .fp32 => 1 | .int32 => 2

/-- The eight bytes of a plane descriptor (R233). -/
def PlaneDesc.bytes (d : PlaneDesc) : List Byte :=
  natLe 1 (if d.valid then 1 else 0) ++ natLe 1 d.fmt.toNat ++
  natLe 1 (d.bl.toNat + (if d.sc then 4 else 0) + (if d.sfmt then 8 else 0)) ++ natLe 5 0

/-- The header of an image, its first 32 bytes; bytes 9 to 15, for which the table has no row, are zero (R233).
[DEDUCED, log 74: unsafe] -/
def Press.header (p : Press) (w : Nat) : List Byte :=
  natLe 2 w ++ natLe 2 0 ++ natLe 4 p.mxstat.toNat ++
  natLe 1 ((p.tiles.toList.map fun t => t.kind.code).foldr (fun k a => k + 4 * a) 0) ++ natLe 7 0 ++
  p.active.desc.bytes ++ p.shadow.desc.bytes

/-- Byte j of an array of 32-bit words. -/
def wordByte (l : Array (BitVec 32)) (j : Nat) : Byte := ((l.getD (j / 4) 0) >>> (8 * (j % 4))).setWidth 8

/-- Byte i of the image (R233). -/
def Press.imageByte (p : Press) (w i : Nat) : Byte :=
  if i < 0x1000 then (p.header w).getD i 0
  else if i < 0x21000 then p.active.weights.getD (i - 0x1000) 0
  else if i < 0x31000 then wordByte p.active.scales (i - 0x21000)
  else if i < 0x51000 then p.shadow.weights.getD (i - 0x31000) 0
  else if i < 0x61000 then wordByte p.shadow.scales (i - 0x51000)
  else
    let j := i - 0x61000
    ((sparseGet 0 (p.tile (j / 0x20000)).cells (j / 4 % 32768)) >>> (8 * (j % 4))).setWidth 8

/-- The pages of an image that are still to be stored to can all be stored to, or the fault of the first that cannot.
[DEDUCED, log 74: unsafe] -/
def checkPages (va : Word) : Nat → M Unit
  | 0 => pure ()
  | n + 1 => do
    match windowOff va with
    | some _ => throw .siteTrap
    | none => pure ()
    let s ← get
    match locate .store (xmodeOf s.hart .store) va 4096 s with
    | (.error c, s1) => do
      set s1
      throw (.trap c va)
    | (.ok _, s1) => set s1
    checkPages (va + 4096) n

/-- The pages of an image stored, from page i on. -/
def storePages (p : Press) (w : Nat) (va : Word) : Nat → Nat → M Unit
  | 0, _ => pure ()
  | n + 1, i => do
    storeBytes va ((List.range 4096).map fun j => p.imageByte w (4096 * i + j))
    storePages p w (va + 4096) n (i + 1)

/-- The pages of an image loaded. -/
def loadPages (va : Word) : Nat → Array Byte → M (Array Byte)
  | 0, l => pure l
  | n + 1, l => do
    let bs ← loadBytes va 4096
    loadPages (va + 4096) n (bs.foldl Array.push l)

/-- The W-core that an image names, when it belongs to the partition (R233). -/
def imageCore (va : Word) : M (Nat × WCore) := do
  let bs ← loadBytes va 2
  match (← get).wcore? (recNat bs 0 2) with
  | some c => pure (recNat bs 0 2, c)
  | none => throw (c50 15 0xFF)

/-- The place in the issue order up to which an MXSAVE or MXREST of W-core w waits: that of its first attempt (R234). -/
def idlePlace (s : State) (w : Nat) (p : Press) : Nat :=
  match s.hart.resume with
  | some (.pressIdle v n) => if v = w then n else p.issued
  | _ => p.issued

/-- The array's queue is empty of the commands issued before the instruction, or it waits; those issued after it do not start until it has
acted, so that it acts at an instant of empty queue (R233, R234). -/
def needIdle (w : Nat) (p : Press) : M Unit := fun s =>
  let n := idlePlace s w p
  if p.queue.any fun k => k.no ≤ n then .error (.wait (.pressIdle w n)) s else .ok () s

/-- MXSAVE (R233). [DEDUCED, log 69: unsafe; DEDUCED, log 74: unsafe] -/
def execMxsave (a : BitVec 5) (s : State) : Outcome State Fault Refusal :=
  finish (instrWord (.mxsave a)) (do
    needSup (instrWord (.mxsave a))
    let va := (← get).rx a
    if va.toNat % 4096 ≠ 0 then throw (.trap 6 va)
    let (w, c) ← imageCore va
    needIdle w c.press
    checkPages va 225
    storePages c.press w va 225 0
    retireM) s

/-- The descriptor of an image's bytes. -/
def descAt (l : Array Byte) (o : Nat) : PlaneDesc :=
  let b := (l.getD (o + 2) 0).toNat
  ⟨(l.getD o 0).getLsbD 0, (l.getD (o + 1) 0).setWidth 3, BitVec.ofNat 2 b, b / 4 % 2 = 1, b / 8 % 2 = 1⟩

/-- A descriptor's bytes are bad: a reserved FMT in a VALID descriptor, or a nonzero reserved byte; reserved bits of its other bytes are
ignored (R5, R233). [DEDUCED, log 74: unsafe] -/
def descBad (l : Array Byte) (o : Nat) : Bool :=
  let b (i : Nat) : Nat := (l.getD (o + i) 0).toNat
  (b 0 % 2 = 1 && 8 ≤ b 1) || b 3 ≠ 0 || b 4 ≠ 0 || b 5 ≠ 0 || b 6 ≠ 0 || b 7 ≠ 0

/-- The tile kinds of an image. -/
def kindAt (l : Array Byte) (t : Nat) : Nat := (l.getD 8 0).toNat / 4 ^ t % 4

/-- An image header is bad (R220 reason 15, R233); bytes 9 to 15, for which the table has no row, are ignored.
[DEDUCED, log 74: unsafe] -/
def imageBad (l : Array Byte) : Bool :=
  descBad l 16 || descBad l 24 || (List.range 4).any (fun t => kindAt l t == 3) ||
  (List.range 4096).any fun i => (i = 2 || i = 3 || 32 ≤ i) && l.getD i 0 != 0

/-- A 32-bit word of an image. -/
def wordAt (l : Array Byte) (o : Nat) : BitVec 32 :=
  l.getD (o + 3) 0 ++ l.getD (o + 2) 0 ++ l.getD (o + 1) 0 ++ l.getD o 0

/-- The plane of an image (R233). -/
def planeAt (l : Array Byte) (desc weights scales : Nat) : Plane :=
  let d := descAt l desc
  ⟨d, ((List.range (weightBytes d.fmt.toNat)).map fun i => l.getD (weights + i) 0).toArray,
   ((List.range d.scaleCount).map fun i => wordAt l (scales + 4 * i)).toArray⟩

/-- The tile of an image (R233). -/
def tileAt (l : Array Byte) (t : Nat) : Tile :=
  ⟨if kindAt l t = 1 then .fp32 else if kindAt l t = 2 then .int32 else .none,
   (List.range 32768).filterMap fun i => let v := wordAt l (0x61000 + 0x20000 * t + 4 * i); if v = 0 then none else some (i, v)⟩

/-- A Press with an image installed: the reservations and the ticket sequence stay (R233). -/
def Press.restored (p : Press) (l : Array Byte) : Press :=
  { p with
    active := planeAt l 16 0x1000 0x21000
    shadow := planeAt l 24 0x31000 0x51000
    tiles := #v[tileAt l 0, tileAt l 1, tileAt l 2, tileAt l 3]
    mxstat := (l.getD 4 0).setWidth 5 }

/-- MXREST (R233). [DEDUCED, log 69: unsafe; DEDUCED, log 74: unsafe] -/
def execMxrest (a : BitVec 5) (s : State) : Outcome State Fault Refusal :=
  finish (instrWord (.mxrest a)) (do
    needSup (instrWord (.mxrest a))
    let va := (← get).rx a
    if va.toNat % 4096 ≠ 0 then throw (.trap 4 va)
    let (w, c) ← imageCore va
    needIdle w c.press
    let l ← loadPages va 225 #[]
    if imageBad l then throw (c50 15 0xFF)
    effectM fun s => s.modPress w fun p => p.restored l) s

/-- The array's queue is empty and a waiting MXSAVE or MXREST acts (R233). -/
def execMxsaveQueueEmpty (h : HartId) (s : State) : Outcome State Fault Refusal :=
  .next (s.wakeIf h fun _ w =>
    match w with
    | .pressIdle n before => (s.wcore? n).elim true fun c => c.press.queue.all fun k => before < k.no
    | _ => false)

end Sys2Proof.Machine
end

