-- ==== Sys2Proof/Machine/Dists.lean ====
section
/-! DEFINITION. Sys2Proof/Machine/Dists.lean: the distribution instructions (R242 to R268). -/
namespace Sys2Proof.Machine

open Host (Outcome)

/-! ## Points and their order (R242) -/

/-- The place of an FP32 code in distribution order (R242). -/
def distKey (b : Nat) : Int :=
  let mag : Int := (b % 2 ^ 31 : Nat)
  if 0x7F800000 < mag then 2 ^ 40 else if b / 2 ^ 31 % 2 = 1 then -mag - 1 else mag

/-- A pair put behind every pair that is not above it. -/
def distInsert (a : Nat × Nat) : List (Nat × Nat) → List (Nat × Nat)
  | [] => [a]
  | b :: rest => if distKey a.1 < distKey b.1 then a :: b :: rest else b :: distInsert a rest

/-- (value, weight) pairs sorted into distribution order; pairs of equal value keep their order. -/
def distSort (l : List (Nat × Nat)) : List (Nat × Nat) := l.foldl (fun a x => distInsert x a) []

/-- A distribution of eight points. -/
def distOf (l : List (Nat × Nat)) (tag : BitVec 16) (form : Bool) : Dist where
  v := Vector.ofFn fun i : Fin 8 => BitVec.ofNat 32 (l.getD i (0, 0)).1
  w := Vector.ofFn fun i : Fin 8 => BitVec.ofNat 16 (l.getD i (0, 0)).2
  tag := tag
  form := form

/-- Values with the weight 8,192 each. -/
def evenly (l : List Nat) : List (Nat × Nat) := l.map fun v => (v, 8192)

/-- A code is a NaN of FP32. -/
def nanS (b : Nat) : Bool := (unpack fp32 b).isNan

/-- The bits of zdflags for the results of operations written as points: their IEEE flags and DNAN (R245). -/
def zdFlags (l : List FRes) : BitVec 7 := l.foldl (fun f r => f ||| zdOf r.flags (nanS r.bits) false) 0

/-- A Q-form result is sorted; an S-form result keeps its order (R254, R255). -/
def sorted (form : Bool) (l : List (Nat × Nat)) : List (Nat × Nat) := if form then l else distSort l

/-! ## Condensation (R251) -/

/-- The parts of bin k among sorted items that begin at pos: the mass of each within the bin, and its value. -/
def binParts (k : Nat) : List (Nat × Nat) → Nat → List (Nat × Nat)
  | [], _ => []
  | (v, m) :: rest, pos =>
    let lo := max pos (k * 2 ^ 29)
    let hi := min (pos + m) ((k + 1) * 2 ^ 29)
    if lo < hi then (hi - lo, v) :: binParts k rest (pos + m) else binParts k rest (pos + m)

/-- The flags of a bin of both infinities, whatever else it receives (R251). -/
def infFlags (parts : List (Nat × Nat)) : BitVec 5 :=
  let holds (neg : Bool) : Bool := parts.any fun p => unpack fp32 p.2 == .inf neg
  if holds false && holds true then flagNV else 0

/-- The value of a bin and the flags its making raised. -/
def binValue (ftz : Bool) (parts : List (Nat × Nat)) : FRes :=
  if parts.any fun p => nanS p.2 then ⟨fp32.nanBits, infFlags parts⟩
  else
    let acc :=
      parts.foldl (fun (a : FRes) p =>
        let r := fpFma fp64 .rne false (fpInt p.1 0) (unpack fp32 p.2) (unpack fp64 a.bits)
        ⟨r.bits, a.flags ||| (r.flags &&& flagNV)⟩) ⟨0, 0⟩
    let z := fpScale fp32 .rne ftz (unpack fp64 acc.bits) (-29)
    ⟨z.bits, acc.flags ||| z.flags⟩

/-- Condensation of items (value, mass), masses totalling 2^32: eight values in order, and the bits of zdflags (R251).
[DEDUCED, log 18: unsafe] -/
def condense (ftz : Bool) (items : List (Nat × Nat)) : List Nat × BitVec 7 :=
  let its := distSort (items.filter fun i => i.2 ≠ 0)
  let z := (List.range 8).map fun k => binValue ftz (binParts k its 0)
  ((distSort (z.map fun r => (r.bits, 0))).map Prod.fst, zdFlags z)

/-! ## Binary operations (R252) -/

/-- A value operation of two FP32 codes. -/
abbrev DistOp := Rnd → Bool → Nat → Nat → FRes

/-- An operation that rounds. -/
def roundedOp (f : Fmt2 → Rnd → Bool → Fp → Fp → FRes) : DistOp := fun rm ftz x y => f fp32 rm ftz (unpack fp32 x) (unpack fp32 y)

/-- FMIN.S or FMAX.S (R115). -/
def minmaxOp (isMax : Bool) : DistOp := fun _ _ x y => fpMinMax fp32 isMax x y (unpack fp32 x) (unpack fp32 y)

/-- A kind of cause 27 with its datum (R250). -/
def c27 (kind : Nat) (v : Nat) : Exc := .trap 27 (BitVec.ofNat 64 (kind * 2 ^ 56 + v))

/-- Two operands stand for one joint sample set (R252). -/
def joint (x y : Dist) : Bool := x.form && y.form && x.tag == y.tag && x.tag != 0

/-- The pointwise result of joint samples, with its bits of zdflags. -/
def jointResult (s : State) (op : DistOp) (rm : Rnd) (x y : Dist) : Dist × BitVec 7 :=
  let z := (x.points.zip y.points).map fun p => op rm s.hart.u.ftz32 (s.dazCode .s p.1.1) (s.dazCode .s p.2.1)
  (distOf (evenly (z.map FRes.bits)) x.tag true, zdFlags z)

/-- The all-pairs result of independent operands, with its bits of zdflags. -/
def pairsResult (s : State) (op : DistOp) (rm : Rnd) (x y : Dist) : Dist × BitVec 7 :=
  let z :=
    x.points.flatMap fun a => y.points.map fun b => (op rm s.hart.u.ftz32 (s.dazCode .s a.1) (s.dazCode .s b.1), a.2 * b.2)
  let c := condense s.hart.u.ftz32 (z.map fun i => (i.1.bits, i.2))
  (distOf (evenly c.1) (x.tag ||| y.tag) false, z.foldl (fun f i => f ||| zdOf i.1.flags false false) c.2)

/-- The DX flag, and cause 27 where zdctl.DXT is set: operands of an independent pairing share a tag bit (R252). -/
def sharedTags (x y : Dist) : M Unit := fun s =>
  if joint x y || x.tag &&& y.tag == 0 then .ok () s
  else
    let s1 := s.accrueZd 1
    if s.hart.u.zdctl = 1#1 then .error (c27 1 (x.tag &&& y.tag).toNat) s1 else .ok () s1

/-- A binary operation (R252). [DESIGN CHOICE, log 119: unsafe] -/
def distBin (w : BitVec 32) (rounds : Bool) (op : DistOp) (d a b : DReg) (s : State) : Outcome State Fault Refusal :=
  finish w (do
    needD [d, a, b]
    let r ← if rounds then withRnd w none else pure Rnd.rne
    let s ← get
    let x := s.rd a
    let y := s.rd b
    sharedTags x y
    effectM fun s =>
      let z := if joint x y then jointResult s op r x y else pairsResult s op r x y
      (s.wd d z.1).accrueZd z.2) s

/-- DADD (R252). -/
def execDadd (d : BitVec 3) (a : BitVec 3) (b : BitVec 3) (s : State) : Outcome State Fault Refusal :=
  distBin (instrWord (.dadd d a b)) true (roundedOp fpAdd) d a b s
/-- DSUB (R252). -/
def execDsub (d : BitVec 3) (a : BitVec 3) (b : BitVec 3) (s : State) : Outcome State Fault Refusal :=
  distBin (instrWord (.dsub d a b)) true (roundedOp fpSub) d a b s
/-- DMUL (R252). -/
def execDmul (d : BitVec 3) (a : BitVec 3) (b : BitVec 3) (s : State) : Outcome State Fault Refusal :=
  distBin (instrWord (.dmul d a b)) true (roundedOp fpMul) d a b s
/-- DDIV (R252). -/
def execDdiv (d : BitVec 3) (a : BitVec 3) (b : BitVec 3) (s : State) : Outcome State Fault Refusal :=
  distBin (instrWord (.ddiv d a b)) true (roundedOp fpDiv) d a b s
/-- DMIN (R252). -/
def execDmin (d : BitVec 3) (a : BitVec 3) (b : BitVec 3) (s : State) : Outcome State Fault Refusal :=
  distBin (instrWord (.dmin d a b)) false (minmaxOp false) d a b s
/-- DMAX (R252). -/
def execDmax (d : BitVec 3) (a : BitVec 3) (b : BitVec 3) (s : State) : Outcome State Fault Refusal :=
  distBin (instrWord (.dmax d a b)) false (minmaxOp true) d a b s

/-! ## Mixtures, affine maps, functions and forms (R253 to R257) -/

/-- The weight p of DMIX as an FP32 code (R253). -/
def mixWeight (s : State) : Nat := match s.rs4 with | some r => s.fs r | none => 0x3F000000

/-- p × 65,536 rounded to an integer, none where p is NaN, below −0.0 or above 1.0 (R253). -/
def mixMass (p : Nat) : Option Nat :=
  match unpack fp32 p with
  | .zero _ => some 0
  | .fin false m e => if 0x3F800000 < p then none else some (roundInt .rne false m (e + 16)).1
  | _ => none

/-- DMIX (R253). [DEDUCED, log 18: unsafe; DESIGN CHOICE, log 119: unsafe] -/
def execDmix (d : BitVec 3) (a : BitVec 3) (b : BitVec 3) (s : State) : Outcome State Fault Refusal :=
  finish (instrWord (.dmix d a b)) (do
    needD [d, a, b]
    let _ ← withRnd (instrWord (.dmix d a b)) none
    let s ← get
    match mixMass (mixWeight s) with
    | none => throw (c27 2 (mixWeight s))
    | some m =>
      effectM fun s =>
        let x := s.rd a
        let y := s.rd b
        let c :=
          condense s.hart.u.ftz32
            ((x.points.map fun i => (i.1, i.2 * m)) ++ y.points.map fun i => (i.1, i.2 * (65536 - m)))
        (s.wd d (distOf (evenly c.1) (x.tag ||| y.tag) false)).accrueZd c.2) s

/-- A pointwise result: weights, tags and form kept, a Q-form result sorted (R254, R255). -/
def State.pointwise (s : State) (d : DReg) (x : Dist) (f : Nat → FRes) : State :=
  let z := x.points.map fun i => (f i.1, i.2)
  (s.wd d (distOf (sorted x.form (z.map fun i => (i.1.bits, i.2))) x.tag x.form)).accrueZd (zdFlags (z.map Prod.fst))

/-- An FP32 input of an instruction with an optional fourth operand: the operand after DAZ32, or +0.0 (R249). -/
def State.valS4 (s : State) : Fp := match s.rs4 with | some r => s.valS r | none => .zero false

/-- DAFF: a · x + b for each point (R254). -/
def execDaff (d : BitVec 3) (a : BitVec 3) (b : BitVec 5) (s : State) : Outcome State Fault Refusal :=
  finish (instrWord (.daff d a b)) (do
    needD [d, a]
    let r ← withRnd (instrWord (.daff d a b)) none
    effectM fun s =>
      s.pointwise d (s.rd a) fun x =>
        fpFma fp32 r s.hart.u.ftz32 (s.valS b) (dazS s (unpack fp32 x)) s.valS4) s

/-- RELU: the value when it is above zero, else +0.0 (R255). -/
def reluS (x : Nat) : FRes :=
  match unpack fp32 x with
  | .nan a => nanRes fp32 a
  | .fin false _ _ => ⟨x, 0⟩
  | .inf false => ⟨x, 0⟩
  | _ => ⟨0, 0⟩

/-- A function of DMAP on an FP32 code (R255). -/
def mapFn (n : Nat) (rm : Rnd) (ftz : Bool) (x : Nat) : FRes :=
  let v := unpack fp32 x
  match n with
  | 0 => reluS x
  | 1 => fpExp fp32 rm ftz x v
  | 2 => fpLog fp32 rm ftz x v
  | 3 => fpSigmoid fp32 rm ftz x v
  | 4 => fpTanh fp32 rm ftz x v
  | 5 => ⟨signToken fp32 false x, 0⟩
  | 6 => ⟨signToken fp32 true x, 0⟩
  | _ => fpSqrt fp32 rm ftz v

/-- DMAP (R255). -/
def execDmap (d : BitVec 3) (a : BitVec 3) (n : BitVec 3) (s : State) : Outcome State Fault Refusal :=
  finish (instrWord (.dmap d a n)) (do
    needD [d, a]
    let r ← withRnd (instrWord (.dmap d a n)) none
    effectM fun s => s.pointwise d (s.rd a) fun x => mapFn n.toNat r s.hart.u.ftz32 (s.dazCode .s x)) s

/-- The result of DFORM with its bits of zdflags: a copy keeps its NaNs as they are, and a NaN written to a point sets DNAN (R245, R249, R256).
[DEDUCED, log 18: unsafe] -/
def formOf (ftz : Bool) (x : Dist) (target : Bool) : Dist × BitVec 7 :=
  let dnan := zdOf 0 (x.points.any fun p => nanS p.1) false
  if x.form = target then (x, dnan)
  else if x.form then (distOf (distSort (x.points.map fun p => (if nanS p.1 then fp32.nanBits else p.1, p.2))) x.tag false, dnan)
  else
    let c := condense ftz (x.points.map fun i => (i.1, i.2 * 65536))
    (distOf (evenly c.1) x.tag true, c.2)

/-- DFORM (R256). [DEDUCED, log 18: unsafe] -/
def execDform (d : BitVec 3) (a : BitVec 3) (t : BitVec 1) (s : State) : Outcome State Fault Refusal :=
  finish (instrWord (.dform d a t)) (do
    needD [d, a]
    effectM fun s => let r := formOf s.hart.u.ftz32 (s.rd a) (t == 1); (s.wd d r.1).accrueZd r.2) s

/-- DMV (R257). -/
def execDmv (d : BitVec 3) (a : BitVec 3) (s : State) : Outcome State Fault Refusal :=
  finish (instrWord (.dmv d a)) (do
    needD [d, a]
    effectM fun s => s.wd d (s.rd a)) s

/-! ## Making distributions (R258 to R260) -/

/-- DPT: a point mass (R258). -/
def execDpt (d : BitVec 3) (a : BitVec 5) (s : State) : Outcome State Fault Refusal :=
  finish (instrWord (.dpt d a)) (do
    needD [d]
    effectM fun s =>
      let v := if nanS (s.fs a) then fp32.nanBits else s.fs a
      (s.wd d (distOf (evenly (List.replicate 8 v)) 0 false)).accrueZd (zdOf 0 (nanS v) false)) s

/-- A finite value as a signed integer and an exponent. -/
def finParts : Fp → Option (Int × Int)
  | .zero _ => some (0, 0)
  | .fin s m e => some (if s then -(m : Int) else m, e)
  | _ => none

/-- The midpoint of stratum k of the interval from a to b: a + (b − a)(2k + 1)/16, rounded once; an exact zero is +0.0 (R259). -/
def stratum (rm : Rnd) (ftz : Bool) (a b : Int × Int) (k : Nat) : FRes :=
  let e := min a.2 b.2
  let x := a.1 * 2 ^ (a.2 - e).toNat
  let y := b.1 * 2 ^ (b.2 - e).toNat
  let v := 16 * x + (y - x) * (2 * k + 1)
  if v = 0 then ⟨0, 0⟩ else roundPack fp32 rm ftz (decide (v < 0)) v.natAbs (e - 4) false

/-- The points of DUNI (R259). -/
def uniPoints (rm : Rnd) (ftz : Bool) (a b : Fp) : List FRes :=
  match finParts a, finParts b with
  | some x, some y => (List.range 8).map (stratum rm ftz x y)
  | _, _ => List.replicate 8 ⟨fp32.nanBits, flagNV⟩

/-- DUNI (R259). -/
def execDuni (d : BitVec 3) (a : BitVec 5) (t : BitVec 4) (s : State) : Outcome State Fault Refusal :=
  finish (instrWord (.duni d a t)) (do
    needD [d]
    let r ← withRnd (instrWord (.duni d a t)) none
    effectM fun s =>
      let z := uniPoints r s.hart.u.ftz32 (s.valS a) s.valS4
      (s.wd d (distOf (distSort (evenly (z.map FRes.bits))) (1#16 <<< t.toNat) false)).accrueZd (zdFlags z)) s

/-- The mix of a counter value under a key (R260). -/
def sampMix (key c : Word) : Word :=
  let x0 := key ^^^ (c * 0x9FB21C651E98DF25)
  let x1 := (x0 ^^^ (x0 >>> 32)) * 0xD6E8FEB86659FD93
  let x2 := (x1 ^^^ (x1 >>> 29)) * 0xA3B195AC4D5F7E21
  x2 ^^^ (x2 >>> 32)

/-- The samples of DSAMP (R260). -/
def samples (seed : Word) (stream : Nat) (rank : Nat) (n : BitVec 61) : List Nat :=
  let key := seed ^^^ (BitVec.ofNat 64 stream * 0xD6E8FEB86659FD93) ^^^ (BitVec.ofNat 64 rank * 0xA3B195AC4D5F7E21)
  (List.range 8).map fun i =>
    (roundFp fp32 .rne false (fpInt (sampMix key ((n.setWidth 64 <<< 3) ||| BitVec.ofNat 64 i) >>> 40).toNat (-24))).bits

/-- DSAMP (R260). -/
def execDsamp (d : BitVec 3) (a : BitVec 5) (s : State) : Outcome State Fault Refusal :=
  finish (instrWord (.dsamp d a)) (do
    needD [d]
    effectM fun s =>
      let i : BitVec 4 := (s.rx a).setWidth 4
      let n := s.hart.u.draw[i.toNat]'i.isLt
      (s.wd d (distOf (evenly (samples s.hart.u.zseed i.toNat (rankOf s s.hart) n)) (1#16 <<< i.toNat) true)).modU fun u =>
        { u with draw := u.draw.set i.toNat (n + 1) i.isLt }) s

/-! ## Memory (R244, R261, R262) -/

/-- The distribution of a 64-byte image (R244). -/
def distImage (bs : List Byte) : Dist :=
  distOf ((List.range 8).map fun i => (recNat bs (4 * i) 4, recNat bs (32 + 2 * i) 2)) (BitVec.ofNat 16 (recNat bs 48 2))
    (recNat bs 50 1 % 2 = 1)

/-- Weights that keep R242 for the form. -/
def weightsOk (x : Dist) : Bool :=
  if x.form then x.points.all fun p => p.2 == 8192 else (x.points.map Prod.snd).sum == 65536

/-- DLD (R261): every aligned 8-byte word is of one age, in a bound region too (R263). -/
def execDld (d : BitVec 3) (a : BitVec 5) (s : State) : Outcome State Fault Refusal :=
  finish (instrWord (.dld d a)) (do
    needD [d]
    let va := (← get).rx a
    let bs ← loadRecord va 64 64 4
    let x := distImage bs
    if !weightsOk x then throw (.trap 27 va)
    effectMem fun s => s.wd d (distOf (sorted x.form x.points) x.tag x.form)) s

/-- The places of the words of an image that the current thread stores at va with effect for others: none in a bound region outside its team's
windows, where the bytes stay with the thread (R73, R85, R263). -/
def imagePlaces (va : Word) (s : State) : Option ((Nat → WordPlace) × State) :=
  match windowOff va with
  | some off => s.hart.car.bind fun c => if windowOk s off 64 then some ((fun i => .window c.core (off + 8 * i)), s) else none
  | none =>
    match s.stashFor va with
    | some (t, w) =>
      let d := va.toNat - w.base.toNat
      (match fillGranule t w (d / 128) .store s with
       | (.ok g, s1) => some ((fun i => .stash t.num w.num g.idx (d % 128 + 8 * i) (g.pa + d % 128 + 8 * i)), s1)
       | _ => none)
    | none =>
      if (s.bindingAt (asidOf s.hart) va.toNat).isNone then
        (match locate .store (xmodeOf s.hart .store) va 64 s with
         | (.ok pa, _) => some ((fun i => .home (pa + 8 * i)), s)
         | _ => none)
      else none

/-- Word i of an image. -/
def imageWord (bs : List Byte) (i : Nat) : List Byte := (bs.drop (8 * i)).take 8

/-- The words of an image that the mask names stand unperformed; the others are stored one by one (R263). -/
def tryWords (mask : BitVec 8) (va : Word) (bs : List Byte) (place : Nat → WordPlace) (s : State) : State :=
  let s1 := ((List.range 8).filter fun i => !mask.getLsbD i).foldl (fun (t : State) i =>
    (tryStore (va + BitVec.ofNat 64 (8 * i)) (imageWord bs i) t).2) s
  { s1 with tail := s1.tail ++ ((List.range 8).filter fun i => mask.getLsbD i).map fun i => ⟨s1.hart.id, place i, imageWord bs i⟩ }

/-- An image store tried by the current thread: its aligned 8-byte words are single accesses, and those that the mask names follow later
(R263). -/
def tryImage (mask : BitVec 8) (va : Word) (bs : List Byte) : State → Option Exc × State := fun s =>
  match tryStore va bs s with
  | (some e, s1) => (some e, s1)
  | (none, s1) =>
    if mask = 0 then (none, s1)
    else match imagePlaces va s with | some (place, s2) => (none, tryWords mask va bs place s2) | none => (none, s1)

/-- An image stored, under the mask that the step's order gives; behind earlier mending entries it is queued (R66, R263). -/
def storeImage (va : Word) (bs : List Byte) : M Unit := fun s => mendable va .store bs (tryImage s.split va bs) s

/-- DST (R262). [DESIGN CHOICE, log 95: safe] -/
def execDst (d : BitVec 3) (a : BitVec 5) (s : State) : Outcome State Fault Refusal :=
  finish (instrWord (.dst d a)) (do
    needD [d]
    let s ← get
    let va := s.rx a
    if va.toNat % 64 ≠ 0 then throw (.trap 6 va)
    storeImage va (imageOf (s.rd d))
    retireM) s

/-! ## Extracts (R264 to R267) -/

/-- An extract's result: the FP32 code, a NaN canonical with DNAN, and the flags of its arithmetic. -/
def State.extracted (s : State) (d : FReg) (r : FRes) : State :=
  let v := if nanS r.bits then fp32.nanBits else r.bits
  (s.wf d (nanBox v)).accrueZd (zdOf r.flags (nanS v) false)

/-- The items of a distribution: its points with nonzero weight. -/
def Dist.items (x : Dist) : List (Nat × Nat) := x.points.filter fun p => p.2 ≠ 0

/-- A running FP64 value with the flags raised so far. -/
def d64 (fl : BitVec 5) (r : FRes) : FRes := ⟨r.bits, fl ||| r.flags⟩

/-- The sum of ω · e over items, e given with its flags (R264). -/
def wsum (its : List (Nat × Nat)) (e : Nat → Fp × BitVec 5) : FRes :=
  its.foldl (fun (a : FRes) i =>
    let v := e i.1
    d64 (a.flags ||| v.2) (fpFma fp64 .rne false (fpInt i.2 (-16)) v.1 (unpack fp64 a.bits))) ⟨0, 0⟩

/-- The k-th power of a deviation from μ, each product rounded (R264). -/
def devPow (k : Nat) (mu : Fp) (v : Nat) : Fp × BitVec 5 :=
  let d := fpSub fp64 .rne false (unpack fp32 v) mu
  let dv := unpack fp64 d.bits
  let e := d64 d.flags (fpMul fp64 .rne false dv dv)
  let ev := unpack fp64 e.bits
  let r :=
    match k with
    | 2 => e
    | 3 => d64 e.flags (fpMul fp64 .rne false ev dv)
    | _ => d64 e.flags (fpMul fp64 .rne false ev ev)
  (unpack fp64 r.bits, r.flags)

/-- An FP64 result rounded to FP32 (R264, R265). -/
def narrow64 (r : FRes) : FRes := d64 r.flags (roundFp fp32 .rne false (unpack fp64 r.bits))

/-- A moment (R264). [DEDUCED, log 18: unsafe] -/
def moment (x : Dist) (k : Nat) : FRes :=
  let its := x.items
  if k = 0 then
    roundFp fp32 .rne false (fpInt ((its.filter fun i => !nanS i.1).map Prod.snd).sum (-16))
  else
    let mu := wsum its fun v => (unpack fp32 v, 0)
    if k = 1 then narrow64 mu
    else let r := wsum its (devPow k (unpack fp64 mu.bits)); narrow64 (d64 mu.flags r)

/-- DMOM (R264). -/
def execDmom (d : BitVec 5) (a : BitVec 3) (n : BitVec 3) (s : State) : Outcome State Fault Refusal :=
  finish (instrWord (.dmom d a n)) (do
    needD [a]
    effectM fun s => s.extracted d (moment (s.rd a) n.toNat)) s

/-- The centres of items in 2^−17, after a mass of tot (R265). -/
def centres : List (Nat × Nat) → Nat → List Nat
  | [], _ => []
  | i :: rest, tot => (2 * tot + i.2) :: centres rest (tot + i.2)

/-- a ≤ b for values that are no NaN. -/
def fpLe (a b : Fp) : Bool := fpLt a b || fpEq a b

/-- The interpolation between two neighbouring items at p; their values are compared in distribution order (R242, R265).
[DEDUCED, log 18: unsafe] -/
def interpolate (p : Fp) (ci cj vi vj : Nat) : FRes :=
  if distKey vi = distKey vj then ⟨vi, 0⟩
  else
    let c (n : Nat) : Fp := fpInt n (-17)
    let n := fpSub fp64 .rne false p (c ci)
    let m := fpSub fp64 .rne false (c cj) (c ci)
    let t := d64 (n.flags ||| m.flags) (fpDiv fp64 .rne false (unpack fp64 n.bits) (unpack fp64 m.bits))
    let v := fpSub fp64 .rne false (unpack fp32 vj) (unpack fp32 vi)
    narrow64 (d64 (t.flags ||| v.flags) (fpFma fp64 .rne false (unpack fp64 t.bits) (unpack fp64 v.bits) (unpack fp32 vi)))

/-- The quantile at p among (value, centre) pairs, p not below the first centre (R265). -/
def quantileIn (p : Fp) : List (Nat × Nat) → FRes
  | [] => ⟨fp32.nanBits, 0⟩
  | [i] => ⟨i.1, 0⟩
  | i :: j :: rest => if fpLt p (fpInt j.2 (-17)) then interpolate p i.2 j.2 i.1 j.1 else quantileIn p (j :: rest)

/-- The p-quantile (R265). [DEDUCED, log 18: unsafe] -/
def quantile (x : Dist) (p : Fp) : FRes :=
  let its := (if x.form then distSort x.points else x.points).filter fun i => i.2 ≠ 0
  let cs := (its.map Prod.fst).zip (centres its 0)
  if p.isNan then ⟨fp32.nanBits, 0⟩
  else
    match cs with
    | [] => ⟨fp32.nanBits, 0⟩
    | i :: _ => if fpLe p (fpInt i.2 (-17)) then ⟨i.1, 0⟩ else quantileIn p cs

/-- DQNT (R265). -/
def execDqnt (d : BitVec 5) (a : BitVec 3) (b : BitVec 5) (s : State) : Outcome State Fault Refusal :=
  finish (instrWord (.dqnt d a b)) (do
    needD [a]
    effectM fun s => s.extracted d (quantile (s.rd a) (unpack fp32 (s.fs b)))) s

/-- The cumulative distribution at x (R266). [DEDUCED, log 18: unsafe] -/
def cumulative (d : Dist) (x : Fp) : FRes :=
  if x.isNan then ⟨fp32.nanBits, 0⟩
  else
    let mass (sel : Fp → Bool) : Nat := ((d.points.filter fun p => sel (unpack fp32 p.1)).map Prod.snd).sum
    roundFp fp32 .rne false (fpInt (2 * mass (fun v => fpLt v x) + mass (fun v => fpEq v x) : Nat) (-17))

/-- DCDF (R266). -/
def execDcdf (d : BitVec 5) (a : BitVec 3) (b : BitVec 5) (s : State) : Outcome State Fault Refusal :=
  finish (instrWord (.dcdf d a b)) (do
    needD [a]
    effectM fun s => s.extracted d (cumulative (s.rd a) (unpack fp32 (s.fs b)))) s

/-- DTAG (R267). -/
def execDtag (d : BitVec 5) (a : BitVec 3) (s : State) : Outcome State Fault Refusal :=
  finish (instrWord (.dtag d a)) (do
    needD [a]
    effectM fun s => s.wx d (((if (s.rd a).form then 1#16 else 0#16) ++ (s.rd a).tag).setWidth 64)) s

/-- DTAGS (R267). -/
def execDtags (d : BitVec 3) (a : BitVec 5) (s : State) : Outcome State Fault Refusal :=
  finish (instrWord (.dtags d a)) (do
    needD [d]
    effectM fun s => s.wd d { s.rd d with tag := (s.rx a).setWidth 16 }) s

end Sys2Proof.Machine
end

