-- ==== Sys2Proof/Machine/Tasks.lean ====
section
/-! DEFINITION. Sys2Proof/Machine/Tasks.lean: Ringmaster, tasks, versions and settling (R269 to R299).

A request of TEND, TYIELD, TDEC, TCANCEL or TSPAWN is applied at its instruction when it is the first of its A-clock; another one, and
every one while the A-clock's requests are collected, waits for RINGMASTER_CLOCK, which applies them in the order of R288. A version update
comes before the requests of its A-clock: once one has been applied, it waits for the next. -/
namespace Sys2Proof.Machine

open Host (Outcome)

/-! ## Order -/

/-- The place of a hart in the issuer order: L-site before W-site, core number, zrank (R278). -/
def issuerKey (s : State) (h : Hart) : List Nat :=
  match h.id, h.car with
  | .wthread _, some c => [1, c.core, rankOf s h]
  | .wthread _, none => [1, 0, rankOf s h]
  | .lcore n, _ => [0, n, rankOf s h]
  | .roust n, _ => [0, 256 + n, rankOf s h]

/-! ## The task table (R269, R270) -/

/-- The handle of a task. -/
def Task.handle (t : Task) : BitVec 32 := BitVec.ofNat 32 (t.gen * 2 ^ 18 + t.idx)

/-- A task holds its entry. -/
def Task.live (t : Task) : Bool := t.state != .free

/-- The task that a 64-bit value names; none where the handle is stale (R269). -/
def State.task? (s : State) (v : Word) : Option Task :=
  if field v 32 32 ≠ 0 then none
  else s.part.rm.tasks.find? fun t => t.live && t.idx == field v 0 18 && t.gen == field v 18 14 && t.idx < s.part.tasks

/-- The entry of an index with f applied. -/
def State.modTask (s : State) (idx : Nat) (f : Task → Task) : State :=
  s.modRm fun r => { r with tasks := adjust (fun t => t.idx == idx) f r.tasks }

/-- An entry freed: its generation advances (R269). -/
def Task.freed (t : Task) : Task := { t with state := .free, gen := t.gen % 16383 + 1, inSet := false, marked := false }

/-- A task made READY with a stamp; it joins the ready set in step 4 of R288. -/
def Task.readied (clock : Nat) (t : Task) : Task := { t with state := .ready, stamp := clock, inSet := false, marked := false }

/-- The current task of a thread, none with ztask 0 or where the task has been freed. [DEDUCED, log 58: unsafe] -/
def State.currentTask (s : State) : Option Task :=
  if s.hart.u.ztask = 0 then none else s.task? (s.hart.u.ztask.setWidth 64)

/-- The code of a state (R270). -/
def TaskState.code : TaskState → Nat
  | .free => 0 | .waiting => 1 | .ready => 2 | .running => 3 | .ended => 4

/-- A thread's run is over: no task, no budget. -/
def State.endRun (s : State) : State :=
  { s with hart := { s.hart with u := { s.hart.u with ztask := 0, zbudget := 0 }, budgetDue := false, wrote := [] } }

/-! ## Versions (R290 to R294) -/

/-- The version number of an object. -/
def State.version (s : State) (pa : Nat) : Nat := (s.objWord pa 1).toNat % 2 ^ 63

/-- An object is final. -/
def State.isFinal (s : State) (pa : Nat) : Bool := (s.objWord pa 1).getLsbD 63

/-- Some input that sel names has moved past its consumed version (R292). -/
def Task.moved (s : State) (sel : Nat → Bool) (t : Task) : Bool :=
  t.inputs.toList.any fun i =>
    match i with
    | some ⟨_, some pa, c⟩ => sel pa && c < s.version pa
    | _ => false

/-- The user state of the thread whose ztask names a task, at a hart or on its way. [DEDUCED, log 60: unsafe] -/
def State.worker? (s : State) (h : BitVec 32) : Option User :=
  (s.allHarts.map Hart.u ++ s.part.transit.map fun t => t.hart.u).find? fun u => u.ztask == h

/-- A task after a new version of an object (R293). A worker that is nowhere in the machine is judged at its boundary. -/
def Task.onVersion (s : State) (pa : Nat) (t : Task) : Task :=
  if !t.moved s (· == pa) then t
  else
    match t.state with
    | .ended => t.readied s.pkg.zaclk.toNat
    | .running =>
      let vec := match s.worker? t.handle with | some u => u.zrfvec != 0 | none => true
      if t.desc.complete || !vec then t else { t with marked := true }
    | _ => t

/-- The tasks after a new version of an object (R288 step 1). [DEDUCED, log 57: safe] -/
def State.onVersion (s : State) (pa : Nat) : State :=
  s.modRm fun r => { r with tasks := r.tasks.map (Task.onVersion s pa) }

/-- Word 1 after a publication (R291). -/
def published (fin : Bool) (w : Word) : Word := if fin then (w + 1) ||| 0x8000000000000000#64 else w + 1

/-- A version update comes before the requests of its A-clock (R288): once one has been applied, the update is of the next A-clock. -/
def beforeRequests : M Unit := fun s => if s.part.rm.used then .error .done s else .ok () s

/-- VPUB and VFIN (R291): the address, the drain, the release's write-back, then one update or cause 31. [DEDUCED, log 56: safe] -/
def publishM (w : BitVec 32) (fin : Bool) (a : XReg) (s : State) : Outcome State Fault Refusal :=
  finish w (do
    let va := (← get).rx a
    let obj ← objAddr va true [0, 1]
    orderingPoint
    beforeRequests
    modify fun s => s.releaseBytes (· == obj)
    let s ← get
    if s.isFinal obj || s.version obj = 2 ^ 63 - 1 then throw (.trap 31 va)
    effectMem fun s => (s.releaseObj obj 2 fun x => (published fin x.1, x.2.1, x.2.2)).onVersion obj) s

/-- VPUB (R291). [DEDUCED, log 57: safe] -/
def execVpub (a : BitVec 5) (s : State) : Outcome State Fault Refusal := publishM (instrWord (.vpub a)) false a s

/-- VFIN (R291). [DEDUCED, log 57: safe] -/
def execVfin (a : BitVec 5) (s : State) : Outcome State Fault Refusal := publishM (instrWord (.vfin a)) true a s

/-- The slot in which an object is an input of a task: of one that two inputs of the descriptor name, the lowest alone.
[DESIGN CHOICE, log 106: unsafe] -/
def Task.slotOf (t : Task) (pa : Nat) : Option Nat :=
  (List.range 8).find? fun j => match t.inputs.toList.getD j none with | some i => i.pa == some pa | none => false

/-- A task with an input in a slot. -/
def Task.setInput (t : Task) (j : Nat) (i : TaskInput) : Task := { t with inputs := t.inputs.mapIdx fun k x => if k = j then some i else x }

/-- A task with the consumed version of a slot replaced (R292). -/
def Task.consume (t : Task) (j v : Nat) : Task :=
  { t with inputs := t.inputs.mapIdx fun k x => if k = j then x.map fun i => { i with consumed := v } else x }

/-- VACQ (R295). [DEDUCED, log 57: safe] -/
def execVacq (d : BitVec 5) (a : BitVec 5) (s : State) : Outcome State Fault Refusal :=
  finish (instrWord (.vacq d a)) (do
    let obj ← objAddr ((← get).rx a) false [0, 1]
    orderingPoint
    effectMem fun s =>
      let s1 := s.acquireFor s.who (· == obj)
      let s2 :=
        match s1.currentTask with
        | some t =>
          (match t.slotOf obj with
           | some j => s1.modTask t.idx fun x => x.consume j (s1.version obj)
           | none => s1)
        | none => s1
      s2.wx d (s1.objWord obj 1)) s

/-- VCHK (R295). [DEDUCED, log 58: unsafe] -/
def execVchk (d : BitVec 5) (a : BitVec 5) (s : State) : Outcome State Fault Refusal :=
  finish (instrWord (.vchk d a)) (do
    let va := (← get).rx a
    let obj ← objAddr va false [1]
    let v ← loadScalar (va + 8) 8
    effectMem fun s =>
      match s.currentTask.bind fun t => (t.slotOf obj).bind fun j => t.inputs.toList.getD j none with
      | some i => s.wx d (flagWord (i.consumed < v.toNat % 2 ^ 63))
      | none => s.wx d (-1)) s

/-- VSUB (R295): an object that is an input keeps its slot; a new one takes the lowest free slot. [DEDUCED, log 58: unsafe] -/
def execVsub (d : BitVec 5) (a : BitVec 5) (s : State) : Outcome State Fault Refusal :=
  finish (instrWord (.vsub d a)) (do
    let va := (← get).rx a
    let obj ← objAddr va false [1]
    let v ← loadScalar (va + 8) 8
    effectMem fun s =>
      match s.currentTask with
      | none => s.wx d (-1)
      | some t =>
        match (t.slotOf obj).or ((List.range 8).find? fun j => (t.inputs.toList.getD j none).isNone) with
        | some j => (s.modTask t.idx fun x => x.setInput j ⟨va, some obj, v.toNat % 2 ^ 63⟩).wx d (BitVec.ofNat 64 j)
        | none => s.wx d (-2)) s

/-! ## Requests (R274, R284 to R288) -/

/-- A task's count reduced by one; at 0 the task is READY (R285). -/
def Task.decrement (clock : Nat) (t : Task) : Task :=
  if t.count = 1 then { t with count := 0 }.readied clock else { t with count := t.count - 1 }

/-- The first handle of a list that is stale or whose task has a count below the number of times it stands there (R285). -/
def badSuccessor (s : State) (l : List (BitVec 32)) : Option (BitVec 32) :=
  l.find? fun h => match s.task? (h.setWidth 64) with | some t => t.count < l.count h | none => true

/-- The decrement of the task a handle names. -/
def State.decrement (s : State) (h : Word) : State :=
  match s.task? h with
  | some t => s.modTask t.idx (Task.decrement s.pkg.zaclk.toNat)
  | none => s

/-- The completion of a TEND of the task of a handle (R284, R285), or the handle of cause 29. -/
def applyTend (s : State) (handle : BitVec 32) (succ : List (BitVec 32)) : Except Word State :=
  match s.task? (handle.setWidth 64) with
  | none => .ok s
  | some t =>
    let late (s : State) : State :=
      if t.desc.deadline ≠ 0 && t.desc.deadline.toNat < s.pkg.zaclk.toNat then s.modPart fun p => { p with dlmiss := p.dlmiss + 1 } else s
    let finished (s : State) : State :=
      s.modTask t.idx fun x =>
        if x.moved s fun _ => true then x.readied s.pkg.zaclk.toNat else { x with state := .ended, marked := false }
    if t.decr then .ok (finished (late s))
    else
      match badSuccessor s succ with
      | some h => .error (h.setWidth 64)
      | none =>
        let s1 := succ.foldl (fun (u : State) h => u.decrement (h.setWidth 64)) s
        .ok (finished (late (s1.modTask t.idx fun x => { x with decr := true })))

/-- The lowest number from k on that no entry in use has. [DESIGN CHOICE, log 6: unsafe] -/
def lowestIdx (live : List Nat) : Nat → Nat → Nat
  | 0, k => k
  | n + 1, k => if live.contains k then lowestIdx live n (k + 1) else k

/-- The entry that a TSPAWN takes and its generation, none in a full table (R269, R274). -/
def State.freeEntry (s : State) : Option (Nat × Nat) :=
  let live := (s.part.rm.tasks.filter Task.live).map Task.idx
  let i := lowestIdx live live.length 0
  if s.part.tasks ≤ i then none
  else some (i, match s.part.rm.tasks.find? fun t => t.idx == i with | some t => t.gen | none => 1)

/-- The new task of a descriptor (R274). [DESIGN CHOICE, log 6: unsafe] -/
def newTask (i gen clock : Nat) (d : TaskDesc) (ins : List Word) : Task where
  idx := i
  gen := gen
  state := if d.deps = 0 then .ready else .waiting
  count := d.deps
  decr := false
  runs := 0
  desc := d
  inputs := Vector.ofFn fun j => (ins[j.val]?).map fun va => ⟨va, none, 0⟩
  marked := false
  inSet := false
  stamp := clock

/-- A request of the current hart applied, its instruction retired; or cause 29 and its stval. -/
def applyReq (r : RmReq) (len : Word) (s : State) : Except Word State :=
  let next := s.pc + len
  match r with
  | .tend h succ => (applyTend s h succ).map fun t => t.endRun.retireTo next
  | .tyield h retires =>
    let s1 := (match s.task? (h.setWidth 64) with | some t => s.modTask t.idx (Task.readied s.pkg.zaclk.toNat) | none => s).endRun
    .ok (if retires then s1.retireTo next else { s1 with hart := { s1.hart with wait := none } })
  | .tdec h =>
    match s.task? h with
    | some t => if t.count = 0 then .error h else .ok ((s.decrement h).retireTo next)
    | none => .error h
  | .tcancel rd h =>
    match s.task? h with
    | some t => .ok (((s.modTask t.idx Task.freed).wx rd (BitVec.ofNat 64 t.state.code)).retireTo next)
    | none => .ok ((s.wx rd (-1)).retireTo next)
  | .tspawn rd d ins =>
    match s.freeEntry with
    | none => .ok ((s.wx rd (-1)).retireTo next)
    | some (i, gen) =>
      let t := newTask i gen s.pkg.zaclk.toNat d ins
      let s1 := s.modRm fun m => { m with tasks := m.tasks.filter (fun x => x.idx != i) ++ [t] }
      .ok ((s1.wx rd (t.handle.setWidth 64)).retireTo next)

/-- A request of the current instruction: applied when it is the first of its A-clock, else posted (R288). [DEDUCED, log 56: safe] -/
def request (r : RmReq) : M Unit := fun s =>
  let m := s.part.rm
  if m.hold || m.used || !m.reqs.isEmpty then
    .error (.wait .rmRequest)
      (s.modRm fun m => { m with reqs := m.reqs.filter (fun p => p.who != s.hart.id) ++ [⟨s.hart.id, (s.ilen none).toNat, r⟩] })
  else
    match applyReq r (s.ilen none) s with
    | .ok t => .ok () (t.modRm fun m => { m with used := true })
    | .error v => .error (.trap 29 v) (s.modRm fun m => { m with used := true })

/-! ## The instructions -/

/-- The descriptor of 128 bytes (R271). -/
def descOf (bs : List Byte) : TaskDesc where
  entry := BitVec.ofNat 64 (recNat bs 0 8)
  arg := BitVec.ofNat 64 (recNat bs 8 8)
  deadline := BitVec.ofNat 64 (recNat bs 16 8)
  budget := BitVec.ofNat 64 (recNat bs 24 8)
  deps := recNat bs 32 2
  complete := recNat bs 34 1 / 4 % 2 = 1
  prio := recNat bs 34 1 % 4
  troupe := BitVec.ofNat 32 (recNat bs 36 4)
  succ := BitVec.ofNat 64 (recNat bs 40 8)
  nsucc := recNat bs 48 2

/-- The inputs that a descriptor names, in order. -/
def descInputs (bs : List Byte) : List Word :=
  ((List.range 4).map fun j => BitVec.ofNat 64 (recNat bs (64 + 8 * j) 8)).filter fun (v : Word) => v != 0

/-- A descriptor keeps the rules of R271. -/
def descLegal (bs : List Byte) : Bool :=
  recNat bs 0 1 % 2 = 0 && recNat bs 34 1 < 8 && recNat bs 35 1 = 0 && recNat bs 50 14 = 0 && recNat bs 96 32 = 0 &&
  (recNat bs 48 2 = 0 || recNat bs 40 8 % 4 = 0) && (descInputs bs).all fun v => v.toNat % 32 = 0

/-- TSPAWN (R274). -/
def execTspawn (d : BitVec 5) (a : BitVec 5) (s : State) : Outcome State Fault Refusal :=
  finish (instrWord (.tspawn d a)) (do
    let va := (← get).rx a
    if va.toNat % 128 ≠ 0 then throw (.trap 4 va)
    waitDrain
    let bs ← loadRecord va 128 128 4
    if descLegal bs then do
      modify State.mayStall
      request (.tspawn d (descOf bs) (descInputs bs))
    else effectMem fun s => s.wx d (-2)) s

/-- The successor list of a task, read as 32-bit loads (R284). -/
def loadList (va : Word) : Nat → M (List (BitVec 32))
  | 0 => pure []
  | n + 1 => do
    let v ← loadScalar va 4
    let rest ← loadList (va + 4) n
    pure (v.setWidth 32 :: rest)

/-- Every object with a region the worker wrote in this run released (R284). -/
def State.releaseRun (s : State) : State := s.hart.wrote.foldl (fun (t : State) pa => t.releaseObj pa 1 id) s

/-- TEND (R284, R285). -/
def execTend (s : State) : Outcome State Fault Refusal :=
  finish (instrWord .tend) (do
    orderingPoint
    let s ← get
    if s.hart.u.ztask = 0 then retireM
    else do
      let succ ← (match s.currentTask with
        | some t => if t.decr then pure [] else loadList t.desc.succ t.desc.nsucc
        | none => pure [])
      modify State.releaseRun
      request (.tend s.hart.u.ztask succ)) s

/-- TYIELD (R284). -/
def execTyield (s : State) : Outcome State Fault Refusal :=
  finish (instrWord .tyield) (do
    waitDrain
    let s ← get
    if s.hart.u.ztask = 0 then retireM
    else do
      modify State.releaseRun
      request (.tyield s.hart.u.ztask true)) s

/-- TDEC (R286). -/
def execTdec (a : BitVec 5) (s : State) : Outcome State Fault Refusal :=
  finish (instrWord (.tdec a)) (do
    waitDrain
    request (.tdec ((← get).rx a))) s

/-- TCANCEL (R287). -/
def execTcancel (d : BitVec 5) (a : BitVec 5) (s : State) : Outcome State Fault Refusal :=
  finish (instrWord (.tcancel d a)) (do
    waitDrain
    request (.tcancel d ((← get).rx a))) s

/-- TBUDG (R281). [DEDUCED, log 58: unsafe; DESIGN CHOICE, log 120: unsafe] -/
def execTbudg (d : BitVec 5) (a : BitVec 5) (s : State) : Outcome State Fault Refusal :=
  plainReg (fun s =>
    if s.hart.u.ztask = 0 then s.wx d 0
    else
      let v := s.rx a
      let s1 := s.wx d s.hart.u.zbudget
      { s1 with hart := { s1.hart with u := { s1.hart.u with zbudget := v }, budgetDue := v == 0 } }) s

/-- The status word of a task (R289). -/
def Task.status (t : Task) : Word :=
  BitVec.ofNat 64 (min t.runs 65535 * 2 ^ 48 + t.count * 2 ^ 16 + (if t.decr then 8 else 0) + t.state.code)

/-- TSTAT (R289). -/
def execTstat (d : BitVec 5) (a : BitVec 5) (s : State) : Outcome State Fault Refusal :=
  plainReg (fun s => s.wx d (match s.task? (s.rx a) with | some t => t.status | none => 0)) s

/-- The current hart's entry among the waiting TTAKEs (R278). -/
def takerOf (s : State) (rd : XReg) : Taker :=
  let k := issuerKey s s.hart
  ⟨s.hart.id, rd, s.pkg.zaclk.toNat, k.getD 0 0 = 1, k.getD 1 0, k.getD 2 0, (s.ilen none).toNat⟩

/-- TTAKE: the TYIELD of a current task, then the wait for an assignment (R277). -/
def execTtake (d : BitVec 5) (s : State) : Outcome State Fault Refusal :=
  finish (instrWord (.ttake d)) (do
    waitDrain
    let s ← get
    if s.hart.u.ztask ≠ 0 then
      modify State.releaseRun
      request (.tyield s.hart.u.ztask false)
    modify fun s => s.modRm fun m => { m with takers := m.takers.filter (fun t => t.who != s.hart.id) ++ [takerOf s d] }
    throw (.wait .ttake)) s

/-- The tasks of a troupe. -/
def State.troupeTasks (s : State) (t : BitVec 32) : List Task := s.part.rm.tasks.filter fun x => x.live && x.desc.troupe == t

/-- VSETTLE of a troupe other than that of the thread's task: at once for one without a task, else the wait (R297). -/
def settleM (d : XReg) (tr : BitVec 32) : M Unit := do
  if ((← get).troupeTasks tr).isEmpty then effectM fun s => (s.acquireFor s.who fun _ => true).wx d 0
  else do
    modify fun s => s.modRm fun m =>
      { m with settlers := m.settlers.filter (fun x => x.who != s.hart.id) ++ [⟨s.hart.id, d, tr, (s.ilen none).toNat, none⟩] }
    throw (.wait (.vsettle tr))

/-- VSETTLE (R297). -/
def execVsettle (d : BitVec 5) (a : BitVec 5) (s : State) : Outcome State Fault Refusal :=
  finish (instrWord (.vsettle d a)) (do
    let s ← get
    let tr : BitVec 32 := (s.rx a).setWidth 32
    if s.currentTask.any fun t => t.desc.troupe == tr then effectM fun s => s.wx d (-1)
    else settleM d tr) s

/-! ## One A-clock of Ringmaster (R288) -/

/-- A hart waits for w. -/
def State.waitsFor (s : State) (h : HartId) (w : Wait) : Bool := match s.hart? h with | some x => x.wait == some w | none => false

/-- The clock of a hart's core runs (R10). -/
def State.runs (s : State) (h : HartId) : Bool := match s.hart? h with | some x => s.coreRuns x | none => true

/-- The place of a request: completions by key, then spawns, in the issuer order (R288). [DEDUCED, log 56: safe] -/
def postKey (s : State) (p : RmPost) : List Nat :=
  let issuer := match s.hart? p.who with | some h => issuerKey s h | none => []
  match p.req with
  | .tend h _ | .tyield h _ => 0 :: h.toNat :: issuer
  | .tdec h | .tcancel _ h => 0 :: h.toNat :: issuer
  | .tspawn _ _ _ => 1 :: 0 :: issuer

/-- A posted request applied for its issuer, which is runnable afterwards; cause 29 is taken there. [DEDUCED, log 56: safe] -/
def State.applyPost (s : State) (p : RmPost) : State :=
  s.withHart p.who fun s =>
    match applyReq p.req (BitVec.ofNat 64 p.len) s with
    | .ok t => if t.inGroup t.hart then t else t.refile
    | .error v => s.takeTrap 29 s.pc v

/-- Steps 2 and 3: the requests of the A-clock; one of a thread whose W-core is stopped stands until it runs (R10).
[DEDUCED, log 56: safe] -/
def State.rmRequests (s : State) : State :=
  if s.part.rm.used then s
  else
    let ps := sortOn (postKey s) (s.part.rm.reqs.filter fun p => s.waitsFor p.who .rmRequest && s.runs p.who)
    ps.foldl State.applyPost (s.modRm fun m => { m with reqs := m.reqs.filter fun p => s.waitsFor p.who .rmRequest && !s.runs p.who })

/-- Step 4: READY tasks outside the ready set join it in the order of stamps and handles, as places are free (R276). -/
def State.rmJoin (s : State) : State :=
  s.modRm fun m =>
    let free := 16384 - (m.tasks.filter fun t => t.inSet).length
    let held := sortOn (fun (t : Task) => [t.stamp, t.handle.toNat]) (m.tasks.filter fun t => t.state == .ready && !t.inSet)
    let now := (held.take free).map Task.idx
    { m with tasks := adjust (fun t => now.contains t.idx) (fun t => { t with inSet := true }) m.tasks }

/-- The place of a ready task (R275). -/
def readyKey (t : Task) : List Nat :=
  if t.desc.deadline = 0 then [1, t.handle.toNat] else [0, t.desc.deadline.toNat, t.desc.prio, t.handle.toNat]

/-- The place of a waiting TTAKE (R278). -/
def takerKey (t : Taker) : List Nat := [t.since, if t.isW then 1 else 0, t.core, t.rank]

/-- The inputs of a task with the versions that the current hart reads, in slot order (R277). [DEDUCED, log 59: unsafe] -/
def readInputs : List (Option TaskInput) → M (List (Option TaskInput))
  | [] => pure []
  | none :: rest => do
    let l ← readInputs rest
    pure (none :: l)
  | some i :: rest => do
    let s ← get
    if (windowOff i.va).isSome && s.site == .l then throw (.trap 24 i.va)
    let pa ← objAddr i.va false [1]
    let s ← get
    let l ← readInputs rest
    pure (some ⟨i.va, some pa, s.version pa⟩ :: l)

/-- The start of a run by the current hart (R277). [DEDUCED, log 59: unsafe] -/
def State.startRun (s : State) (k : Taker) (t : Task) (ins : List (Option TaskInput)) : State :=
  let s1 := s.modTask t.idx fun x =>
    { x with state := .running, runs := x.runs + 1, inputs := Vector.ofFn fun j => ins.getD j.val none, inSet := false, marked := false }
  let s2 := s1.acquireFor s1.who fun _ => true
  let s3 := s2.wx k.rd (s2.pc + BitVec.ofNat 64 k.len)
  let s4 := (s3.wx 10 t.desc.arg).wx 11 (t.handle.setWidth 64)
  let s5 : State :=
    { s4 with
      hart :=
        { s4.hart with
          u := { s4.hart.u with ztask := t.handle, zbudget := if t.desc.budget = 0 then -1 else t.desc.budget }
          budgetDue := false
          wrote := [] } }
  s5.refile.retireTo t.desc.entry

/-- One assignment: the task starts, or the waiter takes the fault of the read of an input (R277). [DEDUCED, log 59: unsafe] -/
def State.assign (s : State) (x : Taker × Task) : State :=
  s.withHart x.1.who fun s =>
    match readInputs x.2.inputs.toList s with
    | .ok ins t => t.startRun x.1 x.2 ins
    | .error (.trap c v) t => t.takeTrap c t.pc v
    | .error (.park c a v) t => t.parkFault c a v
    | .error _ t => t

/-- Step 5: assignments to waiting TTAKEs; a waiter whose W-core is stopped keeps its place and is passed over (R10, R278).
[DEDUCED, log 59: unsafe] -/
def State.rmAssign (s : State) : State :=
  let ks := sortOn takerKey (s.part.rm.takers.filter fun k => s.waitsFor k.who .ttake)
  let ts := sortOn readyKey (s.part.rm.tasks.filter fun t => t.state == .ready && t.inSet)
  let s1 := ((ks.filter fun k => s.runs k.who).zip ts).foldl State.assign s
  s1.modRm fun m => { m with takers := ks.filter fun k => s1.waitsFor k.who .ttake }

/-- A troupe is settled (R296). -/
def State.settled (s : State) (tr : BitVec 32) : Bool :=
  (s.troupeTasks tr).all fun t =>
    t.state == .ended &&
    t.inputs.toList.all fun i =>
      match i with
      | none => true
      | some ⟨_, some pa, c⟩ => s.isFinal pa && c == s.version pa
      | some ⟨_, none, _⟩ => false

/-- A settled troupe's entries freed, and their number noted for its waiters (R296, R297). -/
def State.settle (s : State) (tr : BitVec 32) : State :=
  if s.settled tr then
    let n := (s.troupeTasks tr).length
    s.modRm fun m =>
      { m with
        tasks := adjust (fun t => t.live && t.desc.troupe == tr) Task.freed m.tasks
        settlers := adjust (fun x => x.troupe == tr) (fun x => { x with freed := x.freed.or (some n) }) m.settlers }
  else s

/-- A waiter whose troupe has settled goes on, when its core's clock runs (R10, R297). -/
def State.wakeSettler (s : State) (x : Settler) : State :=
  match x.freed with
  | some n =>
    if s.runs x.who then
      s.withHart x.who fun v => ((v.acquireFor v.who fun _ => true).wx x.rd (BitVec.ofNat 64 n)).refile.retireTo (v.pc + BitVec.ofNat 64 x.len)
    else s
  | none => s

/-- The waiters that still stand in VSETTLE. -/
def State.liveSettlers (s : State) : State :=
  s.modRm fun m => { m with settlers := m.settlers.filter fun x => s.waitsFor x.who (.vsettle x.troupe) }

/-- Step 6: the settle test (R296). -/
def State.rmSettle (s : State) : State :=
  let s0 := s.liveSettlers
  let trs := ((s0.part.rm.tasks.filter Task.live).map fun t => t.desc.troupe) ++ s0.part.rm.settlers.map Settler.troupe
  let s1 := trs.dedup.foldl State.settle s0
  (s1.part.rm.settlers.foldl State.wakeSettler s1).liveSettlers

/-- Steps 2 to 6 of R288. [DEDUCED, log 56: safe] -/
def State.rmClock (s : State) : State :=
  s.rmRequests.rmJoin.rmAssign.rmSettle.modRm fun m => { m with hold := false, used := false }

/-! ## Abandonment and the budget -/

/-- A hart can take an event of its thread at an instruction boundary in U-mode: it is not parked, and no request of its is at
Ringmaster. -/
def Hart.atBoundary (h : Hart) : Bool :=
  h.sup.mode == .u && h.handler.isNone && h.wait != some .rmRequest && (match h.car with | some c => c.free | none => true)

/-- The run of a hart is to be abandoned: its task is marked, or has been freed (R287, R293). [DEDUCED, log 60: unsafe] -/
def abandonDue (s : State) (h : Hart) : Bool :=
  h.u.ztask != 0 && (match s.task? (h.u.ztask.setWidth 64) with | some t => t.marked | none => true)

/-- The current thread's lane out of its group and filed anew in its bin; the group goes on without it (R49, R294).
[DEDUCED, log 60: unsafe] -/
def State.regroup (s : State) : State :=
  match s.hart.id, s.hart.car with
  | .wthread ctx, some c => (s.leaveGroup ctx c.core false).refile
  | _, _ => s

/-- A hart's run can be abandoned now: its core's clock runs (R10, R294). -/
def abandonable (s : State) (h : Hart) : Bool := abandonDue s h && h.atBoundary && s.coreRuns h

/-- The abandonment of the current thread's run (R294); with zrfvec 0 a cancelled worker continues in place (R287).
[DEDUCED, log 60: unsafe] -/
def State.abandon (s : State) : State :=
  let u := s.hart.u
  let task := s.task? (u.ztask.setWidth 64)
  if u.zrfvec = 0 then
    match task with
    | some t => s.modTask t.idx fun x => { x with marked := false }
    | none => { s with hart := { s.hart with u := { u with ztask := 0, zbudget := 0 }, budgetDue := false } }
  else
    let s1 := match task with | some t => s.modTask t.idx (Task.readied s.pkg.zaclk.toNat) | none => s
    let s2 := (s1.wx 10 (u.ztask.setWidth 64)).endRun
    { s2 with
      hart :=
        { s2.hart with
          u := { s2.hart.u with pc := (u.zrfvec ++ 0#1).setWidth 64 }, resv := none, wait := none, resume := none, chosen := none } }.regroup

/-- TASK_ABANDON: a marked or cancelled run is abandoned at its worker's boundary (R287, R294). -/
def execTaskAbandon (h : HartId) (s : State) : Outcome State Fault Refusal :=
  match s.hart? h with
  | some x => if abandonable s x then .next ((s.withHart h State.abandon).restow x.ctx) else .next s
  | none => .next s

/-- Cause 28 is due at a hart's boundary (R280). [DEDUCED, log 63: safe] -/
def budgetTrapDue (s : State) (h : Hart) : Bool :=
  h.budgetDue && h.u.ztask != 0 && h.u.zbudget == 0 && h.atBoundary && s.coreRuns h && (s.focus h.id).myMends.isEmpty

/-- BUDGET_EXHAUSTED: cause 28 with epc the next instruction (R280). A cause 30 that is taken in its place leaves it due.
[DEDUCED, log 63: safe] -/
def execBudgetExhausted (h : HartId) (s : State) : Outcome State Fault Refusal :=
  match s.hart? h with
  | some x =>
    if budgetTrapDue s x then
      .next (s.withHart h fun s =>
        let late := s.site == .w && s.hart.dropped.isSome
        { s with hart := { s.hart with budgetDue := late } }.takeTrap 28 s.pc (s.hart.u.ztask.setWidth 64))
    else .next s
  | none => .next s

end Sys2Proof.Machine
end

