-- ==== Sys2Proof/Machine/Super.lean ====
section
/-! DEFINITION. Sys2Proof/Machine/Super.lean: context images, the supervisor instructions and the queues' dispositions
(R64, R65, R304, R305, R313 to R318). -/
namespace Sys2Proof.Machine

open Host (Outcome)

/-! ## Context images (R304, R305) -/

/-- A 64-bit field of an image. [DEDUCED, log 65: unsafe] -/
def imgWord (bs : List Byte) (off : Nat) : Word := BitVec.ofNat 64 (recNat bs off 8)

/-- The base-architecture state of part A; x0 reads zero. [DEDUCED, log 65: unsafe] -/
def loadA (bs : List Byte) (u : User) : User :=
  { u with
    x := Vector.ofFn fun i => if i.val = 0 then 0 else imgWord bs (8 * i.val)
    f := Vector.ofFn fun i => imgWord bs (0x100 + 8 * i.val)
    pc := imgWord bs 0x200 &&& ~~~1#64
    fflags := (imgWord bs 0x208).setWidth 5
    frm := (imgWord bs 0x208).extractLsb' 5 3 }

/-- A d-register of an image: one that breaks the invariants, as the zeros that the device writes at and above the profile's counts do,
holds the zero distribution, and a Q-form is sorted (R29, R242, R243). [DESIGN CHOICE, log 96: unsafe] -/
def imgDist (bs : List Byte) : Dist :=
  let x := distImage bs
  if weightsOk x then distOf (sorted x.form x.points) x.tag x.form else Dist.zero

/-- A buffer record as a register holds it: bits 63:62 of its word 0 are reserved, ignored and zero (R5, R59). -/
def recHeld (v : BitVec 128) : BitVec 128 := v &&& ~~~(3#128 <<< 62)

/-- The Zaryar and identity state of part B, of an image whose bytes are numbered from its start; fields at and above the profile's
counts are zero (R29, R304), and the CSRs keep the limits of their writes; zwprof is taken as it stands, counts above 8, 64 and 16 included.
[DEDUCED, log 65: unsafe; DESIGN CHOICE, log 96: unsafe; DESIGN CHOICE, log 108: unsafe] -/
def loadB (bs : List Byte) (u0 : User) : User :=
  let prof : BitVec 16 := (imgWord bs 0x278).setWidth 16
  let u1 := userPut 0x800 (imgWord bs 0x220) u0
  let u2 := userPut 0x801 (imgWord bs 0x228) u1
  { u2 with
    p := (imgWord bs 0x210).setWidth 12
    k := Vector.ofFn fun i => ⟨BitVec.ofNat 6 (recNat bs (0x218 + 2 * i.val) 1), BitVec.ofNat 7 (recNat bs (0x219 + 2 * i.val) 1)⟩
    zaflags := (imgWord bs 0x230).setWidth 3
    zdflags := (imgWord bs 0x238).setWidth 7
    zdctl := (imgWord bs 0x240).setWidth 1
    zpack := (imgWord bs 0x248).setWidth 2
    zrfvec := (imgWord bs 0x250).extractLsb' 1 63
    zseed := imgWord bs 0x258
    zsitectl := (imgWord bs 0x260).setWidth 2
    ztask := (imgWord bs 0x268).setWidth 32
    zbudget := imgWord bs 0x270
    zwprof := prof
    home := if (imgWord bs 0x278).getLsbD 16 then .w else .l
    zexp := Vector.ofFn fun i => imgWord bs (0x290 + 8 * i.val)
    draw := Vector.ofFn fun i => (imgWord bs (0x310 + 8 * i.val)).setWidth 61
    w := Vector.ofFn fun i => if i.val < profW prof then BitVec.ofNat 32 (recNat bs (0x400 + 4 * i.val) 4) else 0
    b := Vector.ofFn fun i => if i.val < profB prof then recHeld (BitVec.ofNat 128 (recNat bs (0x500 + 16 * i.val) 16)) else 0
    d := Vector.ofFn fun i => if i.val < profD prof then imgDist ((bs.drop (0x600 + 64 * i.val)).take 64) else Dist.zero }

/-- What the device keeps of a hart whose thread goes to its image. -/
def asleepOf (ctx : Nat) (h : Hart) : Asleep := ⟨ctx, h.instret, h.cycle, h.dropped, h.wrote, h.budgetDue⟩

/-- A thread recorded as being in its image. [DEDUCED, log 65: unsafe] -/
def State.putAsleep (s : State) (a : Asleep) : State :=
  s.modPart fun p => { p with asleep := p.asleep.filter (fun x => x.ctx != a.ctx) ++ [a] }

/-- What the device keeps of a thread. [DEDUCED, log 65: unsafe] -/
def State.asleep? (s : State) (ctx : Nat) : Option Asleep := s.part.asleep.find? fun x => x.ctx == ctx

/-- The thread installed on the current L-core saved as ZPARK saves it: part B to its image, part A left to the kernel; the L-core
then holds no installed thread (R305, R316). [DEDUCED, log 66: unsafe] -/
def State.uninstall (s : State) : State :=
  match s.hart.installed with
  | none => s
  | some ctx =>
    let s1 := s.engineWrite (ctx + 0x210) (imageB s.hart.u (s.memberOf s.who) s.freeCount)
    let s2 := s1.putAsleep (asleepOf ctx s.hart)
    let u := s.hart.u
    { s2 with
      freeCount := s2.freeCount + 1
      hart :=
        { s2.hart with
          u := { User.init with x := u.x, f := u.f, pc := u.pc, fflags := u.fflags, frm := u.frm }
          installed := none
          homing := false
          watch := none
          dropped := none
          wrote := []
          budgetDue := false } }

/-- A thread installed on the current L-core from its image: part B, and part A too when it has arrived (R305). A thread that arrives
brings its counts (R11). [DEDUCED, log 66: unsafe] -/
def State.install (s : State) (ctx : Nat) (withA : Bool) : State :=
  let bs := s.bytes ctx 2048
  let t := s.sample [ctx]
  let a := (s.asleep? ctx).getD ⟨ctx, s.hart.instret, s.hart.cycle, none, [], false⟩
  let h := s.hart
  { t with
    hart :=
      { h with
        u := loadB bs (if withA then loadA bs h.u else h.u)
        installed := some ctx
        watch := none
        instret := if withA then a.instret else h.instret
        cycle := if withA then a.cycle else h.cycle
        dropped := a.dropped
        wrote := a.wrote
        budgetDue := a.budgetDue } }.modPart fun p => { p with asleep := p.asleep.filter fun x => x.ctx != ctx }

/-! ## Mending entries (R65 to R67) -/

/-- An entry of a W-core's buffer with f applied. -/
def State.modMend (s : State) (w : Nat) (tag : Nat) (f : Mend → Mend) : State :=
  s.modW w fun c => { c with mend := adjust (fun m => m.state == .awaiting tag) f c.mend }

/-- The entry removed that is the first of its thread in the buffer. -/
def dropFirst (ctx : Nat) : List Mend → List Mend
  | [] => []
  | m :: rest => if m.ctx == ctx then rest else m :: dropFirst ctx rest

/-- The number that an entry's bytes hold. -/
def Mend.operand (m : Mend) : Nat := leNat m.bytes

/-- The attempt to perform an entry for its thread, which is the current hart: none when it is performed, else the exception. The 64 bytes of a
distribution image are stored as 8-byte words, of which the device may leave some for later (R263).
[DEDUCED, log 33: unsafe; DESIGN CHOICE, log 95: safe] -/
def tryMend (m : Mend) (s : State) : Option Exc × State :=
  match m.op with
  | .store =>
    if m.bytes.length = 64 then (let (n, s1) := s.fresh; tryImage (BitVec.ofNat 8 (Config.freeNat n)) m.va m.bytes s1)
    else tryStore m.va m.bytes s
  | op =>
    match tryAtomic m.va m.bytes.length (fun old => bamoOf op m.bytes.length old m.operand) s with
    | (.ok _, t) => (none, t)
    | (.error e, t) => (some e, t)

/-- The first entry of a thread in the buffer of W-core w tried: performed, it leaves the buffer; a fault keeps it with a new record, but
one for an unreachable package drops it and marks the thread (R65, R330). [DEDUCED, log 33: unsafe] -/
def State.performMend (s : State) (w ctx : Nat) : State :=
  s.withHart (.wthread ctx) fun s =>
    match s.myMends with
    | [] => s
    | m :: _ =>
      let (e, t) := tryMend m s
      match storeEnd m.va t e with
      | .done => t.modW w fun c => { c with mend := dropFirst ctx c.mend }
      | .drop => (t.markDropped m.va).modW w fun c => { c with mend := dropFirst ctx c.mend }
      | _ =>
        let (m1, t1) := t.fileMend w m
        t1.modW w fun c => { c with mend := m1 :: dropFirst ctx c.mend }

/-- The W-core of a resident thread. -/
def State.coreOf (s : State) (ctx : Nat) : Option Nat := (s.hart? (.wthread ctx)).bind fun h => h.car.map Car.core

/-- The entry of a MEND record disposed: replayed at once, by a stopped W-core when it runs again (R10), or dropped, its thread marked for
cause 30 (R315). -/
def State.disposeMend (s : State) (a : Await) (fatal : Bool) : State :=
  match s.coreOf a.ctx with
  | none => s
  | some w =>
    if fatal then
      (s.withHart (.wthread a.ctx) fun s => s.markDropped a.addr).modW w fun c =>
        { c with mend := c.mend.filter fun m => m.state != .awaiting a.tag }
    else
      let t := s.modMend w a.tag fun m => { m with state := .queued }
      if t.clockStopped w then t else t.performMend w a.ctx

/-! ## Dispositions (R315) -/

/-- A park of a lane ends: it goes on in its bin, or in its wait, where it stood (R54). -/
def State.unpark (s : State) (ctx : Nat) (f : Car → Car) : State :=
  s.modHart (.wthread ctx) fun h => { h with car := h.car.map f }

/-- A FAULT record disposed: the lane is runnable at the instruction, or migrates with its trap (R64). -/
def State.disposeFault (s : State) (a : Await) (fatal : Bool) : State :=
  if fatal then
    s.withHart (.wthread a.ctx) fun s => s.leaveWith ⟨a.cause, a.pc, a.addr⟩
  else s.unpark a.ctx fun c => { c with faultTag := none }

/-- The length of what an emulation record's INSN holds, none from 80 bits on (R311). -/
def emulLen (insn : Word) : Option Nat :=
  let lone (p : Nat) : Option Nat :=
    if p % 4 ≠ 3 then some 2
    else if p % 32 ≠ 31 then some 4
    else if p % 64 = 31 then some 6
    else if p % 128 = 63 then some 8
    else none
  if field insn 32 32 ≠ 0 then (lone (field insn 0 16)).map (· + 4) else lone (field insn 0 16)

/-- An EMUL record disposed with RESULT and the rest of its bytes 64 to 82: the destination, the flags, the resume pc (R311, R315). A
DKIND other than 1 and 2 has no destination, bits 7:5 of DREG are ignored, and bit 0 of the resume pc is cleared.
[DESIGN CHOICE, log 109: unsafe; DESIGN CHOICE, log 110: unsafe] -/
def State.disposeEmul (s : State) (a : Await) (bs : List Byte) (fatal : Bool) : State :=
  let resume := recNat bs 72 8
  match (if resume ≠ 0 then some resume else (emulLen (imgWord bs 24)).map fun n => (a.pc + BitVec.ofNat 64 n).toNat) with
  | none => s.fatalEmul a
  | some npc =>
    if fatal then s.fatalEmul a
    else
      let reg := recNat bs 81 1 % 32
      let v := imgWord bs 64
      let s1 := s.withHart (.wthread a.ctx) fun s =>
        let s1 := match recNat bs 80 1 with | 1 => s.wx (BitVec.ofNat 5 reg) v | 2 => s.wf (BitVec.ofNat 5 reg) v | _ => s
        s1.modU fun u => { u with fflags := u.fflags ||| BitVec.ofNat 5 (recNat bs 82 1), pc := BitVec.ofNat 64 npc &&& ~~~1#64 }
      ((s1.unpark a.ctx fun c => { c with emulTag := none }).restow a.ctx).dropTag a.tag

/-- A RUN record disposed: a thread parked by ZPARK is runnable; one that is nowhere has part B installed here (R315).
One in transit, or at a CTX that no context area can have, stays as it is.
[DEDUCED, log 64: unsafe; DEDUCED, log 66: unsafe; DESIGN CHOICE, log 111: unsafe] -/
def State.disposeRun (s : State) (ctx : Nat) : State :=
  match s.hart? (.wthread ctx) with
  | some h => if (match h.car with | some c => c.zparked | none => false) then s.unpark ctx fun c => { c with zparked := false } else s
  | none =>
    if s.part.transit.any (fun t => t.ctx == ctx) || s.allHarts.any (fun h => h.installed == some ctx) || ctx % 2048 ≠ 0 ||
        !areaIn s.part.ranges ctx 2048 || !s.onPackage ctx then s
    else s.uninstall.install ctx false

/-- The current L-core returns to U-mode at a pc, taken as it stands. [DEDUCED, log 43: unsafe; DESIGN CHOICE, log 110: unsafe] -/
def State.enterUser (s : State) (pc : Word) : State :=
  { s with hart := { s.hart with u := { s.hart.u with pc := pc }, sup := { s.hart.sup with mode := .u }, resv := none }.homeward }.chooseHome

/-- An ARRIVE record disposed: the thread installed here; its pending trap taken at once, or U-mode entered at PC (R33, R315).
[DEDUCED, log 66: unsafe] -/
def State.disposeArrive (s : State) (ctx : Nat) (bs : List Byte) : State :=
  let s1 := (s.uninstall.install ctx true).enterUser (imgWord bs 16)
  if recNat bs 2 1 % 2 = 1 then s1.takeTrap (recNat bs 1 1) (imgWord bs 16) (imgWord bs 24) else s1

/-- The code of a record's kind (R307, R311). -/
def AwaitKind.code : AwaitKind → Nat
  | .arrive => 2 | .fault => 3 | .mend => 4 | .emul => 6

/-- The record of a TAG that awaits disposition, of the kind the bytes name. -/
def State.awaiting? (s : State) (bs : List Byte) : Option Await :=
  s.part.awaiting.find? fun a => a.tag == recNat bs 4 4 && a.kind.code == recNat bs 0 1

/-- The effect of a disposition, the instruction having retired or not (R315): an ARRIVE does not continue to pc + 4.
[DEDUCED, log 64: unsafe] -/
def State.dispose (s : State) (bs : List Byte) (fatal : Bool) (len : Word) : State :=
  let next := s.pc + len
  if recNat bs 0 1 = 5 then (s.disposeRun (recNat bs 8 8)).retireTo next
  else
    match s.awaiting? bs with
    | none => s.retireTo next
    | some a =>
      match a.kind with
      | .arrive => ((s.retireTo next).dropTag a.tag).disposeArrive a.ctx bs
      | .fault => ((s.dropTag a.tag).disposeFault a fatal).retireTo next
      | .mend => ((s.dropTag a.tag).disposeMend a fatal).retireTo next
      | .emul => (s.disposeEmul a bs fatal).retireTo next

/-- The supervisor instructions of R313 execute in S-mode at the L-site, ZRESUME in an emulation handler on its record too (R312).
[DEDUCED, log 69: unsafe] -/
def needS (w : BitVec 32) (handlerAddr : Option Word) : M Unit := fun s =>
  match s.hart.id with
  | .lcore _ => if s.hart.sup.mode == .s then .ok () s else raiseIllegal w s
  | .wthread _ => raiseIllegal w s
  | .roust _ =>
    match s.hart.handler, handlerAddr with
    | some r, some a => if a == r.recordVa then .ok () s else raiseIllegal w s
    | _, _ => raiseIllegal w s

/-- ZRESUME (R315). A handler disposes the record of its own run, whatever KIND and TAG its bytes hold by then.
[DEDUCED, log 64: unsafe; DEDUCED, log 69: unsafe; DESIGN CHOICE, log 112: unsafe] -/
def execZresume (a : BitVec 5) (b : BitVec 5) (s : State) : Outcome State Fault Refusal :=
  let w := instrWord (.zresume a b)
  finish w (do
    let s ← get
    let va := s.rx a
    let disp := s.rx b
    needS w (some va)
    if 1 < disp.toNat then raiseIllegal w
    let kind ← loadScalar va 1
    let size := if kind = 6 then 128 else 64
    let bs ← loadRecord va size size 4
    match s.hart.handler with
    | none => modify fun s => s.dispose bs (disp == 1) (s.ilen none)
    | some r =>
      modify fun s =>
        let t := s.endHandler
        match t.part.awaiting.find? fun x => x.tag == r.tag with
        | some x => t.disposeEmul x bs (disp == 1)
        | none => t) s

/-- ZFQPOP (R314). [DEDUCED, log 69: unsafe] -/
def execZfqpop (d : BitVec 5) (a : BitVec 5) (s : State) : Outcome State Fault Refusal :=
  let w := instrWord (.zfqpop d a)
  finish w (do
    needS w none
    let s ← get
    let em := (s.rx a).getLsbD 0
    let buf := s.rx a &&& ~~~1#64
    let size := if em then 128 else 64
    if buf.toNat % size ≠ 0 then throw (.trap 6 buf)
    let q := if em then s.part.emq else s.part.wfq
    if q.waiting = 0 || (em && q.serve) then effectM fun s => s.wx d 0
    else do
      let place := if em then emqAddr q q.taken.length else wfqAddr q 0
      let bs := s.bytes place size
      modify fun s => s.sample [place]
      storeBytes buf bs
      modify fun s =>
        s.modPart fun p =>
          if em then { p with emq := q.take true }
          else { p with wfq := { q with head := (q.head + 1) % wfqCap q, count := q.count - 1 } }
      effectM fun s => s.wx d (BitVec.ofNat 64 (recNat bs 0 1))) s

/-- A thread is resident at the W-site or on its way. -/
def State.inTransit (s : State) (ctx : Nat) : Bool := s.part.transit.any fun t => t.ctx == ctx

/-- What a park leaves of a wait: the instruction executes again from its start (R37, R54, R195, R297), but a thread that waits for a team
barrier stays waiting (R159), and one that waits for a place on its team's W-core stays out of its set (R151).
[DEDUCED, log 61: unsafe] -/
def Wait.parked : Wait → Option Wait
  | .tbar n => some (.tbar n)
  | .teamMove w => some (.teamMove w)
  | _ => none

/-- The park of a resident thread at its instruction boundary: it leaves its group, its registers go to its park slot, its reservation ends,
and it stands in a bin of its pc (R54, R118). [DEDUCED, log 61: unsafe] -/
def State.parkThread (s : State) (ctx : Nat) (f : Car → Car) : State :=
  let t :=
    s.withHart (.wthread ctx) fun s =>
      match s.hart.car with
      | some c =>
        let s1 := s.leaveGroup ctx c.core false
        { s1 with hart := { s1.hart with resv := none, wait := s1.hart.wait.bind Wait.parked, resume := none } }.modCar f
      | none => s
  t.stow ctx

/-- A W-site thread's migration has begun and its mending entries still drain: it leaves with a trap, or by MIGR.L (R30, R37). -/
def Hart.migrating (h : Hart) : Bool := (h.car.any fun c => c.leaving.isSome) || h.wait.any Wait.leaves

/-- A ZPARK of a thread waits: the thread is in transit or about to be, or within a request to Ringmaster and so at no instruction boundary
(R316). [DEDUCED, log 61: unsafe] -/
def State.parkLater (s : State) (ctx : Nat) : Bool :=
  s.inTransit ctx || (s.hart? (.wthread ctx)).any fun h => h.migrating || h.wait == some .rmRequest

/-- ZPARK (R316). [DEDUCED, log 65: unsafe; DEDUCED, log 69: unsafe] -/
def execZpark (d : BitVec 5) (a : BitVec 5) (s : State) : Outcome State Fault Refusal :=
  let w := instrWord (.zpark d a)
  finish w (do
    needS w none
    let s ← get
    let ctx := (s.rx a).toNat
    if ctx % 2048 ≠ 0 || !areaIn s.part.ranges ctx 2048 || !s.onPackage ctx then effectM fun s => s.wx d (-1)
    else if s.parkLater ctx then throw (.wait (.zpark ctx))
    else if s.hart.installed == some ctx then effectM fun s => s.uninstall.wx d 2
    else
      match (s.hart? (.wthread ctx)).bind Hart.car with
      | none => effectM fun s => s.wx d (-1)
      | some c =>
        if c.zparked then effectM fun s => s.wx d 1
        else effectM fun s => (s.parkThread ctx fun c => { c with zparked := true }).wx d 0) s

/-- ZSIGNAL (R317). [DEDUCED, log 69: unsafe] -/
def execZsignal (a : BitVec 5) (b : BitVec 5) (s : State) : Outcome State Fault Refusal :=
  let w := instrWord (.zsignal a b)
  finish w (do
    needS w none
    effectM fun s =>
      let ctx := (s.rx a).toNat
      let code : BitVec 8 := (s.rx b).setWidth 8
      let mark (h : Hart) : Hart := { h with extract := h.extract.or (some code) }
      (s.modHart (.wthread ctx) mark).modPart fun p =>
        { p with transit := adjust (fun t => t.ctx == ctx && t.dest.isSome) (fun t => { t with hart := mark t.hart }) p.transit }) s

end Sys2Proof.Machine
end

