-- ==== Sys2Proof/Machine/Events.lean ====
section
/-! DEFINITION. Sys2Proof/Machine/Events.lean: the events of the partition: migration, the Carousel, the mending buffer, the A-clock,
emulation handlers, hot pages, CSR writes and interrupts (R30 to R54, R66, R92, R279, R288, R303, R312).

An event whose condition does not hold changes nothing. -/
namespace Sys2Proof.Machine

open Host (Outcome)

/-- The partition is formed and runs. -/
def State.active (s : State) : Bool := s.part.formed && s.part.status == .running

/-! ## The bins of the Carousel (R47 to R51) -/

/-- A thread stands at a cross-lane instruction that its set, complete there, can execute (R44). -/
def setStands (s : State) (h : Hart) : Bool :=
  let t := s.focus h.id
  t.hart.id == h.id && (t.converging || t.atCross) && t.setReady

/-- A resident thread that the Carousel may draw: runnable and outside every group; one that stands at a cross-lane instruction, however it came
there, when its set has converged (R47, R150). One marked by ZSIGNAL is drawn with its complete set alone (R37). -/
def drawable (s : State) (w : WCore) (h : Hart) : Bool :=
  match h.id, h.car with
  | .wthread ctx, some c =>
    c.core == w.num && c.free && h.wait.isNone && (h.extract.isNone || setStands s h) && !w.grouped ctx &&
    (match c.skip with | some n => n < s.pkg.zaclk.toNat | none => true) &&
    !s.converges h
  | _, _ => false

/-- A bin: its key and its threads (R48). -/
structure Bin where
  pc : Word
  setw : Nat
  cls : Nat
  lanes : List Hart
  deriving DecidableEq, Repr

/-- The key of a thread's bin. [DESIGN CHOICE, log 47: unsafe] -/
def binKey (s : State) (h : Hart) : Nat × Nat × Nat := (h.u.pc.toNat, setwOf s h, profClass h.u.zwprof)

/-- The bins of the threads that may be drawn. [DESIGN CHOICE, log 47: unsafe] -/
def State.bins (s : State) (w : WCore) : List Bin :=
  let hs := s.allHarts.filter (drawable s w)
  (hs.map (binKey s)).dedup.map fun k => ⟨BitVec.ofNat 64 k.1, k.2.1, k.2.2, hs.filter fun h => binKey s h == k⟩

/-- The wait of a bin's oldest thread. -/
def Bin.wait (b : Bin) : Nat := (b.lanes.map fun h => match h.car with | some c => c.waited | none => 0).foldl max 0

/-- The set of a thread by a key: its team and base; a set of one is the thread's own. -/
def setKey (s : State) (h : Hart) : Nat × Nat × Nat :=
  let w := setwOf s h
  if w = 1 then (0, (match h.id with | .wthread c => c | _ => 0), 0) else (1, teamOf s h, rankOf s h / w)

/-- The sets of a bin with a member ready, in the order of their oldest members' entries (R50). -/
def Bin.sets (s : State) (b : Bin) : List (List Hart) :=
  let entry (l : List Hart) : Nat := (l.map fun h => match h.car with | some c => c.entered | none => 0).foldl min (2 ^ 64)
  sortOn (fun l => [entry l]) ((b.lanes.map (setKey s)).dedup.map fun k => b.lanes.filter fun h => setKey s h == k)

/-- The order of bins: the longest wait first, then the lower pc, set width and class (R50). -/
def Bin.key (b : Bin) : List Nat := [2 ^ 64 - b.wait, b.pc.toNat, b.setw, b.cls]

/-- The aged bins of a W-core, in order (R50, R51). -/
def State.agedBins (s : State) (w : WCore) : List Bin :=
  sortOn Bin.key ((s.bins w).filter fun b => s.part.zage.toNat < b.wait)

/-- The full bins of a W-core, in order (R50). -/
def State.fullBins (s : State) (w : WCore) : List Bin :=
  sortOn Bin.key ((s.bins w).filter fun b => 64 / b.setw ≤ (b.sets s).length)

/-- The sets that a bin fills a group with (R50). -/
def Bin.drawn (s : State) (b : Bin) : List (List Hart) := (b.sets s).take (64 / b.setw)

/-- The bins that the free slots of a W-core take in this A-clock (R50). -/
def State.nextBins (s : State) (w : WCore) : List Bin :=
  if s.clockStopped w.num || s.part.preempting || !s.active then []
  else ((s.agedBins w ++ s.fullBins w).dedup).take (w.slots.toList.filter Option.isNone).length

/-- In this A-clock the set of a thread executes a cross-lane instruction that the thread has reached: its set is complete there, and a member
is a lane of an issue slot that has still to execute, or a free slot takes it now (R37). [DEDUCED, log 61: unsafe] -/
def setTurn (s : State) (h : Hart) : Bool :=
  setStands s h &&
  (match h.car.bind fun c => s.wcore? c.core with
   | some w =>
     let t := s.focus h.id
     let ours (c : Nat) : Bool := t.mySet.any fun m => m.id == .wthread c
     w.slots.toList.any (fun g => g.any fun g => g.todo.any ours) ||
     (s.nextBins w).any fun b => (b.drawn s).any fun l => l.any fun m => ours m.ctx
   | none => false)

/-! ## Migration (R30 to R37) -/

/-- A handler runs for a record (R312). -/
def State.handled (s : State) (tag : Nat) : Bool :=
  s.allHarts.any fun h => match h.handler with | some r => r.tag == tag | none => false

/-- A thread marked by ZSIGNAL can be extracted (R37, R318): it stands at a boundary, its mending entries have drained, no handler runs
for its record, it is not about to leave anyway, and its set executes no cross-lane instruction with it first.
[DEDUCED, log 61: unsafe] -/
def extractable (s : State) (h : Hart) : Bool :=
  match h.extract, h.car with
  | some _, some c =>
    h.wait != some .rmRequest && !c.preempted && c.leaving.isNone && !setTurn s h && (s.focus h.id).myMends.isEmpty && s.coreRuns h &&
    (match c.emulTag with | some t => !s.handled t | none => true)
  | _, _ => false

/-- An event that waits for a record is the FAULT of a thread. -/
def Backlog.isFault (ctx : Nat) : Backlog → Bool
  | .fault c => c == ctx
  | .mend _ _ => false

/-- The records of the current thread's park withdrawn: those that await disposition and those still to be filed (R37, R318).
[DEDUCED, log 61: unsafe] -/
def State.withdraw (s : State) : State :=
  match s.hart.car with
  | some c =>
    ([c.faultTag, c.emulTag].foldl (fun (t : State) x => match x with | some n => t.dropTag n | none => t) s).modPart fun p =>
      { p with backlog := p.backlog.filter fun b => !b.isFault s.hart.ctx, emBacklog := p.emBacklog.filter (· != s.hart.ctx) }
  | none => s

/-- EXTRACTION: the thread leaves for the L-site with its signal and with HOLD clear; cause 30 goes with it when a mended store has been
dropped (R37, R318). [DEDUCED, log 67: unsafe] -/
def execExtraction (h : HartId) (s : State) : Outcome State Fault Refusal :=
  match s.hart? h with
  | some x =>
    if extractable s x then
      .next (s.withHart h fun s =>
        let s1 := s.withdraw.modU User.clearHold
        match s1.hart.dropped with
        | some va => { s1 with hart := { s1.hart with dropped := none } }.departToL s1.pc (some ⟨30, s1.pc, va⟩) none
        | none => s1.departToL s1.pc none none)
    else .next s
  | none => .next s

/-- The L-core has returned to U-mode with a thread whose home is the W-site and whose HOLD was 0 (R34). [DEDUCED, log 43: unsafe] -/
def Hart.goesHome (h : Hart) : Bool := h.homing && h.wait.isNone

/-- A waiting or due migration of the current hart can take place. -/
def State.canDepart (s : State) : Bool :=
  match s.hart.wait, s.hart.car with
  | some .migrate, _ => s.departure.isSome
  | some (.teamMove w), some c => c.free && s.coreRuns s.hart && s.part.wcoreNums.contains w && s.entriesOn w < 4096
  | some (.leave _), some c => c.free && s.coreRuns s.hart && s.myMends.isEmpty
  | _, some c => c.leaving.isSome && !c.preempted && s.coreRuns s.hart && s.myMends.isEmpty
  | _, none => s.hart.goesHome && (s.hart.dropped.isSome || s.departure.isSome)

/-- The migration itself: a waiting instruction executes again, but a TJOIN that waits for a place moves its thread at once while the partition is
pre-empted, when no instruction executes (R37, R319); a MIGR.L leaves; a thread leaves with its trap; a thread returns home. Cause 30 is taken
first when a mended store of the thread has been dropped (R30, R34). -/
def State.depart (s : State) : State :=
  match s.hart.wait, s.hart.car with
  | some .migrate, _ => { s with hart := s.wake s.hart }
  | some (.teamMove w), _ => if s.part.preempting then s.moveToW w else { s with hart := s.wake s.hart }
  | some (.leave len), _ => if s.hart.dropped.isSome then s.migrateTrap ⟨30, s.pc, 0⟩ else s.leaveHome (BitVec.ofNat 64 len)
  | _, some c => match c.leaving with | some t => s.migrateTrap t | none => s
  | _, none =>
    match s.hart.dropped with
    | some va => { s with hart := { s.hart with dropped := none } }.takeTrap 30 s.pc va
    | none => match s.departure with | some w => s.departToW w s.pc | none => s

/-- MIGRATION_DEPART (R30). -/
def execMigrationDepart (h : HartId) (s : State) : Outcome State Fault Refusal :=
  .next (s.withHart h fun s => if s.canDepart then s.depart else s)

/-- A transit taken out. -/
def State.endTransit (s : State) (ctx : Nat) : State := s.modPart fun p => { p with transit := p.transit.filter fun t => t.ctx != ctx }

/-- ARRIVAL_W_SITE: a Carousel entry and a park slot, a re-binning point (R33); the clean granules of its team's windows are discarded
(R86). [DESIGN CHOICE, log 48: unsafe] -/
def execArrivalWSite (ctx : Nat) (s : State) : Outcome State Fault Refusal :=
  match s.part.transit.find? fun t => t.ctx == ctx with
  | some t =>
    match t.dest with
    | some w =>
      let used := s.allHarts.filterMap fun h => h.car.map Car.slot
      let car : Car :=
        { core := w, slot := lowestIdx used used.length 0, active := false, entered := s.pkg.zaclk.toNat, waited := 0, skip := none,
          w32 := s.part.w32, conv := none, faultTag := none, emulTag := none, zparked := false, preempted := s.part.preempting,
          unfiled := none, leaving := none }
      let s1 := s.endTransit ctx
      let s2 := { s1 with harts := s1.harts ++ [{ t.hart with id := .wthread ctx, car := some car, wait := none }] }
      .next ((match s2.memberOf (.wthread ctx) with
        | some m => s2.dropGranules m.team fun _ _ => true
        | none => s2).stow ctx)
    | none => .next s
  | none => .next s

/-- ARRIVAL_L_SITE: the image written, then the ARRIVE record, once the queue has room (R33, R304, R305, R308). -/
def execArrivalLSite (ctx : Nat) (s : State) : Outcome State Fault Refusal :=
  match s.part.transit.find? fun t => t.ctx == ctx with
  | some t =>
    if t.dest.isSome || !s.wfqRoom then .next s
    else
      let u := t.hart.u
      let s1 := s.engineWrite ctx (imageAll u (s.memberOf (.wthread ctx)) s.freeCount)
      let s2 := { s1 with freeCount := s1.freeCount + 1 }.putAsleep (asleepOf ctx t.hart)
      let tr : PendTrap := t.trap.getD ⟨0, u.pc, 0⟩
      let (tag, s3) := (s2.endTransit ctx).newTag .arrive ctx tr.cause tr.tval tr.epc
      .next (s3.pushWf
        { kind := 2, cause := tr.cause, flags := (if t.trap.isSome then 1 else 0) + (if t.sig.isSome then 2 else 0),
          sigcode := (match t.sig with | some c => c.toNat | none => 0), tag := tag, ctx := ctx, pc := tr.epc, addr := tr.tval,
          core := t.fromCore })
  | none => .next s

/-! ## The issue slots (R47 to R52) -/

/-- A bin drawn into a slot: whole sets, each a block of its set width (R50).
[DESIGN CHOICE, log 46: safe; DESIGN CHOICE, log 47: unsafe] -/
def State.drawBin (s : State) (w slot : Nat) (b : Bin) : State :=
  let picked := (b.drawn s).flatMap fun l => sortOn (fun h => [vlaneOf s h]) l
  let lanes := picked.map Hart.ctx
  let conv (h : Hart) (k : Car) : Option Word := if (s.focus h.id).atCross then some h.u.pc else k.conv
  let s1 := lanes.foldl (fun (t : State) c =>
    t.modHart (.wthread c) fun h => { h with car := h.car.map fun k => { k with active := true, skip := none, conv := conv h k } }) s
  (s1.modW w fun c => { c with slots := c.slots.setIfInBounds slot (some ⟨lanes, lanes, false, 0, []⟩) }).parkContexts w

/-- A group whose lanes have executed its instruction: it goes on to the next, or it ends and every lane re-files (R49).
[DESIGN CHOICE, log 47: unsafe] -/
def State.settleGroup (s : State) (w slot : Nat) (g : Group) : State :=
  if g.ending || g.lanes.isEmpty then
    (g.lanes.foldl (fun (t : State) c =>
      t.modHart (.wthread c) fun h =>
        { h with
          car := h.car.map fun k => { Car.refiled t k with skip := k.skip.map fun _ => t.pkg.zaclk.toNat + 1 } }) s).modW w fun c =>
      { c with slots := c.slots.setIfInBounds slot none }
  else s.modW w fun c => { c with slots := c.slots.setIfInBounds slot (some { g with todo := g.lanes, code := [] }) }

/-- CAROUSEL_DRAW: a free slot draws the first aged or full bin; a group that has executed goes on or ends (R49, R50). -/
def execCarouselDraw (w : Nat) (slot : Nat) (s : State) : Outcome State Fault Refusal :=
  match s.wcore? w with
  | some c =>
    if s.clockStopped w || s.part.preempting || !s.active || 4 ≤ slot then .next s
    else
      match c.slots.toList.getD slot none with
      | some g => .next (if g.todo.isEmpty then s.settleGroup w slot g else s)
      | none =>
        match s.agedBins c ++ s.fullBins c with
        | b :: _ => .next (s.drawBin w slot b)
        | [] => .next s
  | none => .next s

/-- The lowest free slot of a W-core. -/
def WCore.freeSlot (w : WCore) : Option Nat := (List.range 4).find? fun i => (w.slots.toList.getD i none).isNone

/-- BIN_AGED: the first aged bin takes a free slot (R50). -/
def execBinAged (w : Nat) (s : State) : Outcome State Fault Refusal :=
  match s.wcore? w with
  | some c =>
    if s.clockStopped w || s.part.preempting || !s.active then .next s
    else
      match s.agedBins c, c.freeSlot with
      | b :: _, some i => .next (s.drawBin w i b)
      | _, _ => .next s
  | none => .next s

/-- The group of a slot after 64 consecutive A-clocks in it: it ends, and every lane re-files at its own pc (R49). -/
def State.slotLimit (s : State) (w slot : Nat) : State :=
  match s.wcore? w with
  | some c =>
    match c.slots.toList.getD slot none with
    | some g => if 64 ≤ g.clocks && !s.clockStopped w then s.settleGroup w slot { g with ending := true } else s
    | none => s
  | none => s

/-- GROUP_SLOT_LIMIT: 64 consecutive A-clocks in the slot end a group (R49). -/
def execGroupSlotLimit (w : Nat) (slot : Nat) (s : State) : Outcome State Fault Refusal := .next (s.slotLimit w slot)

/-- A free slot of a W-core whose clock runs draws the first bin, if there is one (R50). -/
def State.drawFree (s : State) (w slot : Nat) : State :=
  match s.wcore? w with
  | some c =>
    if s.clockStopped w || s.part.preempting || (c.slots.toList.getD slot none).isSome then s
    else match s.agedBins c ++ s.fullBins c with | b :: _ => s.drawBin w slot b | [] => s
  | none => s

/-- The issue slots of every W-core in one A-clock: groups whose time is over end, and every free slot with a candidate draws (R49, R50,
R52). -/
def State.drawClock (s : State) : State :=
  let slots := s.part.wcores.flatMap fun w => (List.range 4).map fun i => (w.num, i)
  slots.foldl (fun (t : State) x => t.drawFree x.1 x.2) (slots.foldl (fun (t : State) x => t.slotLimit x.1 x.2) s)

/-! ## The mending buffer (R66) -/

/-- The oldest entry of a thread in a W-core's buffer. -/
def State.headMend (s : State) (w ctx : Nat) : Option Mend := (s.wcore? w).bind fun c => c.mend.find? fun m => m.ctx == ctx

/-- The buffer of a W-core works. -/
def State.mendRuns (s : State) (w : Nat) : Bool := s.active && !s.clockStopped w

/-- The first event of the W-fault queue's backlog gets its record (R308); one that no longer needs it is passed over.
[DESIGN CHOICE, log 50: safe] -/
def State.fileFirst (s : State) : State :=
  match s.part.backlog with
  | [] => s
  | b :: rest =>
    let t := s.modPart fun p => { p with backlog := rest }
    match b with
    | .fault ctx =>
      match (t.hart? (.wthread ctx)).bind fun h => h.car.bind fun c => c.unfiled.map fun u => (h, c, u) with
      | some (h, c, .fault cause acc va) => t.fileFault ctx c.core cause acc va h.u.pc
      | _ => t
    | .mend w ctx =>
      match t.headMend w ctx with
      | some m =>
        if m.state = .unfiled then let (m1, u) := t.writeMend w m; u.modW w fun c => { c with mend := m1 :: dropFirst ctx c.mend } else t
      | none => t

/-- The first thread of the emulation queue's backlog gets its record (R308). [DESIGN CHOICE, log 50: safe] -/
def State.fileFirstEmul (s : State) : State :=
  match s.part.emBacklog with
  | [] => s
  | ctx :: rest =>
    (s.modPart fun p => { p with emBacklog := rest }).withHart (.wthread ctx) fun t =>
      match t.hart.car.bind Car.unfiled with
      | some (.emul e entry) => t.fileEmul ctx e entry
      | _ => t

/-- The records that wait are written in the order of their events, as far as there is room (R308). [DESIGN CHOICE, log 50: safe] -/
def State.fileWaiting (s : State) : State :=
  let t := s.part.backlog.foldl (fun (t : State) _ => if t.wfqFree then t.fileFirst else t) s
  t.part.emBacklog.foldl (fun (t : State) _ => if t.emqFree then t.fileFirstEmul else t) t

/-- MENDING_ENTRY_PERFORM: the thread's oldest entry tried at its turn, or its record filed once there is room (R66, R308). -/
def execMendingEntryPerform (w : Nat) (ctx : Nat) (s : State) : Outcome State Fault Refusal :=
  match s.headMend w ctx with
  | some m =>
    if !s.mendRuns w then .next s
    else
      match m.state with
      | .queued => .next (s.performMend w ctx)
      | .unfiled => .next s.fileWaiting
      | .awaiting _ => .next s
  | none => .next s

/-- DRAIN_COMPLETE: an instruction that waits for the drain executes (R66). -/
def execDrainComplete (h : HartId) (s : State) : Outcome State Fault Refusal :=
  .next (s.wakeIf h fun x w => w == .drain && (s.focus x.id).myMends.isEmpty)

/-- MENDING_BUFFER_ROOM: a store that stalled on the full buffer proceeds (R66). -/
def execMendingBufferRoom (h : HartId) (s : State) : Outcome State Fault Refusal :=
  .next (s.wakeIf h fun x w =>
    w == .mendRoom && (match (x.car.bind fun c => s.wcore? c.core) with | some c => c.mendCount < 256 | none => true))

/-! ## The A-clock (R3, R10, R48, R92, R279, R288) -/

/-- A wait in which budget does not count: those of R279's table, and those of a thread that is migrating. [DEDUCED, log 62: unsafe] -/
def Wait.uncounted : Wait → Bool
  | .mwait | .barwait _ _ | .tbar _ | .vsettle _ | .ttake | .migrate | .leave _ | .teamMove _ => true
  | _ => false

/-- The budget of a hart's run counts in this A-clock (R279). A thread that is extracted at its boundary, or leaves with a trap, is
migrating from there on, its drain included (R30, R36, R37). [DEDUCED, log 62: unsafe] -/
def counts (s : State) (h : Hart) : Bool :=
  (match h.wait with | some w => !w.uncounted | none => true) &&
  (match h.car with
   | some c => c.free && !s.clockStopped c.core && (h.extract.isNone || h.wait == some .rmRequest || setTurn s h)
   | none => h.installed.isSome && h.sup.mode == .u && !h.homing)

/-- The A-clocks of a hart's W-core run. -/
def ticks (s : State) (h : Hart) : Bool :=
  match h.car with | some c => !s.clockStopped c.core | none => false

/-- The clocks of a hart's core in an A-clock: A-clocks at the W-site (R11), and a free number of L-clocks at the L-site, at most 6, since
an L-core runs at up to 3.2 GHz and an A-clock is a period of 600 MHz (R3, R12). [DESIGN CHOICE, log 102: unsafe] -/
def coreClocks (s : State) (h : Hart) : Word :=
  match h.id with
  | .lcore n => BitVec.ofNat 64 (Config.lClocks s.freeCount s.pkg.zaclk.toNat n % 7)
  | .roust n => BitVec.ofNat 64 (Config.roustClocks s.freeCount s.pkg.zaclk.toNat n)
  | .wthread _ => if ticks s h then 1 else 0

/-- A hart after an A-clock: its budget (R279), its wait in its bin (R48), the clocks of its core (R11).
[DEDUCED, log 53: unsafe; DEDUCED, log 62: unsafe; DESIGN CHOICE, log 102: unsafe] -/
def Hart.tick (s : State) (h : Hart) : Hart :=
  let n := h.u.zbudget - 1
  let spends := h.u.ztask != 0 && h.u.zbudget != 0 && h.u.zbudget != -1 && counts s h
  { h with
    u := if spends then { h.u with zbudget := n } else h.u
    budgetDue := h.budgetDue || (spends && n == 0)
    cycle := if h.sup.mcountinhibit.getLsbD 0 then h.cycle else h.cycle + coreClocks s h
    car := h.car.map fun c => if ticks s h && c.free && !s.inGroup h then { c with waited := c.waited + 1 } else c }

/-- The groups of a W-core after an A-clock. -/
def WCore.tick (s : State) (w : WCore) : WCore :=
  if s.clockStopped w.num then w else { w with slots := w.slots.map fun g => g.map fun g => { g with clocks := g.clocks + 1 } }

/-- The partition after an A-clock in which it runs. [DEDUCED, log 87: safe] -/
def State.tick (s : State) : State :=
  ({ s with hart := s.hart.tick s, harts := s.harts.map (Hart.tick s) }.modPart fun p =>
    { p with wcores := p.wcores.map (WCore.tick s), hotClock := if p.hotEn then p.hotClock + 1 else p.hotClock }).fileWaiting

/-- The A-clocks of 60 s at 600 MHz (R10, R353). -/
def commitClocks : Nat := 36000000000

/-- zaclk advances; every 60 s the lifetime record is committed (R353). [DEDUCED, log 87: safe] -/
def State.zaclkNext (s : State) : State :=
  s.modPkg fun k =>
    { k with zaclk := k.zaclk + 1, committed := if (k.zaclk + 1).toNat % commitClocks = 0 then k.lifetime else k.committed }

/-! ## Emulation handlers (R312) -/

/-- A Roustabout core is idle. -/
def State.roustIdle (s : State) (r : Nat) : Bool := (s.hart? (.roust r)).isNone

/-- The handler of the oldest waiting record starts on a core, under the entry that stood at the trap; the record keeps its place until it
is disposed. A record that was withdrawn is passed over (R310, R312). The handler starts with fcsr 0 and the entry's SATP as it stands, a
reserved MODE included. [DEDUCED, log 68: safe; DESIGN CHOICE, log 110: unsafe; DESIGN CHOICE, log 113: unsafe] -/
def State.startHandler (s : State) (r : Nat) : State :=
  let q := s.part.emq
  let pa := emqAddr q q.taken.length
  let bs := s.bytes pa 128
  let took (done : Bool) : State := (s.sample [pa]).modPart fun p => { p with emq := q.take done }
  match s.part.awaiting.find? fun a => a.tag == recNat bs 4 4 && a.kind == .emul with
  | none => took true
  | some a =>
    let s1 := took false
    let e := a.entry
    let va := imgWord e 16 + BitVec.ofNat 64 (pa - q.base)
    let u := emptyUser s1.freeCount
    let h : Hart :=
      { Hart.init (.roust r) with
        u := { u with x := (u.x.set 0 0).set 10 va, pc := imgWord e 0 &&& ~~~1#64 }
        sup := { Sup.init with mode := .u, satp := imgWord e 8 }
        handler := some ⟨pa, va, a.ctx, a.tag, s.pkg.zaclk.toNat⟩ }
    { s1 with harts := s1.harts ++ [h], freeCount := s1.freeCount + 64 }

/-- EMULATION_HANDLER_RUN: an idle Roustabout core takes the next record (R312). [DEDUCED, log 68: safe] -/
def execEmulationHandlerRun (r : Nat) (s : State) : Outcome State Fault Refusal :=
  if r < 8 && s.active && !s.part.preempting && s.part.emq.serve && s.part.emq.waiting ≠ 0 && s.roustIdle r then .next (s.startHandler r)
  else .next s

/-- A handler has run for 2^20 A-clocks (R312). -/
def Hart.overtime (now : Nat) (h : Hart) : Bool := match h.handler with | some r => 2 ^ 20 ≤ now - r.started | none => false

/-- HANDLER_TIME_LIMIT (R312). -/
def execHandlerTimeLimit (r : Nat) (s : State) : Outcome State Fault Refusal :=
  match s.hart? (.roust r) with
  | some h =>
    if h.overtime s.pkg.zaclk.toNat then
      .next (s.withHart (.roust r) fun s => match s.hart.handler with | some x => s.handlerFatal x | none => s)
    else .next s
  | none => .next s

/-! ## Hot pages (R92, R93) -/

/-- The sampling interval has ended. [DEDUCED, log 53: unsafe] -/
def State.hotDue (s : State) : Bool := s.active && s.part.hotEn && 2 ^ (s.part.hotIvl + 16) ≤ s.part.hotClock

/-- The estimates of an interval: each at least the true count, by an amount left open, saturating (R92).
[DEDUCED, log 53: unsafe; DESIGN CHOICE, log 54: safe] -/
def hotEstimates (n : Nat) (l : List (Nat × Nat)) : List (Nat × Nat) :=
  l.mapIdx fun i e => (e.1, min (e.2 + Config.freeNat (n + i)) (2 ^ 32 - 1))

/-- The bytes of a list of pages with estimates. [DEDUCED, log 53: unsafe] -/
def hotList (l : List (Nat × Nat)) : List Byte :=
  (l.flatMap fun e =>
    natLe 8 e.1 ++ natLe 4 e.2 ++ natLe 1 (if e.1 * 4096 % 2 ^ 47 < 0x10000000000 then 0 else 1) ++ natLe 3 0) ++
  (List.range (64 - l.length)).flatMap fun _ => natLe 16 0

/-- HOT_PAGE_PUBLISH: the list written, interrupt 18 raised at every L-core, the sketch at zero (R92, R303). -/
def execHotPagePublish (s : State) : Outcome State Fault Refusal :=
  if s.hotDue then
    let l := hotEstimates s.freeCount (s.part.hotCounts.filter fun e => inRanges s.part.ranges (e.1 * 4096))
    let most := (l.map Prod.snd).foldl max 0
    let top := (sortOn (fun (e : Nat × Nat) => [most - e.2, e.1]) l).take 64
    let s1 := { s with freeCount := s.freeCount + l.length }.engineWrite s.part.hotBase (hotList top)
    let raise (h : Hart) : Hart := match h.id with | .lcore _ => { h with sup := { h.sup with mip := h.sup.mip ||| 0x40000#64 } } | _ => h
    .next ({ s1 with hart := raise s1.hart, harts := s1.harts.map raise }.modPart fun p => { p with hotCounts := [], hotClock := 0 })
  else .next s

/-! ## CSR writes (R134) -/

/-- ZPACK_WRITE (R40). -/
def execZpackWrite (v : Word) (s : State) : Outcome State Fault Refusal := .next (s.writeZpack v)
/-- ZWIDTH_WRITE (R41). -/
def execZwidthWrite (v : Word) (s : State) : Outcome State Fault Refusal := .next (s.writeZwidth v)
/-- ZPARK_WRITE (R53). -/
def execZparkWrite (v : Word) (s : State) : Outcome State Fault Refusal := .next (s.writeZpark v)
/-- ZRBT_WRITE (R71). -/
def execZrbtWrite (v : Word) (s : State) : Outcome State Fault Refusal := .next (s.writeZrbt v)
/-- ZBANKROLE_WRITE (R83). -/
def execZbankroleWrite (v : Word) (s : State) : Outcome State Fault Refusal := .next (s.writeZbankrole v)
/-- ZHOTL_WRITE (R93). -/
def execZhotlWrite (v : Word) (s : State) : Outcome State Fault Refusal := .next (s.writeZhotl v)
/-- ZSEED_WRITE (R247). -/
def execZseedWrite (v : Word) (s : State) : Outcome State Fault Refusal := .next (s.writeZseed v)
/-- ZWFQ_WRITE (R306). -/
def execZwfqWrite (v : Word) (s : State) : Outcome State Fault Refusal := .next (s.writeZwfq v)
/-- ZEMQ_WRITE (R309). -/
def execZemqWrite (v : Word) (s : State) : Outcome State Fault Refusal := .next (s.writeZemq v)

/-- The CSRs whose writes are steps of their own. -/
def ownWrite (a : Nat) : Bool := [0x805, 0x807, 0x5C1, 0x5C2, 0x5C3, 0x5C4, 0x5C6, 0x5C7, 0x5C8].contains a

/-- CSR_WRITE: a write to an assigned, writable CSR with no behaviour of its own (R134). -/
def execCsrWrite (addr : BitVec 12) (v : Word) (s : State) : Outcome State Fault Refusal :=
  let a := addr.toNat
  if a / 1024 = 3 || a = 0x5C0 || ownWrite a || (s.csrVal a).isNone then .next s else .next (s.csrPut a v)

/-! ## Interrupts (R303) -/

/-- An interrupt is pending and enabled at the current L-core, its mode lets it be taken, and no request of the core stands at Ringmaster: an
instruction is under way until it is answered. [DEDUCED, log 61: unsafe; DEDUCED, log 88: safe] -/
def State.irqDue (s : State) (n : Nat) : Bool :=
  let c := s.hart.sup
  match s.hart.id with
  | .lcore _ =>
    s.active && s.hart.wait != some .rmRequest && s.mipVal.getLsbD n && c.mie.getLsbD n &&
    (if c.mideleg.getLsbD n then c.mode == .u || (c.mode == .s && field c.mstatus 1 1 == 1)
     else c.mode != .m || field c.mstatus 3 1 == 1)
  | _ => false

/-- The interrupts in the order in which an empty agenda takes them: among those of one destination SEI, SSI, STI (RISC-V privileged
architecture), before them those of the device, for which the manual gives no order. [DESIGN CHOICE, log 55: safe] -/
def irqOrder : List Nat := [16, 17, 18, 9, 1, 5]

/-- Interrupt k goes before interrupt n: one destined for M-mode before one for S-mode, and SEI, SSI, STI in this order among those of one
destination (R2: RISC-V privileged architecture). [DESIGN CHOICE, log 55: safe] -/
def State.irqBefore (s : State) (k n : Nat) : Bool :=
  let toS (j : Nat) : Bool := s.hart.sup.mideleg.getLsbD j
  if toS k == toS n then k < 16 && n < 16 && irqOrder.idxOf k < irqOrder.idxOf n else toS n

/-- The current hart may take interrupt n: it is due, and none that is due goes before it. [DESIGN CHOICE, log 55: safe] -/
def State.irqFirst (s : State) (n : Nat) : Bool := s.irqDue n && irqOrder.all fun k => !(s.irqDue k && s.irqBefore k n)

/-- The interrupt that the current hart takes when the agenda names none. [DESIGN CHOICE, log 55: safe] -/
def State.dueIrq (s : State) : Option Nat := irqOrder.find? s.irqFirst

/-- INTERRUPT_TAKEN: the trap at the current L-core's instruction boundary (R2, R303). [DESIGN CHOICE, log 55: safe] -/
def execInterruptTaken (n : Nat) (s : State) : Outcome State Fault Refusal :=
  if irqOrder.contains n && s.irqFirst n then .next { s with hart := enterTrap true n s.pc 0 s.hart } else .next s

end Sys2Proof.Machine
end

