-- ==== Sys2Proof/Machine/Package.lean ====
section
/-! DEFINITION. Sys2Proof/Machine/Package.lean: what reaches the partition from outside its cores: the host's commands and requests,
pre-emption, Safety Net, firmware actions, links, errors, bring-up and power (R16, R17, R82, R319 to R337, R351 to R355). -/
namespace Sys2Proof.Machine

open Host (Outcome)

/-- A message sent. -/
def State.send (s : State) (m : HostMsg) : State := s.modPkg fun k => { k with hostOut := k.hostOut ++ [m] }

/-! ## Pre-emption (R319) -/

/-- A thread waits for a place on another W-core, and there is one (R151). -/
def State.mayMove (s : State) (h : Hart) : Bool :=
  match h.wait with
  | some (.teamMove w) => (h.car.any Car.free) && s.part.wcoreNums.contains w && s.entriesOn w < 4096
  | _ => false

/-- A W-site thread that pre-emption parks now: not one within a request to Ringmaster, which stands at no instruction boundary (R54), nor one
whose migration has begun, which completes first (R37, R319). [DESIGN CHOICE, log 80: safe] -/
def State.parksNow (s : State) (h : Hart) : Bool :=
  (h.car.any fun c => !c.preempted) && h.wait != some .rmRequest && !h.migrating && !s.mayMove h

/-- The W-site threads that can be parked are parked (R319 step 1). [DESIGN CHOICE, log 80: safe] -/
def State.parkReady (s : State) : State :=
  (s.allHarts.filter s.parksNow).foldl (fun (t : State) h => t.parkThread h.ctx fun c => { c with preempted := true }) s

/-- Pre-emption goes on: no group is drawn any more, and the W-site threads are parked, each as soon as it can be (R319 step 1).
[DEDUCED, log 61: unsafe; DESIGN CHOICE, log 80: safe] -/
def State.beginPreempt (s : State) : State :=
  if s.part.preempting then s.parkReady
  else
    (s.modPart fun p =>
      { p with preempting := true, wcores := p.wcores.map fun w => { w with slots := Vector.replicate 4 none } }).parkReady

/-- Every W-site thread is parked, migrations have completed, handlers have run to their disposition, copies have run to completion, no thread
is within a request to Ringmaster, and no Press command waits for its W-core's clock (R10, R319 steps 1 to 4).
[DESIGN CHOICE, log 80: safe] -/
def State.preemptReady (s : State) : Bool :=
  s.part.transit.isEmpty &&
  (s.allHarts.all fun h => h.handler.isNone && h.wait != some .rmRequest && h.car.all Car.preempted) &&
  (s.chansAll.all fun x => x.2.2.queue.isEmpty) && s.part.wcores.all fun w => w.press.queue.isEmpty || !s.clockStopped w.num

/-- The Presses stopped, the dirty bytes of bound regions written back in an order left to the device; the L-cores stand at their instruction
boundaries, and what waited there executes again after the resume (R195, R297, R319 steps 3 to 5, R334). [DESIGN CHOICE, log 80: safe] -/
def State.finishPreempt (s : State) : State :=
  let s1 := s.part.wcoreNums.foldl State.stopPress s
  let boundary (h : Hart) : Hart := match h.id with | .lcore _ => { h with wait := h.wait.bind Wait.parked, resume := none } | _ => h
  let (n, s2) := ({ s1 with hart := boundary s1.hart, harts := s1.harts.map boundary } : State).fresh
  (s2.writeBackAll (rotateBy (Config.freeNat n) (s2.part.priv.filter PrivByte.dirty))).modPart fun p =>
    { p with status := .stopped, preempting := false }

/-- The partition continues as if it had not been stopped: its W-site threads resume in their bins and waits (R54, R319).
[DESIGN CHOICE, log 80: safe] -/
def State.resumePart (s : State) : State :=
  let go (h : Hart) : Hart := { h with car := h.car.map fun c => { c with preempted := false } }
  { s with hart := go s.hart, harts := s.harts.map go }.modPart fun p => { p with status := .running, preempting := false }

/-! ## Safety Net (R334 to R337) -/

/-- The ranges of the partition on its package. -/
def State.ownRanges (s : State) : List (Nat × Nat) := s.part.ranges.filter fun r => r.1 / 2 ^ 47 == s.pkg.pkgId

/-- What a CHECKPOINT writes (R334): the partition's ranges on its package, or the whole device's memory (R336), with the save area.
[DESIGN CHOICE, log 81: safe] -/
def State.saved (s : State) (whole : Bool) : Saved :=
  let keep (pa : Nat) : Bool := if whole then s.onPackage pa else inRanges s.ownRanges pa
  { pkg := s.pkg.pkgId
    pid := s.part.pid
    ranges := s.part.ranges
    mem := s.mem.filter fun e => keep e.1
    poison := s.poison.filter fun w => keep (8 * w)
    hart := s.hart
    harts := s.harts
    part := s.part }

/-- A slot written; after a safe-tier error its contents are undefined (R336). [DESIGN CHOICE, log 81: safe] -/
def State.writeSlot (s : State) (n : Nat) (whole : Bool) : Nat × State :=
  let (k, s1) := s.fresh
  let put (x : Slot) : State := s1.modPkg fun p => { p with slots := (p.slots.filter fun y => y.num != n) ++ [{ x with num := n }] }
  if Config.freeBool k then (3, put (undefSlot k)) else (0, put ⟨n, s.saved whole, saveDigest (s.saved whole)⟩)

/-- Memory with the cells of some ranges replaced. -/
def replaceCells (rs : List (Nat × Nat)) (mem new : List Host.Cell) : List Host.Cell :=
  (new.filter fun e => inRanges rs e.1).foldl (fun m e => sparseSet 0#8 m e.1 e.2) (mem.filter fun e => !inRanges rs e.1)

/-- A RESTORE of a slot that has passed its checks (R337): the size of the task table comes from the slot, what the partition's formation
measured stays (R341). [DESIGN CHOICE, log 98: unsafe] -/
def State.loadSlot (s : State) (v : Saved) : State :=
  s.ownRanges.foldl (fun t r => t.probeRemote r.1 r.2)
    { s with
      mem := replaceCells s.ownRanges s.mem v.mem
      poison := (s.poison.filter fun w => !inRanges s.ownRanges (8 * w)) ++ v.poison.filter fun w => inRanges s.ownRanges (8 * w)
      hart := v.hart
      harts := v.harts
      part :=
        { v.part with
          cmds := s.part.cmds, hostReqs := s.part.hostReqs, netReqs := s.part.netReqs, notify := s.part.notify
          pid := s.part.pid, bootHash := s.part.bootHash, status := .stopped } }

/-- A W-core that partitions may hold: one that needs more than its spares is left out of every one (R355). -/
def State.usableW (s : State) (w : Nat) : Bool := w < 256 && !s.pkg.leftOut.contains w

/-- A RESTORE: the status and the state (R337). [DESIGN CHOICE, log 98: unsafe] -/
def State.restoreSlot (s : State) (n : Nat) : Nat × State :=
  match s.pkg.slots.find? fun x => x.num == n with
  | none => (2, s)
  | some x =>
    let (k, s1) := s.fresh
    if Config.freeBool k then (3, s1)
    else if x.digest != saveDigest x.saved || x.saved.pkg != s.pkg.pkgId || x.saved.ranges != s.part.ranges ||
        !x.saved.part.wcoreNums.all s.usableW then (2, s1)
    else (0, s1.loadSlot x.saved)

/-! ## Attestation (R341) -/

/-- Bytes of a bit vector, little-endian (R4, R340). -/
def vecBytes {w : Nat} (v : BitVec w) : List Byte := natLe (w / 8) v.toNat

/-- The ASCII bytes of the package code, zero-padded to 16. -/
def packageCode : List Byte := [0x41, 0x58, 0x39, 0x36, 0x30, 0x2D, 0x32, 0x4C, 0x34, 0x57, 0, 0, 0, 0, 0, 0]

/-- Bytes 0 to 255 of a report. -/
def State.reportBody (s : State) (nonce : List Byte) : List Byte :=
  natLe 4 1 ++ natLe 4 0 ++ packageCode ++ vecBytes Config.serial ++ natLe 2 s.pkg.pkgId ++ natLe 1 s.part.pid ++ natLe 1 0 ++
  natLe 2 s.part.lcores.length ++ natLe 2 s.part.wcoreNums.length ++ vecBytes zfeat ++
  vecBytes (sha384 (Config.firmwareImage (s.pkg.firmware.map Stage.image))) ++ vecBytes s.part.bootHash ++
    vecBytes (sha384 (Config.rangesImage s.part.ranges)) ++ nonce ++ vecBytes s.pkg.zaclk ++ natLe 24 0

/-- The report of 352 bytes, signed with the identity key; the nonce of the signature is free. [DESIGN CHOICE, log 81: safe] -/
def State.report (s : State) (nonce : List Byte) : List Byte :=
  let b := s.reportBody nonce
  b ++ vecBytes (ecdsaSign (1 + Config.identityKey % (curveN - 1)) b 8 (1 + Config.freeNat s.freeCount % (curveN - 1)))

/-! ## Host commands and requests (R322, R323) -/

/-- The command that is being performed taken a step on: its status when it has ended. -/
def State.performCmd (s : State) : HostCmd → Option Nat × State
  | .preempt =>
    if s.part.status = .stopped then (some 0, s)
    else
      let s1 := s.beginPreempt
      if s1.preemptReady then (some 0, s1.finishPreempt) else (none, s1)
  | .resume => (some 0, if s.part.status = .stopped then s.resumePart else s)
  | .checkpoint n stay whole =>
    if 256 ≤ n then (some 2, s)
    else if s.part.status = .stopped then let r := s.writeSlot n whole; (some r.1, r.2)
    else
      let s1 := s.beginPreempt
      if s1.preemptReady then
        let r := s1.finishPreempt.writeSlot n whole
        (some r.1, if stay then r.2 else r.2.resumePart)
      else (none, s1)
  | .restore n =>
    if s.part.status = .running then (some 1, s)
    else if 256 ≤ n then (some 2, s)
    else let r := s.restoreSlot n; (some r.1, r.2)
  | .attest nonce =>
    if nonce.length = 32 then (some 0, { s with freeCount := s.freeCount + 1 }.send (.report (s.report nonce))) else (some 2, s)

/-- The place of the park area. -/
def Part.parkArea (p : Part) : List (Nat × Nat) := if p.parkPlaced then [(p.parkBase, 2 ^ (20 + p.parkSize))] else []

/-- A host request names bytes that it may reach: in the partition's ranges and outside the park area (R323). -/
def State.hostOk (s : State) (addr n : Nat) : Bool :=
  let pa := s.pkg.pkgId * 2 ^ 47 + addr
  addr < 2 ^ 47 && areaIn s.part.ranges pa n && s.part.parkArea.all fun r => !overlap r.1 r.2 pa n

/-- A host request performed whole, however long it is, with no other agent's access between its pieces (R323). A read of a poisoned word ends
with an error. [DEDUCED, log 82: unsafe; DESIGN CHOICE, log 115: unsafe] -/
def State.hostAccess (s : State) : HostMem → State
  | .read addr n =>
    let pa := s.pkg.pkgId * 2 ^ 47 + addr
    if s.hostOk addr n && !s.poisoned pa n then (s.sampleSpan pa n).send (.data (s.bytes pa n)) else s.send .error
  | .write addr bs =>
    let pa := s.pkg.pkgId * 2 ^ 47 + addr
    if s.hostOk addr bs.length then s.engineWrite pa bs else s.send .error

/-- The commands performed in their order of arrival as far as they go; fuel bounds their number. [DESIGN CHOICE, log 80: safe] -/
def State.pumpCmds (s : State) : Nat → State
  | 0 => s
  | n + 1 =>
    match s.part.cmds with
    | [] => s
    | c :: _ =>
      match s.performCmd c with
      | (none, t) => t
      | (some st, t) => ((t.send (.status st)).modPart fun p => { p with cmds := p.cmds.drop 1 }).pumpCmds n

/-- A checkpoint or restore is being performed. -/
def Part.netBusy (p : Part) : Bool := match p.cmds with | .checkpoint .. :: _ | .restore _ :: _ => true | _ => false

/-! ## Requests of other packages (R328, R329) -/

/-- A request is under this partition's own pair. -/
def State.ownPair (s : State) (pkg pid : Nat) : Bool := s.part.formed && pkg == s.pkg.pkgId && pid == s.part.pid

/-- A request under a pair may reach bytes homed here: the partition's own ranges under its own pair, else the ranges granted to the pair
(R81, R328, R335). -/
def State.trapezeOk (s : State) (pkg pid addr n : Nat) : Bool :=
  s.onPackage addr && inTier addr && inTier (addr + n - 1) &&
  (if s.ownPair pkg pid then areaIn s.part.ranges addr n
   else areaIn ((s.pkg.grants.filter fun g => g.pkg == pkg && g.pid == pid).map fun g => (g.base, g.len)) addr n)

/-- The lines of n bytes. -/
def linesOf (addr n : Nat) : List Nat := (List.range ((addr + n - 1) / 128 + 1 - addr / 128)).map (· + addr / 128)

/-- The remote vectors of the lines of n bytes with a package's group (R79).
[DESIGN CHOICE, log 99: unsafe; DESIGN CHOICE, log 100: safe] -/
def State.noteRemote (s : State) (addr n pkg : Nat) : State :=
  s.modPkg fun k =>
    { k with remote := (linesOf addr n).foldl (fun l m => if l.contains (m, pkg / 8) then l else l ++ [(m, pkg / 8)]) k.remote }

/-- The reservation of another package's LR (R118, R329). [DESIGN CHOICE, log 99: unsafe] -/
def State.noteHeld (s : State) (addr pkg pid : Nat) : State :=
  s.modPkg fun k => { k with held := k.held.filter (· != (addr / 128, pkg, pid)) ++ [(addr / 128, pkg, pid)] }

/-- A copy of a line is held here for a pair: a watch or a reservation of a hart stands on it (R81). -/
def State.holdsLine (s : State) (pkg pid line : Nat) : Bool :=
  s.ownPair pkg pid && s.allHarts.any fun h => h.resv == some line || (match h.watch with | some w => w.line == line | none => false)

/-- A write performed here for a pair of another package: reservations, watches and copies in other packages end (R91, R118, R329). -/
def State.remoteWrite (s : State) (pkg pid pa : Nat) (bs : List Byte) : State :=
  let t := s.rawWrite pa bs
  { t with hart := touched pa bs.length s.hart, harts := s.harts.map (touched pa bs.length) }.probeFor pkg pid pa bs.length

/-- The words of a sync object after an update (R72). [DESIGN CHOICE, log 99: unsafe] -/
def syncWords (op : SyncOp) (w : Word × Word × Word × Word) : Word × Word × Word × Word :=
  match op with
  | .release => (w.1 + 1, w.2)
  | .init n => (w.1, 0, BitVec.ofNat 64 n, 0)
  | .arrive n => (w.1 + 1, arriveWith n w.2)
  | .publish fin => (w.1 + 1, published fin w.2.1, w.2.2)

/-- The pair, the address and the length of a request. -/
def trapezeSpan : TrapezeReq → Nat × Nat × Nat × Nat
  | .read pkg pid addr n | .lr pkg pid addr n => (pkg, pid, addr, n)
  | .write pkg pid addr bs | .sc pkg pid addr bs => (pkg, pid, addr, bs.length)
  | .amo pkg pid addr _ dbl _ => (pkg, pid, addr, if dbl then 8 else 4)
  | .bamo pkg pid addr _ esz _ => (pkg, pid, addr, 2 ^ esz.toNat)
  | .sync pkg pid addr _ => (pkg, pid, addr, 32)
  | .probe pkg pid addr => (pkg, pid, addr, 1)

/-- The reduction of a BAMO (R184). -/
def bamoKind : BamoOp → MendOp
  | .add => .bamoAdd
  | .min => .bamoMin
  | .max => .bamoMax
  | .addf => .bamoAddf

/-- An atomic update of n bytes for a pair of another package, answered with the bytes before it. -/
def State.remoteUpdate (s : State) (pkg pid addr n : Nat) (new : List Byte) : State :=
  (s.remoteWrite pkg pid addr new).send (.trapezeData (s.bytes addr n))

/-- A request of another package performed at the home here, or a probe of a line (R329). An SC stores while the reservation of its pair's LR
stands (R118). [DESIGN CHOICE, log 99: unsafe] -/
def State.trapezePerform (s : State) (r : TrapezeReq) : State :=
  let (pkg, pid, addr, n) := trapezeSpan r
  let ok := s.trapezeOk pkg pid addr n
  let reads := ok && !s.poisoned addr n
  let atomic := reads && addr % n == 0
  match r with
  | .read .. => if reads then (s.noteRemote addr n pkg).send (.trapezeData (s.bytes addr n)) else s.send .trapezeFault
  | .lr .. =>
    if reads then ((s.noteRemote addr n pkg).noteHeld addr pkg pid).send (.trapezeData (s.bytes addr n)) else s.send .trapezeFault
  | .write _ _ _ bs => if ok then ((s.remoteWrite pkg pid addr bs).noteRemote addr n pkg).send .trapezeDone else s.send .trapezeFault
  | .amo _ _ _ op _ v =>
    if atomic then s.remoteUpdate pkg pid addr n (natLe n (amoOf op n (leNat (s.bytes addr n)) (v.toNat % 2 ^ (8 * n))))
    else s.send .trapezeFault
  | .bamo _ _ _ op _ v =>
    if atomic && (op != .addf || 4 ≤ n) then
      s.remoteUpdate pkg pid addr n (natLe n (bamoOf (bamoKind op) n (leNat (s.bytes addr n)) (v.toNat % 2 ^ (8 * n))))
    else s.send .trapezeFault
  | .sc _ _ _ bs =>
    if !ok then s.send .trapezeFault
    else if s.pkg.held.contains (addr / 128, pkg, pid) then (s.remoteWrite pkg pid addr bs).send .trapezeDone
    else s.send .trapezeLost
  | .sync _ _ _ op =>
    if atomic then
      let w := syncWords op (s.objWord addr 0, s.objWord addr 1, s.objWord addr 2, s.objWord addr 3)
      let t := match op with | .init _ => { s.wakeEnded addr with hart := s.wakeOne addr s.hart } | _ => s
      t.remoteUpdate pkg pid addr n (natLe 8 w.1.toNat ++ natLe 8 w.2.1.toNat ++ natLe 8 w.2.2.1.toNat ++ natLe 8 w.2.2.2.toNat)
    else s.send .trapezeFault
  | .probe .. =>
    if s.holdsLine pkg pid (addr / 128) then
      ({ s with hart := touched addr 1 s.hart, harts := s.harts.map (touched addr 1) } : State).send .trapezeDone
    else s.send .trapezeNoCopy

/-- A request of another package served; an access under the partition's own pair counts for its pages (R92). -/
def State.trapezeServe (s : State) (r : TrapezeReq) : State :=
  let (pkg, pid, addr, n) := trapezeSpan r
  let t := s.trapezePerform r
  match r with
  | .probe .. => t
  | _ => if s.ownPair pkg pid && s.trapezeOk pkg pid addr n then t.sampleSpan addr n else t

/-! ## The virtual interface (R322, R323) -/

/-- Commands, then the requests of the host and of other packages that no CHECKPOINT or RESTORE holds up, in order of arrival (R322, R323,
R335). -/
def State.pump (s : State) : State :=
  let s1 := s.pumpCmds s.part.cmds.length
  if s1.part.netBusy then s1
  else
    s1.part.netReqs.foldl State.trapezeServe
      (s1.part.hostReqs.foldl State.hostAccess (s1.modPart fun p => { p with hostReqs := [], netReqs := [] }))

/-- The arrival of a command at the partition's virtual interface, which a partition that is not formed does not accept. -/
def State.arriveCmd (s : State) (c : HostCmd) : State :=
  if s.part.formed then (s.modPart fun p => { p with cmds := p.cmds ++ [c] }).pump else s

/-- PREEMPT (R319, R322). -/
def execPreempt (s : State) : Outcome State Fault Refusal := .next (s.arriveCmd .preempt)
/-- RESUME (R322). -/
def execResume (s : State) : Outcome State Fault Refusal := .next (s.arriveCmd .resume)
/-- CHECKPOINT (R334). -/
def execCheckpoint (slot : Nat) (stay : Bool) (s : State) : Outcome State Fault Refusal := .next (s.arriveCmd (.checkpoint slot stay false))
/-- RESTORE (R337). -/
def execRestore (slot : Nat) (s : State) : Outcome State Fault Refusal := .next (s.arriveCmd (.restore slot))
/-- ATTEST (R341). -/
def execAttest (nonce : List Byte) (s : State) : Outcome State Fault Refusal := .next (s.arriveCmd (.attest nonce))

/-- HOST_MEMORY_REQUEST (R323). -/
def execHostMemoryRequest (r : HostMem) (s : State) : Outcome State Fault Refusal :=
  .next (if s.part.formed then (s.modPart fun p => { p with hostReqs := p.hostReqs ++ [r] }).pump else s)

/-- The slots of the inactive resident threads whose user state has changed since the state old written anew (R53). -/
def State.restowChanged (old s : State) : State :=
  ((s.allHarts.filter fun h =>
      h.car.isSome && ((old.hart? h.id).map Hart.u != some h.u || old.memberOf h.id != s.memberOf h.id)).map Hart.ctx).foldl State.restow s

/-- RINGMASTER_CLOCK: an A-clock: the issue slots, the steps of Ringmaster (R288), budgets and waits while the partition runs; the arrivals on
team barriers (R157); then the clock and the commands that wait for the partition. -/
def execRingmasterClock (s : State) : Outcome State Fault Refusal :=
  let t := if s.active then let c := s.drawClock; c.restowChanged c.rmClock.tick else s
  .next ({ t.restowChanged t.barClock with ran := [] }.zaclkNext.pump)

/-! ## Partitions and their cores (R15 to R17, R322) -/

/-- A range begins and ends on a 4 KiB boundary within one tier of one package (R15, R326). [DESIGN CHOICE, log 97: safe] -/
def rangeOk (r : Nat × Nat) : Bool :=
  let e := r.1 + r.2 - 1
  r.1 % 4096 = 0 && r.2 % 4096 = 0 && 0 < r.2 && inTier r.1 && inTier e && r.1 / 2 ^ 47 == e / 2 ^ 47 &&
  (r.1 % 2 ^ 47 < 0x8000000000) == (e % 2 ^ 47 < 0x8000000000)

/-- No two ranges overlap. -/
def disjointRanges : List (Nat × Nat) → Bool
  | [] => true
  | r :: rest => rest.all (fun q => !overlap r.1 r.2 q.1 q.2) && disjointRanges rest

/-- A range overlaps none of some ranges. -/
def apart (rs : List (Nat × Nat)) (r : Nat × Nat) : Bool := rs.all fun q => !overlap r.1 r.2 q.1 q.2

/-- The memory of this package that belongs to others: to the firmware, and to partitions of other packages by grants (R326, R328).
[DESIGN CHOICE, log 10: safe] -/
def Pkg.foreign (k : Pkg) : List (Nat × Nat) := k.reserved ++ k.grants.map fun g => (g.base, g.len)

/-- A request to form keeps R15, R326 and R328. [DESIGN CHOICE, log 97: safe] -/
def State.formOk (s : State) (pid : Nat) (ls ws : List Nat) (rs : List (Nat × Nat)) (tasks : Nat) (notify : Option Nat) (bootAt : Nat)
    (boot : List Byte) : Bool :=
  s.pkg.bringUp == 7 && !s.part.formed && pid < 64 && 2 ≤ ls.length && ls.Nodup && ls.all (fun n => n < 128) && ws.Nodup &&
  ws.all s.usableW && !rs.isEmpty && rs.all rangeOk && disjointRanges rs && rs.all (apart s.pkg.foreign) &&
  (boot.isEmpty || areaIn rs bootAt boot.length) && 1 ≤ tasks && tasks ≤ 262144 &&
  (match notify with | some a => a % 128 = 0 && spanIn rs a 128 | none => true)

/-- The machine with a formed partition: its boot image loaded (R341), its L-cores in S-mode, its W-cores out of reset.
[DESIGN CHOICE, log 3: unsafe] -/
def State.formed (s : State) (pid : Nat) (ls ws : List Nat) (rs : List (Nat × Nat)) (tasks : Nat) (notify : Option Nat) (bootAt : Nat)
    (boot : List Byte) : State :=
  { s.rawWrite bootAt boot with
    hart := Hart.init (.lcore (ls.headD 0))
    harts := (ls.drop 1).map fun n => Hart.init (.lcore n)
    part :=
      { Part.init with
        formed := true, pid := pid, lcores := ls, wcoreNums := ws, ranges := rs, tasks := tasks, status := .running, notify := notify
        bootHash := sha384 boot
        wcores := ws.map WCore.init } }

/-- PARTITION_FORMATION: a partition formed, or the pre-empted one dissolved, with the answer (R16, R322). -/
def execPartitionFormation (r : FormationReq) (s : State) : Outcome State Fault Refusal :=
  match r with
  | .form pid ls ws rs tasks notify bootAt boot =>
    .next (if s.formOk pid ls ws rs tasks notify bootAt boot then (s.formed pid ls ws rs tasks notify bootAt boot).send (.mgmt true)
      else s.send (.mgmt false))
  | .dissolve =>
    .next
      (if s.part.formed && s.part.status == .stopped then
        { s with hart := Hart.init (.lcore 0), harts := [], part := Part.init }.send (.mgmt true)
       else s.send (.mgmt false))

/-- A W-core may be removed (R17). -/
def State.removableW (s : State) (w : Nat) : Bool :=
  match s.wcore? w with
  | some c =>
    s.allHarts.all (fun h => !h.residentOn w) && c.press.queue.isEmpty && c.chans.all (fun x => x.queue.isEmpty) && c.mend.isEmpty &&
    s.part.teams.all fun t => t.wcore != w || (s.teamMembers t.num).isEmpty
  | none => false

/-- An L-core may be removed (R17). -/
def State.removableL (s : State) (n : Nat) : Bool :=
  s.part.lcores.contains n && 3 ≤ s.part.lcores.length &&
  (match s.hart? (.lcore n) with | some h => h.installed.isNone | none => true)

/-- A hart taken out of the machine. -/
def State.removeHart (s : State) (h : HartId) : State :=
  if s.hart.id == h then s.dropCurrent else { s with harts := s.harts.filter fun x => x.id != h }

/-- The dirty bytes of the windows of the teams whose W-core is w written back: a team that goes with its W-core leaves them to memory, as one
that the kernel dissolves does. R17, R85 and R356 name no write-back there (R17, R85).
[DESIGN CHOICE, log 41: unsafe; DESIGN CHOICE, log 42: unsafe] -/
def State.flushCore (s : State) (w : Nat) : State :=
  (s.part.teams.filter fun t => t.wcore == w).foldl (fun u t => u.flushWindows t.num fun _ => true) s

/-- CORE_REMOVAL: refused unless the partition is pre-empted and R17 holds; a W-core's teams without members go with it, the dirty bytes of
their windows written back. [DESIGN CHOICE, log 42: unsafe] -/
def execCoreRemoval (c : CoreId) (s : State) : Outcome State Fault Refusal :=
  if !s.part.formed || s.part.status == .running then .next (s.send (.mgmt false))
  else
    match c with
    | .w w =>
      .next (if s.removableW w then
          ((s.flushCore w).modPart fun p =>
            { p with
              wcoreNums := p.wcoreNums.filter (· != w), wcores := p.wcores.filter fun x => x.num != w
              teams := p.teams.filter fun t => t.wcore != w }).send (.mgmt true)
        else s.send (.mgmt false))
    | .l n =>
      .next (if s.removableL n then
          ((s.removeHart (.lcore n)).modPart fun p => { p with lcores := p.lcores.filter (· != n) }).send (.mgmt true)
        else s.send (.mgmt false))

/-- CORE_ASSIGNMENT: to a pre-empted partition, of a core that it does not hold (R16). [DESIGN CHOICE, log 3: unsafe] -/
def execCoreAssignment (c : CoreId) (s : State) : Outcome State Fault Refusal :=
  if !s.part.formed || s.part.status == .running then .next (s.send (.mgmt false))
  else
    match c with
    | .w w =>
      .next (if s.usableW w && !s.part.wcoreNums.contains w then
          (s.modPart fun p => { p with wcoreNums := p.wcoreNums ++ [w], wcores := p.wcores ++ [WCore.init w] }).send (.mgmt true)
        else s.send (.mgmt false))
    | .l n =>
      .next (if n < 128 && !s.part.lcores.contains n then
          ({ s with harts := s.harts ++ [Hart.init (.lcore n)] }.modPart fun p => { p with lcores := p.lcores ++ [n] }).send (.mgmt true)
        else s.send (.mgmt false))

/-! ## Links, packages and errors (R325, R329, R330, R333, R353) -/

/-- A counter of the lifetime record raised: 64 bits, saturating (R353). -/
def satAdd (n k : Nat) : Nat := min (n + k) (2 ^ 64 - 1)

/-- The count of a place raised. -/
def addAt {α : Type} [DecidableEq α] (a : α) (k : Nat) (l : List (α × Nat)) : List (α × Nat) :=
  if l.any fun e => e.1 == a then adjust (fun e => e.1 == a) (fun e => (e.1, satAdd e.2 k)) l else l ++ [(a, satAdd 0 k)]

/-- The count of a place raised by one. -/
def countAt {α : Type} [DecidableEq α] (a : α) (l : List (α × Nat)) : List (α × Nat) := addAt a 1 l

/-- The lifetime record with f applied. -/
def State.modLife (s : State) (f : Lifetime → Lifetime) : State := s.modPkg fun k => { k with lifetime := f k.lifetime }

/-- LINK_RETRY: nothing is lost, and the record counts it (R325). -/
def execLinkRetry (l : LinkId) (s : State) : Outcome State Fault Refusal :=
  .next (s.modLife fun r => { r with retries := countAt l r.retries })

/-- A hart after the lines of a package have been invalidated. -/
def Hart.invalidated (pkg : Nat) (h : Hart) : Hart :=
  { h with
    watch := h.watch.map fun w => { w with hit := w.hit || w.line / 2 ^ 40 == pkg }
    resv := match h.resv with | some l => if l / 2 ^ 40 == pkg then none else some l | none => none }

/-- The filled granules of an unreachable package leave the stash windows: their bytes are gone, and a later touch fills anew, which faults
(R330). -/
def State.loseGranules (s : State) (pkg : Nat) : State :=
  let lost (g : Granule) : Bool := g.pa / 2 ^ 47 == pkg
  let s1 :=
    s.part.teams.foldl (fun (t : State) x => x.windows.foldl (fun t w => (w.granules.filter lost).foldl (fun t g =>
      { t.modW x.wcore fun c => c.undefine (w.off + 128 * g.idx) 128 t.freeCount with freeCount := t.freeCount + 1 }) t) t) s
  s1.part.teams.foldl (fun (t : State) x => t.modWindows x.num fun w => { w with granules := w.granules.filter fun g => !lost g }) s1

/-- The package whose memory a word of an image goes to. -/
def WordPlace.package : WordPlace → Option Nat
  | .home pa => some (pa / 2 ^ 47)
  | .stash _ _ _ off pa => some ((pa + off) / 2 ^ 47)
  | .window _ _ => none

/-- PACKAGE_UNREACHABLE: its lines are invalidated, and every access to it faults from now on (R330). -/
def execPackageUnreachable (pkg : Nat) (s : State) : Outcome State Fault Refusal :=
  if pkg = s.pkg.pkgId || s.pkg.unreachable.contains pkg then .next s
  else
    let s1 := s.loseGranules pkg
    .next (({ s1 with
        hart := s1.hart.invalidated pkg
        harts := s1.harts.map (Hart.invalidated pkg)
        tail := s1.tail.filter fun x => x.place.package != some pkg }.modPkg fun k => { k with unreachable := k.unreachable ++
          [pkg] }).modPart fun p =>
      { p with priv := p.priv.filter fun b => b.pa / 2 ^ 47 != pkg })

/-- The memory channel of an address, under the distribution that the reset has set and that is left open (R326).
[DESIGN CHOICE, log 83: unsafe] -/
def State.channelOf (s : State) (pa : Nat) : ErrorSite :=
  let c := Config.channel s.pkg.spread (pa / 128)
  if pa % 2 ^ 47 < 0x8000000000 then .hbm (c % 256) else .lpddr (c % 32)

/-- The home die of an address: W-dies 0 to 3, L-dies 4 and 5 (R7, R79). [DESIGN CHOICE, log 100: safe] -/
def State.homeDie (s : State) (pa : Nat) : Nat :=
  match s.channelOf pa with | .hbm c => c / 64 | .lpddr c => 4 + c / 16 | _ => 0

/-- The home directory slice within its die (R79). [DESIGN CHOICE, log 100: safe] -/
def State.homeSlice (s : State) (pa : Nat) : Nat := Config.slice s.pkg.spread (pa / 128) % 256

/-- UNCORRECTABLE_ERROR: the 8-byte word is poisoned, and where it lies in this package's memory its channel's count is raised; an error in
another package's memory counts in that package's record (R333, R353). -/
def execUncorrectableError (pa : Nat) (s : State) : Outcome State Fault Refusal :=
  if inTier pa then
    let t : State := { s with poison := if s.poison.contains (pa / 8) then s.poison else s.poison ++ [pa / 8] }
    .next (if s.onPackage pa then t.modLife fun r => { r with uncorrectable := countAt (s.channelOf pa) r.uncorrectable } else t)
  else .next s

/-- CORRECTABLE_ERROR: the record counts it (R353). -/
def execCorrectableError (e : ErrorSite) (s : State) : Outcome State Fault Refusal :=
  .next (s.modLife fun r => { r with correctable := countAt e r.correctable })

/-- TRAPEZE_REQUEST, once the Trapeze ports are up (R329, R351): one under the partition's own pair waits for a CHECKPOINT or RESTORE
(R335). -/
def execTrapezeRequest (r : TrapezeReq) (s : State) : Outcome State Fault Refusal :=
  if s.pkg.bringUp < 6 then .next s
  else if s.ownPair (trapezeSpan r).1 (trapezeSpan r).2.1 && s.part.netBusy then
    .next (s.modPart fun p => { p with netReqs := p.netReqs ++ [r] })
  else .next (s.trapezeServe r)

/-- L2_POWER_GATING: gating changes timing only (R82). -/
def execL2PowerGating (die : Nat) (slice : Nat) (gate : Bool) (s : State) : Outcome State Fault Refusal :=
  if 6 ≤ die || 256 ≤ slice then .next s
  else
    .next (s.modPkg fun k =>
      let rest := k.gated.filter fun g => g != (die, slice)
      { k with gated := if gate then rest ++ [(die, slice)] else rest })

/-! ## Bring-up, power and service (R351 to R355) -/

/-- The physical row at which row r of a Press stands when the spares serve the rows of the list m in order: rows 256 on are the spares
(R23, R355). -/
def physRow (m : List Nat) (r : Nat) : Nat := (List.range m.length).foldl (fun p i => if m.getD i 256 = r then 256 + i else p) r

/-- The test patterns that the rule names, by the codes on the even and the odd K-rows (R355). [DESIGN CHOICE, log 83: unsafe] -/
def testPatterns : List (Nat × Nat) := [(15, 0), (15, 15)]

/-- The half steps that n pairs of an even and an odd K-row add to an INT32 element: their H4 codes times INT8 activations of 1 (R114, R355). -/
def testCount (c : Nat × Nat) (n : Nat) : Int :=
  (elemInt32 false 0 (List.replicate n [(elemInt 4 1, elemInt 7 c.1), (elemInt 4 1, elemInt 7 c.2)])).1

/-- A row of a Press array holds an even and an odd K-row of an H4 plane: what physical row p of W-core w adds to an element of column n; a
faulty row adds its error (R355). [DESIGN CHOICE, log 83: unsafe] -/
def rowCount (w : Nat) (faults : List Nat) (c : Nat × Nat) (n p : Nat) : Int :=
  testCount c 1 + if faults.contains p then Config.rowError w p n c.2 else 0

/-- The half steps of the tile elements of column n: the sum over the 256 rows of the array on the map m, and so over K_p = 512 (R355).
[DESIGN CHOICE, log 83: unsafe] -/
def elementCount (w : Nat) (faults m : List Nat) (c : Nat × Nat) (n : Nat) : Int :=
  (List.range 256).foldl (fun a r => a + rowCount w faults c n (physRow m r)) 0

/-- The test finds row r of the array on the map m faulty: a tile element of some pattern differs from its expected count, 0 or 7,680, and the
row's part of it is not what it should be. Errors that cancel in every element do not show (R355). [DESIGN CHOICE, log 83: unsafe] -/
def rowDiffers (w : Nat) (faults m : List Nat) (r : Nat) : Bool :=
  faults.contains (physRow m r) && testPatterns.any fun c => (List.range 256).any fun n =>
    elementCount w faults m c n != testCount c 256 && rowCount w faults c n (physRow m r) != testCount c 1

/-- The self-test of a Press with faulty physical rows: each row whose result differs, in ascending order, goes to the lowest spare that has not
been taken, a spare found faulty staying taken, and the test is repeated on the new map, until no row fails or more than 8 spares are needed;
fuel bounds the repetitions (R355). [DESIGN CHOICE, log 83: unsafe] -/
def selfTest (w : Nat) (faults : List Nat) : Nat → List Nat → List Nat
  | 0, m => m
  | n + 1, m =>
    if 8 < m.length then m
    else
      match (List.range 256).filter fun r => rowDiffers w faults m r with
      | [] => m
      | rs => selfTest w faults n (m ++ rs)

/-- The physical rows of a W-core that are faulty once some more are: a fault stays. -/
def State.faultsOf (s : State) (w : Nat) (bad : List Nat) : List Nat := bad.foldl (fun l p => insertNew p l) (sparseGet [] s.pkg.faults w)

/-- The self-test run on a W-core some of whose rows have become faulty; its remaps enter the record with the clock and the power-on hour, and a
W-core that needs more than its 8 spares is left out (R353, R355). [DESIGN CHOICE, log 83: unsafe] -/
def State.testPress (s : State) (w : Nat) (bad : List Nat) : State :=
  let faults := s.faultsOf w bad
  let old := sparseGet [] s.pkg.lifetime.rowMap w
  let new := selfTest w faults 9 old
  s.modPkg fun k =>
    { k with
      faults := sparseSet [] k.faults w faults
      leftOut := if 8 < new.length then insertNew w k.leftOut else k.leftOut
      lifetime :=
        { k.lifetime with
          rowMap := sparseSet [] k.lifetime.rowMap w (new.take 8)
          remaps := k.lifetime.remaps ++ ((new.take 8).drop old.length).map fun row => (w, row, k.zaclk.toNat, k.lifetime.hours) } }

/-- Secure boot: every stage verifies and its version is not below the fused minimum; the first is checked against the fused key (R340).
[DESIGN CHOICE, log 101: unsafe] -/
def State.bootOk (s : State) : Bool :=
  (match s.pkg.stages with | [] => true | g :: _ => sha384 g.key == Config.fusedKeyHash) &&
  s.pkg.stages.all fun g => Config.minVersion ≤ g.version && ecdsaVerify g.key g.image g.sig

/-- What a step of bring-up does to the state that the model holds; step 0 is the release of the package reset, which sets the distribution
of addresses (R326, R351). [DESIGN CHOICE, log 83: unsafe] -/
def State.bringUpStep (s : State) : Nat → State
  | 0 => { s with freeCount := s.freeCount + 1 }.modPkg fun k => { k with zaclk := 0, spread := Config.freeNat s.freeCount }
  | 1 => s.modPkg fun k => { k with firmware := k.stages }
  | 3 => { s with mem := [], poison := [] }
  | 4 => (List.range 256).foldl (fun t w => t.testPress w (Config.badRows s.freeCount w)) { s with freeCount := s.freeCount + 1 }
  | 5 =>
    { s with hart := Hart.init (.lcore 0), harts := [], part := Part.init, tail := [] }.modPkg fun k => { k with remote := [], held := [], gated := [] }
  | 6 => { s with freeCount := s.freeCount + 1 }.modPkg fun k => { k with pkgId := Config.freeNat s.freeCount % 320 }
  | _ => s

/-- Bring-up up to a step. -/
def State.bringUpTo (s : State) (n : Nat) : State := (List.range (n + 1)).foldl State.bringUpStep s

/-- A bring-up that stops at a step reports it with its code, and the record counts it (R351, R353). -/
def State.bringUpStops (s : State) (f : BringUpFailure) : State :=
  (((s.bringUpTo (f.step - 1)).modPkg fun k => { k with bringUp := f.step - 1, bringUpFailed := true }).send
    (.bringUpFailure f.step f.code)).modLife fun r => { r with bringUpFailures := r.bringUpFailures ++ [(f.step, f.code)] }

/-- BRING_UP: the steps in order, or up to the one that fails; a failed check of secure boot fails step 1 (R340, R351).
[DESIGN CHOICE, log 101: unsafe] -/
def execBringUp (fail : Option BringUpFailure) (s : State) : Outcome State Fault Refusal :=
  if s.pkg.bringUp = 7 || s.pkg.bringUpFailed then .next s
  else if !s.bootOk then .next ({ s with freeCount := s.freeCount + 1 }.bringUpStops ⟨1, Config.freeNat s.freeCount⟩)
  else
    match fail with
    | some f => .next (if 1 ≤ f.step ∧ f.step ≤ 7 then s.bringUpStops f else s)
    | none => .next ((s.bringUpTo 7).modPkg fun k => { k with bringUp := 7 })

/-- RECOVERY_SCRUB: the self-test on a W-core outside the partition whose A-clocks run (R352, R355). -/
def execRecoveryScrub (w : Nat) (bad : List Nat) (s : State) : Outcome State Fault Refusal :=
  if s.pkg.bringUp ≠ 7 || 256 ≤ w || s.part.wcoreNums.contains w || s.clockStopped w then .next s else .next (s.testPress w bad)

/-- How active the Press of a W-core is (R352). [DEDUCED, log 84: unsafe] -/
def State.pressActivity (s : State) (w : Nat) : Nat := match s.wcore? w with | some c => min c.press.queue.length 1 | none => 0

/-- The W-cores ws may be stopped before the others: none that goes on has a more active Press (R352). [DEDUCED, log 84: unsafe] -/
def State.mostActive (s : State) (ws : List Nat) : Bool :=
  s.part.wcoreNums.all fun v => ws.contains v || s.clockStopped v || ws.all fun w => s.pressActivity v ≤ s.pressActivity w

/-- POWER_THROTTLE: the A-clocks of the most Press-active W-cores stop (R352). [DEDUCED, log 84: unsafe] -/
def execPowerThrottle (ws : List Nat) (s : State) : Outcome State Fault Refusal :=
  .next (if s.mostActive ws then s.modPkg fun k => { k with powerStops := ws.foldl (fun l w => insertNew w l) k.powerStops } else s)

/-- THERMAL_THROTTLE: the A-clocks of a W-die's W-cores, or of one W-core, stop; dies 4 and 5 are the L-dies, whose L-clocks are lowered
(R352). [DEDUCED, log 84: unsafe] -/
def execThermalThrottle (h : HeatSite) (s : State) : Outcome State Fault Refusal :=
  match h with
  | .die d => .next (if d < 6 then s.modPkg fun k => { k with hotDies := insertNew d k.hotDies } else s)
  | .wcore w => .next (if w < 256 then s.modPkg fun k => { k with hotCores := insertNew w k.hotCores } else s)

/-- THROTTLING_END (R352). [DEDUCED, log 84: unsafe] -/
def execThrottlingEnd (c : ThrottleCause) (s : State) : Outcome State Fault Refusal :=
  match c with
  | .heat (.die d) => .next (s.modPkg fun k => { k with hotDies := k.hotDies.filter (· != d) })
  | .heat (.wcore w) => .next (s.modPkg fun k => { k with hotCores := k.hotCores.filter (· != w) })
  | .power => .next (s.modPkg fun k => { k with powerStops := [] })

/-- The package in reset: of what stands on it only the lifetime record and the firmware in its store survive, and its faults; what the safe tier
and the outside hold stays (R340, R352, R353, R355). -/
def State.inReset (s : State) (life : Lifetime) : State :=
  { State.reset with
    agenda := s.agenda
    freeCount := s.freeCount
    pkg :=
      { Pkg.init with
        slots := s.pkg.slots, hostOut := s.pkg.hostOut, stages := s.pkg.stages, faults := s.pkg.faults
        lifetime := life, committed := life } }

/-- EMERGENCY_SHUTDOWN: the package is in reset, and the record, as it was committed last, counts the shutdown (R352, R353).
[DEDUCED, log 84: unsafe] -/
def execEmergencyShutdown (die : Nat) (s : State) : Outcome State Fault Refusal :=
  .next (if 6 ≤ die then s else s.inReset { s.pkg.committed with shutdowns := satAdd s.pkg.committed.shutdowns 1 })

/-- LIFETIME_COMMIT (R353). -/
def execLifetimeCommit (s : State) : Outcome State Fault Refusal := .next (s.modPkg fun k => { k with committed := k.lifetime })

/-! ## What has no row of the opcode table (R326, R328, R336, R340, R353, R354) -/

/-- The 5 °C bin of a temperature: below 0 °C, 25 bins, 125 °C and above (R353). -/
def tempBin (c : Int) : Nat := if c < 0 then 0 else min (c.toNat / 5 + 1) 26

/-- Memory ranges of this package that nobody holds. -/
def State.unused (s : State) (rs : List (Nat × Nat)) : Bool :=
  rs.all fun r => rangeOk r && s.onPackage r.1 && apart s.part.ranges r

/-- The package's firmware runs: bring-up has begun since the reset. -/
def Pkg.firmwareRuns (k : Pkg) : Bool := k.bringUp != 0 || k.bringUpFailed

/-- The firmware that a service needs runs: grants and reservations wait for the end of bring-up (R351, R352). -/
def State.serviceRuns (s : State) : Service → Bool
  | .reserve _ | .grant _ => s.pkg.bringUp == 7
  | _ => s.pkg.firmwareRuns

/-- The trace ring lies within the firmware-reserved memory (R326, R354). [DESIGN CHOICE, log 85: safe] -/
def ringIn (rs : List (Nat × Nat)) (base cap : Nat) : Bool := areaIn rs base (32 * cap)

/-- The oldest events of the trace ring as they stand in memory. -/
def State.ringEvents (s : State) (n : Nat) : List (List Byte) :=
  match s.pkg.trace.place with
  | some (base, cap) => (List.range (min n s.pkg.trace.count)).map fun i => s.bytes (base + 32 * ((s.pkg.trace.oldest + i) % cap)) 32
  | none => []

/-- What the firmware and the management function do. -/
def State.serve (s : State) : Service → State
  | .placeTrace base cap =>
    let ok := ringIn s.pkg.reserved base cap
    (if ok then s.modPkg fun k => { k with trace := { k.trace with place := some (base, cap), oldest := 0, count := 0 } } else s).send (.mgmt ok)
  | .readTrace n =>
    (s.send (.trace (s.ringEvents n))).modPkg fun k =>
      { k with
        trace :=
          { k.trace with
            oldest := (k.trace.oldest + min n k.trace.count) % (match k.trace.place with | some (_, cap) => cap | none => 1)
            count := k.trace.count - n } }
  | .readRecord => s.send (.record s.pkg.lifetime)
  | .storeFirmware l => s.modPkg fun k => { k with stages := l }
  | .reserve rs =>
    let ok := s.unused rs && disjointRanges rs && rs.all (apart (s.pkg.grants.map fun g => (g.base, g.len))) &&
      (match s.pkg.trace.place with | some (base, cap) => ringIn rs base cap | none => true)
    (if ok then s.modPkg fun k => { k with reserved := rs } else s).send (.mgmt ok)
  | .grant g =>
    let ok := s.unused [(g.base, g.len)] && apart s.pkg.foreign (g.base, g.len) && g.pkg != s.pkg.pkgId && g.pkg < 320 && g.pid < 64
    (if ok then s.modPkg fun k => { k with grants := k.grants ++ [g] } else s).send (.mgmt ok)
  | .orderlyShutdown => s.inReset s.pkg.lifetime
  | .temperature die c n => s.modLife fun r => { r with temps := addAt (die, tempBin c) n r.temps }
  | .voltage die rail mv n => s.modLife fun r => { r with volts := addAt (die, rail, mv / 10) n r.volts }
  | .powerOnHour => s.modLife fun r => { r with hours := satAdd r.hours 1 }

/-- A whole-device checkpoint: a CHECKPOINT of the partition with all of the package's memory, or that memory alone where no partition is
formed (R22, R336). -/
def State.wholeCheckpoint (s : State) (n : Nat) (stay : Bool) : State :=
  if s.part.formed then s.arriveCmd (.checkpoint n stay true)
  else if 256 ≤ n then s.send (.status 2)
  else let r := s.writeSlot n true; r.2.send (.status r.1)

end Sys2Proof.Machine
end

