-- ==== Sys2Proof/Machine/Prefix.lean ====
section
/-! DEFINITION. Sys2Proof/Machine/Prefix.lean: a pair of PFX and its subject (R35, R123 to R126).

The prefix stands in State.pfx while its subject executes: the subject's meaning reads its rounding mode, its fourth operand and the
length of the pair there. -/
namespace Sys2Proof.Machine

open Host (Outcome)

/-- The W-only instructions (R35). -/
def wOnly (i : Instr) : Bool :=
  match i with
  | .tbarArr .. | .tbarWait .. | .tbarSync .. | .smap .. | .sunmap .. | .sflush .. | .obres .. | .obrel .. | .mxfence | .mxldw .. | .mxswap
  | .mxstrm .. | .mxsqd .. | .mxtopk .. | .mxwait .. | .acrd .. | .acrdf .. | .aczero .. | .acwm .. | .mxstat .. => true
  | _ => isCross i

/-- The privilege that an instruction needs; its breach is cause 2 whatever the guard holds (R126 step 2).
[DEDUCED, log 19: unsafe; DEDUCED, log 69: unsafe] -/
def privOk (i : Instr) (s : State) : Bool :=
  match i with
  | .base _ .sret => sretOk s
  | .base _ .mret => s.hart.sup.mode == .m
  | .base _ .wfi => wfiOk s
  | .base _ (.sfenceVma _ _) => sfenceOk s
  | .base _ (.csr _ _ _ a) | .base _ (.csrImm _ _ _ a) =>
    decide (a.toNat / 256 % 4 ≤ s.hart.sup.mode.level) && counterOk s a.toNat && satpOk s a.toNat
  | .mxsave _ | .mxrest _ => supOk s
  | _ => true

/-! ## A false guard with MZ = 1 (R124) -/

/-- FP32 +0.0, NaN-boxed. -/
def boxedZero : Word := 0xFFFFFFFF00000000

/-- The zero of an f destination of a format. [DEDUCED, log 86: unsafe] -/
def zeroOf : Fmt → Word
  | .s => boxedZero | .d => 0

/-- The destination of a base instruction set to zero. [DEDUCED, log 86: unsafe] -/
def zeroBase (b : BaseInstr) (s : State) : State :=
  match b with
  | .lui rd _ | .auipc rd _ | .jal rd _ | .jalr rd _ _ | .load _ rd _ _ | .imm _ rd _ _ | .shift _ rd _ _ | .shiftW _ rd _ _ | .unary _ rd _
  | .alu _ rd _ _ | .csr _ rd _ _ | .csrImm _ rd _ _ | .lr _ _ _ rd _ | .sc _ _ _ rd _ _ | .amo _ _ _ _ rd _ _ | .fcmp _ _ rd _ _
  | .fclass _ rd _ | .fmvToX _ rd _ | .fcvtToInt _ _ rd _ _ => s.wx rd 0
  | .fload t rd _ _ | .fma _ t rd _ _ _ _ | .farith _ t rd _ _ _ | .fsqrt t rd _ _ | .fsgn _ t rd _ _ | .fminmax _ t rd _ _
  | .fmvFromX t rd _ | .fcvtFromInt _ t rd _ _ => s.wf rd (zeroOf t)
  | .fcvtSD rd _ _ => s.wf rd boxedZero
  | .fcvtDS rd _ _ => s.wf rd 0
  | .branch _ _ _ _ | .store _ _ _ _ | .fence _ _ | .fenceTso | .fenceI | .ecall | .ebreak | .sret | .mret | .wfi | .sfenceVma _ _
  | .fstore _ _ _ _ => s

/-- Every destination register of a subject set to zero. An index register's word that lies beyond its length is none.
[DEDUCED, log 86: unsafe] -/
def zeroDest (i : Instr) (s : State) : State :=
  match i with
  | .base _ b => zeroBase b s
  | .tjoin d _ | .tleave d | .pmvXp d | .pany d _ | .pall d _ | .jtab d _ _ | .bldB d _ _ | .bldH d _ _ | .bldW d _ _ | .bldD d _ _
  | .bldBu d _ _ | .bldHu d _ _ | .bldWu d _ _ | .wldDirect d _ | .wldIndexed d _ _ | .wmvw d _ | .sobind d _ _ | .sounbind d _ _
  | .acq d _ | .bararr d _ _ | .bartest d _ _ | .xcopy d _ | .xcwait d _ | .xcqry d _ | .smap d _ | .sunmap d _ | .obres d _ | .mxldw d _
  | .mxstrm d _ | .mxsqd d _ | .mxtopk d _ | .mxwait d _ | .acrd d _ _ | .acwm d _ | .mxstat d _ | .ncvtE4 d _ | .ncvtE5 d _ | .ncvtE5s d _
  | .ncvtBf d _ | .ncvtHf d _ | .ncvtI8 d _ | .ncvtN8 d _ | .dtag d _ | .tspawn d _ | .ttake d | .tbudg d _ | .tcancel d _ | .tstat d _
  | .vacq d _ | .vchk d _ | .vsub d _ | .vsettle d _ => s.wx d 0
  | .pcmpEq d _ _ | .pcmpNe d _ _ | .pcmpLt d _ _ | .pcmpGe d _ _ | .pcmpLtu d _ _ | .pcmpGeu d _ _ | .pfeqS d _ _ | .pfltS d _ _
  | .pfleS d _ _ | .pfunS d _ _ | .pfeqD d _ _ | .pfltD d _ _ | .pfleD d _ _ | .pfunD d _ _ | .pand d _ _ | .por d _ _ | .pxor d _ _
  | .pandn d _ _ | .pnot d _ => s.wp d false
  | .pmvPx _ => s.modU fun u => { u with p := 0 }
  | .bldFw d _ _ | .bldFh d _ _ | .wldfDirect d _ | .wldfIndexed d _ _ | .acrdf d _ _ | .fuseS d _ _ _ _ | .wcvtE4 d _ | .wcvtE5 d _
  | .wcvtBf d _ | .wcvtHf d _ | .wcvtI8 d _ | .wcvtN8 d _ | .fsclS d _ _ | .dmom d _ _ | .dqnt d _ _ | .dcdf d _ _ => s.wf d boxedZero
  | .bldFd d _ _ | .fuseD d _ _ _ _ => s.wf d 0
  | .wstDirect _ w | .wstfDirect _ w => s.ww w.toNat 0
  | .wstIndexed _ k a | .wstfIndexed _ k a =>
    if (s.rx a).toNat < (s.rk k).len.toNat then s.ww ((s.rk k).base.toNat + (s.rx a).toNat) 0 else s
  | .wmv w _ => s.ww w.toNat 0
  | .kset k _ _ => s.wk k ⟨0, 0⟩
  | .bset d _ => s.wb d 0
  | .dadd d _ _ | .dsub d _ _ | .dmul d _ _ | .ddiv d _ _ | .dmin d _ _ | .dmax d _ _ | .dmix d _ _ | .daff d _ _ | .dmap d _ _
  | .dform d _ _ | .dmv d _ | .dpt d _ | .duni d _ _ | .dsamp d _ | .dld d _ | .dtags d _ => s.wd d Dist.zero
  | _ => s

/-! ## The pair -/

/-- The subject of a pair executed: an instruction of 32 bits. -/
def execSubject (i : Instr) (s : State) : Outcome State Fault Refusal :=
  match i with
  | .base c i => execBase c i s
  | .migrW => execMigrW s
  | .migrL => execMigrL s
  | .reform => execReform s
  | .gleave => execGleave s
  | .gyield => execGyield s
  | .tjoin d a => execTjoin d a s
  | .tleave d => execTleave d s
  | .tbarArr n => execTbarArr n s
  | .tbarWait n => execTbarWait n s
  | .tbarSync n => execTbarSync n s
  | .shfl d a b => execShfl d a b s
  | .shflXor d a b => execShflXor d a b s
  | .shflUp d a b => execShflUp d a b s
  | .shflDn d a b => execShflDn d a b s
  | .gsumI d a => execGsumI d a s
  | .gminI d a => execGminI d a s
  | .gmaxI d a => execGmaxI d a s
  | .gminu d a => execGminu d a s
  | .gmaxu d a => execGmaxu d a s
  | .gand d a => execGand d a s
  | .gor d a => execGor d a s
  | .gxor d a => execGxor d a s
  | .gscanI d a => execGscanI d a s
  | .ballot d a => execBallot d a s
  | .gcount d a => execGcount d a s
  | .shflF d a b => execShflF d a b s
  | .gsumS d a => execGsumS d a s
  | .gsumD d a => execGsumD d a s
  | .gminS d a => execGminS d a s
  | .gmaxS d a => execGmaxS d a s
  | .gminD d a => execGminD d a s
  | .gmaxD d a => execGmaxD d a s
  | .gscanS d a => execGscanS d a s
  | .pcmpEq d a b => execPcmpEq d a b s
  | .pcmpNe d a b => execPcmpNe d a b s
  | .pcmpLt d a b => execPcmpLt d a b s
  | .pcmpGe d a b => execPcmpGe d a b s
  | .pcmpLtu d a b => execPcmpLtu d a b s
  | .pcmpGeu d a b => execPcmpGeu d a b s
  | .pfeqS d a b => execPfeqS d a b s
  | .pfltS d a b => execPfltS d a b s
  | .pfleS d a b => execPfleS d a b s
  | .pfunS d a b => execPfunS d a b s
  | .pfeqD d a b => execPfeqD d a b s
  | .pfltD d a b => execPfltD d a b s
  | .pfleD d a b => execPfleD d a b s
  | .pfunD d a b => execPfunD d a b s
  | .pand d a b => execPand d a b s
  | .por d a b => execPor d a b s
  | .pxor d a b => execPxor d a b s
  | .pandn d a b => execPandn d a b s
  | .pnot d a => execPnot d a s
  | .pmvXp d => execPmvXp d s
  | .pmvPx a => execPmvPx a s
  | .pany d a => execPany d a s
  | .pall d a => execPall d a s
  | .jtab d a b => execJtab d a b s
  | .bldB d a b => execBldB d a b s
  | .bldH d a b => execBldH d a b s
  | .bldW d a b => execBldW d a b s
  | .bldD d a b => execBldD d a b s
  | .bldBu d a b => execBldBu d a b s
  | .bldHu d a b => execBldHu d a b s
  | .bldWu d a b => execBldWu d a b s
  | .bldFw d a b => execBldFw d a b s
  | .bldFd d a b => execBldFd d a b s
  | .bldFh d a b => execBldFh d a b s
  | .bstB d a b => execBstB d a b s
  | .bstH d a b => execBstH d a b s
  | .bstW d a b => execBstW d a b s
  | .bstD d a b => execBstD d a b s
  | .bstFw d a b => execBstFw d a b s
  | .bstFd d a b => execBstFd d a b s
  | .bstFh d a b => execBstFh d a b s
  | .wldDirect d w => execWldDirect d w s
  | .wldIndexed d k a => execWldIndexed d k a s
  | .wstDirect d w => execWstDirect d w s
  | .wstIndexed d k a => execWstIndexed d k a s
  | .wldfDirect d w => execWldfDirect d w s
  | .wldfIndexed d k a => execWldfIndexed d k a s
  | .wstfDirect d w => execWstfDirect d w s
  | .wstfIndexed d k a => execWstfIndexed d k a s
  | .kset k a b => execKset k a b s
  | .wmv dst src => execWmv dst src s
  | .wmvw d w => execWmvw d w s
  | .sobind d a b => execSobind d a b s
  | .sounbind d a b => execSounbind d a b s
  | .acq d a => execAcq d a s
  | .rel a => execRel a s
  | .mwatch a => execMwatch a s
  | .mwait => execMwait s
  | .barinit a b => execBarinit a b s
  | .bararr d a b => execBararr d a b s
  | .barwait a b => execBarwait a b s
  | .bartest d a b => execBartest d a b s
  | .xcopy d a => execXcopy d a s
  | .xcfence => execXcfence s
  | .xcwait d a => execXcwait d a s
  | .xcqry d a => execXcqry d a s
  | .smap d a => execSmap d a s
  | .sunmap d a => execSunmap d a s
  | .sflush a => execSflush a s
  | .bset d a => execBset d a s
  | .bget d a => execBget d a s
  | .bamoAdd d a b => execBamoAdd d a b s
  | .bamoMin d a b => execBamoMin d a b s
  | .bamoMax d a b => execBamoMax d a b s
  | .bamoAddf d a b => execBamoAddf d a b s
  | .fuseS d a b c slot => execFuseS d a b c slot s
  | .fuseD d a b c slot => execFuseD d a b c slot s
  | .obres d a => execObres d a s
  | .obrel a => execObrel a s
  | .mxfence => execMxfence s
  | .mxldw d a => execMxldw d a s
  | .mxswap => execMxswap s
  | .mxstrm d a => execMxstrm d a s
  | .mxsqd d a => execMxsqd d a s
  | .mxtopk d a => execMxtopk d a s
  | .mxwait d a => execMxwait d a s
  | .acrd d a b => execAcrd d a b s
  | .acrdf d a b => execAcrdf d a b s
  | .aczero a => execAczero a s
  | .acwm d a => execAcwm d a s
  | .mxstat d a => execMxstat d a s
  | .mxsave a => execMxsave a s
  | .mxrest a => execMxrest a s
  | .ncvtE4 d a => execNcvtE4 d a s
  | .ncvtE5 d a => execNcvtE5 d a s
  | .ncvtE5s d a => execNcvtE5s d a s
  | .ncvtBf d a => execNcvtBf d a s
  | .ncvtHf d a => execNcvtHf d a s
  | .ncvtI8 d a => execNcvtI8 d a s
  | .ncvtN8 d a => execNcvtN8 d a s
  | .wcvtE4 d a => execWcvtE4 d a s
  | .wcvtE5 d a => execWcvtE5 d a s
  | .wcvtBf d a => execWcvtBf d a s
  | .wcvtHf d a => execWcvtHf d a s
  | .wcvtI8 d a => execWcvtI8 d a s
  | .wcvtN8 d a => execWcvtN8 d a s
  | .fsclS d a b => execFsclS d a b s
  | .dadd d a b => execDadd d a b s
  | .dsub d a b => execDsub d a b s
  | .dmul d a b => execDmul d a b s
  | .ddiv d a b => execDdiv d a b s
  | .dmin d a b => execDmin d a b s
  | .dmax d a b => execDmax d a b s
  | .dmix d a b => execDmix d a b s
  | .daff d a b => execDaff d a b s
  | .dmap d a n => execDmap d a n s
  | .dform d a t => execDform d a t s
  | .dmv d a => execDmv d a s
  | .dpt d a => execDpt d a s
  | .duni d a t => execDuni d a t s
  | .dsamp d a => execDsamp d a s
  | .dld d a => execDld d a s
  | .dst d a => execDst d a s
  | .dmom d a n => execDmom d a n s
  | .dqnt d a b => execDqnt d a b s
  | .dcdf d a b => execDcdf d a b s
  | .dtag d a => execDtag d a s
  | .dtags d a => execDtags d a s
  | .tspawn d a => execTspawn d a s
  | .ttake d => execTtake d s
  | .tend => execTend s
  | .tdec a => execTdec a s
  | .tyield => execTyield s
  | .tbudg d a => execTbudg d a s
  | .tcancel d a => execTcancel d a s
  | .tstat d a => execTstat d a s
  | .vpub a => execVpub a s
  | .vfin a => execVfin a s
  | .vacq d a => execVacq d a s
  | .vchk d a => execVchk d a s
  | .vsub d a => execVsub d a s
  | .vsettle d a => execVsettle d a s
  | .zresume a b => execZresume a b s
  | .zpark d a => execZpark d a s
  | .zsignal a b => execZsignal a b s
  | .zfqpop d a => execZfqpop d a s
  | _ => .next s

/-- The checks before the guard: the privilege, then the site (R126 steps 2 and 3). [DEDUCED, log 19: unsafe] -/
def subjectChecks (sub : Instr) : M Unit := do
  if !privOk sub (← get) then raiseIllegal (instrWord sub)
  if wOnly sub then needWSite

/-- The prefix taken off an outcome. -/
def unlatch : Outcome State Fault Refusal → Outcome State Fault Refusal
  | .next t => .next { t with pfx := none }
  | .fault f => .fault f
  | .refused r => .refused r

/-- A pair (R124, R126): the checks, the guard, then the subject, or the zeros of MZ. A cross-lane subject reads the guards of its whole
set (R44). [DEDUCED, log 19: unsafe] -/
def execPfx (p : Pfx) (sub : Instr) (s : State) : Outcome State Fault Refusal :=
  let s1 := { s with pfx := some p }
  match subjectChecks sub s1 with
  | .error _ _ => unlatch (finish (instrWord sub) (subjectChecks sub) s1)
  | .ok _ t =>
    if isCross sub || guardTrue (some p) t.hart.u then unlatch (execSubject sub t)
    else unlatch (.next (if p.mz then zeroDest sub t else t).retire)

end Sys2Proof.Machine
end

