-- ==== Sys2Proof/Machine/Dispatch.lean ====
section
/-! DEFINITION. Sys2Proof/Machine/Dispatch.lean: one arm for each constructor of Instr. -/
namespace Sys2Proof.Machine

open Host (Outcome)

/-- The execution of an instruction or event. -/
def exec (i : Instr) (s : State) : Host.Outcome State Fault Refusal :=
  match i with
  | .base c b => Sys2Proof.Machine.execBase c b s
  | .pfx p sub => Sys2Proof.Machine.execPfx p sub s
  | .migrW => Sys2Proof.Machine.execMigrW s
  | .migrL => Sys2Proof.Machine.execMigrL s
  | .reform => Sys2Proof.Machine.execReform s
  | .gleave => Sys2Proof.Machine.execGleave s
  | .gyield => Sys2Proof.Machine.execGyield s
  | .tjoin d a => Sys2Proof.Machine.execTjoin d a s
  | .tleave d => Sys2Proof.Machine.execTleave d s
  | .tbarArr n => Sys2Proof.Machine.execTbarArr n s
  | .tbarWait n => Sys2Proof.Machine.execTbarWait n s
  | .tbarSync n => Sys2Proof.Machine.execTbarSync n s
  | .tbarWake h => Sys2Proof.Machine.execTbarWake h s
  | .shfl d a b => Sys2Proof.Machine.execShfl d a b s
  | .shflXor d a b => Sys2Proof.Machine.execShflXor d a b s
  | .shflUp d a b => Sys2Proof.Machine.execShflUp d a b s
  | .shflDn d a b => Sys2Proof.Machine.execShflDn d a b s
  | .gsumI d a => Sys2Proof.Machine.execGsumI d a s
  | .gminI d a => Sys2Proof.Machine.execGminI d a s
  | .gmaxI d a => Sys2Proof.Machine.execGmaxI d a s
  | .gminu d a => Sys2Proof.Machine.execGminu d a s
  | .gmaxu d a => Sys2Proof.Machine.execGmaxu d a s
  | .gand d a => Sys2Proof.Machine.execGand d a s
  | .gor d a => Sys2Proof.Machine.execGor d a s
  | .gxor d a => Sys2Proof.Machine.execGxor d a s
  | .gscanI d a => Sys2Proof.Machine.execGscanI d a s
  | .ballot d a => Sys2Proof.Machine.execBallot d a s
  | .gcount d a => Sys2Proof.Machine.execGcount d a s
  | .shflF d a b => Sys2Proof.Machine.execShflF d a b s
  | .gsumS d a => Sys2Proof.Machine.execGsumS d a s
  | .gsumD d a => Sys2Proof.Machine.execGsumD d a s
  | .gminS d a => Sys2Proof.Machine.execGminS d a s
  | .gmaxS d a => Sys2Proof.Machine.execGmaxS d a s
  | .gminD d a => Sys2Proof.Machine.execGminD d a s
  | .gmaxD d a => Sys2Proof.Machine.execGmaxD d a s
  | .gscanS d a => Sys2Proof.Machine.execGscanS d a s
  | .pcmpEq d a b => Sys2Proof.Machine.execPcmpEq d a b s
  | .pcmpNe d a b => Sys2Proof.Machine.execPcmpNe d a b s
  | .pcmpLt d a b => Sys2Proof.Machine.execPcmpLt d a b s
  | .pcmpGe d a b => Sys2Proof.Machine.execPcmpGe d a b s
  | .pcmpLtu d a b => Sys2Proof.Machine.execPcmpLtu d a b s
  | .pcmpGeu d a b => Sys2Proof.Machine.execPcmpGeu d a b s
  | .pfeqS d a b => Sys2Proof.Machine.execPfeqS d a b s
  | .pfltS d a b => Sys2Proof.Machine.execPfltS d a b s
  | .pfleS d a b => Sys2Proof.Machine.execPfleS d a b s
  | .pfunS d a b => Sys2Proof.Machine.execPfunS d a b s
  | .pfeqD d a b => Sys2Proof.Machine.execPfeqD d a b s
  | .pfltD d a b => Sys2Proof.Machine.execPfltD d a b s
  | .pfleD d a b => Sys2Proof.Machine.execPfleD d a b s
  | .pfunD d a b => Sys2Proof.Machine.execPfunD d a b s
  | .pand d a b => Sys2Proof.Machine.execPand d a b s
  | .por d a b => Sys2Proof.Machine.execPor d a b s
  | .pxor d a b => Sys2Proof.Machine.execPxor d a b s
  | .pandn d a b => Sys2Proof.Machine.execPandn d a b s
  | .pnot d a => Sys2Proof.Machine.execPnot d a s
  | .pmvXp d => Sys2Proof.Machine.execPmvXp d s
  | .pmvPx a => Sys2Proof.Machine.execPmvPx a s
  | .pany d a => Sys2Proof.Machine.execPany d a s
  | .pall d a => Sys2Proof.Machine.execPall d a s
  | .jtab d a b => Sys2Proof.Machine.execJtab d a b s
  | .bldB d a b => Sys2Proof.Machine.execBldB d a b s
  | .bldH d a b => Sys2Proof.Machine.execBldH d a b s
  | .bldW d a b => Sys2Proof.Machine.execBldW d a b s
  | .bldD d a b => Sys2Proof.Machine.execBldD d a b s
  | .bldBu d a b => Sys2Proof.Machine.execBldBu d a b s
  | .bldHu d a b => Sys2Proof.Machine.execBldHu d a b s
  | .bldWu d a b => Sys2Proof.Machine.execBldWu d a b s
  | .bldFw d a b => Sys2Proof.Machine.execBldFw d a b s
  | .bldFd d a b => Sys2Proof.Machine.execBldFd d a b s
  | .bldFh d a b => Sys2Proof.Machine.execBldFh d a b s
  | .bstB d a b => Sys2Proof.Machine.execBstB d a b s
  | .bstH d a b => Sys2Proof.Machine.execBstH d a b s
  | .bstW d a b => Sys2Proof.Machine.execBstW d a b s
  | .bstD d a b => Sys2Proof.Machine.execBstD d a b s
  | .bstFw d a b => Sys2Proof.Machine.execBstFw d a b s
  | .bstFd d a b => Sys2Proof.Machine.execBstFd d a b s
  | .bstFh d a b => Sys2Proof.Machine.execBstFh d a b s
  | .wldDirect d w => Sys2Proof.Machine.execWldDirect d w s
  | .wldIndexed d k a => Sys2Proof.Machine.execWldIndexed d k a s
  | .wstDirect d w => Sys2Proof.Machine.execWstDirect d w s
  | .wstIndexed d k a => Sys2Proof.Machine.execWstIndexed d k a s
  | .wldfDirect d w => Sys2Proof.Machine.execWldfDirect d w s
  | .wldfIndexed d k a => Sys2Proof.Machine.execWldfIndexed d k a s
  | .wstfDirect d w => Sys2Proof.Machine.execWstfDirect d w s
  | .wstfIndexed d k a => Sys2Proof.Machine.execWstfIndexed d k a s
  | .kset k a b => Sys2Proof.Machine.execKset k a b s
  | .wmv dst src => Sys2Proof.Machine.execWmv dst src s
  | .wmvw d w => Sys2Proof.Machine.execWmvw d w s
  | .sobind d a b => Sys2Proof.Machine.execSobind d a b s
  | .sounbind d a b => Sys2Proof.Machine.execSounbind d a b s
  | .acq d a => Sys2Proof.Machine.execAcq d a s
  | .rel a => Sys2Proof.Machine.execRel a s
  | .mwatch a => Sys2Proof.Machine.execMwatch a s
  | .mwait => Sys2Proof.Machine.execMwait s
  | .mwaitWake h => Sys2Proof.Machine.execMwaitWake h s
  | .barinit a b => Sys2Proof.Machine.execBarinit a b s
  | .bararr d a b => Sys2Proof.Machine.execBararr d a b s
  | .barwait a b => Sys2Proof.Machine.execBarwait a b s
  | .barwaitWake h => Sys2Proof.Machine.execBarwaitWake h s
  | .bartest d a b => Sys2Proof.Machine.execBartest d a b s
  | .xcopy d a => Sys2Proof.Machine.execXcopy d a s
  | .xcfence => Sys2Proof.Machine.execXcfence s
  | .xcwait d a => Sys2Proof.Machine.execXcwait d a s
  | .xcqry d a => Sys2Proof.Machine.execXcqry d a s
  | .smap d a => Sys2Proof.Machine.execSmap d a s
  | .sunmap d a => Sys2Proof.Machine.execSunmap d a s
  | .sflush a => Sys2Proof.Machine.execSflush a s
  | .bset d a => Sys2Proof.Machine.execBset d a s
  | .bget d a => Sys2Proof.Machine.execBget d a s
  | .bamoAdd d a b => Sys2Proof.Machine.execBamoAdd d a b s
  | .bamoMin d a b => Sys2Proof.Machine.execBamoMin d a b s
  | .bamoMax d a b => Sys2Proof.Machine.execBamoMax d a b s
  | .bamoAddf d a b => Sys2Proof.Machine.execBamoAddf d a b s
  | .fuseS d a b c slot => Sys2Proof.Machine.execFuseS d a b c slot s
  | .fuseD d a b c slot => Sys2Proof.Machine.execFuseD d a b c slot s
  | .obres d a => Sys2Proof.Machine.execObres d a s
  | .obrel a => Sys2Proof.Machine.execObrel a s
  | .mxfence => Sys2Proof.Machine.execMxfence s
  | .mxldw d a => Sys2Proof.Machine.execMxldw d a s
  | .mxswap => Sys2Proof.Machine.execMxswap s
  | .mxstrm d a => Sys2Proof.Machine.execMxstrm d a s
  | .mxsqd d a => Sys2Proof.Machine.execMxsqd d a s
  | .mxtopk d a => Sys2Proof.Machine.execMxtopk d a s
  | .mxwait d a => Sys2Proof.Machine.execMxwait d a s
  | .acrd d a b => Sys2Proof.Machine.execAcrd d a b s
  | .acrdf d a b => Sys2Proof.Machine.execAcrdf d a b s
  | .aczero a => Sys2Proof.Machine.execAczero a s
  | .acwm d a => Sys2Proof.Machine.execAcwm d a s
  | .mxstat d a => Sys2Proof.Machine.execMxstat d a s
  | .mxsave a => Sys2Proof.Machine.execMxsave a s
  | .mxrest a => Sys2Proof.Machine.execMxrest a s
  | .ncvtE4 d a => Sys2Proof.Machine.execNcvtE4 d a s
  | .ncvtE5 d a => Sys2Proof.Machine.execNcvtE5 d a s
  | .ncvtE5s d a => Sys2Proof.Machine.execNcvtE5s d a s
  | .ncvtBf d a => Sys2Proof.Machine.execNcvtBf d a s
  | .ncvtHf d a => Sys2Proof.Machine.execNcvtHf d a s
  | .ncvtI8 d a => Sys2Proof.Machine.execNcvtI8 d a s
  | .ncvtN8 d a => Sys2Proof.Machine.execNcvtN8 d a s
  | .wcvtE4 d a => Sys2Proof.Machine.execWcvtE4 d a s
  | .wcvtE5 d a => Sys2Proof.Machine.execWcvtE5 d a s
  | .wcvtBf d a => Sys2Proof.Machine.execWcvtBf d a s
  | .wcvtHf d a => Sys2Proof.Machine.execWcvtHf d a s
  | .wcvtI8 d a => Sys2Proof.Machine.execWcvtI8 d a s
  | .wcvtN8 d a => Sys2Proof.Machine.execWcvtN8 d a s
  | .fsclS d a b => Sys2Proof.Machine.execFsclS d a b s
  | .dadd d a b => Sys2Proof.Machine.execDadd d a b s
  | .dsub d a b => Sys2Proof.Machine.execDsub d a b s
  | .dmul d a b => Sys2Proof.Machine.execDmul d a b s
  | .ddiv d a b => Sys2Proof.Machine.execDdiv d a b s
  | .dmin d a b => Sys2Proof.Machine.execDmin d a b s
  | .dmax d a b => Sys2Proof.Machine.execDmax d a b s
  | .dmix d a b => Sys2Proof.Machine.execDmix d a b s
  | .daff d a b => Sys2Proof.Machine.execDaff d a b s
  | .dmap d a n => Sys2Proof.Machine.execDmap d a n s
  | .dform d a t => Sys2Proof.Machine.execDform d a t s
  | .dmv d a => Sys2Proof.Machine.execDmv d a s
  | .dpt d a => Sys2Proof.Machine.execDpt d a s
  | .duni d a t => Sys2Proof.Machine.execDuni d a t s
  | .dsamp d a => Sys2Proof.Machine.execDsamp d a s
  | .dld d a => Sys2Proof.Machine.execDld d a s
  | .dst d a => Sys2Proof.Machine.execDst d a s
  | .dmom d a n => Sys2Proof.Machine.execDmom d a n s
  | .dqnt d a b => Sys2Proof.Machine.execDqnt d a b s
  | .dcdf d a b => Sys2Proof.Machine.execDcdf d a b s
  | .dtag d a => Sys2Proof.Machine.execDtag d a s
  | .dtags d a => Sys2Proof.Machine.execDtags d a s
  | .tspawn d a => Sys2Proof.Machine.execTspawn d a s
  | .ttake d => Sys2Proof.Machine.execTtake d s
  | .tend => Sys2Proof.Machine.execTend s
  | .tdec a => Sys2Proof.Machine.execTdec a s
  | .tyield => Sys2Proof.Machine.execTyield s
  | .tbudg d a => Sys2Proof.Machine.execTbudg d a s
  | .tcancel d a => Sys2Proof.Machine.execTcancel d a s
  | .tstat d a => Sys2Proof.Machine.execTstat d a s
  | .vpub a => Sys2Proof.Machine.execVpub a s
  | .vfin a => Sys2Proof.Machine.execVfin a s
  | .vacq d a => Sys2Proof.Machine.execVacq d a s
  | .vchk d a => Sys2Proof.Machine.execVchk d a s
  | .vsub d a => Sys2Proof.Machine.execVsub d a s
  | .vsettle d a => Sys2Proof.Machine.execVsettle d a s
  | .zresume a b => Sys2Proof.Machine.execZresume a b s
  | .zpark d a => Sys2Proof.Machine.execZpark d a s
  | .zsignal a b => Sys2Proof.Machine.execZsignal a b s
  | .zfqpop d a => Sys2Proof.Machine.execZfqpop d a s
  | .extraction h => Sys2Proof.Machine.execExtraction h s
  | .migrationDepart h => Sys2Proof.Machine.execMigrationDepart h s
  | .arrivalWSite ctx => Sys2Proof.Machine.execArrivalWSite ctx s
  | .arrivalLSite ctx => Sys2Proof.Machine.execArrivalLSite ctx s
  | .carouselDraw w slot => Sys2Proof.Machine.execCarouselDraw w slot s
  | .binAged w => Sys2Proof.Machine.execBinAged w s
  | .groupSlotLimit w slot => Sys2Proof.Machine.execGroupSlotLimit w slot s
  | .mendingEntryPerform w ctx => Sys2Proof.Machine.execMendingEntryPerform w ctx s
  | .drainComplete h => Sys2Proof.Machine.execDrainComplete h s
  | .mendingBufferRoom h => Sys2Proof.Machine.execMendingBufferRoom h s
  | .copyRequestPerform e ch => Sys2Proof.Machine.execCopyRequestPerform e ch s
  | .copyCompletion e ch => Sys2Proof.Machine.execCopyCompletion e ch s
  | .copyEngineRoom h => Sys2Proof.Machine.execCopyEngineRoom h s
  | .xcwaitWake h => Sys2Proof.Machine.execXcwaitWake h s
  | .pressCommandQueueRoom h => Sys2Proof.Machine.execPressCommandQueueRoom h s
  | .pressLoadWeights w => Sys2Proof.Machine.execPressLoadWeights w s
  | .pressSwapEffect w => Sys2Proof.Machine.execPressSwapEffect w s
  | .pressStream w => Sys2Proof.Machine.execPressStream w s
  | .pressTopk w => Sys2Proof.Machine.execPressTopk w s
  | .mxwaitWake h => Sys2Proof.Machine.execMxwaitWake h s
  | .acrdRowFinal h => Sys2Proof.Machine.execAcrdRowFinal h s
  | .aczeroUsersDone h => Sys2Proof.Machine.execAczeroUsersDone h s
  | .obresStallEnd h => Sys2Proof.Machine.execObresStallEnd h s
  | .mxsaveQueueEmpty h => Sys2Proof.Machine.execMxsaveQueueEmpty h s
  | .ringmasterClock => Sys2Proof.Machine.execRingmasterClock s
  | .taskAbandon h => Sys2Proof.Machine.execTaskAbandon h s
  | .budgetExhausted h => Sys2Proof.Machine.execBudgetExhausted h s
  | .emulationHandlerRun r => Sys2Proof.Machine.execEmulationHandlerRun r s
  | .handlerTimeLimit r => Sys2Proof.Machine.execHandlerTimeLimit r s
  | .hotPagePublish => Sys2Proof.Machine.execHotPagePublish s
  | .zpackWrite v => Sys2Proof.Machine.execZpackWrite v s
  | .zwidthWrite v => Sys2Proof.Machine.execZwidthWrite v s
  | .zparkWrite v => Sys2Proof.Machine.execZparkWrite v s
  | .zrbtWrite v => Sys2Proof.Machine.execZrbtWrite v s
  | .zbankroleWrite v => Sys2Proof.Machine.execZbankroleWrite v s
  | .zhotlWrite v => Sys2Proof.Machine.execZhotlWrite v s
  | .zseedWrite v => Sys2Proof.Machine.execZseedWrite v s
  | .zwfqWrite v => Sys2Proof.Machine.execZwfqWrite v s
  | .zemqWrite v => Sys2Proof.Machine.execZemqWrite v s
  | .csrWrite addr v => Sys2Proof.Machine.execCsrWrite addr v s
  | .preempt => Sys2Proof.Machine.execPreempt s
  | .resume => Sys2Proof.Machine.execResume s
  | .checkpoint slot stay => Sys2Proof.Machine.execCheckpoint slot stay s
  | .restore slot => Sys2Proof.Machine.execRestore slot s
  | .attest nonce => Sys2Proof.Machine.execAttest nonce s
  | .hostMemoryRequest r => Sys2Proof.Machine.execHostMemoryRequest r s
  | .partitionFormation r => Sys2Proof.Machine.execPartitionFormation r s
  | .coreRemoval c => Sys2Proof.Machine.execCoreRemoval c s
  | .coreAssignment c => Sys2Proof.Machine.execCoreAssignment c s
  | .linkRetry l => Sys2Proof.Machine.execLinkRetry l s
  | .packageUnreachable pkg => Sys2Proof.Machine.execPackageUnreachable pkg s
  | .uncorrectableError pa => Sys2Proof.Machine.execUncorrectableError pa s
  | .bringUp fail => Sys2Proof.Machine.execBringUp fail s
  | .recoveryScrub w badRows => Sys2Proof.Machine.execRecoveryScrub w badRows s
  | .powerThrottle ws => Sys2Proof.Machine.execPowerThrottle ws s
  | .thermalThrottle die => Sys2Proof.Machine.execThermalThrottle die s
  | .emergencyShutdown die => Sys2Proof.Machine.execEmergencyShutdown die s
  | .lifetimeCommit => Sys2Proof.Machine.execLifetimeCommit s
  | .trapezeRequest r => Sys2Proof.Machine.execTrapezeRequest r s
  | .interruptTaken n => Sys2Proof.Machine.execInterruptTaken n s
  | .mwaitSpuriousReturn h => Sys2Proof.Machine.execMwaitSpuriousReturn h s
  | .throttlingEnd c => Sys2Proof.Machine.execThrottlingEnd c s
  | .correctableError e => Sys2Proof.Machine.execCorrectableError e s
  | .l2PowerGating die slice gate => Sys2Proof.Machine.execL2PowerGating die slice gate s

end Sys2Proof.Machine
end

