-- ==== Sys2Proof/Machine/Schedule.lean ====
section
/-! DEFINITION. Sys2Proof/Machine/Schedule.lean: fetching an instruction, what each agent does next, and the order of the agents.

The manual leaves the order of the agents' steps open (R3, R9, R68). Where State.agenda names a next action, that action is taken; an
empty agenda takes the first event that is due, then an instruction of each hart that can execute, then an A-clock. -/
namespace Sys2Proof.Machine

open Host (Outcome)

/-- A trace source may emit an event under a partition id, written to the ring in memory; a full ring counts a drop (R354).
[DESIGN CHOICE, log 85: safe] -/
def State.trace (s : State) (source pid : Nat) : State :=
  match s.pkg.trace.place with
  | none => s
  | some (base, cap) =>
    if Config.freeBool s.freeCount then
      let t := s.pkg.trace
      let q := sparseGet 0 t.seqs source % (2 ^ 32 - 1) + 1
      let ev : TraceEvent := ⟨source, pid, Config.freeNat (s.freeCount + 1) % 256, q, s.pkg.zaclk, Config.freeNat (s.freeCount + 2) % 2 ^ 128⟩
      let s1 : State := { s with freeCount := s.freeCount + 3 }
      if t.count < cap then
        (s1.rawWrite (base + 32 * ((t.oldest + t.count) % cap)) ev.bytes).modPkg fun k =>
          { k with trace := { t with count := t.count + 1, seqs := sparseSet 0 t.seqs source q } }
      else
        s1.modPkg fun k =>
          { k with
            trace :=
              { t with
                seqs := sparseSet 0 t.seqs source q
                drops := sparseSet 0 t.drops source (sparseGet 0 t.drops source + 1) } }
    else { s with freeCount := s.freeCount + 1 }

/-- The trace source of a hart: an L-core, a W-core, a Roustabout core (R354); source ids are the model's own numbering.
[DESIGN CHOICE, log 85: safe] -/
def sourceOf (h : Hart) : Nat :=
  match h.id, h.car with
  | .lcore n, _ => n
  | .wthread _, some c => 256 + c.core
  | .wthread _, none => 256
  | .roust n, _ => 128 + n

/-- A step of the current hart has ended, and its source may emit a trace event (R354). -/
def State.traced (s : State) : Outcome State Fault Refusal → Outcome State Fault Refusal
  | .next t => .next (t.trace (sourceOf s.hart) s.part.pid)
  | r => r

/-- The current hart fetches and executes one instruction. A lane whose own code differs from its group's leaves the group and is drawn
anew. [DESIGN CHOICE, log 92: unsafe] -/
def State.runInstr (s : State) : Outcome State Fault Refusal :=
  if s.codeApart then .next s.regroup
  else
    s.traced
      (match s.fetch with
       | (.ok i, t) => exec i t
       | (.illegal e, t) => finish e.word (throw (.illegal e)) t
       | (.fault c va, t) => finish 0 (throw (.trap c va)) t)

/-! ## What a hart does next -/

/-- The event that ends a wait. -/
def Wait.wakeEvent (h : HartId) : Wait → Option Instr
  | .mwait => some (.mwaitWake h)
  | .barwait _ _ => some (.barwaitWake h)
  | .xcwait _ | .xcfence => some (.xcwaitWake h)
  | .mxwait _ => some (.mxwaitWake h)
  | .tbar _ => some (.tbarWake h)
  | .drain => some (.drainComplete h)
  | .mendRoom => some (.mendingBufferRoom h)
  | .copyRoom _ => some (.copyEngineRoom h)
  | .pressRoom => some (.pressCommandQueueRoom h)
  | .acrdRow .. => some (.acrdRowFinal h)
  | .aczero .. => some (.aczeroUsersDone h)
  | .obres _ => some (.obresStallEnd h)
  | .pressIdle _ _ => some (.mxsaveQueueEmpty h)
  | .migrate | .teamMove _ | .leave _ => some (.migrationDepart h)
  | .ttake | .vsettle _ | .rmRequest | .zpark _ => none

/-- An event ends the wait of a hart. -/
def endsWait (s : State) (h : Hart) (e : Instr) : Bool :=
  match exec e s with
  | .next t => (match t.hart? h.id with | some x => x.wait != h.wait | none => true)
  | _ => false

/-- The event that a hart takes before it executes another instruction: an abandonment, an extraction, cause 28, a migration, the end of
its handler's time, the end of its wait. -/
def hartEvent (s : State) (h : Hart) : Option Instr :=
  if abandonable s h then some (.taskAbandon h.id)
  else if extractable s h then some (.extraction h.id)
  else if budgetTrapDue s h then some (.budgetExhausted h.id)
  else if h.wait.isNone && (s.focus h.id).canDepart then some (.migrationDepart h.id)
  else if h.overtime s.pkg.zaclk.toNat then (match h.id with | .roust r => some (.handlerTimeLimit r) | _ => none)
  else
    match h.wait.bind (Wait.wakeEvent h.id) with
    | some e => if endsWait s h e then some e else none
    | none => none

/-- No wait keeps the current hart from executing: a kernel's ZPARK looks again once its thread can be parked. -/
def State.notWaiting (s : State) : Bool :=
  match s.hart.wait with
  | none => true
  | some (.zpark ctx) => !s.parkLater ctx
  | some _ => false

/-- A lane is one that its group's slot executes next, on a W-core that draws and runs (R10, R49). -/
def State.laneTurn (s : State) (ctx : Nat) (c : Car) : Bool :=
  c.free && !s.part.preempting &&
  (match s.wcore? c.core with
   | some w => !s.clockStopped c.core && w.slots.toList.any fun g => match g with | some g => g.todo.contains ctx | none => false
   | none => false)

/-- The current hart can execute its instruction. -/
def State.canRun (s : State) : Bool :=
  s.active && s.notWaiting &&
  (match s.hart.id, s.hart.car with
   | .wthread ctx, some c => (s.hart.extract.isNone || setTurn s s.hart) && s.laneTurn ctx c
   | .wthread _, none => false
   | .lcore _, _ => !s.hart.goesHome
   | .roust _, _ => s.hart.handler.isSome) &&
  !(s.hart.budgetDue && s.hart.u.ztask != 0 && s.hart.u.zbudget == 0 && s.hart.atBoundary)

/-- The turn of the current hart: an interrupt, an event of its own, or an instruction. [DESIGN CHOICE, log 1: unsafe] -/
def State.turn (s : State) : Outcome State Fault Refusal :=
  if !s.active then .next s
  else
    match s.dueIrq with
    | some n => exec (.interruptTaken n) s
    | none =>
      match hartEvent s s.hart with
      | some e => exec e s
      | none => if s.canRun then s.runInstr else .next s

/-! ## The events that are due -/

/-- The arrivals that can happen. -/
def State.arrivalEvents (s : State) : List Instr :=
  s.part.transit.filterMap fun t =>
    match t.dest with
    | some _ => some (.arrivalWSite t.ctx)
    | none => if s.wfqRoom then some (.arrivalLSite t.ctx) else none

/-- The entries of a mending buffer that can be tried or filed. -/
def State.mendEvents (s : State) (w : WCore) : List Instr :=
  ((w.mend.map Mend.ctx).dedup.filterMap fun ctx =>
    match s.headMend w.num ctx with
    | some m =>
      (match m.state with
       | .queued => some (.mendingEntryPerform w.num ctx)
       | .unfiled => if s.wfqFree && !s.part.backlog.isEmpty then some (.mendingEntryPerform w.num ctx) else none
       | .awaiting _ => none)
    | none => none)

/-- The Press commands that can act. -/
def State.pressEvents (s : State) (w : Nat) : List Instr :=
  (if (s.readyCmd w (· == .ldw)).isSome then [.pressLoadWeights w] else []) ++
  (if (s.readyCmd w (· == .swap)).isSome then [.pressSwapEffect w] else []) ++
  (if (s.readyCmd w fun k => k == .strm || k == .sqd).isSome then [.pressStream w] else []) ++
  (if (s.readyCmd w (· == .topk)).isSome then [.pressTopk w] else [])

/-- What the issue slots of a W-core can do. -/
def State.slotEvents (s : State) (w : WCore) : List Instr :=
  if s.part.preempting then []
  else
    (List.range 4).filterMap fun i =>
      match w.slots.toList.getD i none with
      | some g =>
        if 64 ≤ g.clocks then some (.groupSlotLimit w.num i)
        else if g.todo.isEmpty then some (.carouselDraw w.num i) else none
      | none => if (s.agedBins w).isEmpty && (s.fullBins w).isEmpty then none else some (.carouselDraw w.num i)

/-- What a W-core that runs can do. -/
def State.wcoreEvents (s : State) (w : WCore) : List Instr :=
  if s.clockStopped w.num then [] else s.mendEvents w ++ s.pressEvents w.num ++ s.slotEvents w

/-- What the copy channels can do. -/
def State.copyEvents (s : State) : List Instr :=
  s.chansAll.filterMap fun x =>
    match x.2.2.queue with
    | r :: _ =>
      if s.engineRuns x.1 then some (if r.row < r.rows then .copyRequestPerform x.1 x.2.1 else .copyCompletion x.1 x.2.1) else none
    | [] => none

/-- The Roustabout cores that can take a record. -/
def State.emulEvents (s : State) : List Instr :=
  if s.part.emq.serve && s.part.emq.waiting != 0 && !s.part.preempting then
    (List.range 8).filterMap fun r => if s.roustIdle r then some (.emulationHandlerRun r) else none
  else []

/-- The events of the partition that are due. [DESIGN CHOICE, log 1: unsafe] -/
def State.dueEvents (s : State) : List Instr :=
  if s.active then
    s.allHarts.filterMap (hartEvent s) ++ s.arrivalEvents ++ s.part.wcores.flatMap s.wcoreEvents ++ s.copyEvents ++ s.emulEvents ++
    (if s.hotDue then [.hotPagePublish] else [])
  else []

/-- The harts that have something to do and have not moved in this A-clock, the current one first. [DESIGN CHOICE, log 1: unsafe] -/
def State.movers (s : State) : List HartId :=
  (s.allHarts.filter fun h => !s.ran.contains h.id && ((s.focus h.id).dueIrq.isSome || (s.focus h.id).canRun)).map Hart.id

/-! ## Unperformed words of images (R263) -/

/-- A word of an image performed for its thread, at its place; a granule that is gone has left it for memory.
[DESIGN CHOICE, log 95: safe] -/
def State.performTail (s : State) (x : Tail) : State :=
  let home (pa : Nat) : State :=
    if (s.hart? x.who).isSome then s.withHart x.who fun t => t.store pa x.bytes else s.engineWrite pa x.bytes
  match x.place with
  | .home pa => home pa
  | .window core off => s.sramWrite core off x.bytes
  | .stash team num idx off pa =>
    match (s.team? team).bind fun t => (t.windows.find? fun w => w.num == num).bind fun w =>
        (w.granules.find? fun g => g.idx == idx && g.pa + off == pa).map fun g => (t, w, g) with
    | some (t, w, g) => s.withHart x.who fun u => u.stashWrite t w g off x.bytes
    | none => home pa

/-- The unperformed words that sel names performed, oldest first. [DESIGN CHOICE, log 95: safe] -/
def State.drainTails (s : State) (sel : Tail → Bool) : State :=
  (s.tail.filter sel).foldl State.performTail { s with tail := s.tail.filter fun x => !sel x }

/-! ## Trace events (R354) -/

/-- The trace source of a place of errors or of a link. [DESIGN CHOICE, log 85: safe] -/
def linkSource : LinkId → Nat
  | .ucie a b => 4096 + 8 * a + b
  | .trapeze p => 4160 + p
  | .tightrope => 4176

/-- The trace source of an event that is due and that no hart executes, and whether its activity is the partition's: copy engines, Presses,
memory controllers, links, Ringmaster. [DESIGN CHOICE, log 85: safe] -/
def State.sourceOfEvent (s : State) (i : Instr) : Option (Nat × Bool) :=
  match i with
  | .copyRequestPerform e _ | .copyCompletion e _ => if s.copyEvents.contains i then some (1024 + e, true) else none
  | .pressLoadWeights w | .pressSwapEffect w | .pressStream w | .pressTopk w =>
    if (s.wcore? w).isSome && !s.clockStopped w && (s.pressEvents w).contains i then some (2048 + w, true) else none
  | .uncorrectableError pa =>
    if inTier pa && s.onPackage pa then (match s.channelOf pa with | .hbm c => some (3072 + c, false) | .lpddr c => some (3328 + c, false) | _ => none) else none
  | .correctableError (.hbm c) => some (3072 + c, false)
  | .correctableError (.lpddr c) => some (3328 + c, false)
  | .linkRetry l => some (linkSource l, false)
  | .ringmasterClock => if s.active then some (512, true) else none
  | _ => none

/-- An event happens, and its source may emit a trace event. -/
def State.perform (s : State) (e : Instr) : Outcome State Fault Refusal :=
  match exec e s, s.sourceOfEvent e with
  | .next t, some (n, own) => .next (t.trace n (if own then s.part.pid else 0xFF))
  | r, _ => r

/-! ## Actions -/

/-- The events that reach the package from outside the partition's cores, and its clock. -/
def Instr.external : Instr → Bool
  | .preempt | .resume | .checkpoint .. | .restore .. | .attest .. | .hostMemoryRequest .. | .partitionFormation .. | .coreRemoval ..
  | .coreAssignment .. | .linkRetry .. | .packageUnreachable .. | .uncorrectableError .. | .correctableError .. | .recoveryScrub ..
  | .powerThrottle .. | .thermalThrottle .. | .throttlingEnd .. | .lifetimeCommit | .trapezeRequest .. | .l2PowerGating ..
  | .ringmasterClock => true
  | _ => false

/-- The writes of CSRs that are rows of the table: only a CSR instruction makes them. -/
def Instr.csrEffect : Instr → Bool
  | .zpackWrite .. | .zwidthWrite .. | .zparkWrite .. | .zrbtWrite .. | .zbankroleWrite .. | .zhotlWrite .. | .zseedWrite ..
  | .zwfqWrite .. | .zemqWrite .. | .csrWrite .. => true
  | _ => false

/-- An event of a running partition. -/
def Instr.internal : Instr → Bool
  | .bringUp .. | .emergencyShutdown .. | .pfx .. => false
  | i => !i.plain && !Instr.external i && !Instr.csrEffect i

/-- The kernel's team system call (R38, R155): a new team on a W-core of the partition, its barriers at phase 0.
[DESIGN CHOICE, log 42: unsafe] -/
def State.createTeam (s : State) (num wcore : Nat) : State :=
  if s.active && 1 ≤ num && num < 2 ^ 16 && (s.team? (BitVec.ofNat 16 num)).isNone && s.part.wcoreNums.contains wcore then
    s.modPart fun p => { p with teams := p.teams ++ [⟨BitVec.ofNat 16 num, wcore, Vector.replicate 16 ⟨0, 0, []⟩, []⟩] }
  else s

/-- The kernel's team system call dissolves a team (R356): the dirty bytes of its windows are written back, its members leave it, and their
park slots show it (R53). [DESIGN CHOICE, log 41: unsafe; DESIGN CHOICE, log 42: unsafe] -/
def State.dissolveTeam (s : State) (num : Nat) : State :=
  let n := BitVec.ofNat 16 num
  if s.active && num < 2 ^ 16 && (s.team? n).isSome then
    let s1 := s.flushWindows n fun _ => true
    let s2 := s1.modPart fun p => { p with teams := p.teams.filter fun t => t.num != n, members := p.members.filter fun m => m.team != n }
    (s.teamMembers n).foldl (fun (t : State) m => match m.who with | .wthread ctx => t.restow ctx | _ => t) s2
  else s

/-- The turn of the hart h, whose own unperformed words come first. -/
def State.turnOf (s : State) (h : HartId) : Outcome State Fault Refusal :=
  let t := (s.drainTails fun x => x.who == h).focus h
  { t with ran := insertNew h t.ran }.turn

/-- A lane of a group whose time in the slot is about to end, which has not moved in this A-clock: every drawn lane issues (R49, R52).
[DESIGN CHOICE, log 1: unsafe] -/
def State.overdueLane (s : State) : Option HartId :=
  s.movers.find? fun h =>
    match (s.hart? h).bind Hart.car with
    | some c =>
      (match s.wcore? c.core with
       | some w => w.slots.toList.any fun g => match g with | some g => 63 ≤ g.clocks && g.todo.any fun n => .wthread n == h | none => false
       | none => false)
    | none => false

/-- An A-clock ends; before it every lane about to lose its slot has its turn (R52). [DESIGN CHOICE, log 1: unsafe] -/
def State.clockTurn (s : State) : Outcome State Fault Refusal :=
  match s.overdueLane with
  | some h => s.turnOf h
  | none => (s.drainTails fun _ => true).perform .ringmasterClock

/-- An event of the agenda. Before bring-up has ended only bring-up, a shutdown, the clock, requests of other packages, and what enters the
lifetime record happen: retries, errors, its commitment (R351, R353). -/
def State.eventTurn (s : State) (i : Instr) : Outcome State Fault Refusal :=
  match i with
  | .bringUp _ | .emergencyShutdown _ | .trapezeRequest _ => s.perform i
  | .ringmasterClock => if s.pkg.firmwareRuns then s.clockTurn else .next s
  | .lifetimeCommit | .linkRetry _ | .correctableError _ | .uncorrectableError _ =>
    if s.pkg.firmwareRuns then (s.drainTails fun _ => true).perform i else .next s
  | i => if s.pkg.bringUp = 7 && (Instr.external i || (Instr.internal i && s.active)) then (s.drainTails fun _ => true).perform i else .next s

/-- An action of the agenda. [DESIGN CHOICE, log 1: unsafe] -/
def State.act (s : State) : Action → Outcome State Fault Refusal
  | .run h => s.turnOf h
  | .runSplit h mask =>
    (match { s with split := mask }.turnOf h with
     | .next t => .next { t with split := 0 }
     | r => r)
  | .performWord =>
    (match s.tail with
     | x :: rest => .next (State.performTail { s with tail := rest } x)
     | [] => .next s)
  | .focus h => .next (s.focus h)
  | .event i => s.eventTurn i
  | .collect => .next (s.modRm fun m => { m with hold := true })
  | .teamCreate num w => .next (s.createTeam num w)
  | .teamDissolve num => .next (s.dissolveTeam num)
  | .service e => .next (if s.serviceRuns e then (s.drainTails fun _ => true).serve e else s)
  | .wholeCheckpoint n stay => .next (if s.pkg.bringUp = 7 then (s.drainTails fun _ => true).wholeCheckpoint n stay else s)

/-- What happens when the agenda is empty. [DESIGN CHOICE, log 1: unsafe] -/
def State.idle (s : State) : Outcome State Fault Refusal :=
  if !s.tail.isEmpty then .next (s.drainTails fun _ => true)
  else if s.pkg.bringUp = 7 then
    match s.dueEvents with
    | e :: _ => s.perform e
    | [] =>
      match s.movers with
      | h :: _ => s.turnOf h
      | [] => s.perform .ringmasterClock
  else if s.pkg.bringUpFailed then s.perform .ringmasterClock
  else exec (.bringUp none) s

/-- One step of the machine. [DESIGN CHOICE, log 1: unsafe] -/
def State.advance (s : State) : Outcome State Fault Refusal :=
  match s.agenda with
  | a :: rest => { s with agenda := rest }.act a
  | [] => s.idle

/-! ## An instruction placed where it is fetched next -/

/-- The machine brought up, a partition of two L-cores and a W-core formed over the first 1 GiB, nothing running but L-core 0 in S-mode at
address 0. [DESIGN CHOICE, log 8: unsafe] -/
def State.readied (s : State) : State :=
  { { s with
      pfx := none
      agenda := []
      ran := []
      split := 0
      tail := []
      pkg := { s.pkg with bringUp := 7, bringUpFailed := false } } with
    hart := Hart.init (.lcore 0)
    harts := [Hart.init (.lcore 1)]
    part := { (s.formed s.part.pid [0, 1] [0] [(0, 2 ^ 30)] 1024 none 0 []).part with bootHash := 0 }
    poison := [] }

/-- The physical address at which the next step fetches, when it fetches at all. [DESIGN CHOICE, log 8: unsafe] -/
def State.fetchPlace (s : State) : Option Nat :=
  if s.pkg.bringUp = 7 && s.agenda.isEmpty && s.tail.isEmpty && s.dueEvents.isEmpty && !s.ran.contains s.hart.id && s.dueIrq.isNone &&
      s.canRun && (s.myGroup.map Group.code).getD [] == [] then
    match locate .fetch (xmodeOf s.hart .fetch) s.pc 8 s with
    | (.ok pa, _) => if (windowOff s.pc).isSome || s.pc.toNat % 4096 > 4088 || s.poisoned pa 8 then none else some pa
    | _ => none
  else none

/-- The state with eight bytes at the place where its next step fetches: where it would fetch, or at the start of a partition formed for
the purpose. [DESIGN CHOICE, log 8: unsafe] -/
def State.placed (s : State) (nbits w : Nat) : State :=
  let bs := bytesOfNat 8 (w % 2 ^ nbits)
  match s.fetchPlace with
  | some pa => { s with mem := sparseSets 0#8 s.mem pa bs }
  | none => { s.readied with mem := sparseSets 0#8 s.mem 0 bs }

end Sys2Proof.Machine
end

