-- ==== Sys2Proof/Machine/Step.lean ====
section
/-! DEFINITION. Sys2Proof/Machine/Step.lean: one step of the machine, and an instruction placed where the next step fetches it. -/
namespace Sys2Proof.Machine

/-- One step: the next action of the agenda, or what happens when it is empty. -/
def step (s : State) : Host.Outcome State Fault Refusal := s.advance

/-- The state with an instruction placed where the next step fetches: w holds its bits as the opcode table numbers them.
[DESIGN CHOICE, log 8: unsafe] -/
def State.withFetchWord (s : State) (nbits w : Nat) : State := s.placed nbits w

end Sys2Proof.Machine
end

