-- ==== Sys2Proof/Safety.lean ====
section
/-! DEFINITION. Sys2Proof/Safety.lean: the terms in which statements about the machine are made.

What an instruction may change (Writes) and what it leaves alone (Frame); that it completes (Yields); when an access to memory is an
ordinary one (PlainLoad, PlainStore); that a thread can take an instruction at either site; the canonical form of memory. -/
namespace Sys2Proof.Machine

/-! ## The canonical form of memory -/

/-- The canonical form of a memory: addresses rise strictly, and no listed byte is zero, which is what an unlisted address reads as.
[DESIGN CHOICE, log 9: unsafe] -/
def Memory.wf (m : List Host.Cell) : Bool := sparseWf 0#8 m

/-- The invariant of the machine's memory. -/
def State.Inv (s : State) : Prop := Memory.wf s.mem = true

/-! ## What an instruction may write -/

/-- The registers, flags and memory bytes that an instruction may write. -/
structure Writes where
  x : List XReg := []
  f : List FReg := []
  p : List PReg := []
  w : List Nat := []
  k : List KReg := []
  d : List DReg := []
  b : List BReg := []
  fflags : Bool := false
  zaflags : Bool := false
  zamax : Bool := false
  zdflags : Bool := false
  draw : Bool := false
  /-- The user CSRs of a task and of a group: ztask, zbudget, zrfvec. -/
  task : Bool := false
  zrfvec : Bool := false
  /-- The reservation. -/
  resv : Bool := false
  /-- The watch. -/
  watch : Bool := false
  /-- The stored bytes: address and length. -/
  mem : Option (Nat × Nat) := none
  deriving DecidableEq, Repr

/-- The general registers, array words, predicates, index, distribution and buffer registers that w does not name are the same. -/
def SameRegs (w : Writes) (s t : State) : Prop :=
  (∀ r : XReg, r ∉ w.x → t.rx r = s.rx r) ∧
  (∀ r : FReg, r ∉ w.f → t.rf r = s.rf r) ∧
  (∀ r : PReg, r ∉ w.p → t.rp r = s.rp r) ∧
  (∀ n : Nat, n ∉ w.w → t.rw n = s.rw n) ∧
  (∀ r : KReg, r ∉ w.k → t.rk r = s.rk r) ∧
  (∀ r : DReg, r ∉ w.d → t.rd r = s.rd r) ∧
  (∀ r : BReg, r ∉ w.b → t.rb r = s.rb r)

/-- The flags and the special registers of the user state that w does not name are the same. -/
def SameFlags (w : Writes) (s t : State) : Prop :=
  let u := s.hart.u
  let v := t.hart.u
  (w.fflags = false → v.fflags = u.fflags) ∧
  (w.zaflags = false → v.zaflags = u.zaflags) ∧
  (w.zamax = false → v.zamax = u.zamax) ∧
  (w.zdflags = false → v.zdflags = u.zdflags) ∧
  (w.draw = false → v.draw = u.draw) ∧
  (w.task = false → v.ztask = u.ztask ∧ v.zbudget = u.zbudget) ∧
  (w.zrfvec = false → v.zrfvec = u.zrfvec) ∧
  v.frm = u.frm ∧ v.zfmode = u.zfmode ∧ v.zdctl = u.zdctl ∧ v.zpack = u.zpack ∧ v.zseed = u.zseed ∧ v.zsitectl = u.zsitectl ∧
  v.zexp = u.zexp ∧ v.zwprof = u.zwprof ∧ v.home = u.home

/-- The hart is the same but for its user state, its wait, what is left of an ended wait, and its counters; the reservation, the watch and
what belongs to a task's run where w names them. -/
def SameHart (w : Writes) (s t : State) : Prop :=
  SameRegs w s t ∧ SameFlags w s t ∧
  { t.hart with
    u := s.hart.u, wait := s.hart.wait, resume := s.hart.resume, instret := s.hart.instret, cycle := s.hart.cycle
    resv := if w.resv then s.hart.resv else t.hart.resv
    watch := if w.watch then s.hart.watch else t.hart.watch
    budgetDue := if w.task then s.hart.budgetDue else t.hart.budgetDue
    wrote := if w.task then s.hart.wrote else t.hart.wrote } = s.hart

/-- Every byte of memory outside the stored ones is the same, and so is its poison. -/
def SameMemory (w : Writes) (s t : State) : Prop :=
  (∀ a : Nat, (∀ r ∈ w.mem, a < r.1 ∨ r.1 + r.2 ≤ a) → t.byte a = s.byte a) ∧ t.poison = s.poison

/-- The other harts are the same: a store may end their reservations and satisfy their watches. -/
def SameHarts (w : Writes) (s t : State) : Prop :=
  match w.mem with
  | none => t.harts = s.harts
  | some _ =>
    t.harts.map (fun h => { h with resv := none, watch := none }) = s.harts.map fun h => { h with resv := none, watch := none }

/-- The partition without the groups in the issue slots of its W-cores and the sampled page counts, which every instruction may move on
(R49, R92). -/
def Part.still (p : Part) : Part :=
  { p with hotCounts := [], wcores := p.wcores.map fun w => { w with slots := Vector.replicate 4 none } }

/-- The package: a store to the notify line sends a message, and a store ends the copies and the reservations that other packages hold. -/
def Pkg.still (w : Writes) (k : Pkg) : Pkg :=
  { k with
    hostOut := if w.mem.isSome then [] else k.hostOut
    remote := if w.mem.isSome then [] else k.remote
    held := if w.mem.isSome then [] else k.held }

/-- The model's own fields that no instruction touches are the same: the prefix, the agenda, the schedule, unperformed words of images. -/
def SameOwn (s t : State) : Prop := t.pfx = s.pfx ∧ t.agenda = s.agenda ∧ t.ran = s.ran ∧ t.split = s.split ∧ t.tail = s.tail

/-- Everything but what w names is the same. -/
def Frame (w : Writes) (s t : State) : Prop :=
  SameHart w s t ∧ SameMemory w s t ∧ SameHarts w s t ∧ t.part.still = s.part.still ∧ t.pkg.still w = s.pkg.still w ∧
  SameOwn s t

/-- The frame of an instruction that also changes the partition, to what p makes of it, and nothing else but what w names. -/
def FramePart (w : Writes) (p : Part → Part) (s t : State) : Prop :=
  SameHart w s t ∧ SameMemory w s t ∧ SameHarts w s t ∧ t.part.still = (p s.part).still ∧ t.pkg.still w = s.pkg.still w ∧
  SameOwn s t

/-! ## Completion -/

/-- The instruction of s has retired in t: the pc, and instret, which counts it (R118). No instruction advances cycle, which counts
clocks (R11). -/
def RetiredTo (npc : Word) (s t : State) : Prop :=
  t.pc = npc ∧ t.hart.wait = none ∧ t.hart.resume = none ∧
  t.hart.instret = (if s.hart.sup.mcountinhibit.getLsbD 2 then s.hart.instret else s.hart.instret + 1) ∧
  t.hart.cycle = s.hart.cycle

/-- The pc behind an instruction of 32 bits, or behind the pair it belongs to (R124). -/
def State.nextPc (s : State) : Word := if s.pfx.isSome then s.pc + 8 else s.pc + 4

/-- The instruction i completes in s: its next state has the pc npc, it meets R, and it differs from s in what w names alone. -/
def YieldsTo (npc : Word) (i : Sys2Proof.Instr) (s : State) (w : Writes) (R : State → Prop) : Prop :=
  ∃ t, exec i s = .next t ∧ R t ∧ RetiredTo npc s t ∧ Frame w s t

/-- The instruction i completes in s and the pc passes it. -/
def Yields (i : Sys2Proof.Instr) (s : State) (w : Writes) (R : State → Prop) : Prop := YieldsTo s.nextPc i s w R

/-- The instruction i completes in s, the pc passes it, and the partition becomes what p makes of it. -/
def YieldsPart (i : Sys2Proof.Instr) (s : State) (w : Writes) (p : Part → Part) (R : State → Prop) : Prop :=
  ∃ t, exec i s = .next t ∧ R t ∧ RetiredTo s.nextPc s t ∧ FramePart w p s t

/-- The instruction traps: the next state is that of the one trap operation (R118, R300). -/
def Traps (i : Sys2Proof.Instr) (s : State) (cause : Nat) (tval : Word) : Prop :=
  exec i s = .next (s.takeTrap cause s.pc tval)

/-! ## Cross-lane instructions (R44, R160) -/

/-- Every hart has a name of its own. -/
def State.NamesDistinct (s : State) : Prop := (s.allHarts.map Hart.id).Nodup

/-- The current hart is a thread at the W-site that has re-filed at its cross-lane instruction and whose set is complete: every present
member stands at its pc, the members have vlanes of their own (R44, R49). -/
def SetStands (s : State) : Prop :=
  s.site = .w ∧ s.converging = true ∧ s.NamesDistinct ∧ s.setReady = true ∧ (s.mySet.map (vlaneOf s)).Nodup

/-- The register file of the current thread's W-core holds its active contexts together with those of the thread's set (R27). -/
def SetFits (s : State) : Prop :=
  ∀ c, s.hart.car = some c →
    let hs := s.allHarts.filter fun h => h.residentOn c.core && (h.car.any Car.active || s.inMySet h)
    hs.length ≤ 1536 ∧ (hs.map fun h => classSpace (profClass h.u.zwprof)).sum ≤ 2 ^ 20

/-- The members of the current thread's set whose guard is true: those that contribute (R44). -/
def State.givers (s : State) : List Hart := s.mySet.filter fun h => guardTrue s.pfx h.u

/-- What the giver at a vlane gives. -/
def State.giverAt {α : Type} (s : State) (val : User → α) (i : Nat) : Option α :=
  (s.givers.find? fun h => vlaneOf s h == i).map fun h => val h.u

/-- The cross-lane instruction i executes for the whole set: a member whose guard is true gets f of itself, one whose guard is false
keeps its registers, or under MZ gets its destination zeroed; each passes the instruction; no thread outside the set, no memory and no
partition state changes, unless the register file is too small for the set and contexts go to their park slots. -/
def CrossYields (i : Sys2Proof.Instr) (s : State) (f : Hart → User) (zero : User → User) : Prop :=
  ∃ t, exec i s = .next t ∧
    (∀ h ∈ s.mySet, ∃ g, t.hart? h.id = some g ∧
      g.u =
        { (if guardTrue s.pfx h.u then f h else if s.pfx.any (·.mz) then zero h.u else h.u) with
          pc := if s.pfx.isSome then h.u.pc + 8 else h.u.pc + 4 } ∧
      g.sup = h.sup ∧ g.instret = h.instret + 1 ∧ g.wait = none) ∧
    (∀ h ∈ s.allHarts, h ∉ s.mySet → ∃ g, t.hart? h.id = some g ∧ g.u = h.u ∧ g.wait = h.wait ∧ (SetFits s → g = h)) ∧
    (SetFits s → t.mem = s.mem ∧ t.poison = s.poison ∧ t.pkg.still {} = s.pkg.still {}) ∧
    t.hart.id = s.hart.id ∧ t.part.still = s.part.still ∧ SameOwn s t

/-! ## Ordinary memory -/

/-- An access of n bytes at va reads or writes plain memory at the physical address pa: no window, no stash window, no bound region, no
poison; its translation needs no update of a table entry. -/
def PlainAccess (acc : Acc) (s : State) (va : Word) (n pa : Nat) : Prop :=
  0 < n ∧ windowOff va = none ∧ s.stashFor va = none ∧ walkOf s (xmodeOf s.hart acc) acc va = .ok pa none ∧ s.physOk pa n = true ∧
  s.inTable pa n = false ∧ s.poisoned pa n = false ∧ (∀ k, k < n → s.bindingAt (asidOf s.hart) (va.toNat + k) = none) ∧ s.myMends = []

/-- The current thread holds no private byte of the n bytes at pa. -/
def NoPrivate (s : State) (pa n : Nat) : Prop := ∀ b ∈ s.part.priv, b.who = s.who → ¬ (pa ≤ b.pa ∧ b.pa < pa + n)

/-- The access lies within one 128-byte line (R118). -/
def InLine (va : Word) (n : Nat) : Prop := va.toNat % 128 + n ≤ 128

/-- The n bytes of memory at pa as a number (R4). -/
def State.memNat (s : State) (pa n : Nat) : Nat := leNat (s.bytes pa n)

/-- The n bytes of memory at pa hold the low n bytes of v (R4). -/
def Holds (t : State) (pa n : Nat) (v : Word) : Prop := t.memNat pa n = v.toNat % 2 ^ (8 * n)

/-- The bytes bs stand where the current hart fetches: each parcel of 16 bits from the pc on lies in fetchable, unpoisoned memory of which the
thread holds no byte of its own, and its translation needs no update of a table entry; the thread's group has fetched nothing (R119, R133). -/
def FetchesAt (s : State) (bs : List Byte) : Prop :=
  s.part.hotEn = false ∧ bs.length % 2 = 0 ∧ (∀ g ∈ s.myGroup, g.code = []) ∧
  ∀ k, 2 * k < bs.length →
    let va := s.pc + BitVec.ofNat 64 (2 * k)
    ∃ pa, windowOff va = none ∧ walkOf s (xmodeOf s.hart .fetch) .fetch va = .ok pa none ∧ s.physOk pa 2 = true ∧ s.poisoned pa 2 = false ∧
      NoPrivate s pa 2 ∧ s.stashFor va = none ∧ s.stashFor (va + 1) = none ∧ s.bytes pa 2 = (bs.drop (2 * k)).take 2

/-! ## Waiting and waking (R47) -/

/-- The instruction i does not retire: its thread waits as w says, and no register, no memory and no partition state changes; a wait that is
the waiting state is a re-binning point for its thread (R47, R49). -/
def Waits (i : Sys2Proof.Instr) (s : State) (w : Wait) : Prop :=
  ∃ t, exec i s = .next t ∧
    t.hart = { s.hart with wait := some w, resume := none, car := if w.waits then s.hart.car.map (Car.refiled s) else s.hart.car } ∧
    t.harts = s.harts ∧ t.mem = s.mem ∧ t.poison = s.poison ∧ t.part.still = s.part.still ∧ t.pkg = s.pkg

/-- The event e ends the wait of the hart h, which keeps its registers and its pc and enters its bin anew when it stands in no group; no other
hart, no memory, nothing of the partition and the package changes. -/
def Wakes (e : Sys2Proof.Instr) (h : HartId) (s : State) : Prop :=
  ∃ t x g, exec e s = .next t ∧ s.hart? h = some x ∧ t.hart? h = some g ∧
    g = { x with wait := none, resume := x.wait, car := if s.inGroup x then x.car else x.car.map (Car.refiled s) } ∧
    (∀ k, k ≠ h → t.hart? k = s.hart? k) ∧ t.mem = s.mem ∧ t.poison = s.poison ∧ t.part = s.part ∧ t.pkg = s.pkg

/-- The event e ends the wait of the hart h exactly when p holds, and changes nothing otherwise. -/
def WakesWhen (e : Sys2Proof.Instr) (h : HartId) (s : State) (p : Prop) : Prop := (p → Wakes e h s) ∧ (¬ p → exec e s = .next s)

/-! ## Sync objects (R72, R73) -/

/-- No stash window maps a region of the object at pa, and the current thread holds no private byte of the object's own bytes. -/
def Settled (s : State) (pa : Nat) : Prop := NoPrivate s pa 32 ∧ ∀ team ∈ s.part.teams, ∀ w ∈ team.windows, w.obj ≠ pa

/-- The dirty private bytes that a release of the object at pa by the current thread carries home (R73). -/
def State.carried (s : State) (pa : Nat) : List PrivByte := s.part.priv.filter fun b => b.dirty && (b.who == s.who && b.obj == pa)

/-- t holds what a release of the object at pa by the current thread of s leaves: no dirty byte of the object's regions is held by the
thread any more, each stands at the home, and word 0 is one higher. -/
def Released (pa : Nat) (s t : State) : Prop :=
  (∀ b ∈ t.part.priv, b.who = s.who → b.obj = pa → b.dirty = false) ∧
  (∀ b ∈ s.carried pa, (∀ c ∈ s.carried pa, c.pa = b.pa → c = b) → t.byte b.pa = b.val) ∧
  (∀ a, (∀ b ∈ s.carried pa, b.pa ≠ a) → (a < pa ∨ pa + 32 ≤ a) → t.byte a = s.byte a) ∧
  t.objWord pa 0 = s.objWord pa 0 + 1

/-- t holds what an acquire of the object at pa by the current thread of s leaves: no clean private copy of its regions (R74). -/
def Acquired (pa : Nat) (s t : State) : Prop := ∀ b ∈ t.part.priv, b.who = s.who → b.obj = pa → b.dirty = true

/-! ## Ringmaster (R269 to R299) -/

/-- Ringmaster takes a request at once: no other has been applied in this A-clock, and none waits (R288). -/
def State.rmFree (s : State) : Prop := s.part.rm.hold = false ∧ s.part.rm.used = false ∧ s.part.rm.reqs = []

/-- The instruction i completes; of the partition it changes what Ringmaster holds and the count of late TENDs alone. -/
def YieldsTasks (i : Sys2Proof.Instr) (s : State) (w : Writes) (R : State → Prop) : Prop :=
  ∃ t, exec i s = .next t ∧ R t ∧ RetiredTo s.nextPc s t ∧ SameHart w s t ∧ SameMemory w s t ∧ SameHarts w s t ∧
    { t.part.still with rm := s.part.rm, dlmiss := s.part.dlmiss } = s.part.still ∧ t.pkg.still w = s.pkg.still w ∧
    SameOwn s t

/-- In t the tasks of s stand, the entry of a number with f applied, and the count of late TENDs. -/
def EditsTask (s t : State) (idx : Nat) (f : Task → Task) : Prop :=
  t.part.rm.tasks = (s.part.rm.tasks.map fun e => if e.idx = idx then f e else e) ∧ t.part.dlmiss = s.part.dlmiss

/-- A task made READY, with the A-clock as its stamp (R288). -/
def madeReady (s : State) (e : Task) : Task := { e with state := .ready, stamp := s.pkg.zaclk.toNat, inSet := false, marked := false }

/-- The first of two ready tasks goes before the second: the deadline, the class, the handle; a task without a deadline goes last, in
handle order (R275). -/
def goesBefore (a b : Task) : Prop :=
  let da := a.desc.deadline.toNat
  let db := b.desc.deadline.toNat
  if da = 0 then db = 0 ∧ a.handle.toNat < b.handle.toNat
  else
    db = 0 ∨ da < db ∨ (da = db ∧ a.desc.prio < b.desc.prio) ∨
      (da = db ∧ a.desc.prio = b.desc.prio ∧ a.handle.toNat < b.handle.toNat)

/-! ## The Press and its W-core (R212 to R235) -/

/-- The current hart is a thread resident on the W-core w, whose state is c. -/
def Resides (s : State) (w : Nat) (c : WCore) : Prop :=
  (∃ ctx k, s.hart.id = .wthread ctx ∧ s.hart.car = some k ∧ k.core = w) ∧ s.wcore? w = some c

/-- t differs from s, of the partition, in the W-core w alone; the sampled page counts aside. -/
def SameButCore (w : Nat) (s t : State) : Prop :=
  (∀ n, n ≠ w → t.wcore? n = s.wcore? n) ∧
  { t.part with wcores := [], hotCounts := [] } = { s.part with wcores := [], hotCounts := [] }

/-- The instruction i of a thread on the W-core w completes: of the partition it changes that W-core alone. -/
def YieldsCore (w : Nat) (i : Sys2Proof.Instr) (s : State) (wr : Writes) (R : State → Prop) : Prop :=
  ∃ t, exec i s = .next t ∧ R t ∧ RetiredTo s.nextPc s t ∧ SameHart wr s t ∧ SameMemory wr s t ∧ t.harts = s.harts ∧
    SameButCore w s t ∧ t.pkg.still wr = s.pkg.still wr ∧ SameOwn s t

/-- The event e changes the W-core w alone, which R describes. -/
def CoreEvent (w : Nat) (e : Sys2Proof.Instr) (s : State) (R : State → Prop) : Prop :=
  ∃ t, exec e s = .next t ∧ R t ∧ SameButCore w s t ∧ t.hart = s.hart ∧ t.harts = s.harts ∧ t.mem = s.mem ∧ t.poison = s.poison ∧
    t.pkg = s.pkg

/-- The counter of a, 64 bits and saturating, is one higher in new than in old, where a may have none yet; the others stand (R353). -/
def Raised {α : Type} (a : α) (old new : List (α × Nat)) : Prop :=
  (∀ n, (a, n) ∈ old → (a, min (n + 1) (2 ^ 64 - 1)) ∈ new) ∧ ((∀ n, (a, n) ∉ old) → (a, 1) ∈ new) ∧
  ∀ b n, b ≠ a → ((b, n) ∈ new ↔ (b, n) ∈ old)

/-- The Press of the W-core w in t meets R. -/
def PressIs (t : State) (w : Nat) (R : Press → Prop) : Prop := ∃ c, t.wcore? w = some c ∧ R c.press

/-- The stval of a cause 50: the reason, and the offset of the field (R220). -/
def reason50 (reason off : Nat) : Word := BitVec.ofNat 64 (reason + 256 * off)

end Sys2Proof.Machine
end

