-- ==== Sys2Proof/Certificates/Slice0/Obligations.lean ====
section
/-! DEFINITION. Sys2Proof/Certificates/Slice0/Obligations.lean: what is to be proved of the model.

A statement of an instruction's result says that the instruction completes, what it leaves in its destination, and its frame: Yields,
YieldsTo and YieldsPart of Sys2Proof/Safety.lean. -/

section

open Sys2Proof Sys2Proof.Machine
open Host (Outcome)

/-! ## The base profile (R118) -/

/-- R118: the register instructions of RV64I, M, Zba, Zbb, Zbs and Zicond complete, rd takes the result (x0 stays zero), the pc passes the
instruction or its 16-bit encoding, and nothing else changes.
R118 (M): division truncates toward zero; a division by zero gives all ones and the dividend as remainder; the overflow of a signed
division gives the dividend and remainder 0. The other operations are stated bit by bit or on integers: shifts and rotations take their
amount modulo the width, a W form works on the low 32 bits and sign-extends, MULH* give the upper half of the exact product. -/
def Obligations.BaseRegisterResult : Prop :=
  (∀ (s : State) (c : Option (BitVec 16)) (rd rs1 rs2 : XReg),
     let completes (i : BaseInstr) (v : Word) : Prop :=
       YieldsTo (s.pc + s.ilen c) (.base c i) s { x := [rd] } fun t => t.rx rd = if rd = 0 then 0 else v
     (∀ op, completes (.alu op rd rs1 rs2) (aluOf op (s.rx rs1) (s.rx rs2))) ∧
     (∀ op i, completes (.imm op rd rs1 i) (immOf op (s.rx rs1) i)) ∧
     (∀ op n, completes (.shift op rd rs1 n) (shiftOf op (s.rx rs1) n.toNat)) ∧
     (∀ op n, completes (.shiftW op rd rs1 n) (shiftWOf op (s.rx rs1) n.toNat)) ∧
     (∀ op, completes (.unary op rd rs1) (unaryOf op (s.rx rs1))) ∧
     (∀ i, completes (.lui rd i) ((i ++ 0#12).signExtend 64)) ∧
     (∀ i, completes (.auipc rd i) (s.pc + (i ++ 0#12).signExtend 64))) ∧
  (∀ (a b : Word),
     (aluOf .div a 0 = -1 ∧ aluOf .divu a 0 = -1 ∧ aluOf .rem a 0 = a ∧ aluOf .remu a 0 = a) ∧
     (b ≠ 0 → (aluOf .divu a b).toNat = a.toNat / b.toNat ∧ (aluOf .remu a b).toNat = a.toNat % b.toNat) ∧
     (b ≠ 0 → ¬ (a = BitVec.intMin 64 ∧ b = -1) →
       (aluOf .div a b).toInt = a.toInt.tdiv b.toInt ∧ (aluOf .rem a b).toInt = a.toInt.tmod b.toInt) ∧
     (aluOf .div (BitVec.intMin 64) (-1) = BitVec.intMin 64 ∧ aluOf .rem (BitVec.intMin 64) (-1) = 0)) ∧
  (∀ (a b : Word),
     let n := b.toNat % 64
     let bits (v : Word) (f : Nat → Bool) : Prop := ∀ k : Nat, k < 64 → v.getLsbD k = f k
     let mod (v : Word) (e : Nat) : Prop := v = BitVec.ofNat 64 e
     (aluOf .add a b).toNat = (a.toNat + b.toNat) % 2 ^ 64 ∧ (aluOf .sub a b + b).toNat = a.toNat ∧
     bits (aluOf .sll a b) (fun k => decide (n ≤ k) && a.getLsbD (k - n)) ∧ bits (aluOf .srl a b) (fun k => a.getLsbD (k + n)) ∧
     bits (aluOf .sra a b) (fun k => a.getLsbD (min (k + n) 63)) ∧
     bits (aluOf .rol a b) (fun k => a.getLsbD ((k + 64 - n) % 64)) ∧ bits (aluOf .ror a b) (fun k => a.getLsbD ((k + n) % 64)) ∧
     bits (aluOf .and a b) (fun k => a.getLsbD k && b.getLsbD k) ∧ bits (aluOf .or a b) (fun k => a.getLsbD k || b.getLsbD k) ∧
     bits (aluOf .xor a b) (fun k => a.getLsbD k != b.getLsbD k) ∧ bits (aluOf .andn a b) (fun k => a.getLsbD k && !b.getLsbD k) ∧
     bits (aluOf .orn a b) (fun k => a.getLsbD k || !b.getLsbD k) ∧ bits (aluOf .xnor a b) (fun k => a.getLsbD k == b.getLsbD k) ∧
     bits (aluOf .bclr a b) (fun k => a.getLsbD k && k != n) ∧ bits (aluOf .bset a b) (fun k => a.getLsbD k || k == n) ∧
     bits (aluOf .binv a b) (fun k => a.getLsbD k != (k == n)) ∧ aluOf .bext a b = (if a.getLsbD n then 1 else 0) ∧
     aluOf .slt a b = (if a.toInt < b.toInt then 1 else 0) ∧ aluOf .sltu a b = (if a.toNat < b.toNat then 1 else 0) ∧
     aluOf .max a b = (if a.toInt < b.toInt then b else a) ∧ aluOf .min a b = (if a.toInt < b.toInt then a else b) ∧
     aluOf .maxu a b = (if a.toNat < b.toNat then b else a) ∧ aluOf .minu a b = (if a.toNat < b.toNat then a else b) ∧
     mod (aluOf .mul a b) (a.toNat * b.toNat) ∧ (aluOf .mulh a b).toInt = a.toInt * b.toInt / 2 ^ 64 ∧
     (aluOf .mulhsu a b).toInt = a.toInt * b.toNat / 2 ^ 64 ∧ (aluOf .mulhu a b).toNat = a.toNat * b.toNat / 2 ^ 64 ∧
     mod (aluOf .addUw a b) (a.toNat % 2 ^ 32 + b.toNat) ∧ mod (aluOf .sh1add a b) (2 * a.toNat + b.toNat) ∧
     mod (aluOf .sh2add a b) (4 * a.toNat + b.toNat) ∧ mod (aluOf .sh3add a b) (8 * a.toNat + b.toNat) ∧
     mod (aluOf .sh1addUw a b) (2 * (a.toNat % 2 ^ 32) + b.toNat) ∧ mod (aluOf .sh2addUw a b) (4 * (a.toNat % 2 ^ 32) + b.toNat) ∧
     mod (aluOf .sh3addUw a b) (8 * (a.toNat % 2 ^ 32) + b.toNat) ∧
     aluOf .czeroEqz a b = (if b.toNat = 0 then 0 else a) ∧ aluOf .czeroNez a b = (if b.toNat = 0 then a else 0)) ∧
  (∀ (a b : Word),
     let m := b.toNat % 32
     let x := a.toInt.bmod (2 ^ 32)
     let y := b.toInt.bmod (2 ^ 32)
     let low (v : Word) (e : Int) : Prop := v.toInt = e.bmod (2 ^ 32)
     let bits (v : Word) (f : Nat → Bool) : Prop := ∀ k : Nat, k < 64 → v.getLsbD k = f (min k 31)
     low (aluOf .addw a b) (x + y) ∧ low (aluOf .subw a b) (x - y) ∧ low (aluOf .mulw a b) (x * y) ∧ low (aluOf .sllw a b) (x * 2 ^ m) ∧
     low (aluOf .srlw a b) (x % 2 ^ 32 / 2 ^ m) ∧ low (aluOf .sraw a b) (x / 2 ^ m) ∧
     bits (aluOf .rolw a b) (fun k => a.getLsbD ((k + 32 - m) % 32)) ∧ bits (aluOf .rorw a b) (fun k => a.getLsbD ((k + m) % 32)) ∧
     low (aluOf .divw a b) (if y = 0 then -1 else x.tdiv y) ∧ low (aluOf .remw a b) (if y = 0 then x else x.tmod y) ∧
     low (aluOf .divuw a b) (if y = 0 then -1 else x % 2 ^ 32 / (y % 2 ^ 32)) ∧
     low (aluOf .remuw a b) (if y = 0 then x else x % 2 ^ 32 % (y % 2 ^ 32))) ∧
  (∀ (a : Word) (i : BitVec 12) (n : BitVec 6) (m : BitVec 5),
     let k : Word := n.setWidth 64
     let j : Word := m.setWidth 64
     let v : Word := i.signExtend 64
     immOf .addi a i = aluOf .add a v ∧ immOf .slti a i = aluOf .slt a v ∧ immOf .sltiu a i = aluOf .sltu a v ∧
     immOf .xori a i = aluOf .xor a v ∧ immOf .ori a i = aluOf .or a v ∧ immOf .andi a i = aluOf .and a v ∧
     immOf .addiw a i = aluOf .addw a v ∧
     shiftOf .slli a n.toNat = aluOf .sll a k ∧ shiftOf .srli a n.toNat = aluOf .srl a k ∧ shiftOf .srai a n.toNat = aluOf .sra a k ∧
     shiftOf .rori a n.toNat = aluOf .ror a k ∧ shiftOf .bclri a n.toNat = aluOf .bclr a k ∧
     shiftOf .bexti a n.toNat = aluOf .bext a k ∧ shiftOf .binvi a n.toNat = aluOf .binv a k ∧
     shiftOf .bseti a n.toNat = aluOf .bset a k ∧ shiftOf .slliUw a n.toNat = BitVec.ofNat 64 (a.toNat % 2 ^ 32 * 2 ^ n.toNat) ∧
     shiftWOf .slliw a m.toNat = aluOf .sllw a j ∧ shiftWOf .srliw a m.toNat = aluOf .srlw a j ∧
     shiftWOf .sraiw a m.toNat = aluOf .sraw a j ∧ shiftWOf .roriw a m.toNat = aluOf .rorw a j) ∧
  (∀ (a : Word),
     let counts (op : UnaryOp) (w : Nat) (bitAt : Nat → Bool) : Prop :=
       let c := (unaryOf op a).toNat
       c ≤ w ∧ (∀ k, k < c → bitAt k = false) ∧ (c < w → bitAt c = true)
     let bits (op : UnaryOp) (f : Nat → Bool) : Prop := ∀ k : Nat, k < 64 → (unaryOf op a).getLsbD k = f k
     counts .clz 64 (fun k => a.getLsbD (63 - k)) ∧ counts .ctz 64 (fun k => a.getLsbD k) ∧
     counts .clzw 32 (fun k => a.getLsbD (31 - k)) ∧ counts .ctzw 32 (fun k => a.getLsbD k) ∧
     (unaryOf .cpop a).toNat = ((List.range 64).filter fun k => a.getLsbD k).length ∧
     (unaryOf .cpopw a).toNat = ((List.range 32).filter fun k => a.getLsbD k).length ∧
     bits .sextB (fun k => a.getLsbD (min k 7)) ∧ bits .sextH (fun k => a.getLsbD (min k 15)) ∧
     bits .zextH (fun k => decide (k < 16) && a.getLsbD k) ∧ bits .rev8 (fun k => a.getLsbD (8 * (7 - k / 8) + k % 8)) ∧
     bits .orcB (fun k => (List.range 8).any fun j => a.getLsbD (8 * (k / 8) + j)))

/-- R118: JAL and JALR write the address behind the instruction to rd and go to their targets; a conditional branch goes to its target
exactly when its comparison holds, and passes on otherwise. -/
def Obligations.BaseControlTransfer : Prop :=
  ∀ (s : State) (c : Option (BitVec 16)) (rd rs1 rs2 : XReg),
    let link : Word := s.pc + s.ilen c
    let a := s.rx rs1
    let b := s.rx rs2
    (∀ off, YieldsTo (s.pc + (off ++ 0#1).signExtend 64) (.base c (.jal rd off)) s { x := [rd] } fun t =>
      t.rx rd = if rd = 0 then 0 else link) ∧
    (∀ i, YieldsTo ((a + i.signExtend 64) &&& ~~~1) (.base c (.jalr rd rs1 i)) s { x := [rd] } fun t =>
      t.rx rd = if rd = 0 then 0 else link) ∧
    (∀ off,
      let goes (op : BranchOp) (taken : Prop) : Prop :=
        (taken → YieldsTo (s.pc + (off ++ 0#1).signExtend 64) (.base c (.branch op rs1 rs2 off)) s {} fun _ => True) ∧
        (¬ taken → YieldsTo link (.base c (.branch op rs1 rs2 off)) s {} fun _ => True)
      goes .beq (a = b) ∧ goes .bne (a ≠ b) ∧ goes .blt (a.toInt < b.toInt) ∧ goes .bge (b.toInt ≤ a.toInt) ∧
      goes .bltu (a.toNat < b.toNat) ∧ goes .bgeu (b.toNat ≤ a.toNat))

/-- R118: a load from plain memory within one 128-byte line, at any alignment, gives rd the bytes extended as the instruction says, or an
f register the bytes, NaN-boxed for FLW (R96). -/
def Obligations.BaseLoadResult : Prop :=
  ∀ (s : State) (c : Option (BitVec 16)) (rs1 : XReg) (i : BitVec 12) (pa : Nat),
    let va := s.rx rs1 + i.signExtend 64
    (∀ op (rd : XReg), PlainAccess .load s va (loadSize op) pa → InLine va (loadSize op) →
      YieldsTo (s.pc + s.ilen c) (.base c (.load op rd rs1 i)) s { x := [rd] } fun t =>
        t.rx rd =
          if rd = 0 then 0
          else
            match op with
            | .lb => (BitVec.ofNat 8 (s.memNat pa 1)).signExtend 64
            | .lh => (BitVec.ofNat 16 (s.memNat pa 2)).signExtend 64
            | .lw => (BitVec.ofNat 32 (s.memNat pa 4)).signExtend 64
            | .ld => BitVec.ofNat 64 (s.memNat pa 8)
            | .lbu => BitVec.ofNat 64 (s.memNat pa 1)
            | .lhu => BitVec.ofNat 64 (s.memNat pa 2)
            | .lwu => BitVec.ofNat 64 (s.memNat pa 4)) ∧
    (∀ rd : FReg, fsOn s = true → PlainAccess .load s va 4 pa → InLine va 4 →
      YieldsTo (s.pc + s.ilen c) (.base c (.fload .s rd rs1 i)) s { f := [rd] } fun t =>
        t.rf rd = 0xFFFFFFFF#32 ++ BitVec.ofNat 32 (s.memNat pa 4)) ∧
    (∀ rd : FReg, fsOn s = true → PlainAccess .load s va 8 pa → InLine va 8 →
      YieldsTo (s.pc + s.ilen c) (.base c (.fload .d rd rs1 i)) s { f := [rd] } fun t => t.rf rd = BitVec.ofNat 64 (s.memNat pa 8))

/-- R118: a store to plain memory within one 128-byte line writes the low bytes of its source at its address, and no byte outside them. -/
def Obligations.BaseStoreResult : Prop :=
  ∀ (s : State) (c : Option (BitVec 16)) (rs1 : XReg) (i : BitVec 12) (pa : Nat), s.Inv →
    let va := s.rx rs1 + i.signExtend 64
    (∀ op (rs2 : XReg), PlainAccess .store s va (storeSize op) pa → InLine va (storeSize op) →
      YieldsTo (s.pc + s.ilen c) (.base c (.store op rs1 rs2 i)) s { mem := some (pa, storeSize op) } fun t =>
        Holds t pa (storeSize op) (s.rx rs2)) ∧
    (∀ fmt (rs2 : FReg), fsOn s = true →
      let n := match fmt with | .s => 4 | .d => 8
      PlainAccess .store s va n pa → InLine va n →
      YieldsTo (s.pc + s.ilen c) (.base c (.fstore fmt rs1 rs2 i)) s { mem := some (pa, n) } fun t => Holds t pa n (s.rf rs2))

/-- R118: a scalar load that crosses a 128-byte line raises cause 4, a scalar store cause 6, with its address in stval; a misaligned LR raises
cause 4, a misaligned SC or AMO cause 6. R118, R132, R134: an instruction or a CSR that the mode may not use raises cause 2, whatever its
operands, and so does a write by a CSR instruction to a read-only CSR.
R66, R67, R118: FENCE, FENCE.TSO and FENCE.I complete and change nothing else when the thread has no mending entries, and wait for their drain
when it has; where the kernel has dropped a store they raise cause 30 with its address. SFENCE.VMA and WFI complete in M-mode, and in S-mode
where TVM and TW do not forbid it, and change nothing else: that WFI does not wait is the model's choice (log 26). -/
def Obligations.BaseTrapsAndFences : Prop :=
  (∀ (s : State) (c : Option (BitVec 16)) (rs1 r : XReg) (i : BitVec 12), s.myMends = [] →
     let va := s.rx rs1 + i.signExtend 64
     (∀ op, ¬ InLine va (loadSize op) → Traps (.base c (.load op r rs1 i)) s 4 va) ∧
     (∀ op, ¬ InLine va (storeSize op) → Traps (.base c (.store op rs1 r i)) s 6 va)) ∧
  (∀ (s : State) (c : Option (BitVec 16)) (dbl aq rl : Bool) (rd rs1 rs2 : XReg),
     let va := s.rx rs1
     va.toNat % (if dbl then 8 else 4) ≠ 0 →
     Traps (.base c (.lr dbl aq rl rd rs1)) s 4 va ∧ Traps (.base c (.sc dbl aq rl rd rs1 rs2)) s 6 va ∧
     ∀ op, Traps (.base c (.amo op dbl aq rl rd rs1 rs2)) s 6 va) ∧
  (∀ (s : State) (c : Option (BitVec 16)), s.myMends = [] →
     let illegal (i : BaseInstr) : Prop := Traps (.base c i) s 2 (illegalTval (instrWord (.base c i)) s)
     (s.hart.sup.mode = .u → illegal .sret ∧ illegal .mret ∧ illegal .wfi ∧ ∀ a b, illegal (.sfenceVma a b)) ∧
     (s.hart.sup.mode = .s → illegal .mret) ∧
     (∀ op rd rs1 (a : BitVec 12), s.hart.sup.mode.level < a.toNat / 256 % 4 → illegal (.csr op rd rs1 a)) ∧
     (∀ op rd i (a : BitVec 12), s.hart.sup.mode.level < a.toNat / 256 % 4 → illegal (.csrImm op rd i a)) ∧
     (∀ op rd (a : BitVec 12), a.toNat / 1024 = 3 → ¬ (s.hart.sup.mode = .s ∧ 0xC03 ≤ a.toNat ∧ a.toNat ≤ 0xC1F) →
       (∀ rs1, op = .rw ∨ rs1 ≠ 0 → illegal (.csr op rd rs1 a)) ∧ ∀ i, op = .rw ∨ i ≠ 0 → illegal (.csrImm op rd i a))) ∧
  (∀ (s : State) (c : Option (BitVec 16)),
     let fences (P : Instr → Prop) : Prop := (∀ p q, P (.base c (.fence p q))) ∧ P (.base c .fenceTso) ∧ P (.base c .fenceI)
     let passes (i : Instr) : Prop := YieldsTo (s.pc + s.ilen c) i s {} fun _ => True
     let may (bit : Nat) : Prop := s.hart.sup.mode = .m ∨ s.hart.sup.mode = .s ∧ s.hart.sup.mstatus.getLsbD bit = false
     (s.myMends = [] → s.hart.dropped = none → fences passes) ∧
     (s.myMends ≠ [] → fences fun i => Waits i s .drain) ∧
     (∀ va, s.myMends = [] → s.hart.dropped = some va → fences fun i =>
       exec i s = .next (State.takeTrap { s with hart := { s.hart with dropped := none } } 30 s.pc va)) ∧
     (may 20 → ∀ a b, passes (.base c (.sfenceVma a b))) ∧
     (may 21 → passes (.base c .wfi)))

/-- R118 (A): an AMO on plain memory gives rd the old value, sign-extended, and memory the new one; LR gives rd the value and reserves its
line; SC stores and gives 0 when the reservation holds the line, gives 1 and stores nothing otherwise, and ends the reservation. That SC
never fails while its reservation holds the line is the model's choice (log 27): R118 does not exclude a spurious failure. -/
def Obligations.AtomicResult : Prop :=
  ∀ (s : State) (c : Option (BitVec 16)) (dbl aq rl : Bool) (rd rs1 rs2 : XReg) (pa : Nat), s.Inv →
    let n := if dbl then 8 else 4
    NoPrivate s pa n →
    let va := s.rx rs1
    let old := atomExtend dbl (s.memNat pa n)
    va.toNat % n = 0 →
    (∀ op, PlainAccess .store s va n pa →
      YieldsTo (s.pc + s.ilen c) (.base c (.amo op dbl aq rl rd rs1 rs2)) s { x := [rd], mem := some (pa, n) } fun t =>
        t.rx rd = (if rd = 0 then 0 else old) ∧
        t.memNat pa n = amoOf op n (s.memNat pa n) ((s.rx rs2).toNat % 2 ^ (8 * n))) ∧
    (PlainAccess .load s va n pa →
      YieldsTo (s.pc + s.ilen c) (.base c (.lr dbl aq rl rd rs1)) s { x := [rd], resv := true } fun t =>
        t.rx rd = (if rd = 0 then 0 else old) ∧ t.hart.resv = some (pa / 128)) ∧
    (PlainAccess .store s va n pa → s.hart.resv = some (pa / 128) →
      YieldsTo (s.pc + s.ilen c) (.base c (.sc dbl aq rl rd rs1 rs2)) s { x := [rd], resv := true, mem := some (pa, n) } fun t =>
        t.rx rd = 0 ∧ Holds t pa n (s.rx rs2) ∧ t.hart.resv = none) ∧
    (PlainAccess .store s va n pa → s.hart.resv ≠ some (pa / 128) →
      YieldsTo (s.pc + s.ilen c) (.base c (.sc dbl aq rl rd rs1 rs2)) s { x := [rd], resv := true } fun t =>
        t.rx rd = (if rd = 0 then 0 else 1) ∧ t.hart.resv = none)

/-- R118, R300: a trap of an L-core that is delegated and does not come from M-mode enters S-mode: sepc takes the pc, scause the cause,
stval the value, SPP the mode left, SPIE takes SIE, SIE is cleared, the pc goes to stvec's base; any other trap enters M-mode: mepc, mcause
and mtval take them, MPP the mode left, MPIE takes MIE, MIE is cleared, the pc goes to mtvec's base. The reservation is lost; no other
register and no memory changes. ECALL takes cause 8, 9 or 11 as it comes from U-, S- or M-mode, EBREAK cause 3, both with value 0; a
scalar load that crosses a line takes cause 4 and a scalar store cause 6 with its address as the value; MRET outside M-mode takes cause 2
with the instruction's word. That the reservation is lost is the model's choice (log 27). -/
def Obligations.TrapEntryToSMode : Prop :=
  ∀ (s : State) (n : Nat) (c : Option (BitVec 16)), s.hart.id = .lcore n → s.hart.dropped = none → s.myMends = [] →
    let sup := s.hart.sup
    let st := sup.mstatus
    let enters (i : Instr) (cause : Nat) (tval : Word) : Prop :=
      ∃ t, exec i s = .next t ∧
        t = { s with
              hart :=
                { s.hart with
                  u := { s.hart.u with pc := t.pc }, resv := none, wait := none, resume := none, chosen := none, homing := false
                  sup := t.hart.sup } } ∧
        (sup.mode ≠ .m → sup.medeleg.getLsbD cause = true →
          t.pc = sup.stvec &&& ~~~3 ∧
          t.hart.sup =
            { sup with mode := .s, mstatus := t.hart.sup.mstatus, sepc := s.pc &&& ~~~1, scause := BitVec.ofNat 64 cause, stval := tval } ∧
          (∀ k, t.hart.sup.mstatus.getLsbD k =
            if k = 8 then sup.mode == .s else if k = 5 then st.getLsbD 1 else if k = 1 then false else st.getLsbD k)) ∧
        (sup.mode = .m ∨ sup.medeleg.getLsbD cause = false →
          t.pc = sup.mtvec &&& ~~~3 ∧
          t.hart.sup =
            { sup with mode := .m, mstatus := t.hart.sup.mstatus, mepc := s.pc &&& ~~~1, mcause := BitVec.ofNat 64 cause, mtval := tval } ∧
          (∀ k, t.hart.sup.mstatus.getLsbD k =
            if k = 11 then sup.mode != .u else if k = 12 then sup.mode == .m else if k = 7 then st.getLsbD 3 else if k = 3 then false
            else st.getLsbD k))
    enters (.base c .ecall) (match sup.mode with | .u => 8 | .s => 9 | .m => 11) 0 ∧
    enters (.base c .ebreak) 3 0 ∧
    (sup.mode ≠ .m → enters (.base c .mret) 2 (illegalTval (instrWord (.base c .mret)) s)) ∧
    (∀ (rs1 r : XReg) (i : BitVec 12),
      let va := s.rx rs1 + i.signExtend 64
      (∀ op, ¬ InLine va (loadSize op) → enters (.base c (.load op r rs1 i)) 4 va) ∧
      (∀ op, ¬ InLine va (storeSize op) → enters (.base c (.store op rs1 r i)) 6 va))

/-- R118: SRET goes to sepc in the mode of SPP, SIE takes SPIE, SPIE becomes 1 and SPP 0, and MPRV is cleared; MRET goes to mepc in the mode
of MPP, MIE takes MPIE, MPIE becomes 1 and MPP 0, and MPRV is cleared unless the mode returned to is M. R34: a return to U-mode for an
installed thread whose home is the W-site and whose HOLD is 0 sends it home first. -/
def Obligations.TrapReturn : Prop :=
  ∀ (s : State) (c : Option (BitVec 16)),
    let st := s.hart.sup.mstatus
    let returns (i : BaseInstr) (npc : Word) (mode : Mode) (bit : Nat → Option Bool) : Prop :=
      ∃ t, exec (.base c i) s = .next t ∧ RetiredTo npc s t ∧ t.hart.sup.mode = mode ∧
        (∀ k, t.hart.sup.mstatus.getLsbD k = (bit k).getD (st.getLsbD k)) ∧
        t.hart.homing = (s.hart.installed.isSome && mode == .u && s.hart.u.home == .w && !s.hart.u.zsitectl.getLsbD 1) ∧
        (t.hart.homing = false → t.hart.chosen = s.hart.chosen) ∧
        Frame {} s { t with
          hart :=
            { t.hart with
              homing := s.hart.homing, chosen := s.hart.chosen, sup := { t.hart.sup with mode := s.hart.sup.mode, mstatus := st } } } ∧
        t.hart.sup = { s.hart.sup with mode := mode, mstatus := t.hart.sup.mstatus }
    (sretOk s = true →
      returns .sret s.hart.sup.sepc (if st.getLsbD 8 then .s else .u) fun k =>
        if k = 1 then some (st.getLsbD 5) else if k = 5 then some true else if k = 8 then some false
        else if k = 17 then some false else none) ∧
    (s.hart.sup.mode = .m →
      let mpp := field st 11 2
      returns .mret s.hart.sup.mepc (if mpp = 3 then .m else if mpp = 1 then .s else .u) fun k =>
        if k = 3 then some (st.getLsbD 7) else if k = 7 then some true else if k = 11 ∨ k = 12 then some false
        else if k = 17 ∧ mpp ≠ 3 then some false else none)

/-- R106, R110, R111, R173, R180, R245, R246, R247: CSRRW, CSRRS, CSRRC and their immediate forms give rd the old value of a user CSR and
leave the new value as the CSR holds it: fflags and frm, zaflags, zdflags, zdctl, zsitectl and zexp their bits, zamax at most 7F800000h, a
reserved LRM of zfmode 000, zseed with every draw counter 0; CSRRS and CSRRC with x0 or 0 write nothing, and read the read-only CSRs. R118: a
write from S-mode to a counter that is not there is ignored.
R40, R41, R51, R53, R71, R83, R93, R134, R247, R306, R309: the writes of zpack, zwidth, zage, zseed and
zexp take effect; those of zpark, zrbt, zwfq, zemq, zhotl and zbankrole leave the CSR unchanged where their rule says so, and zwfq and zemq
where the base lies on another package (R328, the model's reading, log 65), and place their
area otherwise; a write to a read-only or unassigned address changes nothing. -/
def Obligations.CsrWrites : Prop :=
  (∀ (s : State) (c : Option (BitVec 16)) (rd rs1 : XReg) (i : BitVec 5),
     let u := s.hart.u
     let runs (b : BaseInstr) (old : Word) (v : User) : Prop :=
       ∃ t, exec (.base c b) s = .next t ∧ t.rx rd = (if rd = 0 then 0 else old) ∧ RetiredTo (s.pc + s.ilen c) s t ∧
         Frame { x := [rd] } { s with hart := { s.hart with u := v } } t
     let new (op : CsrOp) (old v : Word) : Word := match op with | .rw => v | .rs => old ||| v | .rc => old &&& ~~~v
     let reads (a : BitVec 12) (old : Word) : Prop :=
       s.csrVal a.toNat = some old ∧ ∀ op, op ≠ .rw → runs (.csr op rd 0 a) old u ∧ runs (.csrImm op rd 0 a) old u
     let writes (a : BitVec 12) (old : Word) (put : Word → User) : Prop :=
       reads a old ∧
       ∀ op,
         (op = .rw ∨ rs1 ≠ 0 → runs (.csr op rd rs1 a) old (put (new op old (s.rx rs1)))) ∧
         (op = .rw ∨ i ≠ 0 → runs (.csrImm op rd i a) old (put (new op old (i.setWidth 64))))
     (fsOn s = true →
       writes 0x001 (u.fflags.setWidth 64) (fun v => { u with fflags := v.setWidth 5 }) ∧
       writes 0x002 (u.frm.setWidth 64) (fun v => { u with frm := v.setWidth 3 }) ∧
       writes 0x003 ((u.frm ++ u.fflags).setWidth 64) (fun v => { u with fflags := v.setWidth 5, frm := v.extractLsb' 5 3 })) ∧
     writes 0x800 (u.zfmode.setWidth 64) (fun v =>
       { u with zfmode := if v.extractLsb' 4 3 = 6#3 ∨ v.extractLsb' 4 3 = 7#3 then (v.setWidth 4).setWidth 7 else v.setWidth 7 }) ∧
     writes 0x801 (u.zamax.setWidth 64) (fun v =>
       { u with zamax := if (v.setWidth 31).toNat ≤ 0x7F800000 then v.setWidth 31 else 0x7F800000 }) ∧
     writes 0x802 (u.zaflags.setWidth 64) (fun v => { u with zaflags := v.setWidth 3 }) ∧
     writes 0x803 (u.zdflags.setWidth 64) (fun v => { u with zdflags := v.setWidth 7 }) ∧
     writes 0x804 (u.zdctl.setWidth 64) (fun v => { u with zdctl := v.setWidth 1 }) ∧
     writes 0x805 (u.zpack.setWidth 64) (fun v => { u with zpack := v.setWidth 2 }) ∧
     writes 0x806 ((u.zrfvec ++ 0#1).setWidth 64) (fun v => { u with zrfvec := v.extractLsb' 1 63 }) ∧
     writes 0x807 u.zseed (fun v => { u with zseed := v, draw := Vector.replicate 16 0 }) ∧
     writes 0x808 (u.zsitectl.setWidth 64) (fun v => { u with zsitectl := v.setWidth 2 }) ∧
     (∀ n : Fin 16, writes (0x810 + BitVec.ofNat 12 n.val) u.zexp[n] fun v => { u with zexp := u.zexp.set n v }) ∧
     ((counterOk s 0xC00 = true → reads 0xC00 s.hart.cycle) ∧ (counterOk s 0xC01 = true → reads 0xC01 s.pkg.zaclk) ∧
       (counterOk s 0xC02 = true → reads 0xC02 s.hart.instret) ∧ reads 0xC03 0 ∧ reads 0xC1F 0 ∧
       reads 0xCC0 (if s.site = .w then 1 else 0) ∧ reads 0xCC1 (BitVec.ofNat 64 (rankOf s s.hart)) ∧
       reads 0xCC2 (BitVec.ofNat 64 (vlaneOf s s.hart)) ∧ reads 0xCC3 (BitVec.ofNat 64 (setwOf s s.hart)) ∧
       reads 0xCC4 (BitVec.ofNat 64 (teamOf s s.hart)) ∧ reads 0xCC5 (u.ztask.setWidth 64) ∧ reads 0xCC6 u.zbudget ∧
       reads 0xCC7 s.pkg.zaclk ∧ reads 0xCC8 0x0100000000003FFF ∧ reads 0xCC9 (u.zwprof.setWidth 64) ∧ reads 0xCCA s.part.dlmiss) ∧
     (s.hart.sup.mode ≠ .u → reads 0x5C0
       (BitVec.ofNat 64 (s.part.tasks * 2 ^ 42 + s.pkg.pkgId * 2 ^ 32 + s.part.wcoreNums.length * 2 ^ 16 + s.part.lcores.length * 2 ^ 8 +
         s.part.pid))) ∧
     (∀ n : Fin 16, ∃ t, exec (.base c (.csr .rs rd 0 (0xCD0 + BitVec.ofNat 12 n.val))) s = .next t ∧
       t.rx rd = (if rd = 0 then 0 else (s.chanOf n.val).cwp) ∧ RetiredTo (s.pc + s.ilen c) s t ∧ SameHart { x := [rd] } s t ∧
       SameMemory {} s t ∧ t.harts = s.harts) ∧
     (s.hart.sup.mode = .s → ∀ a : BitVec 12, 0xC03 ≤ a.toNat → a.toNat ≤ 0xC1F → ∀ op,
       runs (.csr op rd rs1 a) 0 u ∧ runs (.csrImm op rd i a) 0 u)) ∧
  (∀ (s : State) (v : Word),
     let bits (lo len : Nat) : Nat := v.toNat / 2 ^ lo % 2 ^ len
     let becomes (i : Instr) (p : Part) : Prop := exec i s = .next { s with part := p }
     let keeps (i : Instr) : Prop := exec i s = .next s
     let resident := ∃ h ∈ s.allHarts, h.car ≠ none
     let inside (a n : Nat) : Prop := areaIn s.part.ranges a n = true
     let here (a : Nat) : Prop := a / 2 ^ 47 = s.pkg.pkgId
     (∃ t, exec (.zpackWrite v) s = .next t ∧ t.part.still = s.part.still ∧
       { t with part := s.part } = { s with hart := { s.hart with u := { s.hart.u with zpack := v.setWidth 2 } } }) ∧
     becomes (.zwidthWrite v) { s.part with w32 := v.getLsbD 0 } ∧
     becomes (.csrWrite 0x5C5 v) { s.part with zage := if v.setWidth 16 = 0#16 then 1 else v.setWidth 16 } ∧
     exec (.zseedWrite v) s =
       .next { s with hart := { s.hart with u := { s.hart.u with zseed := v, draw := Vector.replicate 16 0 } } } ∧
     (∀ i : Fin 16, exec (.csrWrite (0x810 + BitVec.ofNat 12 i.val) v) s =
       .next { s with hart := { s.hart with u := { s.hart.u with zexp := s.hart.u.zexp.set i v } } }) ∧
     (∀ a : BitVec 12, 3 * 1024 ≤ a.toNat ∨ s.csrVal a.toNat = none → keeps (.csrWrite a v)) ∧
     (let size := min (bits 0 4) 11
      let len := 2 ^ (20 + size)
      let base := bits 12 44 * 4096 / len * len
      (resident ∨ ¬ inside base len → keeps (.zparkWrite v)) ∧
      (¬ resident → inside base len → becomes (.zparkWrite v) { s.part with parkBase := base, parkSize := size, parkPlaced := true })) ∧
     (let base := bits 15 41 * 0x8000
      (s.part.bindings ≠ [] ∨ ¬ inside base 0x8000 → keeps (.zrbtWrite v)) ∧
      (s.part.bindings = [] → inside base 0x8000 → becomes (.zrbtWrite v) { s.part with rbtBase := base, rbtEn := v.getLsbD 0 })) ∧
     (let q := s.part.wfq
      let size := bits 0 4
      let len := 4096 * 2 ^ size
      let base := bits 12 44 * 4096 / len * len
      let moved := base ≠ q.base ∨ size ≠ q.size
      (moved ∧ q.count ≠ 0 ∨ ¬ inside base len ∨ ¬ here base → keeps (.zwfqWrite v)) ∧
      (¬ (moved ∧ q.count ≠ 0) → inside base len → here base →
        ∃ hd, becomes (.zwfqWrite v) { s.part with wfq := { q with base := base, size := size, en := v.getLsbD 4, head := hd } } ∧
          (¬ moved → hd = q.head))) ∧
     (let q := s.part.emq
      let size := bits 0 4
      let len := 4096 + 4096 * 2 ^ size
      let base := bits 12 44 * 4096
      let moved := base ≠ q.base ∨ size ≠ q.size
      (moved ∧ q.count ≠ 0 ∨ ¬ inside base len ∨ ¬ here base → keeps (.zemqWrite v)) ∧
      (¬ (moved ∧ q.count ≠ 0) → inside base len → here base →
        ∃ hd, becomes (.zemqWrite v)
            { s.part with emq := { q with base := base, size := size, en := v.getLsbD 4, serve := v.getLsbD 5, head := hd } } ∧
          (¬ moved → hd = q.head))) ∧
     (let base := bits 10 46 * 1024
      (¬ inside base 1024 → keeps (.zhotlWrite v)) ∧
      (inside base 1024 → ∃ l n, becomes (.zhotlWrite v)
        { s.part with hotBase := base, hotIvl := bits 1 4, hotEn := v.getLsbD 0, hotCounts := l, hotClock := n })) ∧
     (let role (n : Nat) : Nat := if bits (2 * n) 2 = 3 then s.part.bankrole.toNat / 2 ^ (2 * n) % 4 else bits (2 * n) 2
      let l1 := ((List.range 32).filter fun n => role n = 0).length
      (resident ∨ l1 < 2 → keeps (.zbankroleWrite v)) ∧
      (¬ resident → 2 ≤ l1 →
        ∃ t, exec (.zbankroleWrite v) s = .next t ∧ (∀ n, n < 32 → t.part.bankrole.toNat / 2 ^ (2 * n) % 4 = role n) ∧
          (t.part.bankrole ≠ s.part.bankrole → ∀ w ∈ t.part.wcores, w.press.resvs = Vector.replicate 32 none) ∧ t.hart.u = s.hart.u)))

/-! ## The prefix (R123 to R126) -/

/-- R124, R126: a pair whose privilege and site checks pass and whose guard is true has the effect of its subject with the prefix in
force, and no prefix is left standing: it completes where its subject does. R124: a pair whose guard is false, and whose subject is no
cross-lane instruction, completes with the pc past the pair and changes nothing else; with MZ = 1 each destination register of its subject
becomes zero, whatever the subject: an x register 0, an f register the zero of its format, a predicate false, an array word, an index,
distribution or buffer register the zero of its class. -/
def Obligations.PrefixedPairs : Prop :=
  (∀ (s : State) (p : Pfx) (i : Instr), i.plain = true → s.pfx = none → privOk i s = true → (wOnly i = true → s.site = .w) →
     guardTrue (some p) s.hart.u = true →
     exec (.pfx p i) s = unlatch (exec i { s with pfx := some p }) ∧
     (∀ t, exec i { s with pfx := some p } = .next t → exec (.pfx p i) s = .next { t with pfx := none }) ∧
     ∀ op rd rs1 rs2, i = .base none (.alu op rd rs1 rs2) →
       YieldsTo (s.pc + 8) (.pfx p i) s { x := [rd] } fun t => t.rx rd = if rd = 0 then 0 else aluOf op (s.rx rs1) (s.rx rs2)) ∧
  (∀ (s : State) (p : Pfx) (i : Instr), s.pfx = none → privOk i s = true → (wOnly i = true → s.site = .w) → isCross i = false →
     guardTrue (some p) s.hart.u = false →
     let completes (R : State → State → Prop) : Prop := ∃ t, exec (.pfx p i) s = .next t ∧ R s t
     let zeroes (w : Writes) (R : State → Prop) : Prop := p.mz = true → YieldsTo (s.pc + 8) (.pfx p i) s w R
     (p.mz = false → completes fun s t => RetiredTo (s.pc + 8) s t ∧ Frame {} s t) ∧
     (p.mz = true → completes fun s t => RetiredTo (s.pc + 8) s t ∧ Frame {} (zeroDest i s) t) ∧
     (∀ op rd rs1 rs2, i = .base none (.alu op rd rs1 rs2) → zeroes { x := [rd] } fun t => t.rx rd = 0) ∧
     (∀ op rd rs1 o, i = .base none (.load op rd rs1 o) → zeroes { x := [rd] } fun t => t.rx rd = 0) ∧
     (∀ rd o, i = .base none (.jal rd o) → zeroes { x := [rd] } fun t => t.rx rd = 0) ∧
     (∀ ty fmt rd rs1 rm, i = .base none (.fcvtToInt ty fmt rd rs1 rm) → zeroes { x := [rd] } fun t => t.rx rd = 0) ∧
     (∀ op fmt rd rs1 rs2 rm, i = .base none (.farith op fmt rd rs1 rs2 rm) →
       zeroes { f := [rd] } fun t => t.rf rd = match fmt with | .s => 0xFFFFFFFF00000000 | .d => 0) ∧
     (∀ fmt rd rs1 o, i = .base none (.fload fmt rd rs1 o) →
       zeroes { f := [rd] } fun t => t.rf rd = match fmt with | .s => 0xFFFFFFFF00000000 | .d => 0) ∧
     (∀ d a b, i = .bldB d a b → zeroes { x := [d] } fun t => t.rx d = 0) ∧
       (∀ d a b, i = .jtab d a b → zeroes { x := [d] } fun t => t.rx d = 0) ∧
     (∀ d a b, i = .bldFh d a b → zeroes { f := [d] } fun t => t.rf d = 0xFFFFFFFF00000000) ∧
     (∀ d w, i = .wldDirect d w → zeroes { x := [d] } fun t => t.rx d = 0) ∧
     (∀ d a b, i = .pand d a b ∨ (∃ x y, i = .pcmpEq d x y) → predOk d = true → zeroes { p := [d] } fun t => t.rp d = false) ∧
     (∀ a, i = .pmvPx a → zeroes { p := List.ofFn fun n : Fin 16 => BitVec.ofFin n } fun t => ∀ q, t.rp q = false) ∧
     (∀ d w, i = .wmv d w → zeroes { w := [d.toNat] } fun t => t.rw d.toNat = 0) ∧
     (∀ k a b, i = .kset k a b → zeroes { k := [k] } fun t => t.rk k = ⟨0, 0⟩) ∧
     (∀ d a, i = .dmv d a → zeroes { d := [d] } fun t => t.rd d = Dist.zero) ∧
       (∀ d a, i = .dld d a → zeroes { d := [d] } fun t => t.rd d = Dist.zero) ∧
     (∀ d a, i = .bset d a → zeroes { b := [d] } fun t => t.rb d = 0))

/-! ## Predicates and jump tables (R168 to R176) -/

/-- R168, R170, R171, R172: the integer compares, the logic of predicates, the moves between predicates and x registers, PANY and PALL
complete with the value of their rule; nothing else changes.
R169: the floating-point predicate compares on the operands as R96 and DAZ32 read them, and their invalid flag: PFEQ and PFUN raise NV
on a signalling NaN alone, PFLT and PFLE on any NaN. -/
def Obligations.PredicateResult : Prop :=
  (∀ (s : State) (rd rs1 rs2 : XReg) (d a b : PReg), predOk d = true →
     let x := s.rx rs1
     let y := s.rx rs2
     let sets (i : Instr) (v : Prop) : Prop := Yields i s { p := [d] } fun t => t.rp d = true ↔ v
     (sets (.pcmpEq d rs1 rs2) (x = y) ∧ sets (.pcmpNe d rs1 rs2) (x ≠ y) ∧ sets (.pcmpLt d rs1 rs2) (x.toInt < y.toInt) ∧
       sets (.pcmpGe d rs1 rs2) (y.toInt ≤ x.toInt) ∧ sets (.pcmpLtu d rs1 rs2) (x.toNat < y.toNat) ∧
       sets (.pcmpGeu d rs1 rs2) (y.toNat ≤ x.toNat)) ∧
     (sets (.pand d a b) (s.rp a = true ∧ s.rp b = true) ∧ sets (.por d a b) (s.rp a = true ∨ s.rp b = true) ∧
       sets (.pxor d a b) (¬ (s.rp a = s.rp b)) ∧ sets (.pandn d a b) (s.rp a = true ∧ s.rp b = false) ∧
       sets (.pnot d a) (s.rp a = false)) ∧
     (Yields (.pmvXp rd) s { x := [rd] } fun t => rd ≠ 0 → ∀ n : Nat, (t.rx rd).getLsbD n = (decide (n < 12) && s.hart.u.p.getLsbD n)) ∧
     (Yields (.pmvPx rs1) s { p := List.ofFn fun n : Fin 16 => BitVec.ofFin n } fun t =>
       ∀ q : PReg, predOk q = true → t.rp q = x.getLsbD q.toNat) ∧
     (Yields (.pany rd rs1) s { x := [rd] } fun t =>
       rd ≠ 0 → t.rx rd = if ∃ q : PReg, predOk q = true ∧ s.rp q = true ∧ x.getLsbD q.toNat = true then 1 else 0) ∧
     (Yields (.pall rd rs1) s { x := [rd] } fun t =>
       rd ≠ 0 → t.rx rd = if ∀ q : PReg, predOk q = true → x.getLsbD q.toNat = true → s.rp q = true then 1 else 0)) ∧
  (∀ (s : State) (d : PReg) (a b : FReg), predOk d = true →
     let nv : BitVec 5 := 16
     let sets (i : Instr) (v : Prop) (invalid : Prop) : Prop :=
       Yields i s { p := [d], fflags := true } fun t =>
         (t.rp d = true ↔ v) ∧ (invalid → t.hart.u.fflags = s.hart.u.fflags ||| nv) ∧ (¬ invalid → t.hart.u.fflags = s.hart.u.fflags)
     let compares (fmt : Fmt) (eq lt le un : Instr) : Prop :=
       let x := s.fval fmt a
       let y := s.fval fmt b
       let nan := x.isNan = true ∨ y.isNan = true
       let snan := x.isSnan = true ∨ y.isSnan = true
       sets eq (fpEq x y = true) snan ∧
       sets lt (¬ nan ∧ fpLt x y = true) nan ∧
       sets le (¬ nan ∧ (fpLt x y = true ∨ fpEq x y = true)) nan ∧
       sets un nan snan
     compares .s (.pfeqS d a b) (.pfltS d a b) (.pfleS d a b) (.pfunS d a b) ∧
     compares .d (.pfeqD d a b) (.pfltD d a b) (.pfleD d a b) (.pfunD d a b))

/-- R174, R175: JTAB on a table in plain memory: a misaligned table raises cause 4, an index at or above COUNT cause 49, an entry whose
profile exceeds the thread's cause 48; otherwise rd takes the address behind the instruction and the pc the entry's target. -/
def Obligations.JumpTable : Prop :=
  ∀ (s : State) (rd rs1 rs2 : XReg) (hdr ent : Nat), s.myMends = [] →
    let i := s.rx rs1
    let tbl := s.rx rs2
    let entry := tbl + 16 * (i + 1)
    (tbl.toNat % 16 ≠ 0 → Traps (.jtab rd rs1 rs2) s 4 tbl) ∧
    (tbl.toNat % 16 = 0 → PlainAccess .load s tbl 4 hdr → PlainAccess .load s entry 16 ent → s.part.hotEn = false →
      (s.memNat hdr 4 ≤ i.toNat → Traps (.jtab rd rs1 rs2) s 49 i) ∧
      (i.toNat < s.memNat hdr 4 →
        let target := s.memNat ent 8
        let prof : BitVec 16 := BitVec.ofNat 16 (s.memNat (ent + 8) 2)
        let fits := profD prof ≤ profD s.hart.u.zwprof ∧ profW prof ≤ profW s.hart.u.zwprof ∧ profB prof ≤ profB s.hart.u.zwprof
        (target % 2 = 1 → Traps (.jtab rd rs1 rs2) s 49 i) ∧
        (target % 2 = 0 → ¬ fits → Traps (.jtab rd rs1 rs2) s 48 (BitVec.ofNat 64 (prof.toNat * 65536 + 1024))) ∧
        (target % 2 = 0 → fits →
          YieldsTo (BitVec.ofNat 64 target) (.jtab rd rs1 rs2) s { x := [rd] } fun t => t.rx rd = if rd = 0 then 0 else s.nextPc)))

/-! ## Cross-lane instructions (R44, R160 to R166) -/

/-- R161 to R165: in a set that stands at the instruction, each integer reduction gives every lane the same value over the lanes that give,
the scan the inclusive sum, BALLOT the mask of the lanes that give a nonzero value and GCOUNT their number; a shuffle gives each lane the
value of its source, or its own where the source is invalid, absent or guard-false.
R44, R49: a lane that reaches the instruction, or whose set is not complete at it, enters its bin anew, converging at the instruction, and
changes no register: so for every cross-lane instruction. -/
def Obligations.CrossLaneIntegerResult : Prop :=
  (∀ (s : State) (d a b : XReg), SetStands s →
     let setw := setwOf s s.hart
     let fold (op : Word → Word → Word) (ident : Word) : Word := (s.givers.map fun h => h.u.rx a).foldl op ident
     let gives (i : Instr) (v : Hart → Word) : Prop := CrossYields i s (fun h => h.u.wx d (v h)) fun u => u.wx d 0
     let shuffles (i : Instr) (src : Nat → Nat → Option Nat) : Prop :=
       gives i fun h => ((src (vlaneOf s h) (h.u.rx b).toNat).bind (s.giverAt (·.rx a))).getD (h.u.rx a)
     gives (.gsumI d a) (fun _ => fold (· + ·) 0) ∧
     gives (.gminI d a) (fun _ => fold (fun x y => if x.toInt ≤ y.toInt then x else y) 0x7FFFFFFFFFFFFFFF) ∧
     gives (.gmaxI d a) (fun _ => fold (fun x y => if x.toInt ≤ y.toInt then y else x) 0x8000000000000000) ∧
     gives (.gminu d a) (fun _ => fold (fun x y => if x.toNat ≤ y.toNat then x else y) 0xFFFFFFFFFFFFFFFF) ∧
     gives (.gmaxu d a) (fun _ => fold (fun x y => if x.toNat ≤ y.toNat then y else x) 0) ∧
     gives (.gand d a) (fun _ => fold (· &&& ·) 0xFFFFFFFFFFFFFFFF) ∧
     gives (.gor d a) (fun _ => fold (· ||| ·) 0) ∧
     gives (.gxor d a) (fun _ => fold (· ^^^ ·) 0) ∧
     gives (.gscanI d a)
       (fun h => ((s.givers.filter fun g => decide (vlaneOf s g ≤ vlaneOf s h)).map fun g => g.u.rx a).foldl (· + ·) 0) ∧
     gives (.ballot d a)
       (fun _ => BitVec.ofFnLE fun i : Fin 64 => s.givers.any fun g => vlaneOf s g == i.val && g.u.rx a != 0) ∧
     gives (.gcount d a) (fun _ => BitVec.ofNat 64 (s.givers.filter fun g => g.u.rx a != 0).length) ∧
     shuffles (.shfl d a b) (fun _ v => if v < setw then some v else none) ∧
     shuffles (.shflXor d a b) (fun me v => if v < setw then some (me ^^^ v) else none) ∧
     shuffles (.shflUp d a b) (fun me v => if v ≤ me then some (me - v) else none) ∧
     shuffles (.shflDn d a b) (fun me v => if v + me < setw then some (me + v) else none) ∧
     (∀ fd fa : FReg,
       CrossYields (.shflF fd fa b) s
         (fun h =>
           h.u.wf fd
             (((if (h.u.rx b).toNat < setw then some (h.u.rx b).toNat else none).bind (s.giverAt (·.rf fa))).getD (h.u.rf fa)))
         fun u => u.wf fd 0)) ∧
  (∀ (s : State) (ctx : Nat) (c : Car) (i : Instr), isCross i = true → s.hart.id = .wthread ctx → s.hart.car = some c →
     s.setReady = false ∨ s.converging = false →
     ∃ t, exec i s = .next t ∧ t.hart = { s.hart with car := some { c.refiled s with conv := some s.pc } } ∧
       t.mem = s.mem ∧ t.poison = s.poison ∧ t.harts = s.harts ∧ t.part.still = s.part.still ∧ t.pkg = s.pkg)

/-- R115, R116, R117, R166: a floating-point reduction gives every lane the root of the pairwise tree over the vlanes of the set, the
identity where a vlane gives nothing, with the flags of every node; the scan gives vlane i the tree over the vlanes up to i. -/
def Obligations.CrossLaneFpResult : Prop :=
  ∀ (s : State) (d a : FReg), SetStands s →
    let setw := setwOf s s.hart
    let vector (fmt : Fmt) (ident : Nat) : List Nat :=
      (List.range setw).map fun i => (s.giverAt (laneCode fmt a) i).getD ident
    let tree (fmt : Fmt) (op : Nat → Nat → FRes) (l : List Nat) : FRes := treeRes (formatOf fmt) op l
    let gives (i : Instr) (fmt : Fmt) (op : Nat → Nat → FRes) (ident : Nat) : Prop :=
      CrossYields i s (fun h => h.u.putLane fmt d (tree fmt op (vector fmt ident))) fun u => u.wf d (boxOf fmt 0)
    gives (.gsumS d a) .s (sumNode fp32) 0x80000000 ∧
    gives (.gsumD d a) .d (sumNode fp64) 0x8000000000000000 ∧
    gives (.gminS d a) .s (minmaxNode fp32 false) 0x7FC00000 ∧
    gives (.gmaxS d a) .s (minmaxNode fp32 true) 0x7FC00000 ∧
    gives (.gminD d a) .d (minmaxNode fp64 false) 0x7FF8000000000000 ∧
    gives (.gmaxD d a) .d (minmaxNode fp64 true) 0x7FF8000000000000 ∧
    CrossYields (.gscanS d a) s
      (fun h =>
        let upTo (i : Nat) : FRes :=
          tree .s (sumNode fp32) ((vector .s 0x80000000).mapIdx fun j x => if j ≤ i then x else 0x80000000)
        h.u.putLane .s d
          ⟨(upTo (vlaneOf s h)).bits, (List.range setw).foldl (fun fl i => fl ||| (upTo i).flags) 0⟩)
      fun u => u.wf d (boxOf .s 0)

/-! ## Buffer records (R59, R60, R180 to R185) -/

/-- R60, R182: an element load of plain memory through a record within the profile and an index within EXTENT gives its destination the
element at the address of R60, extended as its mnemonic says; BLD.FH widens it as WCVT.HF does, DAZ16 of zfmode applying (log 104, the
model's choice); nothing else changes.
R60, R183: an element store to plain memory through a record within the profile and an index within EXTENT writes the low bytes of its
source at the address of R60 and no byte outside them; BST.FH narrows under the effective mode, DAZ32 and FTZ16 of zfmode applying (log 104,
the model's choice), and accrues its flags and zamax. -/
def Obligations.BufferElements : Prop :=
  (∀ (s : State) (a : XReg) (b : BReg) (pa : Nat), b.toNat < profB s.hart.u.zwprof →
     let r := bufOf (s.rb b)
     let i := (s.rx a).toNat
     let va := bufAddr r i (setwOf s s.hart) (vlaneOf s s.hart)
     let reads (n : Nat) (w : Writes) (ins : Instr) (R : State → Prop) : Prop :=
       PlainAccess .load s va n pa → InLine va n → Yields ins s w R
     let gives (n : Nat) (d : XReg) (ins : Instr) (v : Word) : Prop :=
       reads n { x := [d] } ins fun t => t.rx d = if d = 0 then 0 else v
     i < r.extent →
     (∀ d : XReg,
       gives 1 d (.bldB d a b) ((BitVec.ofNat 8 (s.memNat pa 1)).signExtend 64) ∧
       gives 2 d (.bldH d a b) ((BitVec.ofNat 16 (s.memNat pa 2)).signExtend 64) ∧
       gives 4 d (.bldW d a b) ((BitVec.ofNat 32 (s.memNat pa 4)).signExtend 64) ∧
       gives 8 d (.bldD d a b) (BitVec.ofNat 64 (s.memNat pa 8)) ∧
       gives 1 d (.bldBu d a b) (BitVec.ofNat 64 (s.memNat pa 1)) ∧
       gives 2 d (.bldHu d a b) (BitVec.ofNat 64 (s.memNat pa 2)) ∧
       gives 4 d (.bldWu d a b) (BitVec.ofNat 64 (s.memNat pa 4))) ∧
     (∀ d : FReg,
       reads 4 { f := [d] } (.bldFw d a b) (fun t => t.rf d = 0xFFFFFFFF#32 ++ BitVec.ofNat 32 (s.memNat pa 4)) ∧
       reads 8 { f := [d] } (.bldFd d a b) (fun t => t.rf d = BitVec.ofNat 64 (s.memNat pa 8)) ∧
       reads 2 { f := [d], fflags := true, zaflags := true } (.bldFh d a b) (fun t =>
         let x0 := unpack fp16 (s.memNat pa 2)
         let x := if s.hart.u.daz16 then x0.daz fp16 else x0
         let v := roundFp fp32 .rne false x
         t.rf d = nanBox v.bits ∧ t.hart.u.fflags = s.hart.u.fflags ||| v.flags ∧
         t.hart.u.zaflags = s.hart.u.zaflags ||| (if x.isNan then 1 else 0)))) ∧
  (∀ (s : State) (a : XReg) (d : BReg) (pa : Nat), s.Inv → d.toNat < profB s.hart.u.zwprof →
     let r := bufOf (s.rb d)
     let i := (s.rx a).toNat
     let va := bufAddr r i (setwOf s s.hart) (vlaneOf s s.hart)
     let stores (n : Nat) (ins : Instr) (v : Word) : Prop :=
       PlainAccess .store s va n pa → InLine va n → Yields ins s { mem := some (pa, n) } fun t => Holds t pa n v
     i < r.extent →
     (∀ b : XReg, stores 1 (.bstB d a b) (s.rx b) ∧ stores 2 (.bstH d a b) (s.rx b) ∧ stores 4 (.bstW d a b) (s.rx b) ∧
       stores 8 (.bstD d a b) (s.rx b)) ∧
     (∀ b : FReg, stores 4 (.bstFw d a b) (s.rf b) ∧ stores 8 (.bstFd d a b) (s.rf b) ∧
       (∀ rm, effRnd s none = some rm → PlainAccess .store s va 2 pa → InLine va 2 →
         let code := s.dazCode .s (s.fs b)
         let n := narrowIeee fp16 rm s.hart.u.ftz16 (unpack fp32 code)
         Yields (.bstFh d a b) s { mem := some (pa, 2), fflags := true, zaflags := true, zamax := true } fun t =>
           Holds t pa 2 (BitVec.ofNat 64 n.bits) ∧ t.hart.u.fflags = s.hart.u.fflags ||| n.flags ∧
           t.hart.u.zaflags = s.hart.u.zaflags ||| n.za ∧
           t.hart.u.zamax = zamaxNext s.hart.u.zamax (unpack fp32 code) code)))

/-- R28, R60, R185: of BLD, BST and BAMO, a record at or above zwprof.B raises cause 48 with kind 3 and its number, an index at or above
EXTENT raises cause 26 with the index.
R59, R181: BSET of an aligned, well-formed record of plain memory loads it into its register, an ill-formed one raises cause 26 with word
0, a misaligned address cause 4; BGET stores the record's 16 bytes, and a misaligned address raises cause 6. -/
def Obligations.BufferRecords : Prop :=
  (∀ (s : State) (a x : XReg) (b : BReg), s.myMends = [] → myTurn s = true → effRnd s none ≠ none →
     let all (P : Instr → Prop) : Prop :=
       P (.bldB x a b) ∧ P (.bldH x a b) ∧ P (.bldW x a b) ∧ P (.bldD x a b) ∧ P (.bldBu x a b) ∧ P (.bldHu x a b) ∧ P (.bldWu x a b) ∧
       P (.bldFw x a b) ∧ P (.bldFd x a b) ∧ P (.bldFh x a b) ∧ P (.bstB b a x) ∧ P (.bstH b a x) ∧ P (.bstW b a x) ∧ P (.bstD b a x) ∧
       P (.bstFw b a x) ∧ P (.bstFd b a x) ∧ P (.bstFh b a x) ∧ P (.bamoAdd b a x) ∧ P (.bamoMin b a x) ∧ P (.bamoMax b a x) ∧
       P (.bamoAddf b a x)
     (profB s.hart.u.zwprof ≤ b.toNat → all fun i => Traps i s 48 (BitVec.ofNat 64 (3 * 256 + b.toNat))) ∧
     (b.toNat < profB s.hart.u.zwprof → (bufOf (s.rb b)).extent ≤ (s.rx a).toNat → all fun i => Traps i s 26 (s.rx a))) ∧
  (∀ (s : State) (d : BReg) (a : XReg) (pa : Nat), s.Inv → d.toNat < profB s.hart.u.zwprof →
     let va := s.rx a
     let v : BitVec 128 := BitVec.ofNat 128 (s.memNat pa 16)
     let legal := v.extractLsb' 62 2 = 0 ∧ (v.extractLsb' 57 3).toNat < 3
     (s.myMends = [] → va.toNat % 16 ≠ 0 → Traps (.bset d a) s 4 va ∧ Traps (.bget d a) s 6 va) ∧
     (va.toNat % 16 = 0 → PlainAccess .load s va 16 pa → legal → Yields (.bset d a) s { b := [d] } fun t => t.rb d = v) ∧
     (va.toNat % 16 = 0 → PlainAccess .load s va 16 pa → ¬ legal → s.part.hotEn = false →
       Traps (.bset d a) s 26 (v.extractLsb' 0 64)) ∧
     (va.toNat % 16 = 0 → PlainAccess .store s va 16 pa →
       Yields (.bget d a) s { mem := some (pa, 16) } fun t => t.memNat pa 16 = (s.rb d).toNat))

/-- R184: an atomic on an aligned element of plain memory replaces it by the sum modulo its width, the signed minimum or maximum, or the sum
rounded to nearest even of FP32 or FP64; no register changes. A misaligned element raises cause 6 with its address, and then BAMO.ADDF on
an element of 1 or 2 bytes cause 26 with word 0 of the record. -/
def Obligations.BufferAtomicResult : Prop :=
  ∀ (s : State) (a : XReg) (d : BReg) (pa : Nat), s.Inv → myTurn s = true → d.toNat < profB s.hart.u.zwprof →
    let r := bufOf (s.rb d)
    let n := 2 ^ r.esz
    let va := bufAddr r (s.rx a).toNat (setwOf s s.hart) (vlaneOf s s.hart)
    let old := s.memNat pa n
    let updates (i : Instr) (v : Nat) : Prop := Yields i s { mem := some (pa, n) } fun t => t.memNat pa n = v % 2 ^ (8 * n)
    (s.rx a).toNat < r.extent →
    (va.toNat % n ≠ 0 → s.myMends = [] → ∀ b,
      Traps (.bamoAdd d a b) s 6 va ∧ Traps (.bamoMin d a b) s 6 va ∧ Traps (.bamoMax d a b) s 6 va ∧ Traps (.bamoAddf d a b) s 6 va) ∧
    (va.toNat % n = 0 → r.esz < 2 → s.myMends = [] → ∀ b, Traps (.bamoAddf d a b) s 26 ((s.rb d).extractLsb' 0 64)) ∧
    (va.toNat % n = 0 → PlainAccess .store s va n pa → NoPrivate s pa n →
    (∀ b : XReg,
      let v := (s.rx b).toNat % 2 ^ (8 * n)
      updates (.bamoAdd d a b) (old + v) ∧
      updates (.bamoMin d a b) (if signedOf n v < signedOf n old then v else old) ∧
      updates (.bamoMax d a b) (if signedOf n old < signedOf n v then v else old)) ∧
    (∀ b : FReg,
      (r.esz = 2 → updates (.bamoAddf d a b) (fpAdd fp32 .rne false (unpack fp32 old) (unpack fp32 (s.fs b))).bits) ∧
      (r.esz = 3 → updates (.bamoAddf d a b) (fpAdd fp64 .rne false (unpack fp64 old) (unpack fp64 (s.fd b))).bits)))

/-! ## The array file (R62, R186, R187) -/

/-- R62, R186: WLD, WST, WLDF, WSTF, WMV and WMVW move array words as their rows say when every word they name is within the profile, and
an index at or above LEN raises cause 25; the one word outside the profile that an instruction names raises cause 48 with kind 2.
R187: KSET sets the base and the length of its index register when the base is at most 63 and their exact sum within zwprof.W, and raises
cause 48 with kind 2 and the sum, held to 255, otherwise. -/
def Obligations.ArrayMoves : Prop :=
  (∀ (s : State) (w : WIdx) (k : KReg) (a : XReg),
     let profile := profW s.hart.u.zwprof
     let i := (s.rx a).toNat
     let n := (s.rk k).base.toNat + i
     let sext (v : BitVec 32) : Word := v.signExtend 64
     (w.toNat < profile →
       (∀ d : XReg, Yields (.wldDirect d w) s { x := [d] } (fun t => t.rx d = if d = 0 then 0 else sext (s.rw w.toNat)) ∧
         Yields (.wstDirect d w) s { w := [w.toNat] } (fun t => t.rw w.toNat = (s.rx d).setWidth 32)) ∧
       (∀ d : FReg, Yields (.wldfDirect d w) s { f := [d] } (fun t => t.rf d = 0xFFFFFFFF#32 ++ s.rw w.toNat) ∧
         Yields (.wstfDirect d w) s { w := [w.toNat] } (fun t => t.rw w.toNat = (s.rf d).setWidth 32)) ∧
       (∀ v : WIdx, v.toNat < profile → Yields (.wmv w v) s { w := [w.toNat] } fun t => t.rw w.toNat = s.rw v.toNat) ∧
       (∀ d : XReg, w.toNat + 1 < profile →
         Yields (.wmvw d w) s { x := [d] } fun t => t.rx d = if d = 0 then 0 else s.rw (w.toNat + 1) ++ s.rw w.toNat)) ∧
     (i < (s.rk k).len.toNat → n < profile → n < 64 →
       (∀ d : XReg, Yields (.wldIndexed d k a) s { x := [d] } (fun t => t.rx d = if d = 0 then 0 else sext (s.rw n)) ∧
         Yields (.wstIndexed d k a) s { w := [n] } (fun t => t.rw n = (s.rx d).setWidth 32)) ∧
       (∀ d : FReg, Yields (.wldfIndexed d k a) s { f := [d] } (fun t => t.rf d = 0xFFFFFFFF#32 ++ s.rw n) ∧
         Yields (.wstfIndexed d k a) s { w := [n] } (fun t => t.rw n = (s.rf d).setWidth 32))) ∧
     (s.myMends = [] → (s.rk k).len.toNat ≤ i → ∀ d,
       Traps (.wldIndexed d k a) s 25 (s.rx a) ∧ Traps (.wstIndexed d k a) s 25 (s.rx a) ∧ Traps (.wldfIndexed d k a) s 25 (s.rx a) ∧
       Traps (.wstfIndexed d k a) s 25 (s.rx a)) ∧
     (s.myMends = [] → i < (s.rk k).len.toNat → profile ≤ n → n < 256 →
       let outside (i : Instr) : Prop := Traps i s 48 (BitVec.ofNat 64 (2 * 256 + n))
       ∀ d, outside (.wldIndexed d k a) ∧ outside (.wstIndexed d k a) ∧ outside (.wldfIndexed d k a) ∧ outside (.wstfIndexed d k a)) ∧
     (s.myMends = [] →
       let outside (m : Nat) (i : Instr) : Prop := Traps i s 48 (BitVec.ofNat 64 (2 * 256 + m))
       (profile ≤ w.toNat → ∀ d,
         outside w.toNat (.wldDirect d w) ∧ outside w.toNat (.wstDirect d w) ∧ outside w.toNat (.wldfDirect d w) ∧
         outside w.toNat (.wstfDirect d w) ∧
         ∀ v : WIdx, v.toNat < profile → outside w.toNat (.wmv w v) ∧ outside w.toNat (.wmv v w)) ∧
       (w.toNat < profile → profile ≤ w.toNat + 1 → ∀ d, outside (w.toNat + 1) (.wmvw d w)))) ∧
  (∀ (s : State) (k : KReg) (a b : XReg),
     let base := (s.rx a).toNat
     let len := (s.rx b).toNat
     let legal := base ≤ 63 ∧ base + len ≤ profW s.hart.u.zwprof
     (legal → Yields (.kset k a b) s { k := [k] } fun t =>
       (t.rk k).base = (s.rx a).setWidth 6 ∧ (t.rk k).len = (s.rx b).setWidth 7) ∧
     (¬ legal → s.myMends = [] → Traps (.kset k a b) s 48 (BitVec.ofNat 64 (2 * 256 + min (base + len) 255))))

/-! ## Sync objects (R70 to R76, R188 to R197) -/

/-- R73, R191, R192, R194: REL and BARARR on an aligned object of plain memory carry the thread's dirty bytes of the object's regions home
and then raise word 0 by one; BARARR adds its amount to word 3, sets word 1 to word 3 divided by word 2, and gives rd the phase before;
words 1 to 3 stay where the amount is 0. -/
def Obligations.ReleaseCarriesBytes : Prop :=
  ∀ (s : State) (d a b : XReg) (pa : Nat), s.Inv → s.poison = [] → s.hart.dropped = none → Settled s pa →
    (∀ x ∈ s.carried pa, ¬ (pa ≤ x.pa ∧ x.pa < pa + 32)) →
    let va := s.rx a
    let amount := (s.rx b).toNat
    let w1 := s.objWord pa 1
    let w2 := s.objWord pa 2
    let w3 := s.objWord pa 3
    va.toNat % 32 = 0 → PlainAccess .store s va 32 pa →
    (∃ t, exec (.rel a) s = .next t ∧ RetiredTo s.nextPc s t ∧ SameHart {} s t ∧ Released pa s t ∧
      t.objWord pa 1 = w1 ∧ t.objWord pa 2 = w2 ∧ t.objWord pa 3 = w3) ∧
    (∃ t, exec (.bararr d a b) s = .next t ∧ RetiredTo s.nextPc s t ∧ SameHart { x := [d] } s t ∧ Released pa s t ∧
      t.rx d = (if d = 0 then 0 else w1) ∧ t.objWord pa 2 = w2 ∧
      (amount = 0 → t.objWord pa 1 = w1 ∧ t.objWord pa 3 = w3) ∧
      (amount ≠ 0 → t.objWord pa 3 = w3 + BitVec.ofNat 64 amount ∧
        (t.objWord pa 1).toNat = (w3 + BitVec.ofNat 64 amount).toNat / (if w2 = 0 then 1 else w2.toNat)))

/-- R74, R191, R195: ACQ, and BARWAIT once word 1 has reached its target, discard the thread's clean copies of the object's regions, keep
its dirty bytes and change no memory; ACQ gives rd word 0; a BARWAIT whose target is not reached waits, and one whose wait an arrival has
ended acquires whatever word 1 is then. -/
def Obligations.AcquireDropsCopies : Prop :=
  ∀ (s : State) (d a b : XReg) (pa : Nat), s.hart.dropped = none →
    let va := s.rx a
    let acquires (i : Instr) (w : Writes) (R : State → Prop) : Prop :=
      ∃ t, exec i s = .next t ∧ RetiredTo s.nextPc s t ∧ SameHart w s t ∧ Acquired pa s t ∧ t.mem = s.mem ∧ t.poison = s.poison ∧
        t.harts = s.harts ∧ (∀ x, x.dirty = true → (x ∈ t.part.priv ↔ x ∈ s.part.priv)) ∧ R t
    va.toNat % 32 = 0 → PlainAccess .load s va 32 pa →
    acquires (.acq d a) { x := [d] } (fun t => t.rx d = if d = 0 then 0 else s.objWord pa 0) ∧
    ((s.rx b).toNat ≤ (s.objWord pa 1).toNat → acquires (.barwait a b) {} fun _ => True) ∧
    (s.hart.resume = some (.barwait pa (s.rx b)) → acquires (.barwait a b) {} fun _ => True) ∧
    (s.hart.resume ≠ some (.barwait pa (s.rx b)) → (s.objWord pa 1).toNat < (s.rx b).toNat →
      Waits (.barwait a b) s (.barwait pa (s.rx b)))

/-- R193, R196: BARINIT sets word 1 to 0, word 2 to its count (1 for 0) and word 3 to 0, word 0 standing, and makes the threads that wait on the
object for a phase that has ended runnable; BARTEST gives rd 1 exactly when word 1 is at least its target.
R188: of the instructions that name a sync object, a misaligned one raises cause 6, a window address cause 7 at the W-site (SOBIND: where its
descriptor can be read, the record being read first by the model's reading, log 40). -/
def Obligations.BarrierObjectWords : Prop :=
  (∀ (s : State) (d a b : XReg) (pa : Nat), s.Inv →
     let va := s.rx a
     va.toNat % 32 = 0 →
     (PlainAccess .store s va 32 pa →
       ∃ t, exec (.barinit a b) s = .next t ∧ RetiredTo s.nextPc s t ∧
         Frame { mem := some (pa + 8, 24) } { s with harts := s.harts.map (s.wakeOne pa) } t ∧
         t.objWord pa 0 = s.objWord pa 0 ∧ t.objWord pa 1 = 0 ∧ t.objWord pa 2 = (if s.rx b = 0 then 1 else s.rx b) ∧
         t.objWord pa 3 = 0) ∧
     (∀ (h : Hart) (target : Word), h.wait = some (.barwait pa target) →
       (target.toNat ≤ (s.objWord pa 1).toNat → (s.wakeOne pa h).wait = none ∧ (s.wakeOne pa h).resume = h.wait ∧ (s.wakeOne pa h).u = h.u) ∧
       ((s.objWord pa 1).toNat < target.toNat → s.wakeOne pa h = h)) ∧
     (PlainAccess .load s va 32 pa → PlainAccess .load s (va + 8) 8 (pa + 8) →
       Yields (.bartest d a b) s { x := [d] } fun t =>
         t.rx d = if d ≠ 0 ∧ (s.rx b).toNat ≤ (s.objWord pa 1).toNat then 1 else 0)) ∧
  (∀ (s : State) (d a b : XReg), s.myMends = [] → s.hart.dropped = none →
     let reads := ∃ rec, (s.rx b).toNat % 16 = 0 ∧ PlainAccess .load s (s.rx b) 16 rec ∧ s.part.hotEn = false
     let all (P : Instr → Prop) : Prop :=
       (reads → P (.sobind d b a)) ∧ P (.vpub a) ∧ P (.vfin a) ∧ P (.vacq d a) ∧ P (.vchk d a) ∧ P (.vsub d a) ∧
       P (.sounbind d b a) ∧ P (.acq d a) ∧ P (.rel a) ∧ P (.barinit a b) ∧ P (.bararr d a b) ∧ P (.barwait a b) ∧ P (.bartest d a b)
     ((s.rx a).toNat % 32 ≠ 0 → all fun i => Traps i s 6 (s.rx a)) ∧
     ((s.rx a).toNat % 32 = 0 → windowOff (s.rx a) ≠ none → s.site = .w → all fun i => Traps i s 7 (s.rx a)))

/-- R70, R189: SOBIND gives rd the status 2 for an ill-formed descriptor, else 3 for a region that overlaps a bound one of the address space,
else 1 where bindings are disabled or 1,024 are held, else 0; with status 0 alone the region is bound to the object, and no byte of memory
changes (the table of R71 is held outside memory: log 103, the model's choice).
R190: SOUNBIND releases its object: word 0 is one higher, and the thread's dirty bytes of the object's regions are at their homes. Of a bound
region it then gives rd 0, removes exactly its binding, brings the dirty bytes of every thread home and leaves no private byte of it with any
thread; with no such binding it gives 1 and the bindings stand. No other byte of memory changes. (The bytes: where no stash window maps the
region, and each home is that of one dirty byte, outside the object.) -/
def Obligations.RegionBindings : Prop :=
  (∀ (s : State) (d a b : XReg) (rec obj : Nat), s.hart.dropped = none → (s.rx a).toNat % 16 = 0 → (s.rx b).toNat % 32 = 0 →
     PlainAccess .load s (s.rx a) 16 rec → PlainAccess .load s (s.rx b) 32 obj →
     let base : Word := BitVec.ofNat 64 (s.memNat rec 8)
     let len := s.memNat (rec + 8) 4
     let last := s.memNat (rec + 12) 4
     let asid := asidOf s.hart
     let illegal := base.toNat % 64 ≠ 0 ∨ len = 0 ∨ 2 ^ 26 < len ∨ 2 ≤ last
     let overlaps := ∃ g ∈ s.part.bindings, g.asid = asid ∧ g.base.toNat < base.toNat + 64 * len ∧ base.toNat < g.base.toNat + 64 * g.len64
     let full := s.part.rbtEn = false ∨ 1024 ≤ s.part.bindings.length
     let keeps (v : Word) : Prop := Yields (.sobind d a b) s { x := [d] } fun t => t.rx d = if d = 0 then 0 else v
     (illegal → keeps 2) ∧ (¬ illegal → overlaps → keeps 3) ∧ (¬ illegal → ¬ overlaps → full → keeps 1) ∧
     (¬ illegal → ¬ overlaps → ¬ full →
       YieldsPart (.sobind d a b) s { x := [d] }
         (fun p => { p with bindings := p.bindings ++ [⟨asid, base, len, decide (last = 1), obj⟩] }) fun t => t.rx d = 0)) ∧
  (∀ (s : State) (d a b : XReg) (obj : Nat), s.hart.dropped = none → (s.rx b).toNat % 32 = 0 → PlainAccess .store s (s.rx b) 32 obj →
     let matching (g : Binding) : Prop := g.asid = asidOf s.hart ∧ g.base = s.rx a ∧ g.obj = obj
     let returns (mine : PrivByte → Bool) (t : State) : Prop :=
       let out := s.part.priv.filter fun p => p.dirty && mine p
       s.Inv → s.poison = [] → Settled s obj → (∀ p ∈ out, ¬ (obj ≤ p.pa ∧ p.pa < obj + 32)) →
         t.objWord obj 0 = s.objWord obj 0 + 1 ∧ (∀ p ∈ out, (∀ q ∈ out, q.pa = p.pa → q = p) → t.byte p.pa = p.val) ∧
         ∀ a, (∀ p ∈ out, p.pa ≠ a) → (a < obj ∨ obj + 8 ≤ a) → t.byte a = s.byte a
     let released (p : PrivByte) : Bool := p.who == s.who && p.obj == obj
     (∀ g ∈ s.part.bindings, matching g → (∀ h ∈ s.part.bindings, matching h → h = g) →
       ∃ t, exec (.sounbind d a b) s = .next t ∧ RetiredTo s.nextPc s t ∧ SameHart { x := [d], resv := true, watch := true } s t ∧
         t.rx d = 0 ∧ t.part.bindings = s.part.bindings.filter (fun h => h ≠ g) ∧ (∀ p ∈ t.part.priv, g.owns p = false) ∧
         ((∀ tm ∈ s.part.teams, ∀ w ∈ tm.windows, g.holds w = false) → returns (fun p => released p || g.owns p) t)) ∧
     ((∀ g ∈ s.part.bindings, ¬ matching g) →
       ∃ t, exec (.sounbind d a b) s = .next t ∧ RetiredTo s.nextPc s t ∧ SameHart { x := [d] } s t ∧
         t.rx d = (if d = 0 then 0 else 1) ∧ t.part.bindings = s.part.bindings ∧ returns released t))

/-! ## Monitors and waits (R47, R91, R198) -/

/-- R91, R198: MWATCH arms the watch on the 128-byte line of its address; MWAIT returns at once with no watch, or with a written line, which
disarms the watch, and waits otherwise.
R91: a waiting MWAIT ends when its line has been written, and may end with no event; its watch is then disarmed. -/
def Obligations.MonitorWatchAndWakes : Prop :=
  (∀ (s : State) (a : XReg) (pa : Nat) (line : Nat),
     (PlainAccess .load s (s.rx a) 1 pa → Yields (.mwatch a) s { watch := true } fun t => t.hart.watch = some ⟨pa / 128, false⟩) ∧
     (s.hart.watch = none → Yields .mwait s {} fun t => t.hart.watch = none) ∧
     (s.hart.watch = some ⟨line, true⟩ → Yields .mwait s { watch := true } fun t => t.hart.watch = none) ∧
     (s.hart.watch = some ⟨line, false⟩ → Waits .mwait s .mwait)) ∧
  (∀ (s : State) (h : HartId) (x : Hart), s.hart? h = some x → x.wait = some .mwait →
     let ends (e : Instr) : Prop :=
       ∃ t g, exec e s = .next t ∧ t.hart? h = some g ∧ g = { x with wait := none, watch := none, resume := some .mwait, car := g.car } ∧
         (∀ k, k ≠ h → t.hart? k = s.hart? k) ∧ t.mem = s.mem ∧ t.part = s.part ∧ t.pkg = s.pkg
     (∀ line, x.watch = some ⟨line, true⟩ → ends (.mwaitWake h)) ∧
     (∀ line, x.watch = some ⟨line, false⟩ → exec (.mwaitWake h) s = .next s) ∧
     ends (.mwaitSpuriousReturn h))

/-- R47, R66, R156, R195, R200, R202, R203, R216, R218, R221, R233: each wait ends at its event exactly when what it waits for has come:
the phase of a barrier object or of a team barrier, a copy ticket or the thread's copies, room on the copy engine, the drain of the
thread's mending entries, room in the mending buffer or in the Press's queue, a Press ticket, releasing reservations freed, a queue empty
of the commands issued before the instruction. -/
def Obligations.WaitsEnd : Prop :=
  ∀ (s : State) (h : HartId) (x : Hart), s.hart? h = some x →
    let ends (e : Instr) (w : Wait) (p : Prop) : Prop := x.wait = some w → WakesWhen e h s p
    (∀ obj target, ends (.barwaitWake h) (.barwait obj target) (target.toNat ≤ (s.objWord obj 1).toNat)) ∧
    (∀ n b, s.barView (whoOf x) n = some b → ends (.tbarWake h) (.tbar n) (b.arriving = false ∧ (b.pending = false ∨ b.mine ≠ b.bar.phase))) ∧
    (∀ ticket, ends (.xcwaitWake h) (.xcwait ticket) (s.copyStatus ticket ≠ 4)) ∧
    ends (.xcwaitWake h) .xcfence (s.copyPending (whoOf x) = false) ∧
    (∀ bs, ends (.copyEngineRoom h) (.copyRoom bs) (s.inFlight (engineOf x) < 256)) ∧
    ends (.drainComplete h) .drain ((s.focus x.id).myMends = []) ∧
    (∀ ticket, ends (.mxwaitWake h) (.mxwait ticket) (s.pressStatus ticket ≠ 4)) ∧
    (∀ w n, ends (.mxsaveQueueEmpty h) (.pressIdle w n) (∀ c, s.wcore? w = some c → ∀ k ∈ c.press.queue, n < k.no)) ∧
    (∀ k c, x.car = some k → s.wcore? k.core = some c →
      ends (.mendingBufferRoom h) .mendRoom (c.mend.length < 256) ∧
      ends (.pressCommandQueueRoom h) .pressRoom (c.press.queue.length < 64) ∧
      (∀ bs, ends (.obresStallEnd h) (.obres bs) (c.press.overlaps true (resvLin (obRecOf bs).base) (obRecOf bs).len = false)))

/-! ## Copies (R87 to R90, R199 to R205) -/

/-- R199, R200: XCOPY of a legal request in plain memory gives rd its ticket, the engine, the next sequence number and the channel, and
puts the request last in its channel; a misaligned request raises cause 4, one that breaks a limit cause 51, and with 256 requests in
flight the instruction waits and then issues the bytes it has read. R202, R203: XCQRY gives a ticket's status and never waits; XCWAIT
waits while it is pending, gives it otherwise, and raises cause 51 with the stop address for a fault not yet reported to the thread;
XCFENCE
waits while a request of the thread is in flight and reports the oldest fault not yet reported, by the order in which the faults arose (log 79,
the model's choice). A fault counts as reported when its cause 51 is taken: at the W-site cause 30 goes first where a mended store has been
dropped (R30). -/
def Obligations.CopyRequests : Prop :=
  (∀ (s : State) (d a : XReg) (rec : Nat), s.hart.dropped = none →
     let va := s.rx a
     let e := engineOf s.hart
     let acts (bs : List Byte) : Prop :=
       let ch := recNat bs 40 1
       (reqLegal s bs = false → Traps (.xcopy d a) s 51 va) ∧
       (reqLegal s bs = true → 256 ≤ s.inFlight e → Waits (.xcopy d a) s (.copyRoom bs)) ∧
       (∀ c, reqLegal s bs = true → s.inFlight e < 256 → s.chan? e ch = some c →
         ∃ t, exec (.xcopy d a) s = .next t ∧ RetiredTo s.nextPc s t ∧ SameHart { x := [d] } s t ∧ SameMemory {} s t ∧
           t.harts = s.harts ∧
           t.rx d = (if d = 0 then 0 else BitVec.ofNat 64 (e * 2 ^ 48 + (c.seq + 1) * 16 + ch)) ∧
           t.chan? e ch =
             some { c with
               seq := c.seq + 1, queue := c.queue ++ [{ reqOf s bs with seq := c.seq + 1 }]
               newest := (s.who, c.seq + 1) :: c.newest.filter fun x => x.1 != s.who } ∧
           (∀ e' ch', (e', ch') ≠ (e, ch) → t.chan? e' ch' = s.chan? e' ch'))
     ((∀ bs, s.hart.resume ≠ some (.copyRoom bs)) →
       (s.myMends = [] → va.toNat % 64 ≠ 0 → Traps (.xcopy d a) s 4 va) ∧
       (va.toNat % 64 = 0 → PlainAccess .load s va 64 rec → s.part.hotEn = false → acts (s.bytes rec 64))) ∧
     (∀ bs, s.hart.resume = some (.copyRoom bs) → s.myMends = [] → acts bs)) ∧
  (∀ (s : State) (d a : XReg),
     let ticket := s.rx a
     let status := s.copyStatus ticket
     let gives (i : Instr) (v : Word) : Prop :=
       ∃ t, exec i s = .next t ∧ RetiredTo s.nextPc s t ∧ SameHart { x := [d] } s t ∧ SameMemory {} s t ∧ t.harts = s.harts ∧
         t.rx d = if d = 0 then 0 else v
     Yields (.xcqry d a) s { x := [d] } (fun t => t.rx d = if d = 0 then 0 else BitVec.ofNat 64 status) ∧
     (status = 4 → Waits (.xcwait d a) s (.xcwait ticket)) ∧
     (status ≠ 4 → (status = 1 → s.unreported ticket = none) → gives (.xcwait d a) (BitVec.ofNat 64 status)) ∧
     (∀ f, status = 1 → s.unreported ticket = some f → s.myMends = [] →
       exec (.xcwait d a) s =
         .next (((if s.site = .l ∨ s.hart.dropped = none then s.modChan (field ticket 48 9) (field ticket 0 4) fun c =>
           { c with faults := c.faults.map fun g => if g = f then { g with reported := true } else g } else s)).takeTrap 51 s.pc f.stop)) ∧
     (s.copyPending s.who = true → Waits .xcfence s .xcfence) ∧
     (s.copyPending s.who = false → (∀ x ∈ s.chansAll, ∀ f ∈ x.2.2.faults, f.who = s.who → f.reported = true) →
       ∃ t, exec .xcfence s = .next t ∧ RetiredTo s.nextPc s t ∧ SameHart {} s t ∧ SameMemory {} s t ∧ t.harts = s.harts) ∧
     (∀ f, s.copyPending s.who = false → s.myMends = [] →
       oldestFault (s.chansAll.flatMap fun x => x.2.2.faults.filter fun g => g.who == s.who && !g.reported) = some f →
       ∃ t : State, exec .xcfence s = .next (t.takeTrap 51 s.pc f.stop) ∧ t.hart = s.hart ∧ t.mem = s.mem ∧
         (s.site = .l ∨ s.hart.dropped = none → ∀ x ∈ s.chansAll, ∃ c : Chan, t.chan? x.1 x.2.1 = some c ∧
           c.faults = x.2.2.faults.map fun g => if g.who = s.who then { g with reported := true } else g)))

/-- R87, R88, R89: a channel of a running engine writes the next row of its head request: for a row that lies in one page of memory at its
source and at its destination, the destination bytes take the source's, no other byte changes, and the channel's count grows by the row's
length; a request whose rows are all written leaves the channel with status 0; one that names a barrier object in memory first arrives on it with
its bytes: word 0 counts one, word 3 the bytes, word 1 becomes word 3 divided by word 2, and what it wrote goes with a release of that object. -/
def Obligations.CopyRowAndCompletion : Prop :=
  ∀ (s : State) (e ch : Nat) (c : Chan) (r : Req) (rest : List Req), s.Inv → s.chan? e ch = some c → c.queue = r :: rest →
    s.engineRuns e = true →
    let src := r.src + BitVec.ofNat 64 (r.row * r.spitch)
    let dst := r.dst + BitVec.ofNat 64 (r.row * r.dpitch)
    (∀ sp dp, r.row < r.rows → 0 < r.rowlen → src.toNat % 4096 + r.rowlen ≤ 4096 → dst.toNat % 4096 + r.rowlen ≤ 4096 →
      windowOff src = none → windowOff dst = none → s.part.bindings = [] → s.part.priv = [] → s.poison = [] → s.part.hotEn = false →
      r.olds = [] → walkOf s r.xmode .load src = .ok sp none → walkOf s r.xmode .store dst = .ok dp none →
      s.physOk sp r.rowlen = true → s.physOk dp r.rowlen = true → s.inTable dp r.rowlen = false →
      (sp + r.rowlen ≤ dp ∨ dp + r.rowlen ≤ sp) →
      ∃ t c' r', exec (.copyRequestPerform e ch) s = .next t ∧ t.bytes dp r.rowlen = s.bytes sp r.rowlen ∧
        (∀ a, (a < dp ∨ dp + r.rowlen ≤ a) → t.byte a = s.byte a) ∧ t.chan? e ch = some c' ∧ c'.queue = r' :: rest ∧
        r'.row = r.row + 1 ∧ r'.seq = r.seq ∧ c'.cwp = c.cwp + BitVec.ofNat 64 r.rowlen ∧ c'.seq = c.seq ∧ c'.status = c.status ∧
        SameHart { resv := true, watch := true } s t) ∧
    (r.rows ≤ r.row → r.barrier = 0 →
      ∃ t, exec (.copyCompletion e ch) s = .next t ∧ t.mem = s.mem ∧ t.hart = s.hart ∧ t.harts = s.harts ∧
        t.chan? e ch = some { c with queue := rest, status := ((r.seq, 0) :: c.status).take 1024 } ∧
        (∀ e' ch', (e', ch') ≠ (e, ch) → t.chan? e' ch' = s.chan? e' ch')) ∧
    (∀ obj, r.rows ≤ r.row → r.barrier ≠ 0 → 0 < r.rows * r.rowlen → walkOf s r.xmode .store r.barrier = .ok obj none →
      s.physOk obj 32 = true → s.inTable obj 32 = false → s.poison = [] → s.bindingAt r.asid r.barrier.toNat = none →
      let n := s.objWord obj 3 + BitVec.ofNat 64 (r.rows * r.rowlen)
      let w2 := s.objWord obj 2
      ∃ t, exec (.copyCompletion e ch) s = .next t ∧ t.objWord obj 0 = s.objWord obj 0 + 1 ∧ t.objWord obj 3 = n ∧
        (t.objWord obj 1).toNat = n.toNat / (if w2 = 0 then 1 else w2.toNat) ∧ t.objWord obj 2 = w2 ∧
        (∀ a, (a < obj ∨ obj + 32 ≤ a) → t.byte a = s.byte a) ∧ SameHart { resv := true, watch := true } s t ∧
        t.chan? e ch = some { c with queue := rest, status := ((r.seq, 0) :: c.status).take 1024 } ∧
        t.part.copyRel = s.part.copyRel ++ r.out.map fun x => (obj, x.1, x.2))

/-! ## Stash windows (R84 to R86, R206, R207) -/

/-- R206: SMAP gives rd −1 without a team, else −2 with 16 windows, else −3 for an ill-formed record or a range outside one stash bank, else
−4 for a span that no bound stash region covers, else −5 for an overlap of a mapped span, in this order; otherwise the lowest free window
number, and the window is mapped. SUNMAP of a window of the team gives 0 and unmaps it, of another number −1; SFLUSH leaves no dirty byte
in the windows it names.
R85, R207: both write the dirty bytes of the windows they name to their homes, and no other byte of memory. (Of SMAP the statement takes a
stash range that overlaps no mapped window's.) -/
def Obligations.StashWindows : Prop :=
  ∀ (s : State) (d a : XReg) (rec w : Nat) (c : WCore), Resides s w c →
    let base : Word := BitVec.ofNat 64 (s.memNat rec 8)
    let len := s.memNat (rec + 8) 4
    let off := s.memNat (rec + 12) 4
    let asid := asidOf s.hart
    let keeps (i : Instr) (v : Word) : Prop := Yields i s { x := [d] } fun t => t.rx d = if d = 0 then 0 else v
    let dirtyOf (ws : List Window) : List (Nat × Byte) :=
      ws.flatMap fun x => x.granules.flatMap fun g => g.dirty.map fun o => (g.pa + o.1, c.sramByte (x.off + 128 * g.idx + o.1))
    let home (tm : Team) (ws : List Window) (t : State) : Prop :=
      s.Inv → s.poison = [] → tm.wcore = w →
        (∀ b ∈ dirtyOf ws, (∀ b' ∈ dirtyOf ws, b'.1 = b.1 → b' = b) → t.byte b.1 = b.2) ∧
        ∀ p, (∀ b ∈ dirtyOf ws, b.1 ≠ p) → t.byte p = s.byte p
    ((s.rx a).toNat % 16 = 0 → PlainAccess .load s (s.rx a) 16 rec →
      (s.memberOf s.who = none → keeps (.smap d a) (-1)) ∧
      (∀ m tm, s.memberOf s.who = some m → s.team? m.team = some tm → (∀ x ∈ tm.windows, overlap x.off x.len off len = false) →
        let full := 16 ≤ tm.windows.length
        let bad := base.toNat % 128 ≠ 0 ∨ len % 128 ≠ 0 ∨ len = 0 ∨ off % 128 ≠ 0 ∨ stashRange s off len = false
        let covered := ∃ g ∈ s.part.bindings, g.asid = asid ∧ g.stash = true ∧ g.base.toNat ≤ base.toNat ∧
          base.toNat + len ≤ g.base.toNat + 64 * g.len64
        let taken := ∃ x ∈ tm.windows, overlap x.base.toNat x.len base.toNat len = true
        (full → keeps (.smap d a) (-2)) ∧ (¬ full → bad → keeps (.smap d a) (-3)) ∧ (¬ full → ¬ bad → ¬ covered → keeps (.smap d a) (-4)) ∧
        (¬ full → ¬ bad → covered → taken → keeps (.smap d a) (-5)) ∧
        (¬ full → ¬ bad → covered → ¬ taken →
          ∃ t n g, exec (.smap d a) s = .next t ∧ RetiredTo s.nextPc s t ∧ SameHart { x := [d] } s t ∧ SameMemory {} s t ∧
            t.harts = s.harts ∧ s.bindingAt asid base.toNat = some g ∧ (∀ x ∈ tm.windows, x.num ≠ n) ∧
            (∀ k, k < n → ∃ x ∈ tm.windows, x.num = k) ∧ t.rx d = (if d = 0 then 0 else BitVec.ofNat 64 n) ∧
            t.team? m.team = some { tm with windows := tm.windows ++ [⟨n, base, len, off, g.obj, asid, []⟩] }))) ∧
    (s.myWindow (s.rx a) = none → keeps (.sunmap d a) (-1)) ∧
    (∀ tm x, s.myWindow (s.rx a) = some (tm, x) →
      ∃ t, exec (.sunmap d a) s = .next t ∧ RetiredTo s.nextPc s t ∧ SameHart { x := [d], resv := true, watch := true } s t ∧
        t.rx d = 0 ∧ home tm (tm.windows.filter fun y => y.num == x.num) t ∧ ∃ tm', t.team? tm.num = some tm' ∧
          tm'.windows = tm.windows.filter fun y => y.num != x.num) ∧
    (∀ m tm, s.memberOf s.who = some m → s.team? m.team = some tm →
      ∃ t tm', exec (.sflush a) s = .next t ∧ RetiredTo s.nextPc s t ∧ SameHart { resv := true, watch := true } s t ∧
        t.team? m.team = some tm' ∧ home tm (tm.windows.filter fun y => s.rx a == -1 || y.num == (s.rx a).toNat) t ∧
        tm'.windows.map Window.num = tm.windows.map Window.num ∧
        ∀ x ∈ tm'.windows, (s.rx a = -1 ∨ x.num = (s.rx a).toNat) → ∀ g ∈ x.granules, g.dirty = [])

/-! ## The Press (R210 to R235) -/

/-- R214, R216, R217: OBRES gives rd −2 for an illegal record, else −3 where the range overlaps a held reservation, else waits where it
overlaps a releasing one, else −1 with no free id, else the lowest free id, which the reservation takes; one that has waited goes on with
the record it has read, and a misaligned record raises cause 4; OBREL of a held one frees it, or
leaves it releasing while a queued command references it, and of another id raises cause 50 with reason 14. -/
def Obligations.OperandBufferReservation : Prop :=
  ∀ (s : State) (d a : XReg) (rec w : Nat) (c : WCore), Resides s w c →
    let keeps (v : Word) : Prop := Yields (.obres d a) s { x := [d] } fun t => t.rx d = if d = 0 then 0 else v
    let acts (bs : List Byte) : Prop :=
      let r := obRecOf bs
      let lin := resvLin r.base
      (obLegal s r = false → keeps (-2)) ∧
      (obLegal s r = true → c.press.overlaps false lin r.len = true → keeps (-3)) ∧
      (obLegal s r = true → c.press.overlaps false lin r.len = false → c.press.overlaps true lin r.len = true →
        Waits (.obres d a) s (.obres bs)) ∧
      (obLegal s r = true → c.press.overlaps false lin r.len = false → c.press.overlaps true lin r.len = false →
        ((∀ i : Fin 32, c.press.resvs[i] ≠ none) → keeps (-1)) ∧
        (∀ i : Fin 32, c.press.resvs[i] = none → (∀ j : Fin 32, j < i → c.press.resvs[j] ≠ none) →
          YieldsCore w (.obres d a) s { x := [d] } fun t =>
            t.rx d = (if d = 0 then 0 else BitVec.ofNat 64 i.val) ∧
            PressIs t w fun p =>
              p = { c.press with
                    resvs := c.press.resvs.set i
                      (some ⟨r.base, r.len, BitVec.ofNat 3 r.fmt, r.sfmt, r.sc, BitVec.ofNat 2 r.bl, r.soff, false⟩) }))
    ((∀ bs, s.hart.resume ≠ some (.obres bs)) → (s.rx a).toNat % 16 ≠ 0 → s.myMends = [] → Traps (.obres d a) s 4 (s.rx a)) ∧
    ((∀ bs, s.hart.resume ≠ some (.obres bs)) → (s.rx a).toNat % 16 = 0 → PlainAccess .load s (s.rx a) 16 rec → acts (s.bytes rec 16)) ∧
    (∀ bs, s.hart.resume = some (.obres bs) → acts bs) ∧
    (∀ (i : Fin 32) (v : Resv), (s.rx a).toNat = i.val → c.press.resvs[i] = some v → v.releasing = false →
      let used := c.press.queue.any fun k => k.resvId == some i.val
      (used = true → YieldsCore w (.obrel a) s {} fun t => PressIs t w fun p =>
        p = { c.press with resvs := c.press.resvs.set i (some { v with releasing := true }) }) ∧
      (used = false → YieldsCore w (.obrel a) s {} fun t => PressIs t w fun p => p = { c.press with resvs := c.press.resvs.set i none })) ∧
    (s.myMends = [] → (∀ i : Fin 32, (s.rx a).toNat = i.val → ∀ v, c.press.resvs[i] = some v → v.releasing = true) →
      Traps (.obrel a) s 50 (reason50 14 0xFF))

/-- R218 to R221: a ticketed command of the Press whose block lies in a stash bank and keeps the rules goes last into the queue with its
block as read, and gives rd its ticket; a block elsewhere raises cause 50 with reason 1, one with a reserved bit reason 2 with its byte,
one that fails a check the check's reason and offset; with 64 commands queued, or behind the stalled command of a lower lane, the
instruction waits. MXSWAP is queued without a ticket. A lane before which another of its group is to issue changes nothing. That a full
queue waits before the block is read is the model's choice (log 70), and so are the offsets that judge gives beside the reasons of R220
(log 71). -/
def Obligations.PressCommandIssue : Prop :=
  ∀ (s : State) (d a : XReg) (w : Nat) (c : WCore), Resides s w c → s.myMends = [] →
    let v := s.rx a
    let bs := (List.range 64).map fun i => c.sramByte (v.toNat + i)
    let room := c.press.queue.length < 64 ∧ s.lowerLane w = false
    (room → myTurn s = false → exec (.mxldw d a) s = .next s ∧ exec (.mxstrm d a) s = .next s ∧ exec (.mxsqd d a) s = .next s ∧
      exec (.mxtopk d a) s = .next s ∧ exec .mxswap s = .next s) ∧
    (let issues (i : Instr) (kind : CmdKind) : Prop :=
      (¬ room → Waits i s .pressRoom) ∧
      (room → myTurn s = true → blockOk s v = false → Traps i s 50 (reason50 1 0xFF)) ∧
      (room → myTurn s = true → blockOk s v = true → ∀ n, firstReserved bs = some n → Traps i s 50 (reason50 2 n)) ∧
      (room → myTurn s = true → blockOk s v = true → firstReserved bs = none →
        (∀ e, judge (s.viewOf w c.press) c.press kind (blkOf bs) = .error e → Traps i s 50 (reason50 e.1 e.2)) ∧
        (∀ r, judge (s.viewOf w c.press) c.press kind (blkOf bs) = .ok r →
          YieldsCore w i s { x := [d] } fun t =>
            t.rx d = (if d = 0 then 0 else BitVec.ofNat 64 (w * 2 ^ 48 + (c.press.seq + 1))) ∧
            PressIs t w fun p => ∃ k, p.queue = c.press.queue ++ [k] ∧ p.seq = c.press.seq + 1 ∧ p.issued = c.press.issued + 1 ∧
              k.kind = kind ∧ k.seq = c.press.seq + 1 ∧ k.no = c.press.issued + 1 ∧ k.blk = blkOf bs ∧ k.blkOff = v.toNat ∧
              k.resv = r ∧ p = { c.press with queue := p.queue, seq := p.seq, issued := p.issued }))
    issues (.mxldw d a) .ldw ∧ issues (.mxstrm d a) .strm ∧ issues (.mxsqd d a) .sqd ∧ issues (.mxtopk d a) .topk ∧
    (¬ room → Waits .mxswap s .pressRoom) ∧
    (room → myTurn s = true → YieldsCore w .mxswap s {} fun t => PressIs t w fun p =>
      ∃ k, p.queue = c.press.queue ++ [k] ∧ k.kind = .swap ∧ k.seq = 0 ∧ p.seq = c.press.seq ∧ p.issued = c.press.issued + 1 ∧
        p = { c.press with queue := p.queue, issued := p.issued }))

/-- R221, R222, R227, R229, R230: MXWAIT waits while its ticket is pending and gives its status otherwise; MXSTAT gives the status bits
and clears those its operand selects; ACWM gives the least row still to be written; ACRD and ACRDF give the element of a final row and
wait for a pending one; ACZERO zeroes a tile that no queued command uses and waits otherwise; MXFENCE leaves unfenced, of each byte, the
writes after the newest that it covers: the copies that the thread has not seen; a tile number above 3, or a bit of rs2 of ACRD and ACRDF
beyond the row and the column, raises cause 50 with reason 14. -/
def Obligations.PressReads : Prop :=
  ∀ (s : State) (d a b : XReg) (f : FReg) (w : Nat) (c : WCore), Resides s w c →
    let x := s.rx a
    let tile := x.toNat
    let row := (s.rx b).toNat / 256
    let col := (s.rx b).toNat % 256
    let elem := (c.press.tile tile).get row col
    let len := if s.pfx.isSome then 8 else 4
    (s.pressStatus x = 4 → Waits (.mxwait d a) s (.mxwait x)) ∧
    (s.pressStatus x ≠ 4 → Yields (.mxwait d a) s { x := [d] } fun t => t.rx d = if d = 0 then 0 else BitVec.ofNat 64 (s.pressStatus x)) ∧
    (YieldsCore w (.mxstat d a) s { x := [d] } fun t => t.rx d = (if d = 0 then 0 else c.press.mxstat.setWidth 64) ∧
      PressIs t w fun p => p = { c.press with mxstat := c.press.mxstat &&& ~~~(x.setWidth 5) }) ∧
    (YieldsCore w .mxfence s {} fun t => ∃ c', t.wcore? w = some c' ∧ c'.sram = c.sram ∧ c'.press = c.press ∧
      let covers (x : ObWrite) : Bool := x.src.isNone || x.seen.contains s.who
      c'.unfenced = (c.unfenced.map fun u => { u with writes := u.writes.takeWhile fun x => !covers x }).filter fun u => u.writes ≠ []) ∧
    (tile < 4 →
      (Yields (.acwm d a) s { x := [d] } fun t => t.rx d = if d = 0 then 0 else BitVec.ofNat 64 (c.press.watermark tile)) ∧
      ((s.rx b).toNat < 2 ^ 15 → c.press.pending tile row c.press.issued = false →
        Yields (.acrd d a b) s { x := [d] } (fun t => t.rx d = if d = 0 then 0 else elem.signExtend 64) ∧
        Yields (.acrdf f a b) s { f := [f] } (fun t => t.rf f = 0xFFFFFFFF#32 ++ elem)) ∧
      ((s.rx b).toNat < 2 ^ 15 → c.press.pending tile row c.press.issued = true →
        Waits (.acrd d a b) s (.acrdRow false d tile row col c.press.issued len) ∧
        Waits (.acrdf f a b) s (.acrdRow true f tile row col c.press.issued len)) ∧
      (c.press.inUse tile c.press.issued = false → YieldsCore w (.aczero a) s {} fun t => PressIs t w fun p =>
        p = { c.press with tiles := c.press.tiles.setIfInBounds tile Tile.zero }) ∧
      (c.press.inUse tile c.press.issued = true → Waits (.aczero a) s (.aczero tile c.press.issued len))) ∧
    (tile < 4 → 2 ^ 15 ≤ (s.rx b).toNat → s.myMends = [] →
      Traps (.acrd d a b) s 50 (reason50 14 0xFF) ∧ Traps (.acrdf f a b) s 50 (reason50 14 0xFF)) ∧
    (4 ≤ tile → s.myMends = [] → Traps (.acwm d a) s 50 (reason50 14 0xFF) ∧ Traps (.acrd d a b) s 50 (reason50 14 0xFF) ∧
      Traps (.acrdf f a b) s 50 (reason50 14 0xFF) ∧ Traps (.aczero a) s 50 (reason50 14 0xFF))

/-- R229, R230: a waiting ACRD or ACRDF returns the element once its row is final, a waiting ACZERO zeroes its tile once its earlier users
have ended; the thread's pc passes the instruction. (A thread that is not parked: a park ends these stalls, log 61. The park slot of a
context outside the register file is written anew, log 48.) -/
def Obligations.PressWaitCompletes : Prop :=
  ∀ (s : State) (h : HartId) (x : Hart) (k : Car) (c : WCore), s.hart? h = some x → x.car = some k → s.wcore? k.core = some c →
    s.clockStopped k.core = false → k.free = true →
    let kept (t : State) (p : Press) : Prop :=
      ∃ c', t.wcore? k.core = some c' ∧ { c' with slots := c.slots } = { c with press := p } ∧ SameButCore k.core s t
    let done (t : State) (len : Nat) (u : User) : Prop :=
      ∃ g, t.hart? h = some g ∧ g.u = { u with pc := x.u.pc + BitVec.ofNat 64 len } ∧ g.wait = none ∧
        g.instret = (if x.sup.mcountinhibit.getLsbD 2 then x.instret else x.instret + 1) ∧
        (k.active = true ∨ s.part.parkPlaced = false → (∀ j, j ≠ h → t.hart? j = s.hart? j) ∧ t.mem = s.mem) ∧
        (s.Inv → ∀ a, a < s.slotAddr k ∨ s.slotAddr k + 2048 ≤ a → t.byte a = s.byte a)
    (∀ fp d tile row col upto len, x.wait = some (.acrdRow fp d tile row col upto len) → c.press.pending tile row upto = false →
      let v := (c.press.tile tile).get row col
      ∃ t, exec (.acrdRowFinal h) s = .next t ∧ kept t c.press ∧
        done t len (if fp then x.u.wf d (0xFFFFFFFF#32 ++ v) else x.u.wx d (v.signExtend 64))) ∧
    (∀ tile upto len, x.wait = some (.aczero tile upto len) → c.press.inUse tile upto = false →
      ∃ t, exec (.aczeroUsersDone h) s = .next t ∧ done t len x.u ∧
        kept t { c.press with tiles := c.press.tiles.setIfInBounds tile Tile.zero }) ∧
    (∀ fp d tile row col upto len, x.wait = some (.acrdRow fp d tile row col upto len) → c.press.pending tile row upto = true →
      exec (.acrdRowFinal h) s = .next s) ∧
    (∀ tile upto len, x.wait = some (.aczero tile upto len) → c.press.inUse tile upto = true → exec (.aczeroUsersDone h) s = .next s)

/-- R224 to R228: a load makes the shadow plane of its reservation's weights and scales, a swap exchanges the planes, a stream makes the next
row of its tile final and sets the bits of MXSTAT that its elements ask for, a selection the next row of its destination, the first k columns
in the order of the tile's kind and their numbers; a command that has more rows stays in the queue with its row counted, one that has none
leaves with status 0, a stream having written RESUME 0, and its releasing reservation is freed when no other command names it; the streams and
selections before a load or a swap, for whose rows it does not wait, have been started by then (R218); nothing else of the Press changes. (For commands whose operands were fenced and not written since their issue.) -/
def Obligations.PressCommandsAct : Prop :=
  (∀ (s : State) (w : Nat) (c : WCore) (k : Cmd), s.wcore? w = some c → k.taint = [] → k.stale = [] →
    (∀ j ∈ c.press.queue, j.no = k.no → j = k) → sparseWf 0#32 (c.press.tile k.blk.dt).cells = true →
    let others := c.press.queue.filter fun j => j.no ≠ k.no
    let goesOn (p : Press) : Prop :=
      p.queue = (c.press.queue.map fun j => if j.no = k.no then { j with row := k.row + 1, started := true } else j) ∧
      p.status = c.press.status ∧ p.resvs = c.press.resvs ∧ p.issued = c.press.issued ∧ p.seq = c.press.seq
    let begun := others.map fun j => if j.no < k.no then { j with started := true } else j
    let ends (q : List Cmd) (p : Press) : Prop :=
      p.queue = q ∧ p.issued = c.press.issued ∧ p.seq = c.press.seq ∧
      p.status = (if k.seq = 0 then c.press.status else ((k.seq, 0) :: c.press.status).filter fun x => c.press.seq < x.1 + 1024) ∧
      ∀ id : Fin 32, p.resvs[id] =
        match c.press.resvs[id] with
        | some r => if r.releasing = true ∧ k.resvId = some id.val ∧ ∀ j ∈ others, j.resvId ≠ some id.val then none else some r
        | none => none
    (∀ r : Resv, s.readyCmd w (· == .ldw) = some k → k.resv = some r →
      let at8 (o : Nat) : Byte := c.sramByte (resvOff r.base o)
      let code (o n : Nat) : Nat := leNat ((List.range n).map fun i => at8 (o + i))
      CoreEvent w (.pressLoadWeights w) s fun t => PressIs t w fun p =>
        ends begun p ∧ p.active = c.press.active ∧ p.tiles = c.press.tiles ∧ p.mxstat = c.press.mxstat ∧
        p.shadow.desc = ⟨true, r.fmt, r.bl, r.sc, r.sfmt⟩ ∧
        p.shadow.weights.size = weightBytes r.fmt.toNat ∧ p.shadow.scales.size = p.shadow.desc.scaleCount ∧
        (∀ i, i < weightBytes r.fmt.toNat → p.shadow.weights[i]? = some (at8 (k.blk.woff + i))) ∧
        ∀ j, j < p.shadow.desc.scaleCount →
          p.shadow.scales[j]? = some (BitVec.ofNat 32 (if r.sfmt then code (r.soff + 4 * j) 4 else 65536 * code (r.soff + 2 * j) 2))) ∧
    (s.readyCmd w (· == .swap) = some k →
      CoreEvent w (.pressSwapEffect w) s fun t => PressIs t w fun p =>
        ends begun p ∧ p.active = c.press.shadow ∧ p.shadow = c.press.active ∧ p.tiles = c.press.tiles ∧ p.mxstat = c.press.mxstat) ∧
    (∀ r : Resv, (s.readyCmd w fun j => j == .strm || j == .sqd) = some k → k.resv = some r → k.blk.dt < 4 →
      k.blk.nbase + k.blk.ncnt ≤ 256 → s.role ((k.blkOff + 34) / 0x20000) ≠ 2 →
      let from8 (o n : Nat) : Array Byte := ((List.range n).map fun i => c.sramByte (resvOff r.base (o + i))).toArray
      let i : RowIn :=
        ⟨k.blk, r, c.press.active, from8 (k.blk.aoff + k.row * k.blk.apitch) (k.blk.kcnt * fmtBits r.fmt.toNat / 8),
         if r.sc then from8 (r.soff + k.row * k.blk.aspitch) (ascaleLen k.blk r) else #[]⟩
      let old := c.press.tile k.blk.dt
      let m := k.blk.row0 + k.row
      let elem (n : Nat) : BitVec 32 × BitVec 5 := i.element (k.kind == .sqd) (old.get m n) n
      let bad := k.kind = .strm ∧ i.badCode = true
      CoreEvent w (.pressStream w) s fun t =>
        (PressIs t w fun p =>
          (k.row + 1 < k.blk.m → goesOn p) ∧ (k.blk.m ≤ k.row + 1 → ends others p) ∧
          p.active = c.press.active ∧ p.shadow = c.press.shadow ∧
          p.mxstat = c.press.mxstat ||| k.blk.cols.foldl (fun a n => a ||| (elem n).2) 0 ||| (if bad then 2 else 0) ∧
          (∀ n, n < 256 →
            (p.tile k.blk.dt).get m n = if k.blk.nbase ≤ n ∧ n < k.blk.nbase + k.blk.ncnt then (elem n).1 else old.get m n) ∧
          (∀ m' n, m' ≠ m → n < 256 → (p.tile k.blk.dt).get m' n = old.get m' n) ∧
          (∀ j, j < 4 → j ≠ k.blk.dt → p.tile j = c.press.tile j) ∧
          (p.tile k.blk.dt).kind = k.blk.kindAfter old.kind) ∧
        (k.blk.m ≤ k.row + 1 → (∀ v : Fin 32, ∀ x ∈ c.press.resvs[v], x.releasing = false) →
          ∃ d, t.wcore? w = some d ∧ d.sramByte (k.blkOff + 34) = 0 ∧ d.sramByte (k.blkOff + 35) = 0 ∧
            ∀ o, o ≠ k.blkOff + 34 → o ≠ k.blkOff + 35 → d.sramByte o = c.sramByte o)) ∧
    (s.readyCmd w (· == .topk) = some k → k.blk.dt < 4 → k.blk.k ≤ 16 →
      let src := c.press.tile k.blk.st
      let old := c.press.tile k.blk.dt
      let m := k.blk.row0 + k.row
      let sel := topkSelect k.blk src m
      CoreEvent w (.pressTopk w) s fun t => PressIs t w fun p =>
        (k.row + 1 < k.blk.m → goesOn p) ∧ (k.blk.m ≤ k.row + 1 → ends others p) ∧
        p.active = c.press.active ∧ p.shadow = c.press.shadow ∧ p.mxstat = c.press.mxstat ∧
        (∀ n, n < 256 →
          (p.tile k.blk.dt).get m n =
            if n < sel.length then src.get m (sel.getD n 0)
            else if 16 ≤ n ∧ n < 16 + sel.length then BitVec.ofNat 32 (sel.getD (n - 16) 0) else old.get m n) ∧
        (∀ m' n, m' ≠ m → n < 256 → (p.tile k.blk.dt).get m' n = old.get m' n) ∧
        (p.tile k.blk.dt).kind = (if src.kind = .none then .int32 else src.kind) ∧
        (∀ j, j < 4 → j ≠ k.blk.dt → p.tile j = c.press.tile j))) ∧
  (∀ (b : Blk) (src : Tile) (m : Nat),
    let sel := topkSelect b src m
    let key (n : Nat) : Nat × Int := (n, topkKey src.kind (src.get m n))
    sel.length = min b.k b.ncnt ∧ (sel.Pairwise fun x y => topkBefore b.largest (key x) (key y) = true) ∧
    (∀ n ∈ sel, b.nbase ≤ n ∧ n < b.nbase + b.ncnt) ∧
    ∀ n, b.nbase ≤ n → n < b.nbase + b.ncnt → n ∉ sel → ∀ x ∈ sel, topkBefore b.largest (key x) (key n) = true)

/-- R233: MXSAVE writes the 921,600 bytes of the Press's image to plain memory and no byte outside them; MXREST makes the Press what a
legal image says, the reservations, the queue and the ticket sequence standing; a misaligned image raises cause 6 and cause 4, and outside
S-mode both raise cause 2, in M-mode as in U-mode (log 69, the model's reading). A bad header raises cause 50 with reason 15; that a tile
kind code 11 counts as bad too is the model's choice (log 74): R233 names a reserved format and a nonzero reserved header byte. (Under
bare translation.) -/
def Obligations.PressImage : Prop :=
  ∀ (s : State) (n : Nat) (a : XReg) (c : WCore), s.Inv → s.hart.id = .lcore n → field s.hart.sup.satp 60 4 = 0 →
    let va := s.rx a
    let w := s.memNat va.toNat 2
    let size := 225 * 4096
    let image := ((List.range size).map fun i => s.byte (va.toNat + i)).toArray
    let illegal (i : Instr) : Prop := Traps i s 2 (illegalTval (instrWord i) s)
    (s.hart.sup.mode ≠ .s → illegal (.mxsave a) ∧ illegal (.mxrest a)) ∧
    (s.hart.sup.mode = .s → va.toNat % 4096 ≠ 0 → Traps (.mxsave a) s 6 va ∧ Traps (.mxrest a) s 4 va) ∧
    (s.hart.sup.mode = .s → va.toNat % 4096 = 0 → s.wcore? w = some c → s.poison = [] → s.part.bindings = [] →
      va.toNat + size ≤ 0xFFFF0000000000 →
      (∀ i n, 0 < n → i + n ≤ size → s.physOk (va.toNat + i) n = true ∧ s.inTable (va.toNat + i) n = false) →
      (s.hart.resume = none → (∃ k ∈ c.press.queue, k.no ≤ c.press.issued) →
        Waits (.mxsave a) s (.pressIdle w c.press.issued) ∧ Waits (.mxrest a) s (.pressIdle w c.press.issued)) ∧
      (c.press.queue = [] → Yields (.mxsave a) s { mem := some (va.toNat, size) } fun t =>
        ∀ i, i < size → t.byte (va.toNat + i) = c.press.imageByte w i) ∧
      (c.press.queue = [] → imageBad image = false → YieldsCore w (.mxrest a) s {} fun t => PressIs t w fun p => p = c.press.restored image) ∧
      (c.press.queue = [] → imageBad image = true → s.part.hotEn = false → Traps (.mxrest a) s 50 (reason50 15 0xFF)))

/-! ## Floating point, fused expressions and conversions (R95 to R111, R118, R236 to R241) -/

/-- R96, R103, R105, R107, R118: the F and D instructions complete with the result of their operation on the operands as R96 and DAZ32 read
them, rounded once under the effective mode, FTZ32 flushing single results, the flags accrued in fflags. FMIN and FMAX give one operand's
code, a NaN giving way, −0.0 below +0.0, never flushed; FSGNJ moves signs and FCLASS names the class, both on the code as it stands. -/
def Obligations.FloatArithmetic : Prop :=
  ∀ (s : State) (c : Option (BitVec 16)) (fmt : Fmt) (d a b e : FReg) (xd xa : XReg) (m : BitVec 3) (r : Rnd),
    fsOn s = true → effRnd s (some m) = some r →
    let t := formatOf fmt
    let z := s.ftz fmt
    let x := s.fval fmt a
    let y := s.fval fmt b
    let w := s.fval fmt e
    let writes (i : BaseInstr) (k : Fmt) (v : FRes) : Prop :=
      YieldsTo (s.pc + s.ilen c) (.base c i) s { f := [d], fflags := true } fun u =>
        u.rf d = boxOf k v.bits ∧ u.hart.u.fflags = s.hart.u.fflags ||| v.flags
    let gives (i : BaseInstr) (v : Word) (fl : BitVec 5) : Prop :=
      YieldsTo (s.pc + s.ilen c) (.base c i) s { x := [xd], fflags := true } fun u =>
        u.rx xd = (if xd = 0 then 0 else v) ∧ u.hart.u.fflags = s.hart.u.fflags ||| fl
    let nan := x.isNan = true ∨ y.isNan = true
    let snan := x.isSnan = true ∨ y.isSnan = true
    let compares (i : BaseInstr) (v invalid : Prop) : Prop :=
      (v → ¬ invalid → gives i 1 0) ∧ (¬ v → ¬ invalid → gives i 0 0) ∧ (v → invalid → gives i 1 16) ∧ (¬ v → invalid → gives i 0 16)
    (writes (.farith .add fmt d a b m) fmt (fpAdd t r z x y) ∧ writes (.farith .sub fmt d a b m) fmt (fpAdd t r z x y.flip) ∧
      writes (.farith .mul fmt d a b m) fmt (fpMul t r z x y) ∧ writes (.farith .div fmt d a b m) fmt (fpDiv t r z x y) ∧
      writes (.fsqrt fmt d a m) fmt (fpSqrt t r z x)) ∧
    (writes (.fma .madd fmt d a b e m) fmt (fpFma t r z x y w) ∧ writes (.fma .msub fmt d a b e m) fmt (fpFma t r z x y w.flip) ∧
      writes (.fma .nmsub fmt d a b e m) fmt (fpFma t r z x.flip y w) ∧
      writes (.fma .nmadd fmt d a b e m) fmt (fpFma t r z x.flip y w.flip)) ∧
    (compares (.fcmp .eq fmt xd a b) (fpEq x y = true) snan ∧ compares (.fcmp .lt fmt xd a b) (¬ nan ∧ fpLt x y = true) nan ∧
      compares (.fcmp .le fmt xd a b) (¬ nan ∧ (fpLt x y = true ∨ fpEq x y = true)) nan) ∧
    (∀ ty, let v := fpToInt r (intBounds ty).1 (intBounds ty).2 x
      gives (.fcvtToInt ty fmt xd a m) (intWord ty v.1) v.2 ∧
      writes (.fcvtFromInt ty fmt d xa m) fmt (intToFp t r z (wordInt ty (s.rx xa)))) ∧
    (writes (.fcvtSD d a m) .s (roundFp fp32 r s.hart.u.ftz32 (s.valD a)) ∧ writes (.fcvtDS d a m) .d (roundFp fp64 r false (s.valS a))) ∧
    (gives (.fmvToX .s xd a) (((s.rf a).setWidth 32).signExtend 64) 0 ∧ gives (.fmvToX .d xd a) (s.rf a) 0 ∧
      writes (.fmvFromX .s d xa) .s ⟨(s.rx xa).toNat % 2 ^ 32, 0⟩ ∧ writes (.fmvFromX .d d xa) .d ⟨(s.rx xa).toNat, 0⟩) ∧
    (let ca := s.dazCode fmt (s.fcode fmt a)
     let cb := s.dazCode fmt (s.fcode fmt b)
     let fl : BitVec 5 := if x.isSnan || y.isSnan then 16 else 0
     let least := fpLt x y = true ∨ fpEq x y = true ∧ x.neg = true
     let picks (isMax : Bool) (v : Nat) : Prop := writes (.fminmax isMax fmt d a b) fmt ⟨v, fl⟩
     ∀ isMax,
       (x.isNan = true → y.isNan = true → picks isMax t.nanBits) ∧ (x.isNan = true → y.isNan = false → picks isMax cb) ∧
       (x.isNan = false → y.isNan = true → picks isMax ca) ∧
       (¬ nan → least → picks isMax (if isMax then cb else ca)) ∧ (¬ nan → ¬ least → picks isMax (if isMax then ca else cb))) ∧
    (let ca := s.fcode fmt a
     let cb := s.fcode fmt b
     let n := match fmt with | .s => 31 | .d => 63
     let mag := ca % 2 ^ n
     let sign (v : Nat) : Bool := v.testBit n
     let signed (g : Bool) : FRes := ⟨mag + (if g then 2 ^ n else 0), 0⟩
     let inf := match fmt with | .s => 0x7F800000 | .d => 0x7FF0000000000000
     let quiet := match fmt with | .s => 0x7FC00000 | .d => 0x7FF8000000000000
     let least := match fmt with | .s => 0x00800000 | .d => 0x0010000000000000
     let g := sign ca
     writes (.fsgn .sgnj fmt d a b) fmt (signed (sign cb)) ∧ writes (.fsgn .sgnjn fmt d a b) fmt (signed !sign cb) ∧
     writes (.fsgn .sgnjx fmt d a b) fmt (signed (sign ca != sign cb)) ∧
     gives (.fclass fmt xd a)
       (if mag = inf then (if g then 0x001 else 0x080) else if quiet ≤ mag then 0x200 else if inf < mag then 0x100
        else if mag = 0 then (if g then 0x008 else 0x010) else if mag < least then (if g then 0x004 else 0x020)
        else if g then 0x002 else 0x040) 0)

/-- R236 to R238: FUSE with a well-formed slot writes the value of its expression on f[a], f[b], f[c] and the fourth operand (+0.0 with none)
and accrues the flags of every operation, a NaN being canonical; a malformed slot raises cause 2. -/
def Obligations.FusedExpression : Prop :=
  ∀ (s : State) (d a b c : FReg) (slot : BitVec 4),
    let z := s.hart.u.zexp[slot.toNat]'slot.isLt
    let code (fmt : Fmt) (r : FReg) : Nat := s.dazCode fmt (s.fcode fmt r)
    let evaluates (i : Instr) (fmt : Fmt) : Prop :=
      (slotOk (slotTokens z) 0 0 false = false → s.myMends = [] → Traps i s 2 (illegalTval (instrWord i) s)) ∧
      (∀ r, slotOk (slotTokens z) 0 0 false = true → effRnd s none = some r →
        let inputs := [code fmt a, code fmt b, code fmt c, match s.rs4 with | some q => code fmt q | none => 0]
        let v := evalSlot (formatOf fmt) r (s.ftz fmt) inputs (slotTokens z) [] 0
        Yields i s { f := [d], fflags := true } fun t =>
          t.rf d = boxOf fmt (if (unpack (formatOf fmt) v.bits).isNan then (formatOf fmt).nanBits else v.bits) ∧
          t.hart.u.fflags = s.hart.u.fflags ||| v.flags)
    evaluates (.fuseS d a b c slot) .s ∧ evaluates (.fuseD d a b c slot) .d

/-- R108 to R111, R239 to R241: each NCVT writes its code zero-extended, the special cases of R108's table among them, accrues its flags
and moves zamax and zaflags; each WCVT writes the widened value, exactly; FSCL.S multiplies by a power of two and rounds once. That
WCVT.BF flushes a subnormal result under FTZ32 is the model's choice (log 15): R107's table has it, R107's text and R109 have WCVT never
round. -/
def Obligations.FormatConversions : Prop :=
  ∀ (s : State) (d : XReg) (fd a : FReg) (xa xb : XReg) (r : Rnd), effRnd s none = some r →
    let code := s.dazCode .s (s.fs a)
    let x := unpack fp32 code
    let narrows (i : Instr) (n : Narrow) : Prop :=
      Yields i s { x := [d], fflags := true, zaflags := true, zamax := true } fun t =>
        t.rx d = (if d = 0 then 0 else BitVec.ofNat 64 n.bits) ∧ t.hart.u.fflags = s.hart.u.fflags ||| n.flags ∧
        t.hart.u.zaflags = s.hart.u.zaflags ||| n.za ∧
        t.hart.u.zamax =
          if x.isNan = true then s.hart.u.zamax
          else if s.hart.u.zamax.toNat < code % 2 ^ 31 then BitVec.ofNat 31 code else s.hart.u.zamax
    let widens (i : Instr) (v : FRes) (nan : Bool) : Prop :=
      Yields i s { f := [fd], fflags := true, zaflags := true } fun t =>
        t.rf fd = nanBox v.bits ∧ t.hart.u.fflags = s.hart.u.fflags ||| v.flags ∧
        t.hart.u.zaflags = s.hart.u.zaflags ||| (if nan then 1 else 0)
    let low (n : Nat) : Nat := (s.rx xa).toNat % 2 ^ n
    let nv (signalling : Bool) : BitVec 5 := if signalling then 16 else 0
    (narrows (.ncvtE4 d a) (narrowSat fp8e4 r x) ∧ narrows (.ncvtE5 d a) (narrowE5 r x) ∧ narrows (.ncvtE5s d a) (narrowSat fp8e5 r x) ∧
      narrows (.ncvtBf d a) (narrowIeee bf16 r s.hart.u.ftz32 x) ∧ narrows (.ncvtHf d a) (narrowIeee fp16 r s.hart.u.ftz16 x) ∧
      narrows (.ncvtI8 d a) (narrowByte (-128) 127 r x) ∧ narrows (.ncvtN8 d a) (narrowByte 0 255 r x)) ∧
    (∀ q, x = .nan q →
      narrows (.ncvtE4 d a) ⟨0x7F, nv q, 1⟩ ∧ narrows (.ncvtE5 d a) ⟨0x7E, nv q, 1⟩ ∧ narrows (.ncvtE5s d a) ⟨0x7E, nv q, 1⟩ ∧
      narrows (.ncvtBf d a) ⟨0x7FC0, nv q, 1⟩ ∧ narrows (.ncvtHf d a) ⟨0x7E00, nv q, 1⟩ ∧ narrows (.ncvtI8 d a) ⟨0, 16, 1⟩ ∧
      narrows (.ncvtN8 d a) ⟨0, 16, 1⟩) ∧
    (∀ g, x = .inf g →
      let sign : Nat := if g then 0x80 else 0
      narrows (.ncvtE4 d a) ⟨sign + 0x7E, 0, 2⟩ ∧ narrows (.ncvtE5 d a) ⟨sign + 0x7C, 0, 0⟩ ∧
      narrows (.ncvtE5s d a) ⟨sign + 0x7B, 0, 2⟩ ∧ narrows (.ncvtBf d a) ⟨256 * sign + 0x7F80, 0, 0⟩ ∧
      narrows (.ncvtHf d a) ⟨256 * sign + 0x7C00, 0, 0⟩ ∧ narrows (.ncvtI8 d a) ⟨if g then 0x80 else 0x7F, 16, 2⟩ ∧
      narrows (.ncvtN8 d a) ⟨if g then 0 else 255, 16, 2⟩) ∧
    (let bf := if s.hart.u.daz32 then (unpack bf16 (low 16)).daz bf16 else unpack bf16 (low 16)
     let hf := if s.hart.u.daz16 then (unpack fp16 (low 16)).daz fp16 else unpack fp16 (low 16)
     let e4 := unpack fp8e4 (low 8)
     let e5 := unpack fp8e5 (low 8)
     widens (.wcvtE4 fd xa) (roundFp fp32 .rne false e4) e4.isNan ∧ widens (.wcvtE5 fd xa) (roundFp fp32 .rne false e5) e5.isNan ∧
     widens (.wcvtBf fd xa) (roundFp fp32 .rne s.hart.u.ftz32 bf) bf.isNan ∧ widens (.wcvtHf fd xa) (roundFp fp32 .rne false hf) hf.isNan ∧
     widens (.wcvtI8 fd xa) (intToFp fp32 .rne false ((s.rx xa).setWidth 8).toInt) false ∧
     widens (.wcvtN8 fd xa) (intToFp fp32 .rne false (low 8)) false) ∧
    (let v := s.valS a
     let n := max (-1024) (min 1024 (s.rx xb).toInt)
     Yields (.fsclS fd a xb) s { f := [fd], fflags := true } fun t =>
       let f := match v with | .fin g m e => roundPack fp32 r s.hart.u.ftz32 g m (e + n) false | _ => roundFp fp32 r s.hart.u.ftz32 v
       t.rf fd = nanBox f.bits ∧ t.hart.u.fflags = s.hart.u.fflags ||| f.flags)

/-! ## Distributions (R242 to R268) -/

/-- R252 to R260: the distribution instructions whose result is a distribution complete when every d-register they name is within the
profile: joint operands act point by point, independent ones over all pairs and condensed; a shared tag
sets DX, or traps with zdctl.DXT set. That DMIX, DFORM and the condensation raise no NV for a signaling NaN is the model's reading (log 18). -/
def Obligations.DistributionResult : Prop :=
  ∀ (s : State) (d a b : DReg) (fa : FReg) (xa : XReg) (tag : BitVec 4) (fn : BitVec 3) (form : BitVec 1) (r : Rnd),
    d.toNat < profD s.hart.u.zwprof → a.toNat < profD s.hart.u.zwprof → b.toNat < profD s.hart.u.zwprof → effRnd s none = some r →
    let ftz := s.hart.u.ftz32
    let x := s.rd a
    let y := s.rd b
    let daz (v : Nat) : Nat := s.dazCode .s v
    let makes (i : Instr) (v : Dist) (fl : BitVec 7) : Prop :=
      Yields i s { d := [d], zdflags := true } fun t => t.rd d = v ∧ t.hart.u.zdflags = s.hart.u.zdflags ||| fl
    let joint := x.form = true ∧ y.form = true ∧ x.tag = y.tag ∧ x.tag ≠ 0
    let binary (i : Instr) (op : Nat → Nat → FRes) : Prop :=
      (joint →
        let z := (x.points.zip y.points).map fun p => op (daz p.1.1) (daz p.2.1)
        makes i (distOf (z.map fun v => (v.bits, 8192)) x.tag true) (zdFlags z)) ∧
      (¬ joint →
        let z := x.points.flatMap fun p => y.points.map fun q => (op (daz p.1) (daz q.1), p.2 * q.2)
        let c := condense ftz (z.map fun v => (v.1.bits, v.2))
        let fl := z.foldl (fun f v => f ||| zdOf v.1.flags false false) c.2
        let v := distOf (c.1.map fun v => (v, 8192)) (x.tag ||| y.tag) false
        (x.tag &&& y.tag = 0 → makes i v fl) ∧
        (x.tag &&& y.tag ≠ 0 → s.hart.u.zdctl = 0 → makes i v (1 ||| fl)) ∧
        (x.tag &&& y.tag ≠ 0 → s.hart.u.zdctl = 1 → s.myMends = [] →
          exec i s = .next ((s.accrueZd 1).takeTrap 27 s.pc (BitVec.ofNat 64 (2 ^ 56 + (x.tag &&& y.tag).toNat)))))
    let rounded (f : Rnd → Bool → Fp → Fp → FRes) (v w : Nat) : FRes := f r ftz (unpack fp32 v) (unpack fp32 w)
    let pick (m : Bool) (v w : Nat) : FRes := fpMinMax fp32 m v w (unpack fp32 v) (unpack fp32 w)
    let pointwise (i : Instr) (f : Nat → FRes) : Prop :=
      let z := x.points.map fun p => (f p.1, p.2)
      makes i (distOf (sorted x.form (z.map fun v => (v.1.bits, v.2))) x.tag x.form) (zdFlags (z.map Prod.fst))
    (binary (.dadd d a b) (rounded (fpAdd fp32)) ∧ binary (.dsub d a b) (rounded (fpSub fp32)) ∧ binary (.dmul d a b) (rounded (fpMul fp32)) ∧
      binary (.ddiv d a b) (rounded (fpDiv fp32)) ∧ binary (.dmin d a b) (pick false) ∧ binary (.dmax d a b) (pick true)) ∧
    (let p := match s.rs4 with | some q => s.fs q | none => 0x3F000000
     (mixMass p = none → s.myMends = [] → Traps (.dmix d a b) s 27 (BitVec.ofNat 64 (2 * 2 ^ 56 + p))) ∧
     (∀ m, mixMass p = some m →
       let c := condense ftz (x.points.map (fun v => (v.1, v.2 * m)) ++ y.points.map fun v => (v.1, v.2 * (65536 - m)))
       makes (.dmix d a b) (distOf (c.1.map fun v => (v, 8192)) (x.tag ||| y.tag) false) c.2)) ∧
    (let addend := match s.rs4 with | some q => s.valS q | none => .zero false
     pointwise (.daff d a fa) fun v => fpFma fp32 r ftz (s.valS fa) (dazS s (unpack fp32 v)) addend) ∧
    pointwise (.dmap d a fn) (fun v =>
      let w := daz v
      let u := unpack fp32 w
      match fn.toNat with
      | 0 => if u.isNan then ⟨fp32.nanBits, if u.isSnan then 16 else 0⟩ else if fpLt (.zero false) u then ⟨w, 0⟩ else ⟨0, 0⟩
      | 1 => fpExp fp32 r ftz w u
      | 2 => fpLog fp32 r ftz w u
      | 3 => fpSigmoid fp32 r ftz w u
      | 4 => fpTanh fp32 r ftz w u
      | 5 => ⟨signToken fp32 false w, 0⟩
      | 6 => ⟨signToken fp32 true w, 0⟩
      | _ => fpSqrt fp32 r ftz u) ∧
    (let isNan (v : Nat) : Bool := (unpack fp32 v).isNan
     let dnan : BitVec 7 := if x.points.any fun v => isNan v.1 then 2 else 0
     let canonical := x.points.map fun v => (if isNan v.1 then fp32.nanBits else v.1, v.2)
     (x.form = (form == 1) → makes (.dform d a form) x dnan) ∧
     (x.form = true → form = 0 → makes (.dform d a form) (distOf (distSort canonical) x.tag false) dnan)) ∧
    (x.form = false → form = 1 →
      let c := condense ftz (x.points.map fun v => (v.1, v.2 * 65536))
      makes (.dform d a form) (distOf (c.1.map fun v => (v, 8192)) x.tag true) c.2) ∧
    makes (.dmv d a) x 0 ∧
    (let v := if (unpack fp32 (s.fs fa)).isNan then fp32.nanBits else s.fs fa
     makes (.dpt d fa) (distOf (List.replicate 8 (v, 8192)) 0 false) (if (unpack fp32 (s.fs fa)).isNan then 2 else 0)) ∧
    (let z := uniPoints r ftz (s.valS fa) (match s.rs4 with | some q => s.valS q | none => .zero false)
     makes (.duni d fa tag) (distOf (distSort (z.map fun v => (v.bits, 8192))) (1#16 <<< tag.toNat) false) (zdFlags z)) ∧
    makes (.dtags d xa) { s.rd d with tag := (s.rx xa).setWidth 16 } 0 ∧
    (let i : BitVec 4 := (s.rx xa).setWidth 4
     let n := s.hart.u.draw[i.toNat]'i.isLt
     Yields (.dsamp d xa) s { d := [d], draw := true } fun t =>
       t.rd d = distOf ((samples s.hart.u.zseed i.toNat (rankOf s s.hart) n).map fun v => (v, 8192)) (1#16 <<< i.toNat) true ∧
       ∀ j : BitVec 4, t.hart.u.draw[j.toNat]'j.isLt = if j = i then n + 1 else s.hart.u.draw[j.toNat]'j.isLt)

/-- R28, R244, R261, R262, R264 to R267: DLD of an aligned image in plain memory whose weights keep R242 loads it, sorted in Q-form, and
raises cause 27 with its address otherwise; DST stores the image, whose words the order of steps may leave to be performed one by one (log
95); the extracts give the moment, quantile, cumulative value and tags, a NaN canonical with DNAN; that the comparisons of DCDF and the
probability of DQNT raise no NV for a signaling NaN is the model's reading (log 18); a d-register outside the profile raises
cause 48 with kind 1. -/
def Obligations.DistributionTransfer : Prop :=
  ∀ (s : State) (d : DReg) (f fa : FReg) (xd xa : XReg) (n : BitVec 3) (pa : Nat), s.Inv →
    let va := s.rx xa
    let x := s.rd d
    let extracts (i : Instr) (r : FRes) : Prop :=
      let nan := (unpack fp32 r.bits).isNan
      Yields i s { f := [f], zdflags := true } fun t =>
        t.rf f = nanBox (if nan then fp32.nanBits else r.bits) ∧ t.hart.u.zdflags = s.hart.u.zdflags ||| zdOf r.flags nan false
    (profD s.hart.u.zwprof ≤ d.toNat → s.myMends = [] →
      let outside (i : Instr) : Prop := Traps i s 48 (BitVec.ofNat 64 (256 + d.toNat))
      outside (.dld d xa) ∧ outside (.dst d xa) ∧ outside (.dmom f d n) ∧ outside (.dqnt f d fa) ∧ outside (.dcdf f d fa) ∧
      outside (.dtag xd d) ∧ outside (.dtags d xa) ∧ outside (.dsamp d xa) ∧ outside (.dpt d fa)) ∧
    (d.toNat < profD s.hart.u.zwprof →
      (s.myMends = [] → va.toNat % 64 ≠ 0 → Traps (.dld d xa) s 4 va ∧ Traps (.dst d xa) s 6 va) ∧
      (va.toNat % 64 = 0 → PlainAccess .load s va 64 pa →
        let v (i : Nat) : Nat := s.memNat (pa + 4 * i) 4
        let w (i : Nat) : Nat := s.memNat (pa + 32 + 2 * i) 2
        let form : Bool := s.memNat (pa + 50) 1 % 2 = 1
        let points := (List.range 8).map fun i => (v i, w i)
        let legal := if form then ∀ i, i < 8 → w i = 8192 else ((List.range 8).map w).sum = 65536
        (legal → Yields (.dld d xa) s { d := [d] } fun t =>
          t.rd d = distOf (if form then points else distSort points) (BitVec.ofNat 16 (s.memNat (pa + 48) 2)) form) ∧
        (¬ legal → s.part.hotEn = false → Traps (.dld d xa) s 27 va)) ∧
      (va.toNat % 64 = 0 → PlainAccess .store s va 64 pa → s.split = 0 →
        Yields (.dst d xa) s { mem := some (pa, 64) } fun t =>
          (∀ i, i < 8 → t.memNat (pa + 4 * i) 4 = (x.points.getD i (0, 0)).1 ∧ t.memNat (pa + 32 + 2 * i) 2 = (x.points.getD i (0, 0)).2) ∧
          t.memNat (pa + 48) 2 = x.tag.toNat ∧ t.memNat (pa + 50) 1 = (if x.form then 1 else 0) ∧ t.memNat (pa + 51) 13 = 0) ∧
      (∀ q, va.toNat % 64 = 0 → PlainAccess .store s va 64 pa → s.split ≠ 0 →
        (∀ i, i < 8 → walkOf s (xmodeOf s.hart .store) .store (va + BitVec.ofNat 64 (8 * i)) = .ok (pa + 8 * i) none) →
        exec (.dst d xa) { s with split := 0 } = .next q →
        ∃ t, exec (.dst d xa) s = .next t ∧ RetiredTo s.nextPc s t ∧ SameHart {} s t ∧
          (∀ a, (a < pa ∨ pa + 64 ≤ a) → t.byte a = s.byte a) ∧
          (∀ i, i < 8 → t.bytes (pa + 8 * i) 8 = if s.split.getLsbD i then s.bytes (pa + 8 * i) 8 else q.bytes (pa + 8 * i) 8) ∧
          t.tail = s.tail ++ ((List.range 8).filter fun i => s.split.getLsbD i).map fun i =>
            ⟨s.hart.id, .home (pa + 8 * i), q.bytes (pa + 8 * i) 8⟩) ∧
      (extracts (.dmom f d n) (moment x n.toNat) ∧ extracts (.dqnt f d fa) (quantile x (unpack fp32 (s.fs fa))) ∧
        extracts (.dcdf f d fa) (cumulative x (unpack fp32 (s.fs fa)))) ∧
      Yields (.dtag xd d) s { x := [xd] } fun t =>
        t.rx xd = if xd = 0 then 0 else BitVec.ofNat 64 (x.tag.toNat + if x.form then 65536 else 0))

/-! ## Tasks and versions (R269 to R299) -/

/-- R271, R274, R281, R286, R287, R289: of a request that Ringmaster takes at once, TSPAWN gives −2 for an ill-formed descriptor, −1 with a full
table, else the handle of the lowest free entry, which holds the task; TDEC counts its task down, READY at 0, and raises cause 29 where it
cannot; TCANCEL frees its task and gives the state it had; TSTAT gives the status word and TBUDG exchanges the budget. That an entry never used
has generation 1 is the model's choice (log 6). -/
def Obligations.TaskRequests : Prop :=
  ∀ (s : State) (d a : XReg) (rec : Nat), s.rmFree → s.myMends = [] → s.hart.dropped = none →
    let v := s.rx a
    let tasks := s.part.rm.tasks
    let gives (x : Word) (t : State) : Prop := t.rx d = if d = 0 then 0 else x
    let stands (t : State) : Prop := t.part.rm.tasks = tasks ∧ t.part.dlmiss = s.part.dlmiss
    let live (i : Nat) : Prop := ∃ e ∈ tasks, e.live = true ∧ e.idx = i
    (v.toNat % 128 ≠ 0 → Traps (.tspawn d a) s 4 v) ∧
    (v.toNat % 128 = 0 → PlainAccess .load s v 128 rec →
      let bs := s.bytes rec 128
      (descLegal bs = false → Yields (.tspawn d a) s { x := [d] } (gives (-2))) ∧
      (descLegal bs = true → (∀ i, i < s.part.tasks → live i) →
        YieldsTasks (.tspawn d a) s { x := [d] } fun t => gives (-1) t ∧ stands t) ∧
      (∀ i, descLegal bs = true → i < s.part.tasks → ¬ live i → (∀ j, j < i → live j) →
        let gen := match tasks.find? fun e => e.idx == i with | some e => e.gen | none => 1
        YieldsTasks (.tspawn d a) s { x := [d] } fun t =>
          gives ((BitVec.ofNat 32 (gen * 2 ^ 18 + i)).setWidth 64) t ∧ t.part.dlmiss = s.part.dlmiss ∧
          ∃ e, t.part.rm.tasks = tasks.filter (fun x => x.idx ≠ i) ++ [e] ∧ e.idx = i ∧ e.gen = gen ∧
            e.state = (if recNat bs 32 2 = 0 then .ready else .waiting) ∧ e.count = recNat bs 32 2 ∧ e.decr = false ∧ e.runs = 0 ∧
            e.stamp = s.pkg.zaclk.toNat ∧ e.desc = descOf bs ∧
            e.inputs = Vector.ofFn fun j => ((descInputs bs)[j.val]?).map fun va => ⟨va, none, 0⟩)) ∧
    (∀ e, s.task? v = some e → e.count ≠ 0 →
      YieldsTasks (.tdec a) s {} fun t => EditsTask s t e.idx fun x =>
        if x.count = 1 then madeReady s { x with count := 0 } else { x with count := x.count - 1 }) ∧
    ((∀ e, s.task? v = some e → e.count = 0) → exec (.tdec a) s = .next ((s.modRm fun m => { m with used := true }).takeTrap 29 s.pc v)) ∧
    (∀ e, s.task? v = some e →
      YieldsTasks (.tcancel d a) s { x := [d] } fun t =>
        gives (BitVec.ofNat 64 (match e.state with | .free => 0 | .waiting => 1 | .ready => 2 | .running => 3 | .ended => 4)) t ∧
        EditsTask s t e.idx fun x => { x with state := .free, gen := x.gen % 16383 + 1, inSet := false, marked := false }) ∧
    (s.task? v = none → YieldsTasks (.tcancel d a) s { x := [d] } fun t => gives (-1) t ∧ stands t) ∧
    (∀ e, s.task? v = some e →
      Yields (.tstat d a) s { x := [d] } (gives (BitVec.ofNat 64
        (min e.runs 65535 * 2 ^ 48 + e.count * 2 ^ 16 + (if e.decr then 8 else 0) +
          match e.state with | .free => 0 | .waiting => 1 | .ready => 2 | .running => 3 | .ended => 4)))) ∧
    (s.task? v = none → Yields (.tstat d a) s { x := [d] } (gives 0)) ∧
    (s.hart.u.ztask = 0 → Yields (.tbudg d a) s { x := [d] } (gives 0)) ∧
    (s.hart.u.ztask ≠ 0 → Yields (.tbudg d a) s { x := [d], task := true } fun t =>
      gives s.hart.u.zbudget t ∧ t.hart.u.zbudget = v ∧ t.hart.u.ztask = s.hart.u.ztask ∧ (t.hart.budgetDue = true ↔ v = 0))

/-- R282, R284, R285: with no task TEND and TYIELD do nothing; TYIELD makes the task READY; TEND makes it READY when an input has moved,
ENDED otherwise, counts a missed deadline, and by its first completion decrements each successor once for each time it is named, READY at
0; a successor that cannot be decremented raises cause 29 and nothing changes. The thread then has no task. (For a run that wrote no bound
region.) -/
def Obligations.TaskEnds : Prop :=
  ∀ (s : State) (k : Task) (pa : Nat → Nat), s.rmFree → s.myMends = [] → s.hart.dropped = none → s.hart.wrote = [] →
    let h := s.hart.u.ztask
    let idle (t : State) : Prop := t.hart.u.ztask = 0 ∧ t.hart.u.zbudget = 0
    (h = 0 → Yields .tend s {} (fun _ => True) ∧ Yields .tyield s {} fun _ => True) ∧
    (h ≠ 0 → s.task? (h.setWidth 64) = some k → (s.part.rm.tasks.map Task.idx).Nodup →
      let moved := ∃ va p c, some ⟨va, some p, c⟩ ∈ k.inputs.toList ∧ c < s.version p
      let late := k.desc.deadline ≠ 0 ∧ k.desc.deadline.toNat < s.pkg.zaclk.toNat
      let ends (t : State) (e : Task) : Prop :=
        idle t ∧ (moved → t.task? (h.setWidth 64) = some (madeReady s e)) ∧
        (¬ moved → t.task? (h.setWidth 64) = some { e with state := .ended, marked := false }) ∧
        (late → t.part.dlmiss = s.part.dlmiss + 1) ∧ (¬ late → t.part.dlmiss = s.part.dlmiss)
      YieldsTasks .tyield s { task := true } (fun t => idle t ∧ EditsTask s t k.idx (madeReady s)) ∧
      (k.decr = true → YieldsTasks .tend s { task := true } fun t =>
        ends t k ∧ ∀ g, g ≠ h → t.task? (g.setWidth 64) = s.task? (g.setWidth 64)) ∧
      (let n := k.desc.nsucc
       let at' (i : Nat) : Word := k.desc.succ + BitVec.ofNat 64 (4 * i)
       let l : List (BitVec 32) := (List.range n).map fun i => BitVec.ofNat 32 (s.memNat (pa i) 4)
       let cannot (g : BitVec 32) : Prop := ∀ e, s.task? (g.setWidth 64) = some e → e.count < l.count g
       k.decr = false → (∀ i, i < n → PlainAccess .load s (at' i) 4 (pa i) ∧ InLine (at' i) 4) →
       (∀ p g q, l = p ++ g :: q → (∀ f ∈ p, ¬ cannot f) → cannot g → s.part.hotEn = false →
         exec .tend s = .next ((s.modRm fun m => { m with used := true }).takeTrap 29 s.pc (g.setWidth 64))) ∧
       ((∀ g ∈ l, ¬ cannot g) → h ∉ l → YieldsTasks .tend s { task := true } fun t =>
         ends t { k with decr := true } ∧
         (∀ g ∈ l, ∀ e, s.task? (g.setWidth 64) = some e →
           t.task? (g.setWidth 64) =
             some (if e.count = l.count g then madeReady s { e with count := 0 } else { e with count := e.count - l.count g })) ∧
         ∀ g, g ∉ l → g ≠ h → t.task? (g.setWidth 64) = s.task? (g.setWidth 64))))

/-- R275, R277, R278, R279, R288: a TTAKE of a thread on an L-core without a task waits; in the next A-clock Ringmaster gives it the task that
goes before every other of the ready set: the task runs, and the thread goes on at its ENTRY with ARG, the handle and the budget, which the
assigning A-clock counts where the worker's condition in it counts (log 62, the model's reading). (For a task without inputs.) -/
def Obligations.TaskAssignment : Prop :=
  ∀ (s : State) (n : Nat) (d : XReg) (k : Task), s.rmFree → s.hart.id = .lcore n → s.hart.u.ztask = 0 → s.NamesDistinct →
    s.part.rm.takers = [] → s.active = true → s.part.cmds = [] → s.part.hostReqs = [] → s.hart.car = none →
    k ∈ s.part.rm.tasks → k.state = .ready → k.inSet = true → k.inputs = Vector.replicate 8 none →
    (∀ e ∈ s.part.rm.tasks, e.state = .ready → e ≠ k → goesBefore k e ∧ e.idx ≠ k.idx) →
    (∀ e ∈ s.part.rm.tasks, e.idx = k.idx → e = k) →
    ∃ t u, exec (.ttake d) s = .next t ∧ t.hart = { s.hart with wait := some .ttake, resume := none } ∧ t.harts = s.harts ∧ t.mem = s.mem ∧
      exec .ringmasterClock t = .next u ∧ u.pkg.zaclk = s.pkg.zaclk + 1 ∧
      u.pc = k.desc.entry ∧ u.rx 10 = k.desc.arg ∧ u.rx 11 = k.handle.setWidth 64 ∧
      (d ≠ 0 → d ≠ 10 → d ≠ 11 → u.rx d = s.nextPc) ∧ (∀ r : XReg, r ≠ d → r ≠ 10 → r ≠ 11 → u.rx r = s.rx r) ∧
      (∀ r : FReg, u.rf r = s.rf r) ∧ u.hart.u.ztask = k.handle ∧
      (let counted := s.hart.installed.isSome = true ∧ s.hart.sup.mode = .u ∧ s.hart.homing = false ∧ k.handle ≠ 0
       (k.desc.budget = 0 → u.hart.u.zbudget = -1) ∧
       (k.desc.budget ≠ 0 → counted → k.desc.budget ≠ -1 → u.hart.u.zbudget = k.desc.budget - 1) ∧
       (k.desc.budget ≠ 0 → ¬ counted → u.hart.u.zbudget = k.desc.budget)) ∧
      u.hart.wait = none ∧ u.hart.instret = (if s.hart.sup.mcountinhibit.getLsbD 2 then s.hart.instret else s.hart.instret + 1) ∧
      ∃ e ∈ u.part.rm.tasks, e.idx = k.idx ∧ e.gen = k.gen ∧ e.state = .running ∧ e.runs = k.runs + 1

/-- R280, R287, R294: a marked run of a worker on an L-core with a refire vector is abandoned at its boundary: the task is READY, the thread has
none, x10 takes its handle and the pc the vector; at a budget of 0 the worker takes cause 28 with the next instruction as epc and the
handle in stval, its task and registers standing. -/
def Obligations.WorkerEvents : Prop :=
  ∀ (s : State) (n : Nat) (x : Hart), s.hart? (.lcore n) = some x → x.id = .lcore n → x.sup.mode = .u → x.handler = none →
    x.wait ≠ some .rmRequest → x.car = none → x.u.ztask ≠ 0 →
    let h : HartId := .lcore n
    let others (t : State) : Prop := (∀ k, k ≠ h → t.hart? k = s.hart? k) ∧ t.mem = s.mem ∧ t.poison = s.poison ∧ t.pkg = s.pkg
    (∀ k, s.task? (x.u.ztask.setWidth 64) = some k → k.marked = true → x.u.zrfvec ≠ 0 →
      ∃ t g, exec (.taskAbandon h) s = .next t ∧ others t ∧ t.hart? h = some g ∧
        g = { x with
              u := { x.u with x := x.u.x.set 10 (x.u.ztask.setWidth 64), pc := x.u.zrfvec ++ 0#1, ztask := 0, zbudget := 0 }
              budgetDue := false, wrote := [], resv := none, wait := none, resume := none, chosen := none } ∧
        EditsTask s t k.idx (madeReady s)) ∧
    (∀ k, s.task? (x.u.ztask.setWidth 64) = some k → k.marked = false → exec (.taskAbandon h) s = .next s) ∧
    (x.u.zbudget ≠ 0 → exec (.budgetExhausted h) s = .next s) ∧
    (x.budgetDue = true → x.u.zbudget = 0 → x.sup.medeleg.getLsbD 28 = true →
      ∃ t g, exec (.budgetExhausted h) s = .next t ∧ others t ∧ t.part = s.part ∧ t.hart? h = some g ∧
        g.sup.mode = .s ∧ g.sup.scause = 28 ∧ g.sup.sepc = x.u.pc &&& ~~~1 ∧ g.sup.stval = x.u.ztask.setWidth 64 ∧
        g.u = { x.u with pc := x.sup.stvec &&& ~~~3 } ∧ g.budgetDue = false ∧ g.wait = none)

/-- R291, R292, R293, R295: VPUB and VFIN on an object of plain memory raise words 0 and 1 by one, VFIN makes it final too, and a final or
exhausted object raises cause 31; a task with the object as an input that has moved is READY if ENDED, marked if it runs, on whichever
thread, under RESTART with a refire vector. VACQ gives word 1 and VACQ and VSUB record the version as consumed; VCHK tells whether an
input has moved. The model's choices: a ztask whose task has been freed acts as no task, −1 from VSUB and VCHK (log 58; R295 names ztask 0
alone); an update tried after a request of its A-clock has been applied is made in a later one (log 56); of an object that two inputs name
the lower alone counts (log 106). -/
def Obligations.VersionObjects : Prop :=
  ∀ (s : State) (d a : XReg) (pa : Nat), s.Inv → s.hart.dropped = none →
    let va := s.rx a
    let w1 := s.objWord pa 1
    let gives (x : Word) (t : State) : Prop := t.rx d = if d = 0 then 0 else x
    let kept (t : State) : Prop := t.part.rm.tasks = s.part.rm.tasks
    let holds (k : Task) (j : Nat) (x : TaskInput) : Prop := k.inputs.toList[j]? = some (some x) ∧ x.pa = some pa
    va.toNat % 32 = 0 →
    (PlainAccess .store s va 32 pa → Settled s pa → s.carried pa = [] →
      let publishes (i : Instr) (final : Word) : Prop :=
        (s.part.rm.used = true → ∃ t, exec i s = .next t ∧ t.hart = s.hart ∧ t.mem = s.mem ∧ t.poison = s.poison ∧ kept t) ∧
        (s.part.rm.used = false → w1.toNat < 2 ^ 63 - 1 →
          ∃ t, exec i s = .next t ∧ RetiredTo s.nextPc s t ∧ SameHart {} s t ∧ SameMemory { mem := some (pa, 16) } s t ∧
            t.objWord pa 0 = s.objWord pa 0 + 1 ∧ t.objWord pa 1 = w1 + 1 ||| final ∧
            ∀ e ∈ s.part.rm.tasks, ∀ i x, holds e i x → x.consumed < w1.toNat + 1 →
              (e.state = .ended → madeReady s e ∈ t.part.rm.tasks) ∧
              (e.state = .waiting ∨ e.state = .ready → e ∈ t.part.rm.tasks) ∧
              (e.state = .running → e.desc.complete = true → e ∈ t.part.rm.tasks) ∧
              (e.state = .running → e.desc.complete = false → ∀ u, s.worker? e.handle = some u →
                (u.zrfvec ≠ 0 → { e with marked := true } ∈ t.part.rm.tasks) ∧ (u.zrfvec = 0 → e ∈ t.part.rm.tasks))) ∧
        (s.part.rm.used = false → 2 ^ 63 - 1 ≤ w1.toNat → ∃ t, exec i s = .next (t.takeTrap 31 s.pc va) ∧ t.hart = s.hart ∧
          t.mem = s.mem ∧ kept t)
      publishes (.vpub a) 0 ∧ publishes (.vfin a) 0x8000000000000000) ∧
    (PlainAccess .load s va 32 pa → PlainAccess .load s (va + 8) 8 (pa + 8) →
      let completes (i : Instr) (R : State → Prop) : Prop :=
        ∃ t, exec i s = .next t ∧ RetiredTo s.nextPc s t ∧ SameHart { x := [d] } s t ∧ SameMemory {} s t ∧ t.harts = s.harts ∧ R t
      let version := w1.toNat % 2 ^ 63
      (s.currentTask = none →
        completes (.vacq d a) (fun t => gives w1 t ∧ kept t) ∧ completes (.vchk d a) (fun t => gives (-1) t ∧ kept t) ∧
        completes (.vsub d a) (fun t => gives (-1) t ∧ kept t)) ∧
      (∀ k, s.currentTask = some k →
        ((∀ j x, ¬ holds k j x) →
          completes (.vacq d a) (fun t => gives w1 t ∧ kept t) ∧ completes (.vchk d a) (fun t => gives (-1) t ∧ kept t) ∧
          ((∀ j, j < 8 → k.inputs.toList[j]? ≠ some none) → completes (.vsub d a) (fun t => gives (-2) t ∧ kept t)) ∧
          (∀ j, j < 8 → k.inputs.toList[j]? = some none → (∀ i, i < j → k.inputs.toList[i]? ≠ some none) →
            completes (.vsub d a) fun t => gives (BitVec.ofNat 64 j) t ∧
              EditsTask s t k.idx fun e =>
                { e with inputs := e.inputs.mapIdx fun i x => if i = j then some (⟨va, some pa, version⟩ : TaskInput) else x })) ∧
        (∀ j x, holds k j x → (∀ i y, i < j → ¬ holds k i y) →
          completes (.vacq d a) (fun t => gives w1 t ∧
            EditsTask s t k.idx fun e =>
              { e with inputs := e.inputs.mapIdx fun i x => if i = j then x.map fun y => { y with consumed := version } else x }) ∧
          completes (.vchk d a) (fun t => gives (if x.consumed < version then 1 else 0) t ∧ kept t) ∧
          completes (.vsub d a) (fun t => gives (BitVec.ofNat 64 j) t ∧
            EditsTask s t k.idx fun e =>
              { e with inputs := e.inputs.mapIdx fun i x => if i = j then some (⟨va, some pa, version⟩ : TaskInput) else x }))))

/-- R296, R297: VSETTLE gives −1 for the thread's own troupe, 0 for a troupe that holds no task, with an acquire, and waits otherwise; the
waiter of a troupe whose tasks have all ended on final inputs gets their number, and their entries are free, in the next A-clock. -/
def Obligations.TroupeSettles : Prop :=
  ∀ (s : State) (d a : XReg),
    let tr : BitVec 32 := (s.rx a).setWidth 32
    let mine := ∃ k, s.currentTask = some k ∧ k.desc.troupe = tr
    let held := s.part.rm.tasks.filter fun e => e.live && e.desc.troupe == tr
    (mine → Yields (.vsettle d a) s { x := [d] } fun t => t.rx d = if d = 0 then 0 else -1) ∧
    (¬ mine → held = [] →
      ∃ t, exec (.vsettle d a) s = .next t ∧ RetiredTo s.nextPc s t ∧ SameHart { x := [d] } s t ∧ t.rx d = 0 ∧ t.mem = s.mem ∧
        t.harts = s.harts ∧ ∀ b ∈ t.part.priv, b.who = s.who → b.dirty = true) ∧
    (¬ mine → held ≠ [] → ∃ t, exec (.vsettle d a) s = .next t ∧
      t.hart = { s.hart with wait := some (.vsettle tr), resume := none, car := s.hart.car.map (Car.refiled s) } ∧
      t.harts = s.harts ∧ t.mem = s.mem ∧ t.part.rm.tasks = s.part.rm.tasks ∧
      (⟨s.hart.id, d, tr, (s.ilen none).toNat, none⟩ : Settler) ∈ t.part.rm.settlers) ∧
    (∀ n len, s.hart.id = .lcore n → s.NamesDistinct → s.active = true → s.part.rm.hold = false → s.part.rm.used = false → s.part.rm.reqs = [] →
      s.part.rm.takers = [] → s.part.cmds = [] → s.part.hostReqs = [] → s.hart.wait = some (.vsettle tr) → held ≠ [] →
      s.part.rm.settlers = [⟨s.hart.id, d, tr, len, none⟩] →
      (∀ e ∈ held, e.state = .ended ∧ ∀ i ∈ e.inputs.toList, ∀ x, i = some x →
        ∃ p, x.pa = some p ∧ s.isFinal p = true ∧ x.consumed = s.version p) →
      (∀ e ∈ s.part.rm.tasks, e.live = true → e.desc.troupe = tr) →
      ∃ u, exec .ringmasterClock s = .next u ∧ u.pc = s.pc + BitVec.ofNat 64 len ∧ u.hart.wait = none ∧
        u.rx d = (if d = 0 then 0 else BitVec.ofNat 64 held.length) ∧ ∀ e ∈ u.part.rm.tasks, e.live = false)

/-! ## Groups, teams and migration (R30 to R37, R146 to R159) -/

/-- R35, R147 to R150: at the W-site REFORM and GLEAVE clear and set the detached state, GYIELD holds the lane back for one A-clock, and each
ends its group; at the L-site they change nothing. MIGR.W at the W-site and MIGR.L at the L-site set the home site and clear HOLD. -/
def Obligations.GroupControl : Prop :=
  ∀ (s : State) (ctx : Nat) (c : Car),
    let ended (t : State) : Prop := ∀ w, t.wcore? c.core = some w → ∀ g, some g ∈ w.slots.toList → ctx ∈ g.lanes → g.ending = true
    let detaches (i : Instr) (v : Bool) : Prop :=
      YieldsPart i s {} (fun p => { p with members := p.members.map fun m => if m.who = s.who then { m with detached := v } else m }) ended
    let homes (i : Instr) (site : Site) : Prop :=
      ∃ t, exec i s = .next t ∧ RetiredTo s.nextPc s t ∧
        Frame {} { s with hart := { s.hart with u := { s.hart.u with home := site, zsitectl := s.hart.u.zsitectl &&& 1 } } } t
    (s.site = .l → Yields .reform s {} (fun _ => True) ∧ Yields .gleave s {} (fun _ => True) ∧ Yields .gyield s {} fun _ => True) ∧
    (s.hart.id = .wthread ctx → s.hart.car = some c →
      detaches .reform false ∧ detaches .gleave true ∧
      ∃ t, exec .gyield s = .next t ∧ RetiredTo s.nextPc s t ∧ ended t ∧
        t.hart.car =
          some { c with waited := 0, entered := s.pkg.zaclk.toNat, skip := some (s.pkg.zaclk.toNat + 1) } ∧
        Frame {} s { t with hart := { t.hart with car := some c } }) ∧
    (s.myMends = [] → s.hart.dropped = none → (s.site = .l → homes .migrL .l) ∧ (s.site = .w → homes .migrW .w))

/-- R151, R152: TJOIN gives −5, −4, −1, −2 or −3 where it may not join and changes nothing; else the thread is a member with the rank
asked for, or with the lowest free one, and gets its rank. TLEAVE gives −1 in no team; else the rank, and its arrivals in incomplete
phases and those of this A-clock are withdrawn and the phases complete that waited for it alone; a member that has joined in this A-clock
is not waited for, its join coming after the clock's withdrawals (R157). The model's choices, so that a thread loads no byte older than what is
visible to it: at the W-site a join discards the clean bytes of the team's windows, and a leave first has their dirty bytes written back (log
41). (For a thread on its team's W-core or at the L-site.) -/
def Obligations.TeamMembership : Prop :=
  ∀ (s : State) (d a : XReg), s.myMends = [] → s.hart.dropped = none →
    let v := s.rx a
    let team : BitVec 16 := v.setWidth 16
    let members := s.part.members.filter fun m => m.team == team
    let gives (x : Word) (t : State) : Prop := t.rx d = if d = 0 then 0 else x
    let keeps (i : Instr) (x : Word) : Prop := Yields i s { x := [d] } (gives x)
    let taken (r : Nat) : Prop := ∃ m ∈ members, m.rank.toNat = r
    let anew (tm : Team) : Team :=
      if s.site = .w ∧ tm.num = team then
        { tm with windows := tm.windows.map fun w => { w with granules := w.granules.filterMap (Granule.drop fun _ => true) } }
      else tm
    let joins (r : Nat) : Prop :=
      YieldsPart (.tjoin d a) s { x := [d] }
        (fun p =>
          { p with
            members := p.members ++ [⟨s.who, team, BitVec.ofNat 12 r, false, 0, Vector.replicate 16 0, s.pkg.zaclk⟩]
            teams := p.teams.map anew })
        (gives (BitVec.ofNat 64 r))
    (2 ^ 29 ≤ v.toNat → keeps (.tjoin d a) (-5)) ∧
    (v.toNat < 2 ^ 29 → s.memberOf s.who ≠ none → keeps (.tjoin d a) (-4)) ∧
    (v.toNat < 2 ^ 29 → s.memberOf s.who = none →
      (team = 0 ∨ s.team? team = none → keeps (.tjoin d a) (-1)) ∧
      (∀ tm, team ≠ 0 → s.team? team = some tm → (∀ c, s.hart.car = some c → c.core = tm.wcore) →
        let asked := v.toNat / 2 ^ 16 % 2 ^ 12
        let any := v.getLsbD 28 = true
        (4096 ≤ members.length → keeps (.tjoin d a) (-2)) ∧
        (members.length < 4096 → ¬ any → taken asked → keeps (.tjoin d a) (-3)) ∧
        (members.length < 4096 → ¬ any → ¬ taken asked → joins asked) ∧
        (∀ r, members.length < 4096 → any → r < 4096 → ¬ taken r → (∀ q, q < r → taken q) → joins r))) ∧
    (s.memberOf s.who = none → keeps (.tleave d) (-1)) ∧
    (∀ m tm, s.memberOf s.who = some m → s.team? m.team = some tm →
      let s1 := s.flushLeaver m
      ∃ t tm', exec (.tleave d) s = .next t ∧ RetiredTo s.nextPc s t ∧ SameHart { x := [d], resv := true, watch := true } s t ∧
        t.mem = s1.mem ∧ t.poison = s1.poison ∧ t.harts = s1.harts ∧
        (s.site = .w → ∀ w ∈ tm'.windows, ∀ g ∈ w.granules, g.dirty = []) ∧
        (s.site = .l ∨ (∀ w ∈ tm.windows, ∀ g ∈ w.granules, g.dirty = []) →
          SameHart { x := [d] } s t ∧ SameMemory {} s t ∧ t.harts = s.harts) ∧
        gives (m.rank.setWidth 64) t ∧ t.part.members = s.part.members.filter (fun x => x.who ≠ m.who) ∧
        t.team? m.team = some tm' ∧ (∀ n, n ≠ m.team → t.team? n = s.team? n) ∧
        ∀ i : Fin 16,
          let b := tm.bars[i]
          let count := if m.pending.getLsbD i = true ∧ m.phase[i] = b.phase then b.count - 1 else b.count
          let left :=
            (t.part.members.filter fun x =>
              x.team == m.team && (x.since != s.pkg.zaclk || (x.pending.getLsbD i && x.phase[i] == b.phase))).length
          let arriving := b.arriving.filter (· ≠ m.who)
          tm'.bars[i] = if 1 ≤ left ∧ left ≤ count then ⟨b.phase + 1, 0, arriving⟩ else ⟨b.phase, count, arriving⟩)

/-- R35, R154 to R159, R305: at the L-site a team barrier instruction raises cause 24, with no installed thread or with AUTOMIG 0, and is
an implicit MIGR.W with AUTOMIG 1, which waits where no W-core can take the thread; at the W-site TBAR.ARR enters the thread's arrival
among those of the A-clock; TBAR.WAIT passes in no team, with no arrival to come and none pending, or after the phase, and waits
otherwise; TBAR.SYNC arrives unless its arrival is pending, then passes when the phase has advanced and waits otherwise. The arrivals of
an A-clock count at its end: the pending bits of those that arrive are set, and the phase advances when every member has arrived; one of a
member whose arrival in the phase is pending has no effect on it. An arrival first writes the thread's own dirty bytes of its team's windows
back, which the waiters read through the windows: where they go is the model's choice (log 41). (The end of an A-clock: for a team that nobody
has joined in it, with no request at Ringmaster, and, where the phase advances, with no second arrival of a pending member.) -/
def Obligations.TeamBarriers : Prop :=
  ∀ (s : State) (n : BitVec 4), s.myMends = [] → s.hart.dropped = none →
    let all (P : Instr → Prop) : Prop := P (.tbarArr n) ∧ P (.tbarWait n) ∧ P (.tbarSync n)
    let automig := s.hart.u.zsitectl.getLsbD 0 = true
    (s.site = .l → s.hart.installed = none ∨ ¬ automig → all fun i => Traps i s 24 ((instrWord i).setWidth 64)) ∧
    (∀ l ctx, s.hart.id = .lcore l → s.hart.installed = some ctx → s.hart.car = none → automig →
      (∀ w, s.departure = some w → all fun i =>
        ∃ t th, exec i s = .next t ∧ t.part.transit = s.part.transit ++ [⟨ctx, th, some w, 0, none, none⟩] ∧
          th.u = { s.hart.u with home := .w } ∧ t.hart.id = .lcore l ∧ t.hart.installed = none ∧ t.hart.sup.mode = .s ∧
          t.hart.sup.scause = 0x8000000000000010 ∧ t.hart.sup.sepc = s.pc &&& ~~~1) ∧
      (s.departure = none → all fun i =>
        ∃ t, exec i s = .next t ∧ t.hart = { s.hart with wait := some .migrate, resume := none, chosen := s.chosenDest } ∧
          t.harts = s.harts ∧ t.mem = s.mem ∧ t.part = s.part)) ∧
    (s.site = .w → s.memberOf s.who = none → all fun i => Yields i s {} fun _ => True) ∧
    (∀ m tm, s.site = .w → s.memberOf s.who = some m → s.team? m.team = some tm →
      (∀ x ∈ s.part.members, x.who = s.who → x = m) → (∀ x ∈ s.part.teams, x.num = m.team → x = tm) →
      let b := tm.bars[n.toNat]'n.isLt
      let pending := m.pending.getLsbD n.toNat = true
      let coming := s.who ∈ b.arriving
      let done := m.phase[n.toNat]'n.isLt ≠ b.phase
      let arrival : TeamBar := { b with arriving := if coming then b.arriving else b.arriving ++ [s.who] }
      let becomes (s1 t : State) (bit : Bool) (bar : TeamBar) : Prop :=
        t.mem = s1.mem ∧ t.poison = s1.poison ∧ t.harts = s1.harts ∧
        ∃ m' tm', t.memberOf s.who = some m' ∧ t.team? m.team = some tm' ∧
          (∀ k : BitVec 4, m'.pending.getLsbD k.toNat = if k = n then bit else m.pending.getLsbD k.toNat) ∧
          m'.phase = m.phase ∧ m'.rank = m.rank ∧ (s1.team? m.team).map Team.windows = some tm'.windows ∧
          ∀ k : BitVec 4, tm'.bars[k.toNat]'k.isLt = if k = n then bar else tm.bars[k.toNat]'k.isLt
      let leaves (i : Instr) (s1 : State) (bit : Bool) (bar : TeamBar) : Prop :=
        ∃ t, exec i s = .next t ∧ RetiredTo s.nextPc s t ∧ SameHart {} s t ∧ becomes s1 t bit bar
      let own := s.part.priv.filter fun p => p.dirty && (p.who == s.who && tm.windows.any fun w =>
        w.asid == p.asid && w.base.toNat ≤ p.va && p.va < w.base.toNat + w.len)
      let s1 := s.homeWindows
      (s.Inv → s.poison = [] → (∀ p ∈ own, (∀ q ∈ own, q.pa = p.pa → q = p) → s1.byte p.pa = p.val) ∧
        ∀ a, (∀ p ∈ own, p.pa ≠ a) → s1.byte a = s.byte a) ∧
      (own = [] → s1.mem = s.mem ∧ s1.poison = s.poison ∧ s1.harts = s.harts) ∧
      leaves (.tbarArr n) s1 (m.pending.getLsbD n.toNat) arrival ∧
      (coming ∨ pending ∧ ¬ done → Waits (.tbarWait n) s (.tbar n)) ∧
      (¬ coming → pending → done → leaves (.tbarWait n) s false b) ∧
      (¬ coming → ¬ pending → Yields (.tbarWait n) s {} fun _ => True) ∧
      (pending → coming ∨ ¬ done → Waits (.tbarSync n) s (.tbar n)) ∧
      (pending → ¬ coming → done → leaves (.tbarSync n) s false b) ∧
      (¬ pending → ∃ t, exec (.tbarSync n) s = .next t ∧ becomes s1 t false arrival ∧
        t.hart = { s.hart with wait := some (.tbar n), resume := none, car := s.hart.car.map (Car.refiled s) })) ∧
    (∀ tm ∈ s.part.teams, (∀ x ∈ s.part.teams, x.num = tm.num → x = tm) → (s.part.members.map Member.who).Nodup → s.NamesDistinct →
      s.part.rm.reqs = [] → s.part.rm.takers = [] → s.part.rm.settlers = [] → s.part.cmds = [] → s.part.hostReqs = [] → s.part.netReqs = [] →
      let b := tm.bars[n.toNat]'n.isLt
      let members := s.part.members.filter fun x => x.team == tm.num
      let again (x : Member) : Prop := x.pending.getLsbD n.toNat = true ∧ x.phase[n.toNat]'n.isLt = b.phase
      let counted := (members.filter fun x => b.arriving.contains x.who && !decide (again x)).length
      let last := counted ≠ 0 ∧ b.count + counted = members.length
      (∀ x ∈ members, x.since ≠ s.pkg.zaclk) → b.arriving.Nodup → b.count < members.length → b.count + counted ≤ members.length →
      (∀ who ∈ b.arriving, ∃ x ∈ members, x.who = who) → (last → ∀ x ∈ members, x.who ∈ b.arriving → ¬ again x) →
      ∃ t tm', exec .ringmasterClock s = .next t ∧ t.team? tm.num = some tm' ∧
        tm'.bars[n.toNat]'n.isLt = (if last then ⟨b.phase + 1, 0, []⟩ else ⟨b.phase, b.count + counted, []⟩) ∧
        ∀ x ∈ members, ∃ y, t.memberOf x.who = some y ∧ y.team = x.team ∧ y.rank = x.rank ∧
          (x.who ∈ b.arriving → y.pending.getLsbD n.toNat = true ∧ y.phase[n.toNat]'n.isLt = b.phase) ∧
          (x.who ∉ b.arriving → y.pending.getLsbD n.toNat = x.pending.getLsbD n.toNat ∧ y.phase[n.toNat]'n.isLt = x.phase[n.toNat]'n.isLt))

/-- R30 to R34, R147: MIGR.W of a thread installed on an L-core departs for its team's W-core, or the one with the fewest threads, with a
DEPART record and interrupt 16, and waits for the one chosen where it cannot take it; MIGR.L at the W-site leaves for the L-site; an arrival
gives the thread an entry at its W-core and its registers a park slot, or writes its image and an ARRIVE record; an extraction sends the
thread to the L-site with its signal and with HOLD clear. The model's choices: MIGR.W acts in S-mode as in U-mode (log 44); a park slot has the
layout of a context image, the pc at 200h and the x registers from 0 (log 48). -/
def Obligations.Migration : Prop :=
  ∀ (s : State), s.myMends = [] → s.NamesDistinct →
    let moved (u : User) (site : Site) : User := { u with home := site, zsitectl := u.zsitectl &&& 1, pc := s.nextPc }
    let departs (t : State) (n ctx w : Nat) (u : User) : Prop :=
      (∃ th, t.part.transit = s.part.transit ++ [⟨ctx, th, some w, 0, none, none⟩] ∧ th.u = u ∧ th.sup.mode = .u ∧
        th.instret = (if u.pc = s.pc then s.hart.instret else
          if s.hart.sup.mcountinhibit.getLsbD 2 then s.hart.instret else s.hart.instret + 1)) ∧
      t.part.wfq.count = s.part.wfq.count + 1 ∧ t.hart.id = .lcore n ∧ t.hart.installed = none ∧ t.hart.sup.mode = .s ∧
      t.hart.sup.scause = 0x8000000000000010 ∧ t.hart.sup.sepc = u.pc &&& ~~~1 ∧ t.harts.map Hart.id = s.harts.map Hart.id
    (∀ n, s.hart.id = .lcore n → s.hart.installed = none → Traps .migrW s 24 ((instrWord .migrW).setWidth 64)) ∧
    (∀ n ctx, s.hart.id = .lcore n → s.hart.installed = some ctx → s.hart.dropped = none → s.hart.car = none →
      (∀ w, s.departure = some w →
        (∃ t, exec .migrW s = .next t ∧ departs t n ctx w (moved s.hart.u .w)) ∧
        (∀ v, s.hart.chosen = some v → v ∈ s.part.wcoreNums → w = v) ∧
        (∀ m tm, s.hart.chosen = none → s.memberOf s.who = some m → s.team? m.team = some tm → w = tm.wcore) ∧
        (s.hart.chosen = none → s.memberOf s.who = none → w ∈ s.part.wcoreNums ∧
          ∀ v ∈ s.part.wcoreNums, s.threadsOn w < s.threadsOn v ∨ s.threadsOn w = s.threadsOn v ∧ w ≤ v) ∧
        (s.hart.goesHome = true → ∃ t, exec (.migrationDepart s.hart.id) s = .next t ∧ departs t n ctx w s.hart.u)) ∧
      (s.departure = none →
        ∃ t, exec .migrW s = .next t ∧ t.hart = { s.hart with wait := some .migrate, resume := none, chosen := s.chosenDest } ∧
          t.harts = s.harts ∧ t.mem = s.mem ∧ t.part = s.part)) ∧
    (∀ h x, s.hart? h = some x → x.wait = some .migrate → (s.focus h).departure ≠ none → Wakes (.migrationDepart h) h s) ∧
    (∀ ctx c, s.hart.id = .wthread ctx → s.hart.car = some c → s.harts ≠ [] → s.memberOf s.who = none → s.hart.dropped = none →
      (∃ t th, exec .migrL s = .next t ∧
        t.part.transit = s.part.transit ++ [⟨ctx, th, none, c.core, none, s.hart.extract⟩] ∧ th.u = moved s.hart.u .l ∧
        th.resv = none ∧ t.hart? (.wthread ctx) = none ∧ t.mem = s.mem) ∧
      (∀ sig, s.hart.extract = some sig → extractable s s.hart = true →
        ∃ t th, exec (.extraction (.wthread ctx)) s = .next t ∧
          t.part.transit = s.part.transit ++ [⟨ctx, th, none, c.core, none, some sig⟩] ∧
          th.u = { s.hart.u with zsitectl := s.hart.u.zsitectl &&& 1 } ∧
          t.hart? (.wthread ctx) = none ∧ t.mem = s.mem)) ∧
    (∀ x ∈ s.part.transit, (∀ y ∈ s.part.transit, y.ctx = x.ctx → y = x) → s.hart? (.wthread x.ctx) = none →
      (∀ w, x.dest = some w →
        ∃ t g c, exec (.arrivalWSite x.ctx) s = .next t ∧ t.hart? (.wthread x.ctx) = some g ∧ g.u = x.hart.u ∧ g.wait = none ∧
          g.car = some c ∧ c.core = w ∧ c.faultTag = none ∧ c.emulTag = none ∧ c.zparked = false ∧
          c.active = false ∧ (∀ k ∈ s.allHarts, ∀ c', k.car = some c' → c'.slot ≠ c.slot) ∧
          t.part.transit = s.part.transit.filter (fun y => y.ctx ≠ x.ctx) ∧ SameHart { resv := true, watch := true } s t ∧
          (s.part.parkPlaced = false → t.mem = s.mem) ∧
          (let slot := s.part.parkBase + 2048 * c.slot
           s.part.parkPlaced = true → s.poison = [] → s.Inv →
             (∀ a, (a < slot ∨ slot + 2048 ≤ a) → t.byte a = s.byte a) ∧ t.memNat (slot + 0x200) 8 = x.hart.u.pc.toNat ∧
             ∀ i : Fin 32, i ≠ 0 → t.memNat (slot + 8 * i.val) 8 = (x.hart.u.x[i]).toNat)) ∧
      (x.dest = none → s.wfqRoom = false → exec (.arrivalLSite x.ctx) s = .next s) ∧
      (let rec' := wfqAddr s.part.wfq s.part.wfq.count
       x.dest = none → s.wfqRoom = true → s.poison = [] → s.Inv → (rec' + 64 ≤ x.ctx ∨ x.ctx + 2048 ≤ rec') →
        ∃ t, exec (.arrivalLSite x.ctx) s = .next t ∧ t.part.transit = s.part.transit.filter (fun y => y.ctx ≠ x.ctx) ∧
          (∀ i : Fin 32, i ≠ 0 → t.memNat (x.ctx + 8 * i.val) 8 = (x.hart.u.x[i]).toNat) ∧
          (∀ i : Fin 32, t.memNat (x.ctx + 0x100 + 8 * i.val) 8 = (x.hart.u.f[i]).toNat) ∧
          t.memNat (x.ctx + 0x200) 8 = x.hart.u.pc.toNat ∧
          t.part.wfq.count = s.part.wfq.count + 1 ∧ t.memNat rec' 1 = 2 ∧ t.memNat (rec' + 8) 8 = x.ctx % 2 ^ 64 ∧
          t.memNat (rec' + 16) 8 = (match x.trap with | some p => p.epc.toNat | none => x.hart.u.pc.toNat) ∧
          ∃ a ∈ t.part.awaiting, a.kind = .arrive ∧ a.ctx = x.ctx ∧ t.memNat (rec' + 4) 4 = a.tag % 2 ^ 32 ∧
            ((∀ y ∈ s.part.awaiting, y.tag ≠ s.part.nextTag) → a.tag = s.part.nextTag)))

/-! ## The Carousel and the mending buffer (R47 to R52, R64 to R67) -/

/-- R49 to R51: a free slot of a running W-core draws the aged bin with the longest wait, else the full one, as a group of whole sets whose lanes
share pc, set width and class; a group whose lanes have all executed goes on, or ends where it must; 64 A-clocks in a slot end it; the lanes of
a group that ends enter their bins anew. -/
def Obligations.CarouselGroups : Prop :=
  ∀ (s : State) (w : Nat) (c : WCore) (slot : Fin 4), s.wcore? w = some c → c.num = w → s.clockStopped w = false → s.part.preempting = false →
    s.active = true → s.NamesDistinct → (∀ b ∈ s.bins c, b.wait < 2 ^ 64) →
    let here := s.allHarts.filter fun h => h.residentOn w
    let fits := here.length ≤ 1536 ∧ (here.map fun h => classSpace (profClass h.u.zwprof)).sum ≤ 2 ^ 20
    let ended (t : State) (g : Group) : Prop :=
      (∃ c', t.wcore? w = some c' ∧ c'.slots[slot] = none ∧ ∀ j : Fin 4, j ≠ slot → c'.slots[j] = c.slots[j]) ∧ t.mem = s.mem ∧
      ∀ k ∈ g.lanes, ∀ h q, s.hart? (.wthread k) = some h → h.car = some q →
        ∃ h' q', t.hart? (.wthread k) = some h' ∧ h'.u = h.u ∧ h'.wait = h.wait ∧ h'.car = some q' ∧ q'.waited = 0 ∧
          q'.entered = s.pkg.zaclk.toNat ∧ q'.conv = none ∧ q'.w32 = s.part.w32
    let drawn (t : State) (i : Fin 4) (b : Bin) : Prop :=
      ∃ c' g, t.wcore? w = some c' ∧ c'.slots[i] = some g ∧ g.todo = g.lanes ∧ g.ending = false ∧ g.clocks = 0 ∧ g.lanes ≠ [] ∧
        ((∀ h ∈ s.allHarts, ∀ k ∈ s.allHarts, setKey s h = setKey s k → vlaneOf s h = vlaneOf s k → h = k) → g.lanes.length ≤ 64) ∧
        (∀ j : Fin 4, j ≠ i → c'.slots[j] = c.slots[j]) ∧
        (∀ k ∈ g.lanes, ∃ h ∈ s.allHarts, h.id = .wthread k ∧ drawable s c h = true ∧ h.u.pc = b.pc ∧ setwOf s h = b.setw ∧
          profClass h.u.zwprof = b.cls) ∧
        (fits → t.mem = s.mem ∧ ∀ k ∈ g.lanes, ∃ h q, t.hart? (.wthread k) = some h ∧ h.car = some q ∧ q.active = true) ∧
        ∀ h, (t.hart? h).map Hart.u = (s.hart? h).map Hart.u
    let oldest (b : Bin) : Prop := b ∈ s.bins c ∧ s.part.zage.toNat < b.wait ∧ ∀ b' ∈ s.bins c, s.part.zage.toNat < b'.wait → b'.wait ≤ b.wait
    let fullest (b : Bin) : Prop :=
      b ∈ s.bins c ∧ 64 / b.setw ≤ (b.sets s).length ∧ ∀ b' ∈ s.bins c, 64 / b'.setw ≤ (b'.sets s).length → b'.wait ≤ b.wait
    let aged := ∃ b, oldest b
    let full := ∃ b, fullest b
    (c.slots[slot] = none →
      (aged → ∃ t b, exec (.carouselDraw w slot.val) s = .next t ∧ oldest b ∧ drawn t slot b) ∧
      (¬ aged → full → ∃ t b, exec (.carouselDraw w slot.val) s = .next t ∧ fullest b ∧ drawn t slot b) ∧
      (¬ aged → ¬ full → exec (.carouselDraw w slot.val) s = .next s) ∧
      (aged → (∀ j : Fin 4, j < slot → c.slots[j] ≠ none) → ∃ t b, exec (.binAged w) s = .next t ∧ oldest b ∧ drawn t slot b)) ∧
    (¬ aged → exec (.binAged w) s = .next s) ∧
    (∀ g, c.slots[slot] = some g →
      (g.todo ≠ [] → exec (.carouselDraw w slot.val) s = .next s) ∧
      (g.todo = [] → g.ending = false → g.lanes ≠ [] →
        CoreEvent w (.carouselDraw w slot.val) s fun t => ∃ c', t.wcore? w = some c' ∧
          c'.slots[slot] = some { g with todo := g.lanes, code := [] } ∧
          ∀ j : Fin 4, j ≠ slot → c'.slots[j] = c.slots[j]) ∧
      (g.todo = [] → g.ending = true → ∃ t, exec (.carouselDraw w slot.val) s = .next t ∧ ended t g) ∧
      (64 ≤ g.clocks → ∃ t, exec (.groupSlotLimit w slot.val) s = .next t ∧ ended t g) ∧
      (g.clocks < 64 → exec (.groupSlotLimit w slot.val) s = .next s))

/-- R66: the oldest queued store of a thread, to plain memory, is performed at its turn: its bytes are in memory, no other byte changes, and it
leaves the buffer; the 64 bytes of a distribution image are stored by 8-byte words, of which some may be left to be performed later (R263, log
95); an entry whose record awaits disposition stands. -/
def Obligations.MendingEntry : Prop :=
  ∀ (s : State) (w ctx : Nat) (x : Hart) (k : Car) (m : Mend) (pa : Nat), s.Inv → s.hart = x → x.id = .wthread ctx → x.car = some k →
    k.core = w → s.headMend w ctx = some m → s.mendRuns w = true →
    (∀ tag, m.state = .awaiting tag → exec (.mendingEntryPerform w ctx) s = .next s) ∧
    let leaves (t : State) : Prop :=
      ∀ c, s.wcore? w = some c → ∃ c' l r, t.wcore? w = some c' ∧ c.mend = l ++ m :: r ∧ c'.mend = l ++ r ∧ ∀ y ∈ l, y.ctx ≠ ctx
    (m.state = .queued → m.op = .store → m.bytes ≠ [] → m.bytes.length ≠ 64 →
      PlainAccess .store (s.modW w fun c => { c with mend := [] }) m.va m.bytes.length pa →
      InLine m.va m.bytes.length → (∀ v ∈ s.part.wcores, ∀ u ∈ s.part.wcores, v.num = u.num → v = u) →
      ∃ t, exec (.mendingEntryPerform w ctx) s = .next t ∧ t.hart = s.hart ∧ SameHarts { mem := some (pa, m.bytes.length) } s t ∧
        SameMemory { mem := some (pa, m.bytes.length) } s t ∧ t.bytes pa m.bytes.length = m.bytes ∧ leaves t) ∧
    (m.state = .queued → m.op = .store → m.bytes.length = 64 → PlainAccess .store (s.modW w fun c => { c with mend := [] }) m.va 64 pa →
      InLine m.va 64 → (∀ v ∈ s.part.wcores, ∀ u ∈ s.part.wcores, v.num = u.num → v = u) →
      (∀ i, i < 8 → walkOf s (xmodeOf s.hart .store) .store (m.va + BitVec.ofNat 64 (8 * i)) = .ok (pa + 8 * i) none) →
      let word (i : Nat) : List Byte := (m.bytes.drop (8 * i)).take 8
      ∃ (t : State) (l : List Nat), exec (.mendingEntryPerform w ctx) s = .next t ∧ t.hart = s.hart ∧ SameHarts { mem := some (pa, 64) } s t ∧
        SameMemory { mem := some (pa, 64) } s t ∧ leaves t ∧ l.Sublist (List.range 8) ∧
        t.tail = s.tail ++ l.map (fun i => ⟨s.hart.id, .home (pa + 8 * i), word i⟩) ∧
        ∀ i, i < 8 → t.bytes (pa + 8 * i) 8 = if i ∈ l then s.bytes (pa + 8 * i) 8 else word i)

/-! ## CSR writes, supervisor instructions, handlers and interrupts (R134, R303 to R318) -/

/-- R313 to R317: outside S-mode at an L-core the four raise cause 2. ZSIGNAL marks its thread once; ZPARK gives −1, 2, 1 or 0, −1 for a
context on another package too (R328, the model's reading, log 65), waits for a thread in transit, in a request to Ringmaster or about to
migrate, and parks a resident one, whose registers go to its park slot, in the layout of a context image (log 48, the model's choice), whose
reservation ends and whose waiting instruction executes again from the start, but for a wait at a team barrier, which stands (R159), and for
one for a place on the team's W-core (log 61); ZFQPOP moves the first record to its buffer and gives its kind, 0 from an empty or served
queue.
R315: a ZRESUME with rs2 above 1 raises cause 2, on a misaligned record cause 4; a record of no known KIND, a DEPART record and one whose TAG
awaits no disposition have no effect, and so has one whose TAG is awaited under another KIND (the model's reading, log 64). FAULT lets the
lane go on, or sends the thread to the L-site with the record's trap, at once or when its mended stores have drained; MEND replays the entry,
when the W-core's clock runs again if it is stopped, or drops it and marks the thread; EMUL writes RESULT, FFLAGS and the pc (the length of
the instruction where RESUME is 0, bit 0 cleared: logs 109, 110), or sends the thread off as FAULT does; ARRIVE installs the thread here, a
thread installed before saved, and enters U-mode at PC (as it stands, log 110) or takes the pending trap; RUN ends a ZPARK park, or installs
part B of a thread that is nowhere (which context areas are none: logs 64, 111). (The replay: of a store to plain memory; RESULT: with no
park area placed; a departure: of a thread without a team.) -/
def Obligations.SupervisorInstructions : Prop :=
  ∀ (s : State) (n : Nat) (d a b : XReg) (pa : Nat), s.Inv → s.hart.id = .lcore n → s.NamesDistinct →
    let x := s.rx a
    let y := s.rx b
    let ctx := x.toNat
    let gives (v : Word) (t : State) : Prop := t.rx d = if d = 0 then 0 else v
    (s.hart.sup.mode ≠ .s →
      let illegal (i : Instr) : Prop := Traps i s 2 (illegalTval (instrWord i) s)
      illegal (.zresume a b) ∧ illegal (.zfqpop d a) ∧ illegal (.zpark d a) ∧ illegal (.zsignal a b)) ∧
    (s.hart.sup.mode = .s →
      (∃ t, exec (.zsignal a b) s = .next t ∧ RetiredTo s.nextPc s t ∧ SameHart {} s t ∧ t.mem = s.mem ∧
        (∀ h, s.hart? (.wthread ctx) = some h → t.hart? (.wthread ctx) = some { h with extract := h.extract.or (some (y.setWidth 8)) }) ∧
        (∀ h, h ≠ s.hart.id → h ≠ .wthread ctx → t.hart? h = s.hart? h)) ∧
      (let bad := ctx % 2048 ≠ 0 ∨ areaIn s.part.ranges ctx 2048 = false ∨ ctx / 2 ^ 47 ≠ s.pkg.pkgId
       let out := s.inTransit ctx = false ∧ ∀ h, s.hart? (.wthread ctx) = some h →
         h.wait ≠ some .rmRequest ∧ (∀ k, h.wait ≠ some (.leave k)) ∧ ∀ c, h.car = some c → c.leaving = none
       let keeps (v : Word) : Prop := Yields (.zpark d a) s { x := [d] } (gives v)
       let placed := s.part.parkPlaced
       (bad → keeps (-1)) ∧
       (¬ bad → ¬ out → Waits (.zpark d a) s (.zpark ctx)) ∧
       (¬ bad → out → s.hart.installed = some ctx → ∃ t, exec (.zpark d a) s = .next t ∧ gives 2 t ∧ t.hart.installed = none ∧
         t.pc = s.nextPc ∧ ∀ r : XReg, r ≠ d → t.rx r = s.rx r) ∧
       (¬ bad → out → s.hart.installed ≠ some ctx → s.hart? (.wthread ctx) = none → keeps (-1)) ∧
       (∀ h c, ¬ bad → out → s.hart.installed ≠ some ctx → s.hart? (.wthread ctx) = some h → h.car = some c →
         let slot := s.part.parkBase + 2048 * c.slot
         (c.zparked = true → keeps 1) ∧
         (c.zparked = false → ∃ t g, exec (.zpark d a) s = .next t ∧ RetiredTo s.nextPc s t ∧
           SameHart { x := [d], resv := placed, watch := placed } s t ∧ gives 0 t ∧ t.part.still = s.part.still ∧
           t.hart? (.wthread ctx) = some g ∧
           g = { h with
                 resv := none, wait := g.wait, resume := none, watch := g.watch, car := some { c with zparked := true, active := false } } ∧
           g.wait = (match h.wait with | some (.tbar k) => some (.tbar k) | some (.teamMove k) => some (.teamMove k) | _ => none) ∧
           (placed = false → g.watch = h.watch ∧ t.mem = s.mem ∧ ∀ k, k ≠ s.hart.id → k ≠ .wthread ctx → t.hart? k = s.hart? k) ∧
           (placed = true → s.poison = [] →
             t.memNat (slot + 0x200) 8 = h.u.pc.toNat ∧ (∀ r : XReg, r ≠ 0 → Holds t (slot + 8 * r.toNat) 8 (h.u.rx r)) ∧
             ∀ p, p < slot ∨ slot + 2048 ≤ p → t.byte p = s.byte p)))) ∧
      (let em := x.getLsbD 0 = true
       let buf := x &&& ~~~1
       let q := if em then s.part.emq else s.part.wfq
       let empty := q.count ≤ q.taken.length ∨ em ∧ q.serve = true
       let size := if em then 128 else 64
       let from' := if em then emqAddr s.part.emq s.part.emq.taken.length else wfqAddr s.part.wfq 0
       (buf.toNat % size ≠ 0 → Traps (.zfqpop d a) s 6 buf) ∧
       (buf.toNat % size = 0 → empty → Yields (.zfqpop d a) s { x := [d] } (gives 0)) ∧
       (buf.toNat % size = 0 → ¬ empty → PlainAccess .store s buf size pa →
         YieldsPart (.zfqpop d a) s { x := [d], mem := some (pa, size) }
           (fun p =>
             if em then
               { p with
                 emq :=
                   if p.emq.taken = [] then { p.emq with head := (p.emq.head + 1) % 2 ^ (p.emq.size + 5), count := p.emq.count - 1 }
                   else p.emq.take true }
             else { p with wfq := { p.wfq with head := (p.wfq.head + 1) % 2 ^ (p.wfq.size + 6), count := p.wfq.count - 1 } })
           fun t => gives (BitVec.ofNat 64 (s.memNat from' 1)) t ∧ t.bytes pa size = s.bytes from' size)) ∧
      (let num (off len : Nat) : Nat := s.memNat (pa + off) len
       let kind := num 0 1
       let tag := num 4 4
       let size := if kind = 6 then 128 else 64
       let does (R : State → Prop) : Prop := ∃ t, exec (.zresume a b) s = .next t ∧ RetiredTo s.nextPc s t ∧ SameHart {} s t ∧ R t
       let disposed (t : State) : Prop := t.part.awaiting = s.part.awaiting.filter fun r => r.tag ≠ tag
       let entry (k : AwaitKind) (q : Await) : Prop :=
         q ∈ s.part.awaiting ∧ q.tag = tag ∧ q.kind = k ∧ ∀ r ∈ s.part.awaiting, r.tag = tag → r = q
       let departs (q : Await) : Prop := ∀ h c, s.hart? (.wthread q.ctx) = some h → h.car = some c → h.dropped = none →
         s.memberOf (.wthread q.ctx) = none →
         let trap : PendTrap := ⟨q.cause, q.pc, q.addr⟩
         let mends := ∃ w m, s.wcore? c.core = some w ∧ m ∈ w.mend ∧ m.ctx = q.ctx
         does fun t => disposed t ∧ t.mem = s.mem ∧
           (¬ mends → s.clockStopped c.core = false → t.hart? (.wthread q.ctx) = none ∧
             t.part.transit = s.part.transit ++ [⟨q.ctx,
               { h with car := none, wait := none, resume := none, resv := none, watch := none, extract := none }, none, c.core, some trap,
               h.extract⟩]) ∧
           (mends ∨ s.clockStopped c.core = true → t.part.transit = s.part.transit ∧
             t.hart? (.wthread q.ctx) =
               some { h with wait := none, resume := none, car := some { c with faultTag := none, emulTag := none, leaving := some trap } })
       (1 < y.toNat → Traps (.zresume a b) s 2 (illegalTval (instrWord (.zresume a b)) s)) ∧
       (y.toNat ≤ 1 → s.part.hotEn = false → PlainAccess .load s x 1 pa → ctx % size ≠ 0 → Traps (.zresume a b) s 4 x) ∧
       (y.toNat ≤ 1 → PlainAccess .load s x 1 pa → ctx % size = 0 → PlainAccess .load s x size pa →
         (kind ≠ 5 → (∀ q ∈ s.part.awaiting, q.tag = tag → q.kind.code ≠ kind) → Yields (.zresume a b) s {} fun _ => True) ∧
         (∀ q, kind = 3 → entry .fault q →
           (∀ h c, y = 0 → s.hart? (.wthread q.ctx) = some h → h.car = some c →
             does fun t => disposed t ∧ t.mem = s.mem ∧ t.hart? (.wthread q.ctx) = some { h with car := some { c with faultTag := none } }) ∧
           (y = 1 → departs q)) ∧
         (∀ q h k c, kind = 4 → entry .mend q → s.hart? (.wthread q.ctx) = some h → h.car = some k → s.wcore? k.core = some c →
           (y = 1 → does fun t => disposed t ∧ t.mem = s.mem ∧
             t.hart? (.wthread q.ctx) = some { h with dropped := h.dropped.or (some q.addr) } ∧
             ∃ c', t.wcore? k.core = some c' ∧ c'.mend = c.mend.filter fun m => m.state ≠ .awaiting tag) ∧
           (y = 0 → s.clockStopped k.core = true → does fun t => disposed t ∧ t.mem = s.mem ∧ t.hart? (.wthread q.ctx) = some h ∧
             ∃ c', t.wcore? k.core = some c' ∧
               c'.mend = c.mend.map fun m => if m.state = .awaiting tag then { m with state := .queued } else m) ∧
           (∀ m mp, y = 0 → s.clockStopped k.core = false → s.headMend k.core q.ctx = some m → m.state = .awaiting tag →
             (∀ m' ∈ c.mend, m'.state = .awaiting tag → m' = m) → m.op = .store → m.bytes ≠ [] → m.bytes.length ≠ 64 →
             (∀ v ∈ s.part.wcores, ∀ u ∈ s.part.wcores, v.num = u.num → v = u) → InLine m.va m.bytes.length →
             PlainAccess .store ((s.focus (.wthread q.ctx)).modW k.core fun c => { c with mend := [] }) m.va m.bytes.length mp →
             ∃ t, exec (.zresume a b) s = .next t ∧ RetiredTo s.nextPc s t ∧ SameHart { resv := true, watch := true } s t ∧ disposed t ∧
               SameMemory { mem := some (mp, m.bytes.length) } s t ∧ t.bytes mp m.bytes.length = m.bytes ∧
               ∃ c' l r, t.wcore? k.core = some c' ∧ c.mend = l ++ m :: r ∧ c'.mend = l ++ r)) ∧
         (∀ q, kind = 6 → entry .emul q →
           let after := if num 72 8 ≠ 0 then some (BitVec.ofNat 64 (num 72 8))
             else (emulLen (BitVec.ofNat 64 (num 24 8))).map fun n => q.pc + BitVec.ofNat 64 n
           (y = 1 ∨ after = none → departs q) ∧
           (∀ h c pc, y = 0 → after = some pc → s.part.parkPlaced = false → s.hart? (.wthread q.ctx) = some h → h.car = some c →
             let v : Word := BitVec.ofNat 64 (num 64 8)
             let dst (k : Nat) (r : BitVec 5) : Prop := num 80 1 = k ∧ r.toNat = num 81 1 % 32
             does fun t => disposed t ∧ t.mem = s.mem ∧ ∃ g, t.hart? (.wthread q.ctx) = some g ∧ { g with u := h.u, car := h.car } = h ∧
               g.car = some { c with emulTag := none } ∧ g.u.pc = pc &&& ~~~1 ∧
               g.u.fflags = h.u.fflags ||| BitVec.ofNat 5 (num 82 1) ∧
               (∀ r : XReg, (dst 1 r → g.u.rx r = if r = 0 then 0 else v) ∧ (¬ dst 1 r → g.u.rx r = h.u.rx r)) ∧
               ∀ r : FReg, (dst 2 r → g.u.rf r = v) ∧ (¬ dst 2 r → g.u.rf r = h.u.rf r))) ∧
         (∀ q, kind = 2 → entry .arrive q →
           let s1 := (s.retireTo s.nextPc).uninstall
           ∃ t u, exec (.zresume a b) s = .next t ∧ disposed t ∧ t.mem = s1.mem ∧ u.hart.installed = some q.ctx ∧
             u.hart.sup = { s.hart.sup with mode := .u } ∧ u.pc = BitVec.ofNat 64 (num 16 8) ∧
             (∀ r : XReg, r ≠ 0 → (u.rx r).toNat = s1.memNat (q.ctx + 8 * r.toNat) 8) ∧
             (∀ r : FReg, (u.rf r).toNat = s1.memNat (q.ctx + 0x100 + 8 * r.toNat) 8) ∧
             t = if num 2 1 % 2 = 1 then u.takeTrap (num 1 1) (BitVec.ofNat 64 (num 16 8)) (BitVec.ofNat 64 (num 24 8)) else u) ∧
         (let rctx := num 8 8
          let none' := rctx % 2048 ≠ 0 ∨ areaIn s.part.ranges rctx 2048 = false ∨ s.onPackage rctx = false ∨ s.inTransit rctx = true ∨
            ∃ h ∈ s.allHarts, h.installed = some rctx
          kind = 5 →
            (∀ h c, s.hart? (.wthread rctx) = some h → h.car = some c →
              (c.zparked = true → does fun t => t.part.awaiting = s.part.awaiting ∧ t.mem = s.mem ∧
                t.hart? (.wthread rctx) = some { h with car := some { c with zparked := false } }) ∧
              (c.zparked = false → Yields (.zresume a b) s {} fun _ => True)) ∧
            (s.hart? (.wthread rctx) = none → none' → Yields (.zresume a b) s {} fun _ => True) ∧
            (s.hart? (.wthread rctx) = none → ¬ none' →
              ∃ t, exec (.zresume a b) s = .next t ∧ RetiredTo s.nextPc s t ∧ t.mem = s.uninstall.mem ∧ t.hart.installed = some rctx ∧
                t.hart.sup = s.hart.sup ∧ (∀ r : XReg, t.rx r = s.rx r) ∧ (∀ r : FReg, t.rf r = s.rf r) ∧
                t.hart.u.zwprof.toNat = s.uninstall.memNat (rctx + 0x278) 2 ∧ t.hart.u.zseed.toNat = s.uninstall.memNat (rctx + 0x258) 8)))))

/-- R92, R303, R310, R312: an idle Roustabout core takes the next emulation record, at the handler's address of the entry as the trap
found it, bit 0 cleared (the model's choice, log 110); that the record keeps its place in the ring until it is disposed, and that a withdrawn
one is passed over, is the model's reading (log 68); a handler that has run for 2^20 A-clocks ends with its record disposed as FATAL: the
thread leaves for the L-site with the record's trap, at once or when its mended stores have drained and its W-core's clock runs; an enabled
pending interrupt enters its mode with its cause, one for M-mode before one for S-mode, and of one mode SEI before SSI before STI; the order
of the device's interrupts 16 to 18 among themselves and among those is left free (log 55), and an L-core that waits for Ringmaster to apply
its request takes none (the model's reading, log 61); the hot list holds 64 entries in descending order of estimate and raises interrupt 18 at
every L-core, and the counts start anew. -/
def Obligations.HandlersAndInterrupts : Prop :=
  ∀ (s : State) (n r : Nat), s.active = true →
    (r < 8 → s.part.preempting = false → s.part.emq.serve = true → s.part.emq.taken.length < s.part.emq.count → s.hart? (.roust r) = none →
      let q := s.part.emq
      let rec' := q.base + 0x1000 + 128 * ((q.head + q.taken.length) % 2 ^ (q.size + 5))
      let tag := s.memNat (rec' + 4) 4
      let part (done : Bool) : Part := { s.part with emq := q.take done, hotCounts := (s.sample [rec']).part.hotCounts }
      ((∀ y ∈ s.part.awaiting, y.tag = tag → y.kind ≠ .emul) → exec (.emulationHandlerRun r) s = .next { s with part := part true }) ∧
      (∀ at' ∈ s.part.awaiting, at'.tag = tag → at'.kind = .emul → (∀ y ∈ s.part.awaiting, y.tag = at'.tag → y = at') →
        ∃ t g run, exec (.emulationHandlerRun r) s = .next t ∧ t.hart? (.roust r) = some g ∧ g.sup.mode = .u ∧ g.handler = some run ∧
          g.u.pc = BitVec.ofNat 64 (recNat at'.entry 0 8) &&& ~~~1 ∧ g.sup.satp = BitVec.ofNat 64 (recNat at'.entry 8 8) ∧
          g.u.rx 10 = BitVec.ofNat 64 (recNat at'.entry 16 8) + BitVec.ofNat 64 (rec' - q.base) ∧
          run.tag = at'.tag ∧ run.ctx = at'.ctx ∧ run.started = s.pkg.zaclk.toNat ∧ run.recordAddr = rec' ∧
          t.part = part false ∧ (q.taken.head? ≠ some true → t.part.emq.count = q.count) ∧ t.mem = s.mem ∧
          t.hart = s.hart)) ∧
    (∀ g run, s.hart? (.roust r) = some g → g.handler = some run →
      let late := 2 ^ 20 ≤ s.pkg.zaclk.toNat - run.started ∧ s.NamesDistinct ∧ s.hart.id ≠ .roust r
      let emq' := s.part.emq.release run.recordAddr
      (s.pkg.zaclk.toNat - run.started < 2 ^ 20 → exec (.handlerTimeLimit r) s = .next s) ∧
      (late → (∀ y ∈ s.part.awaiting, y.tag ≠ run.tag) →
        ∃ t, exec (.handlerTimeLimit r) s = .next t ∧ t.hart? (.roust r) = none ∧ t.part = { s.part with emq := emq' } ∧ t.mem = s.mem ∧
          ∀ h, h ≠ .roust r → t.hart? h = s.hart? h) ∧
      (∀ at' h c, late → at' ∈ s.part.awaiting → at'.tag = run.tag → (∀ y ∈ s.part.awaiting, y.tag = run.tag → y = at') →
        s.hart.id ≠ .wthread at'.ctx → s.hart? (.wthread at'.ctx) = some h → h.car = some c → h.dropped = none →
        s.memberOf (.wthread at'.ctx) = none →
        let trap : PendTrap := ⟨at'.cause, at'.pc, at'.addr⟩
        let mends := ∃ w m, s.wcore? c.core = some w ∧ m ∈ w.mend ∧ m.ctx = at'.ctx
        ∃ t, exec (.handlerTimeLimit r) s = .next t ∧ t.hart? (.roust r) = none ∧ t.mem = s.mem ∧ t.part.emq = emq' ∧
          t.part.awaiting = s.part.awaiting.filter (fun y => y.tag ≠ run.tag) ∧
          (¬ mends → s.clockStopped c.core = false → t.hart? (.wthread at'.ctx) = none ∧
            t.part.transit = s.part.transit ++ [⟨at'.ctx,
              { h with car := none, wait := none, resume := none, resv := none, watch := none, extract := none }, none, c.core, some trap,
              h.extract⟩]) ∧
          (mends ∨ s.clockStopped c.core = true → t.part.transit = s.part.transit ∧
            t.hart? (.wthread at'.ctx) =
              some { h with wait := none, resume := none, car := some { c with faultTag := none, emulTag := none, leaving := some trap } }) ∧
          ∀ k, k ≠ .roust r → k ≠ .wthread at'.ctx → t.hart? k = s.hart? k)) ∧
    (∀ core, s.hart.id = .lcore core →
      let sup := s.hart.sup
      let toS (k : Nat) : Bool := sup.mideleg.getLsbD k
      let can (k : Nat) : Prop :=
        k ∈ [1, 5, 9, 16, 17, 18] ∧ s.mipVal.getLsbD k = true ∧ sup.mie.getLsbD k = true ∧
        if toS k then sup.mode = .u ∨ sup.mode = .s ∧ sup.mstatus.getLsbD 1 = true else sup.mode ≠ .m ∨ sup.mstatus.getLsbD 3 = true
      let place (k : Nat) : Nat := if k = 9 then 0 else if k = 1 then 1 else 2
      let ahead := ∃ k, can k ∧ (toS k = false ∧ toS n = true ∨ toS k = toS n ∧ k < 16 ∧ n < 16 ∧ place k < place n)
      let base (v : Word) : Word := if v.extractLsb' 0 2 = 1 then (v &&& ~~~3) + BitVec.ofNat 64 (4 * n) else v &&& ~~~3
      let enters (R : State → Prop) : Prop :=
        ∃ t, exec (.interruptTaken n) s = .next t ∧ { t with hart := s.hart } = s ∧ t.hart.u = { s.hart.u with pc := t.pc } ∧ R t
      (¬ can n ∨ ahead ∨ s.hart.wait = some .rmRequest → exec (.interruptTaken n) s = .next s) ∧
      (can n → ¬ ahead → s.hart.wait ≠ some .rmRequest →
        (toS n = true → enters fun t =>
          t.hart.sup.mode = .s ∧ t.hart.sup.scause = 0x8000000000000000 ||| BitVec.ofNat 64 n ∧ t.hart.sup.stval = 0 ∧
          t.hart.sup.sepc = s.pc &&& ~~~1 ∧ t.pc = base sup.stvec ∧ t.hart.sup.mstatus.getLsbD 1 = false ∧
          t.hart.sup.mstatus.getLsbD 5 = sup.mstatus.getLsbD 1 ∧ t.hart.sup.mstatus.getLsbD 8 = !(sup.mode == .u)) ∧
        (toS n = false → enters fun t =>
          t.hart.sup.mode = .m ∧ t.hart.sup.mcause = 0x8000000000000000 ||| BitVec.ofNat 64 n ∧ t.hart.sup.mtval = 0 ∧
          t.hart.sup.mepc = s.pc &&& ~~~1 ∧ t.pc = base sup.mtvec ∧ t.hart.sup.mstatus.getLsbD 3 = false ∧
          t.hart.sup.mstatus.getLsbD 7 = sup.mstatus.getLsbD 3 ∧ t.hart.sup.mstatus.extractLsb' 11 2 = BitVec.ofNat 2 sup.mode.level))) ∧
    ((s.part.hotEn = false ∨ s.part.hotClock < 2 ^ (s.part.hotIvl + 16)) → exec .hotPagePublish s = .next s) ∧
    (s.part.hotEn = true → 2 ^ (s.part.hotIvl + 16) ≤ s.part.hotClock → s.Inv → s.poison = [] →
      let base := s.part.hotBase
      ∃ (t : State) (l : List (Nat × Nat)), exec .hotPagePublish s = .next t ∧ l.length ≤ 64 ∧ (l.map Prod.snd).Pairwise (· ≥ ·) ∧
        (∀ e ∈ l, ∃ c ∈ s.part.hotCounts, c.1 = e.1 ∧ min c.2 (2 ^ 32 - 1) ≤ e.2 ∧ inRanges s.part.ranges (e.1 * 4096) = true) ∧
        (l.length < 64 → ∀ c ∈ s.part.hotCounts, inRanges s.part.ranges (c.1 * 4096) = true → ∃ e ∈ l, e.1 = c.1) ∧
        (∀ i, i < 64 → ∀ e, l[i]? = some e → t.memNat (base + 16 * i) 8 = e.1 % 2 ^ 64 ∧
          t.memNat (base + 16 * i + 8) 4 = e.2) ∧
        (∀ i, l.length ≤ i → i < 64 → t.memNat (base + 16 * i) 16 = 0) ∧
        (∀ a, a < base ∨ base + 1024 ≤ a → t.byte a = s.byte a) ∧
        t.part.hotCounts = [] ∧ t.part.hotClock = 0 ∧
        (∀ core h, s.hart? (.lcore core) = some h → ∃ g, t.hart? (.lcore core) = some g ∧ g.sup.mip = h.sup.mip ||| 0x40000 ∧ g.u = h.u))

/-! ## The host, the partition and the package (R10, R15 to R17, R82, R319 to R337, R351 to R355) -/

/-- R319, R322, R323, R329, R334, R336, R337, R341: a command of the host ends with its status: PREEMPT of a partition with nothing under
way at the W-site stops it, what waits at an L-core to execute again from its start (log 80), RESUME starts it, CHECKPOINT of a stopped or
such a running partition writes a slot and leaves it stopped or running as asked, RESTORE writes a slot's image back, unless the tier
errs; a slot that fails its digest, package or range check, or whose assignment names a W-core past its spares (log 98), gives 2 unless
the tier errs; ATTEST sends the report; a bad operand gives 2, RESTORE of a running partition 1. A host read gives bytes, a write stores
them and probes the packages with copies, whole in one step (log 115, the model's choice), outside the ranges an error. -/
def Obligations.HostCommands : Prop :=
  ∀ (s : State) (n : Nat) (stay : Bool) (nonce : List Byte), s.part.formed = true → s.part.cmds = [] → s.part.hostReqs = [] →
    s.part.netReqs = [] → s.part.preempting = false →
    let done (t : State) : Prop := t.part.cmds = [] ∧ t.part.hostReqs = [] ∧ t.part.netReqs = []
    let sends (t : State) (l : List HostMsg) : Prop := t.pkg.hostOut = s.pkg.hostOut ++ l ∧ done t
    let probes (t : State) (l : List HostMsg) : Prop :=
      (∃ p, t.pkg.hostOut = s.pkg.hostOut ++ p ++ l ∧
        ∀ m ∈ p, ∃ k line, m = .trapezeProbe k s.pkg.pkgId s.part.pid line ∧ (line, k / 8) ∈ s.pkg.remote) ∧ done t
    let only (e : Instr) (l : List HostMsg) : Prop :=
      ∃ t, exec e s = .next t ∧ sends t l ∧ { t with pkg := s.pkg } = s
    let registers (t : State) : Prop := ∀ h, (t.hart? h).map Hart.u = (s.hart? h).map Hart.u
    let harts (t : State) : Prop := t.hart = s.hart ∧ t.harts = s.harts
    let stood (h : Hart) : Hart := match h.id with | .lcore _ => { h with wait := h.wait.bind Wait.parked, resume := none } | _ => h
    let stand (t : State) : Prop := t.hart = stood s.hart ∧ t.harts = s.harts.map stood
    let quiet := s.part.transit = [] ∧ (∀ h ∈ s.allHarts, h.car = none ∧ h.handler = none ∧ h.wait ≠ some .rmRequest) ∧
      (∀ x ∈ s.chansAll, x.2.2.queue = []) ∧ (∀ w ∈ s.part.wcores, w.press.queue = []) ∧ ∀ b ∈ s.part.priv, b.dirty = false
    let usable (w : Nat) : Prop := w < 256 ∧ w ∉ s.pkg.leftOut
    let stopped := s.part.status = .stopped
    let running := s.part.status = .running
    (stopped → only .preempt [.status 0]) ∧
    (running → quiet →
      ∃ t, exec .preempt s = .next t ∧ sends t [.status 0] ∧ t.part.status = .stopped ∧ t.part.preempting = false ∧ stand t ∧
        t.mem = s.mem ∧ t.poison = s.poison) ∧
    (running → only .resume [.status 0]) ∧
    (stopped →
      ∃ t, exec .resume s = .next t ∧ sends t [.status 0] ∧ t.part.status = .running ∧ registers t ∧ t.mem = s.mem ∧
        ∀ h ∈ t.allHarts, ∀ c, h.car = some c → c.preempted = false) ∧
    (256 ≤ n → only (.checkpoint n stay) [.status 2]) ∧
    (n < 256 → (stopped ∨ running ∧ quiet) →
      ∃ t st, exec (.checkpoint n stay) s = .next t ∧ sends t [.status st] ∧ (stopped → harts t) ∧ (running → stand t) ∧ t.mem = s.mem ∧
        t.poison = s.poison ∧ (stopped ∨ stay = true → t.part.status = .stopped) ∧ (running → stay = false → t.part.status = .running) ∧
        (st = 0 ∨ st = 3) ∧ (∃ x ∈ t.pkg.slots, x.num = n) ∧
        (st = 0 → ∀ x ∈ t.pkg.slots, x.num = n → x.saved.hart = t.hart ∧ x.saved.harts = t.harts ∧ x.saved.ranges = s.part.ranges ∧
          x.saved.pkg = s.pkg.pkgId ∧ x.saved.pid = s.part.pid ∧ x.saved.part.wcoreNums = s.part.wcoreNums ∧
          x.saved.mem = s.mem.filter (fun e => inRanges s.ownRanges e.1) ∧ x.digest = saveDigest x.saved) ∧
        ∀ x, x.num ≠ n → (x ∈ t.pkg.slots ↔ x ∈ s.pkg.slots)) ∧
    (running → only (.restore n) [.status 1]) ∧
    (stopped → (256 ≤ n ∨ ∀ x ∈ s.pkg.slots, x.num ≠ n) → only (.restore n) [.status 2]) ∧
    (∀ x, stopped → n < 256 → s.pkg.slots.find? (fun y => y.num == n) = some x →
      let holds := x.digest = saveDigest x.saved ∧ x.saved.pkg = s.pkg.pkgId ∧ x.saved.ranges = s.part.ranges ∧
        ∀ w ∈ x.saved.part.wcoreNums, usable w
      (¬ holds → ∃ t st, exec (.restore n) s = .next t ∧ sends t [.status st] ∧ (st = 2 ∨ st = 3) ∧
        { t with pkg := s.pkg, freeCount := s.freeCount } = s) ∧
      (holds → s.Inv → sparseWf 0#8 x.saved.mem = true →
        ∃ t st, exec (.restore n) s = .next t ∧ probes t [.status st] ∧ t.part.status = .stopped ∧ (st = 0 ∨ st = 3) ∧
          (st = 3 → harts t ∧ t.mem = s.mem) ∧
          (st = 0 → t.hart = x.saved.hart ∧ t.harts = x.saved.harts ∧ t.part.wcoreNums = x.saved.part.wcoreNums ∧
            ∀ a, t.byte a = if inRanges s.ownRanges a then sparseGet 0#8 x.saved.mem a else s.byte a))) ∧
    (nonce.length = 32 → (s.report nonce).length = 352 ∧
      ∃ t, exec (.attest nonce) s = .next t ∧ sends t [.report (s.report nonce), .status 0] ∧
        { t with pkg := s.pkg, freeCount := s.freeCount } = s) ∧
    (nonce.length ≠ 32 → only (.attest nonce) [.status 2]) ∧
    (∀ addr len bs,
      let pa := s.pkg.pkgId * 2 ^ 47 + addr
      (s.hostOk addr len = true → s.poisoned pa len = false → ∃ t, exec (.hostMemoryRequest (.read addr len)) s = .next t ∧
        sends t [.data (s.bytes pa len)] ∧ t.mem = s.mem ∧ harts t) ∧
      (s.hostOk addr len = false → only (.hostMemoryRequest (.read addr len)) [.error]) ∧
      (s.hostOk addr bs.length = false → only (.hostMemoryRequest (.write addr bs)) [.error]) ∧
      (s.hostOk addr bs.length = true → s.Inv → s.poison = [] → ∃ t, exec (.hostMemoryRequest (.write addr bs)) s = .next t ∧
        probes t [] ∧ t.bytes pa bs.length = bs ∧ (∀ a, a < pa ∨ pa + bs.length ≤ a → t.byte a = s.byte a) ∧ registers t))

/-- R15, R16, R17, R322, R326, R328, R341, R355: where no partition stands, a request that keeps R15 forms the partition with its L-cores at
reset, its boot image loaded and measured; any other changes nothing. The model's choices in it: a request is refused while a partition stands,
for the model holds one (log 10), a range lies in one tier without holes (log 97), and an L-core's registers have the values that the manual
does not give (logs 2, 3, 4). A pre-empted partition is dissolved. Cores are assigned to and removed from a pre-empted partition alone, a core
only where R17 lets it go and it is free of threads, commands and copies, and two L-cores stay. The teams of a removed W-core go with it, the
dirty bytes of their windows written back first (log 42), and where none is dirty nothing else changes. -/
def Obligations.PartitionFormation : Prop :=
  ∀ (s : State),
    let answers (t : State) (b : Bool) : Prop := t.pkg = { s.pkg with hostOut := s.pkg.hostOut ++ [.mgmt b] }
    let refuses (e : Instr) : Prop := ∃ t, exec e s = .next t ∧ answers t false ∧ { t with pkg := s.pkg } = s
    let usable (w : Nat) : Prop := w < 256 ∧ w ∉ s.pkg.leftOut
    (∀ (pid : Nat) (ls ws : List Nat) (rs : List (Nat × Nat)) (tasks : Nat) (notify : Option Nat) (bootAt : Nat) (boot : List Byte),
      let form : Instr := .partitionFormation (.form pid ls ws rs tasks notify bootAt boot)
      let legal := s.pkg.bringUp = 7 ∧ s.part.formed = false ∧ pid < 64 ∧ 2 ≤ ls.length ∧ ls.Nodup ∧ (∀ n ∈ ls, n < 128) ∧ ws.Nodup ∧
        (∀ w ∈ ws, usable w) ∧ rs ≠ [] ∧ (∀ r ∈ rs, rangeOk r = true ∧ apart s.pkg.foreign r = true) ∧ disjointRanges rs = true ∧
        (boot = [] ∨ areaIn rs bootAt boot.length = true) ∧
        1 ≤ tasks ∧ tasks ≤ 262144 ∧ (∀ a, notify = some a → a % 128 = 0 ∧ spanIn rs a 128 = true)
      (¬ legal → refuses form) ∧
      (legal →
        ∃ t, exec form s = .next t ∧ answers t true ∧ t.part.formed = true ∧ t.part.status = .running ∧ t.part.pid = pid ∧
          t.part.lcores = ls ∧ t.part.wcoreNums = ws ∧ t.part.ranges = rs ∧ t.part.tasks = tasks ∧ t.part.notify = notify ∧
          t.allHarts = ls.map (fun n => Hart.init (.lcore n)) ∧ t.part.wcores = ws.map WCore.init ∧ t.part.bindings = [] ∧
          t.part.teams = [] ∧ t.part.rm.tasks = [] ∧ t.part.bootHash = sha384 boot ∧
          (boot = [] → s.poison = [] → t.mem = s.mem) ∧
          (s.Inv → s.poison = [] →
            t.bytes bootAt boot.length = boot ∧ ∀ a, a < bootAt ∨ bootAt + boot.length ≤ a → t.byte a = s.byte a))) ∧
    (s.part.formed = true → s.part.status = .stopped → ∃ t, exec (.partitionFormation .dissolve) s = .next t ∧ answers t true ∧
      t.part.formed = false ∧ t.part.ranges = [] ∧ t.part.lcores = [] ∧ t.harts = [] ∧ t.mem = s.mem) ∧
    (s.part.formed = false ∨ s.part.status = .running →
      refuses (.partitionFormation .dissolve) ∧ ∀ c, refuses (.coreRemoval c) ∧ refuses (.coreAssignment c)) ∧
    (s.part.formed = true → s.part.status = .stopped → ∀ k : Nat,
      (let can := usable k ∧ k ∉ s.part.wcoreNums
       (¬ can → refuses (.coreAssignment (.w k))) ∧
       (can → ∃ t, exec (.coreAssignment (.w k)) s = .next t ∧ answers t true ∧
         t.part = { s.part with wcoreNums := s.part.wcoreNums ++ [k], wcores := s.part.wcores ++ [WCore.init k] } ∧
         t.allHarts = s.allHarts)) ∧
      (let can := k < 128 ∧ k ∉ s.part.lcores
       (¬ can → refuses (.coreAssignment (.l k))) ∧
       (can → ∃ t, exec (.coreAssignment (.l k)) s = .next t ∧ answers t true ∧
         t.part = { s.part with lcores := s.part.lcores ++ [k] } ∧ t.allHarts = s.allHarts ++ [Hart.init (.lcore k)])) ∧
      (let can := ∃ c, s.wcore? k = some c ∧ (∀ h ∈ s.allHarts, h.residentOn k = false) ∧ c.press.queue = [] ∧
         (∀ x ∈ c.chans.toList, x.queue = []) ∧ c.mend = [] ∧
         ∀ tm ∈ s.part.teams, tm.wcore = k → ∀ m ∈ s.part.members, m.team ≠ tm.num
       (¬ can → refuses (.coreRemoval (.w k))) ∧
       (can → let s1 := s.flushCore k
         ∃ t, exec (.coreRemoval (.w k)) s = .next t ∧ t.pkg = { s1.pkg with hostOut := s1.pkg.hostOut ++ [.mgmt true] } ∧
         t.mem = s1.mem ∧ t.allHarts = s1.allHarts ∧ t.part.wcoreNums = s.part.wcoreNums.filter (· ≠ k) ∧
         t.part.wcores = s.part.wcores.filter (fun c => c.num ≠ k) ∧ (∀ tm ∈ t.part.teams, tm.wcore ≠ k) ∧
         ((∀ tm ∈ s.part.teams, tm.wcore = k → ∀ w ∈ tm.windows, ∀ g ∈ w.granules, g.dirty = []) →
           answers t true ∧ t.mem = s.mem ∧ t.allHarts = s.allHarts))) ∧
      (let can := k ∈ s.part.lcores ∧ 3 ≤ s.part.lcores.length ∧ ∀ h, s.hart? (.lcore k) = some h → h.installed = none
       (¬ can → refuses (.coreRemoval (.l k))) ∧
       (can → s.NamesDistinct → s.harts ≠ [] → ∃ t, exec (.coreRemoval (.l k)) s = .next t ∧ answers t true ∧
         t.part = { s.part with lcores := s.part.lcores.filter (· ≠ k) } ∧ t.hart? (.lcore k) = none ∧
         ∀ h, h ≠ .lcore k → t.hart? h = s.hart? h)))

/-- R82, R325, R328 to R330, R333, R335, R353: a link retry and a corrected error are counted, the first as the later ones; an
uncorrectable error poisons its 8-byte word and counts in the record when the word is the package's own; the loss of a package takes its lines and the granules that hold them. A Trapeze request is
served once the ports are up and waits under the partition's own pair while a CHECKPOINT or RESTORE is performed; what its pair may reach
it reads, writes and updates, anything else ends with the access fault; a store conditional stores while the reservation of its pair
stands (log 99); a probe of a held line drops it. The gating of an L2 slice changes nothing a program sees. R10, R340, R351, R352, R353,
R355: bring-up passes its steps, memory zero and the clock at 0, or stops at the one that fails, with the effect of the steps passed, and
reports it; firmware that secure boot does not pass (logs 101, 116) fails step 1. Heat and power stop the A-clocks of W-cores, the most active
Presses first (log 84), and their end starts them; an emergency shutdown leaves the reset package with its committed record, one shutdown
more; the Press test of a W-core outside the partition whose A-clocks run takes spares for the rows that differ until none does; a W-core
that needs more than 8 is left out of partitions (the patterns and the error of a faulty row are log 83). -/
def Obligations.PackageErrorsAndService : Prop :=
  (∀ (s : State),
     let life (e : Instr) (R : Lifetime → Prop) : Prop :=
       ∃ t, exec e s = .next t ∧ R t.pkg.lifetime ∧ { t with pkg := { t.pkg with lifetime := s.pkg.lifetime } } = s
     let rec' := s.pkg.lifetime
     let registers (t : State) : Prop := ∀ h, (t.hart? h).map Hart.u = (s.hart? h).map Hart.u
     (∀ l, life (.linkRetry l) fun r => r = { rec' with retries := r.retries } ∧ Raised l rec'.retries r.retries) ∧
     (∀ e, life (.correctableError e) fun r => r = { rec' with correctable := r.correctable } ∧ Raised e rec'.correctable r.correctable) ∧
     (∀ pa, inTier pa = true → ∃ t, exec (.uncorrectableError pa) s = .next t ∧ pa / 8 ∈ t.poison ∧
       (∀ w, w ≠ pa / 8 → (w ∈ t.poison ↔ w ∈ s.poison)) ∧ t.mem = s.mem ∧ t.part = s.part ∧ t.allHarts = s.allHarts ∧
       t.pkg = { s.pkg with lifetime := { rec' with uncorrectable := t.pkg.lifetime.uncorrectable } } ∧
       (s.onPackage pa = true → Raised (s.channelOf pa) rec'.uncorrectable t.pkg.lifetime.uncorrectable) ∧
       (s.onPackage pa = false → t.pkg = s.pkg)) ∧
     (∀ pa, inTier pa = false → exec (.uncorrectableError pa) s = .next s) ∧
     (∀ k, k ≠ s.pkg.pkgId → k ∉ s.pkg.unreachable → ∃ t, exec (.packageUnreachable k) s = .next t ∧
       t.pkg = { s.pkg with unreachable := s.pkg.unreachable ++ [k] } ∧ t.mem = s.mem ∧ registers t ∧
       t.part = { s.part with
         priv := s.part.priv.filter fun b => b.pa / 2 ^ 47 ≠ k
         teams := s.part.teams.map fun m =>
           { m with windows := m.windows.map fun w => { w with granules := w.granules.filter fun g => g.pa / 2 ^ 47 ≠ k } }
         wcores := t.part.wcores } ∧
       ((∀ m ∈ s.part.teams, ∀ w ∈ m.windows, ∀ g ∈ w.granules, g.pa / 2 ^ 47 ≠ k) → t.part.wcores = s.part.wcores) ∧
       t.tail = s.tail.filter (fun x => x.place.package ≠ some k) ∧
       (∀ pa n, pa / 2 ^ 47 = k → t.physOk pa n = false) ∧
       ∀ h ∈ t.allHarts, ∀ l, h.resv = some l → l / 2 ^ 40 ≠ k) ∧
     (∀ k, k = s.pkg.pkgId ∨ k ∈ s.pkg.unreachable → exec (.packageUnreachable k) s = .next s) ∧
     (∀ r, s.pkg.bringUp < 6 → exec (.trapezeRequest r) s = .next s) ∧
     (6 ≤ s.pkg.bringUp → ∀ pkg pid addr n bs op red esz dbl v,
       let all (n : Nat) (bs : List Byte) : List TrapezeReq :=
         [.read pkg pid addr n, .lr pkg pid addr n, .write pkg pid addr bs, .amo pkg pid addr op dbl v, .bamo pkg pid addr red esz v,
           .sc pkg pid addr bs]
       let own := s.ownPair pkg pid = true ∧ s.part.netBusy = true
       let counts (t : State) : Prop := { t.part with hotCounts := s.part.hotCounts } = s.part
       let stands (t : State) : Prop := counts t ∧ { t with pkg := s.pkg, part := s.part } = s
       let within (l n : Nat) : Prop := addr / 128 ≤ l ∧ l ≤ (addr + n - 1) / 128
       let quiet (r : TrapezeReq) (m : HostMsg) : Prop :=
         ∃ t, exec (.trapezeRequest r) s = .next t ∧ t.pkg.hostOut = s.pkg.hostOut ++ [m] ∧ stands t ∧ t.pkg.remote = s.pkg.remote ∧
           t.pkg.held = s.pkg.held
       let writes (r : TrapezeReq) (bs : List Byte) (m : HostMsg) : Prop :=
         ∃ t p, exec (.trapezeRequest r) s = .next t ∧ t.pkg.hostOut = s.pkg.hostOut ++ p ++ [m] ∧
           (∀ q ∈ p, ∃ k l, q = .trapezeProbe k pkg pid l ∧ (l, k / 8) ∈ s.pkg.remote) ∧ t.bytes addr bs.length = bs ∧
           (∀ a, a < addr ∨ addr + bs.length ≤ a → t.byte a = s.byte a) ∧ registers t ∧ counts t ∧
           (∀ h ∈ t.allHarts, ∀ l, h.resv = some l → ¬ within l bs.length) ∧
           ∀ x, x ∈ t.pkg.held ↔ x ∈ s.pkg.held ∧ ¬ within x.1 bs.length
       let width := if dbl then 8 else 4
       (own → ∀ r ∈ .probe pkg pid addr :: .sync pkg pid addr .release :: all n bs,
         exec (.trapezeRequest r) s = .next { s with part := { s.part with netReqs := s.part.netReqs ++ [r] } }) ∧
       (¬ own →
         (s.trapezeOk pkg pid addr n = true → s.poisoned addr n = false →
           let answers (r : TrapezeReq) (held : Nat × Nat × Nat → Prop) : Prop :=
             ∃ t, exec (.trapezeRequest r) s = .next t ∧ t.pkg.hostOut = s.pkg.hostOut ++ [.trapezeData (s.bytes addr n)] ∧
               (∀ l, within l n → (l, pkg / 8) ∈ t.pkg.remote) ∧ stands t ∧ ∀ x, x ∈ t.pkg.held ↔ x ∈ s.pkg.held ∨ held x
           answers (.read pkg pid addr n) (fun _ => False) ∧ answers (.lr pkg pid addr n) fun x => x = (addr / 128, pkg, pid)) ∧
         (s.trapezeOk pkg pid addr n = false ∨ s.poisoned addr n = true →
           quiet (.read pkg pid addr n) .trapezeFault ∧ quiet (.lr pkg pid addr n) .trapezeFault) ∧
         (s.trapezeOk pkg pid addr bs.length = false →
           quiet (.write pkg pid addr bs) .trapezeFault ∧ quiet (.sc pkg pid addr bs) .trapezeFault) ∧
         (s.trapezeOk pkg pid addr bs.length = true → s.Inv → s.poison = [] → writes (.write pkg pid addr bs) bs .trapezeDone) ∧
         (s.trapezeOk pkg pid addr bs.length = true →
           ((addr / 128, pkg, pid) ∉ s.pkg.held → quiet (.sc pkg pid addr bs) .trapezeLost) ∧
           ((addr / 128, pkg, pid) ∈ s.pkg.held → s.Inv → s.poison = [] → writes (.sc pkg pid addr bs) bs .trapezeDone)) ∧
         (let ok := s.trapezeOk pkg pid addr width = true ∧ addr % width = 0 ∧ s.poisoned addr width = false
          (¬ ok → quiet (.amo pkg pid addr op dbl v) .trapezeFault) ∧
          (ok → s.Inv → s.poison = [] →
            writes (.amo pkg pid addr op dbl v) (natLe width (amoOf op width (s.memNat addr width) (v.toNat % 2 ^ (8 * width))))
              (.trapezeData (s.bytes addr width)))) ∧
         (let width := 2 ^ esz.toNat
          let ok := s.trapezeOk pkg pid addr width = true ∧ addr % width = 0 ∧ s.poisoned addr width = false ∧ (red = .addf → 4 ≤ width)
          let old := s.memNat addr width
          let w := v.toNat % 2 ^ (8 * width)
          let new : Nat :=
            match red with
            | .add => (old + w) % 2 ^ (8 * width)
            | .min => if signedOf width w < signedOf width old then w else old
            | .max => if signedOf width old < signedOf width w then w else old
            | .addf =>
              if width = 4 then (fpAdd fp32 .rne false (unpack fp32 old) (unpack fp32 w)).bits
              else (fpAdd fp64 .rne false (unpack fp64 old) (unpack fp64 w)).bits
          (¬ ok → quiet (.bamo pkg pid addr red esz v) .trapezeFault) ∧
          (ok → s.Inv → s.poison = [] → writes (.bamo pkg pid addr red esz v) (natLe width new) (.trapezeData (s.bytes addr width)))) ∧
         (∀ o : SyncOp,
            let ok := s.trapezeOk pkg pid addr 32 = true ∧ addr % 32 = 0 ∧ s.poisoned addr 32 = false
            let w := syncWords o (s.objWord addr 0, s.objWord addr 1, s.objWord addr 2, s.objWord addr 3)
            (¬ ok → quiet (.sync pkg pid addr o) .trapezeFault) ∧
            (ok → s.Inv → s.poison = [] →
              writes (.sync pkg pid addr o) (natLe 8 w.1.toNat ++ natLe 8 w.2.1.toNat ++ natLe 8 w.2.2.1.toNat ++ natLe 8 w.2.2.2.toNat)
                (.trapezeData (s.bytes addr 32)))) ∧
         (s.holdsLine pkg pid (addr / 128) = false → quiet (.probe pkg pid addr) .trapezeNoCopy) ∧
         (s.holdsLine pkg pid (addr / 128) = true →
           ∃ t, exec (.trapezeRequest (.probe pkg pid addr)) s = .next t ∧ t.pkg.hostOut = s.pkg.hostOut ++ [.trapezeDone] ∧ registers t ∧
             t.mem = s.mem ∧ counts t ∧ ∀ h ∈ t.allHarts, h.resv ≠ some (addr / 128)))) ∧
     (∀ die slice gate,
       (die < 6 ∧ slice < 256 → ∃ t, exec (.l2PowerGating die slice gate) s = .next t ∧
         ((die, slice) ∈ t.pkg.gated ↔ gate = true) ∧ { t with pkg := { t.pkg with gated := s.pkg.gated } } = s) ∧
       (¬ (die < 6 ∧ slice < 256) → exec (.l2PowerGating die slice gate) s = .next s))) ∧
  (∀ (s : State),
     let stops (e : Instr) (sel : Nat → Prop) (v : Nat → Bool) : Prop :=
       ∃ t, exec e s = .next t ∧ (∀ w, sel w → t.clockStopped w = v w) ∧ (∀ w, ¬ sel w → t.clockStopped w = s.clockStopped w) ∧
         { t with pkg := { t.pkg with hotDies := s.pkg.hotDies, hotCores := s.pkg.hotCores, powerStops := s.pkg.powerStops } } = s
     let hotDie (w : Nat) : Bool := s.pkg.hotDies.contains (w / 64)
     let hotCore (w : Nat) : Bool := s.pkg.hotCores.contains w
     let power (w : Nat) : Bool := s.pkg.powerStops.contains w
     let life := s.pkg.lifetime
     let map (t : State) (w : Nat) : List Nat := sparseGet [] t.pkg.lifetime.rowMap w
     let secure := (∀ g, s.pkg.stages.head? = some g → sha384 g.key = Config.fusedKeyHash) ∧
       ∀ g ∈ s.pkg.stages, Config.minVersion ≤ g.version ∧ ecdsaVerify g.key g.image g.sig = true
     let fails (t : State) (step code : Nat) : Prop :=
       t.pkg.bringUp = step - 1 ∧ t.pkg.bringUpFailed = true ∧ t.pkg.hostOut = s.pkg.hostOut ++ [.bringUpFailure step code] ∧
         t.pkg.lifetime.bringUpFailures = life.bringUpFailures ++ [(step, code)] ∧ t.pkg.zaclk = 0
     (s.pkg.bringUp = 7 ∨ s.pkg.bringUpFailed = true → ∀ f, exec (.bringUp f) s = .next s) ∧
     (s.pkg.bringUp ≠ 7 → s.pkg.bringUpFailed = false →
       (¬ secure → ∀ f, ∃ t code, exec (.bringUp f) s = .next t ∧ fails t 1 code ∧ t.mem = s.mem ∧ t.poison = s.poison ∧ t.part = s.part ∧
         t.allHarts = s.allHarts) ∧
       (secure →
         (∃ t, exec (.bringUp none) s = .next t ∧ t.pkg.bringUp = 7 ∧ t.pkg.zaclk = 0 ∧ t.pkg.pkgId < 320 ∧ t.mem = [] ∧ t.poison = [] ∧
           t.part = State.reset.part ∧ t.allHarts = State.reset.allHarts ∧
           (sparseWf [] life.rowMap = true → (∀ w, w < 256 → (map s w).take 8 <+: map t w ∧ (map t w).length ≤ 8) ∧ ∀ w, 256 ≤ w →
             map t w = map s w)) ∧
         (∀ f : BringUpFailure, 1 ≤ f.step → f.step ≤ 7 → ∃ t, exec (.bringUp (some f)) s = .next t ∧ fails t f.step f.code ∧
           (f.step ≤ 3 → t.mem = s.mem ∧ t.poison = s.poison) ∧ (3 < f.step → t.mem = [] ∧ t.poison = []) ∧
           (f.step ≤ 4 → t.pkg.lifetime.rowMap = life.rowMap) ∧
           (f.step ≤ 5 → t.part = s.part ∧ t.allHarts = s.allHarts) ∧
           (5 < f.step → t.part = State.reset.part ∧ t.allHarts = State.reset.allHarts) ∧
           (f.step ≤ 6 → t.pkg.pkgId = s.pkg.pkgId) ∧ (6 < f.step → t.pkg.pkgId < 320)) ∧
         ∀ f : BringUpFailure, f.step < 1 ∨ 7 < f.step → exec (.bringUp (some f)) s = .next s)) ∧
     (∀ d, (d < 6 → stops (.thermalThrottle (.die d)) (fun w => w / 64 = d) fun _ => true) ∧
       (6 ≤ d → exec (.thermalThrottle (.die d)) s = .next s) ∧
       stops (.throttlingEnd (.heat (.die d))) (fun w => w / 64 = d) fun w => hotCore w || power w) ∧
     (∀ k, (k < 256 → stops (.thermalThrottle (.wcore k)) (fun w => w = k) fun _ => true) ∧
       (256 ≤ k → exec (.thermalThrottle (.wcore k)) s = .next s) ∧
       stops (.throttlingEnd (.heat (.wcore k))) (fun w => w = k) fun w => hotDie w || power w) ∧
     (∀ ws : List Nat,
       let busy (w : Nat) : Prop := ∃ c, s.wcore? w = some c ∧ c.press.queue ≠ []
       let first := ∀ v ∈ s.part.wcoreNums, v ∉ ws → s.clockStopped v = false → busy v → ∀ w ∈ ws, busy w
       (first → stops (.powerThrottle ws) (fun w => w ∈ ws) fun _ => true) ∧ (¬ first → exec (.powerThrottle ws) s = .next s)) ∧
     stops (.throttlingEnd .power) (fun _ => True) (fun w => hotDie w || hotCore w) ∧
     (∃ t, exec .lifetimeCommit s = .next t ∧ t.pkg.committed = s.pkg.lifetime ∧
       { t with pkg := { t.pkg with committed := s.pkg.committed } } = s) ∧
     (∀ die, (6 ≤ die → exec (.emergencyShutdown die) s = .next s) ∧
       (die < 6 → ∃ t, exec (.emergencyShutdown die) s = .next t ∧ t.mem = [] ∧ t.part = State.reset.part ∧
         t.allHarts = State.reset.allHarts ∧ t.pkg.bringUp = 0 ∧ t.pkg.slots = s.pkg.slots ∧ t.pkg.stages = s.pkg.stages ∧
         t.pkg.faults = s.pkg.faults ∧
         t.pkg.lifetime = t.pkg.committed ∧
         t.pkg.lifetime = { s.pkg.committed with shutdowns := min (s.pkg.committed.shutdowns + 1) (2 ^ 64 - 1) })) ∧
     (∀ w bad, s.pkg.bringUp = 7 → w < 256 → w ∉ s.part.wcoreNums → s.clockStopped w = false → sparseWf [] life.rowMap = true →
       sparseWf [] s.pkg.faults = true →
       let faults (t : State) : List Nat := sparseGet [] t.pkg.faults w
       let old := map s w
       ∃ t, exec (.recoveryScrub w bad) s = .next t ∧ (∀ p, p ∈ faults t ↔ p ∈ faults s ∨ p ∈ bad) ∧
         (let fails (m : List Nat) (r : Nat) : Prop := rowDiffers w (faults t) m r = true
          old.take 8 <+: map t w ∧ (map t w).length ≤ 8 ∧ (w ∈ t.pkg.leftOut ∨ ∀ r, r < 256 → ¬ fails (map t w) r) ∧
          (old.length ≤ 8 → (∀ r, r < 256 → ¬ fails old r) → map t w = old ∧ t.pkg.leftOut = s.pkg.leftOut)) ∧
         (∀ v, v ≠ w → map t v = map s v ∧ (v ∈ t.pkg.leftOut ↔ v ∈ s.pkg.leftOut)) ∧ (w ∈ s.pkg.leftOut → w ∈ t.pkg.leftOut) ∧
         t.pkg.lifetime.remaps = life.remaps ++ ((map t w).drop old.length).map (fun row => (w, row, s.pkg.zaclk.toNat, life.hours)) ∧
         { t with pkg := { t.pkg with
           faults := s.pkg.faults, leftOut := s.pkg.leftOut
           lifetime := { t.pkg.lifetime with rowMap := life.rowMap, remaps := life.remaps } } } = s) ∧
     (∀ w bad, s.pkg.bringUp ≠ 7 ∨ 256 ≤ w ∨ w ∈ s.part.wcoreNums ∨ s.clockStopped w = true →
       exec (.recoveryScrub w bad) s = .next s))

/-! ## Encoding, the step, and the machine's invariant (R4, R118 to R132) -/

/-- R118 to R130: words written out from the encoding tables decode to the instructions they stand for, a word or more of each family; a
reserved field (of a FENCE and FENCE.I too, log 94), a predicate register above 11, a pair whose prefix breaks a rule, and an encoding
that no table holds are refused. -/
def Obligations.DecodeWords : Prop :=
  let reads (nbits w : Nat) (i : Instr) : Prop := decodeTableWord nbits w = some i
  let refused (nbits w : Nat) : Prop := decodeTableWord nbits w = none
  (reads 32 0xFFF10093 (.base none (.imm .addi 1 2 0xFFF)) ∧ reads 32 0x027383B3 (.base none (.alu .mul 7 7 7)) ∧
    reads 32 0x02053787 (.base none (.fload .d 15 10 0x020)) ∧ reads 32 0x30200073 (.base none .mret) ∧
    reads 32 0x0330000F (.base none (.fence 3 3)) ∧ reads 32 0x8330000F (.base none .fenceTso) ∧ reads 32 0x0000100F (.base none .fenceI) ∧
    reads 16 0x1141 (.base (some 0x1141) (.imm .addi 2 2 0xFF0)) ∧ reads 16 0x8082 (.base (some 0x8082) (.jalr 0 1 0))) ∧
  (reads 32 0x0200000B .migrL ∧ reads 32 0x80D0100B (.tbarSync 13) ∧ reads 32 0x07E3A88B (.shflDn 17 7 30) ∧
    reads 32 0x01E3B88B (.shflF 17 7 30) ∧ reads 32 0x01E3C58B (.pcmpEq 11 7 30) ∧ reads 32 0x009AE08B (.jtab 1 21 9)) ∧
  (reads 32 0x00EA02AB (.bldB 5 20 14) ∧ reads 32 0x0014AA2B (.wldDirect 20 41) ∧ reads 32 0x00C4AA2B (.wldIndexed 20 2 9) ∧
    reads 32 0x01BA32AB (.sobind 5 20 27) ∧ reads 32 0x0200402B .xcfence ∧ reads 32 0x000A52AB (.smap 5 20)) ∧
  (reads 32 0x5BE3E8DB (.fuseS 17 7 30 11 14) ∧ reads 32 0x000A02FB (.obres 5 20) ∧ reads 32 0x000A12FB (.ncvtE4 5 20) ∧
    reads 32 0x0061A2FB (.dadd 5 3 6) ∧ reads 32 0x0A41BA7B (.dmom 20 3 4) ∧ reads 32 0x0400407B .tend ∧
    reads 32 0x000A507B (.vpub 20) ∧ reads 32 0x01BA607B (.zresume 20 27)) ∧
  (reads 64 (0xFFF10093 * 2 ^ 32 + 0x0067707B)
    (.pfx ⟨false, 3, 0, 7, false, 0⟩ (.base none (.imm .addi 1 2 0xFFF)))) ∧
  (refused 32 0x0200008B ∧ refused 32 0x01E3C60B ∧ refused 32 0x00000000 ∧ refused 32 0x0000700B ∧ refused 32 0x0A51BA7B ∧
    refused 32 0x00000057) ∧
  (refused 32 0x0330008F ∧ refused 32 0x0330800F ∧ refused 32 0x1330000F ∧ refused 32 0x0010100F)

/-- R4, R118, R121 to R130: the bytes of every well-formed instruction that has an encoding, whatever bytes follow them, decode to that
instruction and its length, every operand at every value its field admits. -/
def Obligations.EncodeDecode : Prop :=
  ∀ (i : Instr) (rest : List Byte), i.wf = true → i.encodable = true → decode (encode i ++ rest) = .ok i (encode i).length

/-- R119, R123, R131, R133: a step of a hart that can run fetches the parcels at its pc, two bytes each, which its group then holds, and
executes the instruction they decode to; an encoding that is none raises cause 2 on an L-core, with the encoding in stval. With a trace
ring placed the hart's source may then emit an event (R354, log 85); without one the step is the instruction's execution itself. The hart
steps where the agenda names it, or where the agenda is empty, nothing is due, it is the current one and has not moved in this A-clock
(the order of the agents is log 1). -/
def Obligations.StepRunsDecoded : Prop :=
  ∀ (t : State) (bs : List Byte), t.tail = [] →
    let u : State := { t with ran := if t.hart.id ∈ t.ran then t.ran else t.ran ++ [t.hart.id] }
    let v : State := u.modMyGroup fun g => { g with code := g.code ++ bs }
    FetchesAt u bs → u.active = true → u.dueIrq = none → hartEvent u u.hart = none → u.canRun = true →
    let runs (o : Outcome State Fault Refusal) : Prop :=
      step { t with agenda := .run t.hart.id :: t.agenda } = u.traced o ∧
      (t.pkg.bringUp = 7 → t.agenda = [] → t.dueEvents = [] → t.hart.id ∉ t.ran → step t = u.traced o) ∧
      ((∀ w, o = .next w → w.pkg.trace.place = none) → u.traced o = o)
    (∀ i, decode bs = .ok i bs.length → u.fetch = (.ok i, v) ∧ runs (exec i v)) ∧
    (∀ e n, decode bs = .illegal e → e.len = bs.length → t.hart.id = .lcore n →
      u.fetch = (.illegal e, v) ∧ v = u ∧ runs (.next (v.takeTrap 2 v.pc e.stval)))

/-- The memory of the reset state is in canonical form, the model's own representation of memory (assumption log, entry 9). -/
def Obligations.ResetCanonical : Prop :=
  State.reset.Inv

/-- Every step keeps memory in canonical form, the model's own representation of memory (assumption log, entry 9): addresses rise strictly,
and no listed byte is zero. -/
def Obligations.MemoryStaysCanonical : Prop :=
  ∀ s t : State, s.Inv → step s = .next t → t.Inv

end
end

