-- ==== Sys2Proof/Laws/State.lean ====
section
/-! SUPPORT. Sys2Proof/Laws/State.lean: each update of the state, field by field, true by definition. -/
namespace Sys2Proof.Machine

@[simp] theorem State.modU_mem (s : State) (g : User → User) : (s.modU g).mem = s.mem := rfl
@[simp] theorem State.modU_poison (s : State) (g : User → User) : (s.modU g).poison = s.poison := rfl
@[simp] theorem State.modU_hart (s : State) (g : User → User) : (s.modU g).hart = { s.hart with u := g s.hart.u } := rfl
@[simp] theorem State.modU_harts (s : State) (g : User → User) : (s.modU g).harts = s.harts := rfl
@[simp] theorem State.modU_part (s : State) (g : User → User) : (s.modU g).part = s.part := rfl
@[simp] theorem State.modU_pkg (s : State) (g : User → User) : (s.modU g).pkg = s.pkg := rfl
@[simp] theorem State.modU_pfx (s : State) (g : User → User) : (s.modU g).pfx = s.pfx := rfl
@[simp] theorem State.modU_agenda (s : State) (g : User → User) : (s.modU g).agenda = s.agenda := rfl
@[simp] theorem State.modU_freeCount (s : State) (g : User → User) : (s.modU g).freeCount = s.freeCount := rfl
@[simp] theorem State.modU_ran (s : State) (g : User → User) : (s.modU g).ran = s.ran := rfl
@[simp] theorem State.modU_split (s : State) (g : User → User) : (s.modU g).split = s.split := rfl
@[simp] theorem State.modU_tail (s : State) (g : User → User) : (s.modU g).tail = s.tail := rfl

@[simp] theorem State.modSup_mem (s : State) (g : Sup → Sup) : (s.modSup g).mem = s.mem := rfl
@[simp] theorem State.modSup_poison (s : State) (g : Sup → Sup) : (s.modSup g).poison = s.poison := rfl
@[simp] theorem State.modSup_hart (s : State) (g : Sup → Sup) : (s.modSup g).hart = { s.hart with sup := g s.hart.sup } := rfl
@[simp] theorem State.modSup_harts (s : State) (g : Sup → Sup) : (s.modSup g).harts = s.harts := rfl
@[simp] theorem State.modSup_part (s : State) (g : Sup → Sup) : (s.modSup g).part = s.part := rfl
@[simp] theorem State.modSup_pkg (s : State) (g : Sup → Sup) : (s.modSup g).pkg = s.pkg := rfl
@[simp] theorem State.modSup_pfx (s : State) (g : Sup → Sup) : (s.modSup g).pfx = s.pfx := rfl
@[simp] theorem State.modSup_agenda (s : State) (g : Sup → Sup) : (s.modSup g).agenda = s.agenda := rfl
@[simp] theorem State.modSup_freeCount (s : State) (g : Sup → Sup) : (s.modSup g).freeCount = s.freeCount := rfl
@[simp] theorem State.modSup_ran (s : State) (g : Sup → Sup) : (s.modSup g).ran = s.ran := rfl
@[simp] theorem State.modSup_split (s : State) (g : Sup → Sup) : (s.modSup g).split = s.split := rfl
@[simp] theorem State.modSup_tail (s : State) (g : Sup → Sup) : (s.modSup g).tail = s.tail := rfl

@[simp] theorem State.modPart_mem (s : State) (g : Part → Part) : (s.modPart g).mem = s.mem := rfl
@[simp] theorem State.modPart_poison (s : State) (g : Part → Part) : (s.modPart g).poison = s.poison := rfl
@[simp] theorem State.modPart_hart (s : State) (g : Part → Part) : (s.modPart g).hart = s.hart := rfl
@[simp] theorem State.modPart_harts (s : State) (g : Part → Part) : (s.modPart g).harts = s.harts := rfl
@[simp] theorem State.modPart_part (s : State) (g : Part → Part) : (s.modPart g).part = g s.part := rfl
@[simp] theorem State.modPart_pkg (s : State) (g : Part → Part) : (s.modPart g).pkg = s.pkg := rfl
@[simp] theorem State.modPart_pfx (s : State) (g : Part → Part) : (s.modPart g).pfx = s.pfx := rfl
@[simp] theorem State.modPart_agenda (s : State) (g : Part → Part) : (s.modPart g).agenda = s.agenda := rfl
@[simp] theorem State.modPart_freeCount (s : State) (g : Part → Part) : (s.modPart g).freeCount = s.freeCount := rfl
@[simp] theorem State.modPart_ran (s : State) (g : Part → Part) : (s.modPart g).ran = s.ran := rfl
@[simp] theorem State.modPart_split (s : State) (g : Part → Part) : (s.modPart g).split = s.split := rfl
@[simp] theorem State.modPart_tail (s : State) (g : Part → Part) : (s.modPart g).tail = s.tail := rfl

@[simp] theorem State.modPkg_mem (s : State) (g : Pkg → Pkg) : (s.modPkg g).mem = s.mem := rfl
@[simp] theorem State.modPkg_poison (s : State) (g : Pkg → Pkg) : (s.modPkg g).poison = s.poison := rfl
@[simp] theorem State.modPkg_hart (s : State) (g : Pkg → Pkg) : (s.modPkg g).hart = s.hart := rfl
@[simp] theorem State.modPkg_harts (s : State) (g : Pkg → Pkg) : (s.modPkg g).harts = s.harts := rfl
@[simp] theorem State.modPkg_part (s : State) (g : Pkg → Pkg) : (s.modPkg g).part = s.part := rfl
@[simp] theorem State.modPkg_pkg (s : State) (g : Pkg → Pkg) : (s.modPkg g).pkg = g s.pkg := rfl
@[simp] theorem State.modPkg_pfx (s : State) (g : Pkg → Pkg) : (s.modPkg g).pfx = s.pfx := rfl
@[simp] theorem State.modPkg_agenda (s : State) (g : Pkg → Pkg) : (s.modPkg g).agenda = s.agenda := rfl
@[simp] theorem State.modPkg_freeCount (s : State) (g : Pkg → Pkg) : (s.modPkg g).freeCount = s.freeCount := rfl
@[simp] theorem State.modPkg_ran (s : State) (g : Pkg → Pkg) : (s.modPkg g).ran = s.ran := rfl
@[simp] theorem State.modPkg_split (s : State) (g : Pkg → Pkg) : (s.modPkg g).split = s.split := rfl
@[simp] theorem State.modPkg_tail (s : State) (g : Pkg → Pkg) : (s.modPkg g).tail = s.tail := rfl

@[simp] theorem State.modCar_mem (s : State) (g : Car → Car) : (s.modCar g).mem = s.mem := rfl
@[simp] theorem State.modCar_poison (s : State) (g : Car → Car) : (s.modCar g).poison = s.poison := rfl
@[simp] theorem State.modCar_hart (s : State) (g : Car → Car) : (s.modCar g).hart = { s.hart with car := s.hart.car.map g } := rfl
@[simp] theorem State.modCar_harts (s : State) (g : Car → Car) : (s.modCar g).harts = s.harts := rfl
@[simp] theorem State.modCar_part (s : State) (g : Car → Car) : (s.modCar g).part = s.part := rfl
@[simp] theorem State.modCar_pkg (s : State) (g : Car → Car) : (s.modCar g).pkg = s.pkg := rfl
@[simp] theorem State.modCar_pfx (s : State) (g : Car → Car) : (s.modCar g).pfx = s.pfx := rfl
@[simp] theorem State.modCar_agenda (s : State) (g : Car → Car) : (s.modCar g).agenda = s.agenda := rfl
@[simp] theorem State.modCar_freeCount (s : State) (g : Car → Car) : (s.modCar g).freeCount = s.freeCount := rfl
@[simp] theorem State.modCar_ran (s : State) (g : Car → Car) : (s.modCar g).ran = s.ran := rfl
@[simp] theorem State.modCar_split (s : State) (g : Car → Car) : (s.modCar g).split = s.split := rfl
@[simp] theorem State.modCar_tail (s : State) (g : Car → Car) : (s.modCar g).tail = s.tail := rfl

@[simp] theorem State.modW_mem (s : State) (n : Nat) (g : WCore → WCore) : (s.modW n g).mem = s.mem := rfl
@[simp] theorem State.modW_poison (s : State) (n : Nat) (g : WCore → WCore) : (s.modW n g).poison = s.poison := rfl
@[simp] theorem State.modW_hart (s : State) (n : Nat) (g : WCore → WCore) : (s.modW n g).hart = s.hart := rfl
@[simp] theorem State.modW_harts (s : State) (n : Nat) (g : WCore → WCore) : (s.modW n g).harts = s.harts := rfl
@[simp] theorem State.modW_part (s : State) (n : Nat) (g : WCore → WCore) : (s.modW n g).part =
    { s.part with wcores := adjust (fun w => w.num == n) g s.part.wcores } := rfl
@[simp] theorem State.modW_pkg (s : State) (n : Nat) (g : WCore → WCore) : (s.modW n g).pkg = s.pkg := rfl
@[simp] theorem State.modW_pfx (s : State) (n : Nat) (g : WCore → WCore) : (s.modW n g).pfx = s.pfx := rfl
@[simp] theorem State.modW_agenda (s : State) (n : Nat) (g : WCore → WCore) : (s.modW n g).agenda = s.agenda := rfl
@[simp] theorem State.modW_freeCount (s : State) (n : Nat) (g : WCore → WCore) : (s.modW n g).freeCount = s.freeCount := rfl
@[simp] theorem State.modW_ran (s : State) (n : Nat) (g : WCore → WCore) : (s.modW n g).ran = s.ran := rfl
@[simp] theorem State.modW_split (s : State) (n : Nat) (g : WCore → WCore) : (s.modW n g).split = s.split := rfl
@[simp] theorem State.modW_tail (s : State) (n : Nat) (g : WCore → WCore) : (s.modW n g).tail = s.tail := rfl

@[simp] theorem State.modRm_mem (s : State) (g : Ringmaster → Ringmaster) : (s.modRm g).mem = s.mem := rfl
@[simp] theorem State.modRm_poison (s : State) (g : Ringmaster → Ringmaster) : (s.modRm g).poison = s.poison := rfl
@[simp] theorem State.modRm_hart (s : State) (g : Ringmaster → Ringmaster) : (s.modRm g).hart = s.hart := rfl
@[simp] theorem State.modRm_harts (s : State) (g : Ringmaster → Ringmaster) : (s.modRm g).harts = s.harts := rfl
@[simp] theorem State.modRm_part (s : State) (g : Ringmaster → Ringmaster) : (s.modRm g).part = { s.part with rm := g s.part.rm } := rfl
@[simp] theorem State.modRm_pkg (s : State) (g : Ringmaster → Ringmaster) : (s.modRm g).pkg = s.pkg := rfl
@[simp] theorem State.modRm_pfx (s : State) (g : Ringmaster → Ringmaster) : (s.modRm g).pfx = s.pfx := rfl
@[simp] theorem State.modRm_agenda (s : State) (g : Ringmaster → Ringmaster) : (s.modRm g).agenda = s.agenda := rfl
@[simp] theorem State.modRm_freeCount (s : State) (g : Ringmaster → Ringmaster) : (s.modRm g).freeCount = s.freeCount := rfl
@[simp] theorem State.modRm_ran (s : State) (g : Ringmaster → Ringmaster) : (s.modRm g).ran = s.ran := rfl
@[simp] theorem State.modRm_split (s : State) (g : Ringmaster → Ringmaster) : (s.modRm g).split = s.split := rfl
@[simp] theorem State.modRm_tail (s : State) (g : Ringmaster → Ringmaster) : (s.modRm g).tail = s.tail := rfl

@[simp] theorem State.wf_mem (s : State) (r : FReg) (v : Word) : (s.wf r v).mem = s.mem := rfl
@[simp] theorem State.wf_poison (s : State) (r : FReg) (v : Word) : (s.wf r v).poison = s.poison := rfl
@[simp] theorem State.wf_harts (s : State) (r : FReg) (v : Word) : (s.wf r v).harts = s.harts := rfl
@[simp] theorem State.wf_part (s : State) (r : FReg) (v : Word) : (s.wf r v).part = s.part := rfl
@[simp] theorem State.wf_pkg (s : State) (r : FReg) (v : Word) : (s.wf r v).pkg = s.pkg := rfl
@[simp] theorem State.wf_pfx (s : State) (r : FReg) (v : Word) : (s.wf r v).pfx = s.pfx := rfl
@[simp] theorem State.wf_agenda (s : State) (r : FReg) (v : Word) : (s.wf r v).agenda = s.agenda := rfl
@[simp] theorem State.wf_freeCount (s : State) (r : FReg) (v : Word) : (s.wf r v).freeCount = s.freeCount := rfl
@[simp] theorem State.wf_ran (s : State) (r : FReg) (v : Word) : (s.wf r v).ran = s.ran := rfl
@[simp] theorem State.wf_split (s : State) (r : FReg) (v : Word) : (s.wf r v).split = s.split := rfl
@[simp] theorem State.wf_tail (s : State) (r : FReg) (v : Word) : (s.wf r v).tail = s.tail := rfl

@[simp] theorem State.wp_mem (s : State) (r : PReg) (b : Bool) : (s.wp r b).mem = s.mem := rfl
@[simp] theorem State.wp_poison (s : State) (r : PReg) (b : Bool) : (s.wp r b).poison = s.poison := rfl
@[simp] theorem State.wp_harts (s : State) (r : PReg) (b : Bool) : (s.wp r b).harts = s.harts := rfl
@[simp] theorem State.wp_part (s : State) (r : PReg) (b : Bool) : (s.wp r b).part = s.part := rfl
@[simp] theorem State.wp_pkg (s : State) (r : PReg) (b : Bool) : (s.wp r b).pkg = s.pkg := rfl
@[simp] theorem State.wp_pfx (s : State) (r : PReg) (b : Bool) : (s.wp r b).pfx = s.pfx := rfl
@[simp] theorem State.wp_agenda (s : State) (r : PReg) (b : Bool) : (s.wp r b).agenda = s.agenda := rfl
@[simp] theorem State.wp_freeCount (s : State) (r : PReg) (b : Bool) : (s.wp r b).freeCount = s.freeCount := rfl
@[simp] theorem State.wp_ran (s : State) (r : PReg) (b : Bool) : (s.wp r b).ran = s.ran := rfl
@[simp] theorem State.wp_split (s : State) (r : PReg) (b : Bool) : (s.wp r b).split = s.split := rfl
@[simp] theorem State.wp_tail (s : State) (r : PReg) (b : Bool) : (s.wp r b).tail = s.tail := rfl

@[simp] theorem State.wk_mem (s : State) (r : KReg) (v : KIdx) : (s.wk r v).mem = s.mem := rfl
@[simp] theorem State.wk_poison (s : State) (r : KReg) (v : KIdx) : (s.wk r v).poison = s.poison := rfl
@[simp] theorem State.wk_harts (s : State) (r : KReg) (v : KIdx) : (s.wk r v).harts = s.harts := rfl
@[simp] theorem State.wk_part (s : State) (r : KReg) (v : KIdx) : (s.wk r v).part = s.part := rfl
@[simp] theorem State.wk_pkg (s : State) (r : KReg) (v : KIdx) : (s.wk r v).pkg = s.pkg := rfl
@[simp] theorem State.wk_pfx (s : State) (r : KReg) (v : KIdx) : (s.wk r v).pfx = s.pfx := rfl
@[simp] theorem State.wk_agenda (s : State) (r : KReg) (v : KIdx) : (s.wk r v).agenda = s.agenda := rfl
@[simp] theorem State.wk_freeCount (s : State) (r : KReg) (v : KIdx) : (s.wk r v).freeCount = s.freeCount := rfl
@[simp] theorem State.wk_ran (s : State) (r : KReg) (v : KIdx) : (s.wk r v).ran = s.ran := rfl
@[simp] theorem State.wk_split (s : State) (r : KReg) (v : KIdx) : (s.wk r v).split = s.split := rfl
@[simp] theorem State.wk_tail (s : State) (r : KReg) (v : KIdx) : (s.wk r v).tail = s.tail := rfl

@[simp] theorem State.wd_mem (s : State) (r : DReg) (v : Dist) : (s.wd r v).mem = s.mem := rfl
@[simp] theorem State.wd_poison (s : State) (r : DReg) (v : Dist) : (s.wd r v).poison = s.poison := rfl
@[simp] theorem State.wd_harts (s : State) (r : DReg) (v : Dist) : (s.wd r v).harts = s.harts := rfl
@[simp] theorem State.wd_part (s : State) (r : DReg) (v : Dist) : (s.wd r v).part = s.part := rfl
@[simp] theorem State.wd_pkg (s : State) (r : DReg) (v : Dist) : (s.wd r v).pkg = s.pkg := rfl
@[simp] theorem State.wd_pfx (s : State) (r : DReg) (v : Dist) : (s.wd r v).pfx = s.pfx := rfl
@[simp] theorem State.wd_agenda (s : State) (r : DReg) (v : Dist) : (s.wd r v).agenda = s.agenda := rfl
@[simp] theorem State.wd_freeCount (s : State) (r : DReg) (v : Dist) : (s.wd r v).freeCount = s.freeCount := rfl
@[simp] theorem State.wd_ran (s : State) (r : DReg) (v : Dist) : (s.wd r v).ran = s.ran := rfl
@[simp] theorem State.wd_split (s : State) (r : DReg) (v : Dist) : (s.wd r v).split = s.split := rfl
@[simp] theorem State.wd_tail (s : State) (r : DReg) (v : Dist) : (s.wd r v).tail = s.tail := rfl

@[simp] theorem State.wb_mem (s : State) (r : BReg) (v : BitVec 128) : (s.wb r v).mem = s.mem := rfl
@[simp] theorem State.wb_poison (s : State) (r : BReg) (v : BitVec 128) : (s.wb r v).poison = s.poison := rfl
@[simp] theorem State.wb_harts (s : State) (r : BReg) (v : BitVec 128) : (s.wb r v).harts = s.harts := rfl
@[simp] theorem State.wb_part (s : State) (r : BReg) (v : BitVec 128) : (s.wb r v).part = s.part := rfl
@[simp] theorem State.wb_pkg (s : State) (r : BReg) (v : BitVec 128) : (s.wb r v).pkg = s.pkg := rfl
@[simp] theorem State.wb_pfx (s : State) (r : BReg) (v : BitVec 128) : (s.wb r v).pfx = s.pfx := rfl
@[simp] theorem State.wb_agenda (s : State) (r : BReg) (v : BitVec 128) : (s.wb r v).agenda = s.agenda := rfl
@[simp] theorem State.wb_freeCount (s : State) (r : BReg) (v : BitVec 128) : (s.wb r v).freeCount = s.freeCount := rfl
@[simp] theorem State.wb_ran (s : State) (r : BReg) (v : BitVec 128) : (s.wb r v).ran = s.ran := rfl
@[simp] theorem State.wb_split (s : State) (r : BReg) (v : BitVec 128) : (s.wb r v).split = s.split := rfl
@[simp] theorem State.wb_tail (s : State) (r : BReg) (v : BitVec 128) : (s.wb r v).tail = s.tail := rfl

@[simp] theorem State.accrue_mem (s : State) (fl : BitVec 5) : (s.accrue fl).mem = s.mem := rfl
@[simp] theorem State.accrue_poison (s : State) (fl : BitVec 5) : (s.accrue fl).poison = s.poison := rfl
@[simp] theorem State.accrue_harts (s : State) (fl : BitVec 5) : (s.accrue fl).harts = s.harts := rfl
@[simp] theorem State.accrue_part (s : State) (fl : BitVec 5) : (s.accrue fl).part = s.part := rfl
@[simp] theorem State.accrue_pkg (s : State) (fl : BitVec 5) : (s.accrue fl).pkg = s.pkg := rfl
@[simp] theorem State.accrue_pfx (s : State) (fl : BitVec 5) : (s.accrue fl).pfx = s.pfx := rfl
@[simp] theorem State.accrue_agenda (s : State) (fl : BitVec 5) : (s.accrue fl).agenda = s.agenda := rfl
@[simp] theorem State.accrue_freeCount (s : State) (fl : BitVec 5) : (s.accrue fl).freeCount = s.freeCount := rfl
@[simp] theorem State.accrue_ran (s : State) (fl : BitVec 5) : (s.accrue fl).ran = s.ran := rfl
@[simp] theorem State.accrue_split (s : State) (fl : BitVec 5) : (s.accrue fl).split = s.split := rfl
@[simp] theorem State.accrue_tail (s : State) (fl : BitVec 5) : (s.accrue fl).tail = s.tail := rfl

@[simp] theorem State.accrueZa_mem (s : State) (fl : BitVec 3) : (s.accrueZa fl).mem = s.mem := rfl
@[simp] theorem State.accrueZa_poison (s : State) (fl : BitVec 3) : (s.accrueZa fl).poison = s.poison := rfl
@[simp] theorem State.accrueZa_harts (s : State) (fl : BitVec 3) : (s.accrueZa fl).harts = s.harts := rfl
@[simp] theorem State.accrueZa_part (s : State) (fl : BitVec 3) : (s.accrueZa fl).part = s.part := rfl
@[simp] theorem State.accrueZa_pkg (s : State) (fl : BitVec 3) : (s.accrueZa fl).pkg = s.pkg := rfl
@[simp] theorem State.accrueZa_pfx (s : State) (fl : BitVec 3) : (s.accrueZa fl).pfx = s.pfx := rfl
@[simp] theorem State.accrueZa_agenda (s : State) (fl : BitVec 3) : (s.accrueZa fl).agenda = s.agenda := rfl
@[simp] theorem State.accrueZa_freeCount (s : State) (fl : BitVec 3) : (s.accrueZa fl).freeCount = s.freeCount := rfl
@[simp] theorem State.accrueZa_ran (s : State) (fl : BitVec 3) : (s.accrueZa fl).ran = s.ran := rfl
@[simp] theorem State.accrueZa_split (s : State) (fl : BitVec 3) : (s.accrueZa fl).split = s.split := rfl
@[simp] theorem State.accrueZa_tail (s : State) (fl : BitVec 3) : (s.accrueZa fl).tail = s.tail := rfl

@[simp] theorem State.accrueZd_mem (s : State) (fl : BitVec 7) : (s.accrueZd fl).mem = s.mem := rfl
@[simp] theorem State.accrueZd_poison (s : State) (fl : BitVec 7) : (s.accrueZd fl).poison = s.poison := rfl
@[simp] theorem State.accrueZd_harts (s : State) (fl : BitVec 7) : (s.accrueZd fl).harts = s.harts := rfl
@[simp] theorem State.accrueZd_part (s : State) (fl : BitVec 7) : (s.accrueZd fl).part = s.part := rfl
@[simp] theorem State.accrueZd_pkg (s : State) (fl : BitVec 7) : (s.accrueZd fl).pkg = s.pkg := rfl
@[simp] theorem State.accrueZd_pfx (s : State) (fl : BitVec 7) : (s.accrueZd fl).pfx = s.pfx := rfl
@[simp] theorem State.accrueZd_agenda (s : State) (fl : BitVec 7) : (s.accrueZd fl).agenda = s.agenda := rfl
@[simp] theorem State.accrueZd_freeCount (s : State) (fl : BitVec 7) : (s.accrueZd fl).freeCount = s.freeCount := rfl
@[simp] theorem State.accrueZd_ran (s : State) (fl : BitVec 7) : (s.accrueZd fl).ran = s.ran := rfl
@[simp] theorem State.accrueZd_split (s : State) (fl : BitVec 7) : (s.accrueZd fl).split = s.split := rfl
@[simp] theorem State.accrueZd_tail (s : State) (fl : BitVec 7) : (s.accrueZd fl).tail = s.tail := rfl

theorem State.wx_cases (s : State) (r : XReg) (v : Word) :
    s.wx r v = s ∨ s.wx r v = s.modU fun u => { u with x := u.x.set r.toNat v r.isLt } := by
  unfold State.wx; split <;> simp

@[simp] theorem State.wx_mem (s : State) (r : XReg) (v : Word) : (s.wx r v).mem = s.mem := by
  unfold State.wx; split <;> rfl
@[simp] theorem State.wx_poison (s : State) (r : XReg) (v : Word) : (s.wx r v).poison = s.poison := by
  unfold State.wx; split <;> rfl
@[simp] theorem State.wx_harts (s : State) (r : XReg) (v : Word) : (s.wx r v).harts = s.harts := by
  unfold State.wx; split <;> rfl
@[simp] theorem State.wx_part (s : State) (r : XReg) (v : Word) : (s.wx r v).part = s.part := by
  unfold State.wx; split <;> rfl
@[simp] theorem State.wx_pkg (s : State) (r : XReg) (v : Word) : (s.wx r v).pkg = s.pkg := by
  unfold State.wx; split <;> rfl
@[simp] theorem State.wx_pfx (s : State) (r : XReg) (v : Word) : (s.wx r v).pfx = s.pfx := by
  unfold State.wx; split <;> rfl
@[simp] theorem State.wx_agenda (s : State) (r : XReg) (v : Word) : (s.wx r v).agenda = s.agenda := by
  unfold State.wx; split <;> rfl
@[simp] theorem State.wx_freeCount (s : State) (r : XReg) (v : Word) : (s.wx r v).freeCount = s.freeCount := by
  unfold State.wx; split <;> rfl
@[simp] theorem State.wx_ran (s : State) (r : XReg) (v : Word) : (s.wx r v).ran = s.ran := by
  unfold State.wx; split <;> rfl
@[simp] theorem State.wx_split (s : State) (r : XReg) (v : Word) : (s.wx r v).split = s.split := by
  unfold State.wx; split <;> rfl
@[simp] theorem State.wx_tail (s : State) (r : XReg) (v : Word) : (s.wx r v).tail = s.tail := by
  unfold State.wx; split <;> rfl

@[simp] theorem State.ww_mem (s : State) (n : Nat) (v : BitVec 32) : (s.ww n v).mem = s.mem := by
  unfold State.ww; split <;> rfl
@[simp] theorem State.ww_poison (s : State) (n : Nat) (v : BitVec 32) : (s.ww n v).poison = s.poison := by
  unfold State.ww; split <;> rfl
@[simp] theorem State.ww_harts (s : State) (n : Nat) (v : BitVec 32) : (s.ww n v).harts = s.harts := by
  unfold State.ww; split <;> rfl
@[simp] theorem State.ww_part (s : State) (n : Nat) (v : BitVec 32) : (s.ww n v).part = s.part := by
  unfold State.ww; split <;> rfl
@[simp] theorem State.ww_pkg (s : State) (n : Nat) (v : BitVec 32) : (s.ww n v).pkg = s.pkg := by
  unfold State.ww; split <;> rfl
@[simp] theorem State.ww_pfx (s : State) (n : Nat) (v : BitVec 32) : (s.ww n v).pfx = s.pfx := by
  unfold State.ww; split <;> rfl
@[simp] theorem State.ww_agenda (s : State) (n : Nat) (v : BitVec 32) : (s.ww n v).agenda = s.agenda := by
  unfold State.ww; split <;> rfl
@[simp] theorem State.ww_freeCount (s : State) (n : Nat) (v : BitVec 32) : (s.ww n v).freeCount = s.freeCount := by
  unfold State.ww; split <;> rfl
@[simp] theorem State.ww_ran (s : State) (n : Nat) (v : BitVec 32) : (s.ww n v).ran = s.ran := by
  unfold State.ww; split <;> rfl
@[simp] theorem State.ww_split (s : State) (n : Nat) (v : BitVec 32) : (s.ww n v).split = s.split := by
  unfold State.ww; split <;> rfl
@[simp] theorem State.ww_tail (s : State) (n : Nat) (v : BitVec 32) : (s.ww n v).tail = s.tail := by
  unfold State.ww; split <;> rfl

end Sys2Proof.Machine
end

