-- ==== Sys2Proof/Laws/Memory.lean ====
section
/-! SUPPORT. Sys2Proof/Laws/Memory.lean: reading after writing, and the canonical form of memory under every write. -/
namespace Sys2Proof.Machine

/-! ## Canonical lists -/

section Sparse

variable {α : Type} {d : α} {l : List (Nat × α)}

theorem sparseGet_of_lt {k : Nat} (h : ∀ e ∈ l, k < e.1) : sparseGet d l k = d := by
  induction l with
  | nil => rfl
  | cons e l ih =>
    obtain ⟨a, v⟩ := e
    have ha : k < a := h (a, v) (by simp)
    simp only [sparseGet]
    rw [if_neg (by omega)]
    exact ih fun e he => h e (by simp [he])

variable [DecidableEq α]

theorem sparseWf_cons {a : Nat} {v : α} :
    sparseWf d ((a, v) :: l) = true ↔ v ≠ d ∧ (∀ e ∈ l, a < e.1) ∧ sparseWf d l = true := by
  simp [sparseWf, and_assoc]

theorem sparseGet_set_same {k : Nat} {v : α} (h : sparseWf d l = true) : sparseGet d (sparseSet d l k v) k = v := by
  induction l with
  | nil => by_cases hv : v = d <;> simp [sparseSet, sparseGet, hv]
  | cons e l ih =>
    obtain ⟨a, w⟩ := e
    obtain ⟨-, hl, hw⟩ := sparseWf_cons.1 h
    unfold sparseSet
    by_cases h1 : k < a
    · by_cases hv : v = d
      · have : ∀ e ∈ (a, w) :: l, k < e.1 := by
          intro e he
          rcases List.mem_cons.1 he with rfl | he
          · exact h1
          · exact lt_trans h1 (hl e he)
        simp [h1, hv, sparseGet_of_lt this]
      · simp [h1, hv, sparseGet]
    · by_cases h2 : a = k
      · subst h2
        by_cases hv : v = d
        · simp [hv, sparseGet_of_lt hl]
        · simp [hv, sparseGet]
      · simp [h1, h2, sparseGet, ih hw]

theorem sparseGet_set_other {k j : Nat} {v : α} (hj : j ≠ k) : sparseGet d (sparseSet d l k v) j = sparseGet d l j := by
  induction l with
  | nil => by_cases hv : v = d <;> simp [sparseSet, sparseGet, hv, hj.symm]
  | cons e l ih =>
    obtain ⟨a, w⟩ := e
    unfold sparseSet
    by_cases h1 : k < a
    · by_cases hv : v = d <;> simp [h1, hv, sparseGet, hj.symm]
    · by_cases h2 : a = k
      · subst h2
        by_cases hv : v = d <;> simp [hv, sparseGet, hj.symm]
      · simp [h1, h2, sparseGet, ih]

theorem sparseSet_mem {k : Nat} {v : α} {e : Nat × α} (h : e ∈ sparseSet d l k v) : e = (k, v) ∨ e ∈ l := by
  induction l with
  | nil => by_cases hv : v = d <;> simp_all [sparseSet]
  | cons f l ih =>
    obtain ⟨a, w⟩ := f
    unfold sparseSet at h
    split at h
    · split at h <;> simp_all
    · split at h
      · split at h <;> simp_all
        rcases h with h | h <;> simp_all
      · rcases List.mem_cons.1 h with h | h
        · simp [h]
        · rcases ih h with h | h <;> simp [h]

theorem sparseWf_set {k : Nat} {v : α} (h : sparseWf d l = true) : sparseWf d (sparseSet d l k v) = true := by
  induction l with
  | nil => by_cases hv : v = d <;> simp [sparseSet, sparseWf, hv]
  | cons e l ih =>
    obtain ⟨a, w⟩ := e
    obtain ⟨hw, hl, hwf⟩ := sparseWf_cons.1 h
    unfold sparseSet
    by_cases h1 : k < a
    · by_cases hv : v = d
      · simpa [h1, hv] using h
      · simp only [h1, hv, if_true, if_false]
        refine sparseWf_cons.2 ⟨hv, ?_, h⟩
        intro e he
        rcases List.mem_cons.1 he with rfl | he
        · exact h1
        · exact lt_trans h1 (hl e he)
    · by_cases h2 : a = k
      · subst h2
        by_cases hv : v = d
        · simpa [hv] using hwf
        · simpa [hv] using sparseWf_cons.2 ⟨hv, hl, hwf⟩
      · simp only [h1, h2, if_false]
        refine sparseWf_cons.2 ⟨hw, ?_, ih hwf⟩
        intro e he
        rcases sparseSet_mem he with rfl | he
        · simp; omega
        · exact hl e he

theorem sparseWf_sets {k : Nat} {vs : List α} (h : sparseWf d l = true) : sparseWf d (sparseSets d l k vs) = true := by
  induction vs generalizing l k with
  | nil => exact h
  | cons v vs ih => exact ih (sparseWf_set h)

theorem sparseGet_sets_outside {k j : Nat} {vs : List α} (h : j < k ∨ k + vs.length ≤ j) :
    sparseGet d (sparseSets d l k vs) j = sparseGet d l j := by
  induction vs generalizing l k with
  | nil => rfl
  | cons v vs ih =>
    simp only [List.length_cons] at h
    rw [sparseSets, ih (by omega), sparseGet_set_other (by omega)]

theorem sparseGet_sets_inside {k i : Nat} {vs : List α} (hw : sparseWf d l = true) (h : i < vs.length) :
    sparseGet d (sparseSets d l k vs) (k + i) = vs[i] := by
  induction vs generalizing l k i with
  | nil => simp at h
  | cons v vs ih =>
    rw [sparseSets]
    cases i with
    | zero => simpa [sparseGet_sets_outside] using sparseGet_set_same hw
    | succ i =>
      have := ih (sparseWf_set (k := k) (v := v) hw) (k := k + 1) (i := i) (by simpa using h)
      simpa [Nat.add_assoc, Nat.add_comm 1 i] using this

theorem sparseGets_sets {k : Nat} {vs : List α} (hw : sparseWf d l = true) :
    sparseGets d (sparseSets d l k vs) k vs.length = vs := by
  suffices h : ∀ (m : List (Nat × α)) (k n : Nat) (us : List α), us.length = n →
      (∀ i, (hi : i < us.length) → sparseGet d m (k + i) = us[i]) → sparseGets d m k n = us by
    exact h _ _ _ _ rfl fun i hi => sparseGet_sets_inside hw hi
  intro m k n us hn hg
  induction us generalizing k n with
  | nil => subst hn; rfl
  | cons u us ih =>
    subst hn
    have h0 := hg 0 (by simp)
    simp only [Nat.add_zero, List.getElem_cons_zero] at h0
    have := ih (k + 1) us.length rfl fun i hi => by
      have := hg (i + 1) (by simpa using hi)
      simpa [Nat.add_assoc, Nat.add_comm 1 i] using this
    simp [sparseGets, h0, this]

theorem sparseWf_filter {p : Nat × α → Bool} (h : sparseWf d l = true) : sparseWf d (l.filter p) = true := by
  induction l with
  | nil => rfl
  | cons e l ih =>
    obtain ⟨a, w⟩ := e
    obtain ⟨hw, hl, hwf⟩ := sparseWf_cons.1 h
    by_cases hp : p (a, w) = true
    · rw [List.filter_cons_of_pos hp]
      exact sparseWf_cons.2 ⟨hw, fun e he => hl e (List.mem_of_mem_filter he), ih hwf⟩
    · rw [List.filter_cons_of_neg hp]
      exact ih hwf

/-- Two canonical lists that read the same everywhere are the same list. -/
theorem sparse_ext {m : List (Nat × α)} (hl : sparseWf d l = true) (hm : sparseWf d m = true)
    (h : ∀ k, sparseGet d l k = sparseGet d m k) : l = m := by
  induction l generalizing m with
  | nil =>
    cases m with
    | nil => rfl
    | cons e m =>
      obtain ⟨a, v⟩ := e
      have := h a
      simp [sparseGet] at this
      exact absurd this.symm (sparseWf_cons.1 hm).1
  | cons e l ih =>
    obtain ⟨a, v⟩ := e
    obtain ⟨hv, hal, hwl⟩ := sparseWf_cons.1 hl
    cases m with
    | nil =>
      have := h a
      simp [sparseGet] at this
      exact absurd this hv
    | cons f m =>
      obtain ⟨b, w⟩ := f
      obtain ⟨hw, hbm, hwm⟩ := sparseWf_cons.1 hm
      have hab : a = b := by
        rcases Nat.lt_trichotomy a b with hlt | heq | hgt
        · have := h a
          rw [sparseGet_of_lt (l := (b, w) :: m) (k := a)] at this
          · simp [sparseGet] at this; exact absurd this hv
          · intro e he
            rcases List.mem_cons.1 he with rfl | he
            · exact hlt
            · exact lt_trans hlt (hbm e he)
        · exact heq
        · have := h b
          rw [sparseGet_of_lt (l := (a, v) :: l) (k := b)] at this
          · simp [sparseGet] at this; exact absurd this.symm hw
          · intro e he
            rcases List.mem_cons.1 he with rfl | he
            · exact hgt
            · exact lt_trans hgt (hal e he)
      subst hab
      have hvw : v = w := by simpa [sparseGet] using h a
      subst hvw
      have : l = m := by
        refine ih hwl hwm fun k => ?_
        have := h k
        by_cases hk : a = k
        · subst hk
          rw [sparseGet_of_lt hal, sparseGet_of_lt hbm]
        · simpa [sparseGet, hk] using this
      rw [this]

end Sparse

/-! ## Memory at the home -/

namespace State

/-- Equal memories are equal data. -/
theorem mem_ext {s t : State} (hs : s.Inv) (ht : t.Inv) (h : ∀ a, s.byte a = t.byte a) : s.mem = t.mem :=
  sparse_ext hs ht h

theorem inv_of_mem {s t : State} (h : t.mem = s.mem) (hs : s.Inv) : t.Inv := by simpa [Inv, h] using hs

theorem writePoisoned_inv {pa len : Nat} {bs : List Byte} {a : Nat} {s : State} (h : s.Inv) : (writePoisoned pa len s bs a).Inv := by
  induction bs generalizing s a with
  | nil => exact h
  | cons b bs ih =>
    unfold writePoisoned
    dsimp only
    split
    · exact ih h
    · exact ih (sparseWf_set h)

theorem rawWrite_inv {s : State} {pa : Nat} {bs : List Byte} (h : s.Inv) : (s.rawWrite pa bs).Inv := by
  unfold rawWrite
  split
  · exact sparseWf_sets h
  · exact writePoisoned_inv h

theorem notifyHost_mem (s : State) (pa len : Nat) : (s.notifyHost pa len).mem = s.mem := by
  unfold notifyHost
  split
  · split <;> rfl
  · rfl

theorem probeFor_mem (s : State) (pkg pid pa len : Nat) : (s.probeFor pkg pid pa len).mem = s.mem := rfl

theorem probeRemote_mem (s : State) (pa len : Nat) : (s.probeRemote pa len).mem = s.mem := rfl

theorem store_mem (s : State) (pa : Nat) (bs : List Byte) : (s.store pa bs).mem = (s.rawWrite pa bs).mem := notifyHost_mem _ _ _

theorem store_inv {s : State} {pa : Nat} {bs : List Byte} (h : s.Inv) : (s.store pa bs).Inv :=
  inv_of_mem (store_mem s pa bs) (rawWrite_inv h)

theorem sample_inv {s : State} {l : List Nat} (h : s.Inv) : (s.sample l).Inv := by
  unfold sample
  split <;> exact h

theorem engineWrite_inv {s : State} {pa : Nat} {bs : List Byte} (h : s.Inv) : (s.engineWrite pa bs).Inv :=
  sample_inv (rawWrite_inv (s := s) h)

theorem trace_inv {s : State} {n pid : Nat} (h : s.Inv) : (s.trace n pid).Inv := by
  unfold trace
  split
  · exact h
  · dsimp only
    split
    · split
      · exact rawWrite_inv (s := { s with freeCount := s.freeCount + 3 }) h
      · exact h
    · exact h

theorem remoteWrite_inv {s : State} {pkg pid pa : Nat} {bs : List Byte} (h : s.Inv) : (s.remoteWrite pkg pid pa bs).Inv :=
  rawWrite_inv (s := s) h

theorem setObjWord_inv {s : State} {pa i : Nat} {v : Word} (h : s.Inv) : (s.setObjWord pa i v).Inv := store_inv h

theorem pushWf_inv {s : State} {r : WfRec} (h : s.Inv) : (s.pushWf r).Inv := engineWrite_inv (s := s) h

theorem replaceCells_wf {rs : List (Nat × Nat)} {mem new : List Host.Cell} (h : Memory.wf mem = true) :
    Memory.wf (replaceCells rs mem new) = true := by
  suffices h2 : ∀ (new : List Host.Cell) (m : List Host.Cell), sparseWf 0#8 m = true →
      sparseWf 0#8 (new.foldl (fun m e => sparseSet 0#8 m e.1 e.2) m) = true from h2 _ _ (sparseWf_filter h)
  intro new
  induction new with
  | nil => exact fun _ h => h
  | cons e new ih => exact fun m h => ih _ (sparseWf_set h)

theorem saved_mem_wf {s : State} {whole : Bool} (h : s.Inv) : Memory.wf (s.saved whole).mem = true := sparseWf_filter h

theorem loadSlot_inv {s : State} {v : Saved} (h : s.Inv) : (s.loadSlot v).Inv := by
  suffices h2 : ∀ (rs : List (Nat × Nat)) (t : State), t.Inv → (rs.foldl (fun (t : State) r => t.probeRemote r.1 r.2) t).Inv from
    h2 _ _ (replaceCells_wf h)
  intro rs
  induction rs with
  | nil => exact fun _ h => h
  | cons r rs ih => exact fun t h => ih (t.probeRemote r.1 r.2) (inv_of_mem (probeRemote_mem t r.1 r.2) h)

theorem formed_inv {s : State} {pid tasks at' : Nat} {ls ws : List Nat} {rs : List (Nat × Nat)} {notify : Option Nat} {boot : List Byte}
    (h : s.Inv) : (s.formed pid ls ws rs tasks notify at' boot).Inv := rawWrite_inv (s := s) h

theorem placed_inv {s : State} {nbits w : Nat} (h : s.Inv) : (s.placed nbits w).Inv := by
  unfold placed
  dsimp only
  split
  · exact sparseWf_sets h
  · exact sparseWf_sets (show sparseWf 0#8 s.mem = true from h)

/-! ## Reading after writing, where no word is poisoned -/

theorem rawWrite_of_clean {s : State} {pa : Nat} {bs : List Byte} (h : s.poison = []) :
    s.rawWrite pa bs = { s with mem := sparseSets 0#8 s.mem pa bs } := by simp [rawWrite, h]

theorem byte_rawWrite_outside {s : State} {pa a : Nat} {bs : List Byte} (h : a < pa ∨ pa + bs.length ≤ a) :
    (s.rawWrite pa bs).byte a = s.byte a := by
  have aux : ∀ (bs : List Byte) (b len : Nat) (p : Nat) (s : State), (a < b ∨ b + bs.length ≤ a) →
      (writePoisoned p len s bs b).byte a = s.byte a := by
    intro bs
    induction bs with
    | nil => intros; rfl
    | cons c bs ih =>
      intro b len p s hb
      simp only [List.length_cons] at hb
      unfold writePoisoned
      dsimp only
      split
      · exact ih _ _ _ _ (by omega)
      · rw [ih _ _ _ _ (by omega)]
        exact sparseGet_set_other (by omega)
  unfold rawWrite
  split
  · exact sparseGet_sets_outside h
  · exact aux bs pa bs.length pa s h

theorem bytes_rawWrite {s : State} {pa : Nat} {bs : List Byte} (h : s.Inv) (hp : s.poison = []) :
    (s.rawWrite pa bs).bytes pa bs.length = bs := by
  rw [rawWrite_of_clean hp]
  exact sparseGets_sets h

end State

theorem natLe_length (n v : Nat) : (natLe n v).length = n := by
  induction n generalizing v with
  | zero => rfl
  | succ n ih => simp [natLe, ih]

theorem leNat_natLe (n v : Nat) : leNat (natLe n v) = v % 2 ^ (8 * n) := by
  induction n generalizing v with
  | zero => simp [natLe, leNat, Nat.mod_one]
  | succ n ih =>
    simp only [natLe, leNat, ih, BitVec.toNat_ofNat]
    rw [show 8 * (n + 1) = 8 + 8 * n by ring, pow_add, Nat.mod_mul, show (2 : Nat) ^ 8 = 256 from rfl]

end Sys2Proof.Machine
end

