-- ==== Sys2Proof/Laws/Frame.lean ====
section
/-! SUPPORT. Sys2Proof/Laws/Frame.lean: retirement and register writes, each with everything it can do, and the frame lemmas from which an
instruction's frame is put together. -/
namespace Sys2Proof.Machine

/-! ## Registers -/

namespace State

theorem rx_zero (s : State) : s.rx 0#5 = 0 := by simp [rx]

theorem rx_wx (s : State) (r q : XReg) (v : Word) : (s.wx r v).rx q = if q = r ∧ r ≠ 0#5 then v else s.rx q := by
  by_cases h0 : r.toNat = 0
  · have : r = 0#5 := BitVec.eq_of_toNat_eq (by simpa using h0)
    subst this
    simp [wx]
  · have hr : r ≠ 0#5 := fun h => h0 (by simp [h])
    by_cases hq : q = r
    · subst hq
      simp [wx, rx, h0, hr, modU]
    · have : r.toNat ≠ q.toNat := fun h => hq (BitVec.eq_of_toNat_eq h.symm)
      simp [wx, rx, h0, hq, modU, Vector.getElem_set_ne _ _ this]

@[simp] theorem rx_wx_same (s : State) (r : XReg) (v : Word) : (s.wx r v).rx r = if r = 0#5 then 0 else v := by
  rw [rx_wx]
  by_cases h : r = 0#5
  · subst h; simp [rx]
  · simp [h]

theorem rf_wf (s : State) (r q : FReg) (v : Word) : (s.wf r v).rf q = if q = r then v else s.rf q := by
  by_cases hq : q = r
  · subst hq; simp [wf, rf, modU]
  · have : r.toNat ≠ q.toNat := fun h => hq (BitVec.eq_of_toNat_eq h.symm)
    simp [wf, rf, modU, hq, Vector.getElem_set_ne _ _ this]

@[simp] theorem rf_wf_same (s : State) (r : FReg) (v : Word) : (s.wf r v).rf r = v := by simp [rf_wf]

theorem rk_wk (s : State) (r q : KReg) (v : KIdx) : (s.wk r v).rk q = if q = r then v else s.rk q := by
  by_cases hq : q = r
  · subst hq; simp [wk, rk, modU]
  · have : r.toNat ≠ q.toNat := fun h => hq (BitVec.eq_of_toNat_eq h.symm)
    simp [wk, rk, modU, hq, Vector.getElem_set_ne _ _ this]

@[simp] theorem rk_wk_same (s : State) (r : KReg) (v : KIdx) : (s.wk r v).rk r = v := by simp [rk_wk]

theorem rd_wd (s : State) (r q : DReg) (v : Dist) : (s.wd r v).rd q = if q = r then v else s.rd q := by
  by_cases hq : q = r
  · subst hq; simp [wd, rd, modU]
  · have : r.toNat ≠ q.toNat := fun h => hq (BitVec.eq_of_toNat_eq h.symm)
    simp [wd, rd, modU, hq, Vector.getElem_set_ne _ _ this]

@[simp] theorem rd_wd_same (s : State) (r : DReg) (v : Dist) : (s.wd r v).rd r = v := by simp [rd_wd]

theorem rb_wb (s : State) (r q : BReg) (v : BitVec 128) : (s.wb r v).rb q = if q = r then v else s.rb q := by
  by_cases hq : q = r
  · subst hq; simp [wb, rb, modU]
  · have : r.toNat ≠ q.toNat := fun h => hq (BitVec.eq_of_toNat_eq h.symm)
    simp [wb, rb, modU, hq, Vector.getElem_set_ne _ _ this]

@[simp] theorem rb_wb_same (s : State) (r : BReg) (v : BitVec 128) : (s.wb r v).rb r = v := by simp [rb_wb]

theorem rw_ww (s : State) (n m : Nat) (v : BitVec 32) : (s.ww n v).rw m = if m = n ∧ n < 64 then v else s.rw m := by
  unfold ww
  by_cases hn : n < 64
  · by_cases hm : m = n
    · subst hm; simp [rw, hn, modU]
    · by_cases h64 : m < 64
      · simp [rw, hn, h64, hm, modU, Vector.getElem_set_ne _ _ (Ne.symm hm)]
      · simp [rw, hn, h64, hm]
  · simp [hn]

theorem rp_wp (s : State) (r q : PReg) (b : Bool) (h : predOk r = true) : (s.wp r b).rp q = if q = r then b else s.rp q := by
  have hr : r.toNat < 12 := by simpa [predOk] using h
  by_cases hq : q = r
  · subst hq
    cases b <;> simp [wp, rp, modU, hr]
  · have : q.toNat ≠ r.toNat := fun h => hq (BitVec.eq_of_toNat_eq h)
    cases b
    · by_cases h12 : q.toNat < 12
      · simp [wp, rp, modU, hq, h12]
        intro _
        omega
      · have : ∀ v : BitVec 12, v.getLsbD q.toNat = false := fun v => BitVec.getLsbD_of_ge _ _ (by omega)
        simp [rp, this]
    · simp [wp, rp, modU, hq]
      intro _ _
      omega

/-! ## Retirement -/

section Retire

variable (s : State) (npc : Word)

@[simp] theorem modMyGroup_hart (f : Group → Group) : (s.modMyGroup f).hart = s.hart := by unfold modMyGroup; split <;> rfl
@[simp] theorem modMyGroup_harts (f : Group → Group) : (s.modMyGroup f).harts = s.harts := by unfold modMyGroup; split <;> rfl
@[simp] theorem modMyGroup_mem (f : Group → Group) : (s.modMyGroup f).mem = s.mem := by unfold modMyGroup; split <;> rfl
@[simp] theorem modMyGroup_poison (f : Group → Group) : (s.modMyGroup f).poison = s.poison := by unfold modMyGroup; split <;> rfl
@[simp] theorem modMyGroup_pkg (f : Group → Group) : (s.modMyGroup f).pkg = s.pkg := by unfold modMyGroup; split <;> rfl
@[simp] theorem modMyGroup_pfx (f : Group → Group) : (s.modMyGroup f).pfx = s.pfx := by unfold modMyGroup; split <;> rfl
@[simp] theorem modMyGroup_agenda (f : Group → Group) : (s.modMyGroup f).agenda = s.agenda := by unfold modMyGroup; split <;> rfl
@[simp] theorem modMyGroup_ran (f : Group → Group) : (s.modMyGroup f).ran = s.ran := by unfold modMyGroup; split <;> rfl
@[simp] theorem modMyGroup_split (f : Group → Group) : (s.modMyGroup f).split = s.split := by unfold modMyGroup; split <;> rfl
@[simp] theorem modMyGroup_tail (f : Group → Group) : (s.modMyGroup f).tail = s.tail := by unfold modMyGroup; split <;> rfl
@[simp] theorem modMyGroup_freeCount (f : Group → Group) : (s.modMyGroup f).freeCount = s.freeCount := by unfold modMyGroup; split <;> rfl

@[simp] theorem modMyGroup_still (f : Group → Group) : (s.modMyGroup f).part.still = s.part.still := by
  unfold modMyGroup
  split
  · simp only [modW_part, Part.still, adjust, List.map_map]
    congr 1
    refine List.map_congr_left fun w _ => ?_
    simp only [Function.comp_apply]
    split <;> rfl
  · rfl

@[simp] theorem laneDone_hart : s.laneDone.hart = s.hart := by unfold laneDone; split <;> simp
@[simp] theorem laneDone_harts : s.laneDone.harts = s.harts := by unfold laneDone; split <;> simp
@[simp] theorem laneDone_mem : s.laneDone.mem = s.mem := by unfold laneDone; split <;> simp
@[simp] theorem laneDone_poison : s.laneDone.poison = s.poison := by unfold laneDone; split <;> simp
@[simp] theorem laneDone_pkg : s.laneDone.pkg = s.pkg := by unfold laneDone; split <;> simp
@[simp] theorem laneDone_pfx : s.laneDone.pfx = s.pfx := by unfold laneDone; split <;> simp
@[simp] theorem laneDone_agenda : s.laneDone.agenda = s.agenda := by unfold laneDone; split <;> simp
@[simp] theorem laneDone_ran : s.laneDone.ran = s.ran := by unfold laneDone; split <;> simp
@[simp] theorem laneDone_split : s.laneDone.split = s.split := by unfold laneDone; split <;> simp
@[simp] theorem laneDone_tail : s.laneDone.tail = s.tail := by unfold laneDone; split <;> simp
@[simp] theorem laneDone_still : s.laneDone.part.still = s.part.still := by unfold laneDone; split <;> simp

/-- Retirement changes the pc, the wait and the counters of the hart. -/
@[simp] theorem retireTo_hart :
    (s.retireTo npc).hart =
      { s.hart with
        u := { s.hart.u with pc := npc }
        wait := none
        resume := none
        instret := if s.hart.sup.mcountinhibit.getLsbD 2 then s.hart.instret else s.hart.instret + 1 } := by
  simp [retireTo]

@[simp] theorem retireTo_harts : (s.retireTo npc).harts = s.harts := by simp [retireTo]
@[simp] theorem retireTo_mem : (s.retireTo npc).mem = s.mem := by simp [retireTo]
@[simp] theorem retireTo_poison : (s.retireTo npc).poison = s.poison := by simp [retireTo]
@[simp] theorem retireTo_pfx : (s.retireTo npc).pfx = s.pfx := by simp [retireTo]
@[simp] theorem retireTo_agenda : (s.retireTo npc).agenda = s.agenda := by simp [retireTo]
@[simp] theorem retireTo_ran : (s.retireTo npc).ran = s.ran := by simp [retireTo]
@[simp] theorem retireTo_split : (s.retireTo npc).split = s.split := by simp [retireTo]
@[simp] theorem retireTo_tail : (s.retireTo npc).tail = s.tail := by simp [retireTo]
@[simp] theorem retireTo_still : (s.retireTo npc).part.still = s.part.still := by simp [retireTo]
@[simp] theorem retireTo_pkg_still (w : Writes) : (s.retireTo npc).pkg.still w = s.pkg.still w := by simp [retireTo]
@[simp] theorem retireTo_byte (a : Nat) : (s.retireTo npc).byte a = s.byte a := by simp [byte]
@[simp] theorem retireTo_pc : (s.retireTo npc).pc = npc := by simp [pc]
@[simp] theorem retireTo_rx (r : XReg) : (s.retireTo npc).rx r = s.rx r := by simp [rx]
@[simp] theorem retireTo_rf (r : FReg) : (s.retireTo npc).rf r = s.rf r := by simp [rf]
@[simp] theorem retireTo_rp (r : PReg) : (s.retireTo npc).rp r = s.rp r := by simp [rp]
@[simp] theorem retireTo_rw (m : Nat) : (s.retireTo npc).rw m = s.rw m := by simp [rw]
@[simp] theorem retireTo_rk (r : KReg) : (s.retireTo npc).rk r = s.rk r := by simp [rk]
@[simp] theorem retireTo_rd (r : DReg) : (s.retireTo npc).rd r = s.rd r := by simp [rd]
@[simp] theorem retireTo_rb (r : BReg) : (s.retireTo npc).rb r = s.rb r := by simp [rb]

theorem retire_eq (c : Option (BitVec 16)) : s.retire c = s.retireTo (s.pc + s.ilen c) := rfl

theorem pc_add_ilen : s.pc + s.ilen none = s.nextPc := by
  unfold ilen nextPc
  cases s.pfx <;> simp

theorem retireTo_inv {s : State} {npc : Word} (h : s.Inv) : (s.retireTo npc).Inv := inv_of_mem (by simp) h

end Retire

end State

/-! ## Frames -/

/-- The registers, flags, harts and memory are as before, whatever an instruction may write. -/
theorem Frame.refl (w : Writes) (s : State) : Frame w s s := by
  refine ⟨⟨?_, ?_, ?_⟩, ?_, ?_, rfl, rfl, rfl, rfl, rfl, rfl, rfl⟩
  · simp [SameRegs]
  · simp [SameFlags]
  · cases w.resv <;> cases w.watch <;> cases w.task <;> rfl
  · simp [SameMemory]
  · cases h : w.mem <;> simp [SameHarts, h]

/-- A frame holds up to the retirement of the instruction. -/
theorem Frame.retireTo {w : Writes} {s t : State} {npc : Word} (h : Frame w s t) : Frame w s (t.retireTo npc) := by
  obtain ⟨⟨hr, hf, hh⟩, ⟨hb, hp⟩, hs, hpt, hk, ho⟩ := h
  refine ⟨⟨?_, ?_, ?_⟩, ⟨?_, ?_⟩, ?_, ?_, ?_, ?_⟩
  · simpa [SameRegs] using hr
  · simpa [SameFlags] using hf
  · rw [← hh]
    simp only [State.retireTo_hart, Hart.mk.injEq]
    cases w.resv <;> cases w.watch <;> cases w.task <;> simp
  · simpa using hb
  · simpa using hp
  · simpa [SameHarts] using hs
  · simpa using hpt
  · simpa using hk
  · simpa [SameOwn] using ho

/-- Retirement after an effect that leaves the counters alone. -/
theorem RetiredTo.of_effect {s t : State} {npc : Word} (hi : t.hart.instret = s.hart.instret) (hc : t.hart.cycle = s.hart.cycle)
    (hs : t.hart.sup = s.hart.sup) : RetiredTo npc s (t.retireTo npc) := by
  simp [RetiredTo, hi, hc, hs]

theorem wx_frame (s : State) (r : XReg) (v : Word) : Frame { x := [r] } s (s.wx r v) := by
  rcases s.wx_cases r v with h | h
  · rw [h]; exact Frame.refl _ _
  · have hx : ∀ q : XReg, q ∉ [r] → (s.wx r v).rx q = s.rx q := by
      intro q hq
      simp only [List.mem_singleton] at hq
      simp [State.rx_wx, hq]
    rw [h] at hx ⊢
    exact ⟨⟨⟨hx, by simp [State.rf, State.rp, State.rw, State.rk, State.rd, State.rb]⟩, by simp [SameFlags], by simp⟩,
      ⟨fun _ _ => rfl, rfl⟩, by simp [SameHarts], rfl, rfl, rfl, rfl, rfl, rfl, rfl⟩

theorem wf_frame (s : State) (r : FReg) (v : Word) : Frame { f := [r] } s (s.wf r v) := by
  have hx : ∀ q : FReg, q ∉ [r] → (s.wf r v).rf q = s.rf q := by
    intro q hq
    simp only [List.mem_singleton] at hq
    simp [State.rf_wf, hq]
  refine ⟨⟨⟨?_, hx, ?_⟩, ?_, ?_⟩, ⟨fun _ _ => rfl, rfl⟩, by simp [SameHarts], rfl, rfl, rfl, rfl, rfl, rfl, rfl⟩
  · simp [State.wf, State.rx]
  · simp [State.wf, State.rp, State.rw, State.rk, State.rd, State.rb]
  · simp [SameFlags, State.wf]
  · simp [State.wf]

theorem wp_frame (s : State) (r : PReg) (b : Bool) (h : predOk r = true) : Frame { p := [r] } s (s.wp r b) := by
  have hx : ∀ q : PReg, q ∉ [r] → (s.wp r b).rp q = s.rp q := by
    intro q hq
    simp only [List.mem_singleton] at hq
    simp [State.rp_wp s r q b h, hq]
  refine ⟨⟨⟨?_, ?_, hx, ?_⟩, ?_, ?_⟩, ⟨fun _ _ => rfl, rfl⟩, by simp [SameHarts], rfl, rfl, rfl, rfl, rfl, rfl, rfl⟩
  · simp [State.wp, State.rx]
  · simp [State.wp, State.rf]
  · simp [State.wp, State.rw, State.rk, State.rd, State.rb]
  · simp [SameFlags, State.wp]
  · simp [State.wp]

/-- A register instruction completes as its effect says. -/
theorem yields_plainReg {g : State → State} {s : State} {w : Writes} {R : State → Prop} (hf : Frame w s (g s))
    (hpc : (g s).pc = s.pc) (hi : (g s).hart.instret = s.hart.instret) (hc : (g s).hart.cycle = s.hart.cycle)
    (hs : (g s).hart.sup = s.hart.sup) (hR : R ((g s).retireTo s.nextPc)) :
    ∃ t, plainReg g s = .next t ∧ R t ∧ RetiredTo s.nextPc s t ∧ Frame w s t := by
  have hil : (g s).ilen none = s.ilen none := by
    have : (g s).pfx = s.pfx := hf.2.2.2.2.2.1
    simp [State.ilen, this]
  have he : (g s).retire = (g s).retireTo s.nextPc := by
    rw [State.retire_eq, hpc, hil, State.pc_add_ilen]
  exact ⟨_, rfl, he ▸ hR, he ▸ RetiredTo.of_effect hi hc hs, he ▸ hf.retireTo⟩

/-- Retirement of an effect g at the pc npc completes the instruction. -/
theorem YieldsTo.of_effect {i : Sys2Proof.Instr} {s g : State} {npc : Word} {w : Writes} {R : State → Prop}
    (he : exec i s = .next (g.retireTo npc)) (hf : Frame w s g) (hi : g.hart.instret = s.hart.instret)
    (hc : g.hart.cycle = s.hart.cycle) (hs : g.hart.sup = s.hart.sup) (hR : R (g.retireTo npc)) :
    YieldsTo npc i s w R :=
  ⟨_, he, hR, RetiredTo.of_effect hi hc hs, hf.retireTo⟩

section Wx

variable (s : State) (r : XReg) (v : Word)

theorem wx_instret : (s.wx r v).hart.instret = s.hart.instret := by unfold State.wx; split <;> rfl
theorem wx_cycle : (s.wx r v).hart.cycle = s.hart.cycle := by unfold State.wx; split <;> rfl
theorem wx_sup : (s.wx r v).hart.sup = s.hart.sup := by unfold State.wx; split <;> rfl
@[simp] theorem wx_pc : (s.wx r v).pc = s.pc := by unfold State.wx; split <;> rfl
@[simp] theorem wx_ilen (c : Option (BitVec 16)) : (s.wx r v).ilen c = s.ilen c := by simp [State.ilen]

end Wx

/-- An instruction that writes one x register and retires completes, with x0 zero. -/
theorem YieldsTo.of_wx {i : Sys2Proof.Instr} {s : State} {rd : XReg} {v npc : Word}
    (he : exec i s = .next ((s.wx rd v).retireTo npc)) :
    YieldsTo npc i s { x := [rd] } fun t => t.rx rd = if rd = 0 then 0 else v :=
  .of_effect he (wx_frame s rd v) (wx_instret ..) (wx_cycle ..) (wx_sup ..) (by simp)

end Sys2Proof.Machine
end

