-- ==== Sys2Proof/Laws/Access.lean ====
section
/-! SUPPORT. Sys2Proof/Laws/Access.lean: what an access to plain memory does, once for each shared operation. -/
namespace Sys2Proof.Machine

/-- The sampling of page accesses moves the counts alone (R92). -/
theorem sample_frame (w : Writes) (s : State) (l : List Nat) : Frame w s (s.sample l) := by
  unfold State.sample
  split
  · obtain ⟨h1, h2, h3, -, h5, h6⟩ := Frame.refl w s
    exact ⟨h1, h2, h3, rfl, h5, h6⟩
  · exact Frame.refl w s

@[simp] theorem sample_hart (s : State) (l : List Nat) : (s.sample l).hart = s.hart := by unfold State.sample; split <;> rfl
@[simp] theorem sample_harts (s : State) (l : List Nat) : (s.sample l).harts = s.harts := by unfold State.sample; split <;> rfl
@[simp] theorem sample_mem (s : State) (l : List Nat) : (s.sample l).mem = s.mem := by unfold State.sample; split <;> rfl
@[simp] theorem sample_poison (s : State) (l : List Nat) : (s.sample l).poison = s.poison := by unfold State.sample; split <;> rfl
@[simp] theorem sample_pkg (s : State) (l : List Nat) : (s.sample l).pkg = s.pkg := by unfold State.sample; split <;> rfl
@[simp] theorem sample_pfx (s : State) (l : List Nat) : (s.sample l).pfx = s.pfx := by unfold State.sample; split <;> rfl
@[simp] theorem sample_agenda (s : State) (l : List Nat) : (s.sample l).agenda = s.agenda := by unfold State.sample; split <;> rfl
@[simp] theorem sample_ran (s : State) (l : List Nat) : (s.sample l).ran = s.ran := by unfold State.sample; split <;> rfl
@[simp] theorem sample_split (s : State) (l : List Nat) : (s.sample l).split = s.split := by unfold State.sample; split <;> rfl
@[simp] theorem sample_tail (s : State) (l : List Nat) : (s.sample l).tail = s.tail := by unfold State.sample; split <;> rfl
@[simp] theorem sample_still (s : State) (l : List Nat) : (s.sample l).part.still = s.part.still := by unfold State.sample; split <;> rfl
@[simp] theorem sample_bindings (s : State) (l : List Nat) : (s.sample l).part.bindings = s.part.bindings := by
  unfold State.sample; split <;> rfl
@[simp] theorem sample_priv (s : State) (l : List Nat) : (s.sample l).part.priv = s.part.priv := by unfold State.sample; split <;> rfl
@[simp] theorem sample_wcores (s : State) (l : List Nat) : (s.sample l).part.wcores = s.part.wcores := by unfold State.sample; split <;> rfl
@[simp] theorem sample_notify (s : State) (l : List Nat) : (s.sample l).part.notify = s.part.notify := by unfold State.sample; split <;> rfl
@[simp] theorem sample_teams (s : State) (l : List Nat) : (s.sample l).part.teams = s.part.teams := by unfold State.sample; split <;> rfl
@[simp] theorem sample_members (s : State) (l : List Nat) : (s.sample l).part.members = s.part.members := by unfold State.sample; split <;> rfl
@[simp] theorem sample_myMends (s : State) (l : List Nat) : (s.sample l).myMends = s.myMends := by simp [State.myMends, State.wcore?]
@[simp] theorem sample_bytes (s : State) (l : List Nat) (a n : Nat) : (s.sample l).bytes a n = s.bytes a n := by simp [State.bytes]
@[simp] theorem sample_poisoned (s : State) (l : List Nat) (a n : Nat) : (s.sample l).poisoned a n = s.poisoned a n := by simp [State.poisoned]
@[simp] theorem sample_stashFor (s : State) (l : List Nat) (va : Word) : (s.sample l).stashFor va = s.stashFor va := by
  simp [State.stashFor, State.site, State.memberOf, State.who, State.team?]

/-- What a plain access counts for the pages: the reads of its walk and itself (R92). -/
abbrev accessReads (acc : Acc) (s : State) (va : Word) (pa : Nat) : List Nat := tableReads s (xmodeOf s.hart acc) va ++ [pa]

/-- Where a plain access goes. -/
theorem locate_plain {acc : Acc} {s : State} {va : Word} {n pa : Nat} (h : PlainAccess acc s va n pa) :
    locate acc (xmodeOf s.hart acc) va n s = (.ok pa, s.sample (accessReads acc s va pa)) := by
  obtain ⟨-, -, -, hw, hp, ht, -⟩ := h
  simp [locate, hw, hp, ht]

@[simp] theorem sample_bindingAt (s : State) (l : List Nat) (asid : BitVec 16) (va : Nat) :
    (s.sample l).bindingAt asid va = s.bindingAt asid va := by simp [State.bindingAt]

/-- Unbound bytes are read at the home. -/
theorem readBytes_unbound {s : State} {va pa n : Nat} (h : ∀ k, k < n → s.bindingAt (asidOf s.hart) (va + k) = none) :
    s.readBytes va pa n = (s.bytes pa n, s) := by
  unfold State.readBytes
  rw [if_pos]
  simp only [List.all_eq_true, List.mem_range]
  intro k hk
  simp [h k hk]

/-- A thread without mending entries reads what memory gives. -/
@[simp] theorem forwardMends_nil (a : Nat) (bs : List Byte) : forwardMends [] a bs = some bs := by
  induction bs generalizing a with
  | nil => rfl
  | cons b bs ih => simp [forwardMends, forwardByte, youngestMend, ih]

/-- A thread without mending entries holds no byte. -/
theorem fullyHeld_nil {va n : Nat} (h : 0 < n) : fullyHeld [] va n = false := by
  obtain ⟨k, rfl⟩ : ∃ k, n = k + 1 := ⟨n - 1, by omega⟩
  simp [fullyHeld, List.range_succ_eq_map]

/-- A load that reaches no poisoned word reads none (R333). -/
theorem readsPoison_clean {s : State} {pa n : Nat} {own : Nat → Bool} (h : s.poisoned pa n = false) : s.readsPoison pa n own = false := by
  simp only [State.poisoned, State.readsPoison, List.any_eq_false] at h ⊢
  intro w hw
  have := h w hw
  simp_all

/-- A load of plain memory gives its bytes. -/
theorem loadBytes_plain {s : State} {va : Word} {n pa : Nat} (h : PlainAccess .load s va n pa) :
    loadBytes va n s = .ok (s.bytes pa n) (s.sample (accessReads .load s va pa)) := by
  have hl := locate_plain h
  generalize accessReads .load s va pa = l at hl ⊢
  obtain ⟨h0, ho, hst, -, -, -, hpo, hb, hm⟩ := h
  have hr : (s.sample l).readBytes va.toNat pa n = (s.bytes pa n, s.sample l) := by
    rw [readBytes_unbound (by simpa using hb)]
    simp
  have hp : (s.sample l).readsPoison pa n (fun a => ((s.sample l).ownDirty a).isSome) = false := readsPoison_clean (by simpa using hpo)
  simp only [loadBytes, loadMemory, fullyHeld_nil h0, ho, hst, hl, hp, Bool.false_eq_true, if_false, hr, sample_myMends, hm, forwardMends_nil]

theorem loadScalar_plain {s : State} {va : Word} {n pa : Nat} (h : PlainAccess .load s va n pa) (hi : InLine va n) :
    loadScalar va n s = .ok (BitVec.ofNat 64 (s.memNat pa n)) (s.sample (accessReads .load s va pa)) := by
  have hn : ¬ va.toNat % 128 + n > 128 := Nat.not_lt.2 hi
  unfold loadScalar
  simp only [hn, if_false, bind, EStateM.bind, pure, EStateM.pure, loadBytes_plain h]
  rfl

/-- A store to plain memory is performed at the home. -/
theorem storeBytes_plain {s : State} {va : Word} {bs : List Byte} {pa : Nat} (h : PlainAccess .store s va bs.length pa) :
    storeBytes va bs s = .ok () ((s.sample (accessReads .store s va pa)).store pa bs) := by
  have hl := locate_plain h
  generalize accessReads .store s va pa = l at hl ⊢
  obtain ⟨-, ho, hst, -, -, -, hpo, hb, hm⟩ := h
  have hall : ((List.range bs.length).all fun i => ((s.sample l).bindingAt (asidOf (s.sample l).hart) (va.toNat + i)).isNone) = true := by
    simp only [List.all_eq_true, List.mem_range]
    intro i hi
    simp [hb i hi]
  simp only [storeBytes, mendable, storeEnd, hm, List.isEmpty_nil, Bool.not_true, Bool.false_eq_true, if_false, tryStore, ho, hst, hl,
    State.writeBytes, hall, if_true]

theorem storeScalar_plain {s : State} {va v : Word} {n pa : Nat} (h : PlainAccess .store s va n pa) (hi : InLine va n) :
    storeScalar va n v s = .ok () ((s.sample (accessReads .store s va pa)).store pa (natLe n v.toNat)) := by
  have hn : ¬ va.toNat % 128 + n > 128 := Nat.not_lt.2 hi
  have := storeBytes_plain (bs := natLe n v.toNat) (by rw [natLe_length]; exact h)
  unfold storeScalar
  simp only [hn, if_false]
  exact this

/-! ## A store at the home -/

theorem writePoisoned_hart (pa len : Nat) (bs : List Byte) (a : Nat) (s : State) :
    (writePoisoned pa len s bs a).hart = s.hart ∧ (writePoisoned pa len s bs a).harts = s.harts ∧
    (writePoisoned pa len s bs a).part = s.part ∧ (writePoisoned pa len s bs a).pkg = s.pkg ∧
    SameOwn s (writePoisoned pa len s bs a) ∧
    (writePoisoned pa len s bs a).freeCount = s.freeCount := by
  induction bs generalizing s a with
  | nil => simp [writePoisoned, SameOwn]
  | cons b bs ih =>
    unfold writePoisoned
    dsimp only
    split
    · exact ih _ _
    · have h := ih (a + 1)
        { s with mem := sparseSet 0#8 s.mem a b, poison := s.poison.filter fun w => w != a / 8 || a % 8 != 7 }
      exact h

/-- A write at the home changes memory and its poison alone. -/
theorem rawWrite_rest (s : State) (pa : Nat) (bs : List Byte) :
    (s.rawWrite pa bs).hart = s.hart ∧ (s.rawWrite pa bs).harts = s.harts ∧ (s.rawWrite pa bs).part = s.part ∧
    (s.rawWrite pa bs).pkg = s.pkg ∧ SameOwn s (s.rawWrite pa bs) ∧
    (s.rawWrite pa bs).freeCount = s.freeCount := by
  unfold State.rawWrite
  split
  · simp [SameOwn]
  · exact writePoisoned_hart _ _ _ _ _

/-- A write whose words are not poisoned writes its bytes, and no word's poison changes (R333). -/
theorem rawWrite_unpoisoned {s : State} {pa : Nat} {bs : List Byte} (h : s.poisoned pa bs.length = false) :
    s.rawWrite pa bs = { s with mem := sparseSets 0#8 s.mem pa bs } := by
  have aux : ∀ (bs : List Byte) (p len a : Nat) (s : State), s.poisoned a bs.length = false →
      writePoisoned p len s bs a = { s with mem := sparseSets 0#8 s.mem a bs } := by
    intro bs
    induction bs with
    | nil => intros; rfl
    | cons b bs ih =>
      intro p len a s h
      have hall : ∀ w ∈ s.poison, ¬ (a / 8 ≤ w ∧ w ≤ (a + (bs.length + 1) - 1) / 8) := by
        intro w hw hc
        have : s.poisoned a (b :: bs).length = true := by
          simp only [State.poisoned, List.any_eq_true]
          exact ⟨w, hw, by simpa [List.length_cons] using hc⟩
        rw [List.length_cons] at h this
        simp [h] at this
      have hna : a / 8 ∉ s.poison := fun hm => hall _ hm ⟨le_refl _, Nat.div_le_div_right (by omega)⟩
      have hf : (s.poison.filter fun w => w != a / 8 || a % 8 != 7) = s.poison := by
        refine List.filter_eq_self.2 fun w hw => ?_
        have : w ≠ a / 8 := fun he => hna (he ▸ hw)
        simp [this]
      have hn : s.poison.contains (a / 8) = false := by simpa using hna
      unfold writePoisoned
      dsimp only
      rw [hn, hf]
      simp only [Bool.false_and]
      rw [if_neg (by simp), ih p len (a + 1) _ ?_]
      · rfl
      · cases hb : ({ s with mem := sparseSet 0#8 s.mem a b } : State).poisoned (a + 1) bs.length with
        | false => rfl
        | true =>
          simp only [State.poisoned, List.any_eq_true] at hb
          obtain ⟨w, hw, hc⟩ := hb
          simp only [Bool.and_eq_true, decide_eq_true_eq] at hc
          cases bs with
          | nil =>
            simp only [List.length_nil, Nat.add_zero, Nat.add_sub_cancel] at hc
            exact absurd ⟨le_trans (Nat.div_le_div_right (by omega)) hc.1, by simpa using hc.2⟩ (hall w hw)
          | cons b2 bs =>
            exact absurd ⟨le_trans (Nat.div_le_div_right (by omega)) hc.1,
              le_trans hc.2 (Nat.div_le_div_right (by simp only [List.length_cons]; omega))⟩ (hall w hw)
  unfold State.rawWrite
  split
  · rfl
  · exact aux bs pa bs.length pa s h

/-- A trace event changes memory, within the ring, and what the package keeps of the trace (R354). -/
theorem trace_rest (s : State) (n pid : Nat) :
    (s.trace n pid).hart = s.hart ∧ (s.trace n pid).harts = s.harts ∧ (s.trace n pid).part = s.part ∧ SameOwn s (s.trace n pid) ∧
    { (s.trace n pid).pkg with trace := s.pkg.trace } = s.pkg ∧
    (s.pkg.trace.place = none → s.trace n pid = s) := by
  unfold State.trace
  split
  · exact ⟨rfl, rfl, rfl, ⟨rfl, rfl, rfl, rfl, rfl⟩, rfl, fun _ => rfl⟩
  · rename_i hp
    refine ⟨?_, ?_, ?_, ?_, ?_, fun h => by simp [h] at hp⟩ <;> split
    all_goals first
      | rfl
      | exact ⟨rfl, rfl, rfl, rfl, rfl⟩
      | dsimp only
        split
        · first
            | exact (rawWrite_rest _ _ _).1
            | exact (rawWrite_rest _ _ _).2.1
            | exact (rawWrite_rest _ _ _).2.2.1
            | exact (rawWrite_rest _ _ _).2.2.2.2.1
            | simp [(rawWrite_rest _ _ _).2.2.2.1]
        · first
            | rfl
            | exact ⟨rfl, rfl, rfl, rfl, rfl⟩

theorem notifyHost_rest (s : State) (pa len : Nat) :
    (s.notifyHost pa len).hart = s.hart ∧ (s.notifyHost pa len).harts = s.harts ∧ (s.notifyHost pa len).part = s.part ∧
    (s.notifyHost pa len).poison = s.poison ∧ SameOwn s (s.notifyHost pa len) := by
  unfold State.notifyHost SameOwn
  split
  · split <;> simp
  · simp

theorem notifyHost_pkg (s : State) (pa len : Nat) (w : Writes) (h : w.mem.isSome = true) :
    (s.notifyHost pa len).pkg.still w = s.pkg.still w := by
  unfold State.notifyHost
  split
  · split
    · simp [Pkg.still, h]
    · rfl
  · rfl

theorem probeRemote_pkg (s : State) (pa len : Nat) (w : Writes) (h : w.mem.isSome = true) :
    (s.probeRemote pa len).pkg.still w = s.pkg.still w := by simp [State.probeRemote, State.probeFor, Pkg.still, h]

/-- A store of the current thread changes memory and poison as a write does, ends the other harts' reservations and watches on its lines, and
tells the host and the holders of copies (R91, R118, R324, R329). -/
theorem store_rest (s : State) (pa : Nat) (bs : List Byte) :
    (s.store pa bs).mem = (s.rawWrite pa bs).mem ∧ (s.store pa bs).poison = (s.rawWrite pa bs).poison ∧ (s.store pa bs).hart = s.hart ∧
    (s.store pa bs).harts = s.harts.map (touched pa bs.length) ∧ (s.store pa bs).part = s.part ∧ SameOwn s (s.store pa bs) ∧
    ∀ w : Writes, w.mem.isSome = true → (s.store pa bs).pkg.still w = s.pkg.still w := by
  obtain ⟨hr1, -, hr3, hr4, hr5, -⟩ := rawWrite_rest s pa bs
  obtain ⟨hn1, hn2, hn3, hn4, hn5⟩ := notifyHost_rest { s.rawWrite pa bs with harts := s.harts.map (touched pa bs.length) } pa bs.length
  refine ⟨State.store_mem .., hn4, hn1.trans hr1, hn2, hn3.trans hr3, ?_, fun w h => ?_⟩
  · exact ⟨hn5.1.trans hr5.1, hn5.2.1.trans hr5.2.1, hn5.2.2.1.trans hr5.2.2.1, hn5.2.2.2.1.trans hr5.2.2.2.1,
      hn5.2.2.2.2.trans hr5.2.2.2.2⟩
  · exact (probeRemote_pkg _ _ _ w h).trans ((notifyHost_pkg _ _ _ w h).trans (congrArg _ hr4))

/-- The frame of a store of the current thread to bytes that are not poisoned. -/
theorem store_frame {s : State} {pa : Nat} {bs : List Byte} (h : s.poisoned pa bs.length = false) :
    Frame { mem := some (pa, bs.length) } s (s.store pa bs) := by
  obtain ⟨hm, hp, hh, hs, hpt, ho, hk⟩ := store_rest s pa bs
  rw [rawWrite_unpoisoned h] at hm hp
  refine ⟨⟨?_, ?_, ?_⟩, ⟨?_, hp⟩, ?_, congrArg Part.still hpt, hk _ rfl, ho⟩
  · simp [SameRegs, State.rx, State.rf, State.rp, State.rw, State.rk, State.rd, State.rb, hh]
  · simp [SameFlags, hh]
  · simp [hh]
  · intro a ha
    simp only [State.byte, hm]
    exact sparseGet_sets_outside (ha _ rfl)
  · simp only [SameHarts, hs, List.map_map]
    rfl

@[simp] theorem store_hart (s : State) (pa : Nat) (bs : List Byte) : (s.store pa bs).hart = s.hart := (store_rest s pa bs).2.2.1

/-- The bytes stored are read back. -/
theorem store_bytes {s : State} {pa : Nat} {bs : List Byte} (hs : s.Inv) (h : s.poisoned pa bs.length = false) :
    (s.store pa bs).bytes pa bs.length = bs := by
  have hmem : (s.store pa bs).mem = sparseSets 0#8 s.mem pa bs := by rw [State.store_mem, rawWrite_unpoisoned h]
  simp only [State.bytes, hmem]
  exact sparseGets_sets hs

/-- What a plain store leaves in memory. -/
theorem store_holds {s : State} {pa n : Nat} {v : Word} (hs : s.Inv) (h : s.poisoned pa n = false) :
    Holds (s.store pa (natLe n v.toNat)) pa n v := by
  have := store_bytes (bs := natLe n v.toNat) hs (by rwa [natLe_length])
  rw [natLe_length] at this
  simp [Holds, State.memNat, this, leNat_natLe]

end Sys2Proof.Machine
end

