-- ==== Sys2Proof/Laws/Ops.lean ====
section
/-! SUPPORT. Sys2Proof/Laws/Ops.lean: what the shared operations of a meaning do, once for each: entering and leaving a trap, the end of a
computation, and that each of them keeps the canonical form of memory. -/
namespace Sys2Proof.Machine

open Host (Outcome)

/-! ## Entering and leaving a trap (R118, R300) -/

section Trap

variable (intr : Bool) (cause : Nat) (epc tval : Word) (h : Hart)

@[simp] theorem enterS_pc : (enterS intr cause epc tval h).u.pc = vectorOf h.sup.stvec intr cause := rfl
@[simp] theorem enterS_mode : (enterS intr cause epc tval h).sup.mode = .s := rfl
@[simp] theorem enterS_sepc : (enterS intr cause epc tval h).sup.sepc = epc &&& ~~~1#64 := rfl
@[simp] theorem enterS_scause : (enterS intr cause epc tval h).sup.scause = causeWord intr cause := rfl
@[simp] theorem enterS_stval : (enterS intr cause epc tval h).sup.stval = tval := rfl
@[simp] theorem enterS_resv : (enterS intr cause epc tval h).resv = none := rfl
@[simp] theorem enterS_id : (enterS intr cause epc tval h).id = h.id := rfl
@[simp] theorem enterS_installed : (enterS intr cause epc tval h).installed = h.installed := rfl

/-- Entry into S-mode writes what it writes and nothing else. -/
theorem enterS_eq :
    enterS intr cause epc tval h =
      { h with
        resv := none, wait := none, resume := none, chosen := none, homing := false
        u := { h.u with pc := vectorOf h.sup.stvec intr cause }
        sup :=
          { h.sup with
            mode := .s, mstatus := (enterS intr cause epc tval h).sup.mstatus, sepc := epc &&& ~~~1#64
            scause := causeWord intr cause, stval := tval } } := rfl

@[simp] theorem enterM_pc : (enterM intr cause epc tval h).u.pc = vectorOf h.sup.mtvec intr cause := rfl
@[simp] theorem enterM_mode : (enterM intr cause epc tval h).sup.mode = .m := rfl
@[simp] theorem enterM_mepc : (enterM intr cause epc tval h).sup.mepc = epc &&& ~~~1#64 := rfl
@[simp] theorem enterM_mcause : (enterM intr cause epc tval h).sup.mcause = causeWord intr cause := rfl
@[simp] theorem enterM_mtval : (enterM intr cause epc tval h).sup.mtval = tval := rfl

/-- Entry into M-mode writes what it writes and nothing else. -/
theorem enterM_eq :
    enterM intr cause epc tval h =
      { h with
        resv := none, wait := none, resume := none, chosen := none, homing := false
        u := { h.u with pc := vectorOf h.sup.mtvec intr cause }
        sup :=
          { h.sup with
            mode := .m, mstatus := (enterM intr cause epc tval h).sup.mstatus, mepc := epc &&& ~~~1#64
            mcause := causeWord intr cause, mtval := tval } } := rfl

/-- A delegated trap that does not come from M-mode goes to S-mode. -/
theorem enterTrap_delegated (hm : h.sup.mode ≠ .m) (hd : (if intr then h.sup.mideleg else h.sup.medeleg).getLsbD cause = true) :
    enterTrap intr cause epc tval h = enterS intr cause epc tval h := by
  simp [enterTrap, hm, hd]

/-- Every other trap goes to M-mode. -/
theorem enterTrap_undelegated
    (hd : h.sup.mode = .m ∨ (if intr then h.sup.mideleg else h.sup.medeleg).getLsbD cause = false) :
    enterTrap intr cause epc tval h = enterM intr cause epc tval h := by
  obtain hd | hd := hd <;> simp [enterTrap, hd]

/-- A trap of an L-core. -/
theorem takeTrap_lcore {s : State} {n : Nat} (hn : s.hart.id = .lcore n) :
    s.takeTrap cause epc tval = { s with hart := enterTrap false cause epc tval s.hart } := by
  simp [State.takeTrap, hn]

/-- A trap of a thread at the W-site: it leaves with it, once its mending entries have drained. -/
theorem takeTrap_wthread {s : State} {ctx : Nat} (hc : s.hart.id = .wthread ctx) :
    s.takeTrap cause epc tval = s.leaveWith ⟨cause, epc, tval⟩ := by
  simp [State.takeTrap, hc]

@[simp] theorem returnS_pc : (returnS h).u.pc = h.sup.sepc := rfl
@[simp] theorem returnS_mode : (returnS h).sup.mode = if field h.sup.mstatus 8 1 = 1 then .s else .u := rfl
@[simp] theorem returnM_pc : (returnM h).u.pc = h.sup.mepc := rfl
@[simp] theorem returnM_mode :
    (returnM h).sup.mode = if field h.sup.mstatus 11 2 = 3 then .m else if field h.sup.mstatus 11 2 = 1 then .s else .u := rfl

end Trap

/-! ## Operations that leave memory alone -/

namespace State

variable (s : State)

@[simp] theorem modHart_mem (h : HartId) (f : Hart → Hart) : (s.modHart h f).mem = s.mem := rfl
@[simp] theorem leaveGroup_mem (ctx w : Nat) (ends : Bool) : (s.leaveGroup ctx w ends).mem = s.mem := rfl
@[simp] theorem refile_mem : s.refile.mem = s.mem := rfl
@[simp] theorem unpoison_mem (whole : Nat → Bool) : (s.unpoison whole).mem = s.mem := rfl
@[simp] theorem modWindows_mem (team : BitVec 16) (f : Window → Window) : (s.modWindows team f).mem = s.mem := rfl
@[simp] theorem modGranule_mem (team : BitVec 16) (n i : Nat) (f : Granule → Granule) : (s.modGranule team n i f).mem = s.mem := rfl
@[simp] theorem dropGranules_mem (team : BitVec 16) (sel : Window → Nat → Bool) : (s.dropGranules team sel).mem = s.mem := rfl
@[simp] theorem rebin_mem : s.rebin.mem = s.mem := by simp [rebin]
@[simp] theorem dropTag_mem (tag : Nat) : (s.dropTag tag).mem = s.mem := rfl
@[simp] theorem newTag_mem (k : AwaitKind) (ctx cause : Nat) (addr pc : Word) (e : List Byte) :
    (s.newTag k ctx cause addr pc e).2.mem = s.mem := rfl
@[simp] theorem dropCurrent_mem : s.dropCurrent.mem = s.mem := by unfold dropCurrent; split <;> rfl
@[simp] theorem endHandler_mem : s.endHandler.mem = s.mem := by
  unfold endHandler
  split <;> rw [dropCurrent_mem]
  rfl
@[simp] theorem noteWrote_mem (obj : Nat) : (s.noteWrote obj).mem = s.mem := by unfold noteWrote; split <;> rfl
@[simp] theorem markDropped_mem (va : Word) : (s.markDropped va).mem = s.mem := rfl
@[simp] theorem sramWrite_mem (wn off : Nat) (bs : List Byte) (src : Option CopySrc) : (s.sramWrite wn off bs src).mem = s.mem := rfl
@[simp] theorem dropClean_mem (sel : PrivByte → Bool) : (s.dropClean sel).mem = s.mem := rfl

@[simp] theorem focus_mem (h : HartId) : (s.focus h).mem = s.mem := by
  unfold focus
  split
  · rfl
  · split <;> rfl

@[simp] theorem setWait_mem (w : Wait) : (s.setWait w).mem = s.mem := by
  simp only [setWait]
  split
  · split
    · rfl
    · split <;> rfl
  · rfl

@[simp] theorem stallWait_mem (w : Wait) : (s.stallWait w).mem = s.mem := by
  unfold stallWait
  split <;> rw [setWait_mem]
  rfl

theorem readUnit_mem (va pa n : Nat) : (s.readUnit va pa n).2.mem = s.mem := by
  unfold readUnit
  split
  · simp only [boundUnit]
    split <;> rfl
  · rfl

theorem readPieces_mem (va pa n fuel : Nat) : (s.readPieces va pa n fuel).2.mem = s.mem := by
  induction fuel generalizing s va pa n with
  | zero => rfl
  | succ fuel ih =>
    simp only [readPieces]
    split
    · exact readUnit_mem ..
    · exact (ih ..).trans (readUnit_mem ..)

theorem readBytes_mem (va pa n : Nat) : (s.readBytes va pa n).2.mem = s.mem := by
  unfold readBytes
  split
  · rfl
  · exact readPieces_mem ..

theorem fillBytes_mem (t : Team) (w : Window) (i pa : Nat) (offs : List Nat) : (s.fillBytes t w i pa offs).mem = s.mem := rfl

theorem stashWrite_mem (t : Team) (w : Window) (g : Granule) (off : Nat) (bs : List Byte) : (s.stashWrite t w g off bs).mem = s.mem := by
  simp [stashWrite]

/-! ## Operations that keep the canonical form of memory -/

variable {s}

theorem foldl_inv {α : Type} {l : List α} {f : State → α → State} (hf : ∀ t a, t.Inv → (f t a).Inv) (h : s.Inv) : (l.foldl f s).Inv := by
  induction l generalizing s with
  | nil => exact h
  | cons a l ih => exact ih (hf _ _ h)

theorem withHart_inv {h : HartId} {f : State → State} (hf : ∀ t, t.Inv → (f t).Inv) (hs : s.Inv) : (s.withHart h f).Inv := by
  unfold withHart
  split
  · exact inv_of_mem (focus_mem _ _) (hf _ (inv_of_mem (focus_mem _ _) hs))
  · exact hs

theorem retire_inv {c : Option (BitVec 16)} (h : s.Inv) : (s.retire c).Inv := retireTo_inv h

theorem setWait_inv {w : Wait} (h : s.Inv) : (s.setWait w).Inv := inv_of_mem (setWait_mem _ _) h

theorem homeByte_inv {who : HartId} {pa : Nat} {v : Byte} (h : s.Inv) : (s.homeByte who pa v).Inv := by
  unfold homeByte
  split
  · exact store_inv (sample_inv h)
  · exact inv_of_mem (notifyHost_mem _ _ _) (engineWrite_inv h)

theorem writeBackByte_inv {b : PrivByte} (h : s.Inv) : (s.writeBackByte b).Inv :=
  inv_of_mem (dropGranules_mem _ _ _) (inv_of_mem (State.modPart_mem _ _) (homeByte_inv h))

theorem writeBackAll_inv {bs : List PrivByte} (h : s.Inv) : (s.writeBackAll bs).Inv :=
  foldl_inv (fun _ _ => writeBackByte_inv) (inv_of_mem (unpoison_mem _ _) h)

theorem writeBack_inv {sel : PrivByte → Bool} (h : s.Inv) : (s.writeBack sel).Inv := writeBackAll_inv h

theorem writeGranule_inv {wn off : Nat} {g : Granule} {offs : List (Nat × HartId)} (h : s.Inv) : (s.writeGranule wn off g offs).Inv := by
  refine foldl_inv (fun t _ ht => ?_) (inv_of_mem (unpoison_mem _ _) h)
  split
  · exact homeByte_inv ht
  · exact ht

theorem flushWindows_inv {team : BitVec 16} {sel : Window → Bool} (h : s.Inv) : (s.flushWindows team sel).Inv := by
  unfold flushWindows
  split
  · exact h
  · exact inv_of_mem (modWindows_mem _ _ _) (foldl_inv (fun _ _ ht => foldl_inv (fun _ _ => writeGranule_inv) ht) h)

theorem dropGranules_inv {team : BitVec 16} {sel : Window → Nat → Bool} (h : s.Inv) : (s.dropGranules team sel).Inv :=
  inv_of_mem (dropGranules_mem _ _ _) h

theorem releaseBytes_inv {sel : Nat → Bool} (h : s.Inv) : (s.releaseBytes sel).Inv := flushWindows_inv (writeBack_inv h)

theorem acquireFor_inv {who : HartId} {sel : Nat → Bool} (h : s.Inv) : (s.acquireFor who sel).Inv :=
  inv_of_mem (State.modPart_mem _ _) (dropGranules_inv (inv_of_mem (dropClean_mem _ _) h))

theorem departToW_inv {w : Nat} {rpc : Word} (h : s.Inv) : (s.departToW w rpc).Inv := by
  unfold departToW
  split
  · exact h
  · simp only [Inv, modPart_mem]
    exact pushWf_inv h

theorem departToL_inv {rpc : Word} {trap : Option PendTrap} {sig : Option (BitVec 8)} (h : s.Inv) : (s.departToL rpc trap sig).Inv := by
  unfold departToL
  split
  · refine inv_of_mem (dropCurrent_mem _) (?_ : State.Inv _)
    dsimp only
    split
    · exact inv_of_mem rfl (flushWindows_inv (s := s) h)
    · exact h
  · exact h

theorem migrateTrap_inv {t : PendTrap} (h : s.Inv) : (s.migrateTrap t).Inv := by
  unfold migrateTrap
  split
  · exact departToL_inv (s := { s with hart := { s.hart with dropped := none } }) h
  · exact departToL_inv h

theorem leaveWith_inv {t : PendTrap} (h : s.Inv) : (s.leaveWith t).Inv := by
  unfold leaveWith
  split
  · exact migrateTrap_inv h
  · dsimp only
    split <;> exact h

theorem fatalEmul_inv {a : Await} (h : s.Inv) : (s.fatalEmul a).Inv := withHart_inv (fun _ => leaveWith_inv) h

theorem handlerFatal_inv {r : HandlerRun} (h : s.Inv) : (s.handlerFatal r).Inv := by
  have he : s.endHandler.Inv := inv_of_mem (endHandler_mem _) h
  unfold handlerFatal
  dsimp only
  split
  · exact fatalEmul_inv he
  · exact he

/-- Taking a trap keeps the canonical form of memory, at either site. -/
theorem takeTrap_inv {cause : Nat} {epc tval : Word} (h : s.Inv) : (s.takeTrap cause epc tval).Inv := by
  unfold takeTrap
  split
  · exact h
  · exact leaveWith_inv h
  · split
    · exact handlerFatal_inv h
    · exact h

theorem stow_inv {ctx : Nat} (h : s.Inv) : (s.stow ctx).Inv := by
  unfold stow
  split
  · refine inv_of_mem (modHart_mem _ _ _) ?_
    dsimp only
    split
    · exact inv_of_mem rfl (engineWrite_inv h)
    · exact h
  · exact h

theorem restow_inv {ctx : Nat} (h : s.Inv) : (s.restow ctx).Inv := by
  unfold restow
  split
  · split
    · exact h
    · exact stow_inv h
  · exact h

theorem parkLane_inv {ctx core : Nat} {u : Unfiled} (h : s.Inv) : (s.parkLane ctx core u).Inv := stow_inv (inv_of_mem rfl h)

theorem fileFault_inv {ctx core cause acc : Nat} {va pc : Word} (h : s.Inv) : (s.fileFault ctx core cause acc va pc).Inv :=
  inv_of_mem (modHart_mem _ _ _) (pushWf_inv (s := (s.newTag .fault ctx cause va pc).2) h)

theorem parkFault_inv {cause acc : Nat} {va : Word} (h : s.Inv) : (s.parkFault cause acc va).Inv := by
  unfold parkFault
  split
  · dsimp only
    split
    · exact fileFault_inv (parkLane_inv h)
    · exact inv_of_mem (State.modPart_mem _ _) (parkLane_inv h)
  · exact h

theorem fileEmul_inv {ctx : Nat} {e : Illegal} {entry : List Byte} (h : s.Inv) : (s.fileEmul ctx e entry).Inv :=
  inv_of_mem (by simp only [fileEmul, modCar_mem, modPart_mem]; rfl)
    (engineWrite_inv (s := (s.newTag .emul ctx 2 e.stval s.pc entry).2)
      (pa := emqAddr s.part.emq s.part.emq.count)
      (bs := emulRecord s e (s.newTag .emul ctx 2 e.stval s.pc entry).1 ctx) h)

theorem takeIllegal_inv {e : Illegal} (h : s.Inv) : (s.takeIllegal e).Inv := by
  unfold takeIllegal
  split
  · split
    · dsimp only
      split
      · exact fileEmul_inv (parkLane_inv (sample_inv h))
      · exact inv_of_mem (State.modPart_mem _ _) (parkLane_inv (sample_inv h))
    · exact takeTrap_inv h
  · exact takeTrap_inv h

theorem homeSpan_inv {pa n : Nat} (h : s.Inv) : (s.homeSpan pa n).Inv := inv_of_mem (dropClean_mem _ _) (writeBack_inv h)

theorem homeStash_inv {va : Word} {n : Nat} (h : s.Inv) : (s.homeStash va n).Inv := by
  unfold homeStash
  split
  · dsimp only
    split
    · exact dropGranules_inv (inv_of_mem (modGranule_mem _ _ _ _ _) (writeGranule_inv (s := s) h))
    · exact h
  · exact h

theorem bringHome_inv {va : Word} {pa n : Nat} (h : s.Inv) : (s.bringHome va pa n).Inv := homeSpan_inv (homeStash_inv h)

theorem noteAtomic_inv {va : Word} (h : s.Inv) : (s.noteAtomic va).Inv := by
  unfold noteAtomic
  split
  · exact inv_of_mem (noteWrote_mem _ _) h
  · exact h

theorem storeBoundByte_inv {who : HartId} {g : Binding} {va pa : Nat} {v : Byte} (h : s.Inv) : (s.storeBoundByte who g va pa v).Inv :=
  inv_of_mem (by simp [storeBoundByte, modPart]) h

theorem writePart_inv {va pa : Nat} {bs : List Byte} (h : s.Inv) : (s.writePart va pa bs).Inv := by
  unfold writePart
  split
  · exact foldl_inv (fun _ _ => storeBoundByte_inv) h
  · exact store_inv h

theorem writePieces_inv {va pa fuel : Nat} {bs : List Byte} (h : s.Inv) : (s.writePieces va pa bs fuel).Inv := by
  induction fuel generalizing s va pa bs with
  | zero => exact h
  | succ fuel ih =>
    unfold writePieces
    dsimp only
    split
    · exact writePart_inv h
    · exact ih (writePart_inv h)

theorem writeBytes_inv {va pa : Nat} {bs : List Byte} (h : s.Inv) : (s.writeBytes va pa bs).Inv := by
  unfold writeBytes
  split
  · exact store_inv h
  · exact writePieces_inv h

/-- Every outcome of a location whose table entry, if any, has been written to t. -/
theorem located_inv {acc : Acc} {t : State} {pa n : Nat} {l : List Nat} (h : t.Inv) :
    (if !t.physOk pa n then ((.error acc.access : Located), t.sample l)
     else if acc = .store && t.inTable pa n then (.error 7, t.sample l) else (.ok pa, t.sample (l ++ [pa]))).2.Inv := by
  split
  · exact sample_inv h
  · split <;> exact sample_inv h

theorem locate_inv {acc : Acc} {x : XMode} {va : Word} {n : Nat} (h : s.Inv) : (locate acc x va n s).2.Inv := by
  unfold locate
  split
  · exact sample_inv h
  · exact sample_inv h
  · rename_i upd _
    cases upd with
    | none => exact located_inv h
    | some u => exact located_inv (engineWrite_inv h)

theorem fillGranule_inv {t : Team} {w : Window} {i : Nat} {acc : Acc} (h : s.Inv) : (fillGranule t w i acc s).2.Inv := by
  have hl := locate_inv (acc := acc) (x := xmodeOf s.hart acc) (va := w.base + BitVec.ofNat 64 (128 * i)) (n := 128) h
  unfold fillGranule
  split <;> rename_i heq <;> rw [heq] at hl
  · exact hl
  · dsimp only
    split
    · dsimp only
      split
      · exact hl
      · exact inv_of_mem (by rw [modGranule_mem, fillBytes_mem]) hl
    · exact inv_of_mem (by rw [modWindows_mem, fillBytes_mem]) hl

theorem writeMend_inv {core : Nat} {m : Mend} (h : s.Inv) : (s.writeMend core m).2.Inv :=
  pushWf_inv (s := (s.newTag .mend m.ctx 15 m.va m.pc).2) h

theorem fileMend_inv {core : Nat} {m : Mend} (h : s.Inv) : (s.fileMend core m).2.Inv := by
  unfold fileMend
  split
  · exact writeMend_inv h
  · exact inv_of_mem (State.modPart_mem _ _) h

end State

/-! ## Computations that keep the canonical form of memory, however they end -/

/-- The state in which a computation ends. -/
def endOf {α : Type} (r : EStateM.Result Exc State α) : State := match r with | .ok _ t => t | .error _ t => t

/-- The computation keeps the canonical form of memory. -/
def Keeps {α : Type} (m : M α) : Prop := ∀ s : State, s.Inv → (endOf (m s)).Inv

section Keeps

variable {α β : Type}

theorem keeps_pure (a : α) : Keeps (pure a : M α) := fun _ h => h
theorem keeps_get : Keeps (get : M State) := fun _ h => h
theorem keeps_throw (e : Exc) : Keeps (throw e : M α) := fun _ h => h
theorem keeps_modify {f : State → State} (h : ∀ s, s.Inv → (f s).Inv) : Keeps (modify f : M Unit) := fun s hs => h s hs

theorem keeps_bind {m : M α} {f : α → M β} (hm : Keeps m) (hf : ∀ a, Keeps (f a)) : Keeps (m >>= f) := by
  intro s hs
  have h := hm s hs
  simp only [bind, EStateM.bind]
  cases hr : m s with
  | ok a t => rw [hr] at h; exact hf a t h
  | error e t => rw [hr] at h; exact h

theorem keeps_ite {p : Prop} [Decidable p] {a b : M α} (ha : Keeps a) (hb : Keeps b) : Keeps (if p then a else b) := by
  split <;> assumption

theorem keeps_effectM {f : State → State} {c : Option (BitVec 16)} (h : ∀ s, s.Inv → (f s).Inv) : Keeps (effectM f c) :=
  keeps_modify fun s hs => State.retireTo_inv (h s hs)

theorem keeps_waitDrain : Keeps waitDrain := by
  intro s hs
  unfold waitDrain
  split <;> exact hs

theorem keeps_orderingPoint : Keeps orderingPoint := by
  intro s hs
  unfold orderingPoint
  split
  · split <;> exact hs
  · exact hs

end Keeps

/-- The outcome of a meaning keeps the canonical form of memory when its computation does. -/
theorem finish_inv {w : BitVec 32} {m : M Unit} {s t : State} (hm : Keeps m) (hs : s.Inv) (h : finish w m s = .next t) : t.Inv := by
  have he := hm s hs
  unfold finish at h
  split at h <;> rename_i hr <;> rw [hr] at he
  · cases h; exact he
  · cases h; exact he
  · cases h; exact State.setWait_inv he
  · cases h; exact State.inv_of_mem (State.stallWait_mem _ _) he
  · cases h; exact State.parkFault_inv he
  · cases h
  · cases h; exact State.takeTrap_inv he
  · cases h; exact State.takeTrap_inv he
  · cases h; exact State.takeIllegal_inv he

theorem plainReg_inv {g : State → State} {s t : State} (hg : (g s).mem = s.mem) (hs : s.Inv) (h : plainReg g s = .next t) : t.Inv := by
  cases h
  exact State.retireTo_inv (State.inv_of_mem hg hs)

/-! ## The accesses of a thread keep the canonical form of memory -/

section Accesses

variable {va : Word} {n : Nat} {bs : List Byte} {f : Nat → Nat} {s : State}

theorem keeps_enqueueMend (op : MendOp) : Keeps (enqueueMend va op bs) := by
  intro s hs
  unfold enqueueMend
  split
  · split
    · split
      · exact hs
      · rename_i ctx c _ _ _ _ _ _
        have h : ∀ m : Mend, (if s.myMends.isEmpty then s.fileMend c.core m else (m, s)).2.Inv := by
          intro m
          split
          · exact State.fileMend_inv hs
          · exact hs
        exact State.inv_of_mem (State.modW_mem _ _ _) (h _)
    · exact hs
  · exact hs

theorem keeps_loadMemory : Keeps (loadMemory va n) := by
  intro s hs
  have hl := State.locate_inv (acc := .load) (x := xmodeOf s.hart .load) (va := va) (n := n) hs
  unfold loadMemory
  split
  · repeat' split
    all_goals exact hs
  · split
    · rename_i t w _
      have hg := State.fillGranule_inv (t := t) (w := w) (i := (va.toNat - w.base.toNat) / 128) (acc := .load) hs
      dsimp only
      split <;> rename_i heq <;> rw [heq] at hg
      · exact hg
      · split
        · exact hg
        · split <;> exact hg
    · split <;> rename_i heq <;> rw [heq] at hl
      · exact hl
      · rename_i pa s1
        have hb : (s1.readBytes va.toNat pa n).2.Inv := State.inv_of_mem (State.readBytes_mem _ _ _ _) hl
        generalize s1.readBytes va.toNat pa n = r at hb
        split
        · exact hl
        · dsimp only
          split <;> exact hb

theorem keeps_loadBytes : Keeps (loadBytes va n) := by
  intro s hs
  unfold loadBytes
  split
  · split <;> exact hs
  · exact keeps_loadMemory s hs

theorem keeps_loadScalar : Keeps (loadScalar va n) := by
  unfold loadScalar
  have h := keeps_bind (keeps_loadBytes (va := va) (n := n)) fun bs => keeps_pure (BitVec.ofNat 64 (leNat bs))
  exact keeps_ite (keeps_bind (keeps_throw _) fun _ => h) h

theorem tryStore_inv (hs : s.Inv) : (tryStore va bs s).2.Inv := by
  have hl := State.locate_inv (acc := .store) (x := xmodeOf s.hart .store) (va := va) (n := bs.length) hs
  unfold tryStore
  split
  · split
    · exact hs
    · split
      · exact State.inv_of_mem (State.sramWrite_mem _ _ _ _ _) hs
      · exact hs
  · split
    · rename_i t w _
      have hg := State.fillGranule_inv (t := t) (w := w) (i := (va.toNat - w.base.toNat) / 128) (acc := .store) hs
      dsimp only
      split <;> rename_i heq <;> rw [heq] at hg
      · exact hg
      · exact State.inv_of_mem (State.stashWrite_mem _ _ _ _ _ _) hg
    · split <;> rename_i heq <;> rw [heq] at hl
      · exact hl
      · exact State.writeBytes_inv hl

/-- A mendable access keeps the form when the access it tries does. -/
theorem keeps_mendable {op : MendOp} {act : State → Option Exc × State} (ha : ∀ t, t.Inv → (act t).2.Inv) :
    Keeps (mendable va op bs act) := by
  intro s hs
  have ht := ha s hs
  unfold mendable
  dsimp only
  split
  · split
    · exact hs
    · exact keeps_enqueueMend op s hs
  · split
    · exact ht
    · exact keeps_enqueueMend op _ ht
    · exact ht
    · exact ht

theorem keeps_storeBytes : Keeps (storeBytes va bs) := keeps_mendable fun _ => tryStore_inv

theorem keeps_storeScalar {v : Word} : Keeps (storeScalar va n v) := by
  unfold storeScalar
  exact keeps_ite (keeps_bind (keeps_throw _) fun _ => keeps_storeBytes) keeps_storeBytes

theorem tryAtomic_inv (hs : s.Inv) : (tryAtomic va n f s).2.Inv := by
  have hl := State.locate_inv (acc := .store) (x := xmodeOf s.hart .store) (va := va) (n := n) hs
  unfold tryAtomic
  split
  · split <;> exact hs
  · split <;> rename_i heq <;> rw [heq] at hl
    · exact hl
    · dsimp only
      split
      · exact hl
      · exact State.noteAtomic_inv (State.store_inv (State.bringHome_inv hl))

theorem keeps_atomicDest : Keeps (atomicDest va n f) := by
  intro s hs
  have ht := tryAtomic_inv (va := va) (n := n) (f := f) hs
  unfold atomicDest
  split
  · exact hs
  · split <;> rename_i heq <;> rw [heq] at ht <;> exact ht

theorem keeps_atomicNoDest {op : MendOp} {v : Nat} : Keeps (atomicNoDest va n f op v) := by
  refine keeps_mendable fun s hs => ?_
  have ht := tryAtomic_inv (va := va) (n := n) (f := f) hs
  split <;> rename_i heq <;> rw [heq] at ht <;> exact ht

theorem keeps_objAddr {writes : Bool} {words : List Nat} : Keeps (objAddr va writes words) := by
  intro s hs
  unfold objAddr
  split
  · exact hs
  · split
    · split <;> exact hs
    · split
      · exact hs
      · dsimp only
        have hl := State.locate_inv (acc := if writes then .store else .load) (x := xmodeOf s.hart (if writes then .store else .load))
          (va := va) (n := 32) hs
        split <;> rename_i heq <;> rw [heq] at hl
        · exact hl
        · split <;> exact hl

theorem keeps_loadRecord {align cause : Nat} : Keeps (loadRecord va n align cause) := by
  unfold loadRecord
  exact keeps_ite (keeps_bind (keeps_throw _) fun _ => keeps_loadBytes) keeps_loadBytes

end Accesses

end Sys2Proof.Machine
end

