-- ==== Sys2Proof/Machine/Object.lean ====
section
/-! DEFINITION. Sys2Proof/Machine/Object.lean: the header of a Fypotin code object, the load rule and what a loader gives a thread that
it starts at an object's entry (R343 to R349). The loader is software: it writes these values through a context image (R305). -/
namespace Sys2Proof.Machine

/-- The header of an object (R343). -/
structure Header where
  level : Nat
  floorcls : Nat
  used : BitVec 56
  wprof : BitVec 16
  pack : Nat
  setw : Nat
  fmode : BitVec 7
  tiles : Nat
  bars : Nat
  stash : Nat
  emul : BitVec 34
  deriving DecidableEq, Repr

/-- The header that 64 bytes hold; none where MAGIC, FORMAT, or a reserved byte or bit is not as R343 gives it (R344). -/
def headerOf (bs : List Byte) : Option Header :=
  if recNat bs 0 4 = 0x4F505946 ∧ recNat bs 4 2 = 1 ∧ recNat bs 15 1 = 0 ∧ recNat bs 20 1 / 128 = 0 ∧
      recNat bs 23 1 = 0 ∧ recNat bs 32 8 / 2 ^ 34 = 0 ∧ recNat bs 40 24 = 0 then
    some
      { level := recNat bs 6 1, floorcls := recNat bs 7 1, used := BitVec.ofNat 56 (recNat bs 8 7), wprof := BitVec.ofNat 16 (recNat bs 16 2)
        pack := recNat bs 18 1, setw := recNat bs 19 1, fmode := BitVec.ofNat 7 (recNat bs 20 1), tiles := recNat bs 21 1
        bars := recNat bs 22 1, stash := recNat bs 24 8, emul := BitVec.ofNat 34 (recNat bs 32 8) }
  else none

/-- The resource floor (R348). -/
def Header.withinFloor (h : Header) : Bool :=
  decide (profD h.wprof ≤ 4 ∧ profW h.wprof ≤ 32 ∧ profB h.wprof ≤ 8 ∧ h.stash ≤ 0x100000 ∧ h.bars ≤ 16 ∧ h.tiles ≤ 2 ∧ h.pack ≤ 2)

/-- A header is well formed (R344). -/
def Header.wellFormed (h : Header) : Bool :=
  decide (profD h.wprof ≤ 8 ∧ profW h.wprof ≤ 64 ∧ profB h.wprof ≤ 16) && decide (h.setw = 0 ∨ h.setw = 32 ∨ h.setw = 64) &&
  decide ((h.fmode.extractLsb' 4 3).toNat ≤ 5) && decide (h.floorcls ≤ 1) && (h.floorcls != 0 || h.withinFloor)

/-- The load rule, on a device of a class and with a zfeat (R345). LEVEL and EMUL take no part. -/
def Header.loads (h : Header) (feat : BitVec 56) (ax9 : Bool) : Bool :=
  h.wellFormed && h.used &&& ~~~feat == 0 && (h.floorcls == 0 || ax9)

/-- The load rule of the AX960, a device of class AX9 (R345). -/
def Header.loadsHere (h : Header) : Bool := h.loads (zfeat.setWidth 56) true

/-- The user state with which a loader starts a thread at an object's entry: WPROF, FMODE, and the pack class that SETW names (R347, R349). -/
def Header.start (h : Header) (entry : Word) (u : User) : User :=
  { u with pc := entry, zwprof := h.wprof, zfmode := h.fmode, zpack := if h.setw = 32 then 2 else if h.setw = 64 then 3 else u.zpack }

/-- The header that the linker makes of two; none where they must agree and do not (R343). -/
def Header.link (a b : Header) : Option Header :=
  if a.setw = b.setw ∧ a.fmode = b.fmode then
    some
      { level := max a.level b.level, floorcls := max a.floorcls b.floorcls, used := a.used ||| b.used
        wprof := BitVec.ofNat 16
          (max (profD a.wprof) (profD b.wprof) + 16 * max (profW a.wprof) (profW b.wprof) + 2048 * max (profB a.wprof) (profB b.wprof))
        pack := max a.pack b.pack, setw := a.setw, fmode := a.fmode, tiles := max a.tiles b.tiles, bars := max a.bars b.bars
        stash := max a.stash b.stash, emul := a.emul ||| b.emul }
  else none

end Sys2Proof.Machine
end

