-- ==== Sys2Proof/Tests/Slice0.lean ====
section
/-! SUPPORT. Sys2Proof/Tests/Slice0.lean: words of the encoding tables and what they decode to, an ill-formed term for each check of
WellFormed, one small step of many instructions with the values of the spec, and for each statement a state and operands that meet its
hypotheses. -/

namespace Sys2Proof.Tests

set_option Elab.async false

open Sys2Proof Sys2Proof.Machine
open Host (Outcome)

/-! ## Decoding -/

/-- Each word of the list decodes to the instruction beside it. -/
def Reads (l : List (Nat × Instr)) : Prop := ∀ p ∈ l, decodeTableWord 32 p.1 = some p.2

theorem reads_of (l : List (Nat × Instr)) (h : (l.all fun p => decodeTableWord 32 p.1 == some p.2) = true) : Reads l :=
  fun p hp => by simpa using List.all_eq_true.mp h p hp

theorem test_decode_threads : Reads [
  (0x0000000B, .migrW),
  (0x0200000B, .migrL),
  (0x0400000B, .reform),
  (0x0600000B, .gleave),
  (0x0800000B, .gyield),
  (0x0A0B048B, .tjoin 9 22),
  (0x0C00048B, .tleave 9),
  (0x00D0100B, .tbarArr 13),
  (0x40D0100B, .tbarWait 13),
  (0x80D0100B, .tbarSync 13)] := reads_of _ (by decide +kernel)

theorem test_decode_lanes_1 : Reads [
  (0x01E3A88B, .shfl 17 7 30),
  (0x03E3A88B, .shflXor 17 7 30),
  (0x05E3A88B, .shflUp 17 7 30),
  (0x07E3A88B, .shflDn 17 7 30),
  (0x0809A30B, .gsumI 6 19),
  (0x0A09A30B, .gminI 6 19),
  (0x0C09A30B, .gmaxI 6 19),
  (0x0E09A30B, .gminu 6 19),
  (0x1009A30B, .gmaxu 6 19),
  (0x1209A30B, .gand 6 19),
  (0x1409A30B, .gor 6 19),
  (0x1609A30B, .gxor 6 19),
  (0x1809A30B, .gscanI 6 19),
  (0x1A09A30B, .ballot 6 19),
  (0x1C09A30B, .gcount 6 19),
  (0x01E3B88B, .shflF 17 7 30),
  (0x0209B30B, .gsumS 6 19),
  (0x0409B30B, .gsumD 6 19),
  (0x0609B30B, .gminS 6 19),
  (0x0809B30B, .gmaxS 6 19)] := reads_of _ (by decide +kernel)

theorem test_decode_lanes_2 : Reads [
  (0x0A09B30B, .gminD 6 19),
  (0x0C09B30B, .gmaxD 6 19),
  (0x0E09B30B, .gscanS 6 19)] := reads_of _ (by decide +kernel)

theorem test_decode_predicates_1 : Reads [
  (0x01E3C58B, .pcmpEq 11 7 30),
  (0x03E3C58B, .pcmpNe 11 7 30),
  (0x05E3C58B, .pcmpLt 11 7 30),
  (0x07E3C58B, .pcmpGe 11 7 30),
  (0x09E3C58B, .pcmpLtu 11 7 30),
  (0x0BE3C58B, .pcmpGeu 11 7 30),
  (0x01E3D58B, .pfeqS 11 7 30),
  (0x03E3D58B, .pfltS 11 7 30),
  (0x05E3D58B, .pfleS 11 7 30),
  (0x07E3D58B, .pfunS 11 7 30),
  (0x09E3D58B, .pfeqD 11 7 30),
  (0x0BE3D58B, .pfltD 11 7 30),
  (0x0DE3D58B, .pfleD 11 7 30),
  (0x0FE3D58B, .pfunD 11 7 30),
  (0x10A1D58B, .pand 11 3 10),
  (0x12A1D58B, .por 11 3 10),
  (0x14A1D58B, .pxor 11 3 10),
  (0x16A1D58B, .pandn 11 3 10),
  (0x1805518B, .pnot 3 10),
  (0x1A005A8B, .pmvXp 21)] := reads_of _ (by decide +kernel)

theorem test_decode_predicates_2 : Reads [
  (0x1C0AD00B, .pmvPx 21),
  (0x1E0AD50B, .pany 10 21),
  (0x200AD50B, .pall 10 21),
  (0x009AE08B, .jtab 1 21 9)] := reads_of _ (by decide +kernel)

theorem test_decode_buffers_1 : Reads [
  (0x00EA02AB, .bldB 5 20 14),
  (0x02EA02AB, .bldH 5 20 14),
  (0x04EA02AB, .bldW 5 20 14),
  (0x06EA02AB, .bldD 5 20 14),
  (0x08EA02AB, .bldBu 5 20 14),
  (0x0AEA02AB, .bldHu 5 20 14),
  (0x0CEA02AB, .bldWu 5 20 14),
  (0x0EEA02AB, .bldFw 5 20 14),
  (0x10EA02AB, .bldFd 5 20 14),
  (0x12EA02AB, .bldFh 5 20 14),
  (0x01BA172B, .bstB 14 20 27),
  (0x03BA172B, .bstH 14 20 27),
  (0x05BA172B, .bstW 14 20 27),
  (0x07BA172B, .bstD 14 20 27),
  (0x09BA172B, .bstFw 14 20 27),
  (0x0BBA172B, .bstFd 14 20 27),
  (0x0DBA172B, .bstFh 14 20 27),
  (0x000A672B, .bset 14 20),
  (0x020A672B, .bget 14 20),
  (0x05BA672B, .bamoAdd 14 20 27)] := reads_of _ (by decide +kernel)

theorem test_decode_buffers_2 : Reads [
  (0x07BA672B, .bamoMin 14 20 27),
  (0x09BA672B, .bamoMax 14 20 27),
  (0x0BBA672B, .bamoAddf 14 20 27)] := reads_of _ (by decide +kernel)

theorem test_decode_array : Reads [
  (0x0014AA2B, .wldDirect 20 41),
  (0x00C4AA2B, .wldIndexed 20 2 9),
  (0x0214AA2B, .wstDirect 20 41),
  (0x02C4AA2B, .wstIndexed 20 2 9),
  (0x0414AA2B, .wldfDirect 20 41),
  (0x04C4AA2B, .wldfIndexed 20 2 9),
  (0x0614AA2B, .wstfDirect 20 41),
  (0x06C4AA2B, .wstfIndexed 20 2 9),
  (0x09BA21AB, .kset 3 20 27),
  (0x0A23A4AB, .wmv 41 7),
  (0x0A13A4AB, .wmv 9 39),
  (0x0C142A2B, .wmvw 20 40)] := reads_of _ (by decide +kernel)

theorem test_decode_sync : Reads [
  (0x01BA32AB, .sobind 5 20 27),
  (0x03BA32AB, .sounbind 5 20 27),
  (0x040A32AB, .acq 5 20),
  (0x060A302B, .rel 20),
  (0x080A302B, .mwatch 20),
  (0x0A00302B, .mwait),
  (0x0DBA302B, .barinit 20 27),
  (0x0FBA32AB, .bararr 5 20 27),
  (0x11BA302B, .barwait 20 27),
  (0x13BA32AB, .bartest 5 20 27)] := reads_of _ (by decide +kernel)

theorem test_decode_copies : Reads [
  (0x000A42AB, .xcopy 5 20),
  (0x0200402B, .xcfence),
  (0x040A42AB, .xcwait 5 20),
  (0x060A42AB, .xcqry 5 20),
  (0x000A52AB, .smap 5 20),
  (0x020A52AB, .sunmap 5 20),
  (0x040A502B, .sflush 20)] := reads_of _ (by decide +kernel)

theorem test_decode_fuse : Reads [
  (0x59E3D8DB, .fuseS 17 7 30 11 5),
  (0x5BE3E8DB, .fuseS 17 7 30 11 14),
  (0x5DE3D8DB, .fuseD 17 7 30 11 5),
  (0x5FE3F8DB, .fuseD 17 7 30 11 15)] := reads_of _ (by decide +kernel)

theorem test_decode_press : Reads [
  (0x000A02FB, .obres 5 20),
  (0x020A007B, .obrel 20),
  (0x0400007B, .mxfence),
  (0x060A02FB, .mxldw 5 20),
  (0x0800007B, .mxswap),
  (0x0A0A02FB, .mxstrm 5 20),
  (0x0C0A02FB, .mxsqd 5 20),
  (0x0E0A02FB, .mxtopk 5 20),
  (0x100A02FB, .mxwait 5 20),
  (0x13BA02FB, .acrd 5 20 27),
  (0x15BA02FB, .acrdf 5 20 27),
  (0x160A007B, .aczero 20),
  (0x180A02FB, .acwm 5 20),
  (0x1A0A02FB, .mxstat 5 20),
  (0x1C0A007B, .mxsave 20),
  (0x1E0A007B, .mxrest 20)] := reads_of _ (by decide +kernel)

theorem test_decode_conversions : Reads [
  (0x000A12FB, .ncvtE4 5 20),
  (0x020A12FB, .ncvtE5 5 20),
  (0x040A12FB, .ncvtE5s 5 20),
  (0x060A12FB, .ncvtBf 5 20),
  (0x080A12FB, .ncvtHf 5 20),
  (0x0A0A12FB, .ncvtI8 5 20),
  (0x0C0A12FB, .ncvtN8 5 20),
  (0x0E0A12FB, .wcvtE4 5 20),
  (0x100A12FB, .wcvtE5 5 20),
  (0x120A12FB, .wcvtBf 5 20),
  (0x140A12FB, .wcvtHf 5 20),
  (0x160A12FB, .wcvtI8 5 20),
  (0x180A12FB, .wcvtN8 5 20),
  (0x1BBA12FB, .fsclS 5 20 27)] := reads_of _ (by decide +kernel)

theorem test_decode_distributions_1 : Reads [
  (0x0061A2FB, .dadd 5 3 6),
  (0x0261A2FB, .dsub 5 3 6),
  (0x0461A2FB, .dmul 5 3 6),
  (0x0661A2FB, .ddiv 5 3 6),
  (0x0861A2FB, .dmin 5 3 6),
  (0x0A61A2FB, .dmax 5 3 6),
  (0x0C61A2FB, .dmix 5 3 6),
  (0x0FB1A2FB, .daff 5 3 27),
  (0x1061A2FB, .dmap 5 3 6),
  (0x1211A2FB, .dform 5 3 1),
  (0x1401A2FB, .dmv 5 3),
  (0x000A32FB, .dpt 5 20),
  (0x02DA32FB, .duni 5 20 13),
  (0x040A32FB, .dsamp 5 20),
  (0x060A32FB, .dld 5 20),
  (0x080A32FB, .dst 5 20),
  (0x0A41BA7B, .dmom 20 3 4),
  (0x0DB1BA7B, .dqnt 20 3 27),
  (0x0FB1BA7B, .dcdf 20 3 27),
  (0x1001BA7B, .dtag 20 3)] := reads_of _ (by decide +kernel)

theorem test_decode_distributions_2 : Reads [
  (0x120A32FB, .dtags 5 20)] := reads_of _ (by decide +kernel)

theorem test_decode_tasks : Reads [
  (0x000A42FB, .tspawn 5 20),
  (0x020042FB, .ttake 5),
  (0x0400407B, .tend),
  (0x060A407B, .tdec 20),
  (0x0800407B, .tyield),
  (0x0A0A42FB, .tbudg 5 20),
  (0x0C0A42FB, .tcancel 5 20),
  (0x0E0A42FB, .tstat 5 20),
  (0x000A507B, .vpub 20),
  (0x020A507B, .vfin 20),
  (0x040A52FB, .vacq 5 20),
  (0x060A52FB, .vchk 5 20),
  (0x080A52FB, .vsub 5 20),
  (0x0A0A52FB, .vsettle 5 20)] := reads_of _ (by decide +kernel)

theorem test_decode_supervisor : Reads [
  (0x01BA607B, .zresume 20 27),
  (0x020A62FB, .zpark 5 20),
  (0x05BA607B, .zsignal 20 27),
  (0x060A62FB, .zfqpop 5 20)] := reads_of _ (by decide +kernel)

theorem test_decode_base_integer_1 : Reads [
  (0xABCDE2B7, .base none (.lui 5 0xABCDE)),
  (0xABCDE297, .base none (.auipc 5 0xABCDE)),
  (0xAADAA0EF, .base none (.jal 1 0xD5556)),
  (0xFFB380E7, .base none (.jalr 1 7 0xFFB)),
  (0xAA9386E3, .base none (.branch .beq 7 9 0xD56)),
  (0xAA9396E3, .base none (.branch .bne 7 9 0xD56)),
  (0xAA93C6E3, .base none (.branch .blt 7 9 0xD56)),
  (0xAA93D6E3, .base none (.branch .bge 7 9 0xD56)),
  (0xAA93E6E3, .base none (.branch .bltu 7 9 0xD56)),
  (0xAA93F6E3, .base none (.branch .bgeu 7 9 0xD56)),
  (0xFF138283, .base none (.load .lb 5 7 0xFF1)),
  (0xFF139283, .base none (.load .lh 5 7 0xFF1)),
  (0xFF13A283, .base none (.load .lw 5 7 0xFF1)),
  (0xFF13B283, .base none (.load .ld 5 7 0xFF1)),
  (0xFF13C283, .base none (.load .lbu 5 7 0xFF1)),
  (0xFF13D283, .base none (.load .lhu 5 7 0xFF1)),
  (0xFF13E283, .base none (.load .lwu 5 7 0xFF1)),
  (0xFE9385A3, .base none (.store .sb 7 9 0xFEB)),
  (0xFE9395A3, .base none (.store .sh 7 9 0xFEB)),
  (0xFE93A5A3, .base none (.store .sw 7 9 0xFEB))] := reads_of _ (by decide +kernel)

theorem test_decode_base_integer_2 : Reads [
  (0xFE93B5A3, .base none (.store .sd 7 9 0xFEB)),
  (0xFF138293, .base none (.imm .addi 5 7 0xFF1)),
  (0xFF13A293, .base none (.imm .slti 5 7 0xFF1)),
  (0xFF13B293, .base none (.imm .sltiu 5 7 0xFF1)),
  (0xFF13C293, .base none (.imm .xori 5 7 0xFF1)),
  (0xFF13E293, .base none (.imm .ori 5 7 0xFF1)),
  (0xFF13F293, .base none (.imm .andi 5 7 0xFF1)),
  (0xFF13829B, .base none (.imm .addiw 5 7 0xFF1)),
  (0x02939293, .base none (.shift .slli 5 7 41)),
  (0x0293D293, .base none (.shift .srli 5 7 41)),
  (0x4293D293, .base none (.shift .srai 5 7 41)),
  (0x6293D293, .base none (.shift .rori 5 7 41)),
  (0x4A939293, .base none (.shift .bclri 5 7 41)),
  (0x4A93D293, .base none (.shift .bexti 5 7 41)),
  (0x6A939293, .base none (.shift .binvi 5 7 41)),
  (0x2A939293, .base none (.shift .bseti 5 7 41)),
  (0x0A93929B, .base none (.shift .slliUw 5 7 41)),
  (0x0093929B, .base none (.shiftW .slliw 5 7 9)),
  (0x0093D29B, .base none (.shiftW .srliw 5 7 9)),
  (0x4093D29B, .base none (.shiftW .sraiw 5 7 9))] := reads_of _ (by decide +kernel)

theorem test_decode_base_integer_3 : Reads [
  (0x6093D29B, .base none (.shiftW .roriw 5 7 9))] := reads_of _ (by decide +kernel)

theorem test_decode_base_unary : Reads [
  (0x60039293, .base none (.unary .clz 5 7)),
  (0x60139293, .base none (.unary .ctz 5 7)),
  (0x60239293, .base none (.unary .cpop 5 7)),
  (0x60439293, .base none (.unary .sextB 5 7)),
  (0x60539293, .base none (.unary .sextH 5 7)),
  (0x6003929B, .base none (.unary .clzw 5 7)),
  (0x6013929B, .base none (.unary .ctzw 5 7)),
  (0x6023929B, .base none (.unary .cpopw 5 7)),
  (0x0803C2BB, .base none (.unary .zextH 5 7)),
  (0x6B83D293, .base none (.unary .rev8 5 7)),
  (0x2873D293, .base none (.unary .orcB 5 7))] := reads_of _ (by decide +kernel)

theorem test_decode_base_register_1 : Reads [
  (0x009382B3, .base none (.alu .add 5 7 9)),
  (0x409382B3, .base none (.alu .sub 5 7 9)),
  (0x009392B3, .base none (.alu .sll 5 7 9)),
  (0x0093A2B3, .base none (.alu .slt 5 7 9)),
  (0x0093B2B3, .base none (.alu .sltu 5 7 9)),
  (0x0093C2B3, .base none (.alu .xor 5 7 9)),
  (0x0093D2B3, .base none (.alu .srl 5 7 9)),
  (0x4093D2B3, .base none (.alu .sra 5 7 9)),
  (0x0093E2B3, .base none (.alu .or 5 7 9)),
  (0x0093F2B3, .base none (.alu .and 5 7 9)),
  (0x029382B3, .base none (.alu .mul 5 7 9)),
  (0x029392B3, .base none (.alu .mulh 5 7 9)),
  (0x0293A2B3, .base none (.alu .mulhsu 5 7 9)),
  (0x0293B2B3, .base none (.alu .mulhu 5 7 9)),
  (0x0293C2B3, .base none (.alu .div 5 7 9)),
  (0x0293D2B3, .base none (.alu .divu 5 7 9)),
  (0x0293E2B3, .base none (.alu .rem 5 7 9)),
  (0x0293F2B3, .base none (.alu .remu 5 7 9)),
  (0x2093A2B3, .base none (.alu .sh1add 5 7 9)),
  (0x2093C2B3, .base none (.alu .sh2add 5 7 9))] := reads_of _ (by decide +kernel)

theorem test_decode_base_register_2 : Reads [
  (0x2093E2B3, .base none (.alu .sh3add 5 7 9)),
  (0x4093F2B3, .base none (.alu .andn 5 7 9)),
  (0x4093E2B3, .base none (.alu .orn 5 7 9)),
  (0x4093C2B3, .base none (.alu .xnor 5 7 9)),
  (0x0A93E2B3, .base none (.alu .max 5 7 9)),
  (0x0A93F2B3, .base none (.alu .maxu 5 7 9)),
  (0x0A93C2B3, .base none (.alu .min 5 7 9)),
  (0x0A93D2B3, .base none (.alu .minu 5 7 9)),
  (0x609392B3, .base none (.alu .rol 5 7 9)),
  (0x6093D2B3, .base none (.alu .ror 5 7 9)),
  (0x489392B3, .base none (.alu .bclr 5 7 9)),
  (0x4893D2B3, .base none (.alu .bext 5 7 9)),
  (0x689392B3, .base none (.alu .binv 5 7 9)),
  (0x289392B3, .base none (.alu .bset 5 7 9)),
  (0x0E93D2B3, .base none (.alu .czeroEqz 5 7 9)),
  (0x0E93F2B3, .base none (.alu .czeroNez 5 7 9)),
  (0x009382BB, .base none (.alu .addw 5 7 9)),
  (0x409382BB, .base none (.alu .subw 5 7 9)),
  (0x009392BB, .base none (.alu .sllw 5 7 9)),
  (0x0093D2BB, .base none (.alu .srlw 5 7 9))] := reads_of _ (by decide +kernel)

theorem test_decode_base_register_3 : Reads [
  (0x4093D2BB, .base none (.alu .sraw 5 7 9)),
  (0x029382BB, .base none (.alu .mulw 5 7 9)),
  (0x0293C2BB, .base none (.alu .divw 5 7 9)),
  (0x0293D2BB, .base none (.alu .divuw 5 7 9)),
  (0x0293E2BB, .base none (.alu .remw 5 7 9)),
  (0x0293F2BB, .base none (.alu .remuw 5 7 9)),
  (0x089382BB, .base none (.alu .addUw 5 7 9)),
  (0x2093A2BB, .base none (.alu .sh1addUw 5 7 9)),
  (0x2093C2BB, .base none (.alu .sh2addUw 5 7 9)),
  (0x2093E2BB, .base none (.alu .sh3addUw 5 7 9)),
  (0x609392BB, .base none (.alu .rolw 5 7 9)),
  (0x6093D2BB, .base none (.alu .rorw 5 7 9))] := reads_of _ (by decide +kernel)

theorem test_decode_base_system : Reads [
  (0x8330000F, .base none .fenceTso),
  (0x0FF0000F, .base none (.fence 15 15)),
  (0x0000100F, .base none .fenceI),
  (0x00000073, .base none (.ecall)),
  (0x00100073, .base none (.ebreak)),
  (0x10200073, .base none (.sret)),
  (0x30200073, .base none (.mret)),
  (0x10500073, .base none (.wfi)),
  (0x12938073, .base none (.sfenceVma 7 9)),
  (0x801392F3, .base none (.csr .rw 5 7 0x801)),
  (0x8013D2F3, .base none (.csrImm .rw 5 7 0x801)),
  (0x8013A2F3, .base none (.csr .rs 5 7 0x801)),
  (0x8013E2F3, .base none (.csrImm .rs 5 7 0x801)),
  (0x8013B2F3, .base none (.csr .rc 5 7 0x801)),
  (0x8013F2F3, .base none (.csrImm .rc 5 7 0x801))] := reads_of _ (by decide +kernel)

theorem test_decode_base_atomic_1 : Reads [
  (0x1403A2AF, .base none (.lr false true false 5 7)),
  (0x1A93A2AF, .base none (.sc false false true 5 7 9)),
  (0x0C93A2AF, .base none (.amo .swap false true false 5 7 9)),
  (0x0493A2AF, .base none (.amo .add false true false 5 7 9)),
  (0x2493A2AF, .base none (.amo .xor false true false 5 7 9)),
  (0x6493A2AF, .base none (.amo .and false true false 5 7 9)),
  (0x4493A2AF, .base none (.amo .or false true false 5 7 9)),
  (0x8493A2AF, .base none (.amo .min false true false 5 7 9)),
  (0xA493A2AF, .base none (.amo .max false true false 5 7 9)),
  (0xC493A2AF, .base none (.amo .minu false true false 5 7 9)),
  (0xE493A2AF, .base none (.amo .maxu false true false 5 7 9)),
  (0x1403B2AF, .base none (.lr true true false 5 7)),
  (0x1A93B2AF, .base none (.sc true false true 5 7 9)),
  (0x0C93B2AF, .base none (.amo .swap true true false 5 7 9)),
  (0x0493B2AF, .base none (.amo .add true true false 5 7 9)),
  (0x2493B2AF, .base none (.amo .xor true true false 5 7 9)),
  (0x6493B2AF, .base none (.amo .and true true false 5 7 9)),
  (0x4493B2AF, .base none (.amo .or true true false 5 7 9)),
  (0x8493B2AF, .base none (.amo .min true true false 5 7 9)),
  (0xA493B2AF, .base none (.amo .max true true false 5 7 9))] := reads_of _ (by decide +kernel)

theorem test_decode_base_atomic_2 : Reads [
  (0xC493B2AF, .base none (.amo .minu true true false 5 7 9)),
  (0xE493B2AF, .base none (.amo .maxu true true false 5 7 9))] := reads_of _ (by decide +kernel)

theorem test_decode_base_float_1 : Reads [
  (0xFF13A287, .base none (.fload .s 5 7 0xFF1)),
  (0xFE93A5A7, .base none (.fstore .s 7 9 0xFEB)),
  (0x5893C2C3, .base none (.fma .madd .s 5 7 9 11 4)),
  (0x5893C2C7, .base none (.fma .msub .s 5 7 9 11 4)),
  (0x5893C2CB, .base none (.fma .nmsub .s 5 7 9 11 4)),
  (0x5893C2CF, .base none (.fma .nmadd .s 5 7 9 11 4)),
  (0x0093F2D3, .base none (.farith .add .s 5 7 9 7)),
  (0x0893F2D3, .base none (.farith .sub .s 5 7 9 7)),
  (0x1093F2D3, .base none (.farith .mul .s 5 7 9 7)),
  (0x1893F2D3, .base none (.farith .div .s 5 7 9 7)),
  (0x580392D3, .base none (.fsqrt .s 5 7 1)),
  (0x209382D3, .base none (.fsgn .sgnj .s 5 7 9)),
  (0x209392D3, .base none (.fsgn .sgnjn .s 5 7 9)),
  (0x2093A2D3, .base none (.fsgn .sgnjx .s 5 7 9)),
  (0x289382D3, .base none (.fminmax false .s 5 7 9)),
  (0x289392D3, .base none (.fminmax true .s 5 7 9)),
  (0xA09382D3, .base none (.fcmp .le .s 5 7 9)),
  (0xA09392D3, .base none (.fcmp .lt .s 5 7 9)),
  (0xA093A2D3, .base none (.fcmp .eq .s 5 7 9)),
  (0xE00392D3, .base none (.fclass .s 5 7))] := reads_of _ (by decide +kernel)

theorem test_decode_base_float_2 : Reads [
  (0xE00382D3, .base none (.fmvToX .s 5 7)),
  (0xF00382D3, .base none (.fmvFromX .s 5 7)),
  (0xC00392D3, .base none (.fcvtToInt .w .s 5 7 1)),
  (0xD00392D3, .base none (.fcvtFromInt .w .s 5 7 1)),
  (0xC01392D3, .base none (.fcvtToInt .wu .s 5 7 1)),
  (0xD01392D3, .base none (.fcvtFromInt .wu .s 5 7 1)),
  (0xC02392D3, .base none (.fcvtToInt .l .s 5 7 1)),
  (0xD02392D3, .base none (.fcvtFromInt .l .s 5 7 1)),
  (0xC03392D3, .base none (.fcvtToInt .lu .s 5 7 1)),
  (0xD03392D3, .base none (.fcvtFromInt .lu .s 5 7 1)),
  (0xFF13B287, .base none (.fload .d 5 7 0xFF1)),
  (0xFE93B5A7, .base none (.fstore .d 7 9 0xFEB)),
  (0x5A93C2C3, .base none (.fma .madd .d 5 7 9 11 4)),
  (0x5A93C2C7, .base none (.fma .msub .d 5 7 9 11 4)),
  (0x5A93C2CB, .base none (.fma .nmsub .d 5 7 9 11 4)),
  (0x5A93C2CF, .base none (.fma .nmadd .d 5 7 9 11 4)),
  (0x0293F2D3, .base none (.farith .add .d 5 7 9 7)),
  (0x0A93F2D3, .base none (.farith .sub .d 5 7 9 7)),
  (0x1293F2D3, .base none (.farith .mul .d 5 7 9 7)),
  (0x1A93F2D3, .base none (.farith .div .d 5 7 9 7))] := reads_of _ (by decide +kernel)

theorem test_decode_base_float_3 : Reads [
  (0x5A0392D3, .base none (.fsqrt .d 5 7 1)),
  (0x229382D3, .base none (.fsgn .sgnj .d 5 7 9)),
  (0x229392D3, .base none (.fsgn .sgnjn .d 5 7 9)),
  (0x2293A2D3, .base none (.fsgn .sgnjx .d 5 7 9)),
  (0x2A9382D3, .base none (.fminmax false .d 5 7 9)),
  (0x2A9392D3, .base none (.fminmax true .d 5 7 9)),
  (0xA29382D3, .base none (.fcmp .le .d 5 7 9)),
  (0xA29392D3, .base none (.fcmp .lt .d 5 7 9)),
  (0xA293A2D3, .base none (.fcmp .eq .d 5 7 9)),
  (0xE20392D3, .base none (.fclass .d 5 7)),
  (0xE20382D3, .base none (.fmvToX .d 5 7)),
  (0xF20382D3, .base none (.fmvFromX .d 5 7)),
  (0xC20392D3, .base none (.fcvtToInt .w .d 5 7 1)),
  (0xD20392D3, .base none (.fcvtFromInt .w .d 5 7 1)),
  (0xC21392D3, .base none (.fcvtToInt .wu .d 5 7 1)),
  (0xD21392D3, .base none (.fcvtFromInt .wu .d 5 7 1)),
  (0xC22392D3, .base none (.fcvtToInt .l .d 5 7 1)),
  (0xD22392D3, .base none (.fcvtFromInt .l .d 5 7 1)),
  (0xC23392D3, .base none (.fcvtToInt .lu .d 5 7 1)),
  (0xD23392D3, .base none (.fcvtFromInt .lu .d 5 7 1))] := reads_of _ (by decide +kernel)

theorem test_decode_base_float_4 : Reads [
  (0x4013A2D3, .base none (.fcvtSD 5 7 2)),
  (0x4203A2D3, .base none (.fcvtDS 5 7 2))] := reads_of _ (by decide +kernel)

theorem test_decode_base_compressed_1 : Reads [
  (0x00000001, .base (some 0x0001) (.imm .addi 0 0 0)),
  (0x00001141, .base (some 0x1141) (.imm .addi 2 2 0xFF0)),
  (0x00004501, .base (some 0x4501) (.imm .addi 10 0 0)),
  (0x00006785, .base (some 0x6785) (.lui 15 1)),
  (0x0000852E, .base (some 0x852E) (.alu .add 10 0 11)),
  (0x0000952E, .base (some 0x952E) (.alu .add 10 10 11)),
  (0x00008082, .base (some 0x8082) (.jalr 0 1 0)),
  (0x00009782, .base (some 0x9782) (.jalr 1 15 0)),
  (0x00009002, .base (some 0x9002) (.ebreak)),
  (0x0000E406, .base (some 0xE406) (.store .sd 2 1 8)),
  (0x000060A2, .base (some 0x60A2) (.load .ld 1 2 8)),
  (0x00000800, .base (some 0x0800) (.imm .addi 8 2 16)),
  (0x0000439C, .base (some 0x439C) (.load .lw 15 15 0)),
  (0x0000C31C, .base (some 0xC31C) (.store .sw 14 15 0)),
  (0x00006108, .base (some 0x6108) (.load .ld 10 10 0)),
  (0x0000E50C, .base (some 0xE50C) (.store .sd 10 11 8)),
  (0x00007139, .base (some 0x7139) (.imm .addi 2 2 0xFC0)),
  (0x0000050A, .base (some 0x050A) (.shift .slli 10 10 2)),
  (0x00008385, .base (some 0x8385) (.shift .srli 15 15 1)),
  (0x0000878D, .base (some 0x878D) (.shift .srai 15 15 3))] := reads_of _ (by decide +kernel)

theorem test_decode_base_compressed_2 : Reads [
  (0x00008B85, .base (some 0x8B85) (.imm .andi 15 15 1)),
  (0x00008F99, .base (some 0x8F99) (.alu .sub 15 15 14)),
  (0x00008FB9, .base (some 0x8FB9) (.alu .xor 15 15 14)),
  (0x00008FD9, .base (some 0x8FD9) (.alu .or 15 15 14)),
  (0x00008FF9, .base (some 0x8FF9) (.alu .and 15 15 14)),
  (0x00009F99, .base (some 0x9F99) (.alu .subw 15 15 14)),
  (0x00009FB9, .base (some 0x9FB9) (.alu .addw 15 15 14)),
  (0x0000A001, .base (some 0xA001) (.jal 0 0)),
  (0x0000C381, .base (some 0xC381) (.branch .beq 15 0 0)),
  (0x0000E381, .base (some 0xE381) (.branch .bne 15 0 0)),
  (0x00002785, .base (some 0x2785) (.imm .addiw 15 15 1)),
  (0x00004512, .base (some 0x4512) (.load .lw 10 2 4)),
  (0x0000C22A, .base (some 0xC22A) (.store .sw 2 10 4)),
  (0x0000239C, .base (some 0x239C) (.fload .d 15 15 0)),
  (0x0000A39C, .base (some 0xA39C) (.fstore .d 15 15 0)),
  (0x00002522, .base (some 0x2522) (.fload .d 10 2 8)),
  (0x0000A42A, .base (some 0xA42A) (.fstore .d 2 10 8))] := reads_of _ (by decide +kernel)


/-! ## Small states -/

/-- s with registers x set. -/
def withX (l : List (XReg × Word)) (s : State) : State := l.foldl (fun s p => s.wx p.1 p.2) s

/-- s with registers f set. -/
def withF (l : List (FReg × Word)) (s : State) : State := l.foldl (fun s p => s.wf p.1 p.2) s

/-- s with a number of n bytes at an address. -/
def put (a n v : Nat) (s : State) : State := { s with mem := sparseSets 0#8 s.mem a (natLe n v) }

/-- s with another user state of the current thread. -/
def withUser (f : User → User) (s : State) : State := { s with hart := { s.hart with u := f s.hart.u } }

/-- A partition of two L-cores, a W-core and a gigabyte, the L-core 0 current in S-mode with FS on and every trap delegated. -/
def lS : State :=
  let s := State.reset.readied
  { s with hart := { s.hart with sup := { s.hart.sup with mode := .s, mstatus := s.hart.sup.mstatus ||| 0x6000, medeleg := -1, stvec := 0x7000 } } }

/-- The same in M-mode. -/
def lM : State := { lS with hart := { lS.hart with sup := { lS.hart.sup with mode := .m, mtvec := 0x8000 } } }

/-- The same in U-mode, its thread installed. -/
def lU : State :=
  { lS with hart := { lS.hart with installed := some 0x100000, sup := { lS.hart.sup with mode := .u }, u := { lS.hart.u with zwprof := 0x8408 } } }

/-- A Carousel entry of the W-core 0. -/
def carAt (slot : Nat) : Car := ⟨0, slot, true, 0, 0, none, false, none, none, none, false, false, none, none⟩

/-- A thread at the W-core 0 with every register of the profile and FS on. -/
def wHart (slot : Nat) : Hart :=
  let h := Hart.init (.wthread (0x100000 + 2048 * slot))
  { h with u := { h.u with zwprof := 0x8408 }, car := some (carAt slot), sup := { h.sup with mode := .u, mstatus := h.sup.mstatus ||| 0x6000, medeleg := -1 } }

/-- The team 1 on the W-core 0. -/
def team1 : Team := ⟨1, 0, Vector.replicate 16 ⟨0, 0, []⟩, []⟩

/-- A member of team 1, from an earlier A-clock on. -/
def memberAt (slot : Nat) : Member :=
  ⟨.wthread (0x100000 + 2048 * slot), 1, BitVec.ofNat 12 slot, false, 0, Vector.replicate 16 0, -1⟩

/-- Two threads of one team at the W-core 0, the first current, and the two L-cores in S-mode. -/
def wT : State :=
  { lS with
    hart := wHart 0
    harts := [wHart 1, lS.hart, { lS.hart with id := .lcore 1 }]
    part := { lS.part with teams := [team1], members := [memberAt 0, memberAt 1], wcores := [WCore.init 0] } }

/-- The first thread of wT converges at a cross-lane instruction. -/
def wS : State := { wT with hart := { wHart 0 with car := some { carAt 0 with conv := some 0 } } }

/-- s with another user state of the second thread. -/
def withMate (f : User → User) (s : State) : State :=
  { s with harts := s.harts.map fun h => if h.id = .wthread 0x100800 then { h with u := f h.u } else h }

/-- s with the W-core 0 changed. -/
def withCore (f : WCore → WCore) (s : State) : State :=
  { s with part := { s.part with wcores := s.part.wcores.map f } }

/-- s with its partition changed. -/
def withPart (f : Part → Part) (s : State) : State := { s with part := f s.part }

/-- s with the current hart changed. -/
def withHart (f : Hart → Hart) (s : State) : State := { s with hart := f s.hart }

/-- The next state of an instruction. -/
def go (i : Instr) (s : State) : Option State :=
  match exec i s with
  | .next t => some t
  | _ => none

/-- The register x of the next state. -/
def goX (i : Instr) (s : State) (r : XReg) : Option Word := (go i s).map (·.rx r)

/-- The register f of the next state, and fflags. -/
def goF (i : Instr) (s : State) (r : FReg) : Option (Word × BitVec 5) := (go i s).map fun t => (t.rf r, t.hart.u.fflags)

/-- The cause and the value of the trap into S-mode. -/
def goTrap (i : Instr) (s : State) : Option (Word × Word) := (go i s).map fun t => (t.hart.sup.scause, t.hart.sup.stval)

/-- x3 after a register instruction on x1 and x2. -/
def aluOn (op : AluOp) (a b : Word) : Option Word := goX (.base none (.alu op 3 1 2)) (withX [(1, a), (2, b)] lU) 3

/-- f3 and fflags after an arithmetic instruction on f1 and f2, rounded to nearest. -/
def fpOn (op : FArithOp) (fmt : Fmt) (a b : Word) : Option (Word × BitVec 5) :=
  goF (.base none (.farith op fmt 3 1 2 0)) (withF [(1, a), (2, b)] lU) 3

/-! ## One step each: the base profile (R118; values of the RISC-V ISA manual) -/

theorem test_add_wraps : aluOn .add 0xFFFFFFFFFFFFFFFF 1 = some 0 := by decide +kernel
theorem test_addw_sign : aluOn .addw 0x7FFFFFFF 1 = some 0xFFFFFFFF80000000 := by decide +kernel
theorem test_sra_sign : aluOn .sra 0x8000000000000000 63 = some 0xFFFFFFFFFFFFFFFF := by decide +kernel
theorem test_sll_six_bits : aluOn .sll 1 65 = some 2 := by decide +kernel
theorem test_slt_signed : aluOn .slt 0xFFFFFFFFFFFFFFFF 0 = some 1 := by decide +kernel
theorem test_mulhsu : aluOn .mulhsu 0xFFFFFFFFFFFFFFFF 0xFFFFFFFFFFFFFFFF = some 0xFFFFFFFFFFFFFFFF := by decide +kernel
theorem test_mulhu : aluOn .mulhu 0xFFFFFFFFFFFFFFFF 0xFFFFFFFFFFFFFFFF = some 0xFFFFFFFFFFFFFFFE := by decide +kernel
theorem test_div_overflow : aluOn .div 0x8000000000000000 0xFFFFFFFFFFFFFFFF = some 0x8000000000000000 := by decide +kernel
theorem test_div_zero : aluOn .div 5 0 = some 0xFFFFFFFFFFFFFFFF := by decide +kernel
theorem test_rem_sign : aluOn .rem 0xFFFFFFFFFFFFFFF9 2 = some 0xFFFFFFFFFFFFFFFF := by decide +kernel
theorem test_remw_overflow : aluOn .remw 0x80000000 0xFFFFFFFF = some 0 := by decide +kernel
theorem test_sh1add_uw : aluOn .sh1addUw 0xFFFFFFFF80000001 1 = some 0x100000003 := by decide +kernel
theorem test_rorw_sign : aluOn .rorw 1 1 = some 0xFFFFFFFF80000000 := by decide +kernel
theorem test_bext : aluOn .bext 0x8000000000000000 0xFF = some 1 := by decide +kernel
theorem test_czero_eqz : aluOn .czeroEqz 7 0 = some 0 := by decide +kernel
theorem test_minu : aluOn .minu 0xFFFFFFFFFFFFFFFF 1 = some 1 := by decide +kernel
theorem test_clz_zero : goX (.base none (.unary .clz 3 1)) lU 3 = some 64 := by decide +kernel
theorem test_orc_b : goX (.base none (.unary .orcB 3 1)) (withX [(1, 0x0100200000000080)] lU) 3 = some 0xFF00FF00000000FF := by decide +kernel
theorem test_rev8 : goX (.base none (.unary .rev8 3 1)) (withX [(1, 0x0102030405060708)] lU) 3 = some 0x0807060504030201 := by decide +kernel
theorem test_x0_discards : goX (.base none (.imm .addi 0 1 7)) lU 0 = some 0 := by decide +kernel
theorem test_lui_sign : goX (.base none (.lui 3 0x80000)) lU 3 = some 0xFFFFFFFF80000000 := by decide +kernel
theorem test_jalr_clears_bit :
    (go (.base none (.jalr 1 1 0)) (withX [(1, 0x2003)] lU)).map (fun t => (t.pc, t.rx 1)) = some (0x2002, 4) := by decide +kernel
theorem test_branch_back :
    (go (.base none (.branch .blt 1 2 0xFFE)) (withX [(1, -1)] { lU with hart := { lU.hart with u := { lU.hart.u with pc := 0x100 } } })).map
      (·.pc) = some 0xFC := by decide +kernel
theorem test_compressed_length : (go (.base (some 0x0085) (.imm .addi 1 1 1)) lU).map (·.pc) = some 2 := by decide +kernel
theorem test_lb_sign : goX (.base none (.load .lb 3 1 0xFFF)) (withX [(1, 0x2001)] (put 0x2000 1 0x80 lU)) 3 = some 0xFFFFFFFFFFFFFF80 := by
  decide +kernel
theorem test_load_across_line : goTrap (.base none (.load .ld 3 1 0)) (withX [(1, 0x2079)] lU) = some (4, 0x2079) := by decide +kernel
theorem test_sh_bytes :
    (go (.base none (.store .sh 1 2 0)) (withX [(1, 0x2000), (2, 0x12345678)] (put 0x2000 4 0xAABBCCDD lU))).map (·.memNat 0x2000 4) =
      some 0xAABB5678 := by decide +kernel
theorem test_amomax_w :
    (go (.base none (.amo .max false false false 3 1 2)) (withX [(1, 0x2000), (2, 0xFFFFFFFF)] (put 0x2000 4 0x80000000 lU))).map
      (fun t => (t.rx 3, t.memNat 0x2000 4)) = some (0xFFFFFFFF80000000, 0xFFFFFFFF) := by decide +kernel
theorem test_sc_without_reservation :
    (go (.base none (.sc true false false 3 1 2)) (withX [(1, 0x2000), (2, 9)] lU)).map (fun t => (t.rx 3, t.memNat 0x2000 8)) =
      some (1, 0) := by decide +kernel
theorem test_csrrs_fflags :
    (go (.base none (.csr .rs 3 1 0x001)) (withX [(1, 0x3F)] lU)).map (fun t => (t.rx 3, t.hart.u.fflags)) = some (0, 0x1F) := by decide +kernel
theorem test_ecall_from_u : goTrap (.base none .ecall) lU = some (8, 0) := by decide +kernel
theorem test_mret_in_s : goTrap (.base none .mret) lS = some (2, 0x30200073) := by decide +kernel

/-! Floating point (R96, R102 to R107, R118; IEEE 754-2019). -/

theorem test_fadd : fpOn .add .s 0xFFFFFFFF3F800000 0xFFFFFFFF40000000 = some (0xFFFFFFFF40400000, 0) := by decide +kernel
theorem test_fadd_unboxed : fpOn .add .s 0x000000003F800000 0xFFFFFFFF40000000 = some (0xFFFFFFFF7FC00000, 0) := by decide +kernel
theorem test_fdiv_by_zero : fpOn .div .s 0xFFFFFFFF3F800000 0xFFFFFFFF80000000 = some (0xFFFFFFFFFF800000, 8) := by decide +kernel
theorem test_fmul_tie : fpOn .mul .d 0x3FF0000000000001 0x3FF8000000000000 = some (0x3FF8000000000002, 1) := by decide +kernel
theorem test_fmin_snan :
    goF (.base none (.fminmax false .s 3 1 2)) (withF [(1, 0xFFFFFFFF7F800001), (2, 0xFFFFFFFF40000000)] lU) 3 = some (0xFFFFFFFF40000000, 16) := by decide +kernel
theorem test_fsqrt_negative :
    goF (.base none (.fsqrt .s 3 1 0)) (withF [(1, 0xFFFFFFFFBF800000)] lU) 3 = some (0xFFFFFFFF7FC00000, 16) := by decide +kernel
theorem test_fma_one_rounding :
    goF (.base none (.fma .madd .s 3 1 1 2 0)) (withF [(1, 0xFFFFFFFF3F800001), (2, 0xFFFFFFFFBF800002)] lU) 3 =
      some (0xFFFFFFFF28800000, 0) := by decide +kernel
theorem test_fcvt_w_saturates :
    goX (.base none (.fcvtToInt .w .s 3 1 1)) (withF [(1, 0xFFFFFFFF4F000000)] lU) 3 = some 0x7FFFFFFF := by decide +kernel
theorem test_reserved_frm_traps :
    goTrap (.base none (.farith .add .s 3 1 2 7)) (withUser (fun u => { u with frm := 5 }) lU) = some (2, 0x0020F1D3) := by decide +kernel
theorem test_flush :
    goF (.base none (.farith .mul .s 3 1 2 0))
      (withUser (fun u => { u with zfmode := 2 }) (withF [(1, 0xFFFFFFFF00800000), (2, 0xFFFFFFFF3F000000)] lU)) 3 =
      some (0xFFFFFFFF00000000, 3) := by decide +kernel

/-! Narrowing: the table of "Number Formats Commentary". -/

/-- The code, fflags, zaflags and zamax after an NCVT of an FP32 value under a prefix's rounding mode. -/
def narrowOn (i : Instr) (rm : BitVec 3) (v : Nat) : Option (Word × BitVec 5 × BitVec 3 × BitVec 31) :=
  (go (.pfx ⟨false, 15, 0, rm, false, 0⟩ i) (withF [(1, BitVec.ofNat 64 (0xFFFFFFFF00000000 + v))] lU)).map fun t =>
    (t.rx 3, t.hart.u.fflags, t.hart.u.zaflags, t.hart.u.zamax)

theorem test_ncvt_odd : narrowOn (.ncvtE4 3 1) 5 0x43A50000 = some (0x7B, 1, 0, 0x43A50000) := by decide +kernel
theorem test_ncvt_nearest : narrowOn (.ncvtE4 3 1) 0 0x43A50000 = some (0x7A, 1, 0, 0x43A50000) := by decide +kernel
theorem test_ncvt_saturates : narrowOn (.ncvtE4 3 1) 3 0x43EB0000 = some (0x7E, 5, 2, 0x43EB0000) := by decide +kernel
theorem test_ncvt_e5_infinite : narrowOn (.ncvtE5 3 1) 0 0x4788B800 = some (0x7C, 5, 4, 0x4788B800) := by decide +kernel
theorem test_ncvt_e5_odd : narrowOn (.ncvtE5 3 1) 5 0x4788B800 = some (0x7B, 5, 0, 0x4788B800) := by decide +kernel
theorem test_ncvt_nan : narrowOn (.ncvtI8 3 1) 7 0x7FC00000 = some (0, 16, 1, 0) := by decide +kernel
theorem test_wcvt_signalling :
    (go (.wcvtE5 3 1) (withX [(1, 0x7D)] lU)).map (fun t => (t.rf 3, t.hart.u.fflags, t.hart.u.zaflags)) =
      some (0xFFFFFFFF7FC00000, 16, 1) := by decide +kernel

/-- The FUSE of the epilogue of "Press Instructions Commentary": 4y with y = 0.5. -/
theorem test_fuse_silu :
    goF (.pfx ⟨false, 15, 0, 7, false, 20⟩ (.fuseS 11 10 18 19 6))
      (withUser (fun u => { u with zexp := u.zexp.set 6 0x0007D54E73721721 })
        (withF [(10, 0xFFFFFFFF3F000000), (18, 0xFFFFFFFF40800000), (19, 0xFFFFFFFFBFB8AA3B), (20, 0xFFFFFFFF3F800000)] lU)) 11 =
      some (0xFFFFFFFF3FE17BEA, 1) := by decide +kernel

/-! Predicates, guards and tables (R121 to R126, R168 to R176). -/

theorem test_pcmp_signed : (go (.pcmpLt 11 1 2) (withX [(1, -1)] lU)).map (·.rp 11) = some true := by decide +kernel
theorem test_pfun : (go (.pfunS 0 1 2) (withF [(1, 0xFFFFFFFF7FC00000)] lU)).map (fun t => (t.rp 0, t.hart.u.fflags)) = some (true, 0) := by
  decide +kernel
theorem test_pall_empty_mask : goX (.pall 3 1) lU 3 = some 1 := by decide +kernel
theorem test_guard_false_zeroes :
    (go (.pfx ⟨false, 0, 0, 7, true, 0⟩ (.base none (.imm .addi 3 3 1))) (withX [(3, 5)] lU)).map (fun t => (t.rx 3, t.pc)) = some (0, 8) := by
  decide +kernel
theorem test_guard_sense :
    goX (.pfx ⟨true, 0, 0, 7, false, 0⟩ (.base none (.imm .addi 3 3 1))) (withX [(3, 5)] lU) 3 = some 6 := by decide +kernel
theorem test_jtab :
    (go (.jtab 1 2 3) (withX [(2, 1), (3, 0x3000)] (put 0x3020 8 0x9000 (put 0x3000 4 2 lU)))).map (fun t => (t.pc, t.rx 1)) =
      some (0x9000, 4) := by decide +kernel
theorem test_jtab_index : goTrap (.jtab 1 2 3) (withX [(2, 2), (3, 0x3000)] (put 0x3000 4 2 lU)) = some (49, 2) := by decide +kernel

/-! Sets, teams and groups (R30 to R52, R146 to R166). -/

theorem test_gsum :
    (go (.gsumI 3 1) (withMate (fun u => u.wx 1 7) (withX [(1, 5)] wS))).map (fun t => t.allHarts.map (·.u.rx 3)) = some [12, 12, 0, 0] := by
  decide +kernel
theorem test_ballot : goX (.ballot 3 1) (withMate (fun u => u.wx 1 7) wS) 3 = some 2 := by decide +kernel
theorem test_shfl : goX (.shfl 3 1 2) (withMate (fun u => u.wx 1 7) (withX [(1, 5), (2, 1)] wS)) 3 = some 7 := by decide +kernel
theorem test_gmin_empty_lane :
    goX (.pfx ⟨false, 0, 0, 7, false, 0⟩ (.gminI 3 1)) (withX [(3, 9)] wS) 3 = some 9 := by decide +kernel
theorem test_tjoin_any :
    (go (.tjoin 3 1) (withPart (fun p => { p with members := [memberAt 1] }) (withX [(1, 0x10000001)] wT))).map
      (fun t => (t.rx 3, t.part.members.length)) = some (0, 2) := by decide +kernel
theorem test_tbar_last_arrival :
    (go .ringmasterClock (withPart (fun p => { p with
      members := [memberAt 0], teams := [{ team1 with bars := team1.bars.set 3 ⟨0, 0, [.wthread 0x100000]⟩ }] }) wT)).map
      (fun t => t.part.teams.map fun m => ((m.bars[3]).phase, (m.bars[3]).count)) = some [(1, 0)] := by decide +kernel
theorem test_tbar_sync_waits :
    (go (.tbarSync 3) (withPart (fun p => { p with members := [memberAt 0] }) wT)).map
      (fun t => (t.hart.wait, t.part.teams.map fun m => (m.bars[3]).phase)) = some (some (.tbar 3), [0]) := by decide +kernel
theorem test_migr_w_leaves :
    (go .migrW (withPart (fun p =>
        { p with parkBase := 0x8000000, parkPlaced := true, wfq := { p.wfq with base := 0x40000, en := true } }) lU)).map (fun t => (
      t.part.transit.map Transit.ctx, t.hart.installed, t.part.wfq.count, t.hart.sup.scause)) =
      some ([0x100000], none, 1, 0x8000000000000010) := by decide +kernel

/-! Records, the array file and atomics (R59 to R62, R177 to R187): the record of "Assembly Language", the array of "Memory Instructions
Commentary". -/

theorem test_kset_wld :
    goX (.wldIndexed 28 0 7) (withUser (fun u => { u with k := u.k.set 0 ⟨0, 40⟩, w := u.w.set 39 2521 }) (withX [(7, 39)] lU)) 28 =
      some 2521 := by decide +kernel
theorem test_wld_index : goTrap (.wldIndexed 28 0 7) (withUser (fun u => { u with k := u.k.set 0 ⟨0, 40⟩ }) (withX [(7, 40)] lU)) = some (25, 40) := by
  decide +kernel
theorem test_kset_profile : goTrap (.kset 0 1 2) (withX [(1, 1), (2, 64)] lU) = some (48, 0x241) := by decide +kernel
theorem test_interleaved_address : bufAddr ⟨2, 1, 0x400000, 40, 0⟩ 5 8 3 = 0x4000AC := by decide +kernel
theorem test_bst_h_wraps :
    (go (.bstH 2 1 3)
      (withUser (fun u => { u with b := u.b.set 2 0x00000004000000021000000000002000 }) (withX [(1, 3), (3, 0x12345678)] lU))).map
      (·.memNat 0x2006 4) = some 0x5678 := by decide +kernel
theorem test_bld_extent :
    goTrap (.bldW 3 1 2) (withUser (fun u => { u with b := u.b.set 2 0x00000004000000042000000000002000 }) (withX [(1, 4)] lU)) =
      some (26, 4) := by decide +kernel

/-! Sync objects, copies and windows (R70 to R93, R188 to R207). -/

theorem test_bararr_phase :
    (go (.bararr 3 1 2) (withX [(1, 0x2000), (2, 3)] (put 0x2018 8 4 (put 0x2010 8 3 (put 0x2008 8 1 lU))))).map
      (fun t => (t.rx 3, t.memNat 0x2000 8, t.memNat 0x2008 8, t.memNat 0x2018 8)) = some (1, 1, 2, 7) := by decide +kernel
theorem test_bartest : goX (.bartest 3 1 2) (withX [(1, 0x2000), (2, 2)] (put 0x2008 8 2 lU)) 3 = some 1 := by decide +kernel
theorem test_rel_misaligned : goTrap (.rel 1) (withX [(1, 0x2008)] lU) = some (6, 0x2008) := by decide +kernel
theorem test_sobind_status :
    goX (.sobind 3 1 2) (withX [(1, 0x3000), (2, 0x2000)] (put 0x3008 4 0 lU)) 3 = some 2 := by decide +kernel
theorem test_xcopy_ticket :
    goX (.xcopy 3 1)
      (withX [(1, 0x3000)] (put 0x3028 1 2 (put 0x3014 4 8 (put 0x3010 4 1 (put 0x3008 8 0x5000 (put 0x3000 8 0x4000 lU)))))) 3 =
      some (256 * 2 ^ 48 + 18) := by decide +kernel
theorem test_mwait_waits :
    (go .mwait (withHart (fun h => { h with watch := some ⟨0x40, false⟩ }) lU)).map (fun t => (t.pc, t.hart.wait)) = some (0, some .mwait) := by
  decide +kernel
theorem test_smap_without_team : goX (.smap 3 1) (withPart (fun p => { p with members := [] }) (withX [(1, 0x3000)] wT)) 3 = some (-1) := by
  decide +kernel

/-! The Press (R98 to R100, R210 to R235; the tables of "Number Formats Commentary"). -/

theorem test_obres_first_id :
    goX (.obres 3 1) (withX [(1, 0x3000)] (put 0x3008 1 4 (put 0x3004 4 0x1000 (put 0x3000 4 0x320000 wT)))) 3 = some 0 := by decide +kernel
theorem test_press_on_l_site : goTrap (.acwm 3 1) lU = some (24, 0x1800_81FB) := by decide +kernel
theorem test_acwm_idle : goX (.acwm 3 1) wT 3 = some 128 := by decide +kernel
theorem test_mxswap_queues : (go .mxswap wT).map (fun t => t.part.wcores.map fun c => (c.press.queue.length, c.press.issued)) = some [(1, 1)] := by
  decide +kernel
theorem test_mxstat_clears :
    (go (.mxstat 3 1) (withCore (fun c => { c with press := { c.press with mxstat := 0x1F } }) (withX [(1, 5)] wT))).map
      (fun t => (t.rx 3, t.part.wcores.map (·.press.mxstat))) = some (0x1F, [0x1A]) := by decide +kernel

/-! Distributions: the program of "Distribution Instructions Commentary". -/

/-- A distribution with eight points of one weight. -/
def distOn (l : List Nat) (tag : BitVec 16) (form : Bool) : Dist := distOf (l.map fun v => (v, 8192)) tag form

/-- X: −3.5 to 3.5 in steps of 1. -/
def distX : Dist := distOn [0xC0600000, 0xC0200000, 0xBFC00000, 0xBF000000, 0x3F000000, 0x3FC00000, 0x40200000, 0x40600000] 1 false

/-- Y: four points 0 and four points 1. -/
def distY : Dist := distOn [0, 0, 0, 0, 0x3F800000, 0x3F800000, 0x3F800000, 0x3F800000] 2 false

/-- d2, after the RELU: 0, 0, 0, 0, 1, 2, 3, 4. -/
def distR : Dist := distOn [0, 0, 0, 0, 0x3F800000, 0x40000000, 0x40400000, 0x40800000] 3 false

/-- s with d-registers 0 and 1 set. -/
def withD (a b : Dist) (s : State) : State := withUser (fun u => { u with d := (u.d.set 0 a).set 1 b }) s

/-- d2 and zdflags after an instruction. -/
def goD (i : Instr) (s : State) : Option (Dist × BitVec 7) := (go i s).map fun t => (t.rd 2, t.hart.u.zdflags)

theorem test_dadd_independent :
    goD (.dadd 2 0 1) (withD distX distY lU) =
      some (distOn [0xC0400000, 0xC0000000, 0xBF800000, 0, 0x3F800000, 0x40000000, 0x40400000, 0x40800000] 3 false, 0) := by decide +kernel
theorem test_dmul_shared_tag :
    goD (.dmul 2 0 0) (withD distX distY lU) =
      some (distOn [0xC1100000, 0xC0900000, 0xBFE00000, 0xBF400000, 0x3F400000, 0x3FE00000, 0x40900000, 0x41100000] 1 false, 1) := by decide +kernel
theorem test_dmul_joint :
    goD (.dmul 2 0 0) (withD { distX with form := true } distY lU) =
      some (distOn [0x41440000, 0x40C80000, 0x40100000, 0x3E800000, 0x3E800000, 0x40100000, 0x40C80000, 0x41440000] 1 true, 0) := by decide +kernel
theorem test_dmap_relu :
    goD (.dmap 2 0 0)
      (withD (distOn [0xC0400000, 0xC0000000, 0xBF800000, 0, 0x3F800000, 0x40000000, 0x40400000, 0x40800000] 3 false) distY lU) =
      some (distR, 0) := by decide +kernel
theorem test_dmom_variance : goF (.dmom 3 0 2) (withD distR distY lU) 3 = some (0xFFFFFFFF400C0000, 0) := by decide +kernel
theorem test_dqnt : goF (.dqnt 3 0 1) (withF [(1, 0xFFFFFFFF3F666666)] (withD distR distY lU)) 3 = some (0xFFFFFFFF406CCCCC, 0) := by decide +kernel
theorem test_dcdf : goF (.dcdf 3 0 1) (withF [(1, 0xFFFFFFFF00000000)] (withD distR distY lU)) 3 = some (0xFFFFFFFF3E800000, 0) := by decide +kernel
theorem test_dxt_traps :
    goTrap (.dmul 2 0 0) (withUser (fun u => { u with zdctl := 1 }) (withD distX distY lU)) = some (27, 0x0100000000000001) := by decide +kernel

/-! Tasks and versions (R269 to R299). -/

/-- A task of index 5 with a count, in a state. -/
def taskAt (state : TaskState) (count : Nat) (inputs : Vector (Option TaskInput) 8) : Task :=
  ⟨5, 1, state, count, false, 0, ⟨0x9000, 77, 0, 0, count, false, 0, 0, 0, 0⟩, inputs, false, state == .ready, 0⟩

/-- s with tasks. -/
def withTasks (l : List Task) (s : State) : State := withPart (fun p => { p with rm := { p.rm with tasks := l } }) s

theorem test_tspawn_first_handle : goX (.tspawn 3 1) (withX [(1, 0x3000)] (put 0x3000 8 0x9000 lU)) 3 = some (2 ^ 18) := by decide +kernel
theorem test_tstat_absent : goX (.tstat 3 1) (withX [(1, 2 ^ 18 + 5)] lU) 3 = some 0 := by decide +kernel
theorem test_tstat_waiting :
    goX (.tstat 3 1) (withX [(1, 2 ^ 18 + 5)] (withTasks [taskAt .waiting 3 (Vector.replicate 8 none)] lU)) 3 = some 0x30001 := by decide +kernel
theorem test_tdec_to_ready :
    (go (.tdec 1) (withX [(1, 2 ^ 18 + 5)] (withTasks [taskAt .waiting 1 (Vector.replicate 8 none)] lU))).map
      (fun t => t.part.rm.tasks.map fun e => (e.state, e.count)) = some [(.ready, 0)] := by decide +kernel
theorem test_tdec_absent : goTrap (.tdec 1) (withX [(1, 9)] lU) = some (29, 9) := by decide +kernel
theorem test_vpub_raises_version :
    (go (.vpub 1) (withX [(1, 0x2000)] (put 0x2008 8 6 lU))).map (fun t => (t.memNat 0x2000 8, t.memNat 0x2008 8)) = some (1, 7) := by decide +kernel
theorem test_vpub_final : goTrap (.vpub 1) (withX [(1, 0x2000)] (put 0x2008 8 (2 ^ 63) lU)) = some (31, 0x2000) := by decide +kernel

/-! Supervisor instructions, events and the code object (R300 to R356). -/

theorem test_zfqpop_empty : goX (.zfqpop 3 1) (withX [(1, 0x3000)] lS) 3 = some 0 := by decide +kernel
theorem test_zpark_in_u : goTrap (.zpark 3 1) lU = some (2, 0x0200E1FB) := by decide +kernel
theorem test_zseed_restarts_draws :
    (go (.zseedWrite 42) (withUser (fun u => { u with draw := Vector.replicate 16 5 }) lU)).map (fun t => t.hart.u.draw.toList.sum) = some 0 := by
  decide +kernel
theorem test_ringmaster_clock : (go .ringmasterClock lS).map (·.pkg.zaclk) = some (lS.pkg.zaclk + 1) := by decide +kernel
theorem test_preempt_stops : (go .preempt lU).map (fun t => (t.part.status, t.pkg.hostOut)) = some (.stopped, [.status 0]) := by decide +kernel
theorem test_uncorrectable_error : (go (.uncorrectableError 0x2004) lU).map (·.poison) = some [0x400] := by decide +kernel
theorem test_bring_up : (go (.bringUp none) State.reset).map (fun t => (t.pkg.bringUp, t.pkg.zaclk)) = some (7, 0) := by decide +kernel

/-- The digest of "abc" in FIPS 180-4. -/
theorem test_sha384_abc : (shaBytes [0x61, 0x62, 0x63]).take 8 = [0xCB, 0x00, 0x75, 0x3F, 0x45, 0xA3, 0x5E, 0x8B] := by decide +kernel

/-- The header worked out in "Code Objects and Compatibility". -/
theorem test_object_header :
    (headerOf (natLe 64 (0x4F505946 + 2 ^ 32 + 2 ^ 48 + 7 * 2 ^ 64 + 0x2100 * 2 ^ 128 + 2 * 2 ^ 144 + 32 * 2 ^ 152 + 0x13 * 2 ^ 160 +
      2 * 2 ^ 168 + 0x100000 * 2 ^ 192 + 2 ^ 282))).map
      (fun h => (h.loadsHere, h.used, h.emul, (h.start 0x9000 User.init).zfmode, (h.start 0x9000 User.init).zpack)) =
      some (true, 7, 0x4000000, 0x13, 2) := by decide +kernel

/-! ## The hypotheses of the statements can be met -/

theorem witness_BaseRegisterResult : (1 : Word) ≠ 0 ∧ ¬ (BitVec.intMin 64 = BitVec.intMin 64 ∧ (1 : Word) = -1) := by decide

/-- x1 = −1, x2 = 1. -/
def sCmp : State := withX [(1, -1), (2, 1)] lU

theorem witness_BaseControlTransfer :
    (lU.rx 1 = lU.rx 2 ∧ ¬ (lU.rx 1).toInt < (lU.rx 2).toInt ∧ (lU.rx 2).toInt ≤ (lU.rx 1).toInt ∧ (lU.rx 2).toNat ≤ (lU.rx 1).toNat ∧
      ¬ (lU.rx 1).toNat < (lU.rx 2).toNat) ∧
    sCmp.rx 1 ≠ sCmp.rx 2 ∧ (sCmp.rx 1).toInt < (sCmp.rx 2).toInt ∧ ¬ (sCmp.rx 2).toInt ≤ (sCmp.rx 1).toInt ∧
    (sCmp.rx 2).toNat < (sCmp.rx 1).toNat ∧ ¬ (sCmp.rx 1).toNat ≤ (sCmp.rx 2).toNat := by decide +kernel

/-- x1 names a line of plain memory. -/
def sMem : State := withX [(1, 0x2000)] lU

/-- x1 names a line of plain memory, at the W-site. -/
def wMem : State := withX [(1, 0x2000)] wT

theorem witness_PlainAccess :
    (∀ n ∈ [1, 2, 4, 8, 16, 32, 64, 128], PlainAccess .load sMem (sMem.rx 1) n 0x2000 ∧ PlainAccess .store sMem (sMem.rx 1) n 0x2000) ∧
    ∀ n ∈ [1, 2, 4, 8, 16, 32, 64, 128], PlainAccess .load wMem (wMem.rx 1) n 0x2000 ∧ PlainAccess .store wMem (wMem.rx 1) n 0x2000 := by
  unfold PlainAccess; decide +kernel

theorem witness_BaseLoadResult :
    fsOn sMem = true ∧
    ∀ op : LoadOp, PlainAccess .load sMem (sMem.rx 1 + (0 : BitVec 12).signExtend 64) (loadSize op) 0x2000 ∧
      InLine (sMem.rx 1 + (0 : BitVec 12).signExtend 64) (loadSize op) := by
  refine ⟨by decide +kernel, fun op => ?_⟩
  unfold PlainAccess InLine
  cases op <;> decide +kernel

theorem witness_BaseStoreResult :
    sMem.Inv ∧ fsOn sMem = true ∧
    ∀ op : StoreOp, PlainAccess .store sMem (sMem.rx 1 + (0x078 : BitVec 12).signExtend 64) (storeSize op) 0x2078 ∧
      InLine (sMem.rx 1 + (0x078 : BitVec 12).signExtend 64) (storeSize op) := by
  refine ⟨by unfold State.Inv; decide +kernel, by decide +kernel, fun op => ?_⟩
  unfold PlainAccess InLine
  cases op <;> decide +kernel

theorem witness_BaseTrapsAndFences :
    (sMem.myMends = [] ∧ ¬ InLine (sMem.rx 1 + (0x07F : BitVec 12).signExtend 64) (loadSize .lh) ∧
      ¬ InLine (sMem.rx 1 + (0x079 : BitVec 12).signExtend 64) (storeSize .sd)) ∧
    (((withX [(1, 0x2002)] lU).rx 1).toNat % 4 ≠ 0 ∧ ((withX [(1, 0x2004)] lU).rx 1).toNat % 8 ≠ 0) ∧
    ((0xC00 : BitVec 12).toNat / 1024 = 3 ∧ (0xFFF : BitVec 12).toNat / 1024 = 3 ∧ ¬ (lS.hart.sup.mode = .s ∧ 0xC03 ≤ 0xC02)) ∧
    (lU.hart.sup.mode = .u ∧ lU.myMends = [] ∧ lU.hart.sup.mode.level < (0x100 : BitVec 12).toNat / 256 % 4) ∧
    lS.hart.sup.mode = .s ∧ lS.myMends = [] ∧ lS.hart.sup.mode.level < (0xFFF : BitVec 12).toNat / 256 % 4 := by
  unfold InLine; decide +kernel

/-- The first thread of wT has a store in the mending buffer. -/
def wMends : State := withCore (fun c => { c with mend := [⟨0x100000, 0, 0x2000, .store, [0x11], .queued⟩] }) wT

theorem witness_BaseTrapsAndFences_fences :
    (wT.myMends = [] ∧ wT.hart.dropped = none) ∧ wMends.myMends ≠ [] ∧
    (let s := withHart (fun h => { h with dropped := some 0x2000 }) wT
     s.myMends = [] ∧ s.hart.dropped = some 0x2000) ∧
    lM.hart.sup.mode = .m ∧ lS.hart.sup.mode = .s ∧ lS.hart.sup.mstatus.getLsbD 20 = false ∧ lS.hart.sup.mstatus.getLsbD 21 = false := by
  decide +kernel

theorem witness_AtomicResult :
    sMem.Inv ∧ sMem.hart.resv ≠ some (0x2000 / 128) ∧
    (withHart (fun h => { h with resv := some (0x2000 / 128) }) sMem).hart.resv = some (0x2000 / 128) ∧
    ∀ n ∈ [4, 8], NoPrivate sMem 0x2000 n ∧ (sMem.rx 1).toNat % n = 0 ∧ PlainAccess .store sMem (sMem.rx 1) n 0x2000 ∧
      PlainAccess .load sMem (sMem.rx 1) n 0x2000 := by
  unfold State.Inv NoPrivate PlainAccess; decide +kernel

theorem witness_TrapEntryToSMode :
    let at' (va : Word) (s : State) : State := withX [(1, va)] s
    let kept : State := { lU with hart := { lU.hart with sup := { lU.hart.sup with medeleg := 0 } } }
    (∀ s ∈ [lU, lS, lM, kept], s.hart.id = .lcore 0 ∧ s.hart.dropped = none ∧ s.myMends = [] ∧
      ¬ InLine ((at' 0x207F s).rx 1 + (0 : BitVec 12).signExtend 64) (loadSize .lh) ∧
      ¬ InLine ((at' 0x2079 s).rx 1 + (0 : BitVec 12).signExtend 64) (storeSize .sd)) ∧
    (lU.hart.sup.mode = .u ∧ lS.hart.sup.mode = .s ∧ lM.hart.sup.mode = .m) ∧
    (∀ k ∈ [8, 9, 3, 2, 4, 6], lS.hart.sup.medeleg.getLsbD k = true ∧ kept.hart.sup.medeleg.getLsbD k = false) ∧
    kept.hart.sup.mode = .u := by unfold InLine; decide +kernel

theorem witness_TrapReturn : sretOk lS = true ∧ lM.hart.sup.mode = .m := by decide +kernel

theorem witness_CsrWrites_areas :
    fsOn lU = true ∧ (3 * 1024 ≤ (0xC00 : BitVec 12).toNat ∨ lU.csrVal 0xC00 = none) ∧ lU.csrVal 0x8FF = none ∧
    (∃ h ∈ wT.allHarts, h.car ≠ none) ∧ ¬ (∃ h ∈ lS.allHarts, h.car ≠ none) ∧
    areaIn lS.part.ranges 0x3FF00000 (2 ^ 20) = true ∧ areaIn lS.part.ranges 0x3FF00000 (2 ^ 31) = false ∧
    lS.part.bindings = [] ∧ areaIn lS.part.ranges 0x3FFF8000 0x8000 = true ∧ areaIn lS.part.ranges 0x40000000 0x8000 = false ∧
    areaIn lS.part.ranges 0x3FFFFC00 1024 = true ∧ areaIn lS.part.ranges 0x40000000 1024 = false := by decide +kernel

theorem witness_CsrWrites_queues :
    let full : State := withPart (fun p => { p with wfq := { p.wfq with count := 1 }, emq := { p.emq with count := 1 } }) lS
    (full.part.wfq.base ≠ 0x1000 ∧ full.part.wfq.count ≠ 0) ∧ (full.part.emq.base ≠ 0x1000 ∧ full.part.emq.count ≠ 0) ∧
    lS.part.wfq.count = 0 ∧ lS.part.emq.count = 0 ∧ areaIn lS.part.ranges 0x1000 4096 = true ∧ areaIn lS.part.ranges 0x1000 8192 = true ∧
    areaIn lS.part.ranges 0x40000000 4096 = false ∧ 0x1000 / 2 ^ 47 = lS.pkg.pkgId ∧
      (2 ^ 47 + 0x1000) / 2 ^ 47 ≠ lS.pkg.pkgId := by decide +kernel

/-- The roles that a write of zbankrole gives (R83). -/
theorem witness_CsrWrites_banks :
    let role (v : Word) (n : Nat) : Nat := if v.toNat / 2 ^ (2 * n) % 2 ^ 2 = 3 then lS.part.bankrole.toNat / 2 ^ (2 * n) % 4 else v.toNat / 2 ^ (2 * n) % 2 ^ 2
    2 ≤ ((List.range 32).filter fun n => role 0x5555555555555550 n = 0).length ∧
    ((List.range 32).filter fun n => role 0x5555555555555554 n = 0).length < 2 := by decide +kernel

/-- The subjects of the clauses for MZ = 1. -/
def subjects : List Instr :=
  [.base none (.alu .add 0 1 2), .base none (.load .lw 1 2 0), .base none (.jal 1 0), .base none (.fcvtToInt .w .s 1 2 7),
   .base none (.farith .add .s 1 2 3 7), .base none (.fload .d 1 2 0), .bldB 1 2 0, .jtab 1 2 3, .bldFh 1 2 0, .wldDirect 1 0, .pand 11 0 1,
   .pcmpEq 11 1 2, .pmvPx 1, .wmv 0 1, .kset 0 1 2, .dmv 0 1, .dld 0 1, .bset 0 1]

theorem witness_PrefixedPairs :
    wT.pfx = none ∧ guardTrue (some ⟨false, 15, 0, 7, false, 0⟩) wT.hart.u = true ∧
      guardTrue (some ⟨false, 11, 0, 7, true, 0⟩) wT.hart.u = false ∧
    predOk 11 = true ∧ subjects.all (fun i => i.plain && privOk i wT && !isCross i) = true ∧ wT.site = .w := by decide +kernel

/-- f1 is a quiet NaN, f2 a signalling one, f3 is 1.0. -/
def sNan : State := withF [(1, 0xFFFFFFFF7FC00000), (2, 0xFFFFFFFF7F800001), (3, 0xFFFFFFFF3F800000)] lU

theorem witness_PredicateResult :
    predOk 11 = true ∧
    ((sNan.fval .s 1).isNan = true ∧ (sNan.fval .s 1).isSnan = false) ∧ (sNan.fval .s 2).isSnan = true ∧ (sNan.fval .s 3).isNan = false := by
  decide +kernel

/-- A jump table at 3000h of two entries: profiles 4204h and FFFFh; x2 the index, x3 the table. -/
def sTab (index target : Nat) : State :=
  withX [(2, BitVec.ofNat 64 index), (3, 0x3000)]
    (put 0x3028 2 0xFFFF (put 0x3020 8 target (put 0x3018 2 0x4204 (put 0x3010 8 target (put 0x3000 4 2 lU)))))

theorem witness_JumpTable_entries :
    (sTab 0 0x9000).myMends = [] ∧ (sTab 0 0x9000).part.hotEn = false ∧ ((sTab 0 0x9000).rx 3).toNat % 16 = 0 ∧
    PlainAccess .load (sTab 0 0x9000) ((sTab 0 0x9000).rx 3) 4 0x3000 ∧
    PlainAccess .load (sTab 0 0x9000) ((sTab 0 0x9000).rx 3 + 16 * ((sTab 0 0x9000).rx 2 + 1)) 16 0x3010 ∧
    PlainAccess .load (sTab 1 0x9000) ((sTab 1 0x9000).rx 3 + 16 * ((sTab 1 0x9000).rx 2 + 1)) 16 0x3020 ∧
    PlainAccess .load (sTab 2 0x9000) ((sTab 2 0x9000).rx 3 + 16 * ((sTab 2 0x9000).rx 2 + 1)) 16 0x3030 := by
  unfold PlainAccess; decide +kernel

theorem witness_JumpTable_cases :
    let fits (prof : BitVec 16) : Prop :=
      profD prof ≤ profD lU.hart.u.zwprof ∧ profW prof ≤ profW lU.hart.u.zwprof ∧ profB prof ≤ profB lU.hart.u.zwprof
    ((withX [(3, 0x3008)] lU).rx 3).toNat % 16 ≠ 0 ∧ (sTab 2 0x9000).memNat 0x3000 4 ≤ ((sTab 2 0x9000).rx 2).toNat ∧
    ((sTab 1 0x9000).rx 2).toNat < (sTab 1 0x9000).memNat 0x3000 4 ∧ (sTab 0 0x9000).memNat 0x3010 8 % 2 = 0 ∧
    (sTab 0 0x9001).memNat 0x3010 8 % 2 = 1 ∧ fits (BitVec.ofNat 16 ((sTab 0 0x9000).memNat 0x3018 2)) ∧
    ¬ fits (BitVec.ofNat 16 ((sTab 1 0x9000).memNat 0x3028 2)) := by decide +kernel

theorem witness_SetStands : SetStands wS := by unfold SetStands State.NamesDistinct; decide +kernel

/-- The mate stands elsewhere: the set is not complete. -/
def wApart : State := withMate (fun u => { u with pc := 0x40 }) wT

theorem witness_CrossLaneIntegerResult :
    SetStands wS ∧ isCross (.gsumI 3 1) = true ∧ wT.converging = false ∧ wApart.hart.id = .wthread 0x100000 ∧
      wApart.hart.car = some (carAt 0) ∧ wApart.setReady = false := by
  unfold SetStands State.NamesDistinct; decide +kernel

theorem witness_SetFits : SetFits wS := by
  have h : wS.hart.car = some { carAt 0 with conv := some 0 } := by decide +kernel
  intro c hc
  cases h.symm.trans hc
  decide +kernel

theorem witness_CrossLaneFpResult : SetStands wS := witness_SetStands

/-- b0: a linear record of four elements of eight bytes at 2000h; b1 an element of four; x1 the index. -/
def sBuf (index : Nat) : State :=
  withUser (fun u => { u with b := (u.b.set 0 0x00000004000000083000000000002000).set 1 0x00000004000000042000000000002000 })
    (withX [(1, BitVec.ofNat 64 index), (3, 0x2000)] lU)

theorem witness_BufferElements :
    let s := sBuf 3
    let va := bufAddr (bufOf (s.rb 0)) (s.rx 1).toNat (setwOf s s.hart) (vlaneOf s s.hart)
    s.Inv ∧ (0 : BReg).toNat < profB s.hart.u.zwprof ∧ (s.rx 1).toNat < (bufOf (s.rb 0)).extent ∧ effRnd s none = some .rne ∧
    ∀ n ∈ [1, 2, 4, 8], PlainAccess .load s va n 0x2018 ∧ PlainAccess .store s va n 0x2018 ∧ InLine va n := by
  unfold State.Inv PlainAccess InLine; decide +kernel

theorem witness_BufferRecords_traps :
    let s := withUser (fun u => { u with zwprof := 0x4204 }) (sBuf 4)
    s.myMends = [] ∧ myTurn s = true ∧ effRnd s none ≠ none ∧ profB s.hart.u.zwprof ≤ (8 : BReg).toNat ∧
    (0 : BReg).toNat < profB s.hart.u.zwprof ∧ (bufOf (s.rb 0)).extent ≤ (s.rx 1).toNat := by decide +kernel

theorem witness_BufferRecords_moves :
    let legal (v : BitVec 128) : Prop := v.extractLsb' 62 2 = 0 ∧ (v.extractLsb' 57 3).toNat < 3
    let s := put 0x2007 1 0x44 (sBuf 0)
    let bad := put 0x2007 1 0x46 (sBuf 0)
    s.Inv ∧ s.myMends = [] ∧ (0 : BReg).toNat < profB s.hart.u.zwprof ∧ (s.rx 3).toNat % 16 = 0 ∧ PlainAccess .load s (s.rx 3) 16 0x2000 ∧
    PlainAccess .store s (s.rx 3) 16 0x2000 ∧ ((withX [(3, 0x2008)] s).rx 3).toNat % 16 ≠ 0 ∧ s.part.hotEn = false ∧
    legal (BitVec.ofNat 128 ((put 0x2007 1 0x34 s).memNat 0x2000 16)) ∧ ¬ legal (BitVec.ofNat 128 (bad.memNat 0x2000 16)) := by
  unfold State.Inv PlainAccess; decide +kernel

theorem witness_BufferAtomicResult :
    let s := sBuf 3
    let va (d : BReg) := bufAddr (bufOf (s.rb d)) (s.rx 1).toNat (setwOf s s.hart) (vlaneOf s s.hart)
    s.Inv ∧ myTurn s = true ∧ (1 : BReg).toNat < profB s.hart.u.zwprof ∧
    ((bufOf (s.rb 0)).esz = 3 ∧ (s.rx 1).toNat < (bufOf (s.rb 0)).extent ∧ (va 0).toNat % 8 = 0 ∧ PlainAccess .store s (va 0) 8 0x2018 ∧
      NoPrivate s 0x2018 8) ∧
    (bufOf (s.rb 1)).esz = 2 ∧ (s.rx 1).toNat < (bufOf (s.rb 1)).extent ∧ (va 1).toNat % 4 = 0 ∧ PlainAccess .store s (va 1) 4 0x200C ∧
    NoPrivate s 0x200C 4 := by
  unfold State.Inv PlainAccess NoPrivate; decide +kernel

/-- b0 a record of elements of 2^esz bytes, plain layout, of the base 2003h when it is odd, else 2000h; x1 the index 3. -/
def sElem (esz : Nat) (odd : Bool) : State :=
  withUser (fun u => { u with b := u.b.set 0 (BitVec.ofNat 128 (4 * 2 ^ 96 + 8 * 2 ^ 64 + esz * 2 ^ 60 + if odd then 0x2003 else 0x2000)) })
    (withX [(1, 3)] lU)

theorem witness_BufferAtomicResult_traps :
    let va (s : State) := bufAddr (bufOf (s.rb 0)) (s.rx 1).toNat (setwOf s s.hart) (vlaneOf s s.hart)
    ∀ s ∈ [sElem 3 true, sElem 1 true, sElem 0 false, sElem 1 false],
      s.Inv ∧ myTurn s = true ∧ s.myMends = [] ∧ (0 : BReg).toNat < profB s.hart.u.zwprof ∧ (s.rx 1).toNat < (bufOf (s.rb 0)).extent ∧
      ((va s).toNat % 2 ^ (bufOf (s.rb 0)).esz ≠ 0 ∨ (va s).toNat % 2 ^ (bufOf (s.rb 0)).esz = 0 ∧ (bufOf (s.rb 0)).esz < 2) := by
  unfold State.Inv; decide +kernel

/-- k0 of forty words from word 0; x1 the index. -/
def sArr (index : Nat) : State := withUser (fun u => { u with k := u.k.set 0 ⟨0, 40⟩, zwprof := 0x4280 }) (withX [(1, BitVec.ofNat 64 index), (2, 40)] lU)

theorem witness_ArrayMoves :
    let s := sArr 39
    s.myMends = [] ∧ (39 : WIdx).toNat < profW s.hart.u.zwprof ∧ (38 : WIdx).toNat + 1 < profW s.hart.u.zwprof ∧
    profW s.hart.u.zwprof ≤ (40 : WIdx).toNat ∧
    ((s.rx 1).toNat < (s.rk 0).len.toNat ∧ (s.rk 0).base.toNat + (s.rx 1).toNat < profW s.hart.u.zwprof ∧
      (s.rk 0).base.toNat + (s.rx 1).toNat < 64) ∧
    ((sArr 40).rk 0).len.toNat ≤ ((sArr 40).rx 1).toNat ∧
    (let t := withUser (fun u => { u with k := u.k.set 0 ⟨1, 40⟩ }) s
     (t.rx 1).toNat < (t.rk 0).len.toNat ∧ profW t.hart.u.zwprof = (t.rk 0).base.toNat + (t.rx 1).toNat ∧
       (t.rk 0).base.toNat + (t.rx 1).toNat < 256) ∧
    profW s.hart.u.zwprof ≤ (39 : WIdx).toNat + 1 ∧
    (((sArr 0).rx 1).toNat ≤ 63 ∧ ((sArr 0).rx 1).toNat + ((sArr 0).rx 2).toNat ≤ profW (sArr 0).hart.u.zwprof) ∧
    ¬ (((sArr 1).rx 1).toNat ≤ 63 ∧ ((sArr 1).rx 1).toNat + ((sArr 1).rx 2).toNat ≤ profW (sArr 1).hart.u.zwprof) := by decide +kernel

/-- A dirty private byte of the region 5000h to 503Fh, bound to the object 2000h. -/
def privAt (who : HartId) (pa : Nat) (dirty : Bool) : PrivByte := ⟨who, pa, pa, 0x11, 0, 0x5000, 0x2000, dirty⟩

/-- The region bound, as a stash region, with a dirty byte of the current thread; x1 the object. -/
def sBound : State :=
  withPart (fun p => { p with bindings := [⟨0, 0x5000, 16, true, 0x2000⟩], priv := [privAt lU.who 0x5001 true], rbtBase := 0x8000, rbtEn := true }) sMem

theorem witness_ReleaseCarriesBytes :
    sBound.Inv ∧ sBound.poison = [] ∧ sBound.hart.dropped = none ∧ Settled sBound 0x2000 ∧
    (∀ x ∈ sBound.carried 0x2000, ¬ (0x2000 ≤ x.pa ∧ x.pa < 0x2000 + 32)) ∧ (sBound.rx 1).toNat % 32 = 0 ∧
    PlainAccess .store sBound (sBound.rx 1) 32 0x2000 ∧ (sBound.rx 2).toNat = 0 ∧ ((withX [(2, 1)] sBound).rx 2).toNat ≠ 0 ∧
    sBound.carried 0x2000 ≠ [] := by
  unfold State.Inv Settled NoPrivate PlainAccess; decide +kernel

theorem witness_AcquireDropsCopies :
    sBound.hart.dropped = none ∧ (sBound.rx 1).toNat % 32 = 0 ∧ PlainAccess .load sBound (sBound.rx 1) 32 0x2000 ∧
    (sBound.rx 2).toNat ≤ (sBound.objWord 0x2000 1).toNat ∧
    ((withX [(2, 1)] sBound).objWord 0x2000 1).toNat < ((withX [(2, 1)] sBound).rx 2).toNat ∧ sBound.hart.resume = none ∧
    (withHart (fun h => { h with resume := some (.barwait 0x2000 1) }) (withX [(2, 1)] sBound)).hart.resume =
      some (.barwait 0x2000 ((withX [(2, 1)] sBound).rx 2)) := by
  unfold PlainAccess; decide +kernel

theorem witness_BarrierObjectWords :
    (sMem.Inv ∧ (sMem.rx 1).toNat % 32 = 0 ∧ PlainAccess .store sMem (sMem.rx 1) 32 0x2000 ∧ PlainAccess .load sMem (sMem.rx 1) 32 0x2000 ∧
      PlainAccess .load sMem (sMem.rx 1 + 8) 8 (0x2000 + 8)) ∧
    ((0 : Word).toNat ≤ (sMem.objWord 0x2000 1).toNat ∧ (sMem.objWord 0x2000 1).toNat < (1 : Word).toNat ∧
      ({ wHart 1 with wait := some (.barwait 0x2000 0) } : Hart).wait = some (.barwait 0x2000 0)) ∧
    (sMem.myMends = [] ∧ sMem.hart.dropped = none ∧ ((withX [(1, 0x201F)] sMem).rx 1).toNat % 32 ≠ 0 ∧ sMem.part.hotEn = false ∧
      (sMem.rx 2).toNat % 16 = 0 ∧ PlainAccess .load sMem (sMem.rx 2) 16 0) ∧
    (withX [(1, 0xFFFF0000000000)] wT).myMends = [] ∧ ((withX [(1, 0xFFFF0000000000)] wT).rx 1).toNat % 32 = 0 ∧
    windowOff ((withX [(1, 0xFFFF0000000000)] wT).rx 1) ≠ none ∧ wT.site = .w ∧ wT.hart.dropped = none := by
  unfold State.Inv PlainAccess; decide +kernel

/-- x1 a binding record of one line at 3000h, x2 the object 2000h; a base and a length. -/
def sBind (base len : Nat) : State := withX [(1, 0x3000), (2, 0x2000)] (put 0x3008 4 len (put 0x3000 8 base sBound))

theorem witness_RegionBindings_sobind :
    let illegal (s : State) : Prop :=
      (BitVec.ofNat 64 (s.memNat 0x3000 8)).toNat % 64 ≠ 0 ∨ s.memNat 0x3008 4 = 0 ∨ 2 ^ 26 < s.memNat 0x3008 4 ∨ 2 ≤ s.memNat 0x300C 4
    let overlaps (s : State) : Prop := ∃ g ∈ s.part.bindings, g.asid = asidOf s.hart ∧
      g.base.toNat < s.memNat 0x3000 8 + 64 * s.memNat 0x3008 4 ∧ s.memNat 0x3000 8 < g.base.toNat + 64 * g.len64
    let full (s : State) : Prop := s.part.rbtEn = false ∨ 1024 ≤ s.part.bindings.length
    let s := sBind 0x5400 1
    (s.hart.dropped = none ∧ (s.rx 1).toNat % 16 = 0 ∧ (s.rx 2).toNat % 32 = 0 ∧ PlainAccess .load s (s.rx 1) 16 0x3000 ∧
      PlainAccess .load s (s.rx 2) 32 0x2000) ∧
    illegal (sBind 0x5400 0) ∧ illegal (sBind 0x5401 1) ∧ (¬ illegal (sBind 0x53C0 1) ∧ overlaps (sBind 0x53C0 1)) ∧
    (¬ illegal s ∧ ¬ overlaps s ∧ ¬ full s) ∧ full (withPart (fun p => { p with rbtEn := false }) s) := by
  unfold PlainAccess; decide +kernel

theorem witness_RegionBindings_sounbind :
    let s := withX [(1, 0x5000), (2, 0x2000)] sBound
    let matching (g : Binding) : Prop := g.asid = asidOf s.hart ∧ g.base = s.rx 1 ∧ g.obj = 0x2000
    s.hart.dropped = none ∧ (s.rx 2).toNat % 32 = 0 ∧ PlainAccess .store s (s.rx 2) 32 0x2000 ∧ (∃ g ∈ s.part.bindings, matching g) ∧
    (∀ g ∈ s.part.bindings, ∀ h ∈ s.part.bindings, matching h → h = g) ∧
    (∀ g ∈ (withPart (fun p => { p with bindings := [] }) s).part.bindings, ¬ matching g) ∧
    (s.Inv ∧ s.poison = [] ∧ Settled s 0x2000 ∧ s.part.teams = [] ∧ ∃ p ∈ s.part.priv, p.dirty = true ∧ p.who = s.who ∧ p.obj = 0x2000) ∧
    ∀ p ∈ s.part.priv, ¬ (0x2000 ≤ p.pa ∧ p.pa < 0x2000 + 32) := by
  unfold State.Inv Settled NoPrivate PlainAccess; decide +kernel

/-- The second thread of wT waits. -/
def wWait (w : Wait) (f : Hart → Hart) (s : State) : State :=
  { s with harts := s.harts.map fun h => if h.id = .wthread 0x100800 then { f h with wait := some w } else h }

theorem witness_MonitorWatchAndWakes :
    (PlainAccess .load sMem (sMem.rx 1) 1 0x2000 ∧ sMem.hart.watch = none ∧
      (withHart (fun h => { h with watch := some ⟨64, true⟩ }) sMem).hart.watch = some ⟨64, true⟩) ∧
    ∀ b : Bool, ((wWait .mwait (fun h => { h with watch := some ⟨64, b⟩ }) wT).hart? (.wthread 0x100800)).map (fun x => (x.wait, x.watch)) =
      some (some .mwait, some ⟨64, b⟩) := by
  unfold PlainAccess; decide +kernel

theorem witness_WaitsEnd :
    (∀ w ∈ [Wait.barwait 0x2000 1, .tbar 15, .xcwait 0, .xcfence, .copyRoom [], .drain, .mxwait 0, .pressIdle 0 0, .mendRoom, .pressRoom, .obres []],
      ∃ x, (wWait w id wT).hart? (.wthread 0x100800) = some x ∧ x.wait = some w ∧ x.car = some (carAt 1)) ∧
    (wT.barView (.wthread 0x100800) 15).isSome = true ∧ (wT.wcore? 0).isSome = true := by
  refine ⟨fun w hw => ⟨{ wHart 1 with wait := some w }, ?_, rfl, rfl⟩, by decide +kernel, by decide +kernel⟩
  simp only [List.mem_cons, List.mem_nil_iff, or_false] at hw
  rcases hw with rfl | rfl | rfl | rfl | rfl | rfl | rfl | rfl | rfl | rfl | rfl <;> rfl

/-- A copy request record at 3000h: one row of eight bytes from 4000h to 5000h on channel 2; x1 names it. -/
def sCopy (s : State) : State :=
  withX [(1, 0x3000)] (put 0x3028 1 2 (put 0x3014 4 8 (put 0x3010 4 1 (put 0x3008 8 0x5000 (put 0x3000 8 0x4000 s)))))

/-- The request that the record stands for, of the current thread of lU, and a channel of the L-core engine that holds it. -/
def reqAt (row : Nat) : Req :=
  { seq := 1, who := lU.who, mode := .u, sum := false, mxr := false, satp := 0, asid := 0, src := 0x4000, dst := 0x5000, rows := 1, rowlen := 8
    spitch := 0, dpitch := 0, barrier := 0, row := row, olds := [], out := [] }

/-- s with requests on channel 2 of the engine of the L-core 0. -/
def withQueue (f : Chan → Chan) (s : State) : State := withPart (fun p => { p with lce := p.lce.map fun e => e.set 2 (f e[2]) }) s

theorem witness_CopyRequests_xcopy :
    let s := sCopy lU
    let full := sCopy (withQueue (fun c => { c with queue := List.replicate 256 (reqAt 0) }) lU)
    s.hart.dropped = none ∧ s.myMends = [] ∧ ((withX [(1, 0x3020)] s).rx 1).toNat % 64 ≠ 0 ∧ (s.rx 1).toNat % 64 = 0 ∧
    PlainAccess .load s (s.rx 1) 64 0x3000 ∧ s.part.hotEn = false ∧ reqLegal s (s.bytes 0x3000 64) = true ∧
    reqLegal (put 0x3028 1 16 s) ((put 0x3028 1 16 s).bytes 0x3000 64) = false ∧ s.inFlight (engineOf s.hart) < 256 ∧
    (s.chan? (engineOf s.hart) (recNat (s.bytes 0x3000 64) 40 1)).isSome = true ∧
    reqLegal full (full.bytes 0x3000 64) = true ∧ 256 ≤ full.inFlight (engineOf full.hart) ∧ s.hart.resume = none ∧
    (withHart (fun h => { h with resume := some (.copyRoom (s.bytes 0x3000 64)) }) full).hart.resume = some (.copyRoom (s.bytes 0x3000 64)) := by
  unfold PlainAccess; decide +kernel

theorem witness_CopyRequests_tickets :
    let ticket : Word := 256 * 2 ^ 48 + 18
    let pending := withX [(1, ticket)] (withQueue (fun c => { c with seq := 1, queue := [reqAt 0] }) lU)
    let ended := withX [(1, ticket)] (withQueue (fun c => { c with seq := 1, status := [(1, 0)] }) lU)
    let fault : CopyFault := ⟨lU.who, 0x5000, 1, false, [1]⟩
    let faulted := withX [(1, ticket)] (withQueue (fun c => { c with seq := 1, status := [(1, 1)], faults := [fault] }) lU)
    pending.copyStatus (pending.rx 1) = 4 ∧ pending.copyPending pending.who = true ∧ ended.copyStatus (ended.rx 1) = 0 ∧
    ended.copyPending ended.who = false ∧ (∀ x ∈ ended.chansAll, ∀ f ∈ x.2.2.faults, f.who = ended.who → f.reported = true) ∧
    faulted.copyStatus (faulted.rx 1) = 1 ∧ faulted.unreported (faulted.rx 1) = some fault ∧ faulted.myMends = [] ∧
    faulted.copyPending faulted.who = false ∧
    oldestFault (faulted.chansAll.flatMap fun x => x.2.2.faults.filter fun g => g.who == faulted.who &&
      !g.reported) = some fault := by decide +kernel

theorem witness_CopyRowAndCompletion :
    let s := withQueue (fun c => { c with seq := 1, queue := [reqAt 0] }) lU
    let r := reqAt 0
    let done := withQueue (fun c => { c with seq := 1, queue := [reqAt 1] }) lU
    s.Inv ∧ (s.chan? 256 2).map Chan.queue = some [r] ∧ s.engineRuns 256 = true ∧ r.row < r.rows ∧ 0 < r.rowlen ∧
    r.src.toNat % 4096 + r.rowlen ≤ 4096 ∧ r.dst.toNat % 4096 + r.rowlen ≤ 4096 ∧ windowOff r.src = none ∧ windowOff r.dst = none ∧
    s.part.bindings = [] ∧ s.part.priv = [] ∧ s.poison = [] ∧ s.part.hotEn = false ∧ r.olds = [] ∧
    walkOf s r.xmode .load r.src = .ok 0x4000 none ∧ walkOf s r.xmode .store r.dst = .ok 0x5000 none ∧ s.physOk 0x4000 r.rowlen = true ∧
    s.physOk 0x5000 r.rowlen = true ∧ s.inTable 0x5000 r.rowlen = false ∧ 0x4000 + r.rowlen ≤ 0x5000 ∧
    (done.chan? 256 2).map Chan.queue = some [reqAt 1] ∧ (reqAt 1).rows ≤ (reqAt 1).row ∧ (reqAt 1).barrier = 0 ∧
    (let named := { reqAt 1 with barrier := 0x2000 }
     let u := withQueue (fun c => { c with seq := 1, queue := [named] }) lU
     (u.chan? 256 2).map Chan.queue = some [named] ∧ named.rows ≤ named.row ∧ named.barrier ≠ 0 ∧ 0 < named.rows * named.rowlen ∧
       walkOf u named.xmode .store named.barrier = .ok 0x2000 none ∧ u.physOk 0x2000 32 = true ∧ u.inTable 0x2000 32 = false ∧
       u.poison = [] ∧ u.bindingAt named.asid named.barrier.toNat = none) := by
  unfold State.Inv; decide +kernel

theorem witness_Resides : Resides wT 0 (WCore.init 0) :=
  ⟨⟨0x100000, carAt 0, by decide +kernel, by decide +kernel, by decide +kernel⟩, by decide +kernel⟩

/-- A stash map record at 3000h: a span of 128 bytes and an offset; x1 names it. The region 5000h to 53FFh is bound as a stash region. -/
def wMap (base off : Nat) (windows : List Window) : State :=
  withX [(1, 0x3000)]
    (put 0x300C 4 off (put 0x3008 4 128 (put 0x3000 8 base
      (withPart (fun p => { p with bindings := [⟨0, 0x5000, 16, true, 0x2000⟩], teams := [{ team1 with windows := windows }] }) wT))))

/-- A window meets the bytes 5000h to 507Fh. -/
def windowAt (num : Nat) : Window := ⟨num, 0x5000, 128, 0x100000, 0x2000, 0, []⟩

theorem witness_StashWindows :
    let bad (s : State) : Prop := s.memNat 0x3000 8 % 128 ≠ 0 ∨ s.memNat 0x3008 4 % 128 ≠ 0 ∨ s.memNat 0x3008 4 = 0 ∨
      s.memNat 0x300C 4 % 128 ≠ 0 ∨ stashRange s (s.memNat 0x300C 4) (s.memNat 0x3008 4) = false
    let covered (s : State) : Prop := ∃ g ∈ s.part.bindings, g.asid = asidOf s.hart ∧ g.stash = true ∧ g.base.toNat ≤ s.memNat 0x3000 8 ∧
      s.memNat 0x3000 8 + s.memNat 0x3008 4 ≤ g.base.toNat + 64 * g.len64
    let taken (s : State) : Prop := ∃ x ∈ [windowAt 0], overlap x.base.toNat x.len (s.memNat 0x3000 8) (s.memNat 0x3008 4) = true
    let s := wMap 0x5380 0x100080 []
    let t := wMap 0x5000 0x100080 [windowAt 0]
    ((s.rx 1).toNat % 16 = 0 ∧ PlainAccess .load s (s.rx 1) 16 0x3000) ∧ (withPart (fun p => { p with members := [] }) s).memberOf s.who = none ∧
    (s.memberOf s.who).isSome = true ∧ (s.team? 1).isSome = true ∧ ¬ bad s ∧ covered s ∧ bad (wMap 0x5380 0x0 []) ∧
    (¬ bad (wMap 0x5400 0x100080 []) ∧ ¬ covered (wMap 0x5400 0x100080 [])) ∧ (¬ bad t ∧ covered t ∧ taken t) ∧
    (overlap 0x100000 128 0x100080 128 = false ∧ 16 ≤ ((List.range 16).map windowAt).length) ∧
    ((withX [(1, 0)] s).myWindow 0 = none ∧ (t.myWindow 0).isSome = true) := by
  unfold PlainAccess; decide +kernel

theorem witness_StashWindows_dirty :
    let x : Window := { windowAt 0 with granules := [⟨0, 0x5000, [(1, .wthread 0x100000), (2, .wthread 0x100800)], []⟩] }
    let s := wMap 0x5000 0x100080 [x]
    let dirtyOf (ws : List Window) : List (Nat × Byte) :=
      ws.flatMap fun x => x.granules.flatMap fun g => g.dirty.map fun o => (g.pa + o.1, (WCore.init 0).sramByte (x.off + 128 * g.idx + o.1))
    s.Inv ∧ s.poison = [] ∧ team1.wcore = 0 ∧ (s.wcore? 0) = some (WCore.init 0) ∧ (s.myWindow 0).map Prod.snd = some x ∧
    dirtyOf [x] = [(0x5001, 0), (0x5002, 0)] := by
  unfold State.Inv; decide +kernel

/-- A reservation of 1000h bytes at 300000h, held or releasing. -/
def resvAt (releasing : Bool) : Resv := ⟨0x300000, 0x1000, 4, false, false, 0, 0, releasing⟩

/-- An OBRES record at 3000h of 1000h bytes at a base; x1 names it; the reservations of the core. -/
def wObres (base : Nat) (l : Vector (Option Resv) 32) : State :=
  withX [(1, 0x3000)]
    (put 0x3008 1 4 (put 0x3004 4 0x1000 (put 0x3000 4 base (withCore (fun c => { c with press := { c.press with resvs := l } }) wT))))

theorem witness_OperandBufferReservation :
    let none' : Vector (Option Resv) 32 := Vector.replicate 32 none
    let rec' (s : State) : ObRec := obRecOf (s.bytes 0x3000 16)
    let press (s : State) : Option Press := (s.wcore? 0).map WCore.press
    let meets (s : State) (rel : Bool) : Option Bool := (press s).map fun p => p.overlaps rel (resvLin (rec' s).base) (rec' s).len
    let s := wObres 0x300000 none'
    ((s.rx 1).toNat % 16 = 0 ∧ PlainAccess .load s (s.rx 1) 16 0x3000 ∧ obLegal s (rec' s) = true ∧ meets s false = some false ∧
      meets s true = some false) ∧
    obLegal (wObres 0x100000 none') (rec' (wObres 0x100000 none')) = false ∧
    meets (wObres 0x300000 (none'.set 31 (some (resvAt false)))) false = some true ∧
    (meets (wObres 0x300000 (none'.set 31 (some (resvAt true)))) false = some false ∧
      meets (wObres 0x300000 (none'.set 31 (some (resvAt true)))) true = some true) ∧
    (meets (wObres 0x320000 (Vector.replicate 32 (some (resvAt false)))) false = some false ∧
      meets (wObres 0x320000 (Vector.replicate 32 (some (resvAt false)))) true = some false ∧
      ∀ i : Fin 32, (Vector.replicate 32 (some (resvAt false)))[i] ≠ none) ∧
    (s.hart.resume = none ∧ (withHart (fun h => { h with resume := some (.obres (s.bytes 0x3000 16)) }) s).hart.resume =
      some (.obres (s.bytes 0x3000 16))) ∧
    ((withX [(1, 31)] wT).rx 1).toNat = (31 : Fin 32).val ∧ (resvAt false).releasing = false ∧ wT.myMends = [] ∧
    (((withX [(1, 0x3008)] s).rx 1).toNat % 16 ≠ 0 ∧ (withX [(1, 0x3008)] s).myMends = []) := by
  unfold PlainAccess; decide +kernel

/-- A parameter block at 100000h of the SRAM of the W-core 0: weight reservation, rows, columns and destination as an MXTOPK reads them. -/
def wBlock (b : Nat) : State :=
  withX [(1, 0x100000)]
    (withCore (fun c =>
      { c with
        sram := sparseSets 0#8 [] 0x100000 (natLe 64 b)
        press := { c.press with resvs := c.press.resvs.set 0 (some ⟨0x300000, 0x10000, 4, false, false, 0, 0, false⟩) } }) wT)

/-- The block's verdict. -/
def verdict (s : State) (kind : CmdKind) : Option (Except (Nat × Nat) (Option Resv)) :=
  (s.wcore? 0).map fun c => judge (s.viewOf 0 c.press) c.press kind (blkOf ((List.range 64).map fun i => c.sramByte (0x100000 + i)))

/-- Sixty-four commands queued. -/
def wFull : State :=
  withCore (fun c => { c with press := { c.press with queue := (List.range 64).map fun n => ⟨.swap, n, 0, Blk.none, 0, none, 0, [], [], false⟩ } }) wT

theorem witness_PressCommandIssue_blocks :
    let s := wBlock 0
    (myTurn s = true ∧ s.lowerLane 0 = false) ∧ s.myMends = [] ∧ (s.wcore? 0).map (fun c => decide (c.press.queue.length < 64)) = some true ∧
    (wFull.wcore? 0).map (fun c => decide (c.press.queue.length < 64)) = some false ∧ blockOk s (s.rx 1) = true ∧
    blockOk s 0x100020 = false ∧ blockOk s 0x300000 = false ∧ firstReserved (natLe 64 0) = none ∧
      firstReserved (natLe 64 (2 ^ 511)) = some 63 := by
  decide +kernel

/-- A group of both threads in the slot 3. -/
def wSlot (todo : List Nat) (ending : Bool) : State :=
  withCore (fun c => { c with slots := c.slots.set 3 (some ⟨[0x100000, 0x100800], todo, ending, 0, []⟩) }) wT

theorem witness_PressCommandIssue_turn :
    let s := wSlot [0x100000, 0x100800] false
    let mate := s.focus (.wthread 0x100800)
    let stalled := (withHart (fun h => { h with wait := some .pressRoom }) (wSlot [0x100800] false)).focus (.wthread 0x100800)
    myTurn s = true ∧ s.lowerLane 0 = false ∧
    (∀ t ∈ [mate, stalled], t.hart.id = .wthread 0x100800 ∧ t.myMends = [] ∧ t.hart.car = some (carAt 1) ∧ (t.wcore? 0).isSome = true) ∧
    myTurn mate = false ∧ mate.lowerLane 0 = false ∧ stalled.lowerLane 0 = true := by decide +kernel

/-- A block of m rows from row0, of ncnt columns, of kcnt columns along K, that selects k of each row; its destination tile is 3, its source
tile 0. -/
def blockNat (m row0 ncnt kcnt k woff : Nat) : Nat :=
  3 * 2 ^ 16 + m * 2 ^ 32 + row0 * 2 ^ 48 + kcnt * 2 ^ 80 + ncnt * 2 ^ 112 + woff * 2 ^ 224 + k * 2 ^ 264

/-- s with the Press of the W-core 0 changed. -/
def withPress (f : Press → Press) (s : State) : State := withCore (fun c => { c with press := f c.press }) s

/-- The active plane holds INT8 weights. -/
def armed (p : Press) : Press := { p with active := { p.active with desc := ⟨true, 4, 0, false, false⟩ } }

/-- Whether the block is accepted for a kind of command. -/
def accepted (s : State) (kind : CmdKind) : Option Bool := (verdict s kind).map fun v => match v with | .ok _ => true | .error _ => false

theorem witness_PressCommandIssue_verdicts :
    let good := withPress armed (wBlock (blockNat 1 127 256 256 16 0))
    let bad := withPress armed (wBlock (blockNat 0 0 256 256 16 1))
    ([CmdKind.ldw, .strm, .sqd, .topk].map (accepted good) = List.replicate 4 (some true)) ∧
    ([CmdKind.ldw, .strm, .sqd, .topk].map (accepted bad) = List.replicate 4 (some false)) ∧
    firstReserved (natLe 64 (blockNat 1 127 256 256 16 0)) = none ∧ firstReserved (natLe 64 (blockNat 0 0 256 256 16 1)) = none := by
  decide +kernel

/-- A queued command of a kind: two rows from row0, into the tile 3. -/
def cmdOf (kind : CmdKind) (row0 : Nat) (r : Option Resv) : Cmd :=
  ⟨kind, 1, 1, blkOf (natLe 64 (blockNat 2 row0 256 16 16 0)), 0x100000, r, 0, [], [], false⟩

/-- s with one command queued. -/
def withCmd (k : Cmd) (s : State) : State := withPress (fun p => { p with queue := [k], seq := 1, issued := 1 }) s

/-- The Press of the W-core 0. -/
def pressOf (s : State) : Press := ((s.wcore? 0).map WCore.press).getD Press.init

theorem witness_PressReads :
    let s := withX [(1, 3), (2, 0x7FFF)] wT
    let busy := withX [(1, 3), (2, 0x7FFF)] (withCmd (cmdOf .topk 126 none) wT)
    let ticket := withX [(1, 1)] busy
    let none' := withX [(1, 4)] wT
    Resides wT 0 (WCore.init 0) ∧ ticket.pressStatus (ticket.rx 1) = 4 ∧ s.pressStatus (s.rx 1) ≠ 4 ∧ (s.rx 1).toNat < 4 ∧
    (s.rx 2).toNat < 2 ^ 15 ∧ (pressOf s).pending 3 127 (pressOf s).issued = false ∧ (pressOf s).inUse 3 (pressOf s).issued = false ∧
    (pressOf busy).pending 3 127 (pressOf busy).issued = true ∧ (pressOf busy).inUse 3 (pressOf busy).issued = true ∧
    4 ≤ (none'.rx 1).toNat ∧ none'.myMends = [] ∧ s.myMends = [] ∧ 2 ^ 15 ≤ ((withX [(2, 0x8000)] s).rx 2).toNat :=
  ⟨witness_Resides, by decide +kernel⟩

theorem witness_PressWaitCompletes :
    let busy := withCmd (cmdOf .topk 126 none) wT
    (∀ w ∈ [Wait.acrdRow false 3 3 127 255 1 4, .acrdRow true 3 3 127 255 1 4, .aczero 3 1 4],
      ∃ x, (wWait w id wT).hart? (.wthread 0x100800) = some x ∧ x.wait = some w ∧ x.car = some (carAt 1)) ∧
    wT.clockStopped 0 = false ∧ (carAt 1).core = 0 ∧ (carAt 1).free = true ∧ (carAt 1).active = true ∧ (pressOf wT).pending 3 127 1 = false ∧
    (pressOf wT).inUse 3 1 = false ∧ (pressOf busy).pending 3 127 1 = true ∧ (pressOf busy).inUse 3 1 = true := by
  refine ⟨fun w hw => ⟨{ wHart 1 with wait := some w }, ?_, rfl, rfl⟩, by decide +kernel⟩
  simp only [List.mem_cons, List.mem_nil_iff, or_false] at hw
  rcases hw with rfl | rfl | rfl <;> rfl

theorem witness_PressCommandsAct :
    let r : Resv := ⟨0x300000, 0x10000, 4, false, false, 0, 0, false⟩
    let ready (k : Cmd) (sel : CmdKind → Bool) : Prop :=
      (withCmd k (withPress armed wT)).readyCmd 0 sel = some k ∧ ∀ j ∈ (pressOf (withCmd k (withPress armed wT))).queue, j.no = k.no → j = k
    ready (cmdOf .ldw 0 (some r)) (· == .ldw) ∧ ready (cmdOf .swap 0 none) (· == .swap) ∧
    ready (cmdOf .strm 126 (some r)) (fun j => j == .strm || j == .sqd) ∧ ready (cmdOf .sqd 126 (some r)) (fun j => j == .strm || j == .sqd) ∧
    ready (cmdOf .topk 126 none) (· == .topk) ∧
    (let k := cmdOf .topk 126 none
     k.taint = [] ∧ k.stale = [] ∧ k.blk.dt < 4 ∧ k.blk.dt ≠ k.blk.st ∧ k.row + 1 < k.blk.m ∧ k.blk.k ≤ 16 ∧
       k.blk.nbase + k.blk.ncnt ≤ 256 ∧ sparseWf 0#32 ((pressOf wT).tile k.blk.dt).cells = true) ∧
    (∀ kind ∈ [CmdKind.strm, .sqd, .topk], let k := { cmdOf kind 126 (some r) with row := 1 }
      ready k (fun j => j == kind) ∧ k.row + 1 = k.blk.m ∧ wT.role ((k.blkOff + 34) / 0x20000) ≠ 2) ∧
    (∀ v : Fin 32, ∀ x ∈ (pressOf (withCmd (cmdOf .strm 126 (some r)) wT)).resvs[v], x.releasing = false) := by
  decide +kernel

theorem witness_PressCommandsAct_behind :
    let r : Resv := ⟨0x300000, 0x10000, 4, false, false, 0, 0, false⟩
    let later (kind : CmdKind) : Cmd := { cmdOf kind 0 (some r) with no := 2, seq := 2 }
    let s (kind : CmdKind) : State := withPress (fun p => { p with queue := [cmdOf .topk 126 none, later kind], seq := 2, issued := 2 }) wT
    (s .ldw).readyCmd 0 (· == .ldw) = some (later .ldw) ∧ (s .swap).readyCmd 0 (· == .swap) = some (later .swap) := by decide +kernel

/-- x1 names an image of zeros at 100000h. -/
def sImage : State := withX [(1, 0x100000)] (withPart (fun p => { p with wcores := [WCore.init 0] }) lS)


/-- The same with a reserved byte of the image set. -/
def sImageBad : State := put 0x100002 1 1 sImage

/-- The image that MXREST reads of a memory. -/
def imageOf (s : State) : Array Byte := ((List.range (225 * 4096)).map fun i => s.byte (0x100000 + i)).toArray

theorem getD_range (f : Nat → Byte) (n i : Nat) : (((List.range n).map f).toArray.getD i 0 : Byte) = if i < n then f i else 0 := by
  by_cases h : i < n <;> simp [h]

theorem imageBad_of_zeros (l : Array Byte) (h : ∀ i, l.getD i 0 = 0) : imageBad l = false := by
  simp only [imageBad, descBad, kindAt, h]; decide +kernel

theorem witness_PressImage_legal : imageBad (imageOf sImage) = false := by
  refine imageBad_of_zeros _ fun i => ?_
  have h : sImage.mem = [] := by decide +kernel
  rw [imageOf, getD_range]
  split <;> simp [State.byte, h, sparseGet]

theorem witness_PressImage_illegal : imageBad (imageOf sImageBad) = true := by
  have h2 : (imageOf sImageBad).getD 2 0 = 1 := by
    rw [imageOf, getD_range]; decide +kernel
  simp only [imageBad, Bool.or_eq_true, List.any_eq_true]
  exact .inr ⟨2, List.mem_range.mpr (by decide), by rw [h2]; decide⟩

theorem witness_PressImage :
    (sImage.Inv ∧ sImage.hart.id = .lcore 0 ∧ sImage.hart.sup.mode = .s ∧ field sImage.hart.sup.satp 60 4 = 0 ∧
      ((withX [(1, 8)] sImage).rx 1).toNat % 4096 ≠ 0 ∧ (sImage.rx 1).toNat % 4096 = 0 ∧
      sImage.wcore? (sImage.memNat (sImage.rx 1).toNat 2) = some (WCore.init 0) ∧ (WCore.init 0).press.queue = [] ∧ sImage.poison = [] ∧
      sImage.part.bindings = [] ∧ (sImage.rx 1).toNat + 225 * 4096 ≤ 0xFFFF0000000000 ∧ sImage.part.hotEn = false ∧
      ((withCmd (cmdOf .swap 0 none) sImage).hart.resume = none ∧
        ((withCmd (cmdOf .swap 0 none) sImage).wcore? 0).map (fun c => c.press.queue.any fun k => k.no ≤ c.press.issued) = some true) ∧
      (∀ s ∈ [lU, lM], s.hart.id = .lcore 0 ∧ field s.hart.sup.satp 60 4 = 0 ∧ s.hart.sup.mode ≠ .s) ∧
      sImageBad.Inv ∧ sImageBad.wcore? (sImageBad.memNat (sImageBad.rx 1).toNat 2) = some (WCore.init 0)) ∧
    ∀ s ∈ [sImage, sImageBad], ∀ i n, 0 < n → i + n ≤ 225 * 4096 → s.physOk (0x100000 + i) n = true ∧ s.inTable (0x100000 + i) n = false := by
  refine ⟨by unfold State.Inv; decide +kernel, fun s hs i n hn h => ?_⟩
  have hr : s.part.ranges = [(0, 2 ^ 30)] ∧ s.pkg.unreachable = [] ∧ s.part.rbtEn = false := by
    simp only [List.mem_cons, List.mem_nil_iff, or_false] at hs
    rcases hs with rfl | rfl <;> decide +kernel
  constructor
  · have h1 : (0x100000 + i) / 2 ^ 47 = 0 := by omega
    have h2 : (0x100000 + i + n - 1) / 2 ^ 47 = 0 := by omega
    simp only [State.physOk, hr, spanIn, inRanges, inTier, h1, h2]; simp; omega
  · simp [State.inTable, hr]

theorem witness_FloatArithmetic :
    fsOn sNan = true ∧ effRnd sNan (some 7) = some .rne ∧ effRnd sNan (some 1) = some .rtz ∧
    (∀ q : FReg, q = 1 ∨ q = 2 ∨ q = 3 → ((sNan.fval .s q).isNan = true ↔ q ≠ 3) ∧ ((sNan.fval .s q).isSnan = true ↔ q = 2)) ∧
    fpEq (sNan.fval .s 3) (sNan.fval .s 3) = true ∧ fpLt (sNan.fval .s 3) (sNan.fval .s 3) = false ∧
    fpLt ((withF [(4, 0xFFFFFFFF00000000)] sNan).fval .s 4) (sNan.fval .s 3) = true ∧
    (let s := withF [(4, 0xFFFFFFFF00000000), (5, 0xFFFFFFFF80000000)] sNan
     fpLt (s.fval .s 5) (s.fval .s 4) = false ∧ fpEq (s.fval .s 5) (s.fval .s 4) = true ∧ (s.fval .s 5).neg = true ∧
       (s.fval .s 4).neg = false) := by
  refine ⟨by decide +kernel, by decide +kernel, by decide +kernel, fun q h => ?_, by decide +kernel⟩
  rcases h with rfl | rfl | rfl <;> decide +kernel

/-- ZEXP slot 14 holds one input or nothing. -/
def sSlot (z : Word) : State := withUser (fun u => { u with zexp := u.zexp.set 14 z }) lU

theorem witness_FusedExpression :
    slotOk (slotTokens ((sSlot 1).hart.u.zexp[14])) 0 0 false = true ∧ slotOk (slotTokens ((sSlot 0).hart.u.zexp[14])) 0 0 false = false ∧
    (sSlot 0).myMends = [] ∧ effRnd (sSlot 1) none = some .rne := by decide +kernel

theorem witness_FormatConversions :
    let s := withF [(4, 0xFFFFFFFF7F800000), (5, 0xFFFFFFFFFF800000)] sNan
    effRnd s none = some .rne ∧ unpack fp32 (s.dazCode .s (s.fs 1)) = .nan false ∧ unpack fp32 (s.dazCode .s (s.fs 2)) = .nan true ∧
    unpack fp32 (s.dazCode .s (s.fs 4)) = .inf false ∧ unpack fp32 (s.dazCode .s (s.fs 5)) = .inf true := by decide +kernel

/-- d0 and d1 in R-form with one tag, d2 in Q-form with the same tag, d3 in Q-form with another; zdctl. -/
def sDist (dxt : BitVec 1) : State :=
  withUser
    (fun u =>
      { u with
        d := (((u.d.set 0 { Dist.zero with tag := 4, form := true }).set 1 { Dist.zero with tag := 4, form := true }).set 2
          { Dist.zero with tag := 4 }).set 3 { Dist.zero with tag := 8 }
        zdctl := dxt }) lU

theorem witness_DistributionResult :
    let s := sDist 1
    let joint (x y : Dist) : Prop := x.form = true ∧ y.form = true ∧ x.tag = y.tag ∧ x.tag ≠ 0
    effRnd s none = some .rne ∧ (7 : DReg).toNat < profD s.hart.u.zwprof ∧ joint (s.rd 0) (s.rd 1) ∧
    (¬ joint (s.rd 0) (s.rd 3) ∧ (s.rd 0).tag &&& (s.rd 3).tag = 0) ∧ (¬ joint (s.rd 0) (s.rd 2) ∧ (s.rd 0).tag &&& (s.rd 2).tag ≠ 0) ∧
    s.hart.u.zdctl = 1 ∧ (sDist 0).hart.u.zdctl = 0 ∧ s.myMends = [] ∧ mixMass 0x3F000000 = some 32768 ∧ mixMass 0xBF000000 = none ∧
    (s.rd 0).form = ((1 : BitVec 1) == 1) ∧ (s.rd 0).form = true ∧ (s.rd 2).form = false := by decide +kernel

/-- x1 names an image of eight weights w at 2000h. -/
def sDld (w : Nat) : State :=
  put 0x2020 16 (w * (1 + 2 ^ 16 + 2 ^ 32 + 2 ^ 48 + 2 ^ 64 + 2 ^ 80 + 2 ^ 96 + 2 ^ 112)) (withUser (fun u => { u with zwprof := 0x8404 }) sMem)

theorem witness_DistributionTransfer :
    let s := sDld 8192
    let weight (s : State) (i : Nat) : Nat := s.memNat (0x2000 + 32 + 2 * i) 2
    let legal (s : State) : Prop :=
      if s.memNat (0x2000 + 50) 1 % 2 = 1 then ∀ i, i < 8 → weight s i = 8192 else ((List.range 8).map (weight s)).sum = 65536
    s.Inv ∧ profD s.hart.u.zwprof ≤ (4 : DReg).toNat ∧ s.myMends = [] ∧ (3 : DReg).toNat < profD s.hart.u.zwprof ∧
    ((withX [(1, 0x2020)] s).rx 1).toNat % 64 ≠ 0 ∧ (s.rx 1).toNat % 64 = 0 ∧ PlainAccess .load s (s.rx 1) 64 0x2000 ∧
    PlainAccess .store s (s.rx 1) 64 0x2000 ∧ legal s ∧ legal (put 0x2032 1 1 s) ∧ ¬ legal (sDld 8191) ∧ ¬ legal (put 0x2032 1 1 (sDld 8191)) ∧
    (sDld 8191).part.hotEn = false ∧
    (s.split = 0 ∧ { s with split := 0x81 }.split ≠ 0 ∧
      (∀ i ∈ List.range 8, walkOf s (xmodeOf s.hart .store) .store (s.rx 1 + BitVec.ofNat 64 (8 * i)) = .ok (0x2000 + 8 * i) none) ∧
      (go (.dst 3 1) s).isSome = true) := by
  unfold State.Inv PlainAccess; decide +kernel

/-- A task of number idx, in a state, with a count and with the object 2000h as input 0. -/
def taskOf (idx : Nat) (state : TaskState) (count consumed : Nat) : Task :=
  { idx := idx, gen := 1, state := state, count := count, decr := false, runs := 0
    desc := ⟨0x9000, 7, 0, 0, 0, false, 0, 5, 0x4000, 1⟩
    inputs := (Vector.replicate 8 none).set 0 (some ⟨0x2000, some 0x2000, consumed⟩), marked := false, inSet := true, stamp := 0 }

/-- The handle of the task of number idx. -/
def handleOf (idx : Nat) : Nat := 2 ^ 18 + idx

/-- x1 names a descriptor at 2000h; the partition has two tasks. -/
def sSpawn (l : List Task) (deps : Nat) : State := put 0x2020 2 deps (withTasks l (withPart (fun p => { p with tasks := 2 }) sMem))

theorem witness_TaskRequests_spawn :
    let live (s : State) (i : Nat) : Prop := ∃ e ∈ s.part.rm.tasks, e.live = true ∧ e.idx = i
    let s := sSpawn [taskOf 0 .ready 0 0] 0
    let full := sSpawn [taskOf 0 .ready 0 0, taskOf 1 .ended 0 0] 0
    s.rmFree ∧ s.myMends = [] ∧ s.hart.dropped = none ∧ ((withX [(1, 0x2040)] s).rx 1).toNat % 128 ≠ 0 ∧ (s.rx 1).toNat % 128 = 0 ∧
    PlainAccess .load s (s.rx 1) 128 0x2000 ∧ descLegal (s.bytes 0x2000 128) = true ∧
    descLegal ((put 0x2050 1 1 s).bytes 0x2000 128) = false ∧
    (descLegal (full.bytes 0x2000 128) = true ∧ ∀ i, i < full.part.tasks → live full i) ∧
    (1 < s.part.tasks ∧ ¬ live s 1 ∧ ∀ j, j < 1 → live s j) := by
  unfold State.rmFree PlainAccess; decide +kernel

theorem witness_TaskRequests_handles :
    let s := withX [(1, BitVec.ofNat 64 (handleOf 1))] (withTasks [taskOf 0 .ready 0 0, taskOf 1 .waiting 1 0] lU)
    let done := withX [(1, BitVec.ofNat 64 (handleOf 0))] s
    s.rmFree ∧ s.task? (s.rx 1) = some (taskOf 1 .waiting 1 0) ∧ (taskOf 1 .waiting 1 0).count ≠ 0 ∧
    done.task? (done.rx 1) = some (taskOf 0 .ready 0 0) ∧ (taskOf 0 .ready 0 0).count = 0 ∧ lU.task? (lU.rx 1) = none ∧
    s.hart.u.ztask = 0 ∧ (withUser (fun u => { u with ztask := 1 }) s).hart.u.ztask ≠ 0 := by
  unfold State.rmFree; decide +kernel

/-- A thread that runs task 0, with one successor named at 4000h, and the task 1. -/
def sRuns (consumed count next : Nat) : State :=
  put 0x4000 4 next
    (withTasks [taskOf 0 .running 0 consumed, taskOf 1 .waiting count 0]
      (withUser (fun u => { u with ztask := BitVec.ofNat 32 (handleOf 0), zbudget := 9 }) (put 0x2008 8 3 lU)))

theorem witness_TaskEnds :
    let s := sRuns 3 2 (handleOf 1)
    let h := s.hart.u.ztask
    let k := taskOf 0 .running 0 3
    let moved (s : State) (k : Task) : Prop := ∃ va p c, some ⟨va, some p, c⟩ ∈ k.inputs.toList ∧ c < s.version p
    let cannot (s : State) (g : BitVec 32) : Prop := ∀ e, s.task? (g.setWidth 64) = some e → e.count < [g].count g
    s.rmFree ∧ s.myMends = [] ∧ s.hart.dropped = none ∧ s.hart.wrote = [] ∧ lU.hart.u.ztask = 0 ∧ h ≠ 0 ∧ s.task? (h.setWidth 64) = some k ∧
    (s.part.rm.tasks.map Task.idx).Nodup ∧ k.decr = false ∧ PlainAccess .load s (k.desc.succ + BitVec.ofNat 64 (4 * 0)) 4 0x4000 ∧
    InLine (k.desc.succ + BitVec.ofNat 64 (4 * 0)) 4 ∧ s.part.hotEn = false ∧ k.desc.nsucc = 1 ∧ ¬ moved s k ∧
    moved (sRuns 2 2 (handleOf 1)) (taskOf 0 .running 0 2) ∧
    (s.memNat 0x4000 4 = handleOf 1 ∧ ¬ cannot s (BitVec.ofNat 32 (handleOf 1)) ∧ h ∉ [BitVec.ofNat 32 (handleOf 1)]) ∧
    cannot (sRuns 3 0 (handleOf 1)) (BitVec.ofNat 32 (handleOf 1)) ∧ cannot (sRuns 3 0 0) 0 := by
  have h1 : (sRuns 3 2 (handleOf 1)).version 0x2000 = 3 ∧ (sRuns 2 2 (handleOf 1)).version 0x2000 = 3 := by decide +kernel
  have h2 : (sRuns 3 2 (handleOf 1)).task? ((BitVec.ofNat 32 (handleOf 1)).setWidth 64) = some (taskOf 1 .waiting 2 0) := by decide +kernel
  have h3 : (sRuns 3 0 (handleOf 1)).task? ((BitVec.ofNat 32 (handleOf 1)).setWidth 64) = some (taskOf 1 .waiting 0 0) := by decide +kernel
  have h4 : (sRuns 3 0 0).task? ((0 : BitVec 32).setWidth 64) = none := by decide +kernel
  refine ⟨by unfold State.rmFree; decide +kernel, by decide +kernel, by decide +kernel, by decide +kernel, by decide +kernel, by decide +kernel,
    by decide +kernel, by decide +kernel, by decide +kernel, by unfold PlainAccess; decide +kernel, by unfold InLine; decide +kernel,
    by decide +kernel, rfl, ?_, ⟨0x2000, 0x2000, 2, by decide +kernel, by rw [h1.2]; decide⟩, ⟨by decide +kernel, ?_, by decide +kernel⟩, ?_, ?_⟩
  · rintro ⟨va, p, c, hm, hc⟩
    have ho : ∀ x ∈ (taskOf 0 .running 0 3).inputs.toList, x = none ∨ x = some ⟨0x2000, some 0x2000, 3⟩ := by decide +kernel
    obtain h | h := ho _ hm <;> cases h
    rw [h1.1] at hc; exact absurd hc (by decide)
  · intro h; have := h _ h2; revert this; decide
  · intro e he; rw [h3] at he; cases he; decide
  · intro e he; rw [h4] at he; cases he

theorem witness_TaskAssignment :
    let k := { taskOf 0 .ready 0 0 with inputs := Vector.replicate 8 none }
    let k1 := { taskOf 1 .ready 0 0 with inputs := Vector.replicate 8 none }
    let s := withTasks [k, k1] lU
    s.rmFree ∧ s.hart.id = .lcore 0 ∧ s.hart.u.ztask = 0 ∧ s.NamesDistinct ∧ s.part.rm.takers = [] ∧ s.active = true ∧ s.part.cmds = [] ∧
    s.part.hostReqs = [] ∧ s.hart.car = none ∧ k ∈ s.part.rm.tasks ∧ k.state = .ready ∧ k.inSet = true ∧
    (∀ e ∈ s.part.rm.tasks, e.state = .ready → e ≠ k → goesBefore k e ∧ e.idx ≠ k.idx) ∧
    (∀ e ∈ s.part.rm.tasks, e.idx = k.idx → e = k) := by
  unfold State.rmFree State.NamesDistinct goesBefore; decide +kernel

/-- A worker on the L-core 1 with a refire vector, its task marked or not, its budget used up. -/
def sWorker (marked due : Bool) (budget : Word) : State :=
  let h := { lU.hart with id := .lcore 1, budgetDue := due, u := { lU.hart.u with ztask := BitVec.ofNat 32 (handleOf 0), zrfvec := 0x40, zbudget := budget } }
  withTasks [{ taskOf 0 .running 0 0 with marked := marked }] { lS with harts := [h] }

theorem witness_WorkerEvents :
    let s := sWorker true true 0
    ∃ x, s.hart? (.lcore 1) = some x ∧ x.id = .lcore 1 ∧ x.sup.mode = .u ∧ x.handler = none ∧ x.wait ≠ some .rmRequest ∧ x.car = none ∧
      x.u.ztask ≠ 0 ∧ s.task? (x.u.ztask.setWidth 64) = some { taskOf 0 .running 0 0 with marked := true } ∧ x.u.zrfvec ≠ 0 ∧
      (sWorker false true 0).task? (x.u.ztask.setWidth 64) = some (taskOf 0 .running 0 0) ∧ x.budgetDue = true ∧ x.u.zbudget = 0 ∧
      x.sup.medeleg.getLsbD 28 = true ∧ ((sWorker true false 1).hart? (.lcore 1)).map (·.u.zbudget) = some 1 :=
  ⟨{ lU.hart with id := .lcore 1, budgetDue := true
                  u := { lU.hart.u with ztask := BitVec.ofNat 32 (handleOf 0), zrfvec := 0x40, zbudget := 0 } }, by decide +kernel⟩

/-- A thread that runs a task with the object 2000h as input 0; x1 names the object, of version v. -/
def sObj (v : Nat) (consumed : Nat) : State :=
  put 0x2008 8 v
    (withTasks [taskOf 0 .running 0 consumed, taskOf 1 .ended 0 consumed]
      (withUser (fun u => { u with ztask := BitVec.ofNat 32 (handleOf 0), zrfvec := 0x40 }) sMem))

theorem witness_VersionObjects_publish :
    let s := sObj 3 3
    s.Inv ∧ s.hart.dropped = none ∧ (s.rx 1).toNat % 32 = 0 ∧ PlainAccess .store s (s.rx 1) 32 0x2000 ∧ Settled s 0x2000 ∧
    s.carried 0x2000 = [] ∧ (s.objWord 0x2000 1).toNat < 2 ^ 63 - 1 ∧ 2 ^ 63 - 1 ≤ ((sObj (2 ^ 63 - 1) 3).objWord 0x2000 1).toNat ∧
    (∃ e ∈ s.part.rm.tasks, e.inputs.toList[0]? = some (some ⟨0x2000, some 0x2000, 3⟩)) ∧ s.part.rm.used = false ∧
    (withPart (fun p => { p with rm := { p.rm with used := true } }) s).part.rm.used = true := by
  unfold State.Inv PlainAccess Settled NoPrivate; decide +kernel

/-- The task 0 under RESTART, run by the L-core 1 with a refire vector or none, while the current thread has no task; x1 names its input. -/
def sMarks (v : BitVec 63) : State :=
  withTasks [taskOf 0 .running 0 3, taskOf 1 .ended 0 3]
    { put 0x2008 8 3 sMem with
      harts := [{ Hart.init (.lcore 1) with u := { User.init with ztask := BitVec.ofNat 32 (handleOf 0), zrfvec := v } }] }

theorem witness_VersionObjects_marks :
    (sMarks 0x40).part.rm.used = false ∧ (taskOf 0 .running 0 3).handle = BitVec.ofNat 32 (handleOf 0) ∧
    (taskOf 0 .running 0 3).desc.complete = false ∧
    ((sMarks 0x40).worker? (BitVec.ofNat 32 (handleOf 0))).map User.zrfvec = some 0x40 ∧
    ((sMarks 0).worker? (BitVec.ofNat 32 (handleOf 0))).map User.zrfvec = some 0 := by decide +kernel

theorem witness_VersionObjects_consume :
    let s := sObj 3 3
    let other := withX [(1, 0x3000)] s
    let k := taskOf 0 .running 0 3
    PlainAccess .load s (s.rx 1) 32 0x2000 ∧ PlainAccess .load s (s.rx 1 + 8) 8 (0x2000 + 8) ∧ s.currentTask = some k ∧
    k.inputs.toList[0]? = some (some ⟨0x2000, some 0x2000, 3⟩) ∧ (withUser (fun u => { u with ztask := 0 }) s).currentTask = none ∧
    PlainAccess .load other (other.rx 1) 32 0x3000 ∧ PlainAccess .load other (other.rx 1 + 8) 8 (0x3000 + 8) ∧
    other.currentTask = some k ∧ (∀ x ∈ k.inputs.toList, x = none ∨ x = some ⟨0x2000, some 0x2000, 3⟩) ∧ k.inputs.toList[1]? = some none ∧
    k.inputs.toList[0]? ≠ some none ∧
    (let full := { k with inputs := Vector.replicate 8 (some ⟨0x3000, some 0x3000, 0⟩) }
     (withTasks [full] s).currentTask = some full) := by
  unfold PlainAccess; decide +kernel

/-- A thread waits in VSETTLE for the troupe 5, whose one task has ended on a final input. -/
def sSettle : State :=
  let s := withHart (fun h => { h with wait := some (.vsettle 5) }) (withX [(1, 5)] (put 0x200F 1 0x80 (put 0x2008 1 3 lU)))
  withPart (fun p => { p with rm := { p.rm with tasks := [taskOf 0 .ended 0 3], settlers := [⟨s.hart.id, 3, 5, 4, none⟩] } }) s

theorem witness_TroupeSettles :
    let held (s : State) : List Task := s.part.rm.tasks.filter fun e => e.live && e.desc.troupe == (s.rx 1).setWidth 32
    let mine := withX [(1, 5)] (sObj 3 3)
    let s := withX [(1, 5)] lU
    (mine.currentTask = some (taskOf 0 .running 0 3) ∧ (taskOf 0 .running 0 3).desc.troupe = (mine.rx 1).setWidth 32) ∧
    (s.currentTask = none ∧ held s = [] ∧ held (withTasks [taskOf 0 .ended 0 3] s) ≠ []) ∧
    sSettle.hart.id = .lcore 0 ∧ sSettle.NamesDistinct ∧ sSettle.active = true ∧ sSettle.part.rm.hold = false ∧ sSettle.part.rm.used = false ∧
    sSettle.part.rm.reqs = [] ∧ sSettle.part.rm.takers = [] ∧ sSettle.part.cmds = [] ∧ sSettle.part.hostReqs = [] ∧
    sSettle.hart.wait = some (.vsettle ((sSettle.rx 1).setWidth 32)) ∧ held sSettle = [taskOf 0 .ended 0 3] ∧
    sSettle.part.rm.settlers = [⟨sSettle.hart.id, 3, 5, 4, none⟩] ∧ (taskOf 0 .ended 0 3).state = .ended ∧
    (∀ x ∈ (taskOf 0 .ended 0 3).inputs.toList, x = none ∨ x = some ⟨0x2000, some 0x2000, 3⟩) ∧ sSettle.isFinal 0x2000 = true ∧
    sSettle.version 0x2000 = 3 := by
  unfold State.NamesDistinct; decide +kernel

theorem witness_GroupControl :
    lU.site = .l ∧ lU.myMends = [] ∧ lU.hart.dropped = none ∧ wT.hart.id = .wthread 0x100000 ∧ wT.hart.car = some (carAt 0) ∧
    wT.myMends = [] ∧ wT.hart.dropped = none ∧ wT.site = .w := by decide +kernel

/-- The first thread of wT outside the team, whose one member has a rank; x1 the operand of TJOIN. -/
def wAlone (rank x1 : Nat) : State :=
  withX [(1, BitVec.ofNat 64 x1)] (withPart (fun p => { p with members := [{ memberAt 1 with rank := BitVec.ofNat 12 rank }] }) wT)

/-- The members of a team of 4,096. -/
def crowd : List Member := (List.range 4096).map fun n => memberAt (n + 1)

theorem witness_TeamMembership :
    let taken (s : State) (r : Nat) : Prop := ∃ m ∈ s.part.members.filter (fun m => m.team == 1), m.rank.toNat = r
    let asks := wAlone 7 (7 * 2 ^ 16 + 1)
    let any := wAlone 0 (2 ^ 28 + 1)
    asks.myMends = [] ∧ asks.hart.dropped = none ∧ (2 ^ 29 ≤ ((withX [(1, -1)] wT).rx 1).toNat) ∧
    (((withX [(1, 1)] wT).rx 1).toNat < 2 ^ 29 ∧ wT.memberOf wT.who ≠ none) ∧ asks.memberOf asks.who = none ∧ (wAlone 0 2).team? 2 = none ∧
    asks.team? ((asks.rx 1).setWidth 16) = some team1 ∧ (carAt 0).core = team1.wcore ∧ taken asks (7 * 2 ^ 16 / 2 ^ 16) ∧ ¬ taken asks 6 ∧
    asks.part.members.length < 4096 ∧ (any.rx 1).getLsbD 28 = true ∧ ¬ taken any 1 ∧ taken any 0 ∧
    wT.memberOf wT.who = some (memberAt 0) ∧ wT.team? (memberAt 0).team = some team1 := by decide +kernel

theorem witness_TeamMembership_full : 4096 ≤ (crowd.filter fun m => m.team == 1).length := by decide +kernel

/-- The window of a team with a clean granule, and one with a dirty byte of the second thread. -/
def windowsOf (dirty : List (Nat × HartId)) : List Window := [{ windowAt 0 with granules := [⟨0, 0x5000, dirty, []⟩] }]

/-- s with the windows of the team 1. -/
def withWindows (l : List Window) (s : State) : State := withPart (fun p => { p with teams := p.teams.map fun t => { t with windows := l } }) s

theorem witness_TeamMembership_windows :
    let joins := withWindows (windowsOf []) (wAlone 7 (8 * 2 ^ 16 + 1))
    let leaves := withWindows (windowsOf [(3, .wthread 0x100800)]) wT
    (joins.site = .w ∧ joins.myMends = [] ∧ joins.hart.dropped = none ∧ joins.memberOf joins.who = none ∧
      (joins.team? ((joins.rx 1).setWidth 16)).isSome = true ∧ (joins.rx 1).toNat < 2 ^ 29) ∧
    leaves.site = .w ∧ leaves.myMends = [] ∧ leaves.memberOf leaves.who = some (memberAt 0) ∧ (leaves.team? 1).isSome = true ∧
    ¬ (∀ w ∈ windowsOf [(3, .wthread 0x100800)], ∀ g ∈ w.granules, g.dirty = []) ∧ ∀ w ∈ windowsOf [], ∀ g ∈ w.granules, g.dirty = [] := by
  decide +kernel

/-- The barrier 13 of team 1 with a count and the arrivals of an A-clock; the first member's arrival pending or not, at a phase. -/
def wBar (count : Nat) (pending : Bool) (phase : BitVec 32) (arriving : List HartId) : State :=
  withPart
    (fun p =>
      { p with
        teams := [{ team1 with bars := team1.bars.set 13 ⟨0, count, arriving⟩ }]
        members := [{ memberAt 0 with pending := if pending then 1#16 <<< 13 else 0, phase := (memberAt 0).phase.set 13 phase }, memberAt 1] })
    wT

theorem witness_TeamBarriers :
    (wT.site = .w ∧ (wAlone 0 0).memberOf (wAlone 0 0).who = none) ∧
    ∀ s ∈ [wBar 0 false 0 [], wBar 1 true 0 [], wBar 0 true 1 [], wBar 0 false 0 [.wthread 0x100000], wBar 0 true 1 [.wthread 0x100000]],
      s.myMends = [] ∧ s.site = .w ∧ s.hart.dropped = none ∧
      ∃ m ∈ s.part.members, ∃ tm ∈ s.part.teams, s.memberOf s.who = some m ∧ s.team? m.team = some tm ∧
        (∀ x ∈ s.part.members, x.who = s.who → x = m) ∧ (∀ x ∈ s.part.teams, x.num = m.team → x = tm) := by decide +kernel

/-- The first thread of wBar holds a dirty byte of its team's window. -/
def wOwn (s : State) : State := withPart (fun p => { p with priv := [privAt (.wthread 0x100000) 0x5001 true] }) (withWindows (windowsOf []) s)

theorem witness_TeamBarriers_own :
    let s := wOwn (wBar 0 false 0 [])
    s.Inv ∧ s.poison = [] ∧ s.myMends = [] ∧ s.site = .w ∧ s.hart.dropped = none ∧ (wBar 0 false 0 []).part.priv = [] ∧
    ∃ p ∈ s.part.priv, ∃ tm ∈ s.part.teams, p.dirty = true ∧ p.who = s.who ∧
      ∃ w ∈ tm.windows, w.asid = p.asid ∧ w.base.toNat ≤ p.va ∧ p.va < w.base.toNat + w.len := by
  unfold State.Inv; decide +kernel

theorem witness_TeamBarriers_clock :
    ∀ s ∈ [wBar 0 false 0 [.wthread 0x100800, .wthread 0x100000], wBar 1 true 0 [.wthread 0x100800], wBar 0 true 1 [.wthread 0x100000], wBar 0 false 0 [],
        wBar 1 true 0 [.wthread 0x100000]],
      ∃ tm ∈ s.part.teams, (∀ x ∈ s.part.teams, x.num = tm.num → x = tm) ∧ (s.part.members.map Member.who).Nodup ∧ s.NamesDistinct ∧
        s.part.rm.reqs = [] ∧ s.part.rm.takers = [] ∧ s.part.rm.settlers = [] ∧ s.part.cmds = [] ∧ s.part.hostReqs = [] ∧ s.part.netReqs = [] ∧
        (let members := s.part.members.filter fun x => x.team == tm.num
         let again (x : Member) : Prop := x.pending.getLsbD 13 = true ∧ x.phase[13] = (tm.bars[13]).phase
         let counted := (members.filter fun x => (tm.bars[13]).arriving.contains x.who && !decide (again x)).length
         (∀ x ∈ members, x.since ≠ s.pkg.zaclk) ∧ (tm.bars[13]).arriving.Nodup ∧ (tm.bars[13]).count < members.length ∧
           (tm.bars[13]).count + counted ≤ members.length ∧ (∀ who ∈ (tm.bars[13]).arriving, ∃ x ∈ members, x.who = who) ∧
           (counted ≠ 0 ∧ (tm.bars[13]).count + counted = members.length → ∀ x ∈ members, x.who ∈ (tm.bars[13]).arriving → ¬ again x)) := by
  unfold State.NamesDistinct; decide +kernel

/-- A thread of the L-core 0, whose wait is w, beside an idle W-core, and a queue for its record. -/
def sMigr (w : Option Wait) : State :=
  withPart (fun p => { p with wfq := { p.wfq with base := 0x40000, en := true }, parkBase := 0x200000, parkPlaced := true, wcores := [WCore.init 0] })
    (withHart (fun h => { h with wait := w }) lU)

/-- A thread on its way. -/
def sWay (dest : Option Nat) (room : Bool) : State :=
  withPart (fun p => { p with transit := [⟨0x100000, wHart 0, dest, 0, none, none⟩], wfq := { p.wfq with en := room } }) (sMigr none)

/-- The same with AUTOMIG 1. -/
def sAuto (s : State) : State := withUser (fun u => { u with zsitectl := 1 }) s

theorem witness_TeamBarriers_lsite :
    (lS.site = .l ∧ lS.hart.installed = none ∧ lS.myMends = [] ∧ lS.hart.dropped = none) ∧
    (lU.site = .l ∧ lU.hart.installed ≠ none ∧ lU.hart.u.zsitectl.getLsbD 0 = false ∧ lU.myMends = [] ∧ lU.hart.dropped = none) ∧
    (∀ s ∈ [sAuto (sMigr none), sAuto lU], s.myMends = [] ∧ s.hart.dropped = none ∧ s.hart.id = .lcore 0 ∧ s.hart.installed = some 0x100000 ∧
      s.hart.car = none ∧ s.hart.u.zsitectl.getLsbD 0 = true) ∧
    (sAuto (sMigr none)).departure = some 0 ∧ (sAuto lU).departure = none := by decide +kernel

theorem witness_Migration :
    (lS.myMends = [] ∧ lS.NamesDistinct ∧ lS.hart.id = .lcore 0 ∧ lS.hart.installed = none) ∧
    ((sMigr none).myMends = [] ∧ (sMigr none).NamesDistinct ∧ (sMigr none).hart.id = .lcore 0 ∧ (sMigr none).hart.installed = some 0x100000 ∧
      (sMigr none).hart.dropped = none ∧ (sMigr none).hart.car = none ∧ (sMigr none).departure = some 0 ∧
      (sMigr none).memberOf (sMigr none).who = none ∧ (withHart (fun h => { h with homing := true }) (sMigr none)).hart.goesHome = true ∧
      lU.departure = none ∧ (sMigr none).hart.chosen = none ∧
      (let s := withHart (fun h => { h with chosen := some 0 }) (sMigr none)
       s.hart.chosen = some 0 ∧ 0 ∈ s.part.wcoreNums ∧ s.departure = some 0)) ∧
    ((sMigr (some .migrate)).hart? (.lcore 0) = some { lU.hart with wait := some .migrate } ∧
      ((sMigr (some .migrate)).focus (.lcore 0)).departure ≠ none) ∧
    (wT.NamesDistinct ∧ (wAlone 0 0).hart.id = .wthread 0x100000 ∧ (wAlone 0 0).hart.car = some (carAt 0) ∧ (wAlone 0 0).harts ≠ [] ∧
      (wAlone 0 0).memberOf (wAlone 0 0).who = none ∧ (wAlone 0 0).hart.dropped = none ∧
      (let s := withHart (fun h => { h with extract := some 3 }) (wAlone 0 0)
       s.hart.extract = some 3 ∧ extractable s s.hart = true)) := by
  unfold State.NamesDistinct; decide +kernel

theorem witness_Migration_arrives :
    let rec' (s : State) : Nat := wfqAddr s.part.wfq s.part.wfq.count
    (∀ s ∈ [sWay (some 0) true, sWay none false, sWay none true], s.myMends = [] ∧ s.NamesDistinct ∧ s.hart? (.wthread 0x100000) = none ∧
      ∃ x ∈ s.part.transit, x.ctx = 0x100000 ∧ ∀ y ∈ s.part.transit, y.ctx = x.ctx → y = x) ∧
    (sWay none false).wfqRoom = false ∧ (sWay none true).wfqRoom = true ∧ (sWay none true).poison = [] ∧ (sWay none true).Inv ∧
    rec' (sWay none true) + 64 ≤ 0x100000 ∧ ((sWay (some 0) true).part.parkPlaced = true ∧ (sWay (some 0) true).poison = [] ∧
      (sWay (some 0) true).Inv) ∧ (withPart (fun p => { p with parkPlaced := false }) (sWay (some 0) true)).part.parkPlaced = false := by
  unfold State.NamesDistinct State.Inv; decide +kernel

/-- The team of two with bins: the threads have waited n A-clocks. -/
def wBins (n : Nat) (age : BitVec 16) : State :=
  withPart (fun p => { p with zage := age })
    { wT with
      hart := { wHart 0 with car := some { carAt 0 with waited := n } }
      harts := wT.harts.map fun h => { h with car := h.car.map fun c => { c with waited := n } } }

/-- Sixty-four sets of one, which fill a bin. -/
def wMany : State :=
  { withPart (fun p => { p with members := [], zage := 100 }) wT with harts := (List.range 63).map (fun n => wHart (n + 1)) ++ wT.harts.drop 1 }

/-- Two sets of one, which do not. -/
def wFew : State := withPart (fun p => { p with members := [], zage := 100 }) wT

theorem witness_CarouselGroups :
    let aged (s : State) : Prop := ∃ b ∈ s.bins (WCore.init 0), s.part.zage.toNat < b.wait
    let full (s : State) : Prop := ∃ b ∈ s.bins (WCore.init 0), 64 / b.setw ≤ (b.sets s).length
    (∀ s ∈ [wFew, wBins 101 100, wMany], s.wcore? 0 = some (WCore.init 0) ∧ s.part.preempting = false ∧ s.active = true ∧
      s.NamesDistinct ∧ ∀ b ∈ s.bins (WCore.init 0), b.wait < 2 ^ 64) ∧
    (WCore.init 0).num = 0 ∧ wMany.clockStopped 0 = false ∧ (WCore.init 0).slots[(3 : Fin 4)] = none ∧
    (let here := wMany.allHarts.filter fun h => h.residentOn 0
     here.length ≤ 1536 ∧ (here.map fun h => classSpace (profClass h.u.zwprof)).sum ≤ 2 ^ 20) ∧
    (¬ aged wFew ∧ ¬ full wFew) ∧ aged (wBins 101 100) ∧ ¬ aged wMany ∧ full wMany := by
  unfold State.NamesDistinct; decide +kernel

theorem witness_CarouselGroups_slots :
    ∀ s ∈ [wSlot [0x100000] false, wSlot [] false, wSlot [] true], (s.wcore? 0).isSome = true ∧ (s.wcore? 0).map WCore.num = some 0 ∧
      s.clockStopped 0 = false ∧ s.part.preempting = false ∧ s.active = true ∧
      (s.wcore? 0).map (fun c => (c.slots[(3 : Fin 4)]).isSome) = some true := by decide +kernel

/-- A store of two bytes at 2000h in the mending buffer. -/
def mendOf (st : MendState) : Mend := ⟨0x100000, 0, 0x2000, .store, [0x11, 0x22], st⟩

theorem witness_MendingEntry :
    let s (st : MendState) : State := withCore (fun c => { c with mend := [mendOf st] }) wT
    (s .queued).Inv ∧ (s .queued).hart = wHart 0 ∧ (wHart 0).id = .wthread 0x100000 ∧ (wHart 0).car = some (carAt 0) ∧ (carAt 0).core = 0 ∧
    (s .queued).headMend 0 0x100000 = some (mendOf .queued) ∧ (s .queued).mendRuns 0 = true ∧
    (s (.awaiting 5)).headMend 0 0x100000 = some (mendOf (.awaiting 5)) ∧ (s (.awaiting 5)).mendRuns 0 = true ∧
    PlainAccess .store ((s .queued).modW 0 fun c => { c with mend := [] }) 0x2000 2 0x2000 ∧ InLine 0x2000 2 ∧
    (∀ v ∈ (s .queued).part.wcores, ∀ u ∈ (s .queued).part.wcores, v.num = u.num → v = u) := by
  unfold State.Inv PlainAccess InLine; decide +kernel

theorem witness_MendingEntry_image :
    let m : Mend := { mendOf .queued with bytes := List.replicate 64 0x11 }
    let s := withCore (fun c => { c with mend := [m] }) wT
    s.Inv ∧ s.hart = wHart 0 ∧ s.headMend 0 0x100000 = some m ∧ s.mendRuns 0 = true ∧ m.bytes.length = 64 ∧
    PlainAccess .store (s.modW 0 fun c => { c with mend := [] }) 0x2000 64 0x2000 ∧ InLine 0x2000 64 ∧
    ∀ i ∈ List.range 8, walkOf s (xmodeOf s.hart .store) .store (0x2000 + BitVec.ofNat 64 (8 * i)) = .ok (0x2000 + 8 * i) none := by
  unfold State.Inv PlainAccess InLine; decide +kernel

/-- A kernel on the L-core 0 beside the two threads of wT. -/
def sKernel : State := { wT with hart := lS.hart, harts := [wHart 0, wHart 1] }

theorem witness_SupervisorInstructions_zpark :
    let bad (s : State) : Prop :=
      (s.rx 1).toNat % 2048 ≠ 0 ∨ areaIn s.part.ranges (s.rx 1).toNat 2048 = false ∨ (s.rx 1).toNat / 2 ^ 47 ≠ s.pkg.pkgId
    let s := withX [(1, 0x100000)] sKernel
    let away := withPart (fun p => { p with ranges := p.ranges ++ [(2 ^ 47, 2 ^ 30)] }) (withX [(1, 2 ^ 47)] sKernel)
    let asks := { s with harts := [{ wHart 0 with wait := some .rmRequest }, wHart 1] }
    s.Inv ∧ s.hart.id = .lcore 0 ∧ s.NamesDistinct ∧ (∀ t ∈ [lU, lM], t.hart.sup.mode ≠ .s) ∧ s.hart.sup.mode = .s ∧
    bad (withX [(1, 0x100400)] sKernel) ∧ bad (withX [(1, 0x3FFFFC00)] sKernel) ∧ bad away ∧ ¬ bad s ∧
    s.inTransit 0x100000 = false ∧ (sWay none true).inTransit 0x100000 = true ∧
    (asks.hart? (.wthread 0x100000)).map Hart.wait = some (some .rmRequest) ∧
    (withHart (fun h => { h with installed := some 0x100000 }) s).hart.installed = some 0x100000 ∧ s.hart.installed ≠ some 0x100000 ∧
    lS.hart? (.wthread 0x100000) = none ∧ s.hart? (.wthread 0x100000) = some (wHart 0) ∧ (wHart 0).car = some (carAt 0) ∧
    (wHart 0).wait = none ∧ (carAt 0).leaving = none ∧ (carAt 0).zparked = false ∧ ({ carAt 0 with zparked := true } : Car).zparked = true ∧
    s.part.parkPlaced = false ∧ s.poison = [] ∧
    (withPart (fun p => { p with parkBase := 0x200000, parkPlaced := true }) s).part.parkPlaced = true := by
  unfold State.Inv State.NamesDistinct; decide +kernel

/-- x1 names a buffer at 3000h or asks for the emulation queue; each queue holds a record. -/
def sQueues (x1 : Word) : State :=
  withX [(1, x1)]
    (withPart (fun p => { p with wfq := { p.wfq with base := 0x40000, en := true, count := 1 }, emq := { p.emq with base := 0x80000, en := true, count := 1 } })
      sKernel)

theorem witness_SupervisorInstructions_zfqpop :
    let held := withPart (fun p => { p with emq := { p.emq with count := 2, taken := [false] } }) (sQueues 0x3001)
    let taken := withPart (fun p => { p with emq := { p.emq with taken := [false] } }) (sQueues 0x3001)
    ((sQueues 0x3020).rx 1).getLsbD 0 = false ∧ ((sQueues 0x3020).rx 1 &&& ~~~1).toNat % 64 ≠ 0 ∧
    ((sQueues 0x3041).rx 1).getLsbD 0 = true ∧ ((sQueues 0x3041).rx 1 &&& ~~~1).toNat % 128 ≠ 0 ∧
    (sKernel.part.wfq.count ≤ sKernel.part.wfq.taken.length ∧ sKernel.part.emq.count ≤ sKernel.part.emq.taken.length ∧
      taken.part.emq.count ≤ taken.part.emq.taken.length) ∧
    (withPart (fun p => { p with emq := { p.emq with serve := true } }) (sQueues 0x3001)).part.emq.serve = true ∧
    (((sQueues 0x3000).rx 1 &&& ~~~1).toNat % 64 = 0 ∧ (sQueues 0x3000).part.wfq.taken.length < (sQueues 0x3000).part.wfq.count ∧
      PlainAccess .store (sQueues 0x3000) ((sQueues 0x3000).rx 1 &&& ~~~1) 64 0x3000) ∧
    ∀ s ∈ [sQueues 0x3001, held], ((s.rx 1 &&& ~~~1).toNat % 128 = 0 ∧ s.part.emq.taken.length < s.part.emq.count ∧
      s.part.emq.serve = false ∧ PlainAccess .store s (s.rx 1 &&& ~~~1) 128 0x3000) := by
  unfold PlainAccess; decide +kernel

/-- x1 names a record of a KIND with the tag 9 at 3000h, which awaits disposition. -/
def sRecord (kind : Nat) (k : AwaitKind) : State :=
  withX [(1, 0x3000)]
    (put 0x3004 4 9 (put 0x3000 1 kind (withPart (fun p => { p with awaiting := [⟨9, k, 0x100000, 13, 0x5000, 0, []⟩] })
      { sKernel with harts := [{ wHart 0 with car := some { carAt 0 with faultTag := some 9 } }, wHart 1] })))

/-- A FAULT record. -/
def sResume : State := sRecord 3 .fault

/-- Thread 0 has no team. -/
def sSolo (s : State) : State := withPart (fun p => { p with members := [] }) s

/-- A MEND record of an entry of thread 0. -/
def sMend : State := withCore (fun c => { c with mend := [mendOf (.awaiting 9)] }) (sRecord 4 .mend)

/-- An EMUL record with RESULT into x5 and RESUME, or of an instruction of 32 bits. -/
def sEmulated (resume insn : Nat) : State :=
  put 0x3050 3 (0x10501) (put 0x3040 8 0x77 (put 0x3048 8 resume (put 0x3018 8 insn (sRecord 6 .emul))))

/-- An ARRIVE record of thread 100800h's image, with or without a pending trap; a RUN record of a context. -/
def sArrived (pend : Nat) : State :=
  put 0x3010 8 0x4000 (put 0x3001 2 (8 + 256 * pend)
    (withPart (fun p => { p with awaiting := [⟨9, .arrive, 0x101000, 0, 0, 0, []⟩] }) (sRecord 2 .arrive)))
def sRun (ctx : Nat) : State := put 0x3008 8 ctx (sRecord 5 .fault)

/-- A record at x1 = 3000h may be read by ZRESUME: aligned to its size and in plain memory. -/
def Readable (s : State) (kind size : Nat) : Prop :=
  s.Inv ∧ s.hart.id = .lcore 0 ∧ s.NamesDistinct ∧ s.hart.sup.mode = .s ∧ s.memNat 0x3000 1 = kind ∧ PlainAccess .load s (s.rx 1) 1 0x3000 ∧
  (s.rx 1).toNat % size = 0 ∧ PlainAccess .load s (s.rx 1) size 0x3000 ∧ s.memNat 0x3004 4 = 9

theorem witness_SupervisorInstructions_zresume_reads :
    (∀ s ∈ [sResume, sSolo sResume, sRecord 3 .mend, withCore (fun c => { c with mend := [mendOf .queued] }) (sSolo sResume)], Readable s 3 64) ∧
    (∀ s ∈ [sMend], Readable s 4 64) ∧ (∀ s ∈ [sEmulated 0x4001 0, sEmulated 0 0x33, sEmulated 0 0x7F, sSolo (sEmulated 0 0x7F)], Readable s 6 128) ∧
    (∀ s ∈ [sArrived 0, sArrived 1, withHart (fun h => { h with installed := some 0x102000 }) (sArrived 1)], Readable s 2 64) ∧
    (∀ s ∈ [sRun 0x100000, sRun 0x101000, sRun 0x101001], Readable s 5 64) ∧ Readable (sRecord 1 .fault) 1 64 := by
  refine ⟨?_, ?_, ?_, ?_, ?_, ?_⟩ <;> (unfold Readable State.Inv State.NamesDistinct PlainAccess; decide +kernel)

theorem witness_SupervisorInstructions_zresume :
    let entry (s : State) (k : AwaitKind) : Prop := ∃ q ∈ s.part.awaiting, q.tag = 9 ∧ q.kind = k ∧ ∀ r ∈ s.part.awaiting, r.tag = 9 → r = q
    let thread (s : State) : Prop := ∃ h ∈ s.allHarts, s.hart? (.wthread 0x100000) = some h ∧ h.car.isSome = true ∧ h.dropped = none
    (sResume.rx 2 = 0 ∧ (withX [(2, 1)] sResume).rx 2 = 1 ∧ 1 < ((withX [(2, 2)] sResume).rx 2).toNat) ∧
    (sResume.part.hotEn = false ∧ ((withX [(1, 0x3020)] sResume).rx 1).toNat % 64 ≠ 0 ∧
      PlainAccess .load (withX [(1, 0x3020)] sResume) 0x3020 1 0x3020) ∧
    (∀ q ∈ (sRecord 3 .mend).part.awaiting, q.tag = 9 → q.kind.code ≠ 3) ∧
    (entry sResume .fault ∧ entry sMend .mend ∧ entry (sEmulated 0 0x33) .emul ∧ entry (sArrived 0) .arrive) ∧
    (thread sResume ∧ thread sMend ∧ thread (sEmulated 0 0x33) ∧ (sSolo sResume).memberOf (.wthread 0x100000) = none) := by
  unfold PlainAccess; decide +kernel

theorem witness_SupervisorInstructions_mend :
    let c : WCore := { WCore.init 0 with mend := [mendOf (.awaiting 9)] }
    sMend.wcore? 0 = some c ∧ sMend.clockStopped 0 = false ∧ sMend.headMend 0 0x100000 = some (mendOf (.awaiting 9)) ∧
    (∀ m ∈ c.mend, m.state = .awaiting 9 → m = mendOf (.awaiting 9)) ∧ (∀ v ∈ sMend.part.wcores, ∀ u ∈ sMend.part.wcores, v.num = u.num → v = u) ∧
    InLine 0x2000 2 ∧ PlainAccess .store ((sMend.focus (.wthread 0x100000)).modW 0 fun c => { c with mend := [] }) 0x2000 2 0x2000 ∧
    ({ sMend with pkg := { sMend.pkg with powerStops := [0] } } : State).clockStopped 0 = true := by
  unfold PlainAccess InLine; decide +kernel

theorem witness_SupervisorInstructions_emul :
    emulLen 0x33 = some 4 ∧ emulLen 0x7F = none ∧ (sEmulated 0x4001 0).memNat 0x3048 8 = 0x4001 ∧ (sEmulated 0 0x33).memNat 0x3048 8 = 0 ∧
    (sEmulated 0 0x33).memNat 0x3018 8 = 0x33 ∧ (sEmulated 0 0x33).part.parkPlaced = false ∧ (sEmulated 0 0x33).memNat 0x3050 1 = 1 ∧
    (sArrived 1).memNat 0x3002 1 % 2 = 1 ∧ (sArrived 0).memNat 0x3002 1 % 2 = 0 ∧
    ((sRun 0x101000).hart? (.wthread 0x101000) = none ∧ areaIn (sRun 0x101000).part.ranges 0x101000 2048 = true ∧
      (sRun 0x101000).onPackage 0x101000 = true ∧ (sRun 0x101000).inTransit 0x101000 = false ∧
      (∀ h ∈ (sRun 0x101000).allHarts, h.installed ≠ some 0x101000) ∧ 0x101001 % 2048 ≠ 0) ∧
    ((sRun 0x100000).hart? (.wthread 0x100000)).isSome = true := by decide +kernel

/-- An EMUL record of tag 9 at the head of a served queue, and no handler at the core 3. -/
def sEmul : State :=
  put 0x81004 4 9
    (withPart (fun p => { p with emq := ⟨0x80000, true, 0, true, 0, 1, []⟩, awaiting := [⟨9, .emul, 0x100000, 2, 0, 0, []⟩] }) sKernel)

/-- A handler at the core 3 that has run since the A-clock 0, for the record of tag 9 of the thread 100000h. -/
def sHandler (now : Nat) : State :=
  let s := { sKernel with harts := [{ Hart.init (.roust 3) with handler := some ⟨0x81000, 0, 0x100000, 9, 0⟩ }] }
  { s with pkg := { s.pkg with zaclk := BitVec.ofNat 64 now } }

/-- Its record awaits disposition, with mended stores of the thread or none. -/
def sOverdue (mends : List Mend) : State :=
  let s := sHandler (2 ^ 20)
  withCore (fun c => { c with mend := mends })
    (withPart (fun p => { p with awaiting := [⟨9, .emul, 0x100000, 2, 0, 0, []⟩], members := [] })
      { s with harts := s.harts ++ [{ wHart 0 with car := some { carAt 0 with emulTag := some 9 } }] })

theorem witness_HandlersAndInterrupts :
    let withdrawn := withPart (fun p => { p with awaiting := [⟨9, .fault, 0x100000, 2, 0, 0, []⟩] }) sEmul
    let second := withPart (fun p => { p with emq := { p.emq with count := 2, taken := [true] } }) sEmul
    (∀ s ∈ [sEmul, withdrawn, second], s.active = true ∧ s.part.preempting = false ∧ s.part.emq.serve = true ∧
      s.part.emq.taken.length < s.part.emq.count ∧ s.hart? (.roust 3) = none) ∧
    sEmul.memNat (sEmul.part.emq.base + 0x1000 + 128 * ((sEmul.part.emq.head + sEmul.part.emq.taken.length) % 2 ^ (sEmul.part.emq.size + 5)) + 4) 4 = 9 ∧
    (∀ y ∈ withdrawn.part.awaiting, y.tag = 9 → y.kind ≠ .emul) ∧
      (sEmul.part.emq.taken.head? ≠ some true ∧ second.part.emq.taken.head? = some true) ∧
    ((⟨9, .emul, 0x100000, 2, 0, 0, []⟩ : Await) ∈ sEmul.part.awaiting ∧
      (∀ y ∈ sEmul.part.awaiting, y.tag = 9 → y = ⟨9, .emul, 0x100000, 2, 0, 0, []⟩)) := by decide +kernel

theorem witness_HandlersAndInterrupts_limit :
    (∀ n ∈ [2 ^ 20 - 1, 2 ^ 20], (sHandler n).active = true ∧ (sHandler n).NamesDistinct ∧ (sHandler n).hart.id ≠ .roust 3 ∧
      (sHandler n).part.awaiting = [] ∧
      ((sHandler n).hart? (.roust 3)).map Hart.handler = some (some ⟨0x81000, 0, 0x100000, 9, 0⟩) ∧ (sHandler n).pkg.zaclk.toNat - 0 = n) ∧
    ∀ l ∈ [[], [⟨0x100000, 0, 0x2000, .store, [0x11], .queued⟩]], let s := sOverdue l
      s.active = true ∧ s.NamesDistinct ∧ s.hart.id = .lcore 0 ∧ 2 ^ 20 ≤ s.pkg.zaclk.toNat - 0 ∧
      ((s.hart? (.roust 3)).map Hart.handler = some (some ⟨0x81000, 0, 0x100000, 9, 0⟩)) ∧
      s.part.awaiting = [⟨9, .emul, 0x100000, 2, 0, 0, []⟩] ∧
      ((s.hart? (.wthread 0x100000)).map fun h => (h.car, h.dropped)) = some (some { carAt 0 with emulTag := some 9 }, none) ∧
      s.memberOf (.wthread 0x100000) = none ∧ (s.wcore? 0).map WCore.mend = some l ∧ s.clockStopped 0 = false ∧
      ({ s with pkg := { s.pkg with hotDies := [0] } } : State).clockStopped 0 = true := by
  unfold State.NamesDistinct; decide +kernel

/-- Interrupt 16 pending or not, enabled and delegated; SIE. -/
def sIrq (pending : Bool) (sie : Bool) : State :=
  withHart (fun h => { h with sup := { h.sup with mie := 0x10000, mideleg := 0x10000, mip := if pending then 0x10000 else 0,
                                                  mstatus := if sie then h.sup.mstatus ||| 2 else h.sup.mstatus } }) lS

/-- Page counts to publish. -/
def sHot : State := withPart (fun p => { p with hotEn := true, hotBase := 0x4000, hotClock := 2 ^ 20, hotCounts := [(1, 5), (2, 9)] }) lS

theorem witness_HandlersAndInterrupts_irq :
    let pending (s : State) : Prop := s.mipVal.getLsbD 16 = true ∧ s.hart.sup.mie.getLsbD 16 = true
    let both (deleg : Word) : State :=
      withHart (fun h => { h with sup := { h.sup with mie := 0x202, mip := 0x202, mideleg := deleg, mstatus := h.sup.mstatus ||| 2 } }) lS
    ¬ pending (sIrq false true) ∧ pending (sIrq true true) ∧ (sIrq true true).hart.id = .lcore 0 ∧
    (sIrq true true).hart.sup.mideleg.getLsbD 16 = true ∧ (sIrq true true).hart.sup.mode = .s ∧ (sIrq true true).hart.wait = none ∧
    (sIrq true true).hart.sup.mstatus.getLsbD 1 = true ∧ (sIrq true false).hart.sup.mstatus.getLsbD 1 = false ∧ pending (sIrq true false) ∧
    (∀ s ∈ [both 0x202, both 0x200], ∀ k ∈ [1, 9], s.mipVal.getLsbD k = true ∧ s.hart.sup.mie.getLsbD k = true) ∧
    ((both 0x200).hart.sup.mideleg.getLsbD 1 = false ∧ (both 0x200).hart.sup.mideleg.getLsbD 9 = true ∧ (both 0x200).hart.sup.mode ≠ .m) ∧
    lS.part.hotEn = false ∧ (sHot.part.hotEn = true ∧ 2 ^ (sHot.part.hotIvl + 16) ≤ sHot.part.hotClock ∧ sHot.Inv ∧ sHot.poison = []) := by
  unfold State.Inv; decide +kernel

/-- A pre-empted partition with a slot saved of itself. -/
def sStopped : State := withPart (fun p => { p with status := .stopped }) lS

theorem witness_HostCommands :
    let quiet (s : State) : Prop :=
      s.part.transit = [] ∧ (∀ h ∈ s.allHarts, h.car = none ∧ h.handler = none ∧ h.wait ≠ some .rmRequest) ∧
      (∀ x ∈ s.chansAll, x.2.2.queue = []) ∧ (∀ w ∈ s.part.wcores, w.press.queue = []) ∧ ∀ b ∈ s.part.priv, b.dirty = false
    (∀ s ∈ [lS, sStopped], s.part.formed = true ∧ s.part.cmds = [] ∧ s.part.hostReqs = [] ∧ s.part.netReqs = [] ∧ s.part.preempting = false) ∧
    lS.part.status = .running ∧ quiet lS ∧ sStopped.part.status = .stopped ∧ (∀ x ∈ sStopped.pkg.slots, x.num ≠ 255) ∧
    (List.replicate 32 (0 : Byte)).length = 32 ∧ lS.hostOk 0x2000 8 = true ∧ lS.poisoned 0x2000 8 = false ∧ lS.hostOk 0x40000000 8 = false ∧
    lS.hostOk 0x2000 (List.replicate 8 (1 : Byte)).length = true ∧ lS.Inv ∧ lS.poison = [] := by
  unfold State.Inv; decide +kernel

/-- A slot written by a CHECKPOINT of sStopped. -/
def slotOf (s : State) : Slot :=
  let v : Saved := ⟨s.pkg.pkgId, s.part.pid, s.part.ranges, s.mem, s.poison, s.hart, s.harts, s.part⟩
  ⟨255, v, saveDigest v⟩

theorem witness_HostCommands_restore :
    let s := { sStopped with pkg := { sStopped.pkg with slots := [slotOf sStopped] } }
    s.part.status = .stopped ∧ s.pkg.slots.find? (fun y => y.num == 255) = some (slotOf sStopped) ∧ s.Inv ∧
    sparseWf 0#8 (slotOf sStopped).saved.mem = true ∧ (slotOf sStopped).digest = saveDigest (slotOf sStopped).saved ∧
    (slotOf sStopped).saved.pkg = s.pkg.pkgId ∧ (slotOf sStopped).saved.ranges = s.part.ranges ∧
    ∀ w ∈ (slotOf sStopped).saved.part.wcoreNums, w < 256 ∧ w ∉ s.pkg.leftOut :=
  ⟨rfl, rfl, by unfold State.Inv; decide +kernel, by decide +kernel, rfl, rfl, rfl, by decide +kernel⟩

/-- A slot of another package fails its checks, and so does one with a W-core that is left out. -/
theorem witness_HostCommands_fails :
    let v := (slotOf sStopped).saved
    let away : Slot := { slotOf sStopped with saved := { v with pkg := 319 } }
    let worn : Slot := { slotOf sStopped with saved := { v with part := { v.part with wcoreNums := [255] } } }
    let s (x : Slot) : State := { sStopped with pkg := { sStopped.pkg with slots := [x], leftOut := [255] } }
    (∀ x, (s x).part.status = .stopped) ∧ ((s away).pkg.slots.find? fun y => y.num == 255) = some away ∧
    ((s worn).pkg.slots.find? fun y => y.num == 255) = some worn ∧ away.saved.pkg ≠ (s away).pkg.pkgId ∧
    255 ∈ worn.saved.part.wcoreNums ∧ 255 ∈ (s worn).pkg.leftOut :=
  ⟨fun _ => rfl, rfl, rfl, by decide +kernel, by decide +kernel, by decide +kernel⟩

/-- The package after bring-up with no partition. -/
def sBare : State := { State.reset with pkg := { State.reset.pkg with bringUp := 7 } }

theorem witness_PartitionFormation :
    let cores (s : State) (pid : Nat) (ls ws : List Nat) : Prop :=
      s.pkg.bringUp = 7 ∧ s.part.formed = false ∧ pid < 64 ∧ 2 ≤ ls.length ∧ ls.Nodup ∧ (∀ n ∈ ls, n < 128) ∧ ws.Nodup ∧
        (∀ w ∈ ws, w < 256 ∧ w ∉ s.pkg.leftOut)
    let memory (s : State) (rs : List (Nat × Nat)) (bootAt n : Nat) : Prop :=
      rs ≠ [] ∧ (∀ r ∈ rs, rangeOk r = true ∧ apart s.pkg.foreign r = true) ∧ disjointRanges rs = true ∧ (n = 0 ∨ areaIn rs bootAt n = true)
    let rs : List (Nat × Nat) := [(0x10000000, 0x200000), (0x20000000, 0x200000)]
    let kept : State := { sBare with pkg := { sBare.pkg with reserved := [(0x20000000, 0x200000)] } }
    (cores sBare 63 [0, 127] [0, 255] ∧ ¬ cores lS 63 [0, 127] []) ∧ (0x10000F80 % 128 = 0 ∧ spanIn rs 0x10000F80 128 = true) ∧
    (memory sBare rs 0 0 ∧ memory sBare rs 0x201FFF00 256 ∧ ¬ memory sBare rs 0x201FFF01 256 ∧ ¬ memory kept rs 0 0) ∧
    sparseWf 0#8 sBare.mem = true ∧ sBare.poison = [] := by decide +kernel

theorem witness_PartitionFormation_cores :
    let three := withPart (fun p => { p with status := .stopped, lcores := [0, 1, 2] }) lS
    let core := withPart (fun p => { p with status := .stopped, wcoreNums := [0], wcores := [WCore.init 0], teams := [] }) lS
    sBare.part.formed = false ∧ (sStopped.part.formed = true ∧ sStopped.part.status = .stopped) ∧ lS.part.status = .running ∧
    (255 ∉ sStopped.pkg.leftOut ∧ 255 ∉ sStopped.part.wcoreNums ∧ 0 ∈ core.part.wcoreNums) ∧
    (127 ∉ sStopped.part.lcores ∧ 1 ∈ sStopped.part.lcores ∧ ¬ 3 ≤ sStopped.part.lcores.length) ∧
    (1 ∈ three.part.lcores ∧ 3 ≤ three.part.lcores.length ∧ (three.hart? (.lcore 1)).map Hart.installed = some none ∧ three.NamesDistinct ∧
      three.harts ≠ []) ∧
    (core.wcore? 0 = some (WCore.init 0) ∧ (∀ h ∈ core.allHarts, h.residentOn 0 = false) ∧ (WCore.init 0).press.queue = [] ∧
      (∀ x ∈ (WCore.init 0).chans.toList, x.queue = []) ∧ (WCore.init 0).mend = [] ∧ core.part.teams = []) ∧
    (let left := withPart (fun p => { p with teams := [{ team1 with windows := windowsOf [(3, .wthread 0x100000)] }], members := [] }) core
     (left.wcore? 0).isSome = true ∧ (∀ h ∈ left.allHarts, h.residentOn 0 = false) ∧ left.removableW 0 = true) := by
  unfold State.NamesDistinct; decide +kernel

/-- A package with copies in the packages 8 to 15, and pair 8, 0 granted the gigabyte at 40000000h, where it holds a reservation. -/
def sNet : State :=
  { lS with pkg := { lS.pkg with remote := [(0x40, 1), (0x40000000 / 128, 1)], held := [(0x40000000 / 128, 8, 0)], grants := [⟨8, 0, 0x40000000, 2 ^ 30⟩] } }

/-- The same while a CHECKPOINT is performed. -/
def sBusy : State := withPart (fun p => { p with cmds := [.checkpoint 0 true false] }) sNet

theorem witness_PackageErrorsAndService_trapeze :
    let own := sNet.pkg.pkgId
    let pid := sNet.part.pid
    let reserved := withHart (fun h => { h with resv := some 0x40 }) sNet
    (State.reset.pkg.bringUp < 6 ∧ 6 ≤ sNet.pkg.bringUp) ∧ (sBusy.ownPair own pid = true ∧ sBusy.part.netBusy = true) ∧
    (sNet.part.netBusy = false ∧ sBusy.ownPair 8 0 = false) ∧
    (∀ n ∈ [2, 4, 8, 32], sNet.trapezeOk own pid 0x2000 n = true ∧ sNet.poisoned 0x2000 n = false ∧
      sNet.trapezeOk 8 0 0x40000000 n = true ∧ sNet.trapezeOk 8 0 0x7FFFFFFF n = false ∧ sNet.trapezeOk 9 0 0x40000000 n = false) ∧
    (sNet.Inv ∧ sNet.poison = [] ∧ { sNet with poison := [0x400] }.poisoned 0x2000 8 = true) ∧
    ((0x40000000 / 128, 8, 0) ∈ sNet.pkg.held ∧ (0x40000000 / 128 + 1, 8, 0) ∉ sNet.pkg.held) ∧
    0x2004 % 8 ≠ 0 ∧ sNet.holdsLine own pid (0x2000 / 128) = false ∧ reserved.holdsLine own pid (0x2000 / 128) = true := by
  unfold State.Inv; decide +kernel

theorem witness_PackageErrorsAndService_errors :
    let granule (pa : Nat) : State :=
      withPart (fun p => { p with teams := [{ team1 with windows := [{ windowAt 0 with granules := [⟨0, pa, [(0, .wthread 0x100000)], []⟩] }] }] }) wT
    (inTier 0x2000 = true ∧ inTier 0x8000000000 = false ∧ lS.onPackage 0x2000 = true ∧ inTier (319 * 2 ^ 47) = true ∧
      lS.onPackage (319 * 2 ^ 47) = false) ∧ (319 ≠ lS.pkg.pkgId ∧ 319 ∉ lS.pkg.unreachable) ∧
    (∀ m ∈ lS.part.teams, ∀ w ∈ m.windows, ∀ g ∈ w.granules, g.pa / 2 ^ 47 ≠ 319) ∧
    (∀ m ∈ (granule 0x5000).part.teams, ∀ w ∈ m.windows, ∀ g ∈ w.granules, g.pa / 2 ^ 47 ≠ 319) ∧
    ∃ m ∈ (granule (319 * 2 ^ 47)).part.teams, ∃ w ∈ m.windows, ∃ g ∈ w.granules, g.pa / 2 ^ 47 = 319 := by decide +kernel

theorem witness_PackageErrorsAndService_bringUp :
    (lS.pkg.bringUp = 7 ∧ State.reset.pkg.bringUp ≠ 7 ∧ State.reset.pkg.bringUpFailed = false) ∧ State.reset.pkg.stages = [] ∧
    sparseWf [] State.reset.pkg.lifetime.rowMap = true ∧
    (∀ n ∈ [1, 2, 3, 4, 5, 6, 7], 1 ≤ (⟨n, 9⟩ : BringUpFailure).step ∧ (⟨n, 9⟩ : BringUpFailure).step ≤ 7) := by decide +kernel

/-- A firmware image below the fused minimum, or one that does not verify, is there unless everything verifies. -/
theorem witness_PackageErrorsAndService_insecure (h : 0 < Config.minVersion) :
    ∃ g ∈ ({ State.reset with pkg := { State.reset.pkg with stages := [⟨[], [], 0, 0⟩] } } : State).pkg.stages, ¬ Config.minVersion ≤ g.version :=
  ⟨_, List.mem_singleton.mpr rfl, by simpa using h.ne'⟩

theorem witness_PackageErrorsAndService_power :
    let busy := withCmd (cmdOf .strm 126 none) wT
    let two := withPart (fun p => { p with wcoreNums := [0, 1], wcores := p.wcores ++ [WCore.init 1] }) busy
    let works (w : Nat) : Option Bool := (two.wcore? w).map fun c => !c.press.queue.isEmpty
    works 0 = some true ∧ works 1 = some false ∧ two.clockStopped 0 = false ∧ two.part.wcoreNums = [0, 1] ∧
    lS.pkg.committed.shutdowns < 2 ^ 64 - 1 ∧
      (255 ∉ lS.part.wcoreNums ∧ lS.clockStopped 255 = false ∧ sparseWf [] lS.pkg.lifetime.rowMap = true ∧ sparseWf [] lS.pkg.faults = true ∧
      0 ∈ wT.part.wcoreNums) := by
  decide +kernel

theorem witness_EncodeDecode :
    ∀ i ∈ [Instr.base none (.imm .addi 1 2 0xFFF), .base (some 0x1141) (.imm .addi 2 2 0xFF0), .dmom 20 3 4, .tbarSync 15,
        .pfx ⟨false, 3, 0, 7, false, 0⟩ (.base none (.imm .addi 1 2 0xFFF))],
      i.wf = true ∧ i.encodable = true := by decide +kernel

/-- A word at the pc. -/
def fetching (w : Nat) : State := put 0 4 w lU

/-- The current hart has run in this A-clock. -/
def running (s : State) : State := { s with ran := if s.hart.id ∈ s.ran then s.ran else s.ran ++ [s.hart.id] }

theorem witness_FetchesAt (w : Nat) (h : w = 0xFFF10093 ∨ w = 0x0200008B) : FetchesAt (running (fetching w)) (natLe 4 w) := by
  refine ⟨by rcases h with rfl | rfl <;> decide +kernel, by simp [natLe], by rcases h with rfl | rfl <;> decide +kernel, fun k hk => ⟨2 * k, ?_⟩⟩
  have h2 : k = 0 ∨ k = 1 := by simp [natLe] at hk; omega
  rcases h with rfl | rfl <;> rcases h2 with rfl | rfl <;> unfold NoPrivate <;> decide +kernel

theorem witness_StepRunsDecoded :
    (∀ w ∈ [0xFFF10093, 0x0200008B], let t := fetching w
      t.tail = [] ∧ t.hart.id ∉ t.ran ∧ (running t).active = true ∧ (running t).dueIrq = none ∧
      hartEvent (running t) (running t).hart = none ∧ (running t).canRun = true ∧ t.pkg.bringUp = 7 ∧ t.agenda = [] ∧ t.dueEvents = [] ∧
      t.hart.id = .lcore 0 ∧ t.pkg.trace.place = none) ∧
    decode (natLe 4 0xFFF10093) = .ok (.base none (.imm .addi 1 2 0xFFF)) 4 ∧
    (match decode (natLe 4 0x0200008B) with | .illegal e => e.len | _ => 0) = 4 := by decide +kernel

theorem witness_MemoryStaysCanonical :
    (fetching 0xFFF10093).Inv ∧
      (match step (fetching 0xFFF10093) with | .next t => some t.hart.instret | _ => none) = some ((fetching 0xFFF10093).hart.instret + 1) := by
  unfold State.Inv; decide +kernel

/-! ## Well-formedness: for each check a term that it refuses, beside one that it admits -/

/-- The ADD f2, f0, f1 rounded as rm says. -/
def addRm (rm : BitVec 3) : Instr := .base none (.farith .add .s 2 0 1 rm)

theorem test_wf_rm : (addRm 5).wf = false ∧ (addRm 6).wf = false ∧ (addRm 4).wf = true ∧ (addRm 7).wf = true := by decide
theorem test_wf_rm_rows :
    ([.fma .madd .s 0 0 0 0 5, .fsqrt .s 0 0 6, .fcvtToInt .w .s 0 0 5, .fcvtFromInt .w .s 0 0 6, .fcvtSD 0 0 5, .fcvtDS 0 0 6] :
      List BaseInstr).all (fun b => !(Instr.base none b).wf) = true := by decide
theorem test_wf_predicate :
    ([.pcmpEq 12 0 0, .pcmpGeu 15 0 0, .pfeqS 12 0 0, .pfunD 13 0 0, .pand 12 0 0, .por 0 12 0, .pxor 0 0 15, .pandn 0 14 0, .pnot 12 0,
      .pnot 0 12] : List Instr).all (fun i => !i.wf) = true ∧ (Instr.pand 11 11 11).wf = true := by decide
theorem test_wf_odd_word : (Instr.wmvw 1 3).wf = false ∧ (Instr.wmvw 1 2).wf = true := by decide
theorem test_wf_moment : (Instr.dmom 0 0 5).wf = false ∧ (Instr.dmom 0 0 4).wf = true := by decide
theorem test_wf_compressed_parcel : (Instr.base (some 0x0003) .ecall).wf = false := by decide

/-- A pair with a prefix that is neutral but for what f changes. -/
def pairOf (f : Pfx → Pfx) (i : Instr) : Bool := (Instr.pfx (f .neutral) i).wf

theorem test_wf_pair_guard :
    [12, 13, 14].all (fun g => !pairOf (fun p => { p with guard := g }) .migrW) = true ∧
    pairOf (fun p => { p with sense := true }) .migrW = false ∧
    pairOf (fun p => { p with guard := 11, sense := true }) .migrW = true := by decide
theorem test_wf_pair_hint :
    pairOf (fun p => { p with hint := 1 }) (addRm 7) = false ∧
    pairOf (fun p => { p with hint := 1 }) (.base none (.branch .beq 1 2 4)) = true := by decide
theorem test_wf_pair_rm :
    pairOf (fun p => { p with rm := 1 }) (.base none (.alu .add 1 2 3)) = false ∧
      pairOf (fun p => { p with rm := 1 }) (addRm 7) = true := by decide
theorem test_wf_pair_mz :
    pairOf (fun p => { p with mz := true }) (addRm 7) = false ∧ pairOf (fun p => { p with mz := true, guard := 3 }) .mwait = false ∧
    pairOf (fun p => { p with mz := true, guard := 3 }) (addRm 7) = true := by decide
theorem test_wf_pair_rs4 :
    pairOf (fun p => { p with rs4 := 9 }) (addRm 7) = false ∧ pairOf (fun p => { p with rs4 := 9 }) (.fuseS 1 2 3 4 0) = true := by decide
theorem test_wf_pair_supervisor :
    pairOf (fun p => { p with guard := 3 }) (.zresume 1 2) = false ∧ pairOf id (.zresume 1 2) = true := by decide
theorem test_wf_pair_subject :
    pairOf id (.pfx .neutral .migrW) = false ∧ pairOf id .preempt = false ∧ pairOf id (.base (some 0x0085) (.imm .addi 1 1 1)) = false ∧
    pairOf id (.dmom 0 0 5) = false := by decide

/-! The words worked out in the spec's text, a pair among them. -/

theorem test_decode_worked_words : Reads [
  (0x0000000B, .migrW),
  (0x0255A50B, .shflXor 10 11 5),
  (0x1031508B, .pand 1 2 3),
  (0x00B5608B, .jtab 1 10 11),
  (0x0083AE2B, .wldIndexed 28 0 7),
  (0x0205E57B, .zpark 10 11)] := reads_of _ (by decide +kernel)
theorem test_decode_pair :
    decodeTableWord 64 (0xFFF10093 * 2 ^ 32 + 0x0067707B) = some (.pfx ⟨false, 3, 0, 7, false, 0⟩ (.base none (.imm .addi 1 2 0xFFF))) := by
  decide +kernel

/-- A ZPARK word with a nonzero reserved field is no instruction that an emulation handler may get; a word of no supervisor row is (R132). -/
theorem test_decode_supervisor_reserved :
    (match decode32 0x0215E57B with | .illegal e => some e.eligible | _ => none) = some false ∧
    (match decode32 0xC000007B with | .illegal e => some e.eligible | _ => none) = some true := by decide +kernel

end Sys2Proof.Tests
end

section
/-! PROOFS of O57. The decoder reads back what the encoder writes: the fields of a word, the operand classes, row by row the fields of an
instruction, and the bytes. -/
namespace Sys2Proof

/-! ## The fields of a word (R121, R123) -/

/-- A word's bits are those of its fields in a row. -/
theorem extractLsb'_word (f : Fields) (s len : Nat) :
    f.word.extractLsb' s len = (f.f7 ++ f.rs2 ++ f.rs1 ++ f.f3 ++ f.rd ++ f.op).extractLsb' s len := rfl

theorem fieldsOf_word (f : Fields) : fieldsOf f.word = f := by
  simp (disch := decide) only [fieldsOf, extractLsb'_word, BitVec.extractLsb'_append_eq_of_add_le, BitVec.extractLsb'_append_eq_of_le]
  simp

theorem extractLsb'_pfxWord (p : Pfx) (s len : Nat) :
    p.word.extractLsb' s len =
      (0#6 ++ bit1 p.sense ++ p.guard ++ p.hint ++ p.rm ++ bit1 p.mz ++ 7#3 ++ p.rs4 ++ 0x7B#7).extractLsb' s len := rfl

theorem bit1_beq (b : Bool) : (bit1 b == 1#1) = b := by cases b <;> rfl

theorem pfxOf_word (p : Pfx) : pfxOf p.word = p := by
  simp (disch := decide) only [pfxOf, extractLsb'_pfxWord, BitVec.extractLsb'_append_eq_of_add_le, BitVec.extractLsb'_append_eq_of_le]
  simp [bit1_beq]

theorem isPfx_word (p : Pfx) : isPfx p.word = true := by
  simp (disch := decide) only [isPfx, extractLsb'_pfxWord, BitVec.extractLsb'_append_eq_of_add_le, BitVec.extractLsb'_append_eq_of_le]
  rfl

theorem reserved_word (p : Pfx) : p.word.extractLsb' 26 6 = 0#6 := by
  simp (disch := decide) only [extractLsb'_pfxWord, BitVec.extractLsb'_append_eq_of_le]
  rfl

/-! ## The immediates of the formats (R121) -/

section Formats

variable (im : BitVec 12) (off : BitVec 12) (imU offJ : BitVec 20) (rs3 rs2 rs1 rd : BitVec 5) (f2 : BitVec 2) (f3 : BitVec 3) (op : BitVec 7)

@[simp] theorem immI_iType : (iType im rs1 f3 rd op).immI = im := BitVec.extractLsb'_append_extractLsb' (w := 7) (len := 5)

@[simp] theorem immS_sType : (sType im rs2 rs1 f3 op).immS = im := BitVec.extractLsb'_append_extractLsb' (w := 7) (len := 5)

@[simp] theorem immU_uType : (uType imU rd op).immU = imU := by
  show imU.extractLsb' 13 7 ++ imU.extractLsb' 8 5 ++ imU.extractLsb' 3 5 ++ imU.extractLsb' 0 3 = _
  simp only [BitVec.extractLsb'_append_extractLsb'_eq_extractLsb']
  simp

@[simp] theorem offB_bType : (bType off rs2 rs1 f3 op).offB = off := by
  show (off.extractLsb' 11 1 ++ off.extractLsb' 4 6).extractLsb' 6 1 ++ (off.extractLsb' 0 4 ++ off.extractLsb' 10 1).extractLsb' 0 1 ++
    (off.extractLsb' 11 1 ++ off.extractLsb' 4 6).extractLsb' 0 6 ++ (off.extractLsb' 0 4 ++ off.extractLsb' 10 1).extractLsb' 1 4 = off
  simp (disch := decide) only [BitVec.extractLsb'_append_eq_of_add_le, BitVec.extractLsb'_append_eq_of_le, Nat.sub_self,
    BitVec.extractLsb'_eq_self, BitVec.extractLsb'_append_extractLsb'_eq_extractLsb']

@[simp] theorem offJ_jType : (jType offJ rd op).offJ = offJ := by
  have h (s len : Nat) : (jType offJ rd op).immU.extractLsb' s len =
      (offJ.extractLsb' 19 1 ++ offJ.extractLsb' 0 10 ++ offJ.extractLsb' 10 1 ++ offJ.extractLsb' 11 8).extractLsb' s len := by
    rw [jType, immU_uType]
  simp (disch := decide) only [Fields.offJ, h, BitVec.extractLsb'_append_eq_of_add_le, BitVec.extractLsb'_append_eq_of_le, Nat.sub_self,
    Nat.reduceSub, BitVec.extractLsb'_eq_self, BitVec.extractLsb'_append_extractLsb'_eq_extractLsb']

@[simp] theorem rs3_r4 : (r4 rs3 f2 rs2 rs1 f3 rd op).rs3 = rs3 := BitVec.extractLsb'_append_eq_left

@[simp] theorem f2_r4 : (r4 rs3 f2 rs2 rs1 f3 rd op).f2 = f2 := BitVec.extractLsb'_append_eq_right

end Formats

theorem word32_bytes32 (w : BitVec 32) :
    word32 (parcel (w.extractLsb' 0 8) (w.extractLsb' 8 8)) (parcel (w.extractLsb' 16 8) (w.extractLsb' 24 8)) = w := by
  show (w.extractLsb' 24 8 ++ w.extractLsb' 16 8) ++ (w.extractLsb' 8 8 ++ w.extractLsb' 0 8) = w
  simp only [BitVec.extractLsb'_append_extractLsb'_eq_extractLsb']
  simp

theorem parcel_halves (c : BitVec 16) : parcel (c.extractLsb' 0 8) (c.extractLsb' 8 8) = c :=
  BitVec.extractLsb'_append_extractLsb' (w := 8) (len := 8)

/-! ## The base profile (R118, R119) -/

section Base

variable (im : BitVec 12) (rs1 rd : BitVec 5) (f3 : BitVec 3) (op : BitVec 7) (c sh : BitVec 6)

theorem shiftImm_hi : (c ++ sh : BitVec 12).extractLsb' 6 6 = c := BitVec.extractLsb'_append_eq_left

theorem shiftImm_lo : (c ++ sh : BitVec 12).extractLsb' 0 6 = sh := BitVec.extractLsb'_append_eq_right

theorem shiftWImm_hi (c : BitVec 7) (sh : BitVec 5) : (c ++ sh : BitVec 12).extractLsb' 6 6 = c.extractLsb' 1 6 :=
  BitVec.extractLsb'_append_eq_of_le (by decide)

/-- funct7 of the A extension holds the operation above its two ordering bits. -/
theorem amoF7 (c : BitVec 5) (aq rl : Bool) :
    let f7 : BitVec 7 := c ++ bit1 aq ++ bit1 rl
    f7.extractLsb' 2 5 = c ∧ (f7.extractLsb' 1 1 == 1#1) = aq ∧ (f7.extractLsb' 0 1 == 1#1) = rl := by
  have h (s len : Nat) : (c ++ bit1 aq ++ bit1 rl : BitVec 7).extractLsb' s len = (c ++ bit1 aq ++ bit1 rl).extractLsb' s len := rfl
  simp (disch := decide) only [h, BitVec.extractLsb'_append_eq_of_add_le, BitVec.extractLsb'_append_eq_of_le, Nat.sub_self,
    Nat.reduceSub, BitVec.extractLsb'_eq_self, bit1_beq, and_self]

/-- OP-FP reads the format from the low bits of funct7. -/
theorem decFields_opFp (c : BitVec 5) (fmt : Fmt) (rs2 rs1 : BitVec 5) (f3 : BitVec 3) (rd : BitVec 5) :
    decFields (⟨c ++ fmt.code, rs2, rs1, f3, rd, 0x53#7⟩) = decOpFpFmt fmt (⟨c ++ fmt.code, rs2, rs1, f3, rd, 0x53#7⟩) := by
  have h : (⟨c ++ fmt.code, rs2, rs1, f3, rd, 0x53#7⟩ : Fields).f2 = fmt.code := BitVec.extractLsb'_append_eq_right
  show decOpFp _ = _
  rw [decOpFp, h]
  cases fmt <;> rfl

theorem opFp_hi (c : BitVec 5) (fmt : Fmt) : (c ++ fmt.code : BitVec 7).extractLsb' 2 5 = c := BitVec.extractLsb'_append_eq_left

theorem decMiscMem_fence (pred succ : BitVec 4) : decMiscMem (BaseInstr.fence pred succ).fields = some (.fence pred succ) := by
  have h : (BaseInstr.fence pred succ).fields.immI = 0#4 ++ pred ++ succ := immI_iType ..
  have h (s len : Nat) : (BaseInstr.fence pred succ).fields.immI.extractLsb' s len = (0#4 ++ pred ++ succ).extractLsb' s len := by rw [h]
  show (if (BaseInstr.fence pred succ).fields.immI.extractLsb' 8 4 = 0#4 then
    some (BaseInstr.fence ((BaseInstr.fence pred succ).fields.immI.extractLsb' 4 4)
      ((BaseInstr.fence pred succ).fields.immI.extractLsb' 0 4)) else _) = _
  simp (disch := decide) only [h, BitVec.extractLsb'_append_eq_of_add_le, BitVec.extractLsb'_append_eq_of_le, Nat.sub_self,
    Nat.reduceSub, BitVec.extractLsb'_eq_self, if_true]

@[simp] theorem iType_op : (iType im rs1 f3 rd op).op = op := rfl
@[simp] theorem iType_f3 : (iType im rs1 f3 rd op).f3 = f3 := rfl
@[simp] theorem iType_rd : (iType im rs1 f3 rd op).rd = rd := rfl
@[simp] theorem iType_rs1 : (iType im rs1 f3 rd op).rs1 = rs1 := rfl

end Base

/-- The decoder gives back the base instruction whose fields it reads. -/
theorem decFields_base {b : BaseInstr} (h : b.wf = true) : decFields b.fields = .ok (.base none b) := by
  cases b with
  | lui rd im => exact congrArg (fun i => ok32 (.lui rd i)) (immU_uType im rd _)
  | auipc rd im => exact congrArg (fun i => ok32 (.auipc rd i)) (immU_uType im rd _)
  | jal rd off => exact congrArg (fun i => ok32 (.jal rd i)) (offJ_jType off rd _)
  | jalr rd rs1 im => exact congrArg (fun i => ok32 (.jalr rd rs1 i)) (immI_iType im rs1 rd _ _)
  | branch op rs1 rs2 off => cases op <;> exact congrArg (fun i => ok32 (.branch _ rs1 rs2 i)) (offB_bType off rs2 rs1 _ _)
  | load op rd rs1 im => cases op <;> exact congrArg (fun i => ok32 (.load _ rd rs1 i)) (immI_iType im rs1 rd _ _)
  | store op rs1 rs2 im => cases op <;> exact congrArg (fun i => ok32 (.store _ rs1 rs2 i)) (immS_sType im rs2 rs1 _ _)
  | imm op rd rs1 im => cases op <;> exact congrArg (fun i => ok32 (.imm _ rd rs1 i)) (immI_iType im rs1 rd _ _)
  | shift op rd rs1 sh =>
    cases op <;> simp [decFields, decOpImm, decOpImmLeft, decOpImmRight, decOpImm32, BaseInstr.fields, ShiftOp.code, shiftImm_hi,
      shiftImm_lo, ok32, opt32]
  | shiftW op rd rs1 sh =>
    cases op <;> simp [decFields, decOpImm32, BaseInstr.fields, ShiftWOp.code, rType, Fields.immI, shiftWImm_hi, ok32, opt32]
  | unary op rd rs1 =>
    cases op <;> simp [decFields, decOpImm, decOpImmLeft, decOpImmRight, decOpImm32, decOp32, BaseInstr.fields, UnaryOp.code, iType, Fields.immI,
      ok32, opt32]
  | alu op rd rs1 rs2 => cases op <;> rfl
  | fence pred succ => exact congrArg opt32 (decMiscMem_fence pred succ)
  | fenceTso => rfl
  | fenceI => rfl
  | ecall => rfl
  | ebreak => rfl
  | sret => rfl
  | mret => rfl
  | wfi => rfl
  | sfenceVma rs1 rs2 => rfl
  | csr op rd rs1 addr => cases op <;> exact congrArg (fun i => ok32 (.csr _ rd rs1 i)) (immI_iType addr rs1 rd _ _)
  | csrImm op rd uimm addr => cases op <;> exact congrArg (fun i => ok32 (.csrImm _ rd uimm i)) (immI_iType addr uimm rd _ _)
  | lr dbl aq rl rd rs1 =>
    obtain ⟨hop, haq, hrl⟩ := amoF7 2#5 aq rl
    cases dbl <;> simp only [decFields, decAmo, BaseInstr.fields, rType, amoF3, hop, haq, hrl] <;> rfl
  | sc dbl aq rl rd rs1 rs2 =>
    obtain ⟨hop, haq, hrl⟩ := amoF7 3#5 aq rl
    cases dbl <;> simp only [decFields, decAmo, BaseInstr.fields, rType, amoF3, hop, haq, hrl] <;> rfl
  | amo op dbl aq rl rd rs1 rs2 =>
    obtain ⟨hop, haq, hrl⟩ := amoF7 op.code aq rl
    cases dbl <;> simp only [decFields, decAmo, BaseInstr.fields, rType, amoF3, hop, haq, hrl] <;> cases op <;> rfl
  | fload fmt rd rs1 im => cases fmt <;> exact congrArg (fun i => ok32 (.fload _ rd rs1 i)) (immI_iType im rs1 rd _ _)
  | fstore fmt rs1 rs2 im => cases fmt <;> exact congrArg (fun i => ok32 (.fstore _ rs1 rs2 i)) (immS_sType im rs2 rs1 _ _)
  | fma op fmt rd rs1 rs2 rs3 rm =>
    have h1 : decFields (BaseInstr.fma op fmt rd rs1 rs2 rs3 rm).fields = decFma op (r4 rs3 fmt.code rs2 rs1 rm rd op.code) := by
      cases op <;> rfl
    rw [h1, decFma, f2_r4, rs3_r4]
    cases fmt <;> exact if_pos h
  | farith op fmt rd rs1 rs2 rm =>
    simp only [BaseInstr.fields, decFields_opFp, decOpFpFmt, rType, opFp_hi]
    cases op <;> exact if_pos h
  | fsqrt fmt rd rs1 rm =>
    simp only [BaseInstr.fields, decFields_opFp, decOpFpFmt, rType, opFp_hi]
    exact if_pos h
  | fsgn op fmt rd rs1 rs2 =>
    simp only [BaseInstr.fields, decFields_opFp, decOpFpFmt, rType, opFp_hi]
    cases op <;> rfl
  | fminmax isMax fmt rd rs1 rs2 =>
    simp only [BaseInstr.fields, decFields_opFp, decOpFpFmt, rType, opFp_hi]
    cases isMax <;> rfl
  | fcmp op fmt rd rs1 rs2 =>
    simp only [BaseInstr.fields, decFields_opFp, decOpFpFmt, rType, opFp_hi]
    cases op <;> rfl
  | fclass fmt rd rs1 =>
    simp only [BaseInstr.fields, decFields_opFp, decOpFpFmt, rType, opFp_hi]
    rfl
  | fmvToX fmt rd rs1 =>
    simp only [BaseInstr.fields, decFields_opFp, decOpFpFmt, rType, opFp_hi]
    rfl
  | fmvFromX fmt rd rs1 =>
    simp only [BaseInstr.fields, decFields_opFp, decOpFpFmt, rType, opFp_hi]
    rfl
  | fcvtToInt ty fmt rd rs1 rm =>
    simp only [BaseInstr.fields, decFields_opFp, decOpFpFmt, rType, opFp_hi]
    cases ty <;> exact if_pos h
  | fcvtFromInt ty fmt rd rs1 rm =>
    simp only [BaseInstr.fields, decFields_opFp, decOpFpFmt, rType, opFp_hi]
    cases ty <;> exact if_pos h
  | fcvtSD rd rs1 rm => exact (decFields_opFp 0x08#5 .s _ rs1 rm rd).trans (by simp only [decOpFpFmt, opFp_hi]; exact if_pos h)
  | fcvtDS rd rs1 rm => exact (decFields_opFp 0x08#5 .d _ rs1 rm rd).trans (by simp only [decOpFpFmt, opFp_hi]; exact if_pos h)

/-! ## The operand classes (R122): what a field holds is read back -/

section Classes

theorem pOf_append {d : PReg} (h : predOk d = true) : pOf (0#1 ++ d) = some d := by
  have hz : (0#1 ++ d : BitVec 5).extractLsb' 4 1 = 0#1 := BitVec.extractLsb'_append_eq_left
  have hd : (0#1 ++ d : BitVec 5).extractLsb' 0 4 = d := BitVec.extractLsb'_append_eq_right
  simp [pOf, hz, hd, h]

theorem bOf_append (b : BitVec 4) : bOf (0#1 ++ b) = some b := by
  have hz : (0#1 ++ b : BitVec 5).extractLsb' 4 1 = 0#1 := BitVec.extractLsb'_append_eq_left
  have hb : (0#1 ++ b : BitVec 5).extractLsb' 0 4 = b := BitVec.extractLsb'_append_eq_right
  simp [bOf, hz, hb]

theorem dOf_append (d : BitVec 3) : dOf (0#2 ++ d) = some d := by
  have hz : (0#2 ++ d : BitVec 5).extractLsb' 3 2 = 0#2 := BitVec.extractLsb'_append_eq_left
  have hd : (0#2 ++ d : BitVec 5).extractLsb' 0 3 = d := BitVec.extractLsb'_append_eq_right
  simp [dOf, hz, hd]

theorem kOf_append (k : KReg) : kOf (0#3 ++ k) = some k := by
  have hz : (0#3 ++ k : BitVec 5).extractLsb' 2 3 = 0#3 := BitVec.extractLsb'_append_eq_left
  have hk : (0#3 ++ k : BitVec 5).extractLsb' 0 2 = k := BitVec.extractLsb'_append_eq_right
  simp [kOf, hz, hk]

theorem oneOf_append (t : BitVec 1) : oneOf (0#4 ++ t) = some t := by
  have hz : (0#4 ++ t : BitVec 5).extractLsb' 1 4 = 0#4 := BitVec.extractLsb'_append_eq_left
  have ht : (0#4 ++ t : BitVec 5).extractLsb' 0 1 = t := BitVec.extractLsb'_append_eq_right
  simp [oneOf, hz, ht]

theorem momK_append {n : BitVec 3} (h : n.toNat ≤ 4) : momK (0#2 ++ n) = some n := by
  have hn : (0#2 ++ n : BitVec 5).extractLsb' 0 3 = n := BitVec.extractLsb'_append_eq_right
  have ht : (0#2 ++ n : BitVec 5).toNat = n.toNat := by rw [BitVec.toNat_append]; simp
  simp [momK, hn, ht, h]

variable (w : WIdx)

/-- A word number is cut into its bit 5 and its five low bits, and put together again. -/
theorem word_append : (0#4 ++ w.extractLsb' 5 1 : BitVec 5).extractLsb' 0 1 ++ w.extractLsb' 0 5 = w := by
  rw [show (0#4 ++ w.extractLsb' 5 1 : BitVec 5).extractLsb' 0 1 = w.extractLsb' 5 1 from BitVec.extractLsb'_append_eq_right]
  exact BitVec.extractLsb'_append_extractLsb' (w := 1) (len := 5)

theorem word_zeroHi : (0#4 ++ w.extractLsb' 5 1 : BitVec 5).extractLsb' 1 4 = 0#4 := BitVec.extractLsb'_append_eq_left

/-- A word selector with rs2[4:1] zero names a word by its number (R128). -/
theorem wordSel_direct (f7 : BitVec 7) (f3 : BitVec 3) (rd : BitVec 5) (op : BitVec 7) (direct : WIdx → Instr)
    (indexed : KReg → XReg → Instr) :
    wordSel (rType f7 (0#4 ++ w.extractLsb' 5 1) (w.extractLsb' 0 5) f3 rd op) direct indexed = some (direct w) := by
  simp [wordSel, rType, word_zeroHi, word_append]

/-- A word selector with rs2[4:3] = 01 names a word by an index register (R128). -/
theorem wordSel_indexed (f7 : BitVec 7) (k : KReg) (a : XReg) (f3 : BitVec 3) (rd : BitVec 5) (op : BitVec 7) (direct : WIdx → Instr)
    (indexed : KReg → XReg → Instr) :
    wordSel (rType f7 (0b01#2 ++ k ++ 0#1) a f3 rd op) direct indexed = some (indexed k a) := by
  have h : ∀ k : BitVec 2, let x : BitVec 5 := 0b01#2 ++ k ++ 0#1
      x.extractLsb' 1 4 ≠ 0#4 ∧ x.extractLsb' 3 2 = 1#2 ∧ x.extractLsb' 0 1 = 0#1 ∧ x.extractLsb' 1 2 = k := by decide
  obtain ⟨h1, h2, h3, h4⟩ := h k
  simp [wordSel, rType, h1, h2, h3, h4]

theorem evenW_append {f7 : BitVec 7} {f3 : BitVec 3} {rd : BitVec 5} {op : BitVec 7} (h : w.extractLsb' 0 1 = 0#1) :
    evenW (rType f7 (0#4 ++ w.extractLsb' 5 1) (w.extractLsb' 0 5) f3 rd op) = some w := by
  have h0 : (w.extractLsb' 0 5).extractLsb' 0 1 = 0#1 := by rw [BitVec.extractLsb'_extractLsb'_of_le (by decide), h]
  simp [evenW, rType, word_zeroHi, word_append, h0]
end Classes

/-! ## The Zaryar rows (R127 to R130) -/

/-- A check that an operand passes. -/
theorem need_bind {α : Type} {o : Option α} {a : α} {k : α → Option Instr} {i : Instr} (ho : o = some a) (hk : need (k a) = .ok i) :
    need (o >>= k) = .ok i := by subst ho; exact hk

/-- TBAR holds its kind above its barrier number (R127). -/
theorem decTbar_fields (k : BitVec 2) (n : BitVec 4) :
    let f := iType (k ++ 0#6 ++ n) 0#5 1#3 0#5 11#7
    f.immI.extractLsb' 10 2 = k ∧ f.immI.extractLsb' 4 6 = 0#6 ∧ f.immI.extractLsb' 0 4 = n := by
  have h (s len : Nat) : (iType (k ++ 0#6 ++ n) 0#5 1#3 0#5 11#7).immI.extractLsb' s len = (k ++ 0#6 ++ n).extractLsb' s len := by
    rw [immI_iType]
  simp (disch := decide) only [h, BitVec.extractLsb'_append_eq_of_add_le, BitVec.extractLsb'_append_eq_of_le, Nat.sub_self,
    Nat.reduceSub, BitVec.extractLsb'_eq_self, and_self]

theorem decFields_tbar {k : BitVec 2} (n : BitVec 4) (hk : k ≠ 3#2) :
    decFields (iType (k ++ 0#6 ++ n) 0#5 1#3 0#5 11#7) =
      if k = 0#2 then .ok (.tbarArr n) else if k = 1#2 then .ok (.tbarWait n) else .ok (.tbarSync n) := by
  obtain ⟨h1, h2, h3⟩ := decTbar_fields k n
  show decTbar _ = _
  simp only [decTbar, h1, h2, h3]
  have hk3 : ∀ k : BitVec 2, k ≠ 3#2 → k = 0#2 ∨ k = 1#2 ∨ k = 2#2 := by decide
  obtain rfl | rfl | rfl := hk3 k hk <;> rfl

/-- FUSE holds its slot in funct2 and funct3 (R129). -/
theorem decFuse_fields (k : BitVec 1) (slot : BitVec 4) (d a b c : BitVec 5) :
    let f := r4 c (k ++ slot.extractLsb' 3 1) b a (slot.extractLsb' 0 3) d 91#7
    f.f2.extractLsb' 1 1 = k ∧ f.f2.extractLsb' 0 1 ++ f.f3 = slot := by
  have h2 : (r4 c (k ++ slot.extractLsb' 3 1) b a (slot.extractLsb' 0 3) d 91#7).f2 = k ++ slot.extractLsb' 3 1 := f2_r4 ..
  refine ⟨?_, ?_⟩
  · rw [h2]; exact BitVec.extractLsb'_append_eq_left
  · rw [h2, show (k ++ slot.extractLsb' 3 1 : BitVec 2).extractLsb' 0 1 = slot.extractLsb' 3 1 from BitVec.extractLsb'_append_eq_right]
    exact BitVec.extractLsb'_append_extractLsb' (w := 1) (len := 3)

theorem decFields_fuse (k : BitVec 1) (slot : BitVec 4) (d a b c : BitVec 5) :
    decFields (r4 c (k ++ slot.extractLsb' 3 1) b a (slot.extractLsb' 0 3) d 91#7) =
      if k == 0#1 then .ok (.fuseS d a b c slot) else .ok (.fuseD d a b c slot) := by
  obtain ⟨hk, hs⟩ := decFuse_fields k slot d a b c
  show decFuse _ = _
  simp only [decFuse, rs3_r4, hk, hs]
  rfl

theorem decFields_wmv (dst src : WIdx) : decFields (Instr.wmv dst src).fields = .ok (.wmv dst src) := by
  have h (s len : Nat) : (0#3 ++ dst.extractLsb' 5 1 ++ src.extractLsb' 5 1 : BitVec 5).extractLsb' s len =
    (0#3 ++ dst.extractLsb' 5 1 ++ src.extractLsb' 5 1).extractLsb' s len := rfl
  have hz : zeroHi3 (0#3 ++ dst.extractLsb' 5 1 ++ src.extractLsb' 5 1) = some () := by
    simp (disch := decide) only [zeroHi3, h, BitVec.extractLsb'_append_eq_of_le, Nat.sub_self, Nat.reduceSub, BitVec.extractLsb'_eq_self]
    rfl
  have hd : (0#3 ++ dst.extractLsb' 5 1 ++ src.extractLsb' 5 1 : BitVec 5).extractLsb' 1 1 ++ dst.extractLsb' 0 5 = dst := by
    simp (disch := decide) only [BitVec.extractLsb'_append_eq_of_le, BitVec.extractLsb'_append_eq_of_add_le, Nat.sub_self,
      BitVec.extractLsb'_eq_self]
    exact BitVec.extractLsb'_append_extractLsb' (w := 1) (len := 5)
  have hs : (0#3 ++ dst.extractLsb' 5 1 ++ src.extractLsb' 5 1 : BitVec 5).extractLsb' 0 1 ++ src.extractLsb' 0 5 = src := by
    simp (disch := decide) only [BitVec.extractLsb'_append_eq_of_add_le, BitVec.extractLsb'_eq_self]
    exact BitVec.extractLsb'_append_extractLsb' (w := 1) (len := 5)
  exact need_bind hz (congrArg Except.ok (congrArg₂ Instr.wmv hd hs))

/-- The decoder gives back the row whose fields it reads (R121, R122, R127 to R130). -/
theorem decFields_fields {i : Instr} (hp : i.plain = true) (hf : i.fieldsOk = true) (hc : ∀ c b, i ≠ .base (some c) b) :
    decFields i.fields = .ok i := by
  cases i
  case base c b =>
    cases c with
    | none => exact decFields_base hf
    | some c => exact absurd rfl (hc c b)
  case tbarArr n | tbarWait n | tbarSync n => exact decFields_tbar n (by decide)
  case pcmpEq | pcmpNe | pcmpLt | pcmpGe | pcmpLtu | pcmpGeu => exact need_bind (pOf_append hf) rfl
  case pfeqS | pfltS | pfleS | pfunS | pfeqD | pfltD | pfleD | pfunD => exact need_bind (pOf_append hf) rfl
  case pand d a b | por d a b | pxor d a b | pandn d a b =>
    obtain ⟨hda, hb⟩ := Bool.and_eq_true_iff.1 hf
    obtain ⟨hd, ha⟩ := Bool.and_eq_true_iff.1 hda
    exact need_bind (pOf_append hd) (need_bind (pOf_append ha) (need_bind (pOf_append hb) rfl))
  case pnot d a =>
    obtain ⟨hd, ha⟩ := Bool.and_eq_true_iff.1 hf
    exact need_bind (pOf_append hd) (need_bind (pOf_append ha) rfl)
  case bldB | bldH | bldW | bldD | bldBu | bldHu | bldWu | bldFw | bldFd | bldFh => exact need_bind (bOf_append _) rfl
  case bstB | bstH | bstW | bstD | bstFw | bstFd | bstFh => exact need_bind (bOf_append _) rfl
  case wldDirect d w | wstDirect d w | wldfDirect d w | wstfDirect d w => exact congrArg need (wordSel_direct w _ _ d _ _ _)
  case wldIndexed d k a | wstIndexed d k a | wldfIndexed d k a | wstfIndexed d k a =>
    exact congrArg need (wordSel_indexed _ k a _ d _ _ _)
  case kset => exact need_bind (kOf_append _) rfl
  case wmv dst src => exact decFields_wmv dst src
  case wmvw d w => exact need_bind (evenW_append w (beq_iff_eq.1 hf)) rfl
  case bset | bget | bamoAdd | bamoMin | bamoMax | bamoAddf => exact need_bind (bOf_append _) rfl
  case fuseS d a b c slot => exact decFields_fuse 0#1 slot d a b c
  case fuseD d a b c slot => exact decFields_fuse 1#1 slot d a b c
  case dadd | dsub | dmul | ddiv | dmin | dmax | dmix =>
    exact need_bind (dOf_append _) (need_bind (dOf_append _) (need_bind (dOf_append _) rfl))
  case daff | dmv => exact need_bind (dOf_append _) (need_bind (dOf_append _) rfl)
  case dmap => exact need_bind (dOf_append _) (need_bind (dOf_append _) (need_bind (dOf_append _) rfl))
  case dform => exact need_bind (dOf_append _) (need_bind (dOf_append _) (need_bind (oneOf_append _) rfl))
  case duni => exact need_bind (dOf_append _) (need_bind (bOf_append _) rfl)
  case dpt | dsamp | dld | dst | dqnt | dcdf | dtag | dtags => exact need_bind (dOf_append _) rfl
  case dmom => exact need_bind (dOf_append _) (need_bind (momK_append (of_decide_eq_true hf)) rfl)
  case migrW | migrL | reform | gleave | gyield | tjoin | tleave | shfl | shflXor | shflUp | shflDn | gsumI | gminI | gmaxI |
    gminu | gmaxu | gand | gor | gxor | gscanI | ballot | gcount | shflF | gsumS | gsumD | gminS | gmaxS | gminD | gmaxD | gscanS
    | pmvXp | pmvPx | pany | pall | jtab | sobind | sounbind | acq | rel | mwatch | mwait | barinit | bararr | barwait | bartest |
    xcopy | xcfence | xcwait | xcqry | smap | sunmap | sflush | obres | obrel | mxfence | mxldw | mxswap | mxstrm | mxsqd | mxtopk
    | mxwait | acrd | acrdf | aczero | acwm | mxstat | mxsave | mxrest | ncvtE4 | ncvtE5 | ncvtE5s | ncvtBf | ncvtHf | ncvtI8 |
    ncvtN8 | wcvtE4 | wcvtE5 | wcvtBf | wcvtHf | wcvtI8 | wcvtN8 | fsclS | tspawn | ttake | tend | tdec | tyield | tbudg | tcancel
    | tstat | vpub | vfin | vacq | vchk | vsub | vsettle | zresume | zpark | zsignal | zfqpop => rfl
  all_goals cases hp

/-! ## The bytes (R4, R119, R120, R123) -/

/-- The major opcodes of the decoder's table (R120). -/
def majors : List (BitVec 7) :=
  [0x03#7, 0x07#7, 0x0B#7, 0x0F#7, 0x13#7, 0x17#7, 0x1B#7, 0x23#7, 0x27#7, 0x2B#7, 0x2F#7, 0x33#7, 0x37#7, 0x3B#7, 0x43#7, 0x47#7,
    0x4B#7, 0x4F#7, 0x53#7, 0x5B#7, 0x63#7, 0x67#7, 0x6F#7, 0x73#7, 0x7B#7]

section Bytes

variable {f : Fields} {i : Instr}

theorem op_mem_majors (h : decFields f = .ok i) : f.op ∈ majors := by
  unfold decFields at h
  split at h
  case h_26 => cases h
  all_goals rename_i ho; rw [ho]; decide

/-- Every major opcode is of 32 bits (R119, R120). -/
theorem majors_of_32_bits : ∀ op ∈ majors, op.extractLsb' 0 2 = 3#2 ∧ op.extractLsb' 0 5 ≠ 0x1F#5 := by decide

/-- custom-3 with funct3 111 is PFX and no subject (R123). -/
theorem decFields_pfx (ho : f.op = 0x7B#7) (h3 : f.f3 = 7#3) : decFields f = .error .unassigned := by
  simp only [decFields, ho, decCustom3, h3]
  rfl

theorem parcel_lo (w : BitVec 32) : parcel (w.extractLsb' 0 8) (w.extractLsb' 8 8) = w.extractLsb' 0 16 :=
  BitVec.extractLsb'_append_extractLsb'_eq_extractLsb' (by rfl)

theorem word_of_parcels (w : BitVec 32) : word32 (w.extractLsb' 0 16) (parcel (w.extractLsb' 16 8) (w.extractLsb' 24 8)) = w := by
  rw [← parcel_lo, word32_bytes32]

theorem word_op (f : Fields) : f.word.extractLsb' 0 7 = f.op := congrArg Fields.op (fieldsOf_word f)

theorem word_f3 (f : Fields) : f.word.extractLsb' 12 3 = f.f3 := congrArg Fields.f3 (fieldsOf_word f)

theorem word_op_low {len : Nat} (f : Fields) (h : len ≤ 7) : f.word.extractLsb' 0 len = f.op.extractLsb' 0 len := by
  rw [← word_op, BitVec.extractLsb'_extractLsb'_of_le (by omega)]

theorem parcel_lo_low {len : Nat} (w : BitVec 32) (h : len ≤ 16) : (w.extractLsb' 0 16).extractLsb' 0 len = w.extractLsb' 0 len :=
  BitVec.extractLsb'_extractLsb'_of_le (by omega)

/-- The word of an instruction of 32 bits is read as one of 32 bits, and it is no PFX. -/
theorem word_of_32_bits (h : decFields f = .ok i) :
    is16 (f.word.extractLsb' 0 16) = false ∧ isLong (f.word.extractLsb' 0 16) = false ∧ isPfx f.word = false := by
  obtain ⟨h2, h5⟩ := majors_of_32_bits _ (op_mem_majors h)
  refine ⟨?_, ?_, ?_⟩
  · simp [is16, word_op_low, h2]
  · simp [isLong, word_op_low, h5]
  · simp only [isPfx, word_op, word_f3, Bool.and_eq_false_iff, beq_eq_false_iff_ne]
    by_contra hc
    push Not at hc
    rw [decFields_pfx hc.1 hc.2] at h
    cases h

theorem decode_word (h : decFields f = .ok i) (rest : List Byte) : decode (bytes32 f.word ++ rest) = .ok i 4 := by
  obtain ⟨h16, hl, hp⟩ := word_of_32_bits h
  simp [decode, bytes32, word_of_parcels, parcel_lo, h16, hl, hp, decode32, fieldsOf_word, h]

theorem pfx_of_32_bits (p : Pfx) : is16 (p.word.extractLsb' 0 16) = false ∧ isLong (p.word.extractLsb' 0 16) = false := by
  have ho : p.word.extractLsb' 0 7 = 0x7B#7 := by
    simp (disch := decide) only [extractLsb'_pfxWord, BitVec.extractLsb'_append_eq_of_add_le]
    rfl
  have h {len : Nat} (hs : len ≤ 7) : p.word.extractLsb' 0 len = (0x7B#7).extractLsb' 0 len := by
    rw [← ho, BitVec.extractLsb'_extractLsb'_of_le (by omega)]
  simp [is16, isLong, h]

theorem decode_pair {p : Pfx} (h : decFields f = .ok i) (hl : p.legalOn i = true) (rest : List Byte) :
    decode (bytes32 p.word ++ bytes32 f.word ++ rest) = .ok (.pfx p i) 8 := by
  obtain ⟨hp16, hpl⟩ := pfx_of_32_bits p
  obtain ⟨h16, hlong, hpfx⟩ := word_of_32_bits h
  simp [decode, bytes32, word_of_parcels, parcel_lo, hp16, hpl, isPfx_word, decodeAfterPfx, h16, hlong, hpfx, decodePair, fieldsOf_word, h,
    reserved_word, pfxOf_word, hl]

theorem decode_compressed {c : BitVec 16} {b : BaseInstr} (h : decC c = some b) (h16 : c.extractLsb' 0 2 ≠ 3#2) (rest : List Byte) :
    decode ([c.extractLsb' 0 8, c.extractLsb' 8 8] ++ rest) = .ok (.base (some c) b) 2 := by
  simp [decode, parcel_halves, is16, h16, decode16, h]

theorem encode_plain (hp : i.plain = true) (hc : ∀ c b, i ≠ .base (some c) b) : encode i = bytes32 i.fields.word := by
  unfold encode
  split
  · exact absurd rfl (hc _ _)
  · cases hp
  · exact if_pos hp

theorem fieldsOk_of_wf (hw : i.wf = true) (hp : ∀ p sub, i ≠ .pfx p sub) : i.fieldsOk = true := by
  unfold Instr.wf at hw
  split at hw
  · exact absurd rfl (hp _ _)
  · exact hw

/-- A row of 32 bits is decoded from its bytes. -/
theorem decode_plain (hp : i.plain = true) (hf : i.fieldsOk = true) (hc : ∀ c b, i ≠ .base (some c) b) (rest : List Byte) :
    decode (encode i ++ rest) = .ok i (encode i).length := by
  rw [encode_plain hp hc]
  exact decode_word (decFields_fields hp hf hc) rest

/-- A pair of a leading word and its subject is decoded from its bytes. -/
theorem decode_pfx {p : Pfx} {sub : Instr} (hw : (Instr.pfx p sub).wf = true) (rest : List Byte) :
    decode (encode (.pfx p sub) ++ rest) = .ok (.pfx p sub) (encode (.pfx p sub)).length := by
  simp only [Instr.wf, Bool.and_eq_true] at hw
  obtain ⟨⟨⟨hp, hf⟩, hl⟩, hn⟩ := hw
  have hc (c : BitVec 16) (b : BaseInstr) : sub ≠ .base (some c) b := by
    rintro rfl
    cases hn
  exact decode_pair (decFields_fields hp hf hc) hl rest

/-- A 16-bit encoding is decoded from its bytes. -/
theorem decode_base16 {c : BitVec 16} {b : BaseInstr} (hw : (Instr.base (some c) b).wf = true)
    (he : (Instr.base (some c) b).encodable = true) (rest : List Byte) :
    decode (encode (.base (some c) b) ++ rest) = .ok (.base (some c) b) 2 := by
  simp only [Instr.wf, Instr.fieldsOk, Bool.and_eq_true, bne_iff_ne] at hw
  exact decode_compressed (beq_iff_eq.1 he) hw.2 rest

end Bytes

/-- Settles O57: the decoder undoes the encoder's fields row by row (decFields_fields), and the bytes of a word of 32 bits, of a pair and of
a 16-bit encoding are read as what they are. -/
theorem encodeDecode : Obligations.EncodeDecode := by
  intro i rest hw he
  unfold Instr.encodable at he
  split at he
  case h_1 c b => exact decode_base16 hw he rest
  case h_2 p sub => exact decode_pfx hw rest
  case h_3 hc hp => exact decode_plain he (fieldsOk_of_wf hw hp) (fun c b h => hc c b h) rest

end Sys2Proof
end
section
/-! ## Outcomes that keep the canonical form of memory

Memory is written by `rawWrite`, by a checkpoint slot loaded and by bring-up alone, and each keeps the canonical form. Every function of the
model that answers a state is a composition of these and of functions that leave memory alone; the lemmas below say so of each, in the order
of the model: `f_inv` of a function of states, `keeps_m` of a computation, `f_leads` of an outcome. -/
namespace Sys2Proof.Machine
open State
open Host (Outcome)

/-- Every next state of the outcome has its memory in canonical form. -/
def Leads (o : Outcome State Fault Refusal) : Prop := ∀ t, o = .next t → t.Inv

theorem leads_next {s : State} (h : s.Inv) : Leads (.next s) := fun _ ht => by cases ht; exact h

theorem leads_refused {r : Refusal} : Leads (.refused r) := fun _ ht => nomatch ht

theorem leads_fault {f : Fault} : Leads (.fault f) := fun _ ht => nomatch ht

theorem finish_leads {w : BitVec 32} {m : M Unit} {s : State} (hm : Keeps m) (h : s.Inv) : Leads (finish w m s) :=
  fun _ => finish_inv hm h

theorem plainReg_leads {g : State → State} {s : State} (hg : ∀ t, t.Inv → (g t).Inv) (h : s.Inv) : Leads (plainReg g s) :=
  leads_next (retireTo_inv (hg _ h))

/-- The state of a next outcome. -/
theorem inv_of_next {o : Outcome State Fault Refusal} {t : State} (ho : o = .next t) (h : Leads o) : t.Inv := h t ho

/-- A state that differs from a canonical one in no byte of memory. -/
theorem inv_with {s t : State} (hs : s.Inv) (h : t.mem = s.mem) : t.Inv := inv_of_mem h hs

theorem inv_ite {p : Prop} [Decidable p] {s t : State} (hs : s.Inv) (ht : t.Inv) : (if p then s else t).Inv := by
  split <;> assumption

/-- The state of a pair that a computation answers. -/
theorem inv_snd {α : Type} {p : α × State} {a : α} {t : State} (hp : p = (a, t)) (h : p.2.Inv) : t.Inv := by
  subst hp
  exact h

/-- The state in which a computation that keeps the form answers. -/
theorem inv_of_ok {α : Type} {m : M α} {s t : State} {a : α} (hr : m s = .ok a t) (hm : Keeps m) (h : s.Inv) : t.Inv := by
  have he := hm s h
  rwa [hr] at he

/-- The state in which a computation that keeps the form raises an exception. -/
theorem inv_of_error {α : Type} {m : M α} {s t : State} {e : Exc} (hr : m s = .error e t) (hm : Keeps m) (h : s.Inv) : t.Inv := by
  have he := hm s h
  rwa [hr] at he

theorem keeps_getBind {α : Type} {f : State → M α} (hf : ∀ s, s.Inv → Keeps (f s)) : Keeps (get >>= f) := fun s hs => hf s hs s hs

/-- A guard of a computation, which throws where it fails. -/
theorem keeps_guard {α : Type} {p : Prop} [Decidable p] {e : Exc} {f : Unit → M α} (h : ∀ a, Keeps (f a)) :
    Keeps (if p then (throw e : M Unit) >>= f else f ()) :=
  keeps_ite (keeps_bind (keeps_throw e) h) (h ())

theorem keeps_set {s : State} (h : s.Inv) : Keeps (set s : M Unit) := fun _ _ => h

/-! ## The reset state -/

theorem State.reset_inv : State.reset.Inv := rfl

/-! ## Operations -/

theorem State.fresh_inv {s : State} (h : s.Inv) : s.fresh.2.Inv := h

theorem State.sampleSpan_inv {s : State} {pa n : Nat} (h : s.Inv) : (s.sampleSpan pa n).Inv := sample_inv h

theorem State.chooseHome_inv {s : State} (h : s.Inv) : s.chooseHome.Inv := by
  unfold chooseHome
  dsimp only
  split <;> exact h

theorem keeps_raiseIllegal {α : Type} {w : BitVec 32} : Keeps (raiseIllegal w : M α) := fun _ hs => hs

theorem keeps_stallDrain : Keeps (stallDrain) := by
  intro s hs
  unfold stallDrain
  split <;> exact hs

/-! ## The fetch -/

theorem fetchBytes_inv {va : Word} {n : Nat} {s : State} (h : s.Inv) : (fetchBytes va n s).2.Inv := by
  unfold fetchBytes
  split
  · exact h
  · split
    · rename_i hr
      exact inv_snd hr (locate_inv h)
    · split
      · rename_i hr _
        exact inv_snd hr (locate_inv h)
      · rename_i hr _
        exact inv_snd hr (locate_inv h)

theorem fetchParcel_inv {k : Nat} {s : State} (h : s.Inv) : (fetchParcel k s).2.Inv := by
  unfold fetchParcel
  dsimp only
  split
  · exact h
  · split
    · rename_i hr
      exact inv_of_mem (modMyGroup_mem ..) (inv_snd hr (fetchBytes_inv h))
    · exact fetchBytes_inv h

theorem fetchLoop_inv {fuel : Nat} {bs : List Byte} {s : State} (h : s.Inv) : (fetchLoop fuel bs s).2.Inv := by
  induction fuel generalizing bs s with
  | zero => exact h
  | succ fuel ih =>
    unfold fetchLoop
    split
    · rename_i hr
      exact inv_snd hr (fetchParcel_inv h)
    · rename_i hr
      have ht := inv_snd hr (fetchParcel_inv h)
      split
      · exact ht
      · exact ht
      · exact ih ht

theorem State.fetch_inv {s : State} (h : s.Inv) : s.fetch.2.Inv := fetchLoop_inv h

/-! ## Rounding -/

theorem keeps_withRnd {w : BitVec 32} {rm : Option (BitVec 3)} : Keeps (withRnd w rm) := by
  intro s hs
  unfold withRnd
  split
  · exact hs
  · exact keeps_raiseIllegal s hs

/-! ## Checks of operands -/

theorem keeps_needProf {kind : Nat} {limit : BitVec 16 → Nat} {ns : List Nat} : Keeps (needProf kind limit ns) := by
  intro s hs
  unfold needProf
  split <;> exact hs

theorem keeps_needD {ns : List DReg} : Keeps (needD ns) := keeps_needProf

theorem keeps_needW {n : Nat} : Keeps (needW n) := by
  intro s hs
  unfold needW
  split <;> exact hs

theorem keeps_needB {n : BReg} : Keeps (needB n) := by
  intro s hs
  unfold needB
  split <;> exact hs

theorem keeps_indexedWord {k : KReg} {a : XReg} : Keeps (indexedWord k a) :=
  keeps_getBind fun _ _ => keeps_guard fun _ => keeps_bind keeps_needW fun _ => keeps_pure _

theorem keeps_directWord {w : WIdx} : Keeps (directWord w) := keeps_bind keeps_needW fun _ => keeps_pure _

theorem keeps_bufElem {n : BReg} {a : XReg} : Keeps (bufElem n a) :=
  keeps_bind keeps_needB fun _ => keeps_getBind fun _ _ => keeps_guard fun _ => keeps_pure _

/-! ## Control registers -/

theorem State.writeZpack_inv {s : State} {v : Word} (h : s.Inv) : (s.writeZpack v).Inv :=
    inv_of_mem (rebin_mem ..) (inv_of_mem (modU_mem ..) h)

theorem State.writeZwidth_inv {s : State} {v : Word} (h : s.Inv) : (s.writeZwidth v).Inv := inv_of_mem (modPart_mem ..) h

theorem State.writeZpark_inv {s : State} {v : Word} (h : s.Inv) : (s.writeZpark v).Inv := by
  unfold writeZpark
  dsimp only
  split
  · exact h
  · exact inv_of_mem (modPart_mem ..) h

theorem State.writeZrbt_inv {s : State} {v : Word} (h : s.Inv) : (s.writeZrbt v).Inv := by
  unfold writeZrbt
  dsimp only
  split
  · exact h
  · exact inv_of_mem (modPart_mem ..) h

theorem State.writeZbankrole_inv {s : State} {v : Word} (h : s.Inv) : (s.writeZbankrole v).Inv := by
  unfold writeZbankrole
  dsimp only
  split
  · exact h
  · split
    · exact h
    · exact inv_of_mem (modPart_mem ..) (inv_with (writeBack_inv h) rfl)

theorem State.writeZhotl_inv {s : State} {v : Word} (h : s.Inv) : (s.writeZhotl v).Inv := by
  unfold writeZhotl
  dsimp only
  split
  · exact h
  · exact inv_of_mem (modPart_mem ..) h

theorem State.writeZseed_inv {s : State} {v : Word} (h : s.Inv) : (s.writeZseed v).Inv := inv_of_mem (modU_mem ..) h

theorem State.writeZwfq_inv {s : State} {v : Word} (h : s.Inv) : (s.writeZwfq v).Inv := by
  unfold writeZwfq
  dsimp only
  split
  · exact h
  · exact inv_of_mem (modPart_mem ..) h

theorem State.writeZemq_inv {s : State} {v : Word} (h : s.Inv) : (s.writeZemq v).Inv := by
  unfold writeZemq
  dsimp only
  split
  · exact h
  · exact inv_of_mem (modPart_mem ..) h

theorem State.writeZage_inv {s : State} {v : Word} (h : s.Inv) : (s.writeZage v).Inv := inv_of_mem (modPart_mem ..) h

theorem State.sawChan_inv {s : State} {e ch : Nat} {c : Chan} {sel : CopySrc → Bool} (h : s.Inv) : (s.sawChan e ch c sel).Inv := by
  unfold sawChan
  refine inv_of_mem (modW_mem ..) ?_
  split
  · exact h
  · exact dropGranules_inv (inv_of_mem (dropClean_mem ..) h)

theorem State.csrPut_inv {s : State} {a : Nat} {v : Word} (h : s.Inv) : (s.csrPut a v).Inv := by
  unfold csrPut
  dsimp only
  split
  · exact writeZpack_inv h
  · exact writeZseed_inv h
  · exact writeZrbt_inv h
  · exact writeZwfq_inv h
  · exact writeZemq_inv h
  · exact writeZpark_inv h
  · exact writeZage_inv h
  · exact writeZbankrole_inv h
  · exact writeZwidth_inv h
  · exact writeZhotl_inv h
  · exact h
  · exact h
  · split
    · exact inv_of_mem (modU_mem ..) h
    · exact inv_of_mem (modSup_mem ..) h

theorem keeps_csrCheck {w : BitVec 32} {a : Nat} {writes : Bool} : Keeps (csrCheck w a writes) := by
  intro s hs
  unfold csrCheck
  dsimp only
  split
  · exact hs
  · split
    · exact hs
    · split
      · exact hs
      · split
        · exact hs
        · split
          · exact hs
          · split <;> exact hs

theorem keeps_csrAccess {w : BitVec 32} {op : CsrOp} {rd : XReg} {operand : Word} {writes : Bool} {addr : BitVec 12} :
    Keeps (csrAccess w op rd operand writes addr) := by
  unfold csrAccess
  refine keeps_bind keeps_csrCheck fun _ => keeps_getBind fun _ _ => keeps_bind (keeps_modify fun _ ht' => ?_) fun _ =>
    keeps_modify fun _ ht' => inv_of_mem (wx_mem ..) ?_
  · split
    · exact csrPut_inv ht'
    · exact ht'
  · split
    · exact sawChan_inv ht'
    · exact ht'

/-! ## The base profile -/

theorem keeps_retireM {c : Option (BitVec 16)} : Keeps (retireM c) := keeps_modify fun _ => retire_inv

theorem State.mayStall_inv {s : State} (h : s.Inv) : s.mayStall.Inv := by
  unfold mayStall
  split
  · exact h
  · exact inv_of_mem (modMyGroup_mem ..) (inv_of_mem rfl h)

theorem keeps_effectMem {f : State → State} {c : Option (BitVec 16)} (h : ∀ s, s.Inv → (f s).Inv) : Keeps (effectMem f c) :=
  keeps_effectM fun _ hs => mayStall_inv (h _ hs)

theorem State.jump_inv {s : State} {c : Option (BitVec 16)} {rd : XReg} {target : Word} (h : s.Inv) : (s.jump c rd target).Inv :=
  retireTo_inv (inv_of_mem (rebin_mem ..) (inv_of_mem (wx_mem ..) h))

theorem State.branch_inv {s : State} {c : Option (BitVec 16)} {taken : Bool} {off : BitVec 12} (h : s.Inv) : (s.branch c taken off).Inv :=
    by
  unfold branch
  split
  · exact retireTo_inv (inv_of_mem (rebin_mem ..) h)
  · exact retire_inv h

theorem keeps_needPriv {w : BitVec 32} {ok : State → Bool} : Keeps (needPriv w ok) := by
  intro s hs
  unfold needPriv
  split
  · exact hs
  · exact keeps_raiseIllegal _ hs

theorem keeps_trapInstr {cause : State → Nat} : Keeps (trapInstr cause) :=
  keeps_bind keeps_orderingPoint fun _ => keeps_getBind fun _ _ => keeps_throw _

theorem State.trapReturn_inv {s : State} {f : Hart → Hart} (h : s.Inv) : (s.trapReturn f).Inv :=
    retireTo_inv (chooseHome_inv (inv_of_mem rfl h))

theorem keeps_resvAddr {acc : Acc} {va : Word} {n : Nat} : Keeps (resvAddr acc va n) := by
  intro s hs
  unfold resvAddr
  dsimp only
  split
  · split <;> exact hs
  · split
    · rename_i hr
      exact inv_snd hr (locate_inv hs)
    · split
      · rename_i hr _
        exact inv_snd hr (locate_inv hs)
      · rename_i hr _
        exact bringHome_inv (inv_snd hr (locate_inv hs))

theorem keeps_lrM {dbl : Bool} {rd rs1 : XReg} : Keeps (lrM dbl rd rs1) :=
  keeps_getBind fun _ _ => keeps_guard fun _ => keeps_bind keeps_stallDrain fun _ => keeps_bind keeps_resvAddr fun _ =>
    keeps_modify fun _ ht' => inv_of_mem (wx_mem ..) (inv_of_mem rfl ht')

theorem keeps_scM {dbl : Bool} {rd rs1 rs2 : XReg} : Keeps (scM dbl rd rs1 rs2) := by
  unfold scM
  refine keeps_getBind fun _ _ => keeps_guard fun _ => keeps_bind keeps_stallDrain fun _ => keeps_bind keeps_resvAddr fun _ =>
    keeps_modify fun _ ht' => inv_of_mem (wx_mem ..) ?_
  dsimp only
  split
  · exact inv_with (noteAtomic_inv (store_inv ht')) rfl
  · exact ht'

theorem keeps_amoM {op : AmoOp} {dbl : Bool} {rd rs1 rs2 : XReg} : Keeps (amoM op dbl rd rs1 rs2) :=
  keeps_getBind fun _ _ => keeps_guard fun _ => keeps_ite keeps_atomicNoDest (keeps_bind keeps_atomicDest fun _ =>
    keeps_modify fun _ ht' => mayStall_inv (inv_of_mem (wx_mem ..) ht'))

theorem State.putF_inv {s : State} {fmt : Fmt} {rd : FReg} {r : FRes} (h : s.Inv) : (s.putF fmt rd r).Inv :=
  inv_of_mem (accrue_mem ..) (inv_of_mem (wf_mem ..) h)

theorem keeps_needFs {w : BitVec 32} : Keeps (needFs w) := keeps_needPriv

theorem keeps_baseM {w : BitVec 32} {c : Option (BitVec 16)} {i : BaseInstr} : Keeps (baseM w c i) := by
  unfold baseM
  dsimp only
  split
  · exact keeps_effectM (fun _ ht => inv_of_mem (wx_mem ..) ht)
  · exact keeps_effectM (fun _ ht => inv_of_mem (wx_mem ..) ht)
  · exact keeps_modify fun _ => jump_inv
  · exact keeps_modify fun _ => jump_inv
  · exact keeps_modify fun _ => branch_inv
  · exact keeps_getBind fun _ _ => keeps_bind keeps_loadScalar fun _ => keeps_effectMem (fun _ ht' => inv_of_mem (wx_mem ..) ht')
  · exact keeps_getBind fun _ _ => keeps_bind keeps_storeScalar fun _ => keeps_retireM
  · exact keeps_effectM (fun _ ht => inv_of_mem (wx_mem ..) ht)
  · exact keeps_effectM (fun _ ht => inv_of_mem (wx_mem ..) ht)
  · exact keeps_effectM (fun _ ht => inv_of_mem (wx_mem ..) ht)
  · exact keeps_effectM (fun _ ht => inv_of_mem (wx_mem ..) ht)
  · exact keeps_effectM (fun _ ht => inv_of_mem (wx_mem ..) ht)
  · exact keeps_bind keeps_orderingPoint fun _ => keeps_retireM
  · exact keeps_bind keeps_orderingPoint fun _ => keeps_retireM
  · exact keeps_bind keeps_orderingPoint fun _ => keeps_retireM
  · exact keeps_trapInstr
  · exact keeps_trapInstr
  · exact keeps_bind keeps_needPriv fun _ => keeps_modify fun _ => trapReturn_inv
  · exact keeps_bind keeps_needPriv fun _ => keeps_modify fun _ => trapReturn_inv
  · exact keeps_bind keeps_needPriv fun _ => keeps_retireM
  · exact keeps_bind keeps_needPriv fun _ => keeps_retireM
  · exact keeps_getBind fun _ _ => keeps_bind keeps_csrAccess fun _ => keeps_retireM
  · exact keeps_bind keeps_csrAccess fun _ => keeps_retireM
  · exact keeps_bind keeps_lrM fun _ => keeps_effectMem (fun _ ht => inv_of_mem rfl ht)
  · exact keeps_bind keeps_scM fun _ => keeps_effectMem (fun _ ht => inv_of_mem rfl ht)
  · exact keeps_bind keeps_amoM fun _ => keeps_retireM
  · exact keeps_bind keeps_needFs fun _ => keeps_getBind fun _ _ => keeps_bind keeps_loadScalar fun _ => keeps_effectMem (fun _ ht' =>
      inv_of_mem (wf_mem ..) ht')
  · exact keeps_bind keeps_needFs fun _ => keeps_getBind fun _ _ => keeps_bind keeps_storeScalar fun _ => keeps_retireM
  · exact keeps_bind keeps_needFs fun _ => keeps_bind keeps_withRnd fun _ => keeps_effectM (fun _ => putF_inv)
  · exact keeps_bind keeps_needFs fun _ => keeps_bind keeps_withRnd fun _ => keeps_effectM (fun _ => putF_inv)
  · exact keeps_bind keeps_needFs fun _ => keeps_bind keeps_withRnd fun _ => keeps_effectM (fun _ => putF_inv)
  · exact keeps_bind keeps_needFs fun _ => keeps_effectM (fun _ ht => inv_of_mem (wf_mem ..) ht)
  · exact keeps_bind keeps_needFs fun _ => keeps_effectM (fun _ => putF_inv)
  · exact keeps_bind keeps_needFs fun _ => keeps_effectM (fun _ ht => inv_of_mem (accrue_mem ..) (inv_of_mem (wx_mem ..) ht))
  · exact keeps_bind keeps_needFs fun _ => keeps_effectM (fun _ ht => inv_of_mem (wx_mem ..) ht)
  · exact keeps_bind keeps_needFs fun _ => keeps_effectM (fun _ ht => inv_of_mem (wx_mem ..) ht)
  · exact keeps_bind keeps_needFs fun _ => keeps_effectM (fun _ ht => inv_of_mem (wf_mem ..) ht)
  · exact keeps_bind keeps_needFs fun _ => keeps_bind keeps_withRnd fun _ => keeps_effectM (fun _ ht =>
      inv_of_mem (accrue_mem ..) (inv_of_mem (wx_mem ..) ht))
  · exact keeps_bind keeps_needFs fun _ => keeps_bind keeps_withRnd fun _ => keeps_effectM (fun _ => putF_inv)
  · exact keeps_bind keeps_needFs fun _ => keeps_bind keeps_withRnd fun _ => keeps_effectM (fun _ => putF_inv)
  · exact keeps_bind keeps_needFs fun _ => keeps_bind keeps_withRnd fun _ => keeps_effectM (fun _ => putF_inv)

/-! ## Carousels, teams and barriers -/

theorem keeps_goW {implicitly : Bool} : Keeps (goW implicitly) := by
  unfold goW
  refine keeps_bind keeps_orderingPoint fun _ => keeps_getBind fun _ ht => ?_
  dsimp only
  split
  · exact keeps_bind (keeps_set (inv_of_mem rfl ht)) fun _ => keeps_throw _
  · refine keeps_bind (keeps_set (departToW_inv ?_)) fun _ => keeps_throw _
    split
    · exact inv_of_mem (modU_mem ..) ht
    · exact retire_inv (inv_of_mem (modU_mem ..) ht)

theorem keeps_needWSite : Keeps (needWSite) := by
  intro s hs
  unfold needWSite
  split
  · exact hs
  · split
    · exact keeps_goW _ hs
    · exact hs

theorem execMigrW_leads {s : State} (h : s.Inv) : Leads (execMigrW s) := by
  unfold execMigrW
  refine finish_leads (keeps_getBind fun _ _ => ?_) h
  dsimp only
  split
  · exact keeps_ite (keeps_throw _) keeps_goW
  · exact keeps_bind keeps_orderingPoint fun _ => keeps_effectM (fun _ ht' => inv_of_mem (rebin_mem ..) (inv_of_mem (modU_mem ..) ht'))

theorem State.leaveHome_inv {s : State} {len : Word} (h : s.Inv) : (s.leaveHome len).Inv :=
    departToL_inv (retireTo_inv (inv_of_mem (modU_mem ..) h))

theorem execMigrL_leads {s : State} (h : s.Inv) : Leads (execMigrL s) := by
  unfold execMigrL
  refine finish_leads (keeps_getBind fun _ _ => keeps_guard fun _ => keeps_bind keeps_orderingPoint fun _ => keeps_getBind fun _ ht' =>
    ?_) h
  dsimp only
  split
  · exact keeps_set (retire_inv (inv_of_mem (modU_mem ..) ht'))
  · exact keeps_bind (keeps_set (leaveHome_inv ht')) fun _ => keeps_throw _

theorem State.modMember_inv {s : State} {f : Member → Member} (h : s.Inv) : (s.modMember f).Inv := inv_of_mem (modPart_mem ..) h

theorem execReform_leads {s : State} (h : s.Inv) : Leads (execReform s) := by
  unfold execReform
  split
  · exact leads_next (retire_inv h)
  · exact leads_next (retire_inv (inv_of_mem (rebin_mem ..) (modMember_inv h)))

theorem execGleave_leads {s : State} (h : s.Inv) : Leads (execGleave s) := by
  unfold execGleave
  split
  · exact leads_next (retire_inv h)
  · exact leads_next (retire_inv (inv_of_mem (rebin_mem ..) (modMember_inv h)))

theorem execGyield_leads {s : State} (h : s.Inv) : Leads (execGyield s) := by
  unfold execGyield
  split
  · exact leads_next (retire_inv h)
  · exact leads_next (retire_inv (inv_of_mem (rebin_mem ..) (inv_of_mem (modCar_mem ..) h)))

theorem State.completeBars_inv {s : State} {t : BitVec 16} (h : s.Inv) : (s.completeBars t).Inv := inv_of_mem (modPart_mem ..) h

theorem State.joined_inv {s : State} {team : BitVec 16} {rank : Nat} (h : s.Inv) : (s.joined team rank).Inv := by
  unfold joined
  refine inv_of_mem (modPart_mem ..) ?_
  split
  · exact dropGranules_inv h
  · exact h

theorem State.moveToW_inv {s : State} {w : Nat} (h : s.Inv) : (s.moveToW w).Inv := by
  unfold moveToW
  dsimp only
  split
  · exact inv_of_mem (dropCurrent_mem ..) (inv_of_mem (modPart_mem ..) (inv_of_mem (leaveGroup_mem ..) h))
  · exact h

theorem execTjoin_leads {d a : BitVec 5} {s : State} (h : s.Inv) : Leads (execTjoin d a s) := by
  unfold execTjoin
  refine finish_leads (keeps_bind keeps_orderingPoint fun _ => keeps_getBind fun _ ht => ?_) h
  dsimp only
  split
  · exact keeps_effectM (fun _ ht' => inv_of_mem (rebin_mem ..) (inv_of_mem (wx_mem ..) ht'))
  · split
    · refine keeps_ite (keeps_ite (keeps_bind (keeps_set (moveToW_inv ht)) fun _ => keeps_bind (keeps_throw _) fun _ =>
        ?_) (keeps_bind (keeps_throw _) fun _ => ?_)) ?_
      · split
        · exact keeps_effectM (fun _ ht' => inv_of_mem (rebin_mem ..) (inv_of_mem (wx_mem ..) ht'))
        · exact keeps_effectM (fun _ ht' => inv_of_mem (rebin_mem ..) (inv_of_mem (wx_mem ..) (joined_inv ht')))
      · split
        · exact keeps_effectM (fun _ ht' => inv_of_mem (rebin_mem ..) (inv_of_mem (wx_mem ..) ht'))
        · exact keeps_effectM (fun _ ht' => inv_of_mem (rebin_mem ..) (inv_of_mem (wx_mem ..) (joined_inv ht')))
      · split
        · exact keeps_effectM (fun _ ht' => inv_of_mem (rebin_mem ..) (inv_of_mem (wx_mem ..) ht'))
        · exact keeps_effectM (fun _ ht' => inv_of_mem (rebin_mem ..) (inv_of_mem (wx_mem ..) (joined_inv ht')))
    · split
      · exact keeps_effectM (fun _ ht' => inv_of_mem (rebin_mem ..) (inv_of_mem (wx_mem ..) ht'))
      · exact keeps_effectM (fun _ ht' => inv_of_mem (rebin_mem ..) (inv_of_mem (wx_mem ..) (joined_inv ht')))

theorem State.left_inv {s : State} {m : Member} (h : s.Inv) : (s.left m).Inv := completeBars_inv (inv_of_mem (modPart_mem ..) h)

theorem State.flushLeaver_inv {s : State} {m : Member} (h : s.Inv) : (s.flushLeaver m).Inv := by
  unfold flushLeaver
  split
  · exact flushWindows_inv h
  · exact h

theorem execTleave_leads {d : BitVec 5} {s : State} (h : s.Inv) : Leads (execTleave d s) := by
  unfold execTleave
  refine finish_leads (keeps_bind keeps_orderingPoint fun _ => keeps_getBind fun _ _ => ?_) h
  split
  · exact keeps_effectM (fun _ ht' => inv_of_mem (rebin_mem ..) (inv_of_mem (wx_mem ..) ht'))
  · exact keeps_effectM (fun _ ht' => inv_of_mem (rebin_mem ..) (inv_of_mem (wx_mem ..) (left_inv (flushLeaver_inv ht'))))

theorem State.setPending_inv {s : State} {n : BitVec 4} {v : Bool} (h : s.Inv) : (s.setPending n v).Inv := modMember_inv h

theorem State.modBar_inv {s : State} {team : BitVec 16} {i : Fin 16} {f : TeamBar → TeamBar} (h : s.Inv) : (s.modBar team i f).Inv :=
  inv_of_mem (modPart_mem ..) h

theorem State.arriveBar_inv {s : State} {n : BitVec 4} (h : s.Inv) : (s.arriveBar n).Inv := modBar_inv h

theorem State.homeWindows_inv {s : State} (h : s.Inv) : s.homeWindows.Inv := by
  unfold homeWindows
  split
  · exact writeBack_inv h
  · exact h

theorem State.applyArrival_inv {t : BitVec 16} {i : Fin 16} {s : State} {who : HartId} (h : s.Inv) : (applyArrival t i s who).Inv := by
  unfold applyArrival
  dsimp only
  split
  · split
    · exact h
    · exact completeBars_inv (modBar_inv (inv_of_mem (modPart_mem ..) h))
  · exact h

theorem State.applyArrivals_inv {t : BitVec 16} {s : State} {i : Fin 16} (h : s.Inv) : (applyArrivals t s i).Inv := by
  unfold applyArrivals
  dsimp only
  split
  · exact foldl_inv (fun _ _ => applyArrival_inv) (modBar_inv h)
  · exact h

theorem State.barClock_inv {s : State} (h : s.Inv) : s.barClock.Inv := by
  unfold barClock
  refine foldl_inv (fun _ _ ht => ?_) h
  split
  · exact ht
  · exact foldl_inv (fun _ _ => applyArrivals_inv) ht

theorem keeps_barrierWait {n : BitVec 4} : Keeps (barrierWait n) := by
  unfold barrierWait
  refine keeps_getBind fun _ ht => ?_
  split
  · refine keeps_ite (keeps_set ?_) (keeps_throw _)
    split
    · exact setPending_inv ht
    · exact ht
  · exact keeps_pure _

theorem execTbarArr_leads {n : BitVec 4} {s : State} (h : s.Inv) : Leads (execTbarArr n s) := by
  unfold execTbarArr
  refine finish_leads (keeps_bind keeps_needWSite fun _ => keeps_bind keeps_orderingPoint fun _ => keeps_getBind fun _ _ => ?_) h
  split
  · exact keeps_effectM (fun _ ht' => arriveBar_inv (homeWindows_inv ht'))
  · exact keeps_retireM

theorem execTbarWait_leads {n : BitVec 4} {s : State} (h : s.Inv) : Leads (execTbarWait n s) :=
  finish_leads (keeps_bind keeps_needWSite fun _ => keeps_bind keeps_barrierWait fun _ => keeps_retireM) h

theorem execTbarSync_leads {n : BitVec 4} {s : State} (h : s.Inv) : Leads (execTbarSync n s) := by
  unfold execTbarSync
  refine finish_leads (keeps_bind keeps_needWSite fun _ => keeps_bind keeps_orderingPoint fun _ => keeps_getBind fun _ ht => ?_) h
  dsimp only
  split
  · exact keeps_ite (keeps_bind (keeps_set (arriveBar_inv (homeWindows_inv ht))) fun _ => keeps_bind keeps_barrierWait fun _ =>
      keeps_retireM) (keeps_bind keeps_barrierWait fun _ => keeps_retireM)
  · exact keeps_bind keeps_barrierWait fun _ => keeps_retireM

theorem pcmpS_inv {op : BranchOp} {d : BitVec 4} {a b : BitVec 5} {s : State} (h : s.Inv) : (pcmpS op d a b s).Inv :=
    inv_of_mem (wp_mem ..) h

theorem pfcmpS_inv {op : FCmpOp} {fmt : Fmt} {d : BitVec 4} {a b : BitVec 5} {s : State} (h : s.Inv) : (pfcmpS op fmt d a b s).Inv :=
  inv_of_mem (accrue_mem ..) (inv_of_mem (wp_mem ..) h)

theorem pfunS'_inv {fmt : Fmt} {d : BitVec 4} {a b : BitVec 5} {s : State} (h : s.Inv) : (pfunS' fmt d a b s).Inv :=
  inv_of_mem (accrue_mem ..) (inv_of_mem (wp_mem ..) h)

theorem plogicS_inv {f : Bool → Bool → Bool} {d a b : BitVec 4} {s : State} (h : s.Inv) : (plogicS f d a b s).Inv :=
    inv_of_mem (wp_mem ..) h

theorem execPnot_leads {d a : BitVec 4} {s : State} (h : s.Inv) : Leads (execPnot d a s) :=
    plainReg_leads (fun _ ht => inv_of_mem (wp_mem ..) ht) h

theorem execPmvXp_leads {d : BitVec 5} {s : State} (h : s.Inv) : Leads (execPmvXp d s) :=
    plainReg_leads (fun _ ht => inv_of_mem (wx_mem ..) ht) h

theorem execPmvPx_leads {a : BitVec 5} {s : State} (h : s.Inv) : Leads (execPmvPx a s) :=
    plainReg_leads (fun _ ht => inv_of_mem (modU_mem ..) ht) h

theorem execPany_leads {d a : BitVec 5} {s : State} (h : s.Inv) : Leads (execPany d a s) :=
    plainReg_leads (fun _ ht => inv_of_mem (wx_mem ..) ht) h

theorem execPall_leads {d a : BitVec 5} {s : State} (h : s.Inv) : Leads (execPall d a s) :=
    plainReg_leads (fun _ ht => inv_of_mem (wx_mem ..) ht) h

theorem execJtab_leads {d a b : BitVec 5} {s : State} (h : s.Inv) : Leads (execJtab d a b s) :=
  finish_leads (keeps_getBind fun _ _ => keeps_guard fun _ => keeps_bind keeps_loadBytes fun _ => keeps_guard fun _ =>
    keeps_bind keeps_loadBytes fun _ => keeps_guard fun _ => keeps_guard fun _ => keeps_modify fun _ => jump_inv) h

/-! ## Cross-lane instructions -/

theorem State.parkContexts_inv {s : State} {w : Nat} (h : s.Inv) : (s.parkContexts w).Inv := by
  unfold parkContexts
  split
  · refine foldl_inv (fun _ _ ht => ?_) h
    split
    · exact stow_inv ht
    · exact ht
  · exact h

theorem State.crossPerform_inv {s : State} {f : Nat → List Lane → Lane → User} {zero : User → User} (h : s.Inv) :
    (s.crossPerform f zero).Inv := by
  unfold crossPerform
  dsimp only
  split
  · refine parkContexts_inv (foldl_inv (fun _ _ ht => inv_of_mem (modHart_mem ..) ht) (foldl_inv (fun _ _ ht => ?_) h))
    split
    · exact inv_of_mem (leaveGroup_mem ..) ht
    · exact ht
  · refine foldl_inv (fun _ _ ht => inv_of_mem (modHart_mem ..) ht) (foldl_inv (fun _ _ ht => ?_) h)
    split
    · exact inv_of_mem (leaveGroup_mem ..) ht
    · exact ht

theorem State.converge_inv {s : State} (h : s.Inv) : s.converge.Inv := by
  unfold converge
  split
  · exact inv_of_mem (modCar_mem ..) (inv_of_mem (refile_mem ..) (inv_of_mem (leaveGroup_mem ..) h))
  · exact h

theorem cross_leads {w : BitVec 32} {f : Nat → List Lane → Lane → User} {zero : User → User} {s : State} (h : s.Inv) :
    Leads (cross w f zero s) := by
  unfold cross
  refine finish_leads (keeps_bind keeps_needWSite fun _ => keeps_modify fun _ ht => ?_) h
  split
  · exact crossPerform_inv ht
  · exact converge_inv ht

theorem gredX_leads {w : BitVec 32} {op : Word → Word → Word} {ident : Word} {d a : XReg} {s : State} (h : s.Inv) :
    Leads (gredX w op ident d a s) :=
  cross_leads h

theorem shflX_leads {w : BitVec 32} {src : Nat → Nat → Word → Option Nat} {d a b : XReg} {s : State} (h : s.Inv) :
    Leads (shflX w src d a b s) :=
  cross_leads h

theorem gredF_leads {w : BitVec 32} {fmt : Fmt} {op : Nat → Nat → FRes} {ident : Nat} {d a : FReg} {s : State} (h : s.Inv) :
    Leads (gredF w fmt op ident d a s) :=
  cross_leads h

/-! ## Buffers and the array file -/

theorem execBset_leads {d : BitVec 4} {a : BitVec 5} {s : State} (h : s.Inv) : Leads (execBset d a s) :=
  finish_leads (keeps_bind keeps_needB fun _ => keeps_getBind fun _ _ => keeps_bind keeps_loadRecord fun _ => keeps_guard fun _ =>
    keeps_effectMem (fun _ ht' => inv_of_mem (wb_mem ..) ht')) h

theorem execBget_leads {d : BitVec 4} {a : BitVec 5} {s : State} (h : s.Inv) : Leads (execBget d a s) :=
  finish_leads (keeps_bind keeps_needB fun _ => keeps_getBind fun _ _ => keeps_guard fun _ => keeps_bind keeps_storeBytes fun _ =>
    keeps_retireM) h

theorem keeps_bldVal {n : BReg} {a : XReg} {width : Nat} : Keeps (bldVal n a width) := keeps_bind keeps_bufElem fun _ => keeps_loadScalar

theorem bldX_leads {w : BitVec 32} {op : LoadOp} {d a : XReg} {b : BReg} {s : State} (h : s.Inv) : Leads (bldX w op d a b s) :=
  finish_leads (keeps_bind keeps_bldVal fun _ => keeps_effectMem (fun _ ht => inv_of_mem (wx_mem ..) ht)) h

theorem execBldFw_leads {d a : BitVec 5} {b : BitVec 4} {s : State} (h : s.Inv) : Leads (execBldFw d a b s) :=
  finish_leads (keeps_bind keeps_bldVal fun _ => keeps_effectMem (fun _ ht => inv_of_mem (wf_mem ..) ht)) h

theorem execBldFd_leads {d a : BitVec 5} {b : BitVec 4} {s : State} (h : s.Inv) : Leads (execBldFd d a b s) :=
  finish_leads (keeps_bind keeps_bldVal fun _ => keeps_effectMem (fun _ ht => inv_of_mem (wf_mem ..) ht)) h

theorem State.widenF_inv {s : State} {t : Fmt2} {daz ftz : Bool} {d : FReg} {code : Nat} (h : s.Inv) : (s.widenF t daz ftz d code).Inv :=
  inv_of_mem (accrueZa_mem ..) (inv_of_mem (accrue_mem ..) (inv_of_mem (wf_mem ..) h))

theorem bstM_leads {w : BitVec 32} {width : Nat} {n : BReg} {a : XReg} {v : State → Word} {s : State} (h : s.Inv) :
    Leads (bstM w width n a v s) :=
  finish_leads (keeps_bind keeps_bufElem fun _ => keeps_getBind fun _ _ => keeps_bind keeps_storeScalar fun _ => keeps_retireM) h

theorem State.narrowed_inv {s : State} {n : Narrow} {code : Nat} (h : s.Inv) : (s.narrowed n code).Inv :=
  inv_of_mem (modU_mem ..) (inv_of_mem (accrueZa_mem ..) (inv_of_mem (accrue_mem ..) h))

theorem execBstFh_leads {d : BitVec 4} {a b : BitVec 5} {s : State} (h : s.Inv) : Leads (execBstFh d a b s) :=
  finish_leads (keeps_bind keeps_needB fun _ => keeps_bind keeps_withRnd fun _ => keeps_bind keeps_bufElem fun _ =>
    keeps_getBind fun _ _ => keeps_bind keeps_storeScalar fun _ => keeps_effectM (fun _ => narrowed_inv)) h

theorem bamoM_leads {w : BitVec 32} {op : MendOp} {d : BReg} {a : XReg} {v : State → Nat → Nat} {s : State} (h : s.Inv) :
    Leads (bamoM w op d a v s) :=
  finish_leads (keeps_getBind fun _ _ => keeps_guard fun _ => keeps_bind keeps_bufElem fun _ => keeps_getBind fun _ _ =>
    keeps_guard fun _ => keeps_guard fun _ => keeps_bind keeps_atomicNoDest fun _ => keeps_retireM) h

theorem wldM_leads {w : BitVec 32} {sel : M Nat} {put : State → BitVec 32 → State} {s : State} (hsel : Keeps sel)
    (hput : ∀ t v, t.Inv → (put t v).Inv) (h : s.Inv) : Leads (wldM w sel put s) :=
  finish_leads (keeps_bind hsel fun _ => keeps_effectM fun _ => hput _ _) h

theorem wstM_leads {w : BitVec 32} {sel : M Nat} {v : State → Word} {s : State} (hsel : Keeps sel) (h : s.Inv) :
    Leads (wstM w sel v s) :=
  finish_leads (keeps_bind hsel fun _ => keeps_effectM fun _ ht => inv_of_mem (ww_mem ..) ht) h

theorem execWldDirect_leads {d : BitVec 5} {w : BitVec 6} {s : State} (h : s.Inv) : Leads (execWldDirect d w s) :=
  wldM_leads keeps_directWord (fun _ _ ht => inv_of_mem (wx_mem ..) ht) h

theorem execWldIndexed_leads {d : BitVec 5} {k : BitVec 2} {a : BitVec 5} {s : State} (h : s.Inv) : Leads (execWldIndexed d k a s) :=
  wldM_leads keeps_indexedWord (fun _ _ ht => inv_of_mem (wx_mem ..) ht) h

theorem execWldfDirect_leads {d : BitVec 5} {w : BitVec 6} {s : State} (h : s.Inv) : Leads (execWldfDirect d w s) :=
  wldM_leads keeps_directWord (fun _ _ ht => inv_of_mem (wf_mem ..) ht) h

theorem execWldfIndexed_leads {d : BitVec 5} {k : BitVec 2} {a : BitVec 5} {s : State} (h : s.Inv) : Leads (execWldfIndexed d k a s) :=
  wldM_leads keeps_indexedWord (fun _ _ ht => inv_of_mem (wf_mem ..) ht) h

theorem execWmv_leads {dst src : BitVec 6} {s : State} (h : s.Inv) : Leads (execWmv dst src s) :=
  finish_leads (keeps_bind keeps_needProf fun _ => keeps_effectM (fun _ ht => inv_of_mem (ww_mem ..) ht)) h

theorem execWmvw_leads {d : BitVec 5} {w : BitVec 6} {s : State} (h : s.Inv) : Leads (execWmvw d w s) :=
  finish_leads (keeps_bind keeps_needProf fun _ => keeps_effectM (fun _ ht => inv_of_mem (wx_mem ..) ht)) h

theorem execKset_leads {k : BitVec 2} {a b : BitVec 5} {s : State} (h : s.Inv) : Leads (execKset k a b s) :=
  finish_leads (keeps_getBind fun _ _ => keeps_guard fun _ => keeps_effectM (fun _ ht' => inv_of_mem (wk_mem ..) ht')) h

/-! ## Objects, waits and windows -/

theorem State.wakeIf_inv {s : State} {h : HartId} {p : Hart → Wait → Bool} (hs : s.Inv) : (s.wakeIf h p).Inv := by
  unfold wakeIf
  split
  · split
    · split
      · exact inv_of_mem (modHart_mem ..) hs
      · exact hs
    · exact hs
  · exact hs

theorem execSobind_leads {d a b : BitVec 5} {s : State} (h : s.Inv) : Leads (execSobind d a b s) :=
  finish_leads (keeps_bind keeps_orderingPoint fun _ => keeps_getBind fun _ _ => keeps_bind keeps_loadRecord fun _ =>
    keeps_bind keeps_objAddr fun _ => keeps_getBind fun _ ht' => keeps_ite (keeps_bind (keeps_set (inv_of_mem
    (modPart_mem ..) ht')) fun _ => keeps_effectMem (fun _ ht'' => inv_of_mem (wx_mem ..) ht'')) (keeps_effectMem (fun _ ht'' =>
    inv_of_mem (wx_mem ..) ht''))) h

theorem State.releaseObj_inv {s : State} {pa n : Nat} {f : Word × Word × Word → Word × Word × Word} (h : s.Inv) :
    (s.releaseObj pa n f).Inv :=
  store_inv (releaseBytes_inv h)

theorem State.unmapWindow_inv {s : State} {team : BitVec 16} {num : Nat} (h : s.Inv) : (s.unmapWindow team num).Inv := by
  unfold unmapWindow
  dsimp only
  split
  · exact flushWindows_inv h
  · split
    · exact flushWindows_inv h
    · exact inv_of_mem (modPart_mem ..) (inv_with (flushWindows_inv h) rfl)

theorem State.recall_inv {s : State} {b : Binding} (h : s.Inv) : (s.recall b).Inv :=
  inv_of_mem (dropClean_mem ..)
    (writeBackAll_inv (fresh_inv (foldl_inv (fun _ _ ht => foldl_inv (fun _ _ => unmapWindow_inv) ht) h)))

theorem execSounbind_leads {d a b : BitVec 5} {s : State} (h : s.Inv) : Leads (execSounbind d a b s) := by
  unfold execSounbind
  refine finish_leads (keeps_bind keeps_orderingPoint fun _ => keeps_getBind fun _ _ => keeps_bind keeps_objAddr fun _ =>
    keeps_bind (keeps_modify fun _ => releaseObj_inv) fun _ => keeps_getBind fun _ _ => ?_) h
  split
  · exact keeps_effectMem (fun _ ht'' => inv_of_mem (wx_mem ..) ht'')
  · exact keeps_effectMem (fun _ ht'' => inv_of_mem (wx_mem ..) (inv_of_mem (modPart_mem ..) (recall_inv ht'')))

theorem execAcq_leads {d a : BitVec 5} {s : State} (h : s.Inv) : Leads (execAcq d a s) :=
  finish_leads (keeps_bind keeps_orderingPoint fun _ => keeps_getBind fun _ _ => keeps_bind keeps_objAddr fun _ =>
    keeps_effectMem (fun _ ht' => inv_of_mem (wx_mem ..) (acquireFor_inv ht'))) h

theorem execRel_leads {a : BitVec 5} {s : State} (h : s.Inv) : Leads (execRel a s) :=
  finish_leads (keeps_bind keeps_orderingPoint fun _ => keeps_getBind fun _ _ => keeps_bind keeps_objAddr fun _ =>
    keeps_effectM (fun _ => releaseObj_inv)) h

theorem State.wakeEnded_inv {s : State} {pa : Nat} (h : s.Inv) : (s.wakeEnded pa).Inv := h

theorem execBarinit_leads {a b : BitVec 5} {s : State} (h : s.Inv) : Leads (execBarinit a b s) :=
  finish_leads (keeps_getBind fun _ _ => keeps_bind keeps_objAddr fun _ => keeps_effectM (fun _ ht' => store_inv (wakeEnded_inv ht'))) h

theorem execBararr_leads {d a b : BitVec 5} {s : State} (h : s.Inv) : Leads (execBararr d a b s) :=
  finish_leads (keeps_bind keeps_orderingPoint fun _ => keeps_getBind fun _ _ => keeps_bind keeps_objAddr fun _ =>
    keeps_effectMem (fun _ ht' => inv_of_mem (wx_mem ..) (releaseObj_inv ht'))) h

theorem execBarwait_leads {a b : BitVec 5} {s : State} (h : s.Inv) : Leads (execBarwait a b s) :=
  finish_leads (keeps_bind keeps_orderingPoint fun _ => keeps_getBind fun _ _ => keeps_bind keeps_objAddr fun _ =>
    keeps_getBind fun _ _ => keeps_ite (keeps_effectMem (fun _ => acquireFor_inv)) (keeps_throw _)) h

theorem execBartest_leads {d a b : BitVec 5} {s : State} (h : s.Inv) : Leads (execBartest d a b s) :=
  finish_leads (keeps_getBind fun _ _ => keeps_bind keeps_objAddr fun _ => keeps_bind keeps_loadScalar fun _ =>
    keeps_effectMem (fun _ ht' => inv_of_mem (wx_mem ..) ht')) h

theorem execMwatch_leads {a : BitVec 5} {s : State} (h : s.Inv) : Leads (execMwatch a s) := by
  unfold execMwatch
  refine finish_leads (keeps_getBind fun _ ht => ?_) h
  dsimp only
  split
  · exact keeps_throw _
  · split
    · rename_i hr
      exact keeps_bind (keeps_set (inv_snd hr (locate_inv ht))) fun _ => keeps_throw _
    · rename_i hr
      exact keeps_bind (keeps_set (inv_with (inv_snd hr (locate_inv ht)) rfl)) fun _ => keeps_retireM

theorem execMwait_leads {s : State} (h : s.Inv) : Leads (execMwait s) := by
  unfold execMwait
  refine finish_leads (keeps_getBind fun _ _ => ?_) h
  dsimp only
  split
  · exact keeps_retireM
  · exact keeps_ite (keeps_effectM (fun _ ht' => inv_of_mem rfl ht')) (keeps_throw _)

theorem State.endMwait_inv {s : State} {h : HartId} {p : Hart → Bool} (hs : s.Inv) : (s.endMwait h p).Inv := by
  unfold endMwait
  split
  · split
    · exact inv_of_mem (modHart_mem ..) (wakeIf_inv hs)
    · exact hs
  · exact hs

theorem execSmap_leads {d a : BitVec 5} {s : State} (h : s.Inv) : Leads (execSmap d a s) := by
  unfold execSmap
  refine finish_leads (keeps_bind keeps_needWSite fun _ => keeps_getBind fun _ _ => keeps_bind keeps_loadRecord fun _ =>
    keeps_getBind fun _ ht' => ?_) h
  dsimp only
  split
  · exact keeps_effectMem (fun _ ht'' => inv_of_mem (wx_mem ..) ht'')
  · exact keeps_effectMem (fun _ ht'' => inv_of_mem (wx_mem ..) ht'')
  · exact keeps_bind (keeps_set (inv_of_mem (modPart_mem ..) (foldl_inv (fun _ _ => unmapWindow_inv) ht'))) fun _ =>
      keeps_effectMem (fun _ ht'' => inv_of_mem (wx_mem ..) ht'')

theorem execSunmap_leads {d a : BitVec 5} {s : State} (h : s.Inv) : Leads (execSunmap d a s) := by
  unfold execSunmap
  refine finish_leads (keeps_bind keeps_needWSite fun _ => keeps_getBind fun _ _ => ?_) h
  split
  · exact keeps_effectM (fun _ ht' => inv_of_mem (wx_mem ..) (unmapWindow_inv ht'))
  · exact keeps_effectM (fun _ ht' => inv_of_mem (wx_mem ..) ht')

theorem execSflush_leads {a : BitVec 5} {s : State} (h : s.Inv) : Leads (execSflush a s) := by
  unfold execSflush
  refine finish_leads (keeps_bind keeps_needWSite fun _ => keeps_getBind fun _ _ => keeps_effectM (fun _ ht' => ?_)) h
  split
  · exact flushWindows_inv ht'
  · exact ht'

/-! ## Copy engines -/

theorem State.modChan_inv {s : State} {e ch : Nat} {f : Chan → Chan} (h : s.Inv) : (s.modChan e ch f).Inv := by
  unfold modChan
  split
  · exact inv_of_mem (modW_mem ..) h
  · exact inv_of_mem (modPart_mem ..) h

theorem keeps_requestBytes {va : Word} : Keeps (requestBytes va) := by
  intro s hs
  unfold requestBytes
  split
  · exact hs
  · exact keeps_loadRecord _ hs

theorem execXcopy_leads {d a : BitVec 5} {s : State} (h : s.Inv) : Leads (execXcopy d a s) :=
  finish_leads (keeps_bind keeps_orderingPoint fun _ => keeps_getBind fun _ _ => keeps_bind keeps_requestBytes fun _ =>
    keeps_getBind fun _ ht' => keeps_guard fun _ => keeps_guard fun _ => keeps_bind (keeps_set (modChan_inv ht')) fun _ =>
    keeps_effectMem (fun _ ht'' => inv_of_mem (wx_mem ..) ht'')) h

theorem execXcwait_leads {d a : BitVec 5} {s : State} (h : s.Inv) : Leads (execXcwait d a s) := by
  unfold execXcwait
  refine finish_leads (keeps_getBind fun _ ht => keeps_guard fun _ => ?_) h
  dsimp only
  split
  · refine keeps_bind (keeps_set ?_) fun _ => keeps_throw _
    split
    · exact modChan_inv ht
    · exact ht
  · refine keeps_effectM (fun _ ht' => inv_of_mem (wx_mem ..) ?_)
    split
    · split
      · exact sawChan_inv ht'
      · exact ht'
    · exact ht'

theorem execXcqry_leads {d a : BitVec 5} {s : State} (h : s.Inv) : Leads (execXcqry d a s) :=
    plainReg_leads (fun _ ht => inv_of_mem (wx_mem ..) ht) h

theorem execXcfence_leads {s : State} (h : s.Inv) : Leads (execXcfence s) := by
  unfold execXcfence
  refine finish_leads (keeps_getBind fun _ ht => keeps_guard fun _ => ?_) h
  dsimp only
  split
  · refine keeps_bind (keeps_set ?_) fun _ => keeps_throw _
    split
    · exact foldl_inv (fun _ _ => modChan_inv) ht
    · exact ht
  · exact keeps_effectM (fun _ ht' => foldl_inv (fun _ _ => sawChan_inv) ht')

theorem placeOf_inv {e : Nat} {r : Req} {acc : Acc} {va : Word} {n : Nat} {s : State} (h : s.Inv) : (placeOf e r acc va n s).2.Inv := by
  unfold placeOf
  split
  · exact h
  · split
    · rename_i hr
      exact inv_snd hr (locate_inv h)
    · rename_i hr
      exact inv_snd hr (locate_inv h)

theorem readPlace_inv {e : Nat} {r : Req} {p : Place} {n i : Nat} {s : State} (h : s.Inv) : (readPlace e r p n i s).2.Inv := by
  induction n generalizing i s with
  | zero => exact h
  | succ n ih =>
    refine ih ?_
    split
    · exact fresh_inv h
    · exact h

theorem State.homeDirty_inv {s : State} {who : HartId} {p : Place} {n : Nat} (h : s.Inv) : (s.homeDirty who p n).Inv := by
  unfold homeDirty
  split
  · exact h
  · exact writeBack_inv h

theorem State.homeRequest_inv {s : State} {e : Nat} {r : Req} (h : s.Inv) : (s.homeRequest e r).Inv := by
  unfold homeRequest
  dsimp only
  split
  · exact writeBack_inv h
  · exact h

theorem State.writePlace_inv {s : State} {e : Nat} {p : Place} {bs : List Byte} {src : CopySrc} (h : s.Inv) :
    (s.writePlace e p bs src).Inv := by
  unfold writePlace
  split
  · exact inv_of_mem (sramWrite_mem ..) h
  · exact engineWrite_inv h

theorem State.copyFault_inv {s : State} {e ch : Nat} {stop : Word} (h : s.Inv) : (s.copyFault e ch stop).Inv := modChan_inv h

theorem copyRow_inv {e ch fuel : Nat} {r : Req} {c : Nat} {s : State} (h : s.Inv) : (copyRow e ch fuel r c s).Inv := by
  induction fuel generalizing r c s with
  | zero => exact h
  | succ fuel ih =>
    unfold copyRow
    refine inv_ite (modChan_inv h) ?_
    dsimp only
    split <;> rename_i hr
    · exact copyFault_inv (inv_snd hr (placeOf_inv h))
    · have h1 := inv_snd hr (placeOf_inv h)
      refine inv_ite (copyFault_inv (homeDirty_inv h1)) ?_
      split <;> rename_i hr2
      · exact copyFault_inv (inv_snd hr2 (placeOf_inv (homeDirty_inv h1)))
      · have h2 := inv_snd hr2 (placeOf_inv (homeDirty_inv h1))
        exact ih (modChan_inv (writePlace_inv (readPlace_inv (homeDirty_inv h2))))

theorem execCopyRequestPerform_leads {e ch : Nat} {s : State} (h : s.Inv) : Leads (execCopyRequestPerform e ch s) := by
  unfold execCopyRequestPerform
  split
  · split
    · split
      · refine leads_next (copyRow_inv ?_)
        split
        · exact homeRequest_inv h
        · exact h
      · exact leads_next h
    · exact leads_next h
  · exact leads_next h

theorem State.copyDone_inv {s : State} {e ch : Nat} (h : s.Inv) : (s.copyDone e ch).Inv := modChan_inv h

theorem State.copyArrive_inv {s : State} {e ch obj : Nat} {r : Req} (h : s.Inv) : (s.copyArrive e ch obj r).Inv :=
  inv_of_mem (modPart_mem ..) (engineWrite_inv (inv_of_mem (modW_mem ..) h))

theorem execCopyCompletion_leads {e ch : Nat} {s : State} (h : s.Inv) : Leads (execCopyCompletion e ch s) := by
  unfold execCopyCompletion
  split
  · split
    · split
      · exact leads_next h
      · split
        · exact leads_next (copyDone_inv h)
        · split
          · rename_i hr
            exact leads_next (copyFault_inv (inv_snd hr (locate_inv h)))
          · split
            · rename_i hr _
              exact leads_next (copyFault_inv (inv_snd hr (locate_inv h)))
            · rename_i hr _
              exact leads_next (copyDone_inv (copyArrive_inv (inv_snd hr (locate_inv h))))
    · exact leads_next h
  · exact leads_next h

/-! ## Fused arithmetic -/

theorem fuseM_leads {w : BitVec 32} {fmt : Fmt} {d a b c : FReg} {slot : BitVec 4} {s : State} (h : s.Inv) :
    Leads (fuseM w fmt d a b c slot s) :=
  finish_leads (keeps_getBind fun _ _ => keeps_ite (keeps_bind keeps_raiseIllegal fun _ => keeps_bind keeps_withRnd fun _ =>
    keeps_effectM (fun _ => putF_inv)) (keeps_bind keeps_withRnd fun _ => keeps_effectM (fun _ => putF_inv))) h

theorem ncvtM_leads {w : BitVec 32} {conv : State → Rnd → Fp → Narrow} {d : XReg} {a : FReg} {s : State} (h : s.Inv) :
    Leads (ncvtM w conv d a s) :=
  finish_leads (keeps_bind keeps_withRnd fun _ => keeps_effectM (fun _ ht => narrowed_inv (inv_of_mem (wx_mem ..) ht))) h

/-! ## The array -/

theorem State.modPress_inv {s : State} {w : Nat} {f : Press → Press} (h : s.Inv) : (s.modPress w f).Inv := inv_of_mem (modW_mem ..) h

theorem State.endCmd_inv {s : State} {w no status : Nat} (h : s.Inv) : (s.endCmd w no status).Inv := h

theorem State.writeResume_inv {s : State} {w : Nat} {k : Cmd} {v : Nat} (h : s.Inv) : (s.writeResume w k v).Inv :=
    inv_of_mem (sramWrite_mem ..) h

theorem State.modCmd_inv {s : State} {w no : Nat} {f : Cmd → Cmd} (h : s.Inv) : (s.modCmd w no f).Inv := modPress_inv h

theorem State.streamRow_inv {s : State} {w : Nat} {k : Cmd} {r : Resv} (h : s.Inv) : (s.streamRow w k r).Inv := by
  unfold streamRow
  dsimp only
  split <;> exact h

theorem State.streamStep_inv {s : State} {w : Nat} {k : Cmd} (h : s.Inv) : (s.streamStep w k).Inv := by
  unfold streamStep
  dsimp only
  split
  · exact endCmd_inv h
  · split
    · exact modCmd_inv (streamRow_inv h)
    · exact endCmd_inv (writeResume_inv (modCmd_inv (streamRow_inv h)))

theorem State.topkRow_inv {s : State} {w : Nat} {k : Cmd} (h : s.Inv) : (s.topkRow w k).Inv := modPress_inv h

theorem State.topkStep_inv {s : State} {w : Nat} {k : Cmd} (h : s.Inv) : (s.topkStep w k).Inv := by
  unfold topkStep
  dsimp only
  split
  · exact modCmd_inv (topkRow_inv h)
  · exact endCmd_inv (modCmd_inv (topkRow_inv h))

theorem State.loadStep_inv {s : State} {w : Nat} {k : Cmd} (h : s.Inv) : (s.loadStep w k).Inv := by
  unfold loadStep
  dsimp only
  split
  · exact endCmd_inv (inv_of_mem rfl h)
  · exact endCmd_inv h

theorem State.swapStep_inv {s : State} {w : Nat} {k : Cmd} (h : s.Inv) : (s.swapStep w k).Inv := endCmd_inv (modPress_inv h)

theorem State.startBefore_inv {s : State} {w no : Nat} (h : s.Inv) : (s.startBefore w no).Inv := modPress_inv h

theorem execPressLoadWeights_leads {w : Nat} {s : State} (h : s.Inv) : Leads (execPressLoadWeights w s) := by
  unfold execPressLoadWeights
  split
  · exact leads_next (loadStep_inv (startBefore_inv h))
  · exact leads_next h

theorem execPressSwapEffect_leads {w : Nat} {s : State} (h : s.Inv) : Leads (execPressSwapEffect w s) := by
  unfold execPressSwapEffect
  split
  · exact leads_next (swapStep_inv (startBefore_inv h))
  · exact leads_next h

theorem execPressStream_leads {w : Nat} {s : State} (h : s.Inv) : Leads (execPressStream w s) := by
  unfold execPressStream
  split
  · exact leads_next (streamStep_inv h)
  · exact leads_next h

theorem execPressTopk_leads {w : Nat} {s : State} (h : s.Inv) : Leads (execPressTopk w s) := by
  unfold execPressTopk
  split
  · exact leads_next (topkStep_inv h)
  · exact leads_next h

theorem State.runToStop_inv {s : State} {w no fuel : Nat} (h : s.Inv) : (s.runToStop w no fuel).2.Inv := by
  induction fuel generalizing s with
  | zero => exact h
  | succ fuel ih =>
    unfold runToStop
    split
    · exact h
    · dsimp only
      split
      · exact endCmd_inv (writeResume_inv (streamStep_inv h))
      · exact ih (streamStep_inv h)

theorem State.stopStream_inv {s : State} {w : Nat} {k : Cmd} (h : s.Inv) : (s.stopStream w k).2.Inv := by
  unfold stopStream
  split
  split
  · rename_i hr _
    exact endCmd_inv (writeResume_inv (inv_snd hr (fresh_inv h)))
  · rename_i hr _
    exact runToStop_inv (inv_snd hr (fresh_inv h))

theorem State.runTopk_inv {s : State} {w no fuel : Nat} (h : s.Inv) : (s.runTopk w no fuel).Inv := by
  induction fuel generalizing s with
  | zero => exact h
  | succ fuel ih =>
    unfold runTopk
    split
    · exact h
    · exact ih (topkStep_inv h)

theorem State.flushCmds_inv {s : State} {w : Nat} {l : List Cmd} {ok : Bool} (h : s.Inv) : (s.flushCmds w l ok).Inv := by
  induction l generalizing s ok with
  | nil => exact h
  | cons k rest ih =>
    unfold flushCmds
    split <;> split
    · exact ih (stopStream_inv h)
    · exact ih (modPress_inv (endCmd_inv h))
    · exact ih (stopStream_inv h)
    · exact ih (modPress_inv (endCmd_inv h))
    · exact ih (runTopk_inv h)
    · exact ih (modPress_inv (endCmd_inv h))
    · exact ih (loadStep_inv h)
    · exact ih (modPress_inv (endCmd_inv h))
    · exact ih (swapStep_inv h)
    · exact ih (modPress_inv (endCmd_inv h))

theorem State.stopPress_inv {s : State} {w : Nat} (h : s.Inv) : (s.stopPress w).Inv := by
  unfold stopPress
  split
  · exact h
  · exact flushCmds_inv (inv_of_mem rfl h)

/-! ## The Press -/

theorem keeps_myArray : Keeps (myArray) := by
  intro s hs
  unfold myArray
  split
  · split <;> exact hs
  · exact hs

theorem keeps_resvBytes {va : Word} : Keeps (resvBytes va) := by
  intro s hs
  unfold resvBytes
  split
  · exact hs
  · exact keeps_loadRecord _ hs

theorem execObres_leads {d a : BitVec 5} {s : State} (h : s.Inv) : Leads (execObres d a s) := by
  unfold execObres
  refine finish_leads (keeps_bind keeps_needWSite fun _ => keeps_getBind fun _ _ => keeps_bind keeps_resvBytes fun _ =>
    keeps_bind keeps_myArray fun _ => keeps_getBind fun _ _ => keeps_ite (keeps_effectMem (fun _ ht'' =>
    inv_of_mem (wx_mem ..) ht'')) (keeps_ite (keeps_effectMem (fun _ ht'' => inv_of_mem (wx_mem ..) ht'')) (keeps_ite
    (keeps_throw _) ?_))) h
  split
  · exact keeps_effectMem (fun _ ht'' => inv_of_mem (wx_mem ..) ht'')
  · exact keeps_effectMem (fun _ ht'' => inv_of_mem (wx_mem ..) (modPress_inv ht''))

theorem execObrel_leads {a : BitVec 5} {s : State} (h : s.Inv) : Leads (execObrel a s) := by
  unfold execObrel
  refine finish_leads (keeps_bind keeps_needWSite fun _ => keeps_getBind fun _ _ => keeps_bind keeps_myArray fun _ => ?_) h
  dsimp only
  split
  · exact keeps_ite (keeps_throw _) (keeps_ite (keeps_effectM (fun _ => modPress_inv)) (keeps_effectM (fun _ ht' => inv_of_mem rfl ht')))
  · exact keeps_throw _

theorem execMxfence_leads {s : State} (h : s.Inv) : Leads (execMxfence s) :=
  finish_leads (keeps_bind keeps_needWSite fun _ => keeps_bind keeps_myArray fun _ => keeps_effectM (fun _ ht =>
    inv_of_mem (modW_mem ..) ht)) h

theorem State.enqueue_inv {s : State} {w : Nat} {k : Cmd} (h : s.Inv) : (s.enqueue w k).Inv := inv_of_mem (modW_mem ..) h

theorem keeps_needRoom : Keeps (needRoom) :=
  keeps_bind keeps_myArray fun _ => keeps_getBind fun _ _ => keeps_guard fun _ => keeps_guard fun _ => keeps_pure _

theorem issueM_leads {w : BitVec 32} {kind : CmdKind} {d a : XReg} {s : State} (h : s.Inv) : Leads (issueM w kind d a s) := by
  unfold issueM
  refine finish_leads (keeps_bind keeps_needWSite fun _ => keeps_bind keeps_needRoom fun _ => keeps_getBind fun _ _ =>
    keeps_getBind fun _ _ => keeps_guard fun _ => keeps_bind keeps_loadBytes fun _ => ?_) h
  dsimp only
  split
  · refine keeps_bind (keeps_throw _) fun _ => keeps_getBind fun _ _ => ?_
    split
    · exact keeps_throw _
    · exact keeps_effectMem (fun _ ht''' => inv_of_mem (wx_mem ..) (enqueue_inv ht'''))
  · refine keeps_getBind fun _ _ => ?_
    split
    · exact keeps_throw _
    · exact keeps_effectMem (fun _ ht''' => inv_of_mem (wx_mem ..) (enqueue_inv ht'''))

theorem execMxswap_leads {s : State} (h : s.Inv) : Leads (execMxswap s) :=
  finish_leads (keeps_bind keeps_needWSite fun _ => keeps_bind keeps_needRoom fun _ => keeps_effectM (fun _ => enqueue_inv)) h

theorem execMxwait_leads {d a : BitVec 5} {s : State} (h : s.Inv) : Leads (execMxwait d a s) :=
  finish_leads (keeps_bind keeps_needWSite fun _ => keeps_getBind fun _ _ => keeps_guard fun _ => keeps_effectM (fun _ ht' =>
    inv_of_mem (wx_mem ..) ht')) h

theorem execMxstat_leads {d a : BitVec 5} {s : State} (h : s.Inv) : Leads (execMxstat d a s) :=
  finish_leads (keeps_bind keeps_needWSite fun _ => keeps_bind keeps_myArray fun _ => keeps_effectM (fun _ ht =>
    inv_of_mem (wx_mem ..) (modPress_inv ht))) h

theorem keeps_needTile {v : Word} : Keeps (needTile v) := keeps_ite (keeps_pure _) (keeps_throw _)

theorem execAcwm_leads {d a : BitVec 5} {s : State} (h : s.Inv) : Leads (execAcwm d a s) :=
  finish_leads (keeps_bind keeps_needWSite fun _ => keeps_getBind fun _ _ => keeps_bind keeps_needTile fun _ =>
    keeps_bind keeps_myArray fun _ => keeps_effectM (fun _ ht' => inv_of_mem (wx_mem ..) ht')) h

theorem acrdM_leads {w : BitVec 32} {fp : Bool} {d : BitVec 5} {a b : XReg} {s : State} (h : s.Inv) : Leads (acrdM w fp d a b s) :=
  finish_leads (keeps_bind keeps_needWSite fun _ => keeps_getBind fun _ _ => keeps_bind keeps_needTile fun _ => keeps_guard fun _ =>
    keeps_bind keeps_myArray fun _ => keeps_guard fun _ => keeps_effectM (fun _ ht' => inv_of_mem (modU_mem ..) ht')) h

theorem State.completeWait_inv {s : State} {h : HartId} {len : Nat} {f : User → User} (hs : s.Inv) : (s.completeWait h len f).Inv := by
  unfold completeWait
  dsimp only
  split
  · refine restow_inv (withHart_inv (fun _ ht => ?_) hs)
    split
    · exact retireTo_inv (inv_of_mem (modU_mem ..) ht)
    · exact inv_of_mem (refile_mem ..) (retireTo_inv (inv_of_mem (modU_mem ..) ht))
  · refine withHart_inv (fun _ ht => ?_) hs
    split
    · exact retireTo_inv (inv_of_mem (modU_mem ..) ht)
    · exact inv_of_mem (refile_mem ..) (retireTo_inv (inv_of_mem (modU_mem ..) ht))

theorem execAcrdRowFinal_leads {h : HartId} {s : State} (hs : s.Inv) : Leads (execAcrdRowFinal h s) := by
  unfold execAcrdRowFinal
  split
  · split
    · split
      · split
        · exact leads_next hs
        · exact leads_next (completeWait_inv hs)
      · exact leads_next hs
    · exact leads_next hs
  · exact leads_next hs

theorem State.zeroTile_inv {s : State} {w t : Nat} (h : s.Inv) : (s.zeroTile w t).Inv := modPress_inv h

theorem execAczero_leads {a : BitVec 5} {s : State} (h : s.Inv) : Leads (execAczero a s) :=
  finish_leads (keeps_bind keeps_needWSite fun _ => keeps_getBind fun _ _ => keeps_bind keeps_needTile fun _ =>
    keeps_bind keeps_myArray fun _ => keeps_guard fun _ => keeps_effectM (fun _ => zeroTile_inv)) h

theorem execAczeroUsersDone_leads {h : HartId} {s : State} (hs : s.Inv) : Leads (execAczeroUsersDone h s) := by
  unfold execAczeroUsersDone
  split
  · split
    · split
      · split
        · exact leads_next hs
        · exact leads_next (completeWait_inv (zeroTile_inv hs))
      · exact leads_next hs
    · exact leads_next hs
  · exact leads_next hs

theorem keeps_needSup {w : BitVec 32} : Keeps (needSup w) := by
  intro s hs
  unfold needSup
  split
  · exact hs
  · exact keeps_raiseIllegal _ hs

theorem keeps_checkPages {va : Word} {n : Nat} : Keeps (checkPages va n) := by
  induction n generalizing va with
  | zero => exact keeps_pure _
  | succ n ih =>
    unfold checkPages
    dsimp only
    split
    on_goal 1 => refine keeps_bind (keeps_throw _) fun _ => ?_
    all_goals
      refine keeps_getBind fun s hs => ?_
      split <;> rename_i hr
      · exact keeps_bind (keeps_set (inv_snd hr (locate_inv hs))) fun _ => keeps_bind (keeps_throw _) fun _ => ih
      · exact keeps_bind (keeps_set (inv_snd hr (locate_inv hs))) fun _ => ih

theorem keeps_storePages {p : Press} {w n i : Nat} {va : Word} : Keeps (storePages p w va n i) := by
  induction n generalizing va i with
  | zero => exact keeps_pure _
  | succ n ih => exact keeps_bind keeps_storeBytes fun _ => ih

theorem keeps_loadPages {va : Word} {n : Nat} {l : Array Byte} : Keeps (loadPages va n l) := by
  induction n generalizing va l with
  | zero => exact keeps_pure _
  | succ n ih => exact keeps_bind keeps_loadBytes fun _ => ih

theorem keeps_imageCore {va : Word} : Keeps (imageCore va) := by
  unfold imageCore
  refine keeps_bind keeps_loadBytes fun _ => keeps_getBind fun _ _ => ?_
  split
  · exact keeps_pure _
  · exact keeps_throw _

theorem keeps_needIdle {w : Nat} {p : Press} : Keeps (needIdle w p) := by
  intro s hs
  unfold needIdle
  dsimp only
  split <;> exact hs

theorem execMxsave_leads {a : BitVec 5} {s : State} (h : s.Inv) : Leads (execMxsave a s) :=
  finish_leads (keeps_bind keeps_needSup fun _ => keeps_getBind fun _ _ => keeps_guard fun _ => keeps_bind keeps_imageCore fun _ =>
    keeps_bind keeps_needIdle fun _ => keeps_bind keeps_checkPages fun _ => keeps_bind keeps_storePages fun _ => keeps_retireM) h

theorem execMxrest_leads {a : BitVec 5} {s : State} (h : s.Inv) : Leads (execMxrest a s) :=
  finish_leads (keeps_bind keeps_needSup fun _ => keeps_getBind fun _ _ => keeps_guard fun _ => keeps_bind keeps_imageCore fun _ =>
    keeps_bind keeps_needIdle fun _ => keeps_bind keeps_loadPages fun _ => keeps_guard fun _ => keeps_effectM (fun _ => modPress_inv)) h

/-! ## Distributions -/

theorem keeps_sharedTags {x y : Dist} : Keeps (sharedTags x y) := by
  intro s hs
  unfold sharedTags
  dsimp only
  split
  · exact hs
  · split <;> exact inv_of_mem (accrueZd_mem ..) hs

theorem distBin_leads {w : BitVec 32} {rounds : Bool} {op : DistOp} {d a b : DReg} {s : State} (h : s.Inv) :
    Leads (distBin w rounds op d a b s) :=
  finish_leads (keeps_bind keeps_needD fun _ => keeps_ite (keeps_bind keeps_withRnd fun _ => keeps_getBind fun _ _ =>
    keeps_bind keeps_sharedTags fun _ => keeps_effectM (fun _ ht' => inv_of_mem (accrueZd_mem ..) (inv_of_mem (wd_mem ..) ht')))
    (keeps_bind (keeps_pure _) fun _ => keeps_getBind fun _ _ => keeps_bind keeps_sharedTags fun _ => keeps_effectM (fun _ ht' =>
    inv_of_mem (accrueZd_mem ..) (inv_of_mem (wd_mem ..) ht')))) h

theorem execDmix_leads {d a b : BitVec 3} {s : State} (h : s.Inv) : Leads (execDmix d a b s) := by
  unfold execDmix
  refine finish_leads (keeps_bind keeps_needD fun _ => keeps_bind keeps_withRnd fun _ => keeps_getBind fun _ _ => ?_) h
  dsimp only
  split
  · exact keeps_throw _
  · exact keeps_effectM (fun _ ht' => inv_of_mem (accrueZd_mem ..) (inv_of_mem (wd_mem ..) ht'))

theorem State.pointwise_inv {s : State} {d : DReg} {x : Dist} {f : Nat → FRes} (h : s.Inv) : (s.pointwise d x f).Inv :=
  inv_of_mem (accrueZd_mem ..) (inv_of_mem (wd_mem ..) h)

theorem execDaff_leads {d a : BitVec 3} {b : BitVec 5} {s : State} (h : s.Inv) : Leads (execDaff d a b s) :=
  finish_leads (keeps_bind keeps_needD fun _ => keeps_bind keeps_withRnd fun _ => keeps_effectM (fun _ => pointwise_inv)) h

theorem execDmap_leads {d a n : BitVec 3} {s : State} (h : s.Inv) : Leads (execDmap d a n s) :=
  finish_leads (keeps_bind keeps_needD fun _ => keeps_bind keeps_withRnd fun _ => keeps_effectM (fun _ => pointwise_inv)) h

theorem execDform_leads {d a : BitVec 3} {t : BitVec 1} {s : State} (h : s.Inv) : Leads (execDform d a t s) :=
  finish_leads (keeps_bind keeps_needD fun _ => keeps_effectM (fun _ ht => inv_of_mem (accrueZd_mem ..) (inv_of_mem (wd_mem ..) ht))) h

theorem execDmv_leads {d a : BitVec 3} {s : State} (h : s.Inv) : Leads (execDmv d a s) :=
  finish_leads (keeps_bind keeps_needD fun _ => keeps_effectM (fun _ ht => inv_of_mem (wd_mem ..) ht)) h

theorem execDpt_leads {d : BitVec 3} {a : BitVec 5} {s : State} (h : s.Inv) : Leads (execDpt d a s) :=
  finish_leads (keeps_bind keeps_needD fun _ => keeps_effectM (fun _ ht => inv_of_mem (accrueZd_mem ..) (inv_of_mem (wd_mem ..) ht))) h

theorem execDuni_leads {d : BitVec 3} {a : BitVec 5} {t : BitVec 4} {s : State} (h : s.Inv) : Leads (execDuni d a t s) :=
  finish_leads (keeps_bind keeps_needD fun _ => keeps_bind keeps_withRnd fun _ => keeps_effectM (fun _ ht =>
    inv_of_mem (accrueZd_mem ..) (inv_of_mem (wd_mem ..) ht))) h

theorem execDsamp_leads {d : BitVec 3} {a : BitVec 5} {s : State} (h : s.Inv) : Leads (execDsamp d a s) :=
  finish_leads (keeps_bind keeps_needD fun _ => keeps_effectM (fun _ ht => inv_of_mem (modU_mem ..) (inv_of_mem (wd_mem ..) ht))) h

theorem execDld_leads {d : BitVec 3} {a : BitVec 5} {s : State} (h : s.Inv) : Leads (execDld d a s) :=
  finish_leads (keeps_bind keeps_needD fun _ => keeps_getBind fun _ _ => keeps_bind keeps_loadRecord fun _ => keeps_guard fun _ =>
    keeps_effectMem (fun _ ht' => inv_of_mem (wd_mem ..) ht')) h

theorem imagePlaces_inv {va : Word} {s t : State} {place : Nat → WordPlace} (h : s.Inv) (ht : imagePlaces va s = some (place, t)) :
    t.Inv := by
  unfold imagePlaces at ht
  split at ht
  · obtain ⟨c, -, hc⟩ := Option.bind_eq_some_iff.mp ht
    split at hc
    · cases hc
      exact h
    · cases hc
  · split at ht
    · dsimp only at ht
      split at ht
      · rename_i hr
        cases ht
        exact inv_snd hr (fillGranule_inv h)
      · cases ht
    · split at ht
      · split at ht
        · cases ht
          exact h
        · cases ht
      · cases ht

theorem tryWords_inv {mask : BitVec 8} {va : Word} {bs : List Byte} {place : Nat → WordPlace} {s :
    State} (h : s.Inv) : (tryWords mask va bs place s).Inv :=
  inv_with (foldl_inv (fun _ _ => tryStore_inv) h) rfl

theorem tryImage_inv {mask : BitVec 8} {va : Word} {bs : List Byte} {s : State} (h : s.Inv) : (tryImage mask va bs s).2.Inv := by
  have hs : (tryStore va bs s).2.Inv := tryStore_inv h
  unfold tryImage
  split <;> rename_i hr
  · exact inv_snd hr hs
  · split
    · exact inv_snd hr hs
    · split
      · rename_i hp
        exact tryWords_inv (imagePlaces_inv h hp)
      · exact inv_snd hr hs

theorem keeps_storeImage {va : Word} {bs : List Byte} : Keeps (storeImage va bs) := by
  intro s hs
  unfold storeImage
  exact keeps_mendable (fun _ => tryImage_inv) _ hs

theorem execDst_leads {d : BitVec 3} {a : BitVec 5} {s : State} (h : s.Inv) : Leads (execDst d a s) :=
  finish_leads (keeps_bind keeps_needD fun _ => keeps_getBind fun _ _ => keeps_guard fun _ => keeps_bind keeps_storeImage fun _ =>
    keeps_retireM) h

theorem State.extracted_inv {s : State} {d : FReg} {r : FRes} (h : s.Inv) : (s.extracted d r).Inv :=
  inv_of_mem (accrueZd_mem ..) (inv_of_mem (wf_mem ..) h)

theorem execDtag_leads {d : BitVec 5} {a : BitVec 3} {s : State} (h : s.Inv) : Leads (execDtag d a s) :=
  finish_leads (keeps_bind keeps_needD fun _ => keeps_effectM (fun _ ht => inv_of_mem (wx_mem ..) ht)) h

theorem execDtags_leads {d : BitVec 3} {a : BitVec 5} {s : State} (h : s.Inv) : Leads (execDtags d a s) :=
  finish_leads (keeps_bind keeps_needD fun _ => keeps_effectM (fun _ ht => inv_of_mem (wd_mem ..) ht)) h

/-! ## Tasks and versions -/

theorem State.modTask_inv {s : State} {idx : Nat} {f : Task → Task} (h : s.Inv) : (s.modTask idx f).Inv := inv_of_mem (modRm_mem ..) h

theorem State.endRun_inv {s : State} (h : s.Inv) : s.endRun.Inv := h

theorem State.onVersion_inv {s : State} {pa : Nat} (h : s.Inv) : (s.onVersion pa).Inv := inv_of_mem (modRm_mem ..) h

theorem keeps_beforeRequests : Keeps (beforeRequests) := by
  intro s hs
  unfold beforeRequests
  split <;> exact hs

theorem publishM_leads {w : BitVec 32} {fin : Bool} {a : XReg} {s : State} (h : s.Inv) : Leads (publishM w fin a s) :=
  finish_leads (keeps_getBind fun _ _ => keeps_bind keeps_objAddr fun _ => keeps_bind keeps_orderingPoint fun _ =>
    keeps_bind keeps_beforeRequests fun _ => keeps_bind (keeps_modify fun _ => releaseBytes_inv) fun _ => keeps_getBind fun _ _ =>
    keeps_guard fun _ => keeps_effectMem (fun _ ht'' => onVersion_inv (releaseObj_inv ht''))) h

theorem execVacq_leads {d a : BitVec 5} {s : State} (h : s.Inv) : Leads (execVacq d a s) := by
  unfold execVacq
  refine finish_leads (keeps_getBind fun _ _ => keeps_bind keeps_objAddr fun _ => keeps_bind keeps_orderingPoint fun _ =>
    keeps_effectMem (fun _ ht' => inv_of_mem (wx_mem ..) ?_)) h
  split
  · split
    · exact modTask_inv (acquireFor_inv ht')
    · exact acquireFor_inv ht'
  · exact acquireFor_inv ht'

theorem execVchk_leads {d a : BitVec 5} {s : State} (h : s.Inv) : Leads (execVchk d a s) := by
  unfold execVchk
  refine finish_leads (keeps_getBind fun _ _ => keeps_bind keeps_objAddr fun _ => keeps_bind keeps_loadScalar fun _ =>
    keeps_effectMem (fun _ ht' => ?_)) h
  split <;> exact inv_of_mem (wx_mem ..) ht'

theorem execVsub_leads {d a : BitVec 5} {s : State} (h : s.Inv) : Leads (execVsub d a s) := by
  unfold execVsub
  refine finish_leads (keeps_getBind fun _ _ => keeps_bind keeps_objAddr fun _ => keeps_bind keeps_loadScalar fun _ =>
    keeps_effectMem (fun _ ht' => ?_)) h
  split
  · exact inv_of_mem (wx_mem ..) ht'
  · split
    · exact inv_of_mem (wx_mem ..) (modTask_inv ht')
    · exact inv_of_mem (wx_mem ..) ht'

theorem State.decrement_inv {s : State} {h : Word} (hs : s.Inv) : (s.decrement h).Inv := by
  unfold decrement
  split
  · exact modTask_inv hs
  · exact hs

theorem applyTend_inv {s t : State} {handle : BitVec 32} {succ : List (BitVec 32)} (h : s.Inv)
    (ht : applyTend s handle succ = .ok t) : t.Inv := by
  have late : ∀ (c : Prop) [Decidable c] (u : State) (f : Part → Part), u.Inv → (if c then u.modPart f else u).Inv := by
    intro c _ u f hu
    split
    · exact inv_of_mem (modPart_mem ..) hu
    · exact hu
  unfold applyTend at ht
  split at ht
  · cases ht
    exact h
  · dsimp only at ht
    split at ht
    · cases ht
      exact modTask_inv (late _ _ _ h)
    · split at ht
      · cases ht
      · cases ht
        exact modTask_inv (late _ _ _ (modTask_inv (foldl_inv (fun _ _ => decrement_inv) h)))

theorem applyReq_inv {r : RmReq} {len : Word} {s t : State} (h : s.Inv) (ht : applyReq r len s = .ok t) : t.Inv := by
  unfold applyReq at ht
  cases r with
  | tend hd succ =>
    dsimp only at ht
    cases ha : applyTend s hd succ with
    | error v =>
      rw [ha] at ht
      cases ht
    | ok u =>
      rw [ha] at ht
      cases ht
      exact retireTo_inv (endRun_inv (applyTend_inv h ha))
  | tyield hd retires =>
    have h1 : (match s.task? (hd.setWidth 64) with
        | some t => s.modTask t.idx (Task.readied s.pkg.zaclk.toNat) | none => s).Inv := by
      split
      · exact modTask_inv h
      · exact h
    cases ht
    split
    · exact retireTo_inv (endRun_inv h1)
    · exact inv_of_mem rfl (endRun_inv h1)
  | tdec hd =>
    dsimp only at ht
    split at ht
    · split at ht
      · cases ht
      · cases ht
        exact retireTo_inv (decrement_inv h)
    · cases ht
  | tcancel rd hd =>
    dsimp only at ht
    split at ht
    · cases ht
      exact retireTo_inv (inv_of_mem (wx_mem ..) (modTask_inv h))
    · cases ht
      exact retireTo_inv (inv_of_mem (wx_mem ..) h)
  | tspawn rd d ins =>
    dsimp only at ht
    split at ht
    · cases ht
      exact retireTo_inv (inv_of_mem (wx_mem ..) h)
    · cases ht
      exact retireTo_inv (inv_of_mem (wx_mem ..) (inv_of_mem (modRm_mem ..) h))

theorem keeps_request {r : RmReq} : Keeps (request r) := by
  intro s hs
  unfold request
  dsimp only
  split
  · exact hs
  · split
    · rename_i hr
      exact inv_with (applyReq_inv hs hr) rfl
    · exact hs

theorem execTspawn_leads {d a : BitVec 5} {s : State} (h : s.Inv) : Leads (execTspawn d a s) :=
  finish_leads (keeps_getBind fun _ _ => keeps_guard fun _ => keeps_bind keeps_waitDrain fun _ => keeps_bind keeps_loadRecord fun _ =>
    keeps_ite (keeps_bind (keeps_modify fun _ => mayStall_inv) fun _ => keeps_request) (keeps_effectMem (fun _ ht' =>
    inv_of_mem (wx_mem ..) ht'))) h

theorem keeps_loadList {va : Word} {n : Nat} : Keeps (loadList va n) := by
  induction n generalizing va with
  | zero => exact keeps_pure _
  | succ n ih => exact keeps_bind keeps_loadScalar fun _ => keeps_bind ih fun _ => keeps_pure _

theorem State.releaseRun_inv {s : State} (h : s.Inv) : s.releaseRun.Inv := foldl_inv (fun _ _ => releaseObj_inv) h

theorem execTend_leads {s : State} (h : s.Inv) : Leads (execTend s) := by
  unfold execTend
  refine finish_leads (keeps_bind keeps_orderingPoint fun _ => keeps_getBind fun _ _ => keeps_ite keeps_retireM (keeps_bind ?_ fun _ =>
    keeps_bind (keeps_modify fun _ => releaseRun_inv) fun _ => keeps_request)) h
  split
  · exact keeps_ite (keeps_pure _) keeps_loadList
  · exact keeps_pure _

theorem execTyield_leads {s : State} (h : s.Inv) : Leads (execTyield s) :=
  finish_leads (keeps_bind keeps_waitDrain fun _ => keeps_getBind fun _ _ => keeps_ite keeps_retireM (keeps_bind (keeps_modify fun _ =>
    releaseRun_inv) fun _ => keeps_request)) h

theorem execTbudg_leads {d a : BitVec 5} {s : State} (h : s.Inv) : Leads (execTbudg d a s) := by
  unfold execTbudg
  refine plainReg_leads (fun _ ht => ?_) h
  dsimp only
  split
  · exact inv_of_mem (wx_mem ..) ht
  · exact inv_with (inv_of_mem (wx_mem ..) ht) rfl

theorem execTstat_leads {d a : BitVec 5} {s : State} (h : s.Inv) : Leads (execTstat d a s) :=
    plainReg_leads (fun _ ht => inv_of_mem (wx_mem ..) ht) h

theorem execTtake_leads {d : BitVec 5} {s : State} (h : s.Inv) : Leads (execTtake d s) :=
  finish_leads (keeps_bind keeps_waitDrain fun _ => keeps_getBind fun _ _ => keeps_ite (keeps_bind (keeps_modify fun _ =>
    releaseRun_inv) fun _ => keeps_bind keeps_request fun _ => keeps_bind (keeps_modify fun _ ht' =>
    inv_of_mem (modRm_mem ..) ht') fun _ => keeps_throw _) (keeps_bind (keeps_modify fun _ ht' => inv_of_mem (modRm_mem ..) ht') fun _ =>
    keeps_throw _)) h

theorem keeps_settleM {d : XReg} {tr : BitVec 32} : Keeps (settleM d tr) :=
  keeps_getBind fun _ _ => keeps_ite (keeps_effectM (fun _ ht' => inv_of_mem (wx_mem ..) (acquireFor_inv ht'))) (keeps_bind
    (keeps_modify fun _ ht' => inv_of_mem (modRm_mem ..) ht') fun _ => keeps_throw _)

theorem execVsettle_leads {d a : BitVec 5} {s : State} (h : s.Inv) : Leads (execVsettle d a s) :=
  finish_leads (keeps_getBind fun _ _ => keeps_ite (keeps_effectM (fun _ ht' => inv_of_mem (wx_mem ..) ht')) keeps_settleM) h

theorem State.applyPost_inv {s : State} {p : RmPost} (h : s.Inv) : (s.applyPost p).Inv := by
  refine withHart_inv (fun _ ht => ?_) h
  split
  · rename_i hr
    split
    · exact applyReq_inv ht hr
    · exact inv_of_mem (refile_mem ..) (applyReq_inv ht hr)
  · exact takeTrap_inv ht

theorem State.rmRequests_inv {s : State} (h : s.Inv) : s.rmRequests.Inv := by
  unfold rmRequests
  dsimp only
  split
  · exact h
  · exact foldl_inv (fun _ _ => applyPost_inv) (inv_of_mem (modRm_mem ..) h)

theorem State.rmJoin_inv {s : State} (h : s.Inv) : s.rmJoin.Inv := inv_of_mem (modRm_mem ..) h

theorem keeps_readInputs {l : List (Option TaskInput)} : Keeps (readInputs l) := by
  induction l with
  | nil => exact keeps_pure _
  | cons i rest ih =>
    cases i with
    | none => exact keeps_bind ih fun _ => keeps_pure _
    | some i =>
      have hread : Keeps (do
          let pa ← objAddr i.va false [1]
          let s ← get
          let l ← readInputs rest
          pure (some ⟨i.va, some pa, s.version pa⟩ :: l)) :=
        keeps_bind keeps_objAddr fun _ => keeps_getBind fun _ _ => keeps_bind ih fun _ => keeps_pure _
      exact keeps_getBind fun _ _ => keeps_ite (keeps_bind (keeps_throw _) fun _ => hread) hread

theorem State.startRun_inv {s : State} {k : Taker} {t : Task} {ins : List (Option TaskInput)} (h : s.Inv) : (s.startRun k t ins).Inv :=
  retireTo_inv (inv_of_mem (refile_mem ..) (inv_with (inv_of_mem (wx_mem ..) (acquireFor_inv (modTask_inv h))) rfl))

theorem State.assign_inv {s : State} {x : Taker × Task} (h : s.Inv) : (s.assign x).Inv := by
  unfold assign
  refine withHart_inv (fun _ ht => ?_) h
  split
  · rename_i hr
    exact startRun_inv (inv_of_ok hr keeps_readInputs ht)
  · rename_i hr
    exact takeTrap_inv (inv_of_error hr keeps_readInputs ht)
  · rename_i hr
    exact parkFault_inv (inv_of_error hr keeps_readInputs ht)
  · rename_i hr
    exact inv_of_error hr keeps_readInputs ht

theorem State.rmAssign_inv {s : State} (h : s.Inv) : s.rmAssign.Inv := inv_of_mem (modRm_mem ..) (foldl_inv (fun _ _ => assign_inv) h)

theorem State.settle_inv {s : State} {tr : BitVec 32} (h : s.Inv) : (s.settle tr).Inv := by
  unfold settle
  dsimp only
  split
  · exact inv_of_mem (modRm_mem ..) h
  · exact h

theorem State.wakeSettler_inv {s : State} {x : Settler} (h : s.Inv) : (s.wakeSettler x).Inv := by
  unfold wakeSettler
  split
  · split
    · exact withHart_inv (fun _ ht => retireTo_inv (inv_of_mem (refile_mem ..) (inv_of_mem (wx_mem ..) (acquireFor_inv ht)))) h
    · exact h
  · exact h

theorem State.liveSettlers_inv {s : State} (h : s.Inv) : s.liveSettlers.Inv := inv_of_mem (modRm_mem ..) h

theorem State.rmSettle_inv {s : State} (h : s.Inv) : s.rmSettle.Inv :=
  liveSettlers_inv (foldl_inv (fun _ _ => wakeSettler_inv) (foldl_inv (fun _ _ => settle_inv) (liveSettlers_inv h)))

theorem State.rmClock_inv {s : State} (h : s.Inv) : s.rmClock.Inv :=
  inv_of_mem (modRm_mem ..) (rmSettle_inv (rmAssign_inv (rmJoin_inv (rmRequests_inv h))))

theorem State.regroup_inv {s : State} (h : s.Inv) : s.regroup.Inv := by
  unfold regroup
  split
  · exact inv_of_mem (refile_mem ..) (inv_of_mem (leaveGroup_mem ..) h)
  · exact h

theorem State.abandon_inv {s : State} (h : s.Inv) : s.abandon.Inv := by
  unfold abandon
  dsimp only
  split
  · split
    · exact modTask_inv h
    · exact h
  · split <;> exact regroup_inv (inv_of_mem rfl h)

theorem execTaskAbandon_leads {h : HartId} {s : State} (hs : s.Inv) : Leads (execTaskAbandon h s) := by
  unfold execTaskAbandon
  split
  · split
    · exact leads_next (restow_inv (withHart_inv (fun _ => abandon_inv) hs))
    · exact leads_next hs
  · exact leads_next hs

theorem execBudgetExhausted_leads {h : HartId} {s : State} (hs : s.Inv) : Leads (execBudgetExhausted h s) := by
  unfold execBudgetExhausted
  dsimp only
  split
  · split
    · exact leads_next (withHart_inv (fun _ ht => takeTrap_inv (inv_of_mem rfl ht)) hs)
    · exact leads_next hs
  · exact leads_next hs

/-! ## Supervisor instructions -/

theorem State.putAsleep_inv {s : State} {a : Asleep} (h : s.Inv) : (s.putAsleep a).Inv := inv_of_mem (modPart_mem ..) h

theorem State.uninstall_inv {s : State} (h : s.Inv) : s.uninstall.Inv := by
  unfold uninstall
  dsimp only
  split
  · exact h
  · exact inv_with (engineWrite_inv h) rfl

theorem State.install_inv {s : State} {ctx : Nat} {withA : Bool} (h : s.Inv) : (s.install ctx withA).Inv :=
  inv_of_mem (modPart_mem ..) (inv_with (sample_inv h) rfl)

theorem State.modMend_inv {s : State} {w tag : Nat} {f : Mend → Mend} (h : s.Inv) : (s.modMend w tag f).Inv := inv_of_mem (modW_mem ..) h

theorem tryMend_inv {m : Mend} {s : State} (h : s.Inv) : (tryMend m s).2.Inv := by
  unfold tryMend
  split
  · split
    · exact tryImage_inv (inv_of_mem rfl h)
    · exact tryStore_inv h
  · split
    · rename_i hr
      exact inv_snd hr (tryAtomic_inv h)
    · rename_i hr
      exact inv_snd hr (tryAtomic_inv h)

theorem State.performMend_inv {s : State} {w ctx : Nat} (h : s.Inv) : (s.performMend w ctx).Inv := by
  refine withHart_inv (fun t ht => ?_) h
  split
  · exact ht
  · split
    rename_i hr
    have hm := inv_snd hr (tryMend_inv ht)
    split
    · exact inv_of_mem (modW_mem ..) hm
    · exact inv_of_mem (modW_mem ..) (inv_of_mem (markDropped_mem ..) hm)
    · exact inv_of_mem (modW_mem ..) (fileMend_inv hm)

theorem State.disposeMend_inv {s : State} {a : Await} {fatal : Bool} (h : s.Inv) : (s.disposeMend a fatal).Inv := by
  unfold disposeMend
  dsimp only
  split
  · exact h
  · split
    · exact inv_of_mem (modW_mem ..) (withHart_inv (fun _ ht => inv_of_mem (markDropped_mem ..) ht) h)
    · split
      · exact modMend_inv h
      · exact performMend_inv (modMend_inv h)

theorem State.unpark_inv {s : State} {ctx : Nat} {f : Car → Car} (h : s.Inv) : (s.unpark ctx f).Inv := inv_of_mem (modHart_mem ..) h

theorem State.disposeFault_inv {s : State} {a : Await} {fatal : Bool} (h : s.Inv) : (s.disposeFault a fatal).Inv := by
  unfold disposeFault
  split
  · exact withHart_inv (fun _ => leaveWith_inv) h
  · exact unpark_inv h

theorem State.disposeEmul_inv {s : State} {a : Await} {bs : List Byte} {fatal : Bool} (h : s.Inv) : (s.disposeEmul a bs fatal).Inv := by
  unfold disposeEmul
  dsimp only
  split
  · exact fatalEmul_inv h
  · split
    · exact fatalEmul_inv h
    · refine inv_of_mem (dropTag_mem ..) (restow_inv (unpark_inv (withHart_inv (fun _ ht => inv_of_mem (modU_mem ..) ?_) h)))
      split
      · exact inv_of_mem (wx_mem ..) ht
      · exact inv_of_mem (wf_mem ..) ht
      · exact ht

theorem State.disposeRun_inv {s : State} {ctx : Nat} (h : s.Inv) : (s.disposeRun ctx).Inv := by
  unfold disposeRun
  split
  · split
    · split
      · exact unpark_inv h
      · exact h
    · split
      · exact unpark_inv h
      · exact h
  · split
    · exact h
    · exact install_inv (uninstall_inv h)

theorem State.enterUser_inv {s : State} {pc : Word} (h : s.Inv) : (s.enterUser pc).Inv := chooseHome_inv (inv_of_mem rfl h)

theorem State.disposeArrive_inv {s : State} {ctx : Nat} {bs : List Byte} (h : s.Inv) : (s.disposeArrive ctx bs).Inv := by
  unfold disposeArrive
  dsimp only
  split
  · exact takeTrap_inv (enterUser_inv (install_inv (uninstall_inv h)))
  · exact enterUser_inv (install_inv (uninstall_inv h))

theorem State.dispose_inv {s : State} {bs : List Byte} {fatal : Bool} {len : Word} (h : s.Inv) : (s.dispose bs fatal len).Inv := by
  unfold dispose
  dsimp only
  split
  · exact retireTo_inv (disposeRun_inv h)
  · split
    · exact retireTo_inv h
    · split
      · exact disposeArrive_inv (inv_of_mem (dropTag_mem ..) (retireTo_inv h))
      · exact retireTo_inv (disposeFault_inv (inv_of_mem (dropTag_mem ..) h))
      · exact retireTo_inv (disposeMend_inv (inv_of_mem (dropTag_mem ..) h))
      · exact retireTo_inv (disposeEmul_inv h)

theorem keeps_needS {w : BitVec 32} {handlerAddr : Option Word} : Keeps (needS w handlerAddr) := by
  intro s hs
  unfold needS
  split
  · split
    · exact hs
    · exact keeps_raiseIllegal _ hs
  · exact keeps_raiseIllegal _ hs
  · split
    · split
      · exact hs
      · exact keeps_raiseIllegal _ hs
    · exact keeps_raiseIllegal _ hs

theorem execZresume_leads {a b : BitVec 5} {s : State} (h : s.Inv) : Leads (execZresume a b s) := by
  unfold execZresume
  refine finish_leads (keeps_getBind fun _ _ => keeps_bind keeps_needS fun _ => keeps_ite (keeps_bind keeps_raiseIllegal fun _ =>
    keeps_bind keeps_loadScalar fun _ => keeps_bind keeps_loadRecord fun _ => ?_) (keeps_bind keeps_loadScalar fun _ =>
    keeps_bind keeps_loadRecord fun _ => ?_)) h
  · dsimp only
    split
    · exact keeps_modify fun _ => dispose_inv
    · refine keeps_modify fun _ ht' => ?_
      split
      · exact disposeEmul_inv (inv_of_mem (endHandler_mem ..) ht')
      · exact inv_of_mem (endHandler_mem ..) ht'
  · dsimp only
    split
    · exact keeps_modify fun _ => dispose_inv
    · refine keeps_modify fun _ ht' => ?_
      split
      · exact disposeEmul_inv (inv_of_mem (endHandler_mem ..) ht')
      · exact inv_of_mem (endHandler_mem ..) ht'

theorem execZfqpop_leads {d a : BitVec 5} {s : State} (h : s.Inv) : Leads (execZfqpop d a s) :=
  finish_leads (keeps_bind keeps_needS fun _ => keeps_getBind fun _ _ => keeps_guard fun _ => keeps_ite (keeps_effectM (fun _ ht' =>
    inv_of_mem (wx_mem ..) ht')) (keeps_bind (keeps_modify fun _ => sample_inv) fun _ => keeps_bind keeps_storeBytes fun _ =>
    keeps_bind (keeps_modify fun _ ht' => inv_of_mem (modPart_mem ..) ht') fun _ => keeps_effectM (fun _ ht' =>
    inv_of_mem (wx_mem ..) ht'))) h

theorem State.parkThread_inv {s : State} {ctx : Nat} {f : Car → Car} (h : s.Inv) : (s.parkThread ctx f).Inv := by
  unfold parkThread
  refine stow_inv (withHart_inv (fun _ ht => ?_) h)
  dsimp only
  split
  · exact inv_of_mem (modCar_mem ..) (inv_of_mem rfl ht)
  · exact ht

theorem execZpark_leads {d a : BitVec 5} {s : State} (h : s.Inv) : Leads (execZpark d a s) := by
  unfold execZpark
  refine finish_leads (keeps_bind keeps_needS fun _ => keeps_getBind fun _ _ => keeps_ite (keeps_effectM (fun _ ht' =>
    inv_of_mem (wx_mem ..) ht')) (keeps_ite (keeps_throw _) (keeps_ite (keeps_effectM (fun _ ht' =>
    inv_of_mem (wx_mem ..) (uninstall_inv ht'))) ?_))) h
  split
  · exact keeps_effectM (fun _ ht' => inv_of_mem (wx_mem ..) ht')
  · exact keeps_ite (keeps_effectM (fun _ ht' => inv_of_mem (wx_mem ..) ht')) (keeps_effectM (fun _ ht' =>
      inv_of_mem (wx_mem ..) (parkThread_inv ht')))

theorem execZsignal_leads {a b : BitVec 5} {s : State} (h : s.Inv) : Leads (execZsignal a b s) :=
  finish_leads (keeps_bind keeps_needS fun _ => keeps_effectM (fun _ ht => inv_of_mem (modPart_mem ..) (inv_of_mem (modHart_mem ..) ht))) h

/-! ## Events -/

theorem State.withdraw_inv {s : State} (h : s.Inv) : s.withdraw.Inv := by
  unfold withdraw
  split
  · refine inv_of_mem (modPart_mem ..) (foldl_inv (fun _ _ ht => ?_) h)
    split
    · exact inv_of_mem (dropTag_mem ..) ht
    · exact ht
  · exact h

theorem execExtraction_leads {h : HartId} {s : State} (hs : s.Inv) : Leads (execExtraction h s) := by
  unfold execExtraction
  dsimp only
  split
  · split
    · refine leads_next (withHart_inv (fun _ ht => ?_) hs)
      split
      · exact departToL_inv (inv_with (withdraw_inv ht) rfl)
      · exact departToL_inv (inv_of_mem (modU_mem ..) (withdraw_inv ht))
    · exact leads_next hs
  · exact leads_next hs

theorem State.depart_inv {s : State} (h : s.Inv) : s.depart.Inv := by
  unfold depart
  dsimp only
  split
  · exact h
  · split
    · exact moveToW_inv h
    · exact h
  · split
    · exact migrateTrap_inv h
    · exact leaveHome_inv h
  · split
    · exact migrateTrap_inv h
    · exact h
  · split
    · exact takeTrap_inv (inv_of_mem rfl h)
    · split
      · exact departToW_inv h
      · exact h

theorem execMigrationDepart_leads {h : HartId} {s : State} (hs : s.Inv) : Leads (execMigrationDepart h s) := by
  unfold execMigrationDepart
  refine leads_next (withHart_inv (fun _ ht => ?_) hs)
  split
  · exact depart_inv ht
  · exact ht

theorem State.endTransit_inv {s : State} {ctx : Nat} (h : s.Inv) : (s.endTransit ctx).Inv := inv_of_mem (modPart_mem ..) h

theorem execArrivalWSite_leads {ctx : Nat} {s : State} (h : s.Inv) : Leads (execArrivalWSite ctx s) := by
  unfold execArrivalWSite
  dsimp only
  split
  · split
    · refine leads_next (stow_inv ?_)
      split
      · exact dropGranules_inv (inv_of_mem rfl h)
      · exact h
    · exact leads_next h
  · exact leads_next h

theorem execArrivalLSite_leads {ctx : Nat} {s : State} (h : s.Inv) : Leads (execArrivalLSite ctx s) := by
  unfold execArrivalLSite
  dsimp only
  split
  · split
    · exact leads_next h
    · exact leads_next (pushWf_inv (inv_of_mem (newTag_mem ..) (endTransit_inv (putAsleep_inv (inv_with (engineWrite_inv h) rfl)))))
  · exact leads_next h

theorem State.drawBin_inv {s : State} {w slot : Nat} {b : Bin} (h : s.Inv) : (s.drawBin w slot b).Inv :=
  parkContexts_inv (inv_of_mem (modW_mem ..) (foldl_inv (fun _ _ ht => inv_of_mem (modHart_mem ..) ht) h))

theorem State.settleGroup_inv {s : State} {w slot : Nat} {g : Group} (h : s.Inv) : (s.settleGroup w slot g).Inv := by
  unfold settleGroup
  dsimp only
  split
  · exact inv_of_mem (modW_mem ..) (foldl_inv (fun _ _ ht => inv_of_mem (modHart_mem ..) ht) h)
  · exact inv_of_mem (modW_mem ..) h

theorem execCarouselDraw_leads {w slot : Nat} {s : State} (h : s.Inv) : Leads (execCarouselDraw w slot s) := by
  unfold execCarouselDraw
  split
  · split
    · exact leads_next h
    · split
      · refine leads_next ?_
        split
        · exact settleGroup_inv h
        · exact h
      · split
        · exact leads_next (drawBin_inv h)
        · exact leads_next h
  · exact leads_next h

theorem execBinAged_leads {w : Nat} {s : State} (h : s.Inv) : Leads (execBinAged w s) := by
  unfold execBinAged
  split
  · split
    · exact leads_next h
    · split
      · exact leads_next (drawBin_inv h)
      · exact leads_next h
  · exact leads_next h

theorem State.slotLimit_inv {s : State} {w slot : Nat} (h : s.Inv) : (s.slotLimit w slot).Inv := by
  unfold slotLimit
  split
  · split
    · split
      · exact settleGroup_inv h
      · exact h
    · exact h
  · exact h

theorem State.drawFree_inv {s : State} {w slot : Nat} (h : s.Inv) : (s.drawFree w slot).Inv := by
  unfold drawFree
  split
  · split
    · exact h
    · split
      · exact drawBin_inv h
      · exact h
  · exact h

theorem State.drawClock_inv {s : State} (h : s.Inv) : s.drawClock.Inv :=
    foldl_inv (fun _ _ => drawFree_inv) (foldl_inv (fun _ _ => slotLimit_inv) h)

theorem State.fileFirst_inv {s : State} (h : s.Inv) : s.fileFirst.Inv := by
  unfold fileFirst
  dsimp only
  split
  · exact h
  · split
    · split
      · exact fileFault_inv (inv_of_mem (modPart_mem ..) h)
      · exact inv_of_mem (modPart_mem ..) h
    · split
      · split
        · exact inv_of_mem (modW_mem ..) (writeMend_inv (inv_of_mem (modPart_mem ..) h))
        · exact inv_of_mem (modPart_mem ..) h
      · exact inv_of_mem (modPart_mem ..) h

theorem State.fileFirstEmul_inv {s : State} (h : s.Inv) : s.fileFirstEmul.Inv := by
  unfold fileFirstEmul
  split
  · exact h
  · refine withHart_inv (fun _ ht => ?_) (inv_of_mem (modPart_mem ..) h)
    split
    · exact fileEmul_inv ht
    · exact ht

theorem State.fileWaiting_inv {s : State} (h : s.Inv) : s.fileWaiting.Inv := by
  unfold fileWaiting
  refine foldl_inv (fun _ _ ht => ?_) (foldl_inv (fun _ _ ht => ?_) h)
  · split
    · exact fileFirstEmul_inv ht
    · exact ht
  · split
    · exact fileFirst_inv ht
    · exact ht

theorem execMendingEntryPerform_leads {w ctx : Nat} {s : State} (h : s.Inv) : Leads (execMendingEntryPerform w ctx s) := by
  unfold execMendingEntryPerform
  split
  · split
    · exact leads_next h
    · split
      · exact leads_next (performMend_inv h)
      · exact leads_next (fileWaiting_inv h)
      · exact leads_next h
  · exact leads_next h

theorem State.tick_inv {s : State} (h : s.Inv) : s.tick.Inv := fileWaiting_inv (inv_of_mem (modPart_mem ..) (inv_of_mem rfl h))

theorem State.zaclkNext_inv {s : State} (h : s.Inv) : s.zaclkNext.Inv := inv_of_mem (modPkg_mem ..) h

theorem State.startHandler_inv {s : State} {r : Nat} (h : s.Inv) : (s.startHandler r).Inv := by
  unfold startHandler
  dsimp only
  split
  · exact inv_of_mem (modPart_mem ..) (sample_inv h)
  · exact inv_with (sample_inv h) rfl

theorem execEmulationHandlerRun_leads {r : Nat} {s : State} (h : s.Inv) : Leads (execEmulationHandlerRun r s) := by
  unfold execEmulationHandlerRun
  split
  · exact leads_next (startHandler_inv h)
  · exact leads_next h

theorem execHandlerTimeLimit_leads {r : Nat} {s : State} (h : s.Inv) : Leads (execHandlerTimeLimit r s) := by
  unfold execHandlerTimeLimit
  split
  · split
    · refine leads_next (withHart_inv (fun _ ht => ?_) h)
      split
      · exact handlerFatal_inv ht
      · exact ht
    · exact leads_next h
  · exact leads_next h

theorem execHotPagePublish_leads {s : State} (h : s.Inv) : Leads (execHotPagePublish s) := by
  unfold execHotPagePublish
  split
  · exact leads_next (inv_of_mem rfl (engineWrite_inv (s := { s with freeCount := _ }) h))
  · exact leads_next h

theorem execCsrWrite_leads {addr : BitVec 12} {v : Word} {s : State} (h : s.Inv) : Leads (execCsrWrite addr v s) := by
  unfold execCsrWrite
  dsimp only
  split
  · exact leads_next h
  · exact leads_next (csrPut_inv h)

theorem execInterruptTaken_leads {n : Nat} {s : State} (h : s.Inv) : Leads (execInterruptTaken n s) := by
  unfold execInterruptTaken
  split
  · exact leads_next (inv_of_mem rfl h)
  · exact leads_next h

/-! ## The package -/

theorem State.send_inv {s : State} {m : HostMsg} (h : s.Inv) : (s.send m).Inv := inv_of_mem (modPkg_mem ..) h

theorem State.parkReady_inv {s : State} (h : s.Inv) : s.parkReady.Inv := foldl_inv (fun _ _ => parkThread_inv) h

theorem State.beginPreempt_inv {s : State} (h : s.Inv) : s.beginPreempt.Inv := by
  unfold beginPreempt
  split
  · exact parkReady_inv h
  · exact parkReady_inv (inv_of_mem (modPart_mem ..) h)

theorem State.finishPreempt_inv {s : State} (h : s.Inv) : s.finishPreempt.Inv :=
  inv_of_mem (modPart_mem ..) (writeBackAll_inv (inv_with (foldl_inv (fun _ _ => stopPress_inv) h) rfl))

theorem State.resumePart_inv {s : State} (h : s.Inv) : s.resumePart.Inv := inv_of_mem (modPart_mem ..) (inv_of_mem rfl h)

theorem State.writeSlot_inv {s : State} {n : Nat} {whole : Bool} (h : s.Inv) : (s.writeSlot n whole).2.Inv := by
  unfold writeSlot
  dsimp only
  split <;> exact inv_of_mem (modPkg_mem ..) (fresh_inv h)

theorem State.restoreSlot_inv {s : State} {n : Nat} (h : s.Inv) : (s.restoreSlot n).2.Inv := by
  unfold restoreSlot
  split
  · exact h
  · split
    split
    · rename_i hr _
      exact inv_snd hr (fresh_inv h)
    · split
      · rename_i hr _ _
        exact inv_snd hr (fresh_inv h)
      · rename_i hr _ _
        exact loadSlot_inv (inv_snd hr (fresh_inv h))

theorem State.performCmd_inv {s : State} {a0 : HostCmd} (h : s.Inv) : (s.performCmd a0).2.Inv := by
  unfold performCmd
  dsimp only
  split
  · split
    · exact h
    · split
      · exact finishPreempt_inv (beginPreempt_inv h)
      · exact beginPreempt_inv h
  · split
    · exact resumePart_inv h
    · exact h
  · split
    · exact h
    · split
      · exact writeSlot_inv h
      · split
        · split
          · exact writeSlot_inv (finishPreempt_inv (beginPreempt_inv h))
          · exact resumePart_inv (writeSlot_inv (finishPreempt_inv (beginPreempt_inv h)))
        · exact beginPreempt_inv h
  · split
    · exact h
    · split
      · exact h
      · exact restoreSlot_inv h
  · split
    · exact send_inv (inv_of_mem rfl h)
    · exact h

theorem State.hostAccess_inv {s : State} {a0 : HostMem} (h : s.Inv) : (s.hostAccess a0).Inv := by
  unfold hostAccess
  dsimp only
  split
  · split
    · exact send_inv (sampleSpan_inv h)
    · exact send_inv h
  · split
    · exact engineWrite_inv h
    · exact send_inv h

theorem State.pumpCmds_inv {s : State} {fuel : Nat} (h : s.Inv) : (s.pumpCmds fuel).Inv := by
  induction fuel generalizing s with
  | zero => exact h
  | succ fuel ih =>
    unfold pumpCmds
    split
    · exact h
    · split <;> rename_i hr
      · exact inv_snd hr (performCmd_inv h)
      · exact ih (inv_of_mem (modPart_mem ..) (send_inv (inv_snd hr (performCmd_inv h))))

theorem State.noteRemote_inv {s : State} {addr n pkg : Nat} (h : s.Inv) : (s.noteRemote addr n pkg).Inv := inv_of_mem (modPkg_mem ..) h

theorem State.noteHeld_inv {s : State} {addr pkg pid : Nat} (h : s.Inv) : (s.noteHeld addr pkg pid).Inv := inv_of_mem (modPkg_mem ..) h

theorem State.remoteUpdate_inv {s : State} {pkg pid addr n : Nat} {new : List Byte} (h : s.Inv) : (s.remoteUpdate pkg pid addr n new).Inv :=
  send_inv (remoteWrite_inv h)

theorem State.trapezePerform_inv {s : State} {r : TrapezeReq} (h : s.Inv) : (s.trapezePerform r).Inv := by
  unfold trapezePerform
  dsimp only
  split
  · split
    · exact send_inv (noteRemote_inv h)
    · exact send_inv h
  · split
    · exact send_inv (noteHeld_inv (noteRemote_inv h))
    · exact send_inv h
  · split
    · exact send_inv (noteRemote_inv (remoteWrite_inv h))
    · exact send_inv h
  · split
    · exact remoteUpdate_inv h
    · exact send_inv h
  · split
    · exact remoteUpdate_inv h
    · exact send_inv h
  · split
    · exact send_inv h
    · split
      · exact send_inv (remoteWrite_inv h)
      · exact send_inv h
  · split
    · refine remoteUpdate_inv ?_
      split <;> exact h
    · exact send_inv h
  · split
    · exact send_inv (inv_of_mem rfl h)
    · exact send_inv h

theorem State.trapezeServe_inv {s : State} {r : TrapezeReq} (h : s.Inv) : (s.trapezeServe r).Inv := by
  unfold trapezeServe
  dsimp only
  split
  · exact trapezePerform_inv h
  · split
    · exact sampleSpan_inv (trapezePerform_inv h)
    · exact trapezePerform_inv h

theorem State.pump_inv {s : State} (h : s.Inv) : s.pump.Inv := by
  unfold pump
  dsimp only
  split
  · exact pumpCmds_inv h
  · exact foldl_inv (fun _ _ => trapezeServe_inv) (foldl_inv (fun _ _ => hostAccess_inv) (inv_of_mem (modPart_mem ..) (pumpCmds_inv h)))

theorem State.arriveCmd_inv {s : State} {c : HostCmd} (h : s.Inv) : (s.arriveCmd c).Inv := by
  unfold arriveCmd
  split
  · exact pump_inv (inv_of_mem (modPart_mem ..) h)
  · exact h

theorem execHostMemoryRequest_leads {r : HostMem} {s : State} (h : s.Inv) : Leads (execHostMemoryRequest r s) := by
  unfold execHostMemoryRequest
  refine leads_next ?_
  split
  · exact pump_inv (inv_of_mem (modPart_mem ..) h)
  · exact h

theorem State.restowChanged_inv {old s : State} (hs : s.Inv) : (old.restowChanged s).Inv :=
  foldl_inv (fun _ _ => restow_inv) hs

theorem execRingmasterClock_leads {s : State} (h : s.Inv) : Leads (execRingmasterClock s) := by
  unfold execRingmasterClock
  refine leads_next (pump_inv (zaclkNext_inv (inv_with (restowChanged_inv (barClock_inv ?_)) rfl)))
  dsimp only
  split
  · exact restowChanged_inv (tick_inv (rmClock_inv (drawClock_inv h)))
  · exact h

theorem execPartitionFormation_leads {r : FormationReq} {s : State} (h : s.Inv) : Leads (execPartitionFormation r s) := by
  unfold execPartitionFormation
  split
  · refine leads_next ?_
    split
    · exact send_inv (formed_inv h)
    · exact send_inv h
  · refine leads_next ?_
    split
    · exact send_inv (inv_of_mem rfl h)
    · exact send_inv h

theorem State.removeHart_inv {s : State} {h : HartId} (hs : s.Inv) : (s.removeHart h).Inv := by
  unfold removeHart
  split
  · exact inv_of_mem (dropCurrent_mem ..) hs
  · exact hs

theorem State.flushCore_inv {s : State} {w : Nat} (h : s.Inv) : (s.flushCore w).Inv := foldl_inv (fun _ _ => flushWindows_inv) h

theorem execCoreRemoval_leads {c : CoreId} {s : State} (h : s.Inv) : Leads (execCoreRemoval c s) := by
  unfold execCoreRemoval
  split
  · exact leads_next (send_inv h)
  · split
    · refine leads_next ?_
      split
      · exact send_inv (inv_of_mem (modPart_mem ..) (flushCore_inv h))
      · exact send_inv h
    · refine leads_next ?_
      split
      · exact send_inv (inv_of_mem (modPart_mem ..) (removeHart_inv h))
      · exact send_inv h

theorem execCoreAssignment_leads {c : CoreId} {s : State} (h : s.Inv) : Leads (execCoreAssignment c s) := by
  unfold execCoreAssignment
  split
  · exact leads_next (send_inv h)
  · split
    · refine leads_next ?_
      split
      · exact send_inv (inv_of_mem (modPart_mem ..) h)
      · exact send_inv h
    · refine leads_next ?_
      split
      · exact send_inv (inv_of_mem (modPart_mem ..) (inv_of_mem rfl h))
      · exact send_inv h

theorem State.modLife_inv {s : State} {f : Lifetime → Lifetime} (h : s.Inv) : (s.modLife f).Inv := inv_of_mem (modPkg_mem ..) h

theorem State.loseGranules_inv {s : State} {pkg : Nat} (h : s.Inv) : (s.loseGranules pkg).Inv :=
  foldl_inv (fun _ _ ht => inv_of_mem (modWindows_mem ..) ht) (foldl_inv (fun _ _ ht => foldl_inv (fun _ _ ht' =>
    foldl_inv (fun _ _ ht'' => inv_of_mem rfl ht'') ht') ht) h)

theorem execPackageUnreachable_leads {pkg : Nat} {s : State} (h : s.Inv) : Leads (execPackageUnreachable pkg s) := by
  unfold execPackageUnreachable
  dsimp only
  split
  · exact leads_next h
  · exact leads_next (inv_of_mem (modPart_mem ..) (inv_of_mem (modPkg_mem ..) (inv_with (loseGranules_inv h) rfl)))

theorem execUncorrectableError_leads {pa : Nat} {s : State} (h : s.Inv) : Leads (execUncorrectableError pa s) := by
  unfold execUncorrectableError
  dsimp only
  split
  · refine leads_next ?_
    split
    · exact modLife_inv (inv_of_mem rfl h)
    · exact h
  · exact leads_next h

theorem execTrapezeRequest_leads {r : TrapezeReq} {s : State} (h : s.Inv) : Leads (execTrapezeRequest r s) := by
  unfold execTrapezeRequest
  split
  · exact leads_next h
  · split
    · exact leads_next (inv_of_mem (modPart_mem ..) h)
    · exact leads_next (trapezeServe_inv h)

theorem execL2PowerGating_leads {die slice : Nat} {gate : Bool} {s : State} (h : s.Inv) : Leads (execL2PowerGating die slice gate s) := by
  unfold execL2PowerGating
  dsimp only
  split
  · exact leads_next h
  · exact leads_next (inv_of_mem (modPkg_mem ..) h)

theorem State.testPress_inv {s : State} {w : Nat} {bad : List Nat} (h : s.Inv) : (s.testPress w bad).Inv := inv_of_mem (modPkg_mem ..) h

theorem State.bringUpStep_inv {s : State} {a0 : Nat} (h : s.Inv) : (s.bringUpStep a0).Inv := by
  unfold bringUpStep
  split
  · exact inv_of_mem (modPkg_mem ..) (inv_of_mem rfl h)
  · exact inv_of_mem (modPkg_mem ..) h
  · exact rfl
  · exact foldl_inv (fun _ _ => testPress_inv) (inv_of_mem rfl h)
  · exact inv_of_mem (modPkg_mem ..) (inv_of_mem rfl h)
  · exact inv_of_mem (modPkg_mem ..) (inv_of_mem rfl h)
  · exact h

theorem State.bringUpTo_inv {s : State} {n : Nat} (h : s.Inv) : (s.bringUpTo n).Inv := foldl_inv (fun _ _ => bringUpStep_inv) h

theorem State.bringUpStops_inv {s : State} {f : BringUpFailure} (h : s.Inv) : (s.bringUpStops f).Inv :=
  modLife_inv (send_inv (inv_of_mem (modPkg_mem ..) (bringUpTo_inv h)))

theorem execBringUp_leads {fail : Option BringUpFailure} {s : State} (h : s.Inv) : Leads (execBringUp fail s) := by
  unfold execBringUp
  split
  · exact leads_next h
  · split
    · exact leads_next (bringUpStops_inv (inv_of_mem rfl h))
    · split
      · refine leads_next ?_
        split
        · exact bringUpStops_inv h
        · exact h
      · exact leads_next (inv_of_mem (modPkg_mem ..) (bringUpTo_inv h))

theorem execRecoveryScrub_leads {w : Nat} {bad : List Nat} {s : State} (h : s.Inv) : Leads (execRecoveryScrub w bad s) := by
  unfold execRecoveryScrub
  split
  · exact leads_next h
  · exact leads_next (testPress_inv h)

theorem execPowerThrottle_leads {ws : List Nat} {s : State} (h : s.Inv) : Leads (execPowerThrottle ws s) := by
  unfold execPowerThrottle
  refine leads_next ?_
  split
  · exact inv_of_mem (modPkg_mem ..) h
  · exact h

theorem execThermalThrottle_leads {h : HeatSite} {s : State} (hs : s.Inv) : Leads (execThermalThrottle h s) := by
  unfold execThermalThrottle
  split
  · refine leads_next ?_
    split
    · exact inv_of_mem (modPkg_mem ..) hs
    · exact hs
  · refine leads_next ?_
    split
    · exact inv_of_mem (modPkg_mem ..) hs
    · exact hs

theorem execThrottlingEnd_leads {c : ThrottleCause} {s : State} (h : s.Inv) : Leads (execThrottlingEnd c s) := by
  unfold execThrottlingEnd
  split <;> exact leads_next (inv_of_mem (modPkg_mem ..) h)

theorem State.inReset_inv {s : State} {life : Lifetime} : (s.inReset life).Inv := inv_with reset_inv rfl

theorem execEmergencyShutdown_leads {die : Nat} {s : State} (h : s.Inv) : Leads (execEmergencyShutdown die s) := by
  unfold execEmergencyShutdown
  refine leads_next ?_
  dsimp only
  split
  · exact h
  · exact inReset_inv

theorem execLifetimeCommit_leads {s : State} (h : s.Inv) : Leads (execLifetimeCommit s) := leads_next (inv_of_mem (modPkg_mem ..) h)

theorem State.serve_inv {s : State} {a0 : Service} (h : s.Inv) : (s.serve a0).Inv := by
  unfold serve
  dsimp only
  split
  · refine send_inv ?_
    split
    · exact inv_of_mem (modPkg_mem ..) h
    · exact h
  · exact inv_of_mem (modPkg_mem ..) (send_inv h)
  · exact send_inv h
  · exact inv_of_mem (modPkg_mem ..) h
  · refine send_inv ?_
    split
    · split
      · exact inv_of_mem (modPkg_mem ..) h
      · exact h
    · split
      · exact inv_of_mem (modPkg_mem ..) h
      · exact h
  · refine send_inv ?_
    split
    · exact inv_of_mem (modPkg_mem ..) h
    · exact h
  · exact inReset_inv
  · exact modLife_inv h
  · exact modLife_inv h
  · exact modLife_inv h

theorem State.wholeCheckpoint_inv {s : State} {n : Nat} {stay : Bool} (h : s.Inv) : (s.wholeCheckpoint n stay).Inv := by
  unfold wholeCheckpoint
  dsimp only
  split
  · exact arriveCmd_inv h
  · split
    · exact send_inv h
    · exact send_inv (writeSlot_inv h)

/-! ## The pair -/

theorem zeroBase_inv {b : BaseInstr} {s : State} (h : s.Inv) : (zeroBase b s).Inv := by
  unfold zeroBase
  split
  · exact inv_of_mem (wx_mem ..) h
  · exact inv_of_mem (wx_mem ..) h
  · exact inv_of_mem (wx_mem ..) h
  · exact inv_of_mem (wx_mem ..) h
  · exact inv_of_mem (wx_mem ..) h
  · exact inv_of_mem (wx_mem ..) h
  · exact inv_of_mem (wx_mem ..) h
  · exact inv_of_mem (wx_mem ..) h
  · exact inv_of_mem (wx_mem ..) h
  · exact inv_of_mem (wx_mem ..) h
  · exact inv_of_mem (wx_mem ..) h
  · exact inv_of_mem (wx_mem ..) h
  · exact inv_of_mem (wx_mem ..) h
  · exact inv_of_mem (wx_mem ..) h
  · exact inv_of_mem (wx_mem ..) h
  · exact inv_of_mem (wx_mem ..) h
  · exact inv_of_mem (wx_mem ..) h
  · exact inv_of_mem (wx_mem ..) h
  · exact inv_of_mem (wx_mem ..) h
  · exact inv_of_mem (wf_mem ..) h
  · exact inv_of_mem (wf_mem ..) h
  · exact inv_of_mem (wf_mem ..) h
  · exact inv_of_mem (wf_mem ..) h
  · exact inv_of_mem (wf_mem ..) h
  · exact inv_of_mem (wf_mem ..) h
  · exact inv_of_mem (wf_mem ..) h
  · exact inv_of_mem (wf_mem ..) h
  · exact inv_of_mem (wf_mem ..) h
  · exact inv_of_mem (wf_mem ..) h
  · exact h
  · exact h
  · exact h
  · exact h
  · exact h
  · exact h
  · exact h
  · exact h
  · exact h
  · exact h
  · exact h
  · exact h

theorem zeroDest_inv {i : Instr} {s : State} (h : s.Inv) : (zeroDest i s).Inv := by
  unfold zeroDest
  split
  · exact zeroBase_inv h
  · exact inv_of_mem (wx_mem ..) h
  · exact inv_of_mem (wx_mem ..) h
  · exact inv_of_mem (wx_mem ..) h
  · exact inv_of_mem (wx_mem ..) h
  · exact inv_of_mem (wx_mem ..) h
  · exact inv_of_mem (wx_mem ..) h
  · exact inv_of_mem (wx_mem ..) h
  · exact inv_of_mem (wx_mem ..) h
  · exact inv_of_mem (wx_mem ..) h
  · exact inv_of_mem (wx_mem ..) h
  · exact inv_of_mem (wx_mem ..) h
  · exact inv_of_mem (wx_mem ..) h
  · exact inv_of_mem (wx_mem ..) h
  · exact inv_of_mem (wx_mem ..) h
  · exact inv_of_mem (wx_mem ..) h
  · exact inv_of_mem (wx_mem ..) h
  · exact inv_of_mem (wx_mem ..) h
  · exact inv_of_mem (wx_mem ..) h
  · exact inv_of_mem (wx_mem ..) h
  · exact inv_of_mem (wx_mem ..) h
  · exact inv_of_mem (wx_mem ..) h
  · exact inv_of_mem (wx_mem ..) h
  · exact inv_of_mem (wx_mem ..) h
  · exact inv_of_mem (wx_mem ..) h
  · exact inv_of_mem (wx_mem ..) h
  · exact inv_of_mem (wx_mem ..) h
  · exact inv_of_mem (wx_mem ..) h
  · exact inv_of_mem (wx_mem ..) h
  · exact inv_of_mem (wx_mem ..) h
  · exact inv_of_mem (wx_mem ..) h
  · exact inv_of_mem (wx_mem ..) h
  · exact inv_of_mem (wx_mem ..) h
  · exact inv_of_mem (wx_mem ..) h
  · exact inv_of_mem (wx_mem ..) h
  · exact inv_of_mem (wx_mem ..) h
  · exact inv_of_mem (wx_mem ..) h
  · exact inv_of_mem (wx_mem ..) h
  · exact inv_of_mem (wx_mem ..) h
  · exact inv_of_mem (wx_mem ..) h
  · exact inv_of_mem (wx_mem ..) h
  · exact inv_of_mem (wx_mem ..) h
  · exact inv_of_mem (wx_mem ..) h
  · exact inv_of_mem (wx_mem ..) h
  · exact inv_of_mem (wx_mem ..) h
  · exact inv_of_mem (wx_mem ..) h
  · exact inv_of_mem (wx_mem ..) h
  · exact inv_of_mem (wx_mem ..) h
  · exact inv_of_mem (wx_mem ..) h
  · exact inv_of_mem (wx_mem ..) h
  · exact inv_of_mem (wx_mem ..) h
  · exact inv_of_mem (wx_mem ..) h
  · exact inv_of_mem (wx_mem ..) h
  · exact inv_of_mem (wp_mem ..) h
  · exact inv_of_mem (wp_mem ..) h
  · exact inv_of_mem (wp_mem ..) h
  · exact inv_of_mem (wp_mem ..) h
  · exact inv_of_mem (wp_mem ..) h
  · exact inv_of_mem (wp_mem ..) h
  · exact inv_of_mem (wp_mem ..) h
  · exact inv_of_mem (wp_mem ..) h
  · exact inv_of_mem (wp_mem ..) h
  · exact inv_of_mem (wp_mem ..) h
  · exact inv_of_mem (wp_mem ..) h
  · exact inv_of_mem (wp_mem ..) h
  · exact inv_of_mem (wp_mem ..) h
  · exact inv_of_mem (wp_mem ..) h
  · exact inv_of_mem (wp_mem ..) h
  · exact inv_of_mem (wp_mem ..) h
  · exact inv_of_mem (wp_mem ..) h
  · exact inv_of_mem (wp_mem ..) h
  · exact inv_of_mem (wp_mem ..) h
  · exact inv_of_mem (modU_mem ..) h
  · exact inv_of_mem (wf_mem ..) h
  · exact inv_of_mem (wf_mem ..) h
  · exact inv_of_mem (wf_mem ..) h
  · exact inv_of_mem (wf_mem ..) h
  · exact inv_of_mem (wf_mem ..) h
  · exact inv_of_mem (wf_mem ..) h
  · exact inv_of_mem (wf_mem ..) h
  · exact inv_of_mem (wf_mem ..) h
  · exact inv_of_mem (wf_mem ..) h
  · exact inv_of_mem (wf_mem ..) h
  · exact inv_of_mem (wf_mem ..) h
  · exact inv_of_mem (wf_mem ..) h
  · exact inv_of_mem (wf_mem ..) h
  · exact inv_of_mem (wf_mem ..) h
  · exact inv_of_mem (wf_mem ..) h
  · exact inv_of_mem (wf_mem ..) h
  · exact inv_of_mem (wf_mem ..) h
  · exact inv_of_mem (wf_mem ..) h
  · exact inv_of_mem (ww_mem ..) h
  · exact inv_of_mem (ww_mem ..) h
  · split
    · exact inv_of_mem (ww_mem ..) h
    · exact h
  · split
    · exact inv_of_mem (ww_mem ..) h
    · exact h
  · exact inv_of_mem (ww_mem ..) h
  · exact inv_of_mem (wk_mem ..) h
  · exact inv_of_mem (wb_mem ..) h
  · exact inv_of_mem (wd_mem ..) h
  · exact inv_of_mem (wd_mem ..) h
  · exact inv_of_mem (wd_mem ..) h
  · exact inv_of_mem (wd_mem ..) h
  · exact inv_of_mem (wd_mem ..) h
  · exact inv_of_mem (wd_mem ..) h
  · exact inv_of_mem (wd_mem ..) h
  · exact inv_of_mem (wd_mem ..) h
  · exact inv_of_mem (wd_mem ..) h
  · exact inv_of_mem (wd_mem ..) h
  · exact inv_of_mem (wd_mem ..) h
  · exact inv_of_mem (wd_mem ..) h
  · exact inv_of_mem (wd_mem ..) h
  · exact inv_of_mem (wd_mem ..) h
  · exact inv_of_mem (wd_mem ..) h
  · exact inv_of_mem (wd_mem ..) h
  · exact h

/-- An instruction is a pair: a leading word and its subject. -/
def Instr.isPair : Instr → Bool
  | .pfx .. => true
  | _ => false

/-- Every instruction and event but a pair keeps the canonical form of memory. -/
theorem exec_leads_of_not_isPair {i : Instr} {s : State} (h : s.Inv) (hi : Instr.isPair i = false) : Leads (exec i s) := by
  unfold exec
  split
  · exact finish_leads keeps_baseM h
  · exact nomatch hi
  · exact execMigrW_leads h
  · exact execMigrL_leads h
  · exact execReform_leads h
  · exact execGleave_leads h
  · exact execGyield_leads h
  · exact execTjoin_leads h
  · exact execTleave_leads h
  · exact execTbarArr_leads h
  · exact execTbarWait_leads h
  · exact execTbarSync_leads h
  · exact leads_next (wakeIf_inv h)
  · exact shflX_leads h
  · exact shflX_leads h
  · exact shflX_leads h
  · exact shflX_leads h
  · exact gredX_leads h
  · exact gredX_leads h
  · exact gredX_leads h
  · exact gredX_leads h
  · exact gredX_leads h
  · exact gredX_leads h
  · exact gredX_leads h
  · exact gredX_leads h
  · exact cross_leads h
  · exact cross_leads h
  · exact cross_leads h
  · exact cross_leads h
  · exact gredF_leads h
  · exact gredF_leads h
  · exact gredF_leads h
  · exact gredF_leads h
  · exact gredF_leads h
  · exact gredF_leads h
  · exact cross_leads h
  · exact plainReg_leads (fun _ => pcmpS_inv) h
  · exact plainReg_leads (fun _ => pcmpS_inv) h
  · exact plainReg_leads (fun _ => pcmpS_inv) h
  · exact plainReg_leads (fun _ => pcmpS_inv) h
  · exact plainReg_leads (fun _ => pcmpS_inv) h
  · exact plainReg_leads (fun _ => pcmpS_inv) h
  · exact plainReg_leads (fun _ => pfcmpS_inv) h
  · exact plainReg_leads (fun _ => pfcmpS_inv) h
  · exact plainReg_leads (fun _ => pfcmpS_inv) h
  · exact plainReg_leads (fun _ => pfunS'_inv) h
  · exact plainReg_leads (fun _ => pfcmpS_inv) h
  · exact plainReg_leads (fun _ => pfcmpS_inv) h
  · exact plainReg_leads (fun _ => pfcmpS_inv) h
  · exact plainReg_leads (fun _ => pfunS'_inv) h
  · exact plainReg_leads (fun _ => plogicS_inv) h
  · exact plainReg_leads (fun _ => plogicS_inv) h
  · exact plainReg_leads (fun _ => plogicS_inv) h
  · exact plainReg_leads (fun _ => plogicS_inv) h
  · exact execPnot_leads h
  · exact execPmvXp_leads h
  · exact execPmvPx_leads h
  · exact execPany_leads h
  · exact execPall_leads h
  · exact execJtab_leads h
  · exact bldX_leads h
  · exact bldX_leads h
  · exact bldX_leads h
  · exact bldX_leads h
  · exact bldX_leads h
  · exact bldX_leads h
  · exact bldX_leads h
  · exact execBldFw_leads h
  · exact execBldFd_leads h
  · exact finish_leads (keeps_bind keeps_bldVal fun _ => keeps_effectMem (fun _ => widenF_inv)) h
  · exact bstM_leads h
  · exact bstM_leads h
  · exact bstM_leads h
  · exact bstM_leads h
  · exact bstM_leads h
  · exact bstM_leads h
  · exact execBstFh_leads h
  · exact execWldDirect_leads h
  · exact execWldIndexed_leads h
  · exact wstM_leads keeps_directWord h
  · exact wstM_leads keeps_indexedWord h
  · exact execWldfDirect_leads h
  · exact execWldfIndexed_leads h
  · exact wstM_leads keeps_directWord h
  · exact wstM_leads keeps_indexedWord h
  · exact execKset_leads h
  · exact execWmv_leads h
  · exact execWmvw_leads h
  · exact execSobind_leads h
  · exact execSounbind_leads h
  · exact execAcq_leads h
  · exact execRel_leads h
  · exact execMwatch_leads h
  · exact execMwait_leads h
  · exact leads_next (endMwait_inv h)
  · exact execBarinit_leads h
  · exact execBararr_leads h
  · exact execBarwait_leads h
  · exact leads_next (wakeIf_inv h)
  · exact execBartest_leads h
  · exact execXcopy_leads h
  · exact execXcfence_leads h
  · exact execXcwait_leads h
  · exact execXcqry_leads h
  · exact execSmap_leads h
  · exact execSunmap_leads h
  · exact execSflush_leads h
  · exact execBset_leads h
  · exact execBget_leads h
  · exact bamoM_leads h
  · exact bamoM_leads h
  · exact bamoM_leads h
  · exact bamoM_leads h
  · exact fuseM_leads h
  · exact fuseM_leads h
  · exact execObres_leads h
  · exact execObrel_leads h
  · exact execMxfence_leads h
  · exact issueM_leads h
  · exact execMxswap_leads h
  · exact issueM_leads h
  · exact issueM_leads h
  · exact issueM_leads h
  · exact execMxwait_leads h
  · exact acrdM_leads h
  · exact acrdM_leads h
  · exact execAczero_leads h
  · exact execAcwm_leads h
  · exact execMxstat_leads h
  · exact execMxsave_leads h
  · exact execMxrest_leads h
  · exact ncvtM_leads h
  · exact ncvtM_leads h
  · exact ncvtM_leads h
  · exact ncvtM_leads h
  · exact ncvtM_leads h
  · exact ncvtM_leads h
  · exact ncvtM_leads h
  · exact plainReg_leads (fun _ => widenF_inv) h
  · exact plainReg_leads (fun _ => widenF_inv) h
  · exact plainReg_leads (fun _ => widenF_inv) h
  · exact plainReg_leads (fun _ => widenF_inv) h
  · exact plainReg_leads (fun _ => putF_inv) h
  · exact plainReg_leads (fun _ => putF_inv) h
  · exact finish_leads (keeps_bind keeps_withRnd fun _ => keeps_effectM (fun _ => putF_inv)) h
  · exact distBin_leads h
  · exact distBin_leads h
  · exact distBin_leads h
  · exact distBin_leads h
  · exact distBin_leads h
  · exact distBin_leads h
  · exact execDmix_leads h
  · exact execDaff_leads h
  · exact execDmap_leads h
  · exact execDform_leads h
  · exact execDmv_leads h
  · exact execDpt_leads h
  · exact execDuni_leads h
  · exact execDsamp_leads h
  · exact execDld_leads h
  · exact execDst_leads h
  · exact finish_leads (keeps_bind keeps_needD fun _ => keeps_effectM (fun _ => extracted_inv)) h
  · exact finish_leads (keeps_bind keeps_needD fun _ => keeps_effectM (fun _ => extracted_inv)) h
  · exact finish_leads (keeps_bind keeps_needD fun _ => keeps_effectM (fun _ => extracted_inv)) h
  · exact execDtag_leads h
  · exact execDtags_leads h
  · exact execTspawn_leads h
  · exact execTtake_leads h
  · exact execTend_leads h
  · exact finish_leads (keeps_bind keeps_waitDrain fun _ => keeps_getBind fun _ _ => keeps_request) h
  · exact execTyield_leads h
  · exact execTbudg_leads h
  · exact finish_leads (keeps_bind keeps_waitDrain fun _ => keeps_getBind fun _ _ => keeps_request) h
  · exact execTstat_leads h
  · exact publishM_leads h
  · exact publishM_leads h
  · exact execVacq_leads h
  · exact execVchk_leads h
  · exact execVsub_leads h
  · exact execVsettle_leads h
  · exact execZresume_leads h
  · exact execZpark_leads h
  · exact execZsignal_leads h
  · exact execZfqpop_leads h
  · exact execExtraction_leads h
  · exact execMigrationDepart_leads h
  · exact execArrivalWSite_leads h
  · exact execArrivalLSite_leads h
  · exact execCarouselDraw_leads h
  · exact execBinAged_leads h
  · exact leads_next (slotLimit_inv h)
  · exact execMendingEntryPerform_leads h
  · exact leads_next (wakeIf_inv h)
  · exact leads_next (wakeIf_inv h)
  · exact execCopyRequestPerform_leads h
  · exact execCopyCompletion_leads h
  · exact leads_next (wakeIf_inv h)
  · exact leads_next (wakeIf_inv h)
  · exact leads_next (wakeIf_inv h)
  · exact execPressLoadWeights_leads h
  · exact execPressSwapEffect_leads h
  · exact execPressStream_leads h
  · exact execPressTopk_leads h
  · exact leads_next (wakeIf_inv h)
  · exact execAcrdRowFinal_leads h
  · exact execAczeroUsersDone_leads h
  · exact leads_next (wakeIf_inv h)
  · exact leads_next (wakeIf_inv h)
  · exact execRingmasterClock_leads h
  · exact execTaskAbandon_leads h
  · exact execBudgetExhausted_leads h
  · exact execEmulationHandlerRun_leads h
  · exact execHandlerTimeLimit_leads h
  · exact execHotPagePublish_leads h
  · exact leads_next (writeZpack_inv h)
  · exact leads_next (writeZwidth_inv h)
  · exact leads_next (writeZpark_inv h)
  · exact leads_next (writeZrbt_inv h)
  · exact leads_next (writeZbankrole_inv h)
  · exact leads_next (writeZhotl_inv h)
  · exact leads_next (writeZseed_inv h)
  · exact leads_next (writeZwfq_inv h)
  · exact leads_next (writeZemq_inv h)
  · exact execCsrWrite_leads h
  · exact leads_next (arriveCmd_inv h)
  · exact leads_next (arriveCmd_inv h)
  · exact leads_next (arriveCmd_inv h)
  · exact leads_next (arriveCmd_inv h)
  · exact leads_next (arriveCmd_inv h)
  · exact execHostMemoryRequest_leads h
  · exact execPartitionFormation_leads h
  · exact execCoreRemoval_leads h
  · exact execCoreAssignment_leads h
  · exact leads_next (modLife_inv h)
  · exact execPackageUnreachable_leads h
  · exact execUncorrectableError_leads h
  · exact execBringUp_leads h
  · exact execRecoveryScrub_leads h
  · exact execPowerThrottle_leads h
  · exact execThermalThrottle_leads h
  · exact execEmergencyShutdown_leads h
  · exact execLifetimeCommit_leads h
  · exact execTrapezeRequest_leads h
  · exact execInterruptTaken_leads h
  · exact leads_next (endMwait_inv h)
  · exact execThrottlingEnd_leads h
  · exact leads_next (modLife_inv h)
  · exact execL2PowerGating_leads h

/-- The subject of a pair means what the dispatcher gives it, or nothing. -/
theorem execSubject_eq (i : Instr) (s : State) :
    (execSubject i s = exec i s ∧ Instr.isPair i = false) ∨ execSubject i s = .next s := by
  cases i <;> first | with_reducible exact .inr rfl | exact .inl ⟨rfl, rfl⟩

theorem execSubject_leads {i : Instr} {s : State} (h : s.Inv) : Leads (execSubject i s) := by
  rcases execSubject_eq i s with ⟨he, hi⟩ | he <;> rw [he]
  · exact exec_leads_of_not_isPair h hi
  · exact leads_next h

theorem keeps_subjectChecks {sub : Instr} : Keeps (subjectChecks sub) :=
  keeps_getBind fun _ _ => keeps_ite (keeps_bind keeps_raiseIllegal fun _ => keeps_ite keeps_needWSite (keeps_pure _))
    (keeps_ite keeps_needWSite (keeps_pure _))

theorem unlatch_leads {o : Outcome State Fault Refusal} (ho : Leads o) : Leads (unlatch o) := by
  cases o with
  | next t => exact leads_next (inv_of_mem rfl (ho t rfl))
  | fault f => exact leads_fault
  | refused r => exact leads_refused

theorem execPfx_leads {p : Pfx} {sub : Instr} {s : State} (h : s.Inv) : Leads (execPfx p sub s) := by
  unfold execPfx
  dsimp only
  split
  · exact unlatch_leads (finish_leads keeps_subjectChecks (inv_of_mem rfl h))
  · split
    · rename_i hr _
      exact unlatch_leads (execSubject_leads (inv_of_ok hr keeps_subjectChecks (inv_of_mem rfl h)))
    · refine unlatch_leads (leads_next (retire_inv ?_))
      split
      · rename_i hr _ _
        exact zeroDest_inv (inv_of_ok hr keeps_subjectChecks (inv_of_mem rfl h))
      · rename_i hr _ _
        exact inv_of_ok hr keeps_subjectChecks (inv_of_mem rfl h)

/-! ## The dispatcher -/

theorem exec_leads {i : Instr} {s : State} (h : s.Inv) : Leads (exec i s) := by
  cases hi : Instr.isPair i with
  | true =>
    cases i with
    | pfx p sub => exact execPfx_leads h
    | _ => cases hi
  | false => exact exec_leads_of_not_isPair h hi

/-! ## The schedule -/

theorem State.traced_leads {s : State} {o : Outcome State Fault Refusal} (ho : Leads o) : Leads (s.traced o) := by
  cases o with
  | next t => exact leads_next (trace_inv (ho t rfl))
  | fault f => exact leads_fault
  | refused r => exact leads_refused

theorem State.runInstr_leads {s : State} (h : s.Inv) : Leads (s.runInstr) := by
  unfold runInstr
  split
  · exact leads_next (regroup_inv h)
  · refine traced_leads ?_
    split
    · rename_i hr
      exact exec_leads (inv_snd hr (fetch_inv h))
    · rename_i hr
      exact finish_leads (keeps_throw _) (inv_snd hr (fetch_inv h))
    · rename_i hr
      exact finish_leads (keeps_throw _) (inv_snd hr (fetch_inv h))

theorem State.turn_leads {s : State} (h : s.Inv) : Leads (s.turn) := by
  unfold turn
  split
  · exact leads_next h
  · split
    · exact exec_leads h
    · split
      · exact exec_leads h
      · split
        · exact runInstr_leads h
        · exact leads_next h

theorem State.performTail_inv {s : State} {x : Tail} (h : s.Inv) : (s.performTail x).Inv := by
  unfold performTail
  dsimp only
  split
  · split
    · exact withHart_inv (fun _ => store_inv) h
    · exact engineWrite_inv h
  · exact inv_of_mem (sramWrite_mem ..) h
  · split
    · exact withHart_inv (fun _ ht => inv_of_mem (stashWrite_mem ..) ht) h
    · split
      · exact withHart_inv (fun _ => store_inv) h
      · exact engineWrite_inv h

theorem State.drainTails_inv {s : State} {sel : Tail → Bool} (h : s.Inv) : (s.drainTails sel).Inv :=
  foldl_inv (fun _ _ => performTail_inv) (inv_of_mem rfl h)

theorem State.perform_leads {s : State} {e : Instr} (h : s.Inv) : Leads (s.perform e) := by
  unfold perform
  split
  · rename_i hr _
    exact leads_next (trace_inv (inv_of_next hr (exec_leads h)))
  · exact exec_leads h

theorem State.createTeam_inv {s : State} {num wcore : Nat} (h : s.Inv) : (s.createTeam num wcore).Inv := by
  unfold createTeam
  split
  · exact inv_of_mem (modPart_mem ..) h
  · exact h

theorem State.dissolveTeam_inv {s : State} {num : Nat} (h : s.Inv) : (s.dissolveTeam num).Inv := by
  unfold dissolveTeam
  dsimp only
  split
  · refine foldl_inv (fun _ _ ht => ?_) (inv_of_mem (modPart_mem ..) (flushWindows_inv h))
    split
    · exact restow_inv ht
    · exact ht
  · exact h

theorem State.turnOf_leads {s : State} {h : HartId} (hs : s.Inv) : Leads (s.turnOf h) :=
  turn_leads (inv_with (inv_of_mem (focus_mem ..) (drainTails_inv hs)) rfl)

theorem State.clockTurn_leads {s : State} (h : s.Inv) : Leads (s.clockTurn) := by
  unfold clockTurn
  split
  · exact turnOf_leads h
  · exact perform_leads (drainTails_inv h)

theorem State.eventTurn_leads {s : State} {i : Instr} (h : s.Inv) : Leads (s.eventTurn i) := by
  unfold eventTurn
  split
  · exact perform_leads h
  · exact perform_leads h
  · exact perform_leads h
  · split
    · exact clockTurn_leads h
    · exact leads_next h
  · split
    · exact perform_leads (drainTails_inv h)
    · exact leads_next h
  · split
    · exact perform_leads (drainTails_inv h)
    · exact leads_next h
  · split
    · exact perform_leads (drainTails_inv h)
    · exact leads_next h
  · split
    · exact perform_leads (drainTails_inv h)
    · exact leads_next h
  · split
    · exact perform_leads (drainTails_inv h)
    · exact leads_next h

theorem State.act_leads {s : State} {a : Action} (h : s.Inv) : Leads (s.act a) := by
  unfold act
  split
  · exact turnOf_leads h
  · split
    · rename_i hr
      exact leads_next (inv_with (inv_of_next hr (turnOf_leads (inv_of_mem rfl h))) rfl)
    · exact turnOf_leads (inv_of_mem rfl h)
  · split
    · exact leads_next (performTail_inv (inv_of_mem rfl h))
    · exact leads_next h
  · exact leads_next (inv_of_mem (focus_mem ..) h)
  · exact eventTurn_leads h
  · exact leads_next (inv_of_mem (modRm_mem ..) h)
  · exact leads_next (createTeam_inv h)
  · exact leads_next (dissolveTeam_inv h)
  · refine leads_next ?_
    split
    · exact serve_inv (drainTails_inv h)
    · exact h
  · refine leads_next ?_
    split
    · exact wholeCheckpoint_inv (drainTails_inv h)
    · exact h

theorem State.idle_leads {s : State} (h : s.Inv) : Leads (s.idle) := by
  unfold idle
  split
  · exact leads_next (drainTails_inv h)
  · split
    · split
      · exact perform_leads h
      · split
        · exact turnOf_leads h
        · exact perform_leads h
    · split
      · exact perform_leads h
      · exact exec_leads h

theorem State.advance_leads {s : State} (h : s.Inv) : Leads (s.advance) := by
  unfold advance
  split
  · exact act_leads (inv_of_mem rfl h)
  · exact idle_leads h

end Sys2Proof.Machine

namespace Sys2Proof
open Machine

/-- Settles O60: no operation, computation, instruction, event or action writes memory but through `rawWrite`, a loaded checkpoint slot and
bring-up, which keep its canonical form. -/
theorem memoryStaysCanonical : Obligations.MemoryStaysCanonical := by
  unfold Obligations.MemoryStaysCanonical
  intro s t h ht
  exact inv_of_next ht (State.advance_leads h)

end Sys2Proof
end
section
/-! ## Harts by name, and the current hart changed -/
namespace Sys2Proof.Machine
namespace State

variable {s : State} {h k : HartId} {g : Hart}

/-- The state without the harts of a name, of which the current one is none. -/
def without (s : State) (h : HartId) : State := { s with harts := s.harts.filter fun y => y.id != h }

theorem find?_filter_id {l : List Hart} (hk : k ≠ h) :
    ((l.filter fun y => y.id != h).find? fun x => x.id == k) = l.find? fun x => x.id == k := by
  rw [List.find?_filter]
  congr 1
  funext x
  by_cases hx : x.id = k <;> simp [hx, hk]

theorem find?_filter_id_self {l : List Hart} : ((l.filter fun y => y.id != h).find? fun x => x.id == h) = none := by
  simp [List.find?_filter]

theorem hart?_def : s.hart? k = if s.hart.id = k then some s.hart else s.harts.find? fun x => x.id == k := by
  by_cases hk : s.hart.id = k <;> simp [hart?, allHarts, hk]

theorem id_of_hart? (hg : s.hart? k = some g) : g.id = k := by simpa using List.find?_some hg

theorem hart?_without_same (hne : s.hart.id ≠ h) : (s.without h).hart? h = none := by
  rw [hart?_def, if_neg (show (s.without h).hart.id ≠ h from hne)]
  exact find?_filter_id_self

theorem hart?_without (hk : k ≠ h) : (s.without h).hart? k = s.hart? k := by
  rw [hart?_def, hart?_def]
  show (if s.hart.id = k then _ else (s.harts.filter fun y => y.id != h).find? _) = _
  rw [find?_filter_id hk]
  rfl

theorem focus_self : s.focus s.hart.id = s := by simp [focus]

/-- A hart other than the current one becomes current, and the current one stands first among the others. -/
theorem focus_other (hne : s.hart.id ≠ h) (hg : s.hart? h = some g) :
    s.focus h = { s with hart := g, harts := s.hart :: s.harts.filter fun y => y.id != h } := by
  rw [hart?_def, if_neg hne] at hg
  simp [focus, hne, hg]

/-- Which hart is current is nothing to a look-up. -/
theorem hart?_focus : (s.focus h).hart? k = s.hart? k := by
  by_cases hne : s.hart.id = h
  · subst hne
    rw [focus_self]
  · cases hg : s.hart? h with
    | none =>
      rw [hart?_def, if_neg hne] at hg
      simp [focus, hne, hg]
    | some g =>
      have hid := id_of_hart? hg
      rw [focus_other hne hg, hart?_def]
      by_cases hk : g.id = k
      · rw [if_pos hk, ← hk, hid, hg]
      · rw [if_neg hk, hart?_def (s := s)]
        rw [hid] at hk
        by_cases hs : s.hart.id = k
        · simp [hs]
        · simp [hs, find?_filter_id (Ne.symm hk)]

/-- The current hart replaced by one of its name. -/
theorem hart?_setHart (hid : g.id = s.hart.id) : ({ s with hart := g } : State).hart? k = if s.hart.id = k then some g else s.hart? k := by
  rw [hart?_def, hart?_def]
  simp only [hid]
  split <;> rfl

theorem focus_part : (s.focus h).part = s.part := by
  unfold focus
  split
  · rfl
  · split <;> rfl

end State

/-! ## The end of an emulation handler (R312) -/

namespace State

variable {s : State} {r : Nat} {g : Hart} {run : HandlerRun}

/-- The state in which the handler of a Roustabout core, which is not the current hart, has ended. -/
def handlerEnded (s : State) (r : Nat) (run : HandlerRun) : State :=
  (s.without (.roust r)).modPart fun p => { p with emq := p.emq.release run.recordAddr }

theorem hart?_handlerEnded_same (hne : s.hart.id ≠ .roust r) : (s.handlerEnded r run).hart? (.roust r) = none := hart?_without_same hne

theorem hart?_handlerEnded {k : HartId} (hk : k ≠ .roust r) : (s.handlerEnded r run).hart? k = s.hart? k :=
  hart?_without (s := s) (h := .roust r) hk

theorem endHandler_focus (hne : s.hart.id ≠ .roust r) (hg : s.hart? (.roust r) = some g) (hr : g.handler = some run) :
    (s.focus (.roust r)).endHandler = s.handlerEnded r run := by
  rw [focus_other hne hg]
  simp [endHandler, hr, dropCurrent, modPart, handlerEnded, without]

/-- A handler of which the record no longer awaits disposition: its core is idle, and that is all. -/
theorem handlerFatal_focus_none (hne : s.hart.id ≠ .roust r) (hg : s.hart? (.roust r) = some g) (hr : g.handler = some run)
    (ha : ∀ y ∈ s.part.awaiting, y.tag ≠ run.tag) : (s.focus (.roust r)).handlerFatal run = s.handlerEnded r run := by
  have hf : (s.handlerEnded r run).part.awaiting.find? (fun a => a.tag == run.tag) = none :=
    List.find?_eq_none.2 fun y hy => by simpa using ha y hy
  simp only [handlerFatal, endHandler_focus hne hg hr, hf]

/-- The record of an ended handler disposed as FATAL. -/
theorem handlerFatal_focus_some {a : Await} (hne : s.hart.id ≠ .roust r) (hg : s.hart? (.roust r) = some g) (hr : g.handler = some run)
    (ha : a ∈ s.part.awaiting) (ht : a.tag = run.tag) (hu : ∀ y ∈ s.part.awaiting, y.tag = run.tag → y = a) :
    (s.focus (.roust r)).handlerFatal run = (s.handlerEnded r run).fatalEmul a := by
  have hf : (s.handlerEnded r run).part.awaiting.find? (fun a => a.tag == run.tag) = some a := by
    show s.part.awaiting.find? _ = _
    cases hc : s.part.awaiting.find? (fun a => a.tag == run.tag) with
    | none => exact absurd (List.find?_eq_none.1 hc a ha) (by simp [ht])
    | some b => rw [hu b (List.mem_of_find?_eq_some hc) (by simpa using List.find?_some hc)]
  simp only [handlerFatal, endHandler_focus hne hg hr, hf]

end State
end Sys2Proof.Machine
end
section
/-! ## A thread that another hart makes leave for the L-site (R30, R36, R312) -/
namespace Sys2Proof.Machine
namespace State

variable {s : State} {ctx : Nat} {h : Hart} {c : Car} {trap : PendTrap}

/-- The thread in transit for the L-site with a trap, a signal still to be extracted for riding along. -/
def inTransitTo (ctx : Nat) (h : Hart) (c : Car) (trap : PendTrap) : Transit :=
  ⟨ctx, { h with car := none, wait := none, resume := none, resv := none, watch := none, extract := none }, none, c.core, some trap,
    h.extract⟩

/-- The thread as it waits to leave with a trap. -/
def leavingHart (h : Hart) (c : Car) (trap : PendTrap) : Hart :=
  { h with wait := none, resume := none, car := some { c with faultTag := none, emulTag := none, leaving := some trap } }

/-- A W-core's mending buffer holds an entry of the thread. -/
def HasMends (s : State) (ctx core : Nat) : Prop := ∃ w m, s.wcore? core = some w ∧ m ∈ w.mend ∧ m.ctx = ctx

theorem hart_focus (hne : s.hart.id ≠ .wthread ctx) (hg : s.hart? (.wthread ctx) = some h) : (s.focus (.wthread ctx)).hart = h := by
  rw [focus_other hne hg]

theorem myMends_focus (hne : s.hart.id ≠ .wthread ctx) (hg : s.hart? (.wthread ctx) = some h) (hc : h.car = some c) :
    (s.focus (.wthread ctx)).myMends.isEmpty = true ↔ ¬ s.HasMends ctx c.core := by
  have hw : (s.focus (.wthread ctx)).wcore? c.core = s.wcore? c.core := by simp [wcore?, focus_part]
  simp only [myMends, hart_focus hne hg, id_of_hart? hg, hc, hw, HasMends]
  cases s.wcore? c.core <;> simp

theorem focus_pkg {k : HartId} : (s.focus k).pkg = s.pkg := by
  unfold focus
  split
  · rfl
  · split <;> rfl

theorem coreRuns_focus (hne : s.hart.id ≠ .wthread ctx) (hg : s.hart? (.wthread ctx) = some h) (hc : h.car = some c) :
    (s.focus (.wthread ctx)).coreRuns (s.focus (.wthread ctx)).hart = !s.clockStopped c.core := by
  simp [coreRuns, hart_focus hne hg, hc, clockStopped, focus_pkg]

/-- A thread in no team, of which no store has been dropped, leaves at once. -/
theorem migrateTrap_focus (hne : s.hart.id ≠ .wthread ctx) (hg : s.hart? (.wthread ctx) = some h) (hc : h.car = some c)
    (hd : h.dropped = none) (hm : s.memberOf (.wthread ctx) = none) :
    (s.focus (.wthread ctx)).migrateTrap trap =
      ((s.without (.wthread ctx)).leaveGroup ctx c.core false).modPart fun p =>
        { p with transit := p.transit ++ [inTransitTo ctx h c trap] } := by
  have hid := id_of_hart? hg
  rw [focus_other hne hg]
  have hmem : (s.part.members.find? fun m => m.who == .wthread ctx) = none := hm
  simp [migrateTrap, hd, departToL, hid, hc, memberOf, who, whoOf, hmem, leaveGroup, modW, modPart, dropCurrent, pc, without, inTransitTo]

/-- One that cannot leave at once waits outside its group. -/
theorem leaveWith_focus_waits (hne : s.hart.id ≠ .wthread ctx) (hg : s.hart? (.wthread ctx) = some h) (hc : h.car = some c)
    (hw : s.HasMends ctx c.core ∨ s.clockStopped c.core = true) :
    (s.focus (.wthread ctx)).leaveWith trap =
      { (s.focus (.wthread ctx)).leaveGroup ctx c.core false with hart := leavingHart h c trap } := by
  have hno : ((s.focus (.wthread ctx)).myMends.isEmpty && (s.focus (.wthread ctx)).coreRuns (s.focus (.wthread ctx)).hart) = false := by
    rw [coreRuns_focus hne hg hc]
    obtain hw | hw := hw
    · have := mt (myMends_focus hne hg hc).1 (not_not_intro hw)
      simp [this]
    · simp [hw]
  unfold leaveWith
  rw [if_neg (by simp [hno])]
  simp only [hart_focus hne hg, hc, Hart.ctx, id_of_hart? hg]
  simp [modCar, leaveGroup, modW, modPart, leavingHart, hart_focus hne hg, hc]

end State

/-! ## HANDLER_TIME_LIMIT (R312) -/

section TimeLimit

variable {s : State} {r : Nat} {g : Hart} {run : HandlerRun}

theorem exec_handlerTimeLimit_early (hg : s.hart? (.roust r) = some g) (hr : g.handler = some run)
    (ht : s.pkg.zaclk.toNat - run.started < 2 ^ 20) : exec (.handlerTimeLimit r) s = .next s := by
  show execHandlerTimeLimit r s = _
  simp only [execHandlerTimeLimit, hg, Hart.overtime, hr]
  rw [if_neg (by simpa using ht)]

theorem exec_handlerTimeLimit_late (hne : s.hart.id ≠ .roust r) (hg : s.hart? (.roust r) = some g) (hr : g.handler = some run)
    (ht : 2 ^ 20 ≤ s.pkg.zaclk.toNat - run.started) :
    exec (.handlerTimeLimit r) s = .next (((s.focus (.roust r)).handlerFatal run).focus s.hart.id) := by
  show execHandlerTimeLimit r s = _
  have hh : (s.focus (.roust r)).hart.handler = some run := by rw [State.focus_other hne hg]; exact hr
  simp only [execHandlerTimeLimit, hg, Hart.overtime, hr]
  rw [if_pos (by simpa using ht)]
  simp only [State.withHart, hg, Option.isSome_some, if_true, hh]

/-- The record of a late handler has been disposed already. -/
theorem exec_handlerTimeLimit_disposed (hne : s.hart.id ≠ .roust r) (hg : s.hart? (.roust r) = some g) (hr : g.handler = some run)
    (ht : 2 ^ 20 ≤ s.pkg.zaclk.toNat - run.started) (ha : ∀ y ∈ s.part.awaiting, y.tag ≠ run.tag) :
    exec (.handlerTimeLimit r) s = .next (s.handlerEnded r run) := by
  rw [exec_handlerTimeLimit_late hne hg hr ht, State.handlerFatal_focus_none hne hg hr ha]
  exact congrArg Host.Outcome.next (State.focus_self (s := s.handlerEnded r run))

/-- The record of a late handler is disposed as FATAL. -/
theorem exec_handlerTimeLimit_fatal {a : Await} (hne : s.hart.id ≠ .roust r) (hg : s.hart? (.roust r) = some g)
    (hr : g.handler = some run) (ht : 2 ^ 20 ≤ s.pkg.zaclk.toNat - run.started) (ha : a ∈ s.part.awaiting) (htag : a.tag = run.tag)
    (hu : ∀ y ∈ s.part.awaiting, y.tag = run.tag → y = a) :
    exec (.handlerTimeLimit r) s = .next (((s.handlerEnded r run).fatalEmul a).focus s.hart.id) := by
  rw [exec_handlerTimeLimit_late hne hg hr ht, State.handlerFatal_focus_some hne hg hr ha htag hu]

end TimeLimit
/-! ## The thread of a record disposed as FATAL (R312, R315) -/

section Fatal

variable {s : State} {r : Nat} {g : Hart} {run : HandlerRun} {a : Await} {h : Hart} {c : Car}

/-- The state in which a late handler has ended and its record awaits no disposition any more. -/
def State.recordGone (s : State) (r : Nat) (run : HandlerRun) : State := (s.handlerEnded r run).dropTag run.tag

theorem State.hart?_recordGone {k : HartId} (hk : k ≠ .roust r) : (s.recordGone r run).hart? k = s.hart? k := by
  show (s.without (.roust r)).hart? k = _
  exact hart?_without hk

theorem State.hart?_recordGone_roust (hne : s.hart.id ≠ .roust r) : (s.recordGone r run).hart? (.roust r) = none := by
  show (s.without (.roust r)).hart? _ = _
  exact hart?_without_same hne

theorem State.fatalEmul_eq (htag : a.tag = run.tag) (hg : s.hart? (.wthread a.ctx) = some h) :
    (s.handlerEnded r run).fatalEmul a =
      (((s.recordGone r run).focus (.wthread a.ctx)).leaveWith ⟨a.cause, a.pc, a.addr⟩).focus s.hart.id := by
  have hh : (s.recordGone r run).hart? (.wthread a.ctx) = some h := by rw [hart?_recordGone (by simp), hg]
  show ((s.handlerEnded r run).dropTag a.tag).withHart _ _ = _
  rw [htag]
  show (s.recordGone r run).withHart _ _ = _
  simp only [withHart, hh, Option.isSome_some, if_true]
  rfl

/-- The thread leaves at once: it is in transit, and no hart of the machine any more. -/
theorem State.fatalEmul_leaves (htag : a.tag = run.tag) (hne : s.hart.id ≠ .wthread a.ctx) (hg : s.hart? (.wthread a.ctx) = some h)
    (hc : h.car = some c) (hd : h.dropped = none) (hm : s.memberOf (.wthread a.ctx) = none) (hw : ¬ s.HasMends a.ctx c.core)
    (hrun : s.clockStopped c.core = false) :
    (s.handlerEnded r run).fatalEmul a =
      (((s.recordGone r run).without (.wthread a.ctx)).leaveGroup a.ctx c.core false).modPart fun p =>
        { p with transit := p.transit ++ [inTransitTo a.ctx h c ⟨a.cause, a.pc, a.addr⟩] } := by
  have hh : (s.recordGone r run).hart? (.wthread a.ctx) = some h := by rw [hart?_recordGone (by simp), hg]
  have hgo : (((s.recordGone r run).focus (.wthread a.ctx)).myMends.isEmpty &&
      ((s.recordGone r run).focus (.wthread a.ctx)).coreRuns ((s.recordGone r run).focus (.wthread a.ctx)).hart) = true := by
    rw [coreRuns_focus (s := s.recordGone r run) hne hh hc, (myMends_focus (s := s.recordGone r run) hne hh hc).2 hw]
    simpa using (show (s.recordGone r run).clockStopped c.core = false from hrun)
  rw [fatalEmul_eq htag hg, leaveWith, if_pos hgo, migrateTrap_focus (s := s.recordGone r run) hne hh hc hd hm]
  exact focus_self (s := (((s.recordGone r run).without (.wthread a.ctx)).leaveGroup a.ctx c.core false).modPart _)

/-- The thread waits to leave: it is outside its group, and no other hart changes. -/
theorem State.fatalEmul_waits (htag : a.tag = run.tag) (hne : s.hart.id ≠ .wthread a.ctx) (hg : s.hart? (.wthread a.ctx) = some h)
    (hc : h.car = some c) (hw : s.HasMends a.ctx c.core ∨ s.clockStopped c.core = true) :
    (s.handlerEnded r run).fatalEmul a =
      ({ ((s.recordGone r run).focus (.wthread a.ctx)).leaveGroup a.ctx c.core false with
        hart := leavingHart h c ⟨a.cause, a.pc, a.addr⟩ } : State).focus s.hart.id := by
  have hh : (s.recordGone r run).hart? (.wthread a.ctx) = some h := by rw [hart?_recordGone (by simp), hg]
  rw [fatalEmul_eq htag hg, leaveWith_focus_waits (s := s.recordGone r run) hne hh hc hw]

end Fatal

/-- A late handler whose record awaits disposition: the thread leaves for the L-site with the record's trap, or waits to. -/
theorem handlerTimeLimit_fatal {s : State} {r : Nat} {g : Hart} {run : HandlerRun} {a : Await} {h : Hart} {c : Car}
    (hne : s.hart.id ≠ .roust r) (hg : s.hart? (.roust r) = some g) (hr : g.handler = some run)
    (ht : 2 ^ 20 ≤ s.pkg.zaclk.toNat - run.started) (ha : a ∈ s.part.awaiting) (htag : a.tag = run.tag)
    (hu : ∀ y ∈ s.part.awaiting, y.tag = run.tag → y = a) (hcur : s.hart.id ≠ .wthread a.ctx) (hh : s.hart? (.wthread a.ctx) = some h)
    (hc : h.car = some c) (hd : h.dropped = none) (hm : s.memberOf (.wthread a.ctx) = none) :
    ∃ t, exec (.handlerTimeLimit r) s = .next t ∧ t.hart? (.roust r) = none ∧ t.mem = s.mem ∧
      t.part.emq = s.part.emq.release run.recordAddr ∧ t.part.awaiting = s.part.awaiting.filter (fun y => y.tag ≠ run.tag) ∧
      (¬ s.HasMends a.ctx c.core → s.clockStopped c.core = false → t.hart? (.wthread a.ctx) = none ∧
        t.part.transit = s.part.transit ++ [State.inTransitTo a.ctx h c ⟨a.cause, a.pc, a.addr⟩]) ∧
      (s.HasMends a.ctx c.core ∨ s.clockStopped c.core = true → t.part.transit = s.part.transit ∧
        t.hart? (.wthread a.ctx) = some (State.leavingHart h c ⟨a.cause, a.pc, a.addr⟩)) ∧
      ∀ k, k ≠ .roust r → k ≠ .wthread a.ctx → t.hart? k = s.hart? k := by
  refine ⟨_, exec_handlerTimeLimit_fatal hne hg hr ht ha htag hu, ?_⟩
  have hfilter : s.part.awaiting.filter (fun y => y.tag != run.tag) = s.part.awaiting.filter (fun y => y.tag ≠ run.tag) := by
    congr 1
    funext y
    by_cases hy : y.tag = run.tag <;> simp [hy]
  simp only [State.hart?_focus, State.focus_mem, State.focus_part]
  by_cases hw : s.HasMends a.ctx c.core ∨ s.clockStopped c.core = true
  · have hid : (State.leavingHart h c ⟨a.cause, a.pc, a.addr⟩).id = .wthread a.ctx := (State.id_of_hart? hh : h.id = _)
    have hcr : ((s.recordGone r run).focus (.wthread a.ctx)).hart.id = .wthread a.ctx := by
      rw [State.hart_focus (s := s.recordGone r run) hcur (by rw [State.hart?_recordGone (by simp), hh]), State.id_of_hart? hh]
    have hart : ∀ k, ((s.handlerEnded r run).fatalEmul a).hart? k =
        if .wthread a.ctx = k then some (State.leavingHart h c ⟨a.cause, a.pc, a.addr⟩) else (s.recordGone r run).hart? k := by
      intro k
      rw [State.fatalEmul_waits htag hcur hh hc hw, State.hart?_focus]
      refine (State.hart?_setHart (s := ((s.recordGone r run).focus (.wthread a.ctx)).leaveGroup a.ctx c.core false)
        (hid.trans hcr.symm)).trans ?_
      show (if ((s.recordGone r run).focus (.wthread a.ctx)).hart.id = k then _
        else ((s.recordGone r run).focus (.wthread a.ctx)).hart? k) = _
      rw [hcr, State.hart?_focus]
    have hpart : ((s.handlerEnded r run).fatalEmul a).part =
        (((s.recordGone r run).focus (.wthread a.ctx)).leaveGroup a.ctx c.core false).part := by
      rw [State.fatalEmul_waits htag hcur hh hc hw, State.focus_part]
    have hpart' := hpart
    simp only [State.leaveGroup, State.modW, State.modPart, State.focus_part] at hpart'
    simp only [hart, hpart']
    refine ⟨?_, ?_, rfl, hfilter, ?_, ?_, ?_⟩
    · rw [if_neg (by simp)]
      exact State.hart?_recordGone_roust hne
    · rw [State.fatalEmul_waits htag hcur hh hc hw, State.focus_mem]
      exact State.focus_mem ..
    · intro h1 h2
      rcases hw with hw | hw
      · exact absurd hw h1
      · rw [h2] at hw
        cases hw
    · exact fun _ => ⟨rfl, if_pos trivial⟩
    · intro k hk hk'
      rw [if_neg (Ne.symm hk'), State.hart?_recordGone hk]
  · obtain ⟨hw1, hw2⟩ := not_or.1 hw
    have hrun : s.clockStopped c.core = false := by simpa using hw2
    rw [State.fatalEmul_leaves htag hcur hh hc hd hm hw1 hrun]
    have hart : ∀ k, ((((s.recordGone r run).without (.wthread a.ctx)).leaveGroup a.ctx c.core false).modPart fun p =>
        { p with transit := p.transit ++ [State.inTransitTo a.ctx h c ⟨a.cause, a.pc, a.addr⟩] }).hart? k =
        ((s.recordGone r run).without (.wthread a.ctx)).hart? k := fun _ => rfl
    simp only [hart]
    refine ⟨?_, rfl, rfl, hfilter, fun _ _ => ⟨?_, rfl⟩, fun h => absurd h hw, ?_⟩
    · rw [State.hart?_without (by simp)]
      exact State.hart?_recordGone_roust hne
    · exact State.hart?_without_same hcur
    · intro k hk hk'
      rw [State.hart?_without hk', State.hart?_recordGone hk]

end Sys2Proof.Machine
end
section
/-! ## Fields of a register -/
namespace Sys2Proof.Machine

theorem testBit_field (w : Word) (lo len i : Nat) : (field w lo len).testBit i = (decide (i < len) && w.getLsbD (lo + i)) := by
  simp [field, Nat.testBit_mod_two_pow, Nat.testBit_shiftRight, BitVec.getLsbD]

theorem getLsbD_putField {w : Word} {lo len v i : Nat} (hi : i < 64) :
    (putField w lo len v).getLsbD i = if lo ≤ i ∧ i < lo + len then v.testBit (i - lo) else w.getLsbD i := by
  simp only [putField, BitVec.getLsbD_or, BitVec.getLsbD_and, BitVec.getLsbD_not, BitVec.getLsbD_ofNat, Nat.testBit_shiftLeft,
    Nat.testBit_two_pow_sub_one, Nat.testBit_mod_two_pow, hi, decide_true, Bool.true_and]
  by_cases h1 : lo ≤ i
  · by_cases h2 : i < lo + len
    · simp [h1, h2, show i - lo < len by omega]
    · simp [h1, h2, show ¬ i - lo < len by omega]
  · simp [h1]

theorem field_one_eq (w : Word) (i : Nat) : (field w i 1 == 1) = w.getLsbD i := by
  have h0 := testBit_field w i 1 0
  have hlt : field w i 1 < 2 := Nat.mod_lt _ (by decide)
  simp only [Nat.lt_one_iff, decide_true, Bool.true_and, Nat.add_zero] at h0
  rw [← h0]
  generalize field w i 1 = n at hlt
  interval_cases n <;> rfl

/-! ## Entering a trap handler: the status register -/

section Status

variable (intr : Bool) (cause : Nat) (epc tval : Word) (h : Hart)

theorem enterS_sie : (enterS intr cause epc tval h).sup.mstatus.getLsbD 1 = false := by
  simp (disch := decide) only [enterS, getLsbD_putField]
  rfl

theorem enterS_spie : (enterS intr cause epc tval h).sup.mstatus.getLsbD 5 = h.sup.mstatus.getLsbD 1 := by
  simp (disch := decide) only [enterS, getLsbD_putField, testBit_field]
  rfl

theorem enterS_spp : (enterS intr cause epc tval h).sup.mstatus.getLsbD 8 = !(h.sup.mode == .u) := by
  simp (disch := decide) only [enterS, getLsbD_putField]
  cases h.sup.mode <;> rfl

theorem enterM_mie : (enterM intr cause epc tval h).sup.mstatus.getLsbD 3 = false := by
  simp (disch := decide) only [enterM, getLsbD_putField]
  rfl

theorem enterM_mpie : (enterM intr cause epc tval h).sup.mstatus.getLsbD 7 = h.sup.mstatus.getLsbD 3 := by
  simp (disch := decide) only [enterM, getLsbD_putField, testBit_field]
  rfl

theorem enterM_mpp : (enterM intr cause epc tval h).sup.mstatus.extractLsb' 11 2 = BitVec.ofNat 2 h.sup.mode.level := by
  refine BitVec.eq_of_getLsbD_eq fun i hi => ?_
  rw [BitVec.getLsbD_extractLsb', enterM]
  simp (disch := omega) only [getLsbD_putField]
  interval_cases i <;> cases h.sup.mode <;> rfl

end Status

/-! ## INTERRUPT_TAKEN (R303) -/

section Interrupts

variable {s : State} {core n k : Nat}

/-- Interrupt k is pending and enabled, and the mode of the L-core lets it be taken. -/
def State.CanTake (s : State) (k : Nat) : Prop :=
  k ∈ [1, 5, 9, 16, 17, 18] ∧ s.mipVal.getLsbD k = true ∧ s.hart.sup.mie.getLsbD k = true ∧
    if s.hart.sup.mideleg.getLsbD k then s.hart.sup.mode = .u ∨ s.hart.sup.mode = .s ∧ s.hart.sup.mstatus.getLsbD 1 = true
    else s.hart.sup.mode ≠ .m ∨ s.hart.sup.mstatus.getLsbD 3 = true

/-- The place of an interrupt of the architecture among those of one mode. -/
def irqPlace (k : Nat) : Nat := if k = 9 then 0 else if k = 1 then 1 else 2

/-- An interrupt that can be taken goes before interrupt n. -/
def State.IrqAhead (s : State) (n : Nat) : Prop :=
  ∃ k, s.CanTake k ∧ (s.hart.sup.mideleg.getLsbD k = false ∧ s.hart.sup.mideleg.getLsbD n = true ∨
    s.hart.sup.mideleg.getLsbD k = s.hart.sup.mideleg.getLsbD n ∧ k < 16 ∧ n < 16 ∧ irqPlace k < irqPlace n)

theorem irqOrder_contains : irqOrder.contains k = true ↔ k ∈ [1, 5, 9, 16, 17, 18] := by
  simp only [irqOrder, List.contains_eq_mem, List.mem_cons, List.not_mem_nil, or_false, decide_eq_true_eq]
  omega

theorem irqDue_iff (ha : s.active = true) (hid : s.hart.id = .lcore core) (hk : k ∈ [1, 5, 9, 16, 17, 18]) :
    s.irqDue k = true ↔ s.hart.wait ≠ some .rmRequest ∧ s.CanTake k := by
  simp only [State.irqDue, hid, ha, field_one_eq, State.CanTake, hk, true_and, Bool.true_and, Bool.and_eq_true, bne_iff_ne, and_assoc]
  cases s.hart.sup.mideleg.getLsbD k <;> simp

/-- The order of the architecture's interrupts is that of their places. -/
theorem idxOf_irqOrder_lt (hk : k ∈ [1, 5, 9, 16, 17, 18]) (hn : n ∈ [1, 5, 9, 16, 17, 18]) (hk' : k < 16) (hn' : n < 16) :
    irqOrder.idxOf k < irqOrder.idxOf n ↔ irqPlace k < irqPlace n := by
  simp only [List.mem_cons, List.not_mem_nil, or_false] at hk hn
  have hk : k = 1 ∨ k = 5 ∨ k = 9 := by omega
  have hn : n = 1 ∨ n = 5 ∨ n = 9 := by omega
  rcases hk with rfl | rfl | rfl <;> rcases hn with rfl | rfl | rfl <;> decide

theorem irqBefore_iff (hk : k ∈ [1, 5, 9, 16, 17, 18]) (hn : n ∈ [1, 5, 9, 16, 17, 18]) :
    s.irqBefore k n = true ↔ s.hart.sup.mideleg.getLsbD k = false ∧ s.hart.sup.mideleg.getLsbD n = true ∨
      s.hart.sup.mideleg.getLsbD k = s.hart.sup.mideleg.getLsbD n ∧ k < 16 ∧ n < 16 ∧ irqPlace k < irqPlace n := by
  have hi := idxOf_irqOrder_lt hk hn
  unfold State.irqBefore
  dsimp only
  by_cases he : s.hart.sup.mideleg.getLsbD k = s.hart.sup.mideleg.getLsbD n
  · rw [if_pos (beq_iff_eq.2 he)]
    simp only [he, Bool.eq_false_iff, ne_eq, not_and_self, true_and, false_or, Bool.and_eq_true, decide_eq_true_eq, and_assoc]
    exact and_congr_right fun h1 => and_congr_right fun h2 => hi h1 h2
  · rw [if_neg (by simpa using he), Bool.eq_not_of_ne he]
    simp

/-- The interrupt that is taken is one that can be, of which none is ahead, on an L-core that waits for no request. -/
theorem irqFirst_iff (ha : s.active = true) (hid : s.hart.id = .lcore core) :
    (irqOrder.contains n && s.irqFirst n) = true ↔ s.CanTake n ∧ ¬ s.IrqAhead n ∧ s.hart.wait ≠ some .rmRequest := by
  rw [Bool.and_eq_true, irqOrder_contains]
  constructor
  · rintro ⟨hn, hf⟩
    obtain ⟨hd, hall⟩ := Bool.and_eq_true_iff.1 hf
    obtain ⟨hw, hc⟩ := (irqDue_iff ha hid hn).1 hd
    refine ⟨hc, ?_, hw⟩
    rintro ⟨k, hk, hb⟩
    have := List.all_eq_true.1 hall k (List.contains_iff_mem.1 (irqOrder_contains.2 hk.1))
    rw [(irqDue_iff ha hid hk.1).2 ⟨hw, hk⟩, (irqBefore_iff hk.1 hn).2 hb] at this
    cases this
  · rintro ⟨hc, hno, hw⟩
    refine ⟨hc.1, Bool.and_eq_true_iff.2 ⟨(irqDue_iff ha hid hc.1).2 ⟨hw, hc⟩, List.all_eq_true.2 fun k hk => ?_⟩⟩
    have hk' := irqOrder_contains.1 (List.contains_iff_mem.2 hk)
    by_contra hcon
    simp only [Bool.not_eq_true', Bool.not_eq_false, Bool.and_eq_true] at hcon
    exact hno ⟨k, ((irqDue_iff ha hid hk').1 hcon.1).2, (irqBefore_iff hk' hc.1).1 hcon.2⟩

theorem exec_interruptTaken_idle (ha : s.active = true) (hid : s.hart.id = .lcore core)
    (hno : ¬ s.CanTake n ∨ s.IrqAhead n ∨ s.hart.wait = some .rmRequest) : exec (.interruptTaken n) s = .next s := by
  show execInterruptTaken n s = _
  unfold execInterruptTaken
  rw [if_neg]
  rw [irqFirst_iff ha hid]
  tauto

theorem exec_interruptTaken (ha : s.active = true) (hid : s.hart.id = .lcore core) (hc : s.CanTake n) (hno : ¬ s.IrqAhead n)
    (hw : s.hart.wait ≠ some .rmRequest) : exec (.interruptTaken n) s = .next { s with hart := enterTrap true n s.pc 0 s.hart } := by
  show execInterruptTaken n s = _
  unfold execInterruptTaken
  rw [if_pos ((irqFirst_iff ha hid).2 ⟨hc, hno, hw⟩)]

theorem exec_interruptTaken_delegated (ha : s.active = true) (hid : s.hart.id = .lcore core) (hc : s.CanTake n) (hno : ¬ s.IrqAhead n)
    (hw : s.hart.wait ≠ some .rmRequest) (hn : s.hart.sup.mideleg.getLsbD n = true) :
    exec (.interruptTaken n) s = .next { s with hart := enterS true n s.pc 0 s.hart } := by
  have hmode : s.hart.sup.mode ≠ .m := by
    obtain ⟨-, -, -, hm⟩ := hc
    rw [if_pos hn] at hm
    rcases hm with hm | ⟨hm, -⟩ <;> simp [hm]
  rw [exec_interruptTaken ha hid hc hno hw, enterTrap_delegated true n _ _ _ hmode hn]

theorem exec_interruptTaken_undelegated (ha : s.active = true) (hid : s.hart.id = .lcore core) (hc : s.CanTake n) (hno : ¬ s.IrqAhead n)
    (hw : s.hart.wait ≠ some .rmRequest) (hn : s.hart.sup.mideleg.getLsbD n = false) :
    exec (.interruptTaken n) s = .next { s with hart := enterM true n s.pc 0 s.hart } := by
  rw [exec_interruptTaken ha hid hc hno hw, enterTrap_undelegated true n _ _ _ (.inr hn)]

theorem vectorOf_interrupt (tvec : Word) :
    vectorOf tvec true n = if tvec.extractLsb' 0 2 = 1 then (tvec &&& ~~~3) + BitVec.ofNat 64 (4 * n) else tvec &&& ~~~3 := by
  simp [vectorOf]

theorem causeWord_interrupt : causeWord true n = 0x8000000000000000 ||| BitVec.ofNat 64 n := rfl

end Interrupts
end Sys2Proof.Machine
end
section
/-! ## Part of a span of memory -/
namespace Sys2Proof.Machine

theorem sparseGets_length {α : Type} {d : α} {l : List (Nat × α)} {k n : Nat} : (sparseGets d l k n).length = n := by
  induction n generalizing k with
  | zero => rfl
  | succ n ih => simp [sparseGets, ih]

theorem sparseGets_drop {α : Type} {d : α} {l : List (Nat × α)} {k n o : Nat} :
    (sparseGets d l k n).drop o = sparseGets d l (k + o) (n - o) := by
  induction n generalizing k o with
  | zero => simp [sparseGets]
  | succ n ih =>
    cases o with
    | zero => rfl
    | succ o => simp [sparseGets, ih, Nat.add_assoc, Nat.add_comm 1 o]

theorem sparseGets_take {α : Type} {d : α} {l : List (Nat × α)} {k n m : Nat} (h : m ≤ n) :
    (sparseGets d l k n).take m = sparseGets d l k m := by
  induction n generalizing k m with
  | zero => simp [Nat.le_zero.1 h, sparseGets]
  | succ n ih =>
    cases m with
    | zero => rfl
    | succ m => simp [sparseGets, ih (Nat.succ_le_succ_iff.1 h)]

/-- The bytes of a part of a span. -/
theorem State.bytes_part {s : State} {pa n o m : Nat} (h : o + m ≤ n) : ((s.bytes pa n).drop o).take m = s.bytes (pa + o) m := by
  rw [State.bytes, sparseGets_drop, sparseGets_take (by omega)]
  rfl

/-- A field of a record in memory. -/
theorem recNat_bytes {s : State} {pa n o m : Nat} (h : o + m ≤ n) : recNat (s.bytes pa n) o m = s.memNat (pa + o) m :=
  congrArg leNat (State.bytes_part h)

/-! ## EMULATION_HANDLER_RUN (R312) -/

section HandlerRun

variable {s : State} {r : Nat}

/-- The address of the next record of the emulation ring. -/
def State.nextRecord (s : State) : Nat := emqAddr s.part.emq s.part.emq.taken.length

/-- The partition with the next record taken, and its read counted. -/
def State.tookPart (s : State) (done : Bool) : Part :=
  { s.part with emq := s.part.emq.take done, hotCounts := (s.sample [s.nextRecord]).part.hotCounts }

/-- The state in which the next record is taken and its read counted. -/
theorem State.took_eq {done : Bool} :
    ((s.sample [s.nextRecord]).modPart fun p => { p with emq := s.part.emq.take done }) = { s with part := s.tookPart done } := by
  unfold State.tookPart State.sample
  split <;> rfl

theorem exec_emulationHandlerRun (ha : s.active = true) (hr : r < 8) (hp : s.part.preempting = false) (hs : s.part.emq.serve = true)
    (hw : s.part.emq.taken.length < s.part.emq.count) (hi : s.hart? (.roust r) = none) :
    exec (.emulationHandlerRun r) s = .next (s.startHandler r) := by
  show execEmulationHandlerRun r s = _
  unfold execEmulationHandlerRun
  rw [if_pos]
  have hwait : s.part.emq.waiting ≠ 0 := Nat.sub_ne_zero_of_lt hw
  simp [ha, hr, hp, hs, hi, State.roustIdle, hwait]

/-- A withdrawn record is passed over. -/
theorem startHandler_withdrawn (h : ∀ y ∈ s.part.awaiting, y.tag = s.memNat (s.nextRecord + 4) 4 → y.kind ≠ .emul) :
    s.startHandler r = { s with part := s.tookPart true } := by
  have hf : (s.part.awaiting.find? fun a => a.tag == recNat (s.bytes s.nextRecord 128) 4 4 && a.kind == .emul) = none := by
    rw [recNat_bytes (by decide)]
    exact List.find?_eq_none.2 fun y hy => by simpa using h y hy
  rw [← State.took_eq]
  unfold State.startHandler
  dsimp only
  rw [show emqAddr s.part.emq s.part.emq.taken.length = s.nextRecord from rfl, hf]

/-- The hart of the handler that starts for a record. -/
def handlerHart (s : State) (r : Nat) (a : Await) : Hart :=
  let va := imgWord a.entry 16 + BitVec.ofNat 64 (s.nextRecord - s.part.emq.base)
  let u := emptyUser s.freeCount
  { Hart.init (.roust r) with
    u := { u with x := (u.x.set 0 0).set 10 va, pc := imgWord a.entry 0 &&& ~~~1#64 }
    sup := { Sup.init with mode := .u, satp := imgWord a.entry 8 }
    handler := some ⟨s.nextRecord, va, a.ctx, a.tag, s.pkg.zaclk.toNat⟩ }

/-- The handler of the next record starts. -/
theorem startHandler_starts {a : Await} (ha : a ∈ s.part.awaiting) (ht : a.tag = s.memNat (s.nextRecord + 4) 4) (hk : a.kind = .emul)
    (hu : ∀ y ∈ s.part.awaiting, y.tag = a.tag → y = a) :
    s.startHandler r =
      { s with part := s.tookPart false, harts := s.harts ++ [handlerHart s r a], freeCount := s.freeCount + 64 } := by
  have hf : (s.part.awaiting.find? fun a => a.tag == recNat (s.bytes s.nextRecord 128) 4 4 && a.kind == .emul) = some a := by
    rw [recNat_bytes (by decide), ← ht]
    cases hc : s.part.awaiting.find? (fun y => y.tag == a.tag && y.kind == .emul) with
    | none => exact absurd (List.find?_eq_none.1 hc a ha) (by simp [hk])
    | some b =>
      have hb := List.find?_some hc
      simp only [Bool.and_eq_true, beq_iff_eq] at hb
      rw [hu b (List.mem_of_find?_eq_some hc) hb.1]
  unfold State.startHandler
  dsimp only
  rw [show emqAddr s.part.emq s.part.emq.taken.length = s.nextRecord from rfl, hf]
  dsimp only
  rw [show (s.sample [s.nextRecord]).modPart (fun p => { p with emq := s.part.emq.take false }) = _ from State.took_eq]
  rfl

theorem handlerHart_arg {a : Await} :
    (handlerHart s r a).u.rx 10 = BitVec.ofNat 64 (recNat a.entry 16 8) + BitVec.ofNat 64 (s.nextRecord - s.part.emq.base) := by
  simp [handlerHart, User.rx, imgWord]

/-- The handler's hart is found under its core's name. -/
theorem hart?_append {g : Hart} (hn : s.hart? g.id = none) : ({ s with harts := s.harts ++ [g] } : State).hart? g.id = some g := by
  rw [State.hart?_def] at hn ⊢
  dsimp only
  split at hn
  · cases hn
  · rename_i hne
    rw [if_neg hne, List.find?_append, hn]
    simp

/-- A record that is taken and not disposed keeps its place, and those before it that are not disposed keep theirs. -/
theorem count_take_false {q : Queue} (h : q.taken.head? ≠ some true) : (q.take false).count = q.count := by
  have hk : ((q.taken ++ [false]).takeWhile id).length = 0 := by
    cases ht : q.taken with
    | nil => rfl
    | cons b l => cases b <;> simp_all
  simp [Queue.take, Queue.freed, hk]

end HandlerRun
end Sys2Proof.Machine
end
section
/-! ## Sorting by a key -/
namespace Sys2Proof.Machine

section Sorting

variable {α : Type} {key : α → List Nat} {f : α → Nat}

theorem insertOn_perm (a : α) (l : List α) : (insertOn key a l).Perm (a :: l) := by
  induction l with
  | nil => exact .refl _
  | cons b l ih =>
    unfold insertOn
    split
    · exact (ih.cons b).trans (.swap a b l)
    · exact .refl _

theorem sortOn_perm (l : List α) : (sortOn key l).Perm l := by
  induction l with
  | nil => exact .refl _
  | cons a l ih => exact (insertOn_perm a _).trans (ih.cons a)

/-- An element goes before those whose first key is greater and behind those whose first key is smaller. -/
theorem insertOn_pairwise (hk : ∀ a, ∃ l, key a = f a :: l) (a : α) {l : List α} (h : l.Pairwise fun x y => f x ≤ f y) :
    (insertOn key a l).Pairwise fun x y => f x ≤ f y := by
  induction l with
  | nil => exact List.pairwise_singleton _ _
  | cons b l ih =>
    obtain ⟨hb, hl⟩ := List.pairwise_cons.1 h
    obtain ⟨ka, hka⟩ := hk a
    obtain ⟨kb, hkb⟩ := hk b
    unfold insertOn
    rw [hka, hkb]
    split
    · rename_i hlt
      have hba : f b ≤ f a := by
        simp only [lexLt, Bool.or_eq_true, decide_eq_true_eq, Bool.and_eq_true, beq_iff_eq] at hlt
        omega
      refine List.pairwise_cons.2 ⟨fun y hy => ?_, ih hl⟩
      rcases List.mem_cons.1 ((insertOn_perm a l).mem_iff.1 hy) with rfl | hy
      · exact hba
      · exact hb y hy
    · rename_i hge
      have hab : f a ≤ f b := by
        simp only [lexLt, Bool.or_eq_true, decide_eq_true_eq, not_or] at hge
        omega
      refine List.pairwise_cons.2 ⟨fun y hy => ?_, h⟩
      rcases List.mem_cons.1 hy with rfl | hy
      · exact hab
      · exact hab.trans (hb y hy)

theorem sortOn_pairwise (hk : ∀ a, ∃ l, key a = f a :: l) (l : List α) : (sortOn key l).Pairwise fun x y => f x ≤ f y := by
  induction l with
  | nil => exact .nil
  | cons a l ih => exact insertOn_pairwise hk a ih

end Sorting

theorem le_foldl_max {l : List Nat} {n m : Nat} (h : n = m ∨ n ∈ l ∨ n ≤ m) : n ≤ l.foldl max m := by
  induction l generalizing m with
  | nil => rcases h with rfl | h | h <;> simp_all
  | cons a l ih =>
    rcases h with rfl | h | h
    · exact ih (.inr (.inr (le_max_left ..)))
    · rcases List.mem_cons.1 h with rfl | h
      · exact ih (.inr (.inr (le_max_right ..)))
      · exact ih (.inr (.inl h))
    · exact ih (.inr (.inr (h.trans (le_max_left ..))))

/-! ## The hot list (R92) -/

/-- The record of a page with its estimate. -/
def hotRow (e : Nat × Nat) : List Byte :=
  natLe 8 e.1 ++ natLe 4 e.2 ++ natLe 1 (if e.1 * 4096 % 2 ^ 47 < 0x10000000000 then 0 else 1) ++ natLe 3 0

theorem hotRow_length (e : Nat × Nat) : (hotRow e).length = 16 := by simp [hotRow, natLe_length]

/-- The records of a list of rows. -/
def hotRows (l : List (Nat × Nat)) : List (List Byte) := l.map hotRow ++ List.replicate (64 - l.length) (natLe 16 0)

theorem hotList_eq (l : List (Nat × Nat)) : hotList l = (hotRows l).flatten := by
  show l.flatMap hotRow ++ (List.range (64 - l.length)).flatMap (fun _ => natLe 16 0) = _
  rw [hotRows, List.flatten_append, List.flatMap_def, List.flatMap_def, List.map_const', List.length_range]

theorem length_of_mem_hotRows {l : List (Nat × Nat)} {row : List Byte} (h : row ∈ hotRows l) : row.length = 16 := by
  rcases List.mem_append.1 h with h | h
  · obtain ⟨e, -, rfl⟩ := List.mem_map.1 h
    exact hotRow_length e
  · rw [List.eq_of_mem_replicate h, natLe_length]

theorem hotRows_length {l : List (Nat × Nat)} (h : l.length ≤ 64) : (hotRows l).length = 64 := by
  simp [hotRows]
  omega

/-- The rows of a matrix stand one behind another. -/
theorem flatten_row {α : Type} {rows : List (List α)} {n i : Nat} (h : ∀ row ∈ rows, row.length = n) (hi : i < rows.length) :
    (rows.flatten.drop (n * i)).take n = rows[i] := by
  induction rows generalizing i with
  | nil => simp at hi
  | cons row rows ih =>
    have hrow : row.length = n := h row (by simp)
    cases i with
    | zero => simp [← hrow]
    | succ i =>
      rw [List.flatten_cons, show n * (i + 1) = row.length + n * i by rw [hrow]; ring, List.drop_length_add_append]
      simpa using ih (fun r hr => h r (by simp [hr])) (by simpa using hi)

theorem hotList_length {l : List (Nat × Nat)} (h : l.length ≤ 64) : (hotList l).length = 1024 := by
  have hs : ∀ rows : List (List Byte), (∀ row ∈ rows, row.length = 16) → rows.flatten.length = 16 * rows.length := by
    intro rows hr
    induction rows with
    | nil => rfl
    | cons row rows ih => simp [hr row, ih fun r hr' => hr r (by simp [hr'])]; ring
  rw [hotList_eq, hs _ fun row => length_of_mem_hotRows, hotRows_length h]

/-- A record of a hot list that stands in memory. -/
theorem bytes_hotRow {s : State} {base i : Nat} {l : List (Nat × Nat)} (hl : l.length ≤ 64) (hm : s.bytes base 1024 = hotList l)
    (hi : i < 64) : s.bytes (base + 16 * i) 16 = (hotRows l)[i]'(by rw [hotRows_length hl]; exact hi) := by
  rw [← State.bytes_part (n := 1024) (by omega), hm, hotList_eq]
  exact flatten_row (fun row => length_of_mem_hotRows) _

theorem bytes_hotRow_used {s : State} {base i : Nat} {l : List (Nat × Nat)} {e : Nat × Nat} (hl : l.length ≤ 64)
    (hm : s.bytes base 1024 = hotList l) (hi : i < 64) (he : l[i]? = some e) : s.bytes (base + 16 * i) 16 = hotRow e := by
  obtain ⟨hil, rfl⟩ := List.getElem?_eq_some_iff.1 he
  rw [bytes_hotRow hl hm hi]
  simp [hotRows, hil]

theorem hotRow_page {s : State} {base i : Nat} {l : List (Nat × Nat)} {e : Nat × Nat} (hl : l.length ≤ 64)
    (hm : s.bytes base 1024 = hotList l) (hi : i < 64) (he : l[i]? = some e) : s.memNat (base + 16 * i) 8 = e.1 % 2 ^ 64 := by
  have hb : s.bytes (base + 16 * i + 0) 8 = natLe 8 e.1 := by
    rw [← State.bytes_part (n := 16) (by decide), bytes_hotRow_used hl hm hi he]
    simp [hotRow, natLe_length]
  rw [State.memNat, ← Nat.add_zero (base + 16 * i), hb, leNat_natLe]

theorem hotRow_estimate {s : State} {base i : Nat} {l : List (Nat × Nat)} {e : Nat × Nat} (hl : l.length ≤ 64)
    (hm : s.bytes base 1024 = hotList l) (hi : i < 64) (he : l[i]? = some e) : s.memNat (base + 16 * i + 8) 4 = e.2 % 2 ^ 32 := by
  have hb : s.bytes (base + 16 * i + 8) 4 = natLe 4 e.2 := by
    rw [← State.bytes_part (n := 16) (by decide), bytes_hotRow_used hl hm hi he]
    simp [hotRow, natLe_length]
  rw [State.memNat, hb, leNat_natLe]

theorem hotRow_unused {s : State} {base i : Nat} {l : List (Nat × Nat)} (hl : l.length ≤ 64) (hm : s.bytes base 1024 = hotList l)
    (hi : i < 64) (hil : l.length ≤ i) : s.memNat (base + 16 * i) 16 = 0 := by
  have hrow : (hotRows l)[i]'(by rw [hotRows_length hl]; exact hi) = natLe 16 0 := by simp [hotRows, hil]
  rw [State.memNat, bytes_hotRow hl hm hi, hrow, leNat_natLe]
  rfl

/-! ## HOT_PAGE_PUBLISH (R92, R303) -/

/-- Interrupt 18 raised at an L-core. -/
def raiseHot (h : Hart) : Hart :=
  match h.id with
  | .lcore _ => { h with sup := { h.sup with mip := h.sup.mip ||| 0x40000#64 } }
  | _ => h

theorem raiseHot_id (h : Hart) : (raiseHot h).id = h.id := by
  unfold raiseHot
  split <;> rfl

theorem raiseHot_lcore {h : Hart} {core : Nat} (hid : h.id = .lcore core) :
    raiseHot h = { h with sup := { h.sup with mip := h.sup.mip ||| 0x40000#64 } } := by
  simp [raiseHot, hid]

namespace State

variable (s : State)

/-- The estimates of the pages of the partition. -/
def hotPages : List (Nat × Nat) := hotEstimates s.freeCount (s.part.hotCounts.filter fun e => inRanges s.part.ranges (e.1 * 4096))

/-- The list that is published. -/
def hotTop : List (Nat × Nat) :=
  (sortOn (fun (e : Nat × Nat) => [(s.hotPages.map Prod.snd).foldl max 0 - e.2, e.1]) s.hotPages).take 64

/-- The list in memory. -/
def hotWritten : State := { s with freeCount := s.freeCount + s.hotPages.length }.engineWrite s.part.hotBase (hotList s.hotTop)

/-- The list published, interrupt 18 raised, the counts at zero. -/
def hotPublished : State :=
  { s.hotWritten with hart := raiseHot s.hotWritten.hart, harts := s.hotWritten.harts.map raiseHot }.modPart fun p =>
    { p with hotCounts := [], hotClock := 0 }

variable {s}

theorem hotDue_iff (ha : s.active = true) : s.hotDue = true ↔ s.part.hotEn = true ∧ 2 ^ (s.part.hotIvl + 16) ≤ s.part.hotClock := by
  simp [hotDue, ha]

theorem exec_hotPagePublish_idle (ha : s.active = true) (h : s.part.hotEn = false ∨ s.part.hotClock < 2 ^ (s.part.hotIvl + 16)) :
    exec .hotPagePublish s = .next s := by
  show execHotPagePublish s = _
  unfold execHotPagePublish
  rw [if_neg]
  rw [hotDue_iff ha]
  rintro ⟨h1, h2⟩
  rcases h with h | h
  · rw [h1] at h
    cases h
  · omega

theorem exec_hotPagePublish (ha : s.active = true) (h1 : s.part.hotEn = true) (h2 : 2 ^ (s.part.hotIvl + 16) ≤ s.part.hotClock) :
    exec .hotPagePublish s = .next s.hotPublished := by
  show execHotPagePublish s = _
  unfold execHotPagePublish
  rw [if_pos ((hotDue_iff ha).2 ⟨h1, h2⟩)]
  rfl

theorem mem_hotPages {e : Nat × Nat} (h : e ∈ s.hotPages) :
    ∃ c ∈ s.part.hotCounts, c.1 = e.1 ∧ min c.2 (2 ^ 32 - 1) ≤ e.2 ∧ inRanges s.part.ranges (e.1 * 4096) = true ∧ e.2 < 2 ^ 32 := by
  obtain ⟨i, hi, rfl⟩ := List.mem_mapIdx.1 h
  have hc := List.mem_filter.1 (List.getElem_mem hi)
  refine ⟨_, hc.1, rfl, ?_, hc.2, ?_⟩ <;> dsimp only <;> omega

theorem exists_hotPages {c : Nat × Nat} (hc : c ∈ s.part.hotCounts) (hr : inRanges s.part.ranges (c.1 * 4096) = true) :
    ∃ e ∈ s.hotPages, e.1 = c.1 := by
  have hf : c ∈ s.part.hotCounts.filter fun e => inRanges s.part.ranges (e.1 * 4096) := by simpa using ⟨hc, hr⟩
  obtain ⟨i, hi, he⟩ := List.mem_iff_getElem.1 hf
  exact ⟨_, List.mem_mapIdx.2 ⟨i, hi, rfl⟩, (congrArg Prod.fst he :)⟩

theorem hotTop_length : s.hotTop.length ≤ 64 := List.length_take_le ..

theorem mem_hotPages_of_hotTop {e : Nat × Nat} (h : e ∈ s.hotTop) : e ∈ s.hotPages := (sortOn_perm _).mem_iff.1 (List.mem_of_mem_take h)

/-- A list that is not full holds every page. -/
theorem mem_hotTop_of_short {e : Nat × Nat} (h : s.hotTop.length < 64) (he : e ∈ s.hotPages) : e ∈ s.hotTop := by
  unfold hotTop at h ⊢
  rw [List.length_take] at h
  rw [List.take_of_length_le (by omega)]
  exact (sortOn_perm _).mem_iff.2 he

theorem hotTop_descending : (s.hotTop.map Prod.snd).Pairwise (· ≥ ·) := by
  rw [List.pairwise_map]
  have hmax : ∀ e ∈ s.hotTop, e.2 ≤ (s.hotPages.map Prod.snd).foldl max 0 := fun e he =>
    le_foldl_max (.inr (.inl (List.mem_map_of_mem (mem_hotPages_of_hotTop he))))
  have hs : s.hotTop.Pairwise fun x y =>
      (s.hotPages.map Prod.snd).foldl max 0 - x.2 ≤ (s.hotPages.map Prod.snd).foldl max 0 - y.2 :=
    (sortOn_pairwise (fun _ => ⟨_, rfl⟩) _).sublist (List.take_sublist ..)
  refine hs.imp_of_mem fun hx hy h => ?_
  have := hmax _ hx
  have := hmax _ hy
  omega

theorem hotPublished_mem :
    s.hotPublished.mem = ({ s with freeCount := s.freeCount + s.hotPages.length }.rawWrite s.part.hotBase (hotList s.hotTop)).mem := by
  show s.hotWritten.mem = _
  unfold hotWritten engineWrite sampleSpan
  exact sample_mem _ _

theorem bytes_hotPublished (h : s.Inv) (hp : s.poison = []) : s.hotPublished.bytes s.part.hotBase 1024 = hotList s.hotTop := by
  have hb := bytes_rawWrite (s := { s with freeCount := s.freeCount + s.hotPages.length }) (pa := s.part.hotBase) (bs := hotList s.hotTop) h hp
  rw [hotList_length hotTop_length] at hb
  rwa [bytes, hotPublished_mem]

theorem byte_hotPublished {a : Nat} (ha : a < s.part.hotBase ∨ s.part.hotBase + 1024 ≤ a) : s.hotPublished.byte a = s.byte a := by
  rw [byte, hotPublished_mem]
  exact byte_rawWrite_outside (s := { s with freeCount := s.freeCount + s.hotPages.length }) (by rwa [hotList_length hotTop_length])

theorem hotPublished_allHarts :
    s.hotPublished.allHarts = s.allHarts.map fun h => raiseHot (touched s.part.hotBase (hotList s.hotTop).length h) := by
  have hw : s.hotWritten.allHarts = s.allHarts.map (touched s.part.hotBase (hotList s.hotTop).length) := by
    simp [hotWritten, engineWrite, sampleSpan, allHarts, probeRemote, probeFor]
  show s.hotWritten.allHarts.map raiseHot = _
  rw [hw, List.map_map]
  rfl

theorem hart?_hotPublished {k : HartId} :
    s.hotPublished.hart? k = (s.hart? k).map fun h => raiseHot (touched s.part.hotBase (hotList s.hotTop).length h) := by
  unfold hart?
  rw [hotPublished_allHarts, List.find?_map]
  congr 2
  funext h
  exact congrArg (· == k) (raiseHot_id _)

end State
end Sys2Proof.Machine
end
section
/-! ## Handlers, interrupts and the hot list (R92, R303, R310, R312) -/
namespace Sys2Proof
open Machine
open Host (Outcome)

/-- Settles O52: the handler's start and end move harts about by name, an interrupt enters its mode as any
trap does, and the hot list is a sorted list of rows written over its page. -/
theorem handlersAndInterrupts : Obligations.HandlersAndInterrupts := by
  unfold Obligations.HandlersAndInterrupts
  intro s n r ha
  refine ⟨fun hr hp hs hw hi => ⟨fun hno => ?_, fun a' h1 h2 h3 h4 => ?_⟩, fun g run hg hr => ⟨?_, ?_, ?_⟩, fun core hid => ⟨?_, ?_⟩,
    State.exec_hotPagePublish_idle ha, fun h1 h2 hinv hpoison => ?_⟩
  · rw [exec_emulationHandlerRun ha hr hp hs hw hi, startHandler_withdrawn hno]
    rfl
  · have hfound := hart?_append (g := handlerHart s r a') (s := { s with part := s.tookPart false, freeCount := s.freeCount + 64 }) hi
    refine ⟨_, handlerHart s r a', _, (exec_emulationHandlerRun ha hr hp hs hw hi).trans
      (congrArg Outcome.next (startHandler_starts h1 h2 h3 h4)), hfound, rfl, rfl, rfl, rfl, handlerHart_arg, rfl, rfl, rfl, rfl, rfl,
      count_take_false, rfl, rfl⟩
  · exact exec_handlerTimeLimit_early hg hr
  · rintro ⟨ht, -, hne⟩ hno
    exact ⟨_, exec_handlerTimeLimit_disposed hne hg hr ht hno, State.hart?_handlerEnded_same hne, rfl, rfl,
      fun k hk => State.hart?_handlerEnded hk⟩
  · rintro a' h c ⟨ht, -, hne⟩ hmem htag hu hcur hh hc hd hm
    exact handlerTimeLimit_fatal hne hg hr ht hmem htag hu hcur hh hc hd hm
  · exact exec_interruptTaken_idle ha hid
  · intro hc hno hw
    refine ⟨fun hn => ?_, fun hn => ?_⟩
    · exact ⟨_, exec_interruptTaken_delegated ha hid hc hno hw hn, rfl, rfl, rfl, causeWord_interrupt, rfl, rfl, vectorOf_interrupt _,
        enterS_sie .., enterS_spie .., enterS_spp ..⟩
    · exact ⟨_, exec_interruptTaken_undelegated ha hid hc hno hw hn, rfl, rfl, rfl, causeWord_interrupt, rfl, rfl, vectorOf_interrupt _,
        enterM_mie .., enterM_mpie .., enterM_mpp ..⟩
  · have hm := State.bytes_hotPublished hinv hpoison
    have hl := State.hotTop_length (s := s)
    refine ⟨_, s.hotTop, State.exec_hotPagePublish ha h1 h2, hl, State.hotTop_descending, ?_, ?_, ?_, ?_, ?_, rfl, rfl, ?_⟩
    · intro e he
      obtain ⟨c, hc, hpage, hmin, hin, -⟩ := State.mem_hotPages (State.mem_hotPages_of_hotTop he)
      exact ⟨c, hc, hpage, hmin, hin⟩
    · intro hshort c hc hin
      obtain ⟨e, he, hpage⟩ := State.exists_hotPages hc hin
      exact ⟨e, State.mem_hotTop_of_short hshort he, hpage⟩
    · intro i hi e he
      obtain ⟨-, -, -, -, -, hlt⟩ := State.mem_hotPages (State.mem_hotPages_of_hotTop (List.mem_of_getElem? he))
      exact ⟨hotRow_page hl hm hi he, (hotRow_estimate hl hm hi he).trans (Nat.mod_eq_of_lt hlt)⟩
    · exact fun i hil hi => hotRow_unused hl hm hi hil
    · exact fun a ha => State.byte_hotPublished ha
    · intro core h hh
      have hcore : h.id = .lcore core := State.id_of_hart? hh
      refine ⟨_, by rw [State.hart?_hotPublished, hh]; rfl, ?_⟩
      beta_reduce
      rw [raiseHot_lcore (h := touched _ _ h) hcore]
      exact ⟨rfl, rfl⟩

end Sys2Proof
end
section
/-! ## A team number held twice (R17, R85) -/
namespace Sys2Proof.Machine

/-- A team without members, of number 1. -/
def teamOne (wcore : Nat) (windows : List Window) : Team := ⟨1, wcore, Vector.replicate 16 ⟨0, 0, []⟩, windows⟩

/-- A pre-empted partition with the W-cores 0 and 1 and a team 1 on each: the window of the team on W-core 1 holds a dirty byte. -/
def sharedNumber : State :=
  let dirty : Window := ⟨0, 0, 128, 0, 0, 0, [⟨0, 0x1000, [(0, .lcore 0)], []⟩]⟩
  { State.reset with
    part :=
      { Part.init with
        formed := true, status := .stopped, wcoreNums := [0, 1]
        wcores := [WCore.init 0, { WCore.init 1 with sram := [(0, 0xAB)] }]
        teams := [teamOne 1 [dirty], teamOne 0 []] } }

/-- The removal of W-core 0, whose own team has no window, writes the dirty byte of the other team's window home. -/
theorem flushCore_sharedNumber : (sharedNumber.flushCore 0).byte 0x1000 = 0xAB ∧ sharedNumber.byte 0x1000 = 0 := by decide +kernel

/-- R17 lets W-core 0 go. -/
theorem removable_sharedNumber :
    sharedNumber.wcore? 0 = some (WCore.init 0) ∧ (∀ h ∈ sharedNumber.allHarts, h.residentOn 0 = false) ∧
    (WCore.init 0).press.queue = [] ∧ (∀ x ∈ (WCore.init 0).chans.toList, x.queue = []) ∧ (WCore.init 0).mend = [] ∧
    ∀ tm ∈ sharedNumber.part.teams, tm.wcore = 0 → ∀ m ∈ sharedNumber.part.members, m.team ≠ tm.num := by decide +kernel

/-- The windows of the teams of W-core 0 hold no dirty byte. -/
theorem clean_sharedNumber :
    ∀ tm ∈ sharedNumber.part.teams, tm.wcore = 0 → ∀ w ∈ tm.windows, ∀ g ∈ w.granules, g.dirty = [] := by decide +kernel

end Sys2Proof.Machine
end
section
/-! ## The partition's formation and its cores (R15 to R17, R85) -/
namespace Sys2Proof
open Machine

/-- Refutes O54: a W-core's teams are flushed by number, and nothing in the statement keeps two teams from one number. In `sharedNumber`
W-core 0 may go and its team has no window, but the other team of that number has a dirty byte, which the removal writes to memory. (The
kernel's call creates no second team of a number, `State.createTeam`; the statement speaks of every state.) -/
theorem not_partitionFormation : ¬ Obligations.PartitionFormation := by
  unfold Obligations.PartitionFormation
  intro h
  obtain ⟨-, -, -, hcores⟩ := h sharedNumber
  obtain ⟨-, -, ⟨-, hremoved⟩, -⟩ := hcores rfl rfl 0
  obtain ⟨t, -, -, hflushed, -, -, -, -, hclean⟩ := hremoved ⟨_, removable_sharedNumber⟩
  obtain ⟨-, hsame, -⟩ := hclean clean_sharedNumber
  have hbyte : (sharedNumber.flushCore 0).byte 0x1000 = sharedNumber.byte 0x1000 :=
    congrArg (sparseGet 0#8 · 0x1000) (hflushed.symm.trans hsame)
  rw [flushCore_sharedNumber.1, flushCore_sharedNumber.2] at hbyte
  exact absurd hbyte (by decide)

end Sys2Proof
end
section
/-! ## Errors of the package and the counters of its record (R325, R330, R333, R353) -/
namespace Sys2Proof.Machine
open Host (Outcome)

/-! ## Counters -/

/-- A count raised by one is that of its place alone. -/
theorem raised_countAt {α : Type} [DecidableEq α] (a : α) (old : List (α × Nat)) : Raised a old (countAt a old) := by
  unfold countAt addAt
  by_cases h : ∃ n, (a, n) ∈ old
  · rw [if_pos (by simpa using h)]
    refine ⟨fun n hn => ?_, fun hno => absurd h (by simpa using hno), fun b n hb => ?_⟩
    · exact List.mem_map.2 ⟨_, hn, by simp [satAdd]⟩
    · simp only [adjust, List.mem_map]
      constructor
      · rintro ⟨⟨c, k⟩, hc, he⟩
        by_cases hca : c = a
        · simp [hca, hb.symm] at he
        · simp only [beq_iff_eq, hca, if_false] at he
          exact he ▸ hc
      · exact fun hm => ⟨_, hm, by simp [hb]⟩
  · rw [if_neg (by simpa using h)]
    refine ⟨fun n hn => absurd ⟨n, hn⟩ h, fun _ => by simp [satAdd], fun b n hb => by simp [hb]⟩

/-- The event changes the lifetime record alone, to what R says. -/
def RecordsOnly (e : Instr) (s : State) (R : Lifetime → Prop) : Prop :=
  ∃ t, exec e s = .next t ∧ R t.pkg.lifetime ∧ { t with pkg := { t.pkg with lifetime := s.pkg.lifetime } } = s

theorem linkRetry_records (l : LinkId) (s : State) :
    RecordsOnly (.linkRetry l) s fun r =>
      r = { s.pkg.lifetime with retries := r.retries } ∧ Raised l s.pkg.lifetime.retries r.retries :=
  ⟨_, rfl, ⟨rfl, raised_countAt ..⟩, rfl⟩

theorem correctableError_records (e : ErrorSite) (s : State) :
    RecordsOnly (.correctableError e) s fun r =>
      r = { s.pkg.lifetime with correctable := r.correctable } ∧ Raised e s.pkg.lifetime.correctable r.correctable :=
  ⟨_, rfl, ⟨rfl, raised_countAt ..⟩, rfl⟩

/-! ## UNCORRECTABLE_ERROR (R333) -/

section Uncorrectable

variable {s : State} {pa : Nat}

/-- The state with a poisoned word. -/
def State.withPoison (s : State) (w : Nat) : State := { s with poison := if s.poison.contains w then s.poison else s.poison ++ [w] }

theorem mem_withPoison {w v : Nat} : v ∈ (s.withPoison w).poison ↔ v = w ∨ v ∈ s.poison := by
  unfold State.withPoison
  by_cases h : w ∈ s.poison
  · simp only [List.contains_iff_mem, h, if_true]
    exact ⟨.inr, fun hv => hv.elim (fun he => he ▸ h) id⟩
  · simp [h, or_comm]

theorem exec_uncorrectableError_own (ht : inTier pa = true) (ho : s.onPackage pa = true) :
    exec (.uncorrectableError pa) s =
      .next ((s.withPoison (pa / 8)).modLife fun r => { r with uncorrectable := countAt (s.channelOf pa) r.uncorrectable }) := by
  show execUncorrectableError pa s = _
  simp [execUncorrectableError, ht, ho, State.withPoison]

theorem exec_uncorrectableError_other (ht : inTier pa = true) (ho : s.onPackage pa = false) :
    exec (.uncorrectableError pa) s = .next (s.withPoison (pa / 8)) := by
  show execUncorrectableError pa s = _
  simp [execUncorrectableError, ht, ho, State.withPoison]

theorem exec_uncorrectableError_outside (ht : inTier pa = false) : exec (.uncorrectableError pa) s = .next s := by
  show execUncorrectableError pa s = _
  simp [execUncorrectableError, ht]

/-- An uncorrectable error poisons its word, and the record counts it when the word is the package's own. -/
theorem uncorrectableError_poisons (ht : inTier pa = true) :
    ∃ t, exec (.uncorrectableError pa) s = .next t ∧ pa / 8 ∈ t.poison ∧ (∀ w, w ≠ pa / 8 → (w ∈ t.poison ↔ w ∈ s.poison)) ∧
      t.mem = s.mem ∧ t.part = s.part ∧ t.allHarts = s.allHarts ∧
      t.pkg = { s.pkg with lifetime := { s.pkg.lifetime with uncorrectable := t.pkg.lifetime.uncorrectable } } ∧
      (s.onPackage pa = true → Raised (s.channelOf pa) s.pkg.lifetime.uncorrectable t.pkg.lifetime.uncorrectable) ∧
      (s.onPackage pa = false → t.pkg = s.pkg) := by
  have hpoison : pa / 8 ∈ (s.withPoison (pa / 8)).poison := mem_withPoison.2 (.inl rfl)
  have hrest : ∀ w, w ≠ pa / 8 → (w ∈ (s.withPoison (pa / 8)).poison ↔ w ∈ s.poison) := fun w hw => by simp [mem_withPoison, hw]
  cases ho : s.onPackage pa with
  | true => exact ⟨_, exec_uncorrectableError_own ht ho, hpoison, hrest, rfl, rfl, rfl, rfl, fun _ => raised_countAt .., nofun⟩
  | false => exact ⟨_, exec_uncorrectableError_other ht ho, hpoison, hrest, rfl, rfl, rfl, rfl, nofun, fun _ => rfl⟩

end Uncorrectable

/-! ## Harts changed one by one -/

/-- The user state of every hart is the same. -/
def SameUsers (s t : State) : Prop := ∀ h, (t.hart? h).map Hart.u = (s.hart? h).map Hart.u

theorem State.hart?_of_map {s t : State} {f : Hart → Hart} (hid : ∀ h, (f h).id = h.id) (ht : t.allHarts = s.allHarts.map f) (k : HartId) :
    t.hart? k = (s.hart? k).map f := by
  unfold hart?
  rw [ht, List.find?_map]
  congr 2
  funext h
  exact congrArg (· == k) (hid h)

theorem sameUsers_of_map {s t : State} {f : Hart → Hart} (hid : ∀ h, (f h).id = h.id) (hu : ∀ h, (f h).u = h.u)
    (ht : t.allHarts = s.allHarts.map f) : SameUsers s t := by
  intro k
  rw [State.hart?_of_map hid ht k, Option.map_map]
  congr 1
  funext h
  exact hu h

/-! ## PACKAGE_UNREACHABLE (R330) -/

section Unreachable

/-- Only the W-cores and the count of free values differ. -/
def CoresOnly (s t : State) : Prop := ∃ cs n, t = { s with part := { s.part with wcores := cs }, freeCount := n }

theorem CoresOnly.refl (s : State) : CoresOnly s s := ⟨_, _, rfl⟩

theorem CoresOnly.trans {a b c : State} : CoresOnly a b → CoresOnly b c → CoresOnly a c := by
  rintro ⟨_, _, rfl⟩ ⟨cs, n, rfl⟩
  exact ⟨cs, n, rfl⟩

/-- A filled granule lies on a package. -/
def Granule.lostWith (k : Nat) (g : Granule) : Bool := g.pa / 2 ^ 47 == k

/-- The stash bytes of the filled granules of a package made undefined. -/
def State.undefineLost (s : State) (k : Nat) : State :=
  s.part.teams.foldl (fun (t : State) x => x.windows.foldl (fun t w => (w.granules.filter (Granule.lostWith k)).foldl (fun t g =>
    { t.modW x.wcore fun c => c.undefine (w.off + 128 * g.idx) 128 t.freeCount with freeCount := t.freeCount + 1 }) t) t) s

theorem State.undefineLost_coresOnly (s : State) (k : Nat) : CoresOnly s (s.undefineLost k) :=
  List.foldlRecOn _ _ (.refl s) fun _ ht _ _ => List.foldlRecOn _ _ ht fun _ ht _ _ => List.foldlRecOn _ _ ht fun _ ht _ _ =>
    ht.trans ⟨_, _, rfl⟩

/-- Where no granule lies on the package, none is lost. -/
theorem State.undefineLost_none {s : State} {k : Nat} (h : ∀ m ∈ s.part.teams, ∀ w ∈ m.windows, ∀ g ∈ w.granules, g.pa / 2 ^ 47 ≠ k) :
    s.undefineLost k = s := by
  refine List.foldlRecOn (motive := (· = s)) _ _ rfl fun t ht m hm => List.foldlRecOn (motive := (· = s)) _ _ ht fun t ht w hw => ?_
  have hnone : w.granules.filter (Granule.lostWith k) = [] :=
    List.filter_eq_nil_iff.2 fun g hg => by simpa [Granule.lostWith] using h m hm w hw g hg
  rw [hnone]
  exact ht

/-- A window without the granules of a package. -/
def Window.without (k : Nat) (w : Window) : Window := { w with granules := w.granules.filter fun g => !g.lostWith k }

theorem Window.without_without (k : Nat) (w : Window) : (w.without k).without k = w.without k := by simp [Window.without]

/-- A change of the windows that a second one does not change again reaches each team once, whichever teams share a number. -/
theorem State.foldl_modWindows {f : Window → Window} (hf : ∀ w, f (f w) = f w) (l : List Team) (s : State) :
    l.foldl (fun (t : State) x => t.modWindows x.num f) s =
      s.modPart fun p =>
        { p with teams := p.teams.map fun m => if l.any (fun x => x.num == m.num) then { m with windows := m.windows.map f } else m } := by
  induction l generalizing s with
  | nil => simp [modPart]
  | cons x l ih =>
    rw [List.foldl_cons, ih]
    simp only [modWindows, modPart, adjust, List.map_map, List.any_cons]
    congr 3
    funext m
    by_cases hx : x.num = m.num
    · simp only [Function.comp_apply, hx, BEq.rfl, if_true, Bool.true_or, List.map_map]
      split
      · simp [Function.comp_def, hf]
      · rfl
    · simp [hx, Ne.symm hx]

theorem State.loseGranules_eq (s : State) (k : Nat) :
    s.loseGranules k =
      (s.undefineLost k).modPart fun p =>
        { p with teams := p.teams.map fun m => { m with windows := m.windows.map (Window.without k) } } := by
  show (s.undefineLost k).part.teams.foldl (fun (t : State) x => t.modWindows x.num (Window.without k)) (s.undefineLost k) = _
  rw [foldl_modWindows (Window.without_without k)]
  simp only [modPart]
  congr 2
  refine List.map_congr_left fun m hm => if_pos ?_
  exact List.any_eq_true.2 ⟨m, hm, by simp⟩

variable {s : State} {k : Nat}

/-- The state in which a package is unreachable, its W-cores cs and the count n of free values aside. -/
def State.cutOff (s : State) (k : Nat) (cs : List WCore) (n : Nat) : State :=
  { s with
    hart := s.hart.invalidated k
    harts := s.harts.map (Hart.invalidated k)
    tail := s.tail.filter fun x => x.place.package ≠ some k
    freeCount := n
    pkg := { s.pkg with unreachable := s.pkg.unreachable ++ [k] }
    part :=
      { s.part with
        priv := s.part.priv.filter fun b => b.pa / 2 ^ 47 ≠ k
        teams := s.part.teams.map fun m =>
          { m with windows := m.windows.map fun w => { w with granules := w.granules.filter fun g => g.pa / 2 ^ 47 ≠ k } }
        wcores := cs } }

theorem exec_packageUnreachable (hk : k ≠ s.pkg.pkgId) (hn : k ∉ s.pkg.unreachable) :
    ∃ cs n, exec (.packageUnreachable k) s = .next (s.cutOff k cs n) ∧
      ((∀ m ∈ s.part.teams, ∀ w ∈ m.windows, ∀ g ∈ w.granules, g.pa / 2 ^ 47 ≠ k) → cs = s.part.wcores) := by
  obtain ⟨cs, n, hs⟩ := s.undefineLost_coresOnly k
  refine ⟨cs, n, ?_, fun hnone => ?_⟩
  · show execPackageUnreachable k s = _
    simp [execPackageUnreachable, hk, hn, State.loseGranules_eq, hs, State.cutOff, State.modPkg, State.modPart, Window.without,
      Granule.lostWith, bne, Bool.beq_eq_decide_eq]
  · rw [State.undefineLost_none hnone] at hs
    exact (congrArg (fun t : State => t.part.wcores) hs).symm

theorem exec_packageUnreachable_idle (h : k = s.pkg.pkgId ∨ k ∈ s.pkg.unreachable) : exec (.packageUnreachable k) s = .next s := by
  show execPackageUnreachable k s = _
  simp [execPackageUnreachable, h]

theorem invalidated_resv {h : Hart} {l : Nat} (hl : (h.invalidated k).resv = some l) : l / 2 ^ 40 ≠ k := by
  unfold Hart.invalidated at hl
  cases hr : h.resv with
  | none => simp [hr] at hl
  | some m =>
    simp only [hr] at hl
    split at hl
    · cases hl
    · rename_i hne
      cases hl
      simpa using hne

/-- The lines of an unreachable package, the granules that hold them and the words under way to it are gone, and it is accessed no more. -/
theorem packageUnreachable_loses (hk : k ≠ s.pkg.pkgId) (hn : k ∉ s.pkg.unreachable) :
    ∃ t, exec (.packageUnreachable k) s = .next t ∧
      t.pkg = { s.pkg with unreachable := s.pkg.unreachable ++ [k] } ∧ t.mem = s.mem ∧ SameUsers s t ∧
      t.part = { s.part with
        priv := s.part.priv.filter fun b => b.pa / 2 ^ 47 ≠ k
        teams := s.part.teams.map fun m =>
          { m with windows := m.windows.map fun w => { w with granules := w.granules.filter fun g => g.pa / 2 ^ 47 ≠ k } }
        wcores := t.part.wcores } ∧
      ((∀ m ∈ s.part.teams, ∀ w ∈ m.windows, ∀ g ∈ w.granules, g.pa / 2 ^ 47 ≠ k) → t.part.wcores = s.part.wcores) ∧
      t.tail = s.tail.filter (fun x => x.place.package ≠ some k) ∧
      (∀ pa n, pa / 2 ^ 47 = k → t.physOk pa n = false) ∧
      ∀ h ∈ t.allHarts, ∀ l, h.resv = some l → l / 2 ^ 40 ≠ k := by
  obtain ⟨cs, n, hexec, hcores⟩ := exec_packageUnreachable hk hn
  have hharts : (s.cutOff k cs n).allHarts = s.allHarts.map (Hart.invalidated k) := rfl
  refine ⟨_, hexec, rfl, rfl, sameUsers_of_map (f := Hart.invalidated k) (fun _ => rfl) (fun _ => rfl) hharts, rfl, hcores,
    rfl, fun pa m hpa => ?_, ?_⟩
  · simp [State.physOk, State.cutOff, ← hpa]
  · intro h hh l hl
    rw [hharts] at hh
    obtain ⟨g, -, rfl⟩ := List.mem_map.1 hh
    exact invalidated_resv hl

end Unreachable

end Sys2Proof.Machine
end
section
/-! ## Requests on Trapeze (R81, R328, R329, R335) -/
namespace Sys2Proof.Machine
open Host (Outcome)

theorem mem_insertNew {α : Type} [BEq α] [LawfulBEq α] {a b : α} {l : List α} : b ∈ insertNew a l ↔ b ∈ l ∨ b = a := by
  unfold insertNew
  by_cases h : a ∈ l
  · simp only [List.contains_iff_mem, h, if_true]
    exact ⟨.inl, fun hb => hb.elim id fun he => he ▸ h⟩
  · simp [h]

theorem mem_foldl_insertNew {α β : Type} [BEq α] [LawfulBEq α] {f : β → α} {b : α} {l : List α} {ms : List β} :
    b ∈ ms.foldl (fun l m => insertNew (f m) l) l ↔ b ∈ l ∨ ∃ m ∈ ms, f m = b := by
  induction ms generalizing l with
  | nil => simp
  | cons m ms ih => simp [ih, mem_insertNew, or_assoc, eq_comm]

/-! ## Requests that are served -/

/-- The state with other sampled page counts. -/
def State.withCounts (s : State) (c : List (Nat × Nat)) : State := { s with part := { s.part with hotCounts := c } }

theorem State.sample_withCounts (s : State) (l : List Nat) : ∃ c, s.sample l = s.withCounts c := by
  unfold sample
  split <;> exact ⟨_, rfl⟩

/-- Serving a request is performing it, and the page counts move. -/
theorem State.trapezeServe_withCounts (s : State) (r : TrapezeReq) : ∃ c, s.trapezeServe r = (s.trapezePerform r).withCounts c := by
  unfold trapezeServe
  dsimp only
  split
  · exact ⟨_, rfl⟩
  · split
    · exact sample_withCounts _ _
    · exact ⟨_, rfl⟩

/-- The Trapeze ports are up, and no CHECKPOINT or RESTORE holds up the requests of the pair. -/
def Served (s : State) (pkg pid : Nat) : Prop := 6 ≤ s.pkg.bringUp ∧ ¬ (s.ownPair pkg pid = true ∧ s.part.netBusy = true)

variable {s : State} {pkg pid addr n : Nat} {r : TrapezeReq} {m : HostMsg}

theorem exec_trapezeRequest_early (h : s.pkg.bringUp < 6) : exec (.trapezeRequest r) s = .next s := if_pos h

theorem exec_trapezeRequest_held (h6 : 6 ≤ s.pkg.bringUp)
    (ho : s.ownPair (trapezeSpan r).1 (trapezeSpan r).2.1 = true ∧ s.part.netBusy = true) :
    exec (.trapezeRequest r) s = .next { s with part := { s.part with netReqs := s.part.netReqs ++ [r] } } := by
  show execTrapezeRequest r s = _
  unfold execTrapezeRequest
  rw [if_neg (by omega), if_pos (by simpa using ho)]
  rfl

theorem exec_trapezeRequest (h : Served s (trapezeSpan r).1 (trapezeSpan r).2.1) :
    ∃ c, exec (.trapezeRequest r) s = .next ((s.trapezePerform r).withCounts c) := by
  obtain ⟨c, hc⟩ := s.trapezeServe_withCounts r
  obtain ⟨h6, ho⟩ := h
  refine ⟨c, ?_⟩
  rw [← hc]
  show execTrapezeRequest r s = _
  unfold execTrapezeRequest
  rw [if_neg (by omega), if_neg (by simpa using ho)]

/-! ## Requests that change nothing -/

/-- Of the partition the page counts alone differ. -/
def CountsOnly (s t : State) : Prop := { t.part with hotCounts := s.part.hotCounts } = s.part

/-- Beside the package, the page counts alone differ. -/
def Stands (s t : State) : Prop := CountsOnly s t ∧ { t with pkg := s.pkg, part := s.part } = s

theorem Stands.refl (s : State) : Stands s s := ⟨rfl, rfl⟩

theorem Stands.modPkg {t : State} {f : Pkg → Pkg} : Stands s t → Stands s (t.modPkg f) := id

theorem Stands.withCounts {t : State} {c : List (Nat × Nat)} : Stands s t → Stands s (t.withCounts c) := id

/-- The request is answered with a message and changes nothing. -/
def Replies (s : State) (r : TrapezeReq) (m : HostMsg) : Prop :=
  ∃ t, exec (.trapezeRequest r) s = .next t ∧ t.pkg.hostOut = s.pkg.hostOut ++ [m] ∧ Stands s t ∧ t.pkg.remote = s.pkg.remote ∧
    t.pkg.held = s.pkg.held

theorem replies_of_perform (h : Served s (trapezeSpan r).1 (trapezeSpan r).2.1) (hp : s.trapezePerform r = s.send m) : Replies s r m := by
  obtain ⟨c, hc⟩ := exec_trapezeRequest h
  rw [hp] at hc
  exact ⟨_, hc, rfl, (Stands.refl s).modPkg.withCounts, rfl, rfl⟩

section Refused

variable {op : AmoOp} {red : BamoOp} {o : SyncOp} {dbl : Bool} {esz : BitVec 2} {v : BitVec 64} {bs : List Byte}

theorem read_faults (h : Served s pkg pid) (hf : s.trapezeOk pkg pid addr n = false ∨ s.poisoned addr n = true) :
    Replies s (.read pkg pid addr n) .trapezeFault ∧ Replies s (.lr pkg pid addr n) .trapezeFault := by
  have hno : ¬ (s.trapezeOk pkg pid addr n && !s.poisoned addr n) = true := by simpa [Classical.or_iff_not_imp_left] using hf
  exact ⟨replies_of_perform h (if_neg hno), replies_of_perform h (if_neg hno)⟩

theorem write_faults (h : Served s pkg pid) (hf : s.trapezeOk pkg pid addr bs.length = false) :
    Replies s (.write pkg pid addr bs) .trapezeFault ∧ Replies s (.sc pkg pid addr bs) .trapezeFault :=
  ⟨replies_of_perform h (if_neg (by simp [hf])), replies_of_perform h (if_pos (by simp [hf]))⟩

theorem sc_lost (h : Served s pkg pid) (ho : s.trapezeOk pkg pid addr bs.length = true) (hl : (addr / 128, pkg, pid) ∉ s.pkg.held) :
    Replies s (.sc pkg pid addr bs) .trapezeLost := by
  refine replies_of_perform h ?_
  simp [State.trapezePerform, trapezeSpan, ho, hl]

/-- An atomic update of n bytes may be performed. -/
def AtomicOk (s : State) (pkg pid addr n : Nat) : Prop := s.trapezeOk pkg pid addr n = true ∧ addr % n = 0 ∧ s.poisoned addr n = false

theorem atomicOk_iff : (s.trapezeOk pkg pid addr n && !s.poisoned addr n && addr % n == 0) = true ↔ AtomicOk s pkg pid addr n := by
  simp only [AtomicOk, Bool.and_eq_true, Bool.not_eq_true', beq_iff_eq]
  tauto

theorem amo_faults (h : Served s pkg pid) (hf : ¬ AtomicOk s pkg pid addr (if dbl then 8 else 4)) :
    Replies s (.amo pkg pid addr op dbl v) .trapezeFault :=
  replies_of_perform h (if_neg (mt atomicOk_iff.1 hf))

/-- A BAMO of n-byte elements may be performed: ADDF is for the floating-point formats alone (R184). -/
def BamoOk (s : State) (pkg pid addr n : Nat) (red : BamoOp) : Prop :=
  s.trapezeOk pkg pid addr n = true ∧ addr % n = 0 ∧ s.poisoned addr n = false ∧ (red = .addf → 4 ≤ n)

theorem bamoOk_iff :
    ((s.trapezeOk pkg pid addr n && !s.poisoned addr n && addr % n == 0) && (red != .addf || decide (4 ≤ n))) = true ↔
      BamoOk s pkg pid addr n red := by
  rw [Bool.and_eq_true, atomicOk_iff]
  simp [AtomicOk, BamoOk, Classical.or_iff_not_imp_left, and_assoc]

theorem bamo_faults (h : Served s pkg pid) (hf : ¬ BamoOk s pkg pid addr (2 ^ esz.toNat) red) :
    Replies s (.bamo pkg pid addr red esz v) .trapezeFault :=
  replies_of_perform h (if_neg (mt bamoOk_iff.1 hf))

theorem sync_faults (h : Served s pkg pid) (hf : ¬ AtomicOk s pkg pid addr 32) : Replies s (.sync pkg pid addr o) .trapezeFault :=
  replies_of_perform h (if_neg (mt atomicOk_iff.1 hf))

theorem probe_noCopy (h : Served s pkg pid) (hl : s.holdsLine pkg pid (addr / 128) = false) :
    Replies s (.probe pkg pid addr) .trapezeNoCopy :=
  replies_of_perform h (if_neg (by simp [hl]))

end Refused

/-! ## Reads -/

/-- The line is one of those of n bytes. -/
def LineWithin (addr l n : Nat) : Prop := addr / 128 ≤ l ∧ l ≤ (addr + n - 1) / 128

theorem mem_linesOf {l : Nat} : l ∈ linesOf addr n ↔ LineWithin addr l n := by
  simp only [linesOf, LineWithin, List.mem_map, List.mem_range]
  constructor
  · rintro ⟨i, hi, rfl⟩
    omega
  · rintro ⟨h1, h2⟩
    exact ⟨l - addr / 128, by omega, by omega⟩

theorem mem_noteRemote {l : Nat} (h : LineWithin addr l n) :
    (l, pkg / 8) ∈ (linesOf addr n).foldl (fun l m => insertNew (m, pkg / 8) l) s.pkg.remote :=
  (mem_foldl_insertNew (f := fun l => (l, pkg / 8))).2 (.inr ⟨l, mem_linesOf.2 h, rfl⟩)

theorem mem_noteHeld {x : Nat × Nat × Nat} : x ∈ (s.noteHeld addr pkg pid).pkg.held ↔ x ∈ s.pkg.held ∨ x = (addr / 128, pkg, pid) := by
  by_cases hx : x = (addr / 128, pkg, pid) <;> simp [State.noteHeld, hx]

/-- The request is answered with its bytes, its lines noted for the package's group, and with the reservation that held names. -/
def AnswersRead (s : State) (pkg addr n : Nat) (r : TrapezeReq) (held : Nat × Nat × Nat → Prop) : Prop :=
  ∃ t, exec (.trapezeRequest r) s = .next t ∧ t.pkg.hostOut = s.pkg.hostOut ++ [.trapezeData (s.bytes addr n)] ∧
    (∀ l, LineWithin addr l n → (l, pkg / 8) ∈ t.pkg.remote) ∧ Stands s t ∧ ∀ x, x ∈ t.pkg.held ↔ x ∈ s.pkg.held ∨ held x

theorem read_answers (h : Served s pkg pid) (ho : s.trapezeOk pkg pid addr n = true) (hp : s.poisoned addr n = false) :
    AnswersRead s pkg addr n (.read pkg pid addr n) (fun _ => False) ∧
    AnswersRead s pkg addr n (.lr pkg pid addr n) fun x => x = (addr / 128, pkg, pid) := by
  have hreads : (s.trapezeOk pkg pid addr n && !s.poisoned addr n) = true := by simp [ho, hp]
  constructor
  · have he : s.trapezePerform (.read pkg pid addr n) = (s.noteRemote addr n pkg).send (.trapezeData (s.bytes addr n)) := if_pos hreads
    obtain ⟨c, hc⟩ := exec_trapezeRequest (r := .read pkg pid addr n) h
    rw [he] at hc
    exact ⟨_, hc, rfl, fun l hl => mem_noteRemote (s := s) hl, (Stands.refl s).modPkg.modPkg.withCounts, fun x => (or_iff_left id).symm⟩
  · have he : s.trapezePerform (.lr pkg pid addr n) =
        ((s.noteRemote addr n pkg).noteHeld addr pkg pid).send (.trapezeData (s.bytes addr n)) := if_pos hreads
    obtain ⟨c, hc⟩ := exec_trapezeRequest (r := .lr pkg pid addr n) h
    rw [he] at hc
    exact ⟨_, hc, rfl, fun l hl => mem_noteRemote (s := s) hl, (Stands.refl s).modPkg.modPkg.modPkg.withCounts,
      fun x => mem_noteHeld⟩

/-! ## Writes -/

theorem touched_resv {pa len l : Nat} {h : Hart} (hr : (touched pa len h).resv = some l) : ¬ LineWithin pa l len := by
  unfold touched at hr
  cases hh : h.resv with
  | none => simp [hh] at hr
  | some k =>
    simp only [hh] at hr
    split at hr
    · cases hr
    · rename_i hno
      cases hr
      simpa [LineWithin] using hno

/-- The probes of a write of len bytes: to the packages of each group that may hold one of its lines. -/
def probesOf (s : State) (pkg pid pa len : Nat) : List HostMsg :=
  (s.pkg.remote.filter fun e => pa / 128 ≤ e.1 && e.1 ≤ (pa + len - 1) / 128).flatMap fun e =>
    (List.range 8).map fun i => .trapezeProbe (8 * e.2 + i) pkg pid e.1

theorem mem_probesOf {pa len : Nat} {q : HostMsg} (h : q ∈ probesOf s pkg pid pa len) :
    ∃ k l, q = .trapezeProbe k pkg pid l ∧ (l, k / 8) ∈ s.pkg.remote := by
  simp only [probesOf, List.mem_flatMap, List.mem_map, List.mem_range, List.mem_filter] at h
  obtain ⟨e, ⟨he, -⟩, i, hi, rfl⟩ := h
  refine ⟨_, _, rfl, ?_⟩
  rwa [show (8 * e.2 + i) / 8 = e.2 by omega]

/-- The request writes its bytes and is answered with a message: the copies of the lines elsewhere are probed, reservations on them end. -/
def WritesFor (s : State) (pkg pid addr : Nat) (r : TrapezeReq) (bs : List Byte) (m : HostMsg) : Prop :=
  ∃ t p, exec (.trapezeRequest r) s = .next t ∧ t.pkg.hostOut = s.pkg.hostOut ++ p ++ [m] ∧
    (∀ q ∈ p, ∃ k l, q = .trapezeProbe k pkg pid l ∧ (l, k / 8) ∈ s.pkg.remote) ∧ t.bytes addr bs.length = bs ∧
    (∀ a, a < addr ∨ addr + bs.length ≤ a → t.byte a = s.byte a) ∧ SameUsers s t ∧ CountsOnly s t ∧
    (∀ h ∈ t.allHarts, ∀ l, h.resv = some l → ¬ LineWithin addr l bs.length) ∧
    ∀ x, x ∈ t.pkg.held ↔ x ∈ s.pkg.held ∧ ¬ LineWithin addr x.1 bs.length

/-- The state with f applied to every hart, of which it leaves the name and the user state. -/
def Woken (s u : State) : Prop :=
  ∃ f : Hart → Hart, (∀ h, (f h).id = h.id) ∧ (∀ h, (f h).u = h.u) ∧ u = { s with hart := f s.hart, harts := s.harts.map f }

theorem Woken.refl (s : State) : Woken s s := ⟨id, fun _ => rfl, fun _ => rfl, by simp⟩

/-- The state with another record of the copies that other packages may hold. -/
def State.withRemote (s : State) (l : List (Nat × Nat)) : State := s.modPkg fun k => { k with remote := l }

theorem writesFor_of_perform {u : State} {bs : List Byte} {l : List (Nat × Nat)} (h : Served s (trapezeSpan r).1 (trapezeSpan r).2.1)
    (hi : s.Inv) (hpo : s.poison = []) (hu : Woken s u)
    (hp : s.trapezePerform r = ((u.remoteWrite pkg pid addr bs).withRemote l).send m) : WritesFor s pkg pid addr r bs m := by
  obtain ⟨c, hc⟩ := exec_trapezeRequest h
  obtain ⟨f, hid, hf, rfl⟩ := hu
  let u : State := { s with hart := f s.hart, harts := s.harts.map f }
  have hraw : u.rawWrite addr bs = { u with mem := sparseSets 0#8 s.mem addr bs } := State.rawWrite_of_clean hpo
  rw [hp, State.remoteWrite, hraw] at hc
  refine ⟨_, probesOf s pkg pid addr bs.length, hc, rfl, fun q hq => mem_probesOf hq, sparseGets_sets hi,
    fun a ha => sparseGet_sets_outside ha, sameUsers_of_map (f := fun h => touched addr bs.length (f h)) hid hf ?_, rfl, ?_, ?_⟩
  · exact congrArg (_ :: ·) (List.map_map ..)
  · intro g hg
    rcases List.mem_cons.1 hg with rfl | hg
    · exact fun l hl => touched_resv hl
    · obtain ⟨h, -, rfl⟩ := List.mem_map.1 hg
      exact fun l hl => touched_resv hl
  · intro x
    show x ∈ s.pkg.held.filter _ ↔ _
    simp [LineWithin, -not_and, not_and_or]

section Performed

variable {op : AmoOp} {red : BamoOp} {dbl : Bool} {esz : BitVec 2} {v : BitVec 64} {bs : List Byte}

theorem write_writes (h : Served s pkg pid) (hi : s.Inv) (hpo : s.poison = []) (ho : s.trapezeOk pkg pid addr bs.length = true) :
    WritesFor s pkg pid addr (.write pkg pid addr bs) bs .trapezeDone :=
  writesFor_of_perform h hi hpo (.refl s) (if_pos ho)

theorem sc_writes (h : Served s pkg pid) (hi : s.Inv) (hpo : s.poison = []) (ho : s.trapezeOk pkg pid addr bs.length = true)
    (hl : (addr / 128, pkg, pid) ∈ s.pkg.held) : WritesFor s pkg pid addr (.sc pkg pid addr bs) bs .trapezeDone := by
  refine writesFor_of_perform (u := s) (l := (s.remoteWrite pkg pid addr bs).pkg.remote) h hi hpo (.refl s) ?_
  simp [State.trapezePerform, trapezeSpan, ho, hl]
  rfl

theorem amo_writes (h : Served s pkg pid) (hi : s.Inv) (hpo : s.poison = []) (ho : AtomicOk s pkg pid addr (if dbl then 8 else 4)) :
    let n := if dbl then 8 else 4
    WritesFor s pkg pid addr (.amo pkg pid addr op dbl v) (natLe n (amoOf op n (s.memNat addr n) (v.toNat % 2 ^ (8 * n))))
      (.trapezeData (s.bytes addr n)) :=
  writesFor_of_perform h hi hpo (.refl s) (if_pos (atomicOk_iff.2 ho))

/-- What a BAMO makes of the old value and its operand. -/
def bamoNew (red : BamoOp) (n old w : Nat) : Nat :=
  match red with
  | .add => (old + w) % 2 ^ (8 * n)
  | .min => if signedOf n w < signedOf n old then w else old
  | .max => if signedOf n old < signedOf n w then w else old
  | .addf =>
    if n = 4 then (fpAdd fp32 .rne false (unpack fp32 old) (unpack fp32 w)).bits
    else (fpAdd fp64 .rne false (unpack fp64 old) (unpack fp64 w)).bits

theorem bamoOf_bamoKind (red : BamoOp) (n old w : Nat) : bamoOf (bamoKind red) n old w = bamoNew red n old w := by cases red <;> rfl

theorem bamo_writes (h : Served s pkg pid) (hi : s.Inv) (hpo : s.poison = [])
    (ho : BamoOk s pkg pid addr (2 ^ esz.toNat) red) :
    let n := 2 ^ esz.toNat
    WritesFor s pkg pid addr (.bamo pkg pid addr red esz v) (natLe n (bamoNew red n (s.memNat addr n) (v.toNat % 2 ^ (8 * n))))
      (.trapezeData (s.bytes addr n)) := by
  intro n
  rw [← bamoOf_bamoKind]
  exact writesFor_of_perform h hi hpo (.refl s) (if_pos (bamoOk_iff.2 ho))

/-- The four words of a sync object as bytes. -/
def wordsLe (w : Word × Word × Word × Word) : List Byte :=
  natLe 8 w.1.toNat ++ natLe 8 w.2.1.toNat ++ natLe 8 w.2.2.1.toNat ++ natLe 8 w.2.2.2.toNat

theorem wakeOne_id (s : State) (pa : Nat) (h : Hart) : (s.wakeOne pa h).id = h.id := by
  unfold State.wakeOne
  split
  · split <;> rfl
  · rfl

theorem wakeOne_u (s : State) (pa : Nat) (h : Hart) : (s.wakeOne pa h).u = h.u := by
  unfold State.wakeOne
  split
  · split <;> rfl
  · rfl

theorem sync_writes {o : SyncOp} (h : Served s pkg pid) (hi : s.Inv) (hpo : s.poison = []) (ho : AtomicOk s pkg pid addr 32) :
    WritesFor s pkg pid addr (.sync pkg pid addr o)
      (wordsLe (syncWords o (s.objWord addr 0, s.objWord addr 1, s.objWord addr 2, s.objWord addr 3)))
      (.trapezeData (s.bytes addr 32)) := by
  have hok := atomicOk_iff.2 ho
  cases o with
  | init n =>
    exact writesFor_of_perform h hi hpo ⟨s.wakeOne addr, wakeOne_id s addr, wakeOne_u s addr, rfl⟩ (if_pos hok)
  | release => exact writesFor_of_perform h hi hpo (.refl s) (if_pos hok)
  | arrive n => exact writesFor_of_perform h hi hpo (.refl s) (if_pos hok)
  | publish fin => exact writesFor_of_perform h hi hpo (.refl s) (if_pos hok)

end Performed

/-! ## Probes -/

theorem probe_drops (h : Served s pkg pid) (hl : s.holdsLine pkg pid (addr / 128) = true) :
    ∃ t, exec (.trapezeRequest (.probe pkg pid addr)) s = .next t ∧ t.pkg.hostOut = s.pkg.hostOut ++ [.trapezeDone] ∧ SameUsers s t ∧
      t.mem = s.mem ∧ CountsOnly s t ∧ ∀ h ∈ t.allHarts, h.resv ≠ some (addr / 128) := by
  have he : s.trapezePerform (.probe pkg pid addr) =
      ({ s with hart := touched addr 1 s.hart, harts := s.harts.map (touched addr 1) } : State).send .trapezeDone := if_pos hl
  obtain ⟨c, hc⟩ := exec_trapezeRequest (r := .probe pkg pid addr) h
  rw [he] at hc
  refine ⟨_, hc, rfl, sameUsers_of_map (f := touched addr 1) (fun _ => rfl) (fun _ => rfl) rfl, rfl, rfl, ?_⟩
  intro g hg hr
  obtain ⟨x, -, rfl⟩ := List.mem_map.1 (show g ∈ s.allHarts.map (touched addr 1) from hg)
  exact touched_resv hr ⟨le_refl _, by simp⟩

/-! ## L2_POWER_GATING (R82) -/

theorem l2PowerGating_gates {die slice : Nat} {gate : Bool} (h : die < 6 ∧ slice < 256) :
    ∃ t, exec (.l2PowerGating die slice gate) s = .next t ∧ ((die, slice) ∈ t.pkg.gated ↔ gate = true) ∧
      { t with pkg := { t.pkg with gated := s.pkg.gated } } = s := by
  refine ⟨_, if_neg (by simp; omega), ?_, rfl⟩
  cases gate <;> simp

theorem exec_l2PowerGating_outside {die slice : Nat} {gate : Bool} (h : ¬ (die < 6 ∧ slice < 256)) :
    exec (.l2PowerGating die slice gate) s = .next s :=
  if_pos (by simp; omega)

end Sys2Proof.Machine
end
section
/-! ## The Press self-test (R355) -/
namespace Sys2Proof.Machine
open Host (Outcome)

/-! ## The test of one W-core -/

section SelfTest

variable {w : Nat} {faults : List Nat}

/-- The rows that fail are appended: those remapped before keep their spares. -/
theorem selfTest_prefix (fuel : Nat) (m : List Nat) : m <+: selfTest w faults fuel m := by
  induction fuel generalizing m with
  | zero => exact List.prefix_refl m
  | succ fuel ih =>
    unfold selfTest
    split
    · exact List.prefix_refl m
    · split
      · exact List.prefix_refl m
      · exact (List.prefix_append m _).trans (ih _)

/-- A test on whose map no row fails changes nothing. -/
theorem selfTest_of_passes {fuel : Nat} {m : List Nat} (h : ∀ r, r < 256 → ¬ rowDiffers w faults m r = true) :
    selfTest w faults fuel m = m := by
  have hnone : ((List.range 256).filter fun r => rowDiffers w faults m r) = [] :=
    List.filter_eq_nil_iff.2 fun r hr => h r (List.mem_range.1 hr)
  cases fuel with
  | zero => rfl
  | succ fuel =>
    unfold selfTest
    rw [hnone]
    split <;> rfl

/-- Each round takes a spare: with fuel for nine the map passes, or it needs more than the eight spares. -/
theorem selfTest_passes_or_long {fuel : Nat} {m : List Nat} (h : 9 ≤ fuel + m.length) :
    8 < (selfTest w faults fuel m).length ∨ ∀ r, r < 256 → ¬ rowDiffers w faults (selfTest w faults fuel m) r = true := by
  induction fuel generalizing m with
  | zero => exact .inl (by rw [selfTest]; omega)
  | succ fuel ih =>
    unfold selfTest
    split
    · exact .inl ‹_›
    · split
      · rename_i hnone
        exact .inr fun r hr => List.filter_eq_nil_iff.1 hnone r (List.mem_range.2 hr)
      · rename_i hne
        have hlen := mt List.length_eq_zero_iff.1 hne
        exact ih (by rw [List.length_append]; omega)

end SelfTest

/-- A row map in force after some more tests: the rows that had a spare keep it, and no more than the eight spares are in use. -/
def Regrown (old new : List Nat) : Prop := old.take 8 <+: new ∧ new.length ≤ 8

theorem Regrown.trans {a b c : List Nat} (hab : Regrown a b) (hbc : Regrown b c) : Regrown a c := by
  obtain ⟨hb, hlen⟩ := hab
  obtain ⟨hc, hlen'⟩ := hbc
  rw [List.take_of_length_le hlen] at hc
  exact ⟨hb.trans hc, hlen'⟩

/-- The row map of a W-core. -/
def State.rowsOf (s : State) (w : Nat) : List Nat := sparseGet [] s.pkg.lifetime.rowMap w

section TestPress

variable {s : State} {w : Nat} {bad : List Nat}

/-- What the test of a W-core finds. -/
def State.tested (s : State) (w : Nat) (bad : List Nat) : List Nat := selfTest w (s.faultsOf w bad) 9 (s.rowsOf w)

theorem rowsOf_testPress (h : sparseWf [] s.pkg.lifetime.rowMap = true) : (s.testPress w bad).rowsOf w = (s.tested w bad).take 8 :=
  sparseGet_set_same h

theorem rowsOf_testPress_other {v : Nat} (hv : v ≠ w) : (s.testPress w bad).rowsOf v = s.rowsOf v := sparseGet_set_other hv

theorem testPress_regrown (h : sparseWf [] s.pkg.lifetime.rowMap = true) : Regrown (s.rowsOf w) ((s.testPress w bad).rowsOf w) := by
  rw [rowsOf_testPress h]
  exact ⟨(selfTest_prefix 9 _).take 8, List.length_take_le ..⟩

theorem testPress_passes (h : sparseWf [] s.pkg.lifetime.rowMap = true) :
    w ∈ (s.testPress w bad).pkg.leftOut ∨ ∀ r, r < 256 → ¬ rowDiffers w (s.faultsOf w bad) ((s.testPress w bad).rowsOf w) r = true := by
  rw [rowsOf_testPress h]
  by_cases hlen : 8 < (s.tested w bad).length
  · left
    show w ∈ if 8 < (s.tested w bad).length then insertNew w s.pkg.leftOut else s.pkg.leftOut
    rw [if_pos hlen]
    exact mem_insertNew.2 (.inr rfl)
  · right
    rw [List.take_of_length_le (by omega)]
    exact (selfTest_passes_or_long (by omega)).resolve_left hlen

theorem testPress_unchanged (h : sparseWf [] s.pkg.lifetime.rowMap = true) (hlen : (s.rowsOf w).length ≤ 8)
    (hp : ∀ r, r < 256 → ¬ rowDiffers w (s.faultsOf w bad) (s.rowsOf w) r = true) :
    (s.testPress w bad).rowsOf w = s.rowsOf w ∧ (s.testPress w bad).pkg.leftOut = s.pkg.leftOut := by
  have ht : s.tested w bad = s.rowsOf w := selfTest_of_passes hp
  refine ⟨by rw [rowsOf_testPress h, ht, List.take_of_length_le hlen], ?_⟩
  show (if 8 < (s.tested w bad).length then insertNew w s.pkg.leftOut else s.pkg.leftOut) = _
  rw [if_neg (by rw [ht]; omega)]

theorem mem_leftOut_testPress {v : Nat} (h : v ∈ (s.testPress w bad).pkg.leftOut) : v ∈ s.pkg.leftOut ∨ v = w := by
  change v ∈ (if 8 < (s.tested w bad).length then insertNew w s.pkg.leftOut else s.pkg.leftOut) at h
  split at h
  · exact mem_insertNew.1 h
  · exact .inl h

theorem leftOut_testPress_mono {v : Nat} (h : v ∈ s.pkg.leftOut) : v ∈ (s.testPress w bad).pkg.leftOut := by
  show v ∈ if 8 < (s.tested w bad).length then insertNew w s.pkg.leftOut else s.pkg.leftOut
  split
  · exact mem_insertNew.2 (.inl h)
  · exact h

theorem mem_faultsOf {p : Nat} : p ∈ s.faultsOf w bad ↔ p ∈ sparseGet [] s.pkg.faults w ∨ p ∈ bad := by
  simpa [State.faultsOf] using mem_foldl_insertNew (f := id) (b := p) (l := sparseGet [] s.pkg.faults w) (ms := bad)

end TestPress

/-! ## RECOVERY_SCRUB (R352, R355) -/

section Scrub

variable {s : State} {w : Nat} {bad : List Nat}

theorem exec_recoveryScrub (h7 : s.pkg.bringUp = 7) (hw : w < 256) (hn : w ∉ s.part.wcoreNums) (hc : s.clockStopped w = false) :
    exec (.recoveryScrub w bad) s = .next (s.testPress w bad) :=
  if_neg (by simp [h7, hn, hc]; omega)

theorem exec_recoveryScrub_idle (h : s.pkg.bringUp ≠ 7 ∨ 256 ≤ w ∨ w ∈ s.part.wcoreNums ∨ s.clockStopped w = true) :
    exec (.recoveryScrub w bad) s = .next s :=
  if_pos (by simpa [or_assoc] using h)

/-- The scrub takes spares for the rows that differ until none does, or leaves the W-core out. -/
theorem recoveryScrub_tests (h7 : s.pkg.bringUp = 7) (hw : w < 256) (hn : w ∉ s.part.wcoreNums) (hc : s.clockStopped w = false)
    (hm : sparseWf [] s.pkg.lifetime.rowMap = true) (hf : sparseWf [] s.pkg.faults = true) :
    ∃ t, exec (.recoveryScrub w bad) s = .next t ∧
      (∀ p, p ∈ sparseGet [] t.pkg.faults w ↔ p ∈ sparseGet [] s.pkg.faults w ∨ p ∈ bad) ∧
      ((s.rowsOf w).take 8 <+: t.rowsOf w ∧ (t.rowsOf w).length ≤ 8 ∧
        (w ∈ t.pkg.leftOut ∨ ∀ r, r < 256 → ¬ rowDiffers w (sparseGet [] t.pkg.faults w) (t.rowsOf w) r = true) ∧
        ((s.rowsOf w).length ≤ 8 → (∀ r, r < 256 → ¬ rowDiffers w (sparseGet [] t.pkg.faults w) (s.rowsOf w) r = true) →
          t.rowsOf w = s.rowsOf w ∧ t.pkg.leftOut = s.pkg.leftOut)) ∧
      (∀ v, v ≠ w → t.rowsOf v = s.rowsOf v ∧ (v ∈ t.pkg.leftOut ↔ v ∈ s.pkg.leftOut)) ∧ (w ∈ s.pkg.leftOut → w ∈ t.pkg.leftOut) ∧
      t.pkg.lifetime.remaps = s.pkg.lifetime.remaps ++
        ((t.rowsOf w).drop (s.rowsOf w).length).map (fun row => (w, row, s.pkg.zaclk.toNat, s.pkg.lifetime.hours)) ∧
      { t with pkg := { t.pkg with
        faults := s.pkg.faults, leftOut := s.pkg.leftOut
        lifetime := { t.pkg.lifetime with rowMap := s.pkg.lifetime.rowMap, remaps := s.pkg.lifetime.remaps } } } = s := by
  have hfaults : sparseGet [] (s.testPress w bad).pkg.faults w = s.faultsOf w bad := sparseGet_set_same hf
  obtain ⟨hprefix, hlen⟩ := testPress_regrown (bad := bad) (w := w) hm
  refine ⟨_, exec_recoveryScrub h7 hw hn hc, ?_, ⟨hprefix, hlen, ?_, ?_⟩, fun v hv => ⟨rowsOf_testPress_other hv, ?_⟩,
    leftOut_testPress_mono, ?_, rfl⟩
  · rw [hfaults]
    exact fun p => mem_faultsOf
  · rw [hfaults]
    exact testPress_passes hm
  · rw [hfaults]
    exact testPress_unchanged hm
  · exact ⟨fun h => (mem_leftOut_testPress h).resolve_right hv, leftOut_testPress_mono⟩
  · rw [rowsOf_testPress hm]
    rfl

end Scrub

/-! ## The tests of a bring-up -/

/-- The self-test run on W-cores in turn. -/
def State.testAll (s : State) (bad : Nat → List Nat) (l : List Nat) : State := l.foldl (fun t w => t.testPress w (bad w)) s

/-- Only what a self-test writes differs: faults, W-cores left out, row maps and remaps. -/
def TestedOnly (s t : State) : Prop :=
  ∃ fs out rows remaps,
    t = { s with pkg := { s.pkg with faults := fs, leftOut := out, lifetime := { s.pkg.lifetime with rowMap := rows, remaps := remaps } } }

theorem TestedOnly.trans {a b c : State} : TestedOnly a b → TestedOnly b c → TestedOnly a c := by
  rintro ⟨_, _, _, _, rfl⟩ ⟨fs, out, rows, remaps, rfl⟩
  exact ⟨fs, out, rows, remaps, rfl⟩

theorem testAll_testedOnly (s : State) (bad : Nat → List Nat) (l : List Nat) : TestedOnly s (s.testAll bad l) :=
  List.foldlRecOn l _ ⟨_, _, _, _, rfl⟩ fun _ ht _ _ => ht.trans ⟨_, _, _, _, rfl⟩

theorem testAll_rows {s : State} {bad : Nat → List Nat} {l : List Nat} (h : sparseWf [] s.pkg.lifetime.rowMap = true) (v : Nat) :
    (v ∈ l → Regrown (s.rowsOf v) ((s.testAll bad l).rowsOf v)) ∧ (v ∉ l → (s.testAll bad l).rowsOf v = s.rowsOf v) := by
  induction l generalizing s with
  | nil => exact ⟨nofun, fun _ => rfl⟩
  | cons w l ih =>
    obtain ⟨hin, hout⟩ := ih (s := s.testPress w (bad w)) (sparseWf_set h)
    show (v ∈ w :: l → Regrown _ (((s.testPress w (bad w)).testAll bad l).rowsOf v)) ∧
      (v ∉ w :: l → ((s.testPress w (bad w)).testAll bad l).rowsOf v = _)
    by_cases hv : v = w
    · subst hv
      refine ⟨fun _ => ?_, fun hno => absurd (List.mem_cons_self ..) hno⟩
      have hgrown : Regrown (s.rowsOf v) ((s.testPress v (bad v)).rowsOf v) := testPress_regrown h
      by_cases hl : v ∈ l
      · exact hgrown.trans (hin hl)
      · rwa [hout hl]
    · rw [rowsOf_testPress_other hv] at hin hout
      exact ⟨fun hm => hin ((List.mem_cons.1 hm).resolve_left hv), fun hm => hout (mt (List.mem_cons_of_mem w) hm)⟩

end Sys2Proof.Machine
end
section
/-! ## Bring-up (R340, R351) -/
namespace Sys2Proof.Machine
open Host (Outcome)

/-! ## Secure boot -/

/-- Every stage of the firmware verifies and is not too old, and the first is signed with the fused key. -/
def SecureBoot (s : State) : Prop :=
  (∀ g, s.pkg.stages.head? = some g → sha384 g.key = Config.fusedKeyHash) ∧
    ∀ g ∈ s.pkg.stages, Config.minVersion ≤ g.version ∧ ecdsaVerify g.key g.image g.sig = true

theorem all_and_iff {α : Type} {l : List α} {p : α → Prop} [DecidablePred p] {q : α → Bool} :
    (l.all fun a => decide (p a) && q a) = true ↔ ∀ a ∈ l, p a ∧ q a = true := by simp

theorem bootOk_iff {s : State} : s.bootOk = true ↔ SecureBoot s := by
  unfold State.bootOk SecureBoot
  rw [Bool.and_eq_true]
  refine and_congr ?_ all_and_iff
  cases s.pkg.stages with
  | nil => exact ⟨fun _ g hg => absurd hg.symm (Option.some_ne_none g), fun _ => rfl⟩
  | cons g l => simp only [beq_iff_eq, List.head?_cons, Option.some.injEq, forall_eq']

/-! ## The steps -/

section Steps

variable {s : State} {i n : Nat}

theorem bringUpTo_succ : s.bringUpTo (n + 1) = (s.bringUpTo n).bringUpStep (n + 1) := by
  simp only [State.bringUpTo, List.range_succ (n := n + 1), List.foldl_append, List.foldl_cons, List.foldl_nil]

/-- What every step up to n keeps is kept. -/
theorem bringUpTo_keeps {α : Type} {φ : State → α} (h : ∀ t i, i ≤ n → φ (t.bringUpStep i) = φ t) : φ (s.bringUpTo n) = φ s := by
  induction n with
  | zero => exact h s 0 (le_refl 0)
  | succ n ih =>
    rw [bringUpTo_succ, h _ _ (le_refl _)]
    exact ih fun t i hi => h t i (by omega)

/-- What step k establishes and the later ones keep holds after them. -/
theorem bringUpTo_since {p : State → Prop} {k : Nat} (hk : k ≤ n) (h : p (s.bringUpTo k))
    (hkeep : ∀ t i, k < i → p t → p (t.bringUpStep i)) :
    p (s.bringUpTo n) := by
  induction n, hk using Nat.le_induction with
  | base => exact h
  | succ n hkn ih =>
    rw [bringUpTo_succ]
    exact hkeep _ _ (by omega) ih

/-- The fourth step tests every W-core. -/
theorem bringUpStep_four (s : State) :
    s.bringUpStep 4 = ({ s with freeCount := s.freeCount + 1 } : State).testAll (Config.badRows s.freeCount) (List.range 256) := rfl

theorem bringUpStep_four_only (s : State) : TestedOnly { s with freeCount := s.freeCount + 1 } (s.bringUpStep 4) := by
  rw [bringUpStep_four]
  exact testAll_testedOnly ..

/-- What step i of bring-up does to the fields of which bring-up is asked. -/
structure StepDoes (i : Nat) (s t : State) : Prop where
  zaclk : t.pkg.zaclk = if i = 0 then 0 else s.pkg.zaclk
  hostOut : t.pkg.hostOut = s.pkg.hostOut
  failures : t.pkg.lifetime.bringUpFailures = s.pkg.lifetime.bringUpFailures
  mem : t.mem = if i = 3 then [] else s.mem
  poison : t.poison = if i = 3 then [] else s.poison
  rows : i ≠ 4 → t.pkg.lifetime.rowMap = s.pkg.lifetime.rowMap
  part : t.part = if i = 5 then Part.init else s.part
  harts : t.allHarts = if i = 5 then [Hart.init (.lcore 0)] else s.allHarts
  pkgId : t.pkg.pkgId = if i = 6 then Config.freeNat s.freeCount % 320 else s.pkg.pkgId

theorem bringUpStep_does (s : State) (i : Nat) : StepDoes i s (s.bringUpStep i) := by
  by_cases h4 : i = 4
  · subst h4
    obtain ⟨_, _, _, _, he⟩ := bringUpStep_four_only s
    rw [he]
    exact ⟨rfl, rfl, rfl, rfl, rfl, nofun, rfl, rfl, rfl⟩
  · unfold State.bringUpStep
    split
    · exact ⟨rfl, rfl, rfl, rfl, rfl, fun _ => rfl, rfl, rfl, rfl⟩
    · exact ⟨rfl, rfl, rfl, rfl, rfl, fun _ => rfl, rfl, rfl, rfl⟩
    · exact ⟨rfl, rfl, rfl, rfl, rfl, fun _ => rfl, rfl, rfl, rfl⟩
    · exact absurd rfl h4
    · exact ⟨rfl, rfl, rfl, rfl, rfl, fun _ => rfl, rfl, rfl, rfl⟩
    · exact ⟨rfl, rfl, rfl, rfl, rfl, fun _ => rfl, rfl, rfl, rfl⟩
    · rename_i h0 _ h3 _ h5 h6
      exact ⟨(if_neg h0).symm, rfl, rfl, (if_neg h3).symm, (if_neg h3).symm, fun _ => rfl, (if_neg h5).symm, (if_neg h5).symm,
        (if_neg h6).symm⟩

end Steps

end Sys2Proof.Machine
end
section
/-! ## How far a bring-up goes (R340, R351) -/
namespace Sys2Proof.Machine
open Host (Outcome)

section Reach

variable {s : State} {n : Nat}

theorem bringUpTo_zaclk : (s.bringUpTo n).pkg.zaclk = 0 :=
  bringUpTo_since (p := fun t => t.pkg.zaclk = 0) (Nat.zero_le n) rfl fun t i _ h => by
    rw [(bringUpStep_does t i).zaclk]
    split
    · rfl
    · exact h

theorem bringUpTo_hostOut : (s.bringUpTo n).pkg.hostOut = s.pkg.hostOut :=
  bringUpTo_keeps (φ := fun t => t.pkg.hostOut) fun t i _ => (bringUpStep_does t i).hostOut

theorem bringUpTo_failures : (s.bringUpTo n).pkg.lifetime.bringUpFailures = s.pkg.lifetime.bringUpFailures :=
  bringUpTo_keeps (φ := fun t => t.pkg.lifetime.bringUpFailures) fun t i _ => (bringUpStep_does t i).failures

theorem bringUpTo_memory (h : n < 3) : (s.bringUpTo n).mem = s.mem ∧ (s.bringUpTo n).poison = s.poison :=
  ⟨bringUpTo_keeps (φ := State.mem) fun t i hi => (bringUpStep_does t i).mem.trans (if_neg (by omega)),
    bringUpTo_keeps (φ := State.poison) fun t i hi => (bringUpStep_does t i).poison.trans (if_neg (by omega))⟩

/-- The third step leaves memory zero. -/
theorem bringUpTo_cleared (h : 3 ≤ n) : (s.bringUpTo n).mem = [] ∧ (s.bringUpTo n).poison = [] :=
  bringUpTo_since (p := fun t => t.mem = [] ∧ t.poison = []) h
    (by rw [bringUpTo_succ]; exact ⟨(bringUpStep_does _ 3).mem, (bringUpStep_does _ 3).poison⟩)
    fun t i hi ht => by
      rw [(bringUpStep_does t i).mem, (bringUpStep_does t i).poison, if_neg (by omega), if_neg (by omega)]
      exact ht

theorem bringUpTo_rowMap (h : n < 4) : (s.bringUpTo n).pkg.lifetime.rowMap = s.pkg.lifetime.rowMap :=
  bringUpTo_keeps (φ := fun t => t.pkg.lifetime.rowMap) fun t i hi => (bringUpStep_does t i).rows (by omega)

theorem bringUpTo_partition (h : n < 5) : (s.bringUpTo n).part = s.part ∧ (s.bringUpTo n).allHarts = s.allHarts :=
  ⟨bringUpTo_keeps (φ := State.part) fun t i hi => (bringUpStep_does t i).part.trans (if_neg (by omega)),
    bringUpTo_keeps (φ := State.allHarts) fun t i hi => (bringUpStep_does t i).harts.trans (if_neg (by omega))⟩

/-- The fifth step leaves no partition. -/
theorem bringUpTo_initialised (h : 5 ≤ n) :
    (s.bringUpTo n).part = State.reset.part ∧ (s.bringUpTo n).allHarts = State.reset.allHarts :=
  bringUpTo_since (p := fun t => t.part = Part.init ∧ t.allHarts = [Hart.init (.lcore 0)]) h
    (by rw [bringUpTo_succ]; exact ⟨(bringUpStep_does _ 5).part, (bringUpStep_does _ 5).harts⟩)
    fun t i hi ht => by
      rw [(bringUpStep_does t i).part, (bringUpStep_does t i).harts, if_neg (by omega), if_neg (by omega)]
      exact ht

theorem bringUpTo_pkgId (h : n < 6) : (s.bringUpTo n).pkg.pkgId = s.pkg.pkgId :=
  bringUpTo_keeps (φ := fun t => t.pkg.pkgId) fun t i hi => (bringUpStep_does t i).pkgId.trans (if_neg (by omega))

/-- The sixth step assigns a package id. -/
theorem bringUpTo_assigned (h : 6 ≤ n) : (s.bringUpTo n).pkg.pkgId < 320 :=
  bringUpTo_since (p := fun t => t.pkg.pkgId < 320) h
    (by rw [bringUpTo_succ, (bringUpStep_does _ 6).pkgId]; exact Nat.mod_lt _ (by decide))
    fun t i hi ht => by rwa [(bringUpStep_does t i).pkgId, if_neg (by omega)]

/-- The fourth step tests the W-cores of the package and no other. -/
theorem bringUpTo_rows (hm : sparseWf [] s.pkg.lifetime.rowMap = true) (h : 4 ≤ n) (v : Nat) :
    (v < 256 → Regrown (s.rowsOf v) ((s.bringUpTo n).rowsOf v)) ∧ (256 ≤ v → (s.bringUpTo n).rowsOf v = s.rowsOf v) := by
  refine bringUpTo_since (p := fun t => (v < 256 → Regrown (s.rowsOf v) (t.rowsOf v)) ∧ (256 ≤ v → t.rowsOf v = s.rowsOf v)) h ?_ ?_
  · have hmap : (s.bringUpTo 3).pkg.lifetime.rowMap = s.pkg.lifetime.rowMap := bringUpTo_rowMap (by decide)
    have hrows : (s.bringUpTo 3).rowsOf v = s.rowsOf v := congrArg (sparseGet [] · v) hmap
    obtain ⟨hin, hout⟩ := testAll_rows (s := { s.bringUpTo 3 with freeCount := (s.bringUpTo 3).freeCount + 1 })
      (bad := Config.badRows (s.bringUpTo 3).freeCount) (l := List.range 256) (by rw [← hmap] at hm; exact hm) v
    rw [bringUpTo_succ, bringUpStep_four, ← hrows]
    exact ⟨fun hv => hin (List.mem_range.2 hv), fun hv => hout (by simpa using hv)⟩
  · intro t i hi ht
    have hrows : (t.bringUpStep i).rowsOf v = t.rowsOf v := congrArg (sparseGet [] · v) ((bringUpStep_does t i).rows (by omega))
    rwa [hrows]

end Reach

/-! ## BRING_UP -/

section BringUp

variable {s : State} {f : BringUpFailure}

/-- Bring-up has stopped at a step with a code, which it reports and the record counts. -/
def FailsAt (s t : State) (step code : Nat) : Prop :=
  t.pkg.bringUp = step - 1 ∧ t.pkg.bringUpFailed = true ∧ t.pkg.hostOut = s.pkg.hostOut ++ [.bringUpFailure step code] ∧
    t.pkg.lifetime.bringUpFailures = s.pkg.lifetime.bringUpFailures ++ [(step, code)] ∧ t.pkg.zaclk = 0

/-- A state v at which bring-up stops. -/
def State.stopsAt (v : State) (f : BringUpFailure) : State :=
  ((v.modPkg fun k => { k with bringUp := f.step - 1, bringUpFailed := true }).send (.bringUpFailure f.step f.code)).modLife fun r =>
    { r with bringUpFailures := r.bringUpFailures ++ [(f.step, f.code)] }

theorem stopsAt_fails {v : State} (ho : v.pkg.hostOut = s.pkg.hostOut)
    (hf : v.pkg.lifetime.bringUpFailures = s.pkg.lifetime.bringUpFailures) (hz : v.pkg.zaclk = 0) :
    FailsAt s (v.stopsAt f) f.step f.code := by
  unfold FailsAt
  rw [← ho, ← hf]
  exact ⟨rfl, rfl, rfl, rfl, hz⟩

/-- The report of a failure leaves what the steps before it have done. -/
theorem stopsAt_rest {v : State} :
    (v.stopsAt f).mem = v.mem ∧ (v.stopsAt f).poison = v.poison ∧ (v.stopsAt f).pkg.lifetime.rowMap = v.pkg.lifetime.rowMap ∧
    (v.stopsAt f).part = v.part ∧ (v.stopsAt f).allHarts = v.allHarts ∧ (v.stopsAt f).pkg.pkgId = v.pkg.pkgId :=
  ⟨rfl, rfl, rfl, rfl, rfl, rfl⟩

theorem bringUpStops_eq {u : State} : u.bringUpStops f = (u.bringUpTo (f.step - 1)).stopsAt f := rfl

theorem bringUpStops_fails {u : State} (hu : u.pkg = s.pkg) : FailsAt s (u.bringUpStops f) f.step f.code :=
  stopsAt_fails (bringUpTo_hostOut.trans (congrArg Pkg.hostOut hu))
    (bringUpTo_failures.trans (congrArg (fun k : Pkg => k.lifetime.bringUpFailures) hu)) bringUpTo_zaclk

theorem exec_bringUp_idle (h : s.pkg.bringUp = 7 ∨ s.pkg.bringUpFailed = true) (o : Option BringUpFailure) :
    exec (.bringUp o) s = .next s := if_pos (by simpa using h)

theorem exec_bringUp_insecure (h7 : s.pkg.bringUp ≠ 7) (hf : s.pkg.bringUpFailed = false) (hs : ¬ SecureBoot s)
    (o : Option BringUpFailure) :
    exec (.bringUp o) s = .next (({ s with freeCount := s.freeCount + 1 } : State).bringUpStops ⟨1, Config.freeNat s.freeCount⟩) := by
  show execBringUp o s = _
  unfold execBringUp
  rw [if_neg (by simp [h7, hf]), if_pos (by simpa using mt bootOk_iff.1 hs)]

/-- The package after the seventh step. -/
def State.upAndDone (u : State) : State := u.modPkg fun k => { k with bringUp := 7 }

theorem upAndDone_rest {u : State} :
    u.upAndDone.mem = u.mem ∧ u.upAndDone.poison = u.poison ∧ u.upAndDone.part = u.part ∧ u.upAndDone.allHarts = u.allHarts ∧
    u.upAndDone.pkg.zaclk = u.pkg.zaclk ∧ u.upAndDone.pkg.pkgId = u.pkg.pkgId ∧ ∀ w, u.upAndDone.rowsOf w = u.rowsOf w :=
  ⟨rfl, rfl, rfl, rfl, rfl, rfl, fun _ => rfl⟩

/-- Firmware that secure boot does not pass fails the first step. -/
theorem bringUp_insecure (h7 : s.pkg.bringUp ≠ 7) (hf : s.pkg.bringUpFailed = false) (hs : ¬ SecureBoot s) (o : Option BringUpFailure) :
    ∃ t code, exec (.bringUp o) s = .next t ∧ FailsAt s t 1 code ∧ t.mem = s.mem ∧ t.poison = s.poison ∧ t.part = s.part ∧
      t.allHarts = s.allHarts := by
  have hexec := exec_bringUp_insecure h7 hf hs o
  refine ⟨_, _, hexec, bringUpStops_fails (f := ⟨1, _⟩) rfl, ?_⟩
  obtain ⟨hmem, hpoison, -, hpart, hharts, -⟩ :=
    stopsAt_rest (v := ({ s with freeCount := s.freeCount + 1 } : State).bringUpTo (1 - 1)) (f := ⟨1, Config.freeNat s.freeCount⟩)
  rw [bringUpStops_eq, hmem, hpoison, hpart, hharts]
  obtain ⟨hmem, hpoison⟩ := bringUpTo_memory (s := { s with freeCount := s.freeCount + 1 }) (n := 1 - 1) (by decide)
  obtain ⟨hpart, hharts⟩ := bringUpTo_partition (s := { s with freeCount := s.freeCount + 1 }) (n := 1 - 1) (by decide)
  rw [hmem, hpoison, hpart, hharts]
  exact ⟨rfl, rfl, rfl, rfl⟩

section Secure

variable (h7 : s.pkg.bringUp ≠ 7) (hf : s.pkg.bringUpFailed = false) (hs : SecureBoot s)

include h7 hf hs

theorem exec_bringUp_none : exec (.bringUp none) s = .next (s.bringUpTo 7).upAndDone := by
  show execBringUp none s = _
  unfold execBringUp
  rw [if_neg (by simp [h7, hf]), if_neg (by simpa using bootOk_iff.2 hs)]
  rfl

theorem exec_bringUp_some : exec (.bringUp (some f)) s = .next (if 1 ≤ f.step ∧ f.step ≤ 7 then s.bringUpStops f else s) := by
  show execBringUp (some f) s = _
  unfold execBringUp
  rw [if_neg (by simp [h7, hf]), if_neg (by simpa using bootOk_iff.2 hs)]

theorem exec_bringUp_noStep (h : f.step < 1 ∨ 7 < f.step) : exec (.bringUp (some f)) s = .next s :=
  (exec_bringUp_some h7 hf hs).trans (congrArg Outcome.next (if_neg (by omega)))

/-- Every step passes. -/
theorem bringUp_passes :
    ∃ t, exec (.bringUp none) s = .next t ∧ t.pkg.bringUp = 7 ∧ t.pkg.zaclk = 0 ∧ t.pkg.pkgId < 320 ∧ t.mem = [] ∧ t.poison = [] ∧
      t.part = State.reset.part ∧ t.allHarts = State.reset.allHarts ∧
      (sparseWf [] s.pkg.lifetime.rowMap = true → (∀ w, w < 256 → (s.rowsOf w).take 8 <+: t.rowsOf w ∧ (t.rowsOf w).length ≤ 8) ∧
        ∀ w, 256 ≤ w → t.rowsOf w = s.rowsOf w) := by
  refine ⟨_, exec_bringUp_none h7 hf hs, rfl, ?_⟩
  obtain ⟨hmem, hpoison, hpart, hharts, hzaclk, hid, hrows⟩ := upAndDone_rest (u := s.bringUpTo 7)
  simp only [hmem, hpoison, hpart, hharts, hzaclk, hid, hrows]
  obtain ⟨hmem, hpoison⟩ := bringUpTo_cleared (s := s) (n := 7) (by decide)
  obtain ⟨hpart, hharts⟩ := bringUpTo_initialised (s := s) (n := 7) (by decide)
  exact ⟨bringUpTo_zaclk, bringUpTo_assigned (by decide), hmem, hpoison, hpart, hharts,
    fun hm => ⟨fun w => (bringUpTo_rows hm (by decide) w).1, fun w => (bringUpTo_rows hm (by decide) w).2⟩⟩

/-- The step that fails stops bring-up with the effect of the steps before it. -/
theorem bringUp_fails (h1 : 1 ≤ f.step) (hle : f.step ≤ 7) :
    ∃ t, exec (.bringUp (some f)) s = .next t ∧ FailsAt s t f.step f.code ∧
      (f.step ≤ 3 → t.mem = s.mem ∧ t.poison = s.poison) ∧ (3 < f.step → t.mem = [] ∧ t.poison = []) ∧
      (f.step ≤ 4 → t.pkg.lifetime.rowMap = s.pkg.lifetime.rowMap) ∧
      (f.step ≤ 5 → t.part = s.part ∧ t.allHarts = s.allHarts) ∧
      (5 < f.step → t.part = State.reset.part ∧ t.allHarts = State.reset.allHarts) ∧
      (f.step ≤ 6 → t.pkg.pkgId = s.pkg.pkgId) ∧ (6 < f.step → t.pkg.pkgId < 320) := by
  have hexec := exec_bringUp_some (f := f) h7 hf hs
  rw [if_pos ⟨h1, hle⟩] at hexec
  refine ⟨_, hexec, bringUpStops_fails rfl, ?_⟩
  obtain ⟨hmem, hpoison, hrows, hpart, hharts, hid⟩ := stopsAt_rest (v := s.bringUpTo (f.step - 1)) (f := f)
  rw [bringUpStops_eq, hmem, hpoison, hrows, hpart, hharts, hid]
  exact ⟨fun h => bringUpTo_memory (by omega), fun h => bringUpTo_cleared (by omega), fun h => bringUpTo_rowMap (by omega),
    fun h => bringUpTo_partition (by omega), fun h => bringUpTo_initialised (by omega), fun h => bringUpTo_pkgId (by omega),
    fun h => bringUpTo_assigned (by omega)⟩

end Secure

end BringUp

end Sys2Proof.Machine
end
section
/-! ## Heat, power and shutdown (R10, R352, R353) -/
namespace Sys2Proof.Machine
open Host (Outcome)

/-- The event sets the A-clocks of the W-cores that sel names, stopped as v says, and changes nothing else. -/
def Stops (e : Instr) (s : State) (sel : Nat → Prop) (v : Nat → Bool) : Prop :=
  ∃ t, exec e s = .next t ∧ (∀ w, sel w → t.clockStopped w = v w) ∧ (∀ w, ¬ sel w → t.clockStopped w = s.clockStopped w) ∧
    { t with pkg := { t.pkg with hotDies := s.pkg.hotDies, hotCores := s.pkg.hotCores, powerStops := s.pkg.powerStops } } = s

section Throttle

variable {s : State}

theorem heatDie_stops {d : Nat} (h : d < 6) : Stops (.thermalThrottle (.die d)) s (fun w => w / 64 = d) fun _ => true := by
  refine ⟨_, congrArg Outcome.next (if_pos h), fun w hw => ?_, fun w hw => ?_, rfl⟩
  · simp [State.clockStopped, mem_insertNew, hw]
  · simp [State.clockStopped, mem_insertNew, hw]

theorem heatCore_stops {k : Nat} (h : k < 256) : Stops (.thermalThrottle (.wcore k)) s (fun w => w = k) fun _ => true := by
  refine ⟨_, congrArg Outcome.next (if_pos h), fun w hw => ?_, fun w hw => ?_, rfl⟩
  · simp [State.clockStopped, mem_insertNew, hw]
  · simp [State.clockStopped, mem_insertNew, hw]

theorem exec_thermalThrottle_outside {d : Nat} :
    (6 ≤ d → exec (.thermalThrottle (.die d)) s = .next s) ∧ (256 ≤ d → exec (.thermalThrottle (.wcore d)) s = .next s) :=
  ⟨fun h => congrArg Outcome.next (if_neg (by omega)), fun h => congrArg Outcome.next (if_neg (by omega))⟩

theorem coolDie_starts (d : Nat) :
    Stops (.throttlingEnd (.heat (.die d))) s (fun w => w / 64 = d) fun w => s.pkg.hotCores.contains w || s.pkg.powerStops.contains w := by
  refine ⟨_, rfl, fun w hw => ?_, fun w hw => ?_, rfl⟩
  · simp [State.clockStopped, hw]
  · simp [State.clockStopped, hw]

theorem coolCore_starts (k : Nat) :
    Stops (.throttlingEnd (.heat (.wcore k))) s (fun w => w = k) fun w =>
      s.pkg.hotDies.contains (w / 64) || s.pkg.powerStops.contains w := by
  refine ⟨_, rfl, fun w hw => ?_, fun w hw => ?_, rfl⟩
  · simp [State.clockStopped, hw]
  · simp [State.clockStopped, hw]

theorem powerEnd_starts :
    Stops (.throttlingEnd .power) s (fun _ => True) fun w => s.pkg.hotDies.contains (w / 64) || s.pkg.hotCores.contains w := by
  refine ⟨_, rfl, fun w _ => ?_, fun w hw => absurd trivial hw, rfl⟩
  simp [State.clockStopped]

/-- The Press of a W-core has a command. -/
def PressBusy (s : State) (w : Nat) : Prop := ∃ c, s.wcore? w = some c ∧ c.press.queue ≠ []

theorem pressActivity_le_iff {v w : Nat} : s.pressActivity v ≤ s.pressActivity w ↔ (PressBusy s v → PressBusy s w) := by
  have hact : ∀ w, s.pressActivity w ≤ 1 ∧ (1 ≤ s.pressActivity w ↔ PressBusy s w) := by
    intro w
    unfold State.pressActivity PressBusy
    cases s.wcore? w with
    | none => simp
    | some c => simp [Nat.one_le_iff_ne_zero]
  obtain ⟨hv, hbv⟩ := hact v
  obtain ⟨-, hbw⟩ := hact w
  rw [← hbv, ← hbw]
  omega

theorem mostActive_iff {ws : List Nat} :
    s.mostActive ws = true ↔
      ∀ v ∈ s.part.wcoreNums, v ∉ ws → s.clockStopped v = false → PressBusy s v → ∀ w ∈ ws, PressBusy s w := by
  have hor : ∀ a b c : Bool, (a || b || c) = true ↔ (¬ a = true → b = false → c = true) := by decide
  simp only [State.mostActive, List.all_eq_true, hor, decide_eq_true_eq, pressActivity_le_iff, List.contains_iff_mem]
  exact forall₂_congr fun v _ => forall₂_congr fun _ _ => ⟨fun h hb w hw => h w hw hb, fun h w hw hb => h hb w hw⟩

theorem powerThrottle_stops {ws : List Nat} (h : s.mostActive ws = true) :
    Stops (.powerThrottle ws) s (fun w => w ∈ ws) fun _ => true := by
  have hmem : ∀ w, w ∈ ws.foldl (fun l w => insertNew w l) s.pkg.powerStops ↔ w ∈ s.pkg.powerStops ∨ w ∈ ws := fun w => by
    simpa using mem_foldl_insertNew (f := id) (b := w) (l := s.pkg.powerStops) (ms := ws)
  refine ⟨_, congrArg Outcome.next (if_pos h), fun w hw => ?_, fun w hw => ?_, rfl⟩
  · simp [State.clockStopped, hmem, show w ∈ ws from hw]
  · simp [State.clockStopped, hmem, show w ∉ ws from hw]

theorem exec_powerThrottle_idle {ws : List Nat} (h : ¬ s.mostActive ws = true) : exec (.powerThrottle ws) s = .next s :=
  congrArg Outcome.next (if_neg h)

end Throttle

section Shutdown

variable {s : State} {die : Nat}

theorem exec_emergencyShutdown_outside (h : 6 ≤ die) : exec (.emergencyShutdown die) s = .next s := congrArg Outcome.next (if_pos h)

/-- An emergency shutdown leaves the package in reset with its committed record, which counts it. -/
theorem emergencyShutdown_resets (h : die < 6) :
    ∃ t, exec (.emergencyShutdown die) s = .next t ∧ t.mem = [] ∧ t.part = State.reset.part ∧
      t.allHarts = State.reset.allHarts ∧ t.pkg.bringUp = 0 ∧ t.pkg.slots = s.pkg.slots ∧ t.pkg.stages = s.pkg.stages ∧
      t.pkg.faults = s.pkg.faults ∧ t.pkg.lifetime = t.pkg.committed ∧
      t.pkg.lifetime = { s.pkg.committed with shutdowns := min (s.pkg.committed.shutdowns + 1) (2 ^ 64 - 1) } :=
  ⟨_, congrArg Outcome.next (if_neg (by omega)), rfl, rfl, rfl, rfl, rfl, rfl, rfl, rfl, rfl⟩

end Shutdown

end Sys2Proof.Machine
end
section
/-! ## The package's errors, Trapeze, bring-up, heat, power and shutdown -/
namespace Sys2Proof
open Machine

/-- Settles O55: each event of the package changes the fields it names; a Trapeze request leaves what its performance leaves; a bring-up is
a fold of its steps; the self-test takes a spare in every round. -/
theorem packageErrorsAndService : Obligations.PackageErrorsAndService := by
  unfold Obligations.PackageErrorsAndService
  refine ⟨fun s => ?_, fun s => ?_⟩
  · intro life rec' registers
    refine ⟨fun l => linkRetry_records l s, fun e => correctableError_records e s, fun pa => uncorrectableError_poisons,
      fun pa => exec_uncorrectableError_outside, fun k => packageUnreachable_loses, fun k => exec_packageUnreachable_idle,
      fun r => exec_trapezeRequest_early, fun h6 pkg pid addr n bs op red esz dbl v => ⟨fun ho r hr => ?_, fun hno => ?_⟩,
      fun die slice gate => ⟨l2PowerGating_gates, exec_l2PowerGating_outside⟩⟩
    · simp only [List.mem_cons, List.not_mem_nil, or_false] at hr
      rcases hr with rfl | rfl | rfl | rfl | rfl | rfl | rfl | rfl <;> exact exec_trapezeRequest_held h6 ho
    · have h : Served s pkg pid := ⟨h6, hno⟩
      exact ⟨read_answers h, read_faults h, write_faults h, fun ho hi hp => write_writes h hi hp ho,
        fun ho => ⟨sc_lost h ho, fun hl hi hp => sc_writes h hi hp ho hl⟩,
        ⟨amo_faults h, fun ho hi hp => amo_writes h hi hp ho⟩,
        ⟨bamo_faults h, fun ho hi hp => bamo_writes h hi hp ho⟩,
        fun o => ⟨sync_faults h, fun ho hi hp => sync_writes h hi hp ho⟩, probe_noCopy h, probe_drops h⟩
  · refine ⟨exec_bringUp_idle, fun h7 hf => ⟨bringUp_insecure h7 hf, fun hs => ⟨bringUp_passes h7 hf hs, fun f => bringUp_fails h7 hf hs,
        fun f => exec_bringUp_noStep h7 hf hs⟩⟩,
      fun d => ⟨heatDie_stops, exec_thermalThrottle_outside.1, coolDie_starts d⟩,
      fun k => ⟨heatCore_stops, exec_thermalThrottle_outside.2, coolCore_starts k⟩,
      fun ws => ⟨fun h => powerThrottle_stops (mostActive_iff.2 h), fun h => exec_powerThrottle_idle (mt mostActive_iff.1 h)⟩,
      powerEnd_starts, ⟨_, rfl, rfl, rfl⟩, fun die => ⟨exec_emergencyShutdown_outside, emergencyShutdown_resets⟩,
      fun w bad => recoveryScrub_tests, fun w bad => exec_recoveryScrub_idle⟩

end Sys2Proof
end
section
/-! ## The events that end a wait (R47) -/
namespace Sys2Proof.Machine

variable {s : State} {h k : HartId} {x : Hart} {w : Wait} {e : Sys2Proof.Instr}

theorem State.hart?_modHart {f : Hart → Hart} (hf : ∀ y, (f y).id = y.id) :
    (s.modHart h f).hart? k = (s.hart? k).map fun y => if y.id == h then f y else y := by
  refine hart?_of_map (fun y => ?_) ?_ k
  · split
    · exact hf y
    · rfl
  · simp [allHarts, modHart, adjust]

theorem State.hart?_modHart_other {f : Hart → Hart} (hf : ∀ y, (f y).id = y.id) (hk : k ≠ h) : (s.modHart h f).hart? k = s.hart? k := by
  rw [hart?_modHart hf]
  cases hg : s.hart? k with
  | none => rfl
  | some g => simp [id_of_hart? hg, hk]

theorem State.hart?_modHart_same {f : Hart → Hart} (hf : ∀ y, (f y).id = y.id) : (s.modHart h f).hart? h = (s.hart? h).map f := by
  rw [hart?_modHart hf]
  cases hg : s.hart? h with
  | none => rfl
  | some g => simp [id_of_hart? hg]

/-- The wake of a hart does what R47 says and touches nothing else. -/
theorem wakes_modHart (he : exec e s = .next (s.modHart h s.wake)) (hx : s.hart? h = some x) : Wakes e h s :=
  ⟨_, x, s.wake x, he, hx, by rw [State.hart?_modHart_same (f := s.wake) fun _ => rfl, hx]; rfl, rfl,
    fun _ hk => State.hart?_modHart_other (fun _ => rfl) hk, rfl, rfl, rfl, rfl⟩

/-- An event that is a wake under a condition ends the wait exactly when the condition holds. -/
theorem wakesWhen_of_wakeIf {p : Hart → Wait → Bool} {P : Prop} (he : exec e s = .next (s.wakeIf h p)) (hx : s.hart? h = some x)
    (hw : x.wait = some w) (hp : p x w = true ↔ P) : WakesWhen e h s P := by
  have hi : s.wakeIf h p = if p x w then s.modHart h s.wake else s := by simp only [State.wakeIf, hx, hw]
  rw [hi] at he
  refine ⟨fun h1 => wakes_modHart (x := x) ?_ hx, fun h1 => ?_⟩
  · rw [he, if_pos (hp.2 h1)]
  · rw [he, if_neg (mt hp.1 h1)]

end Sys2Proof.Machine

namespace Sys2Proof
open Machine

/-- Settles O24: each of the events is a wake under its own condition (wakesWhen_of_wakeIf). -/
theorem waitsEnd : Obligations.WaitsEnd := by
  unfold Obligations.WaitsEnd
  intro s h x hx ends
  have hid : x.id = h := State.id_of_hart? hx
  refine ⟨fun obj target hw => ?_, fun n b hb hw => ?_, fun ticket hw => ?_, fun hw => ?_, fun bs hw => ?_, fun hw => ?_, fun ticket hw => ?_,
    fun w n hw => ?_, fun k c hk hc => ⟨fun hw => ?_, fun hw => ?_, fun bs hw => ?_⟩⟩ <;>
    refine wakesWhen_of_wakeIf rfl hx hw ?_
  · simp
  · simp [hb, BarView.passes]
  · simp
  · simp
  · simp
  · simp
  · simp
  · cases hc : s.wcore? w <;> simp [hc]
  · simp only [hk, hc, beq_self_eq_true, Bool.true_and, Option.bind_some]
    exact decide_eq_true_iff
  · simp [hk, hc]
  · simp [hk, hc]

end Sys2Proof
end
section
/-! ## Computations run, and effects before retirement -/
namespace Sys2Proof.Machine

/-! ## What each step of a computation gives -/

section Run

variable {α β : Type} (s t : State)

@[simp] theorem run_pure (a : α) : (pure a : M α) s = .ok a s := rfl
@[simp] theorem run_get : (get : M State) s = .ok s s := rfl
@[simp] theorem run_set : (set t : M PUnit) s = .ok ⟨⟩ t := rfl
@[simp] theorem run_modify (f : State → State) : (modify f : M PUnit) s = .ok ⟨⟩ (f s) := rfl
@[simp] theorem run_throw (e : Exc) : (throw e : M α) s = .error e s := rfl
@[simp] theorem run_effectM (f : State → State) (c : Option (BitVec 16)) : effectM f c s = .ok () ((f s).retire c) := rfl
@[simp] theorem run_retireM (c : Option (BitVec 16)) : retireM c s = .ok () (s.retire c) := rfl
@[simp] theorem run_ite (p : Prop) [Decidable p] (m n : M α) : (if p then m else n) s = if p then m s else n s := by split <;> rfl

variable {s t}

theorem run_bind_ok {m : M α} {f : α → M β} {a : α} (h : m s = .ok a t) : (m >>= f) s = f a t := by simp only [bind, EStateM.bind, h]
theorem run_bind_error {m : M α} {f : α → M β} {e : Exc} (h : m s = .error e t) : (m >>= f) s = .error e t := by
  simp only [bind, EStateM.bind, h]

variable {w : BitVec 32} {m : M Unit}

theorem finish_ok (h : m s = .ok () t) : finish w m s = .next t := by simp only [finish, h]
theorem finish_done (h : m s = .error .done t) : finish w m s = .next t := by simp only [finish, h]
theorem finish_trap {c : Nat} {v : Word} (h : m s = .error (.trap c v) t) : finish w m s = .next (t.takeTrap c s.pc v) := by
  simp only [finish, h]
theorem finish_siteTrap (h : m s = .error .siteTrap t) : finish w m s = .next (t.takeTrap 24 s.pc (w.setWidth 64)) := by
  simp only [finish, h]
theorem finish_wait {r : Wait} (h : m s = .error (.wait r) t) : finish w m s = .next (t.setWait r) := by simp only [finish, h]

end Run

/-! ## Frames composed -/

section Frames

variable {w : Writes} {s t u : State}

/-- The hart b with what w names, and what every instruction moves on, put back as it is in a. -/
def Hart.putBack (w : Writes) (a b : Hart) : Hart :=
  { b with
    u := a.u, wait := a.wait, resume := a.resume, instret := a.instret, cycle := a.cycle
    resv := if w.resv then a.resv else b.resv
    watch := if w.watch then a.watch else b.watch
    budgetDue := if w.task then a.budgetDue else b.budgetDue
    wrote := if w.task then a.wrote else b.wrote }

theorem sameHart_iff : SameHart w s t ↔ SameRegs w s t ∧ SameFlags w s t ∧ s.hart.putBack w t.hart = s.hart := Iff.rfl

theorem Hart.putBack_trans {a b c : Hart} (h1 : a.putBack w b = a) (h2 : b.putBack w c = b) : a.putBack w c = a := by
  have h : a.putBack w c = a.putBack w (b.putBack w c) := by
    unfold putBack
    cases w.resv <;> cases w.watch <;> cases w.task <;> rfl
  rw [h, h2, h1]

theorem SameRegs.trans (h1 : SameRegs w s t) (h2 : SameRegs w t u) : SameRegs w s u := by
  obtain ⟨x1, f1, p1, w1, k1, d1, b1⟩ := h1
  obtain ⟨x2, f2, p2, w2, k2, d2, b2⟩ := h2
  exact ⟨fun r h => (x2 r h).trans (x1 r h), fun r h => (f2 r h).trans (f1 r h), fun r h => (p2 r h).trans (p1 r h),
    fun r h => (w2 r h).trans (w1 r h), fun r h => (k2 r h).trans (k1 r h), fun r h => (d2 r h).trans (d1 r h),
    fun r h => (b2 r h).trans (b1 r h)⟩

theorem SameFlags.trans (h1 : SameFlags w s t) (h2 : SameFlags w t u) : SameFlags w s u := by
  simp only [SameFlags] at *
  grind

theorem SameHart.trans (h1 : SameHart w s t) (h2 : SameHart w t u) : SameHart w s u :=
  by
  obtain ⟨r1, f1, p1⟩ := sameHart_iff.1 h1
  obtain ⟨r2, f2, p2⟩ := sameHart_iff.1 h2
  exact ⟨r1.trans r2, f1.trans f2, Hart.putBack_trans p1 p2⟩

theorem SameMemory.trans (h1 : SameMemory w s t) (h2 : SameMemory w t u) : SameMemory w s u :=
  ⟨fun a h => (h2.1 a h).trans (h1.1 a h), h2.2.trans h1.2⟩

theorem SameHarts.trans (h1 : SameHarts w s t) (h2 : SameHarts w t u) : SameHarts w s u := by
  unfold SameHarts at *
  revert h1 h2
  cases w.mem <;> exact fun h1 h2 => Eq.trans h2 h1

theorem SameOwn.trans (h1 : SameOwn s t) (h2 : SameOwn t u) : SameOwn s u := by
  unfold SameOwn at *
  simp_all

theorem Frame.trans (h1 : Frame w s t) (h2 : Frame w t u) : Frame w s u := by
  obtain ⟨a1, b1, c1, d1, e1, f1⟩ := h1
  obtain ⟨a2, b2, c2, d2, e2, f2⟩ := h2
  exact ⟨a1.trans a2, b1.trans b2, c1.trans c2, d2.trans d1, e2.trans e1, f1.trans f2⟩

/-- What changes nothing is within every frame. -/
theorem Frame.weaken (h : Frame {} s t) : Frame w s t := by
  obtain ⟨⟨⟨hx, hf, hp, hw, hk, hd, hb⟩, hfl, hh⟩, ⟨hm, hpo⟩, hs, hpt, hk', ho⟩ := h
  refine ⟨⟨⟨fun r _ => hx r (by simp), fun r _ => hf r (by simp), fun r _ => hp r (by simp), fun r _ => hw r (by simp),
    fun r _ => hk r (by simp), fun r _ => hd r (by simp), fun r _ => hb r (by simp)⟩, ?_, ?_⟩, ⟨fun a _ => hm a (by simp), hpo⟩, ?_, hpt, ?_, ho⟩
  · simp only [SameFlags] at hfl ⊢
    simp [hfl]
  · rw [← hh]
    simp
  · simp only [SameHarts] at hs ⊢
    cases w.mem <;> simp [hs]
  · have hk' : t.pkg = s.pkg := hk'
    rw [hk']

end Frames

/-! ## Effects -/

/-- The state g differs from s in what w names alone, and no instruction has retired: an instruction's effect before its retirement. -/
structure Effect (w : Writes) (s g : State) : Prop where
  frame : Frame w s g
  pc : g.pc = s.pc
  instret : g.hart.instret = s.hart.instret
  cycle : g.hart.cycle = s.hart.cycle

namespace Effect

variable {w : Writes} {s t u : State}

theorem refl (w : Writes) (s : State) : Effect w s s := ⟨.refl w s, rfl, rfl, rfl⟩

theorem trans (h1 : Effect w s t) (h2 : Effect w t u) : Effect w s u :=
  ⟨h1.frame.trans h2.frame, h2.pc.trans h1.pc, h2.instret.trans h1.instret, h2.cycle.trans h1.cycle⟩

theorem weaken (h : Effect {} s t) : Effect w s t := ⟨h.frame.weaken, h.pc, h.instret, h.cycle⟩

theorem sup (h : Effect w s t) : t.hart.sup = s.hart.sup := by
  obtain ⟨-, -, hb⟩ := sameHart_iff.1 h.frame.1
  have hs : (s.hart.putBack w t.hart).sup = s.hart.sup := by rw [hb]
  exact hs

theorem sample (w : Writes) (s : State) (l : List Nat) : Effect w s (s.sample l) :=
  ⟨sample_frame w s l, by simp [State.pc], by simp, by simp⟩

theorem store {pa : Nat} {bs : List Byte} (h : s.poisoned pa bs.length = false) :
    Effect { mem := some (pa, bs.length) } s (s.store pa bs) :=
  ⟨store_frame h, by simp [State.pc], by simp, by simp⟩

theorem wx (s : State) (r : XReg) (v : Word) : Effect { x := [r] } s (s.wx r v) := ⟨wx_frame s r v, wx_pc .., wx_instret .., wx_cycle ..⟩

theorem wb (s : State) (r : BReg) (v : BitVec 128) : Effect { b := [r] } s (s.wb r v) := by
  have hb : ∀ q : BReg, q ∉ [r] → (s.wb r v).rb q = s.rb q := by
    intro q hq
    simp only [List.mem_singleton] at hq
    simp [State.rb_wb, hq]
  refine ⟨⟨⟨⟨?_, ?_, ?_, ?_, ?_, ?_, hb⟩, ?_, ?_⟩, ⟨fun _ _ => rfl, rfl⟩, by simp [SameHarts], rfl, rfl, rfl, rfl, rfl, rfl, rfl⟩, rfl, rfl, rfl⟩
  all_goals simp [State.wb, State.rx, State.rf, State.rp, State.rw, State.rk, State.rd, SameFlags]

theorem wd (s : State) (r : DReg) (v : Dist) : Effect { d := [r] } s (s.wd r v) := by
  have hd : ∀ q : DReg, q ∉ [r] → (s.wd r v).rd q = s.rd q := by
    intro q hq
    simp only [List.mem_singleton] at hq
    simp [State.rd_wd, hq]
  refine ⟨⟨⟨⟨?_, ?_, ?_, ?_, ?_, hd, ?_⟩, ?_, ?_⟩, ⟨fun _ _ => rfl, rfl⟩, by simp [SameHarts], rfl, rfl, rfl, rfl, rfl, rfl, rfl⟩, rfl, rfl, rfl⟩
  all_goals simp [State.wd, State.rx, State.rf, State.rp, State.rw, State.rk, State.rb, SameFlags]

end Effect

section MayStall

variable (s : State)

@[simp] theorem mayStall_hart : s.mayStall.hart = s.hart := by unfold State.mayStall; split <;> simp [State.fresh]
@[simp] theorem mayStall_harts : s.mayStall.harts = s.harts := by unfold State.mayStall; split <;> simp [State.fresh]
@[simp] theorem mayStall_mem : s.mayStall.mem = s.mem := by unfold State.mayStall; split <;> simp [State.fresh]
@[simp] theorem mayStall_poison : s.mayStall.poison = s.poison := by unfold State.mayStall; split <;> simp [State.fresh]
@[simp] theorem mayStall_pkg : s.mayStall.pkg = s.pkg := by unfold State.mayStall; split <;> simp [State.fresh]
@[simp] theorem mayStall_still : s.mayStall.part.still = s.part.still := by unfold State.mayStall; split <;> simp [State.fresh]
theorem mayStall_own : SameOwn s s.mayStall := by unfold State.mayStall SameOwn; split <;> simp [State.fresh]

end MayStall

namespace Effect

variable {w : Writes} {s g : State}

theorem mayStall_self (w : Writes) (s : State) : Effect w s s.mayStall := by
  refine weaken ⟨⟨⟨?_, ?_, ?_⟩, ⟨?_, mayStall_poison s⟩, mayStall_harts s, mayStall_still s, congrArg _ (mayStall_pkg s), mayStall_own s⟩, ?_, ?_, ?_⟩
  · simp [SameRegs, State.rx, State.rf, State.rp, State.rw, State.rk, State.rd, State.rb]
  · simp [SameFlags]
  · simp
  · simp [State.byte]
  · simp [State.pc]
  · simp
  · simp

theorem mayStall (h : Effect w s g) : Effect w s g.mayStall := h.trans (mayStall_self w g)

/-- An effect retires to the pc behind the instruction. -/
theorem retire_eq (h : Effect w s g) : g.retire = g.retireTo s.nextPc := by
  have hp : g.pfx = s.pfx := h.frame.2.2.2.2.2.1
  have hil : g.ilen none = s.ilen none := by simp [State.ilen, hp]
  rw [State.retire_eq, h.pc, hil, State.pc_add_ilen]

/-- An instruction that retires after its effect completes. -/
theorem yields {i : Sys2Proof.Instr} {R : State → Prop} (h : Effect w s g) (he : exec i s = .next g.retire) (hR : R (g.retireTo s.nextPc)) :
    Yields i s w R :=
  .of_effect (he.trans (congrArg _ h.retire_eq)) h.frame h.instret h.cycle h.sup hR

end Effect

end Sys2Proof.Machine
end
section
/-! ## Buffer records: the checks of BLD, BST and BAMO, and BSET and BGET (R59, R60, R181, R185) -/
namespace Sys2Proof.Machine

/-! ## The checks of an element access (R28, R185) -/

section Checks

variable {s : State} {b : BReg} {a : XReg} {c : Nat} {v : Word} {w : BitVec 32}

theorem needB_ok (h : b.toNat < profB s.hart.u.zwprof) : needB b s = .ok () s := by simp [needB, h]

theorem needB_outside (h : profB s.hart.u.zwprof ≤ b.toNat) :
    needB b s = .error (.trap 48 (BitVec.ofNat 64 (3 * 256 + b.toNat))) s := by
  have hb : b.toNat % 256 = b.toNat := Nat.mod_eq_of_lt (by have := b.isLt; omega)
  simp [needB, Nat.not_lt.2 h, prof48, hb]

theorem bufElem_outside (h : profB s.hart.u.zwprof ≤ b.toNat) :
    bufElem b a s = .error (.trap 48 (BitVec.ofNat 64 (3 * 256 + b.toNat))) s := run_bind_error (needB_outside h)

theorem bufElem_beyond (h : b.toNat < profB s.hart.u.zwprof) (hx : (bufOf (s.rb b)).extent ≤ (s.rx a).toNat) :
    bufElem b a s = .error (.trap 26 (s.rx a)) s := by
  rw [bufElem, run_bind_ok (needB_ok h), run_bind_ok (run_get s)]
  simp only [hx, if_true]
  exact run_bind_error (run_throw ..)

/-- An element access that fails on the profile fails there before anything else. -/
theorem needB_of_bufElem (h : bufElem b a s = .error (.trap c v) s) : needB b s = .ok () s ∨ needB b s = .error (.trap c v) s := by
  rcases Nat.lt_or_ge b.toNat (profB s.hart.u.zwprof) with hb | hb
  · exact .inl (needB_ok hb)
  · have he := (bufElem_outside hb).symm.trans h
    injection he with he
    exact .inr ((needB_outside hb).trans (by rw [he]))

/-- The instructions that access an element of a buffer record. -/
def AllBuffer (x a : XReg) (b : BReg) (P : Sys2Proof.Instr → Prop) : Prop :=
  P (.bldB x a b) ∧ P (.bldH x a b) ∧ P (.bldW x a b) ∧ P (.bldD x a b) ∧ P (.bldBu x a b) ∧ P (.bldHu x a b) ∧ P (.bldWu x a b) ∧
  P (.bldFw x a b) ∧ P (.bldFd x a b) ∧ P (.bldFh x a b) ∧ P (.bstB b a x) ∧ P (.bstH b a x) ∧ P (.bstW b a x) ∧ P (.bstD b a x) ∧
  P (.bstFw b a x) ∧ P (.bstFd b a x) ∧ P (.bstFh b a x) ∧ P (.bamoAdd b a x) ∧ P (.bamoMin b a x) ∧ P (.bamoMax b a x) ∧
  P (.bamoAddf b a x)

section

variable (h : bufElem b a s = .error (.trap c v) s)
include h

theorem bldX_traps (op : LoadOp) (x : XReg) : bldX w op x a b s = .next (s.takeTrap c s.pc v) :=
  finish_trap (run_bind_error (run_bind_error h))

theorem bldVal_traps {n : Nat} {f : Word → M Unit} : finish w (bldVal b a n >>= f) s = .next (s.takeTrap c s.pc v) :=
  finish_trap (run_bind_error (run_bind_error h))

theorem bstM_traps (n : Nat) (f : State → Word) : bstM w n b a f s = .next (s.takeTrap c s.pc v) :=
  finish_trap (run_bind_error h)

theorem bamoM_traps (ht : myTurn s = true) (op : MendOp) (f : State → Nat → Nat) : bamoM w op b a f s = .next (s.takeTrap c s.pc v) := by
  refine finish_trap ?_
  rw [run_bind_ok (run_get s), ht]
  exact run_bind_error h

theorem execBstFh_traps (hr : effRnd s none ≠ none) (x : FReg) : execBstFh b a x s = .next (s.takeTrap c s.pc v) := by
  refine finish_trap ?_
  rcases needB_of_bufElem h with hb | hb
  · obtain ⟨r, hr⟩ := Option.ne_none_iff_exists'.1 hr
    have hw : ∀ w, withRnd w none s = .ok r s := fun w => by simp only [withRnd, hr]
    rw [run_bind_ok hb, run_bind_ok (hw _)]
    exact run_bind_error h
  · exact run_bind_error hb

/-- A failing check of the element is the trap of every instruction that accesses it. -/
theorem allBuffer_traps (ht : myTurn s = true) (hr : effRnd s none ≠ none) (x : XReg) : AllBuffer x a b fun i => Traps i s c v := by
  refine ⟨?_, ?_, ?_, ?_, ?_, ?_, ?_, ?_, ?_, ?_, ?_, ?_, ?_, ?_, ?_, ?_, ?_, ?_, ?_, ?_, ?_⟩
  exacts [bldX_traps h _ x, bldX_traps h _ x, bldX_traps h _ x, bldX_traps h _ x, bldX_traps h _ x, bldX_traps h _ x, bldX_traps h _ x,
    bldVal_traps h, bldVal_traps h, bldVal_traps h, bstM_traps h _ _, bstM_traps h _ _, bstM_traps h _ _, bstM_traps h _ _,
    bstM_traps h _ _, bstM_traps h _ _, execBstFh_traps h hr x, bamoM_traps h ht _ _, bamoM_traps h ht _ _, bamoM_traps h ht _ _,
    bamoM_traps h ht .bamoAddf fun s n => if n = 4 then s.fs x else s.fd x]

end

end Checks

/-! ## Records read from plain memory -/

section Records

variable {s : State} {va : Word} {n align cause pa : Nat}

theorem loadRecord_misaligned (h : va.toNat % align ≠ 0) : loadRecord va n align cause s = .error (.trap cause va) s := by
  simp only [loadRecord, h, ne_eq, not_false_eq_true, if_true]
  exact run_bind_error (run_throw ..)

theorem loadRecord_plain (h : va.toNat % align = 0) (hp : PlainAccess .load s va n pa) :
    loadRecord va n align cause s = .ok (s.bytes pa n) (s.sample (accessReads .load s va pa)) := by
  simp only [loadRecord, h, ne_eq, not_true_eq_false, if_false]
  exact loadBytes_plain hp

/-- With the hot list off no access is counted (R92). -/
theorem sample_off (h : s.part.hotEn = false) (l : List Nat) : s.sample l = s := by simp [State.sample, h]

end Records

/-! ## BSET and BGET (R181) -/

section Transfer

variable {s : State} {d : BReg} {a : XReg} {pa : Nat}

/-- The record that 16 bytes of memory hold. -/
def State.recordAt (s : State) (pa : Nat) : BitVec 128 := BitVec.ofNat 128 (s.memNat pa 16)

/-- A record is well formed: its reserved bits are zero and its swizzle is one of the three (R59). -/
def RecordOk (v : BitVec 128) : Prop := v.extractLsb' 62 2 = 0 ∧ (v.extractLsb' 57 3).toNat < 3

theorem recordOk_iff (v : BitVec 128) : RecordOk v ↔ ¬ (v.extractLsb' 62 2 ≠ 0#2 || 3 ≤ (v.extractLsb' 57 3).toNat) = true := by
  simp [RecordOk]

variable (hd : d.toNat < profB s.hart.u.zwprof)
include hd

theorem bset_misaligned (h : (s.rx a).toNat % 16 ≠ 0) : Traps (.bset d a) s 4 (s.rx a) := by
  refine finish_trap ?_
  rw [run_bind_ok (needB_ok hd), run_bind_ok (run_get s)]
  exact run_bind_error (loadRecord_misaligned h)

theorem bget_misaligned (h : (s.rx a).toNat % 16 ≠ 0) : Traps (.bget d a) s 6 (s.rx a) := by
  refine finish_trap ?_
  rw [run_bind_ok (needB_ok hd), run_bind_ok (run_get s)]
  simp only [h, ne_eq, not_false_eq_true, if_true]
  exact run_bind_error (run_throw ..)

theorem bset_loads (h : (s.rx a).toNat % 16 = 0) (hp : PlainAccess .load s (s.rx a) 16 pa) (hv : RecordOk (s.recordAt pa)) :
    Yields (.bset d a) s { b := [d] } fun t => t.rb d = s.recordAt pa := by
  have he : exec (.bset d a) s = .next (((s.sample (accessReads .load s (s.rx a) pa)).wb d (s.recordAt pa)).mayStall).retire := by
    refine finish_ok ?_
    rw [run_bind_ok (needB_ok hd), run_bind_ok (run_get s), run_bind_ok (loadRecord_plain h hp)]
    dsimp only
    rw [show recBits (s.bytes pa 16) = s.recordAt pa from rfl, if_neg ((recordOk_iff _).1 hv)]
    rfl
  refine (((Effect.sample _ s _).trans (.wb _ d _)).mayStall).yields he ?_
  rw [State.retireTo_rb, State.rb, mayStall_hart]
  exact State.rb_wb_same ..

theorem bset_illFormed (h : (s.rx a).toNat % 16 = 0) (hp : PlainAccess .load s (s.rx a) 16 pa) (hv : ¬ RecordOk (s.recordAt pa))
    (hh : s.part.hotEn = false) : Traps (.bset d a) s 26 ((s.recordAt pa).extractLsb' 0 64) := by
  refine finish_trap ?_
  rw [run_bind_ok (needB_ok hd), run_bind_ok (run_get s), run_bind_ok (loadRecord_plain h hp), sample_off hh]
  dsimp only
  rw [show recBits (s.bytes pa 16) = s.recordAt pa from rfl, if_pos (not_not.1 (mt (recordOk_iff _).2 hv)),
    ← BitVec.setWidth_eq_extractLsb' (by decide)]
  exact run_bind_error (run_throw ..)

theorem bget_stores (hs : s.Inv) (h : (s.rx a).toNat % 16 = 0) (hp : PlainAccess .store s (s.rx a) 16 pa) :
    Yields (.bget d a) s { mem := some (pa, 16) } fun t => t.memNat pa 16 = (s.rb d).toNat := by
  have hl : (natLe 16 (s.rb d).toNat).length = 16 := natLe_length ..
  have he : exec (.bget d a) s =
      .next ((s.sample (accessReads .store s (s.rx a) pa)).store pa (natLe 16 (s.rb d).toNat)).retire := by
    refine finish_ok ?_
    rw [run_bind_ok (needB_ok hd), run_bind_ok (run_get s)]
    simp only [h, ne_eq, not_true_eq_false, if_false]
    rw [run_bind_ok (storeBytes_plain (hl.symm ▸ hp))]
    rfl
  obtain ⟨-, -, -, -, -, -, hpo, -⟩ := hp
  have hst := Effect.store (s := s.sample (accessReads .store s (s.rx a) pa)) (pa := pa) (bs := natLe 16 (s.rb d).toNat) (by simpa [hl] using hpo)
  rw [hl] at hst
  refine ((Effect.sample _ s _).trans hst).yields he ?_
  have hb := store_bytes (s := s.sample (accessReads .store s (s.rx a) pa)) (pa := pa) (bs := natLe 16 (s.rb d).toNat)
    (State.sample_inv hs) (by simpa [hl] using hpo)
  rw [hl] at hb
  simp only [State.memNat, State.bytes, State.retireTo_mem] at hb ⊢
  rw [hb, leNat_natLe]
  exact Nat.mod_eq_of_lt (s.rb d).isLt

end Transfer

end Sys2Proof.Machine

namespace Sys2Proof
open Machine

/-- Settles O16: the element check comes first in every access (allBuffer_traps); BSET and BGET are an access of 16 bytes. -/
theorem bufferRecords : Obligations.BufferRecords := by
  unfold Obligations.BufferRecords
  refine ⟨fun s a x b _ ht hr => ⟨fun h => ?_, fun h hx => ?_⟩, fun s d a pa hs hd => ⟨fun _ h => ?_, ?_, ?_, ?_⟩⟩
  · exact allBuffer_traps (bufElem_outside h) ht hr x
  · exact allBuffer_traps (bufElem_beyond h hx) ht hr x
  · exact ⟨bset_misaligned hd h, bget_misaligned hd h⟩
  · exact fun h hp hv => bset_loads hd h hp hv
  · exact fun h hp hv hh => bset_illFormed hd h hp hv hh
  · exact fun h hp => bget_stores hd hs h hp

end Sys2Proof
end
section
/-! ## A wait on a copy by a hart that no Carousel holds (R47, R202) -/
namespace Sys2Proof.Machine

/-- A Carousel record whose thread has waited one A-clock. -/
def waitedCar : Car where
  core := 0
  slot := 0
  active := false
  entered := 0
  waited := 1
  skip := none
  w32 := false
  conv := none
  faultTag := none
  emulTag := none
  zparked := false
  preempted := false
  unfiled := none
  leaving := none

/-- The ticket of the first request of channel 0 of L-die 0's engine (R200). -/
def pendingTicket : Word := ticketOf 256 1 0

/-- L-core 0 under a Carousel record, with that ticket, still pending, in x1. -/
def waitingLcore : State :=
  { State.reset with
    hart := { Hart.init (.lcore 0) with u := { User.init with x := User.init.x.set 1 pendingTicket }, car := some waitedCar }
    part := { Part.init with lce := Vector.replicate 2 (Vector.replicate 16 { Chan.init with seq := 1 }) } }

theorem waitingLcore_pending : waitingLcore.copyStatus (waitingLcore.rx 1) = 4 := by decide +kernel

/-- A pending ticket makes XCWAIT wait (R202). -/
theorem exec_xcwait_pending {s : State} {d a : XReg} (h : s.copyStatus (s.rx a) = 4) :
    exec (.xcwait d a) s = .next (s.setWait (.xcwait (s.rx a))) := by
  refine finish_wait ?_
  rw [run_bind_ok (run_get s)]
  simp only [h, if_true]
  exact run_bind_error (run_throw ..)

/-- Only a thread at the W-site is filed in a bin: the wait of an L-core leaves a Carousel record as it is. -/
theorem setWait_lcore {s : State} {n : Nat} (h : s.hart.id = .lcore n) (w : Wait) : (s.setWait w).hart.car = s.hart.car := by
  simp [State.setWait, h]

end Sys2Proof.Machine

namespace Sys2Proof
open Machine

/-- Refutes O25: where XCWAIT waits, the statement asks that the hart's Carousel record be filed anew, and nothing in it says that the hart is
a thread of the W-site. L-core 0 of `waitingLcore` has a record that has waited one A-clock: XCWAIT of its pending ticket leaves it so. -/
theorem not_copyRequests : ¬ Obligations.CopyRequests := by
  unfold Obligations.CopyRequests
  intro h
  obtain ⟨-, hwait⟩ := h
  obtain ⟨-, hwait, -⟩ := hwait waitingLcore 0 1
  obtain ⟨t, he, hh, -⟩ := hwait waitingLcore_pending
  rw [exec_xcwait_pending waitingLcore_pending] at he
  obtain rfl := Host.Outcome.next.inj he
  have hcar := setWait_lcore (s := waitingLcore) (n := 0) rfl (.xcwait (waitingLcore.rx 1))
  rw [hh] at hcar
  have hw : some 0 = some 1 := congrArg (Option.map Car.waited) hcar
  exact absurd hw (by decide)

end Sys2Proof
end
section
/-! ## An image that covers the page table of its own translation (R55, R263) -/
namespace Sys2Proof.Machine

/-- L-core 0 in U-mode under Sv48: the root table at 1000h points to the table at 2000h, whose entry 0 is the 1 GiB leaf of physical address 0.
x1 is 2000h, where that leaf itself stands, and word 7 of an image follows later. -/
def selfMapped : State :=
  { State.reset with
    hart := { Hart.init (.lcore 0) with
      u := { User.init with x := User.init.x.set 1 0x2000 }
      sup := { Sup.init with mode := .u, satp := 0x9000000000000001 } }
    mem := [(0x1000, 0x01), (0x1001, 0x08), (0x2000, 0xD7)]
    part := { Part.init with ranges := [(0, 0x100000)] }
    split := 128 }

/-- The weights of points 0 to 3 in memory, where an instruction completes. -/
def weightsAfter : Host.Outcome State Fault Refusal → List Byte
  | .next t => t.bytes 0x2020 8
  | _ => []

theorem selfMapped_inv : selfMapped.Inv := rfl

theorem selfMapped_plain : PlainAccess .store selfMapped (selfMapped.rx 1) 64 0x2000 :=
  ⟨by decide, by decide +kernel, by decide +kernel, by decide +kernel, by decide +kernel, by decide +kernel, by decide +kernel,
    fun _ _ => rfl, by decide +kernel⟩

theorem selfMapped_walk :
    ∀ i < 8, walkOf selfMapped (xmodeOf selfMapped.hart .store) .store (selfMapped.rx 1 + BitVec.ofNat 64 (8 * i)) = .ok (0x2000 + 8 * i) none := by
  decide +kernel

/-- Stored at one time, the image reaches its weights. -/
theorem weightsAfter_whole : weightsAfter (exec (.dst 0 1) { selfMapped with split := 0 }) = [0, 32, 0, 32, 0, 32, 0, 32] := by decide +kernel

/-- Stored word by word, word 0 clears the leaf that translates the words behind it: they fault and are not written. -/
theorem weightsAfter_split : weightsAfter (exec (.dst 0 1) selfMapped) = List.replicate 8 0 := by decide +kernel

end Sys2Proof.Machine

namespace Sys2Proof
open Machine

/-- Refutes O38: an image may cover the page-table entry of its own translation. Where its words are stored one by one (log 95), each under a
translation of its own, DST in `selfMapped` clears the entry with word 0, and word 4 is never stored though the mask does not name it. -/
theorem not_distributionTransfer : ¬ Obligations.DistributionTransfer := by
  unfold Obligations.DistributionTransfer
  intro h
  obtain ⟨-, hin⟩ := h selfMapped 0 0 0 0 1 0 0x2000 selfMapped_inv
  obtain ⟨-, -, -, hsplit, -⟩ := hin (by decide +kernel)
  have hwhole := weightsAfter_whole
  cases hq : exec (.dst 0 1) { selfMapped with split := 0 } with
  | next q =>
    obtain ⟨t, he, -, -, -, hwords, -⟩ := hsplit q (by decide +kernel) selfMapped_plain (by decide) selfMapped_walk hq
    have hpart := weightsAfter_split
    rw [hq] at hwhole
    rw [he] at hpart
    have hword : t.bytes 0x2020 8 = q.bytes 0x2020 8 := hwords 4 (by decide)
    exact absurd ((hpart.symm.trans hword).trans hwhole) (by decide)
  | _ =>
    rw [hq] at hwhole
    exact absurd hwhole (by simp [weightsAfter])

end Sys2Proof
end
section
/-! ## Harts mapped, W-cores changed, and what a write to memory by the device leaves (R47, R53, R91) -/
namespace Sys2Proof.Machine

/-! ## Harts changed one by one -/

namespace State

variable {s t : State} {k : HartId} {g : Hart}

/-- The state with f applied to every hart. -/
def mapHarts (f : Hart → Hart) (s : State) : State := { s with hart := f s.hart, harts := s.harts.map f }

theorem allHarts_mapHarts (f : Hart → Hart) : (s.mapHarts f).allHarts = s.allHarts.map f := rfl

theorem modHart_eq_mapHarts (h : HartId) (f : Hart → Hart) : s.modHart h f = s.mapHarts fun y => if y.id == h then f y else y := rfl

theorem mapHarts_mapHarts (f g : Hart → Hart) : (s.mapHarts f).mapHarts g = s.mapHarts (g ∘ f) := by simp [mapHarts]

theorem mapHarts_id : s.mapHarts id = s := by simp [mapHarts]

/-- The threads of the list changed by f. -/
def changeIn (l : List Nat) (f : Hart → Hart) (y : Hart) : Hart := if y.id ∈ l.map HartId.wthread then f y else y

/-- A change made once for every thread of a list, by a function that the changes leave as it is, is one change of those threads. -/
theorem foldl_modHart {F : State → Hart → Hart} (hid : ∀ y, (F s y).id = y.id) (hidem : ∀ y, F s (F s y) = F s y)
    (hF : ∀ f t, F (mapHarts f t) = F t) (l : List Nat) :
    l.foldl (fun (t : State) c => t.modHart (.wthread c) (F t)) s = s.mapHarts (changeIn l (F s)) := by
  suffices h : ∀ l' f, (∀ y, (f y).id = y.id) →
      l'.foldl (fun (t : State) c => t.modHart (.wthread c) (F t)) (s.mapHarts f) = s.mapHarts (changeIn l' (F s) ∘ f) from by
    have := h l id fun _ => rfl
    rwa [mapHarts_id] at this
  intro l'
  induction l' with
  | nil =>
    intro f _
    congr 1
  | cons c l' ih =>
    intro f hf
    rw [List.foldl_cons, modHart_eq_mapHarts, mapHarts_mapHarts, hF, ih _ fun y => ?_]
    · congr 1
      funext y
      have hn := hid (f y)
      by_cases hc : (f y).id = .wthread c <;> by_cases hl : (f y).id ∈ l'.map HartId.wthread <;> simp_all [changeIn]
    · show (if (f y).id == HartId.wthread c then F s (f y) else f y).id = y.id
      split
      · rw [hid, hf]
      · exact hf y

theorem hart?_mapHarts {f : Hart → Hart} (hf : ∀ y, (f y).id = y.id) : (s.mapHarts f).hart? k = (s.hart? k).map f := hart?_of_map hf rfl _

/-- Where names are distinct, a hart is what its name looks up. -/
theorem hart?_of_mem (hd : s.NamesDistinct) (hg : g ∈ s.allHarts) : s.hart? g.id = some g := by
  cases hf : s.hart? g.id with
  | none => exact absurd (List.find?_eq_none.1 hf g hg) (by simp)
  | some y => rw [List.inj_on_of_nodup_map hd (List.mem_of_find?_eq_some hf) hg (id_of_hart? hf)]

/-! ## W-cores changed -/

theorem find?_adjust {α : Type} {p q : α → Bool} {f : α → α} (hf : ∀ a, q (f a) = q a) (l : List α) :
    (adjust p f l).find? q = (l.find? q).map fun a => if p a then f a else a := by
  rw [adjust, List.find?_map]
  congr 2
  funext a
  simp only [Function.comp]
  split
  · exact hf a
  · rfl

theorem wcore?_modW {n w : Nat} {f : WCore → WCore} (hf : ∀ c, (f c).num = c.num) :
    (s.modW w f).wcore? n = (s.wcore? n).map fun c => if c.num == w then f c else c := find?_adjust (fun c => by rw [hf]) _

theorem num_of_wcore? {n : Nat} {c : WCore} (h : s.wcore? n = some c) : c.num = n := by simpa using List.find?_some h

theorem wcore?_modW_same {w : Nat} {c : WCore} {f : WCore → WCore} (hf : ∀ c, (f c).num = c.num) (h : s.wcore? w = some c) :
    (s.modW w f).wcore? w = some (f c) := by
  rw [wcore?_modW hf, h]
  simp [num_of_wcore? h]

theorem wcore?_modW_other {n w : Nat} {f : WCore → WCore} (hf : ∀ c, (f c).num = c.num) (hn : n ≠ w) : (s.modW w f).wcore? n = s.wcore? n := by
  rw [wcore?_modW hf]
  cases h : s.wcore? n with
  | none => rfl
  | some c => simp [num_of_wcore? h, hn]

end State

/-! ## What a write by the device or the host leaves -/

/-- The hart but for its reservation, its watch and the place of its registers. -/
def Hart.bare (h : Hart) : Hart := { h with resv := none, watch := none, car := h.car.map fun c => { c with active := false } }

/-- t differs from s in memory, in reservations, watches and the places of registers, in the counts of pages, the free values used and in what
the package holds for others. -/
structure Quiet (s t : State) : Prop where
  hart : t.hart.bare = s.hart.bare
  harts : t.harts.map Hart.bare = s.harts.map Hart.bare
  part : { t.part with hotCounts := s.part.hotCounts } = s.part
  pkg : { t.pkg with remote := s.pkg.remote, held := s.pkg.held, hostOut := s.pkg.hostOut } = s.pkg
  own : SameOwn s t

namespace Quiet

variable {s t u : State}

theorem refl (s : State) : Quiet s s := ⟨rfl, rfl, rfl, rfl, rfl, rfl, rfl, rfl, rfl⟩

theorem trans (h1 : Quiet s t) (h2 : Quiet t u) : Quiet s u := by
  refine ⟨h2.hart.trans h1.hart, h2.harts.trans h1.harts, ?_, ?_, h1.own.trans h2.own⟩
  · rw [← h1.part, ← h2.part]
  · rw [← h1.pkg, ← h2.pkg]

/-- A look-up finds the same hart but for what a write changes. -/
theorem hart? (h : Quiet s t) (k : HartId) : (t.hart? k).map Hart.bare = (s.hart? k).map Hart.bare := by
  have hall : t.allHarts.map Hart.bare = s.allHarts.map Hart.bare := by simp [State.allHarts, h.hart, h.harts]
  have hbare : ∀ v : State, (v.hart? k).map Hart.bare = (v.allHarts.map Hart.bare).find? fun x => x.id == k :=
    fun v => (List.find?_map (f := Hart.bare) (p := fun x : Hart => x.id == k)).symm
  rw [hbare, hbare, hall]

theorem wcore? (h : Quiet s t) (n : Nat) : t.wcore? n = s.wcore? n := by rw [State.wcore?, State.wcore?, ← h.part]

/-- What does not read the counts of pages is as it was. -/
theorem part_eq {α : Sort*} (h : Quiet s t) (f : Part → α) (hf : ∀ p c, f { p with hotCounts := c } = f p) : f t.part = f s.part :=
  (hf t.part s.part.hotCounts).symm.trans (congrArg f h.part)

theorem pkg_eq {α : Sort*} (h : Quiet s t) (f : Pkg → α) (hf : ∀ k a b c, f { k with remote := a, held := b, hostOut := c } = f k) :
    f t.pkg = f s.pkg :=
  (hf t.pkg ..).symm.trans (congrArg f h.pkg)

theorem foldl {α : Type} {f : State → α → State} (hf : ∀ t a, Quiet t (f t a)) (l : List α) (s : State) : Quiet s (l.foldl f s) := by
  induction l generalizing s with
  | nil => exact refl s
  | cons a l ih => exact (hf s a).trans (ih _)

theorem sample (s : State) (l : List Nat) : Quiet s (s.sample l) := by
  unfold State.sample
  split
  · exact ⟨rfl, rfl, rfl, rfl, rfl, rfl, rfl, rfl, rfl⟩
  · exact refl s

theorem touched_bare (pa len : Nat) (h : Hart) : (touched pa len h).bare = h.bare := rfl

theorem engineWrite (s : State) (pa : Nat) (bs : List Byte) : Quiet s (s.engineWrite pa bs) := by
  obtain ⟨-, -, hp, hk, ho, -⟩ := rawWrite_rest s pa bs
  refine trans (t := ({ s.rawWrite pa bs with
    hart := touched pa bs.length s.hart, harts := s.harts.map (touched pa bs.length) } : State).probeRemote pa bs.length) ⟨rfl, ?_, ?_, ?_, ho⟩ (sample _ _)
  · simp [State.probeRemote, State.probeFor, Function.comp_def, touched_bare]
  · simp [State.probeRemote, State.probeFor, hp]
  · simp [State.probeRemote, State.probeFor, hk]

theorem modHart {h : HartId} {f : Hart → Hart} (hf : ∀ y, (f y).bare = y.bare) : Quiet s (s.modHart h f) := by
  refine ⟨?_, ?_, rfl, rfl, rfl, rfl, rfl, rfl, rfl⟩
  · show (if s.hart.id == h then f s.hart else s.hart).bare = _
    split
    · exact hf _
    · rfl
  · rw [State.modHart, adjust, List.map_map]
    refine List.map_congr_left fun y _ => ?_
    simp only [Function.comp]
    split
    · exact hf y
    · rfl

/-- Registers stowed in a park slot. -/
theorem stow (s : State) (ctx : Nat) : Quiet s (s.stow ctx) := by
  unfold State.stow
  split
  · refine trans ?_ (modHart fun y => ?_)
    · split
      · exact (engineWrite ..).trans ⟨rfl, rfl, rfl, rfl, rfl, rfl, rfl, rfl, rfl⟩
      · exact refl s
    · simp only [Hart.bare]
      cases y.car <;> rfl
  · exact refl s

theorem parkContexts (s : State) (w : Nat) : Quiet s (s.parkContexts w) := by
  unfold State.parkContexts
  split
  · refine foldl (fun t h => ?_) _ s
    split
    · exact stow ..
    · exact refl t
  · exact refl s

end Quiet

end Sys2Proof.Machine
end
section
/-! ## The issue slots: bins, groups and their lanes (R48 to R51) -/
namespace Sys2Proof.Machine

variable {s : State} {w : Nat} {c : WCore} {slot : Fin 4} {b : Bin} {g : Group}

/-! ## Set widths and bins -/

theorem setwOf_pos (s : State) (h : Hart) : 0 < setwOf s h := by
  have hz : 0 < 8 <<< h.u.zpack.toNat := by simp [Nat.shiftLeft_eq]
  have hc : 0 < capOf s h := by
    unfold capOf
    split <;> split <;> decide
  unfold setwOf
  split
  · split
    · decide
    · exact lt_min hz hc
  · decide

theorem setwOf_le (s : State) (h : Hart) : setwOf s h ≤ 64 := by
  have hc : capOf s h ≤ 64 := by
    unfold capOf
    split <;> split <;> decide
  unfold setwOf
  split
  · split
    · decide
    · exact (min_le_right ..).trans hc
  · decide

theorem vlaneOf_lt (s : State) (h : Hart) : vlaneOf s h < setwOf s h := Nat.mod_lt _ (setwOf_pos s h)

/-- The lanes of a bin are threads that may be drawn, with the bin's pc, set width and class. -/
theorem mem_lanes_of_bins (hb : b ∈ s.bins c) {h : Hart} (hh : h ∈ b.lanes) :
    h ∈ s.allHarts ∧ drawable s c h = true ∧ h.u.pc = b.pc ∧ setwOf s h = b.setw ∧ profClass h.u.zwprof = b.cls := by
  obtain ⟨k, -, rfl⟩ := List.mem_map.1 hb
  obtain ⟨hm, hk⟩ := List.mem_filter.1 hh
  obtain ⟨ha, hd⟩ := List.mem_filter.1 hm
  obtain rfl := eq_of_beq hk
  exact ⟨ha, hd, by simp [binKey], rfl, rfl⟩

theorem lanes_ne_nil_of_bins (hb : b ∈ s.bins c) : b.lanes ≠ [] := by
  obtain ⟨k, hk, rfl⟩ := List.mem_map.1 hb
  obtain ⟨h, hh, rfl⟩ := List.mem_map.1 (List.mem_dedup.1 hk)
  exact List.ne_nil_of_mem (List.mem_filter.2 ⟨hh, beq_self_eq_true _⟩)

theorem lanes_nodup_of_bins (hd : s.NamesDistinct) (hb : b ∈ s.bins c) : b.lanes.Nodup := by
  obtain ⟨k, -, rfl⟩ := List.mem_map.1 hb
  exact ((List.Nodup.of_map _ hd).filter _).filter _

theorem setw_of_bins (hb : b ∈ s.bins c) : 0 < b.setw ∧ b.setw ≤ 64 := by
  obtain ⟨h, hh⟩ := List.exists_mem_of_ne_nil _ (lanes_ne_nil_of_bins hb)
  obtain ⟨-, -, -, hw, -⟩ := mem_lanes_of_bins hb hh
  exact hw ▸ ⟨setwOf_pos s h, setwOf_le s h⟩

/-- A set of a bin: those of its lanes that share a set's key. -/
theorem mem_sets {l : List Hart} : l ∈ b.sets s ↔ ∃ h ∈ b.lanes, l = b.lanes.filter fun y => setKey s y == setKey s h := by
  rw [Bin.sets, (sortOn_perm _).mem_iff]
  simp only [List.mem_map, List.mem_dedup]
  constructor
  · rintro ⟨k, ⟨h, hh, rfl⟩, rfl⟩
    exact ⟨h, hh, rfl⟩
  · rintro ⟨h, hh, rfl⟩
    exact ⟨_, ⟨h, hh, rfl⟩, rfl⟩

theorem sets_ne_nil (hb : b.lanes ≠ []) : b.sets s ≠ [] := by
  obtain ⟨h, hh⟩ := List.exists_mem_of_ne_nil _ hb
  exact List.ne_nil_of_mem (mem_sets.2 ⟨h, hh, rfl⟩)

/-! ## The order of bins (R50) -/

theorem bin_key (b : Bin) : ∃ l, b.key = (2 ^ 64 - b.wait) :: l := ⟨_, rfl⟩

/-- A bin of which P holds, with the longest wait of those. -/
def LongestWait (s : State) (c : WCore) (P : Bin → Prop) (b : Bin) : Prop :=
  b ∈ s.bins c ∧ P b ∧ ∀ b' ∈ s.bins c, P b' → b'.wait ≤ b.wait

section Order

variable {P : Bin → Prop} [DecidablePred P]

/-- The first of some bins in order has waited longest. -/
theorem longestWait_first {l : List Bin} (hw : ∀ b ∈ s.bins c, b.wait < 2 ^ 64)
    (h : sortOn Bin.key ((s.bins c).filter fun b => P b) = b :: l) : LongestWait s c P b := by
  have hmem (x : Bin) : x ∈ b :: l ↔ x ∈ s.bins c ∧ P x := by
    rw [← h, (sortOn_perm _).mem_iff, List.mem_filter, decide_eq_true_iff]
  obtain ⟨hb, hp⟩ := (hmem b).1 (List.mem_cons_self ..)
  refine ⟨hb, hp, fun b' hb' hp' => ?_⟩
  have hsorted := sortOn_pairwise bin_key ((s.bins c).filter fun b => P b)
  rw [h] at hsorted
  rcases List.mem_cons.1 ((hmem b').2 ⟨hb', hp'⟩) with rfl | ht
  · exact le_rfl
  · have hle := (List.pairwise_cons.1 hsorted).1 b' ht
    have hlt' := hw b' hb'
    have hlt := hw b hb
    omega

theorem sorted_eq_nil_iff (hw : ∀ b ∈ s.bins c, b.wait < 2 ^ 64) :
    sortOn Bin.key ((s.bins c).filter fun b => P b) = [] ↔ ¬ ∃ b, LongestWait s c P b := by
  constructor
  · rintro h ⟨b, hb, hp, -⟩
    have hm : b ∈ sortOn Bin.key ((s.bins c).filter fun b => P b) :=
      (sortOn_perm _).mem_iff.2 (List.mem_filter.2 ⟨hb, decide_eq_true hp⟩)
    rw [h] at hm
    cases hm
  · intro h
    cases hs : sortOn Bin.key ((s.bins c).filter fun b => P b) with
    | nil => rfl
    | cons b l => exact absurd ⟨b, longestWait_first hw hs⟩ h

end Order

/-! ## The lanes that a bin gives a group -/

/-- The harts that a bin gives a group: whole sets, each in the order of its vlanes (R50). -/
def Bin.picked (s : State) (b : Bin) : List Hart := (b.drawn s).flatMap fun l => sortOn (fun h => [vlaneOf s h]) l

theorem mem_picked {h : Hart} (hh : h ∈ b.picked s) : h ∈ b.lanes := by
  obtain ⟨l, hl, hm⟩ := List.mem_flatMap.1 hh
  obtain ⟨k, -, rfl⟩ := mem_sets.1 (List.mem_of_mem_take hl)
  exact List.mem_of_mem_filter ((sortOn_perm _).mem_iff.1 hm)

theorem picked_ne_nil (hb : b ∈ s.bins c) : b.picked s ≠ [] := by
  obtain ⟨hpos, hle⟩ := setw_of_bins hb
  obtain ⟨l, ls, hl⟩ := List.exists_cons_of_ne_nil (sets_ne_nil (s := s) (lanes_ne_nil_of_bins hb))
  obtain ⟨k, hk⟩ : ∃ k, 64 / b.setw = k + 1 := Nat.exists_eq_add_one.2 (Nat.div_pos hle hpos)
  obtain ⟨h, hh, hs⟩ := mem_sets.1 (hl ▸ List.mem_cons_self .. : l ∈ b.sets s)
  have hm : h ∈ l := hs ▸ List.mem_filter.2 ⟨hh, beq_self_eq_true _⟩
  refine List.ne_nil_of_mem (a := h) (List.mem_flatMap.2 ⟨l, ?_, (sortOn_perm _).mem_iff.2 hm⟩)
  rw [Bin.drawn, hl, hk, List.take_succ_cons]
  exact List.mem_cons_self ..

/-- Members of one set with vlanes of their own are no more than the set is wide. -/
theorem length_set_le (hd : s.NamesDistinct) (hb : b ∈ s.bins c)
    (hv : ∀ h ∈ s.allHarts, ∀ k ∈ s.allHarts, setKey s h = setKey s k → vlaneOf s h = vlaneOf s k → h = k) {l : List Hart} (hl : l ∈ b.sets s) :
    l.length ≤ b.setw := by
  obtain ⟨k, -, rfl⟩ := mem_sets.1 hl
  set l := b.lanes.filter fun y => setKey s y == setKey s k
  have hmem : ∀ h ∈ l, h ∈ b.lanes ∧ setKey s h = setKey s k := fun h hh => by simpa [l] using hh
  have hnd : (l.map (vlaneOf s)).Nodup := by
    refine List.Nodup.map_on (fun x hx y hy hxy => ?_) ((lanes_nodup_of_bins hd hb).filter _)
    obtain ⟨hxb, hxk⟩ := hmem x hx
    obtain ⟨hyb, hyk⟩ := hmem y hy
    exact hv x (mem_lanes_of_bins hb hxb).1 y (mem_lanes_of_bins hb hyb).1 (hxk.trans hyk.symm) hxy
  have hsub : l.map (vlaneOf s) ⊆ List.range b.setw := by
    intro n hn
    obtain ⟨h, hh, rfl⟩ := List.mem_map.1 hn
    obtain ⟨-, -, -, hw, -⟩ := mem_lanes_of_bins hb (hmem h hh).1
    exact List.mem_range.2 (hw ▸ vlaneOf_lt s h)
  simpa using (List.subperm_of_subset hnd hsub).length_le

theorem length_picked_le (hd : s.NamesDistinct) (hb : b ∈ s.bins c)
    (hv : ∀ h ∈ s.allHarts, ∀ k ∈ s.allHarts, setKey s h = setKey s k → vlaneOf s h = vlaneOf s k → h = k) : (b.picked s).length ≤ 64 := by
  have hset : ∀ n ∈ (b.drawn s).map List.length, n ≤ b.setw := by
    intro n hn
    obtain ⟨l, hl, rfl⟩ := List.mem_map.1 hn
    exact length_set_le hd hb hv (List.mem_of_mem_take hl)
  calc (b.picked s).length = ((b.drawn s).map List.length).sum := by simp [Bin.picked, List.length_flatMap, (sortOn_perm _).length_eq]
    _ ≤ ((b.drawn s).map List.length).length * b.setw := by simpa using List.sum_le_card_nsmul _ _ hset
    _ ≤ 64 / b.setw * b.setw := by
      rw [List.length_map]
      exact Nat.mul_le_mul_right _ (List.length_take_le ..)
    _ ≤ 64 := Nat.div_mul_le_self ..

/-! ## A group drawn and a group ended -/

/-- A lane as its bin is drawn: its registers are in the register file (R47, R50). -/
def drawnLane (s : State) (h : Hart) : Hart :=
  { h with car := h.car.map fun k => { k with active := true, skip := none, conv := if (s.focus h.id).atCross then some h.u.pc else k.conv } }

/-- A lane as its group ends: it enters its bin anew (R49). -/
def endedLane (s : State) (h : Hart) : Hart :=
  { h with car := h.car.map fun k => { Car.refiled s k with skip := k.skip.map fun _ => s.pkg.zaclk.toNat + 1 } }

theorem drawnLane_drawnLane (s : State) (h : Hart) : drawnLane s (drawnLane s h) = drawnLane s h := by
  unfold drawnLane
  cases h.car with
  | none => rfl
  | some k => cases (s.focus h.id).atCross <;> simp

theorem endedLane_endedLane (s : State) (h : Hart) : endedLane s (endedLane s h) = endedLane s h := by
  simp only [endedLane, Option.map_map]
  congr 2
  funext k
  simp [Car.refiled, Function.comp_def]

/-- The W-core with a slot holding g, or free. -/
def WCore.withSlot (slot : Nat) (g : Option Group) (c : WCore) : WCore := { c with slots := c.slots.setIfInBounds slot g }

theorem withSlot_same {g : Option Group} : (c.withSlot slot.val g).slots[slot] = g := by simp [WCore.withSlot]

theorem withSlot_other {g : Option Group} {j : Fin 4} (h : j ≠ slot) : (c.withSlot slot.val g).slots[j] = c.slots[j] := by
  have : slot.val ≠ j.val := fun h' => h (Fin.ext h'.symm)
  simp [WCore.withSlot, this]

theorem slots_getD : c.slots.toList.getD slot.val none = c.slots[slot] := by simp [List.getD_eq_getElem?_getD]

/-- The state whose bin b has been drawn, but for the contexts that leave the register file for it. -/
def State.filled (s : State) (w slot : Nat) (b : Bin) : State :=
  (s.mapHarts (State.changeIn ((b.picked s).map Hart.ctx) (drawnLane s))).modW w
    (WCore.withSlot slot (some ⟨(b.picked s).map Hart.ctx, (b.picked s).map Hart.ctx, false, 0, []⟩))

theorem drawBin_eq (s : State) (w slot : Nat) (b : Bin) : s.drawBin w slot b = (s.filled w slot b).parkContexts w := by
  have h := State.foldl_modHart (s := s) (F := fun _ => drawnLane s) (fun _ => rfl) (drawnLane_drawnLane s) (fun _ _ => rfl)
    ((b.picked s).map Hart.ctx)
  unfold State.filled
  rw [← h]
  rfl

theorem settleGroup_ending (h : g.ending = true) :
    s.settleGroup w slot g = (s.mapHarts (State.changeIn g.lanes (endedLane s))).modW w (WCore.withSlot slot none) := by
  have hf := State.foldl_modHart (s := s) (F := endedLane) (fun _ => rfl) (endedLane_endedLane s) (fun _ _ => rfl) g.lanes
  rw [← hf, State.settleGroup, h, Bool.true_or, if_pos rfl]
  rfl

theorem settleGroup_goes_on (he : g.ending = false) (hl : g.lanes ≠ []) :
    s.settleGroup w slot g = s.modW w (WCore.withSlot slot (some { g with todo := g.lanes, code := [] })) := by
  have hn : (g.ending || g.lanes.isEmpty) = false := by simp [he, hl]
  rw [State.settleGroup, hn]
  rfl

/-- The slot is free and the lanes of its group have entered their bins anew. -/
def GroupEnded (s : State) (w : Nat) (c : WCore) (slot : Fin 4) (t : State) (g : Group) : Prop :=
  (∃ c', t.wcore? w = some c' ∧ c'.slots[slot] = none ∧ ∀ j : Fin 4, j ≠ slot → c'.slots[j] = c.slots[j]) ∧ t.mem = s.mem ∧
  ∀ k ∈ g.lanes, ∀ h q, s.hart? (.wthread k) = some h → h.car = some q →
    ∃ h' q', t.hart? (.wthread k) = some h' ∧ h'.u = h.u ∧ h'.wait = h.wait ∧ h'.car = some q' ∧ q'.waited = 0 ∧
      q'.entered = s.pkg.zaclk.toNat ∧ q'.conv = none ∧ q'.w32 = s.part.w32

theorem groupEnded_settleGroup (hc : s.wcore? w = some c) (h : g.ending = true) : GroupEnded s w c slot (s.settleGroup w slot g) g := by
  rw [settleGroup_ending h]
  refine ⟨⟨_, State.wcore?_modW_same (fun _ => rfl) hc, withSlot_same, fun j => withSlot_other⟩, rfl, fun k hk x q hx hq => ?_⟩
  have hlook : (s.mapHarts (State.changeIn g.lanes (endedLane s))).hart? (.wthread k) = some (endedLane s x) := by
    rw [State.hart?_mapHarts fun y => ?_, hx, Option.map_some, State.changeIn, State.id_of_hart? hx, if_pos (List.mem_map_of_mem hk)]
    unfold State.changeIn
    split <;> rfl
  exact ⟨_, { Car.refiled s q with skip := q.skip.map fun _ => s.pkg.zaclk.toNat + 1 }, hlook, rfl, rfl, by simp [endedLane, hq], rfl, rfl, rfl,
    rfl⟩

end Sys2Proof.Machine
end
section
/-! ## CAROUSEL_DRAW, BIN_AGED and GROUP_SLOT_LIMIT (R49 to R51) -/
namespace Sys2Proof.Machine

variable {s : State} {w : Nat} {c : WCore} {slot : Fin 4} {b : Bin} {g : Group}

/-- The register file holds every resident of the W-core (R27). -/
def ResidentsFit (s : State) (w : Nat) : Prop :=
  ((s.allHarts.filter fun h => h.residentOn w).length ≤ 1536) ∧
  ((s.allHarts.filter fun h => h.residentOn w).map fun h => classSpace (profClass h.u.zwprof)).sum ≤ 2 ^ 20

/-- The slot i holds a new group of whole sets of the bin, and the other slots stand. -/
def DrawnInto (s : State) (w : Nat) (c : WCore) (t : State) (i : Fin 4) (b : Bin) : Prop :=
  ∃ c' g, t.wcore? w = some c' ∧ c'.slots[i] = some g ∧ g.todo = g.lanes ∧ g.ending = false ∧ g.clocks = 0 ∧ g.lanes ≠ [] ∧
    ((∀ h ∈ s.allHarts, ∀ k ∈ s.allHarts, setKey s h = setKey s k → vlaneOf s h = vlaneOf s k → h = k) → g.lanes.length ≤ 64) ∧
    (∀ j : Fin 4, j ≠ i → c'.slots[j] = c.slots[j]) ∧
    (∀ k ∈ g.lanes, ∃ h ∈ s.allHarts, h.id = .wthread k ∧ drawable s c h = true ∧ h.u.pc = b.pc ∧ setwOf s h = b.setw ∧
      profClass h.u.zwprof = b.cls) ∧
    (ResidentsFit s w → t.mem = s.mem ∧ ∀ k ∈ g.lanes, ∃ h q, t.hart? (.wthread k) = some h ∧ h.car = some q ∧ q.active = true) ∧
    ∀ h, (t.hart? h).map Hart.u = (s.hart? h).map Hart.u

theorem drawable_thread {h : Hart} (hd : drawable s c h = true) : h.id = .wthread h.ctx ∧ ∃ k, h.car = some k := by
  unfold drawable at hd
  split at hd
  · rename_i ctx k hi hk
    exact ⟨by rw [Hart.ctx, hi], k, hk⟩
  · cases hd

/-- Lanes drawn change what stands in the register file and nothing that counts for its room. -/
theorem changeIn_drawnLane_rest (l : List Nat) (h : Hart) :
    (State.changeIn l (drawnLane s) h).id = h.id ∧ (State.changeIn l (drawnLane s) h).u = h.u ∧
    (State.changeIn l (drawnLane s) h).residentOn w = h.residentOn w := by
  unfold State.changeIn
  split
  · refine ⟨rfl, rfl, ?_⟩
    simp only [Hart.residentOn, drawnLane]
    cases h.car <;> rfl
  · exact ⟨rfl, rfl, rfl⟩

/-- A W-core whose residents all fit has room for its active contexts. -/
theorem fileOver_filled (hf : ResidentsFit s w) : (s.filled w slot b).fileOver w = false := by
  set φ := State.changeIn ((b.picked s).map Hart.ctx) (drawnLane s)
  obtain ⟨hlen, hspace⟩ := hf
  have hact : (s.filled w slot b).activeOn w = (s.allHarts.filter fun h => (φ h).residentOn w && (φ h).car.any Car.active).map φ := by
    have ha : (s.filled w slot b).allHarts = s.allHarts.map φ := rfl
    rw [State.activeOn, ha, List.filter_map]
    congr 2
    funext h
    simp only [Function.comp]
    cases (φ h).car <;> rfl
  have hsub : (s.allHarts.filter fun h => (φ h).residentOn w && (φ h).car.any Car.active).Sublist (s.allHarts.filter fun h => h.residentOn w) := by
    refine List.monotone_filter_right _ fun h hh => ?_
    obtain ⟨-, -, hres⟩ := changeIn_drawnLane_rest (s := s) (w := w) ((b.picked s).map Hart.ctx) h
    rw [Bool.and_eq_true] at hh
    exact hres.symm.trans hh.1
  have hcls : ∀ h, (φ h).u = h.u := fun h => (changeIn_drawnLane_rest (w := w) ((b.picked s).map Hart.ctx) h).2.1
  simp only [State.fileOver, hact, List.map_map, List.length_map, Function.comp_def, hcls, Bool.or_eq_false_iff, decide_eq_false_iff_not,
    Nat.not_lt]
  exact ⟨hsub.length_le.trans hlen, ((hsub.map _).sum_le_sum fun _ _ => Nat.zero_le _).trans hspace⟩

theorem parkContexts_of_room (h : s.fileOver w = false) : s.parkContexts w = s := by
  rw [State.parkContexts, h]
  rfl

theorem hart?_filled {k : HartId} :
    (s.filled w slot b).hart? k = (s.hart? k).map (State.changeIn ((b.picked s).map Hart.ctx) (drawnLane s)) :=
  State.hart?_mapHarts fun y => (changeIn_drawnLane_rest (w := w) _ y).1

/-- A bin of a W-core drawn into one of its slots. -/
theorem drawnInto_drawBin (hc : s.wcore? w = some c) (hd : s.NamesDistinct) (hb : b ∈ s.bins c) :
    DrawnInto s w c (s.drawBin w slot b) slot b := by
  rw [drawBin_eq]
  have hq := Quiet.parkContexts (s.filled w slot b) w
  have hcore : ((s.filled w slot b).parkContexts w).wcore? w = some (c.withSlot slot _) :=
    (hq.wcore? w).trans (State.wcore?_modW_same (fun _ => rfl) hc)
  have hpicked : ∀ h ∈ b.picked s, h ∈ s.allHarts ∧ drawable s c h = true ∧ h.u.pc = b.pc ∧ setwOf s h = b.setw ∧
      profClass h.u.zwprof = b.cls := fun h hh => mem_lanes_of_bins hb (mem_picked hh)
  refine ⟨_, _, hcore, withSlot_same, rfl, rfl, rfl, ?_, fun hv => ?_, fun j => withSlot_other, fun k hk => ?_, fun hf => ?_, fun k => ?_⟩
  · simpa using picked_ne_nil hb
  · simpa using length_picked_le hd hb hv
  · obtain ⟨h, hh, rfl⟩ := List.mem_map.1 hk
    obtain ⟨ha, hdr, hrest⟩ := hpicked h hh
    exact ⟨h, ha, (drawable_thread hdr).1, hdr, hrest⟩
  · rw [parkContexts_of_room (fileOver_filled hf)]
    refine ⟨rfl, fun k hk => ?_⟩
    obtain ⟨h, hh, rfl⟩ := List.mem_map.1 hk
    obtain ⟨ha, hdr, -⟩ := hpicked h hh
    obtain ⟨hid, q, hcar⟩ := drawable_thread hdr
    refine ⟨drawnLane s h, _, ?_, by simp [drawnLane, hcar]; rfl, rfl⟩
    rw [hart?_filled, ← hid, State.hart?_of_mem hd ha, Option.map_some, State.changeIn, if_pos (hid ▸ List.mem_map_of_mem hk)]
  · have hbare : Hart.u ∘ Hart.bare = Hart.u := rfl
    have hu := congrArg (Option.map Hart.u) (hq.hart? k)
    rw [Option.map_map, Option.map_map, hbare] at hu
    rw [hu, hart?_filled, Option.map_map]
    congr 1
    funext h
    exact (changeIn_drawnLane_rest (w := w) _ h).2.1

/-! ## The events -/

section Events

variable (hc : s.wcore? w = some c) (hclock : s.clockStopped w = false) (hp : s.part.preempting = false) (ha : s.active = true)
include hc hclock hp ha

theorem exec_carouselDraw_group (hg : c.slots[slot] = some g) :
    exec (.carouselDraw w slot.val) s = .next (if g.todo.isEmpty then s.settleGroup w slot g else s) := by
  show execCarouselDraw w slot.val s = _
  have hs : ¬ 4 ≤ slot.val := by omega
  have hg : c.slots[slot.val] = _ := hg
  simp [execCarouselDraw, hc, hclock, hp, ha, hs, hg]

theorem exec_carouselDraw_draws (hg : c.slots[slot] = none) {l : List Bin} (hl : s.agedBins c ++ s.fullBins c = b :: l) :
    exec (.carouselDraw w slot.val) s = .next (s.drawBin w slot b) := by
  show execCarouselDraw w slot.val s = _
  have hs : ¬ 4 ≤ slot.val := by omega
  have hg : c.slots[slot.val] = _ := hg
  simp [execCarouselDraw, hc, hclock, hp, ha, hs, hg, hl]

theorem exec_carouselDraw_idle (hg : c.slots[slot] = none) (hl : s.agedBins c ++ s.fullBins c = []) :
    exec (.carouselDraw w slot.val) s = .next s := by
  show execCarouselDraw w slot.val s = _
  have hg : c.slots[slot.val] = _ := hg
  simp [execCarouselDraw, hc, hclock, hp, ha, hg, hl]

theorem exec_binAged_idle (hl : s.agedBins c = []) : exec (.binAged w) s = .next s := by
  show execBinAged w s = _
  simp [execBinAged, hc, hclock, hp, ha, hl]

theorem exec_binAged_draws (hfree : c.freeSlot = some slot.val) {l : List Bin} (hl : s.agedBins c = b :: l) :
    exec (.binAged w) s = .next (s.drawBin w slot b) := by
  show execBinAged w s = _
  simp [execBinAged, hc, hclock, hp, ha, hl, hfree]

omit hp ha in
theorem exec_groupSlotLimit (hg : c.slots[slot] = some g) :
    exec (.groupSlotLimit w slot.val) s = .next (if 64 ≤ g.clocks then s.settleGroup w slot { g with ending := true } else s) := by
  show Host.Outcome.next (s.slotLimit w slot.val) = _
  have hg : c.slots[slot.val] = _ := hg
  simp [State.slotLimit, hc, hclock, hg]

end Events

/-- The lowest free slot is the one below which every slot holds a group. -/
theorem freeSlot_eq (hs : c.slots[slot] = none) (hlow : ∀ j : Fin 4, j < slot → c.slots[j] ≠ none) : c.freeSlot = some slot.val := by
  have hget : ∀ j : Fin 4, c.slots.toList.getD j.val none = c.slots[j] := fun j => slots_getD
  refine List.find?_range_eq_some.2 ⟨?_, List.mem_range.2 slot.isLt, fun j hj => ?_⟩
  · rw [hget slot, hs]
    rfl
  · have hn := hlow ⟨j, hj.trans slot.isLt⟩ hj
    have hj := hget ⟨j, hj.trans slot.isLt⟩
    rw [hj]
    simpa [Option.isSome_iff_ne_none] using hn

end Sys2Proof.Machine

namespace Sys2Proof
open Machine

/-- Settles O49: the bin drawn is the first in the order of waits (longestWait_first), which fills its group with whole sets (drawnInto_drawBin);
a group ends by one operation whatever ends it (groupEnded_settleGroup). -/
theorem carouselGroups : Obligations.CarouselGroups := by
  unfold Obligations.CarouselGroups
  intro s w c slot hc _ hclock hp ha hd hwait here fits ended drawn oldest fullest aged full
  have hagedNil : s.agedBins c = [] ↔ ¬ aged := sorted_eq_nil_iff hwait
  have hfullNil : s.fullBins c = [] ↔ ¬ full := sorted_eq_nil_iff hwait
  have haged : aged → ∃ b l, s.agedBins c = b :: l ∧ oldest b := fun h => by
    obtain ⟨b, l, hl⟩ := List.exists_cons_of_ne_nil (mt hagedNil.1 (not_not.2 h))
    exact ⟨b, l, hl, longestWait_first hwait hl⟩
  have hfull : full → ∃ b l, s.fullBins c = b :: l ∧ fullest b := fun h => by
    obtain ⟨b, l, hl⟩ := List.exists_cons_of_ne_nil (mt hfullNil.1 (not_not.2 h))
    exact ⟨b, l, hl, longestWait_first hwait hl⟩
  refine ⟨fun hs => ⟨fun h => ?_, fun h h' => ?_, fun h h' => ?_, fun h hlow => ?_⟩, fun h => ?_, fun g hg => ⟨fun h => ?_, fun h he hl => ?_,
    fun h he => ?_, fun h => ?_, fun h => ?_⟩⟩
  · obtain ⟨b, l, hl, hb⟩ := haged h
    have hl' : s.agedBins c ++ s.fullBins c = b :: (l ++ s.fullBins c) := by rw [hl, List.cons_append]
    exact ⟨_, b, exec_carouselDraw_draws hc hclock hp ha hs hl', hb, drawnInto_drawBin hc hd hb.1⟩
  · obtain ⟨b, l, hl, hb⟩ := hfull h'
    have hl' : s.agedBins c ++ s.fullBins c = b :: l := by rw [hagedNil.2 h, hl, List.nil_append]
    exact ⟨_, b, exec_carouselDraw_draws hc hclock hp ha hs hl', hb, drawnInto_drawBin hc hd hb.1⟩
  · exact exec_carouselDraw_idle hc hclock hp ha hs (by rw [hagedNil.2 h, hfullNil.2 h', List.nil_append])
  · obtain ⟨b, l, hl, hb⟩ := haged h
    exact ⟨_, b, exec_binAged_draws hc hclock hp ha (freeSlot_eq hs hlow) hl, hb, drawnInto_drawBin hc hd hb.1⟩
  · exact exec_binAged_idle hc hclock hp ha (hagedNil.2 h)
  · rw [exec_carouselDraw_group hc hclock hp ha hg, if_neg (by simpa using h)]
  · refine ⟨s.modW w (WCore.withSlot slot.val (some { g with todo := g.lanes, code := [] })),
      (exec_carouselDraw_group hc hclock hp ha hg).trans ?_,
      ⟨_, State.wcore?_modW_same (fun _ => rfl) hc, withSlot_same, fun j => withSlot_other⟩,
      ⟨fun n hn => State.wcore?_modW_other (fun _ => rfl) hn, rfl⟩, rfl, rfl, rfl, rfl, rfl⟩
    rw [if_pos (by simp [h]), settleGroup_goes_on he hl]
  · rw [exec_carouselDraw_group hc hclock hp ha hg, if_pos (by simp [h])]
    exact ⟨_, rfl, groupEnded_settleGroup hc he⟩
  · rw [exec_groupSlotLimit hc hclock hg, if_pos h]
    exact ⟨_, rfl, groupEnded_settleGroup (g := { g with ending := true }) hc rfl⟩
  · rw [exec_groupSlotLimit hc hclock hg, if_neg (Nat.not_le.2 h)]

end Sys2Proof
end
section
/-! ## Departures for a W-core (R30, R31, R33) -/
namespace Sys2Proof.Machine

variable {s : State} {n ctx w : Nat} {rpc : Word}

/-- No mending entry and no dropped store: an ordering point does not wait (R67). -/
theorem orderingPoint_passes (hm : s.myMends = []) (hd : s.hart.dropped = none) : orderingPoint s = .ok () s := by
  simp [orderingPoint, hm, hd]

/-- The state in which a migration to the W-site departs. -/
def State.setsOut (s : State) (implicitly : Bool) : State :=
  if implicitly then s.modU fun u => { u with home := .w } else (s.modU fun u => { u.clearHold with home := .w }).retire

theorem goW_departs (hm : s.myMends = []) (hd : s.hart.dropped = none) (h : s.departure = some w) (implicitly : Bool) :
    goW implicitly s = .error .done ((s.setsOut implicitly).departToW w (if implicitly then s.pc else s.nextPc)) := by
  rw [goW, run_bind_ok (orderingPoint_passes hm hd), run_bind_ok (run_get s), ← State.pc_add_ilen]
  simp only [h]
  cases implicitly <;> exact run_bind_ok (run_set ..)

theorem goW_waits (hm : s.myMends = []) (hd : s.hart.dropped = none) (h : s.departure = none) (implicitly : Bool) :
    goW implicitly s = .error (.wait .migrate) { s with hart := { s.hart with chosen := s.chosenDest } } := by
  rw [goW, run_bind_ok (orderingPoint_passes hm hd), run_bind_ok (run_get s)]
  simp only [h]
  exact run_bind_ok (run_set ..)

/-- The thread of an L-core as it departs. -/
def departing (s : State) (ctx : Nat) (rpc : Word) : Hart :=
  { Hart.init (.wthread ctx) with
    u := { s.hart.u with pc := rpc }
    sup := { Sup.init with mode := .u, satp := s.hart.sup.satp, scounteren := s.hart.sup.scounteren, mcounteren := s.hart.sup.mcounteren }
    instret := s.hart.instret
    cycle := s.hart.cycle
    extract := s.hart.extract
    budgetDue := s.hart.budgetDue
    dropped := s.hart.dropped
    wrote := s.hart.wrote }

/-- The thread is on its way to the W-core w, and its L-core has entered S-mode with interrupt 16 (R33). -/
structure Departed (s t : State) (n ctx w : Nat) (rpc : Word) : Prop where
  transit : t.part.transit = s.part.transit ++ [⟨ctx, departing s ctx rpc, some w, 0, none, none⟩]
  count : t.part.wfq.count = s.part.wfq.count + 1
  id : t.hart.id = .lcore n
  installed : t.hart.installed = none
  mode : t.hart.sup.mode = .s
  scause : t.hart.sup.scause = 0x8000000000000010
  sepc : t.hart.sup.sepc = rpc &&& ~~~1
  harts : t.harts.map Hart.id = s.harts.map Hart.id

/-- A record written at the end of the W-fault queue: beside memory only the queue's count changes (R307). -/
theorem quiet_pushWf (s : State) (r : WfRec) :
    Quiet (s.modPart fun p => { p with wfq := { p.wfq with count := p.wfq.count + 1 } }) (s.pushWf r) := by
  have h := Quiet.engineWrite s (wfqAddr s.part.wfq s.part.wfq.count) (r.bytes s.pkg.zaclk)
  exact ⟨h.hart, h.harts, congrArg (fun p => { p with wfq := { p.wfq with count := p.wfq.count + 1 } }) h.part, h.pkg, h.own⟩

theorem departToW_departed (hid : s.hart.id = .lcore n) (hi : s.hart.installed = some ctx) : Departed s (s.departToW w rpc) n ctx w rpc := by
  set r : WfRec := { kind := 1, ctx := ctx, pc := rpc, core := n } with hr
  have hq := quiet_pushWf s r
  have hcore : s.departToW w rpc =
      { (s.pushWf r).modPart fun p => { p with transit := p.transit ++ [⟨ctx, departing s ctx rpc, some w, 0, none, none⟩] } with
        freeCount := s.freeCount + 64
        hart := (s.departToW w rpc).hart } := by
    simp only [State.departToW, hi, hid]
    rfl
  have hhart : (s.departToW w rpc).hart =
      enterS true 16 rpc 0
        { (s.pushWf r).hart with
          u := emptyUser s.freeCount, installed := none, resv := none, watch := none, extract := none, budgetDue := false, dropped := none
          wrote := [] } := by
    simp only [State.departToW, hi, hid, State.modPart, ← hr]
  have hpid : (s.pushWf r).hart.id = .lcore n := (congrArg Hart.id hq.hart).trans hid
  refine ⟨?_, ?_, ?_, ?_, ?_, ?_, ?_, ?_⟩
  · rw [hcore]
    exact congrArg (· ++ _) (hq.part_eq Part.transit fun _ _ => rfl)
  · rw [hcore]
    exact hq.part_eq (fun p => p.wfq.count) fun _ _ => rfl
  · rw [hhart, enterS_id]
    exact hpid
  · rw [hhart, enterS_installed]
  · rw [hhart, enterS_mode]
  · rw [hhart, enterS_scause]
    rfl
  · rw [hhart, enterS_sepc]
    rfl
  · rw [hcore]
    have hbare : Hart.id ∘ Hart.bare = Hart.id := rfl
    have hids := congrArg (List.map Hart.id) hq.harts
    rwa [List.map_map, List.map_map, hbare] at hids

/-! ## The choice of a W-core (R31) -/

theorem chosenDest_of_departure (h : s.departure = some w) : s.chosenDest = some w := by
  unfold State.departure at h
  split at h
  · rename_i v hv
    split at h
    · rw [hv, ← h]
    · cases h
  · cases h

/-- The waiting migration keeps the W-core it has chosen, as long as the partition holds that one. -/
theorem chosenDest_chosen {v : Nat} (h : s.hart.chosen = some v) (hv : v ∈ s.part.wcoreNums) : s.chosenDest = some v := by
  simp [State.chosenDest, h, Option.filter, hv]

theorem chosenDest_team {m : Member} {tm : Team} (h : s.hart.chosen = none) (hm : s.memberOf s.who = some m) (ht : s.team? m.team = some tm) :
    s.chosenDest = some tm.wcore := by
  simp [State.chosenDest, h, State.destOf, hm, ht]

theorem chosenDest_alone (h : s.hart.chosen = none) (hm : s.memberOf s.who = none) : s.chosenDest = leastLoaded s s.part.wcoreNums := by
  simp [State.chosenDest, h, State.destOf, hm]

/-- The W-core with the fewest threads, ties to the lowest number. -/
theorem leastLoaded_least {l : List Nat} (h : leastLoaded s l = some w) :
    w ∈ l ∧ ∀ v ∈ l, s.threadsOn w < s.threadsOn v ∨ s.threadsOn w = s.threadsOn v ∧ w ≤ v := by
  induction l generalizing w with
  | nil => cases h
  | cons a l ih =>
    unfold leastLoaded at h
    cases hv : leastLoaded s l with
    | none =>
      have hl : l = [] := by
        cases l with
        | nil => rfl
        | cons b l =>
          unfold leastLoaded at hv
          split at hv
          · split at hv <;> cases hv
          · cases hv
      rw [hv] at h
      obtain rfl := Option.some.inj h
      subst hl
      exact ⟨List.mem_cons_self .., fun v hv => .inr (by simp [List.mem_singleton.1 hv])⟩
    | some v =>
      obtain ⟨hmem, hmin⟩ := ih hv
      simp only [hv] at h
      split at h <;> rename_i hlt <;> obtain rfl := Option.some.inj h <;>
        simp only [Bool.or_eq_true, decide_eq_true_eq, Bool.and_eq_true, beq_iff_eq, not_or, not_and] at hlt
      · refine ⟨List.mem_cons_of_mem _ hmem, fun x hx => ?_⟩
        rcases List.mem_cons.1 hx with rfl | hx
        · omega
        · exact hmin x hx
      · refine ⟨List.mem_cons_self .., fun x hx => ?_⟩
        rcases List.mem_cons.1 hx with rfl | hx
        · omega
        · have := hmin x hx
          omega

/-! ## MIGR.W at the L-site (R147) -/

theorem site_lcore (hid : s.hart.id = .lcore n) : s.site = .l := by simp [State.site, hid]

theorem migrW_noThread (hid : s.hart.id = .lcore n) (hi : s.hart.installed = none) : Traps .migrW s 24 ((instrWord .migrW).setWidth 64) := by
  refine finish_siteTrap ?_
  rw [run_bind_ok (run_get s)]
  simp only [site_lcore hid, hi]
  rfl

theorem exec_migrW_departs {t : State} (hid : s.hart.id = .lcore n) (hi : s.hart.installed = some ctx) (h : goW false s = .error .done t) :
    exec .migrW s = .next t := by
  refine finish_done ?_
  rw [run_bind_ok (run_get s)]
  simp only [site_lcore hid, hi]
  exact h

theorem exec_migrW_waits {t : State} {r : Wait} (hid : s.hart.id = .lcore n) (hi : s.hart.installed = some ctx)
    (h : goW false s = .error (.wait r) t) : exec .migrW s = .next (t.setWait r) := by
  refine finish_wait ?_
  rw [run_bind_ok (run_get s)]
  simp only [site_lcore hid, hi]
  exact h

/-- A migration that cannot take place waits, and has chosen its W-core (R31). -/
theorem setWait_migrate (hid : s.hart.id = .lcore n) :
    ({ s with hart := { s.hart with chosen := s.chosenDest } } : State).setWait .migrate =
      { s with hart := { s.hart with wait := some .migrate, resume := none, chosen := s.chosenDest } } := by
  simp [State.setWait, hid]

/-- The user state with which a thread moves to the other site (R30, R147). -/
def movedUser (s : State) (site : Site) : User := { s.hart.u with home := site, zsitectl := s.hart.u.zsitectl &&& 1, pc := s.nextPc }

theorem setsOut_hart :
    (s.setsOut false).hart =
      { s.hart with
        u := movedUser s .w
        wait := none
        resume := none
        instret := if s.hart.sup.mcountinhibit.getLsbD 2 then s.hart.instret else s.hart.instret + 1 } := by
  unfold State.setsOut
  rw [if_neg (by decide), State.retire_eq, State.retireTo_hart]
  have hp : (s.modU fun u => { u.clearHold with home := .w }).pc + (s.modU fun u => { u.clearHold with home := .w }).ilen none = s.nextPc :=
    State.pc_add_ilen _
  rw [hp]
  rfl

theorem laneDone_lcore (hid : s.hart.id = .lcore n) : s.laneDone = s := by simp [State.laneDone, hid]

theorem setsOut_rest (hid : s.hart.id = .lcore n) (implicitly : Bool) :
    (s.setsOut implicitly).part = s.part ∧ (s.setsOut implicitly).harts = s.harts := by
  unfold State.setsOut
  cases implicitly
  · rw [if_neg (by decide), State.retire_eq, State.retireTo, laneDone_lcore]
    · exact ⟨rfl, rfl⟩
    · exact hid
  · exact ⟨rfl, rfl⟩

theorem nextPc_ne : s.nextPc ≠ s.pc := by
  unfold State.nextPc
  split <;> simp

end Sys2Proof.Machine
end
section
/-! ## Departures for the L-site, and a waiting migration woken (R30, R34, R37) -/
namespace Sys2Proof.Machine

variable {s : State} {ctx w : Nat} {c : Car} {rpc : Word} {trap : Option PendTrap} {sig : Option (BitVec 8)}

theorem site_wthread (hid : s.hart.id = .wthread ctx) : s.site = .w := by simp [State.site, hid]

/-- The current hart, where others are left and names are distinct, is gone once it has left. -/
theorem hart?_dropCurrent {k : HartId} (hd : s.NamesDistinct) (hne : s.harts ≠ []) (hid : s.hart.id = k) : s.dropCurrent.hart? k = none := by
  subst hid
  obtain ⟨g, l, hl⟩ := List.exists_cons_of_ne_nil hne
  have hall : s.dropCurrent.allHarts = s.harts := by simp [State.dropCurrent, State.allHarts, hl]
  rw [State.hart?, hall, List.find?_eq_none]
  intro x hx
  have hnot := (List.nodup_cons.1 (show (s.hart.id :: s.harts.map Hart.id).Nodup from hd)).1
  simpa using fun he : x.id = s.hart.id => hnot (he ▸ List.mem_map_of_mem hx)

/-- A thread as it leaves the W-site for the L-site. -/
def leavingFor (s : State) (rpc : Word) : Hart :=
  { s.hart with
    u := { s.hart.u with pc := rpc }, car := none, wait := none, resume := none, resv := none, watch := none, extract := none }

/-- A thread in no team leaves: it is in transit, out of its group and no hart of the machine. -/
theorem departToL_alone (hid : s.hart.id = .wthread ctx) (hc : s.hart.car = some c) (hm : s.memberOf s.who = none) :
    s.departToL rpc trap sig =
      ((s.leaveGroup ctx c.core false).modPart fun p =>
        { p with transit := p.transit ++ [⟨ctx, leavingFor s rpc, none, c.core, trap, sig.or s.hart.extract⟩] }).dropCurrent := by
  simp only [State.departToL, hid, hc, hm]
  rfl

theorem departToL_rest (hd : s.NamesDistinct) (hne : s.harts ≠ []) (hid : s.hart.id = .wthread ctx) (hc : s.hart.car = some c)
    (hm : s.memberOf s.who = none) :
    (s.departToL rpc trap sig).part.transit = s.part.transit ++ [⟨ctx, leavingFor s rpc, none, c.core, trap, sig.or s.hart.extract⟩] ∧
    (s.departToL rpc trap sig).hart? (.wthread ctx) = none ∧ (s.departToL rpc trap sig).mem = s.mem := by
  rw [departToL_alone hid hc hm]
  refine ⟨?_, ?_, ?_⟩
  · unfold State.dropCurrent
    split <;> rfl
  · exact hart?_dropCurrent hd hne hid
  · rw [State.dropCurrent_mem]
    rfl

/-! ## MIGR.L at the W-site (R147) -/

theorem exec_migrL (hid : s.hart.id = .wthread ctx) (hm : s.myMends = []) (hd : s.hart.dropped = none) :
    exec .migrL s = .next (s.leaveHome (s.ilen none)) := by
  refine finish_done ?_
  rw [run_bind_ok (run_get s)]
  simp only [hm, List.isEmpty_nil, Bool.not_true, Bool.and_false, Bool.false_eq_true, if_false]
  rw [run_bind_ok (orderingPoint_passes hm hd), run_bind_ok (run_get s)]
  simp only [site_wthread hid]
  exact run_bind_ok (run_set ..)

/-- A retired instruction leaves what the frame of instructions counts as still. -/
theorem retireTo_part {α : Sort*} {npc : Word} (f : Part → α) (hf : ∀ p, f p.still = f p) : f (s.retireTo npc).part = f s.part := by
  rw [← hf, State.retireTo_still, hf]

theorem leaveHome_leaves (hd : s.NamesDistinct) (hne : s.harts ≠ []) (hid : s.hart.id = .wthread ctx) (hc : s.hart.car = some c)
    (hm : s.memberOf s.who = none) :
    ∃ th, (s.leaveHome (s.ilen none)).part.transit = s.part.transit ++ [⟨ctx, th, none, c.core, none, s.hart.extract⟩] ∧
      th.u = movedUser s .l ∧ th.resv = none ∧ (s.leaveHome (s.ilen none)).hart? (.wthread ctx) = none ∧
      (s.leaveHome (s.ilen none)).mem = s.mem := by
  set v := (s.modU fun u => { u.clearHold with home := .l }).retireTo (s.pc + s.ilen none) with hv
  have hhart : v.hart.id = s.hart.id ∧ v.hart.car = s.hart.car ∧ v.hart.extract = s.hart.extract ∧ whoOf v.hart = whoOf s.hart := by
    rw [hv, State.retireTo_hart]
    exact ⟨rfl, rfl, rfl, rfl⟩
  obtain ⟨hvid, hvc, hve, hvw⟩ := hhart
  have hharts : v.harts = s.harts := State.retireTo_harts ..
  have hnames : v.NamesDistinct := by
    unfold State.NamesDistinct State.allHarts
    rwa [List.map_cons, hvid, hharts]
  have hmember : v.memberOf v.who = none := by
    rw [State.memberOf, State.who, hvw, hv, retireTo_part Part.members fun _ => rfl]
    exact hm
  obtain ⟨ht, hgone, hmem⟩ := departToL_rest (rpc := s.pc + s.ilen none) (trap := none) (sig := none) hnames (hharts ▸ hne) (hvid.trans hid)
    (hvc.trans hc) hmember
  refine ⟨leavingFor v (s.pc + s.ilen none), ?_, ?_, rfl, hgone, hmem.trans (State.retireTo_mem ..)⟩
  · rw [show s.leaveHome (s.ilen none) = v.departToL (s.pc + s.ilen none) none none from rfl, ht, hve, hv,
      retireTo_part Part.transit fun _ => rfl]
    rfl
  · rw [leavingFor, hv, State.retireTo_hart, State.pc_add_ilen]
    rfl

/-! ## EXTRACTION (R37, R318) -/

/-- Records withdrawn and HOLD cleared: memory, the harts and who is on the way stand. -/
theorem withdraw_rest (hc : s.hart.car = some c) :
    s.withdraw.hart = s.hart ∧ s.withdraw.harts = s.harts ∧ s.withdraw.mem = s.mem ∧ s.withdraw.part.members = s.part.members ∧
    s.withdraw.part.transit = s.part.transit := by
  simp only [State.withdraw, hc]
  cases c.faultTag <;> cases c.emulTag <;> exact ⟨rfl, rfl, rfl, rfl, rfl⟩

theorem focus_none {k : HartId} (h : s.hart? k = none) : s.focus k = s := by
  have hne : s.hart.id ≠ k := fun he => by simp [State.hart?_def, he] at h
  rw [State.hart?_def, if_neg hne] at h
  simp [State.focus, hne, h]

theorem extraction_leaves {code : BitVec 8} (hd : s.NamesDistinct) (hne : s.harts ≠ []) (hid : s.hart.id = .wthread ctx)
    (hc : s.hart.car = some c) (hm : s.memberOf s.who = none) (hdr : s.hart.dropped = none) (he : s.hart.extract = some code)
    (hx : extractable s s.hart = true) :
    ∃ t th, exec (.extraction (.wthread ctx)) s = .next t ∧
      t.part.transit = s.part.transit ++ [⟨ctx, th, none, c.core, none, some code⟩] ∧
      th.u = { s.hart.u with zsitectl := s.hart.u.zsitectl &&& 1 } ∧ t.hart? (.wthread ctx) = none ∧ t.mem = s.mem := by
  obtain ⟨hh, hhs, hmem, hmm, htr⟩ := withdraw_rest hc
  set v := s.withdraw.modU User.clearHold with hv
  have hhart : v.hart = { s.hart with u := s.hart.u.clearHold } := by rw [hv, ← hh]; rfl
  have hnames : v.NamesDistinct := by
    unfold State.NamesDistinct State.allHarts
    rw [List.map_cons, hhart, show v.harts = s.harts from hhs]
    exact hd
  have hmember : v.memberOf v.who = none := by
    rw [State.memberOf, State.who, hhart, show v.part.members = s.part.members from hmm]
    exact hm
  obtain ⟨ht, hgone, hvm⟩ := departToL_rest (rpc := v.pc) (trap := none) (sig := none) hnames
    (show v.harts ≠ [] by rw [show v.harts = s.harts from hhs]; exact hne) (show v.hart.id = .wthread ctx by rw [hhart]; exact hid)
    (show v.hart.car = some c by rw [hhart]; exact hc) hmember
  refine ⟨v.departToL v.pc none none, leavingFor v v.pc, ?_, ?_, ?_, hgone, hvm.trans hmem⟩
  · show execExtraction (.wthread ctx) s = _
    have hself : s.hart? (.wthread ctx) = some s.hart := by rw [← hid, State.hart?_def, if_pos rfl]
    have hdv : v.hart.dropped = none := by rw [hhart]; exact hdr
    have hfs : s.focus (.wthread ctx) = s := hid ▸ State.focus_self
    simp only [execExtraction, State.withHart, hself, hx, Option.isSome_some, if_true, hfs, ← hv, hdv, hid]
    rw [focus_none hgone]
  · rw [ht, hhart, show v.part.transit = s.part.transit from htr]
    simp [he]
  · rw [leavingFor, State.pc, hhart]
    rfl

/-! ## MIGRATION_DEPART (R30, R34) -/

/-- A thread that has returned to U-mode with its home at the W-site departs at its pc (R34). -/
theorem migrationDepart_home {n : Nat} (hid : s.hart.id = .lcore n) (hi : s.hart.installed = some ctx) (hc : s.hart.car = none)
    (hdr : s.hart.dropped = none) (hw : s.departure = some w) (hg : s.hart.goesHome = true) :
    exec (.migrationDepart s.hart.id) s = .next (s.departToW w s.pc) := by
  have hself : s.hart? s.hart.id = some s.hart := by rw [State.hart?_def, if_pos rfl]
  have hwait : s.hart.wait = none := by
    simp only [Hart.goesHome, Bool.and_eq_true] at hg
    simpa using hg.2
  have hcan : s.canDepart = true := by simp [State.canDepart, hwait, hc, hg, hw]
  have hgo : s.depart = s.departToW w s.pc := by simp [State.depart, hwait, hc, hdr, hw]
  have hback : (s.departToW w s.pc).focus s.hart.id = s.departToW w s.pc := by
    rw [hid, ← (departToW_departed (w := w) (rpc := s.pc) hid hi).id, State.focus_self]
  show Host.Outcome.next (s.withHart s.hart.id fun s => if s.canDepart then s.depart else s) = _
  rw [State.withHart, if_pos (by rw [hself]; rfl), State.focus_self, if_pos hcan, hgo, hback]

/-- A waiting migration that can take place executes again. -/
theorem migrationDepart_wakes {h : HartId} {x : Hart} (hx : s.hart? h = some x) (hw : x.wait = some .migrate)
    (hd : (s.focus h).departure ≠ none) : Wakes (.migrationDepart h) h s := by
  have hcur : (s.focus h).hart = x := by
    by_cases he : s.hart.id = h
    · subst he
      rw [State.hart?_def, if_pos rfl] at hx
      rw [State.focus_self]
      exact Option.some.inj hx
    · rw [State.focus_other he hx]
  have hxid : x.id = h := State.id_of_hart? hx
  have hcan : (s.focus h).canDepart = true := by
    simp [State.canDepart, hcur, hw, Option.isSome_iff_ne_none, hd]
  set g : Hart := { x with wait := none, resume := x.wait, car := if s.inGroup x then x.car else x.car.map (Car.refiled s) } with hgdef
  have hwake : (s.focus h).wake x = g := by
    have href : Car.refiled (s.focus h) = Car.refiled s := by
      funext c
      simp [Car.refiled, State.focus_part, State.focus_pkg]
    have hin : (s.focus h).inGroup x = s.inGroup x := by simp only [State.inGroup, State.wcore?, State.focus_part]
    rw [State.wake, hin, href]
  have hgo : (s.focus h).depart = { s.focus h with hart := g } := by
    simp [State.depart, hcur, hw, hwake]
  have hexec : exec (.migrationDepart h) s = .next (({ s.focus h with hart := g } : State).focus s.hart.id) := by
    show Host.Outcome.next (s.withHart h fun s => if s.canDepart then s.depart else s) = _
    rw [State.withHart, if_pos (by rw [hx]; rfl), if_pos hcan, hgo]
  have hlook (k : HartId) : (({ s.focus h with hart := g } : State).focus s.hart.id).hart? k = if h = k then some g else s.hart? k := by
    have hg : g.id = (s.focus h).hart.id := by rw [hcur]
    rw [State.hart?_focus, State.hart?_setHart hg, hcur, hxid, State.hart?_focus]
  have hrest (k : HartId) (v : State) : (v.focus k).mem = v.mem ∧ (v.focus k).poison = v.poison := by
    unfold State.focus
    split
    · exact ⟨rfl, rfl⟩
    · split <;> exact ⟨rfl, rfl⟩
  refine ⟨_, x, g, hexec, hx, by rw [hlook, if_pos rfl], hgdef, fun k hk => by rw [hlook, if_neg (Ne.symm hk)], ?_, ?_, ?_, ?_⟩
  · exact (hrest ..).1.trans (hrest h s).1
  · exact (hrest ..).2.trans (hrest h s).2
  · exact State.focus_part.trans State.focus_part
  · exact State.focus_pkg.trans State.focus_pkg

end Sys2Proof.Machine
end
section
/-! ## The layout of a context image (R304) -/
namespace Sys2Proof.Machine

theorem length_flatMap_const {α : Type} {f : α → List Byte} {k : Nat} (hf : ∀ a, (f a).length = k) (l : List α) :
    (l.flatMap f).length = l.length * k := by simp [List.length_flatMap, hf]

theorem length_flatMap_natLe {α : Type} (k : Nat) (g : α → Nat) (l : List α) : (l.flatMap fun a => natLe k (g a)).length = l.length * k :=
  length_flatMap_const (fun a => natLe_length k (g a)) l

theorem imageOf_length (x : Dist) : (imageOf x).length = 64 := by
  
  simp only [imageOf, List.length_append, natLe_length, length_flatMap_natLe, Dist.points, List.length_map, List.length_range]

theorem belowCount_length {α : Type} {f : α → List Byte} {size : Nat} (hf : ∀ a, (f a).length = size) (l : List α) (count : Nat) :
    (belowCount l count size f).length = l.length * size := by
  rw [belowCount, List.length_flatten]
  have hrow : (l.mapIdx fun i v => if i < count then f v else natLe size 0).map List.length = List.replicate l.length size := by
    refine List.eq_replicate_iff.2 ⟨by simp, fun n hn => ?_⟩
    obtain ⟨r, hr, rfl⟩ := List.mem_map.1 hn
    obtain ⟨i, hi, rfl⟩ := List.mem_mapIdx.1 hr
    split
    · exact hf _
    · exact natLe_length ..
  rw [hrow, List.sum_replicate, smul_eq_mul]

/-- The 8-byte words of part A. -/
def wordsA (u : User) : List (List Byte) :=
  natLe 8 0 :: (u.x.toList.drop 1).map (fun v => natLe 8 v.toNat) ++ u.f.toList.map (fun v => natLe 8 v.toNat) ++
    [natLe 8 u.pc.toNat, natLe 8 (u.frm.toNat * 32 + u.fflags.toNat)]

theorem imageA_eq (u : User) : imageA u = (wordsA u).flatten := by
  simp [imageA, wordsA, List.flatMap_def]

theorem wordsA_length (u : User) : (wordsA u).length = 66 := by simp [wordsA]

theorem length_of_mem_wordsA {u : User} {r : List Byte} (h : r ∈ wordsA u) : r.length = 8 := by
  simp only [wordsA, List.cons_append, List.mem_cons, List.mem_append, List.mem_map, List.not_mem_nil, or_false] at h
  rcases h with rfl | (⟨-, -, rfl⟩ | ⟨-, -, rfl⟩) | rfl | rfl <;> exact natLe_length ..

theorem imageA_length (u : User) : (imageA u).length = 528 := by
  rw [imageA_eq, List.length_flatten, List.map_congr_left fun r hr => length_of_mem_wordsA hr]
  simp [wordsA_length]

theorem belowCount_natLe_length {α : Type} (k : Nat) (g : α → Nat) (l : List α) (count : Nat) :
    (belowCount l count k fun a => natLe k (g a)).length = l.length * k := belowCount_length (fun a => natLe_length k (g a)) l count

theorem imageB_length (u : User) (m : Option Member) (n : Nat) : (imageB u m n).length = 1520 := by
  have hk : (u.k.toList.flatMap fun k => natLe 1 k.base.toNat ++ natLe 1 k.len.toNat).length = 8 := by
    rw [length_flatMap_const (k := 2), Vector.length_toList]
    intro k
    rw [List.length_append, natLe_length, natLe_length]
  unfold imageB
  cases m <;>
    simp only [List.length_append, natLe_length, hk, length_flatMap_natLe, belowCount_natLe_length, belowCount_length imageOf_length,
      Vector.length_toList]

theorem imageAll_length (u : User) (m : Option Member) (n : Nat) : (imageAll u m n).length = 2048 := by
  rw [imageAll, List.length_append, imageA_length, imageB_length]

/-- Word j of part A of an image. -/
theorem imageAll_word {u : User} {m : Option Member} {n j : Nat} (h : j < 66) :
    ((imageAll u m n).drop (8 * j)).take 8 = (wordsA u)[j]'((wordsA_length u).symm ▸ h) := by
  have hA : (imageA u).length = 528 := imageA_length u
  rw [imageAll, List.drop_append_of_le_length (by omega), List.take_append_of_le_length (by rw [List.length_drop]; omega), imageA_eq]
  exact flatten_row (fun r => length_of_mem_wordsA) _

theorem wordsA_x {u : User} (i : Fin 32) (hi : i ≠ 0) : (wordsA u)[i.val]'(by rw [wordsA_length]; omega) = natLe 8 (u.x[i]).toNat := by
  have hpos : 0 < i.val := Nat.pos_of_ne_zero fun h => hi (Fin.ext h)
  have hlt : i.val - 1 < 31 := by omega
  have hx : i.val - 1 + 1 = i.val := by omega
  simp [wordsA, List.getElem_cons, hlt, hx, hpos.ne']

theorem wordsA_f {u : User} (i : Fin 32) : (wordsA u)[32 + i.val]'(by rw [wordsA_length]; omega) = natLe 8 (u.f[i]).toNat := by
  simp [wordsA, List.getElem_cons]

theorem wordsA_pc {u : User} : (wordsA u)[64]'(by rw [wordsA_length]; omega) = natLe 8 u.pc.toNat := by
  simp [wordsA]

/-- The numbers that an image holds, in a memory where it stands (R304). -/
theorem memNat_image {t : State} {pa : Nat} {u : User} {m : Option Member} {n : Nat} (h : t.bytes pa 2048 = imageAll u m n) :
    (∀ i : Fin 32, i ≠ 0 → t.memNat (pa + 8 * i.val) 8 = (u.x[i]).toNat) ∧
    (∀ i : Fin 32, t.memNat (pa + 0x100 + 8 * i.val) 8 = (u.f[i]).toNat) ∧ t.memNat (pa + 0x200) 8 = u.pc.toNat := by
  have hword (j : Nat) (hj : j < 66) (v : Word) (hv : (wordsA u)[j]'((wordsA_length u).symm ▸ hj) = natLe 8 v.toNat) :
      t.memNat (pa + 8 * j) 8 = v.toNat := by
    have hpart : ((t.bytes pa 2048).drop (8 * j)).take 8 = t.bytes (pa + 8 * j) 8 := State.bytes_part (by omega)
    rw [h, imageAll_word hj, hv] at hpart
    rw [State.memNat, ← hpart, leNat_natLe]
    exact Nat.mod_eq_of_lt v.isLt
  refine ⟨fun i hi => hword i.val (by omega) _ (wordsA_x i hi), fun i => ?_, hword 64 (by omega) _ wordsA_pc⟩
  have hf := hword (32 + i.val) (by omega) _ (wordsA_f i)
  rwa [Nat.mul_add, ← Nat.add_assoc] at hf

end Sys2Proof.Machine
end
section
/-! ## Arrivals (R33, R53, R304, R307) -/
namespace Sys2Proof.Machine

variable {s t : State} {pa ctx w : Nat} {bs : List Byte} {h : Hart} {c : Car}

/-! ## What a write by the device does to memory -/

theorem engineWrite_mem : (s.engineWrite pa bs).mem = (s.rawWrite pa bs).mem := by
  unfold State.engineWrite State.sampleSpan
  exact sample_mem _ _

theorem engineWrite_poison_nil (h : s.poison = []) : (s.engineWrite pa bs).poison = [] := by
  unfold State.engineWrite State.sampleSpan
  rw [sample_poison]
  show (s.rawWrite pa bs).poison = []
  rw [State.rawWrite_of_clean h]
  exact h

theorem bytes_engineWrite (h : s.Inv) (hp : s.poison = []) : (s.engineWrite pa bs).bytes pa bs.length = bs := by
  rw [State.bytes, engineWrite_mem]
  exact State.bytes_rawWrite h hp

theorem byte_engineWrite {a : Nat} (ha : a < pa ∨ pa + bs.length ≤ a) : (s.engineWrite pa bs).byte a = s.byte a := by
  rw [State.byte, engineWrite_mem]
  exact State.byte_rawWrite_outside ha

theorem bytes_engineWrite_outside {a n : Nat} (ha : a + n ≤ pa ∨ pa + bs.length ≤ a) : (s.engineWrite pa bs).bytes a n = s.bytes a n := by
  induction n generalizing a with
  | zero => rfl
  | succ n ih =>
    have hhead := byte_engineWrite (s := s) (pa := pa) (bs := bs) (a := a) (by omega)
    have htail := ih (a := a + 1) (by omega)
    exact congrArg₂ List.cons hhead htail

theorem engineWrite_hart : (s.engineWrite pa bs).hart = touched pa bs.length s.hart := by
  unfold State.engineWrite State.sampleSpan
  exact sample_hart _ _

/-! ## The lowest free number -/

theorem lowestIdx_not_mem_or {live : List Nat} {n k : Nat} :
    lowestIdx live n k ∉ live ∨ ∀ j, k ≤ j → j ≤ k + n → j ∈ live := by
  induction n generalizing k with
  | zero =>
    by_cases hk : k ∈ live
    · exact .inr fun j h1 h2 => (show j = k by omega) ▸ hk
    · exact .inl hk
  | succ n ih =>
    by_cases hk : k ∈ live
    · rw [lowestIdx, if_pos (List.contains_iff_mem.2 hk)]
      refine (ih (k := k + 1)).imp_right fun hall j h1 h2 => ?_
      rcases Nat.lt_or_ge k j with hj | hj
      · exact hall j hj (by omega)
      · exact (show j = k by omega) ▸ hk
    · rw [lowestIdx, if_neg (by simpa using hk)]
      exact .inl hk

/-- A number below or at the count of those in use is free. -/
theorem lowestIdx_not_mem (live : List Nat) : lowestIdx live live.length 0 ∉ live := by
  refine lowestIdx_not_mem_or.resolve_right fun hall => ?_
  have hsub : List.range (live.length + 1) ⊆ live := fun j hj => hall j (Nat.zero_le j) (by have := List.mem_range.1 hj; omega)
  have hle := (List.subperm_of_subset List.nodup_range hsub).length_le
  simp at hle

/-! ## A thread stowed in its park slot (R53) -/

/-- The hart with its registers in its park slot. -/
def Hart.inactive (h : Hart) : Hart := { h with car := h.car.map fun c => { c with active := false } }

/-- The park slot of the thread h written, where the park area is placed. -/
def State.slotWritten (s : State) (h : Hart) (c : Car) : State :=
  if s.part.parkPlaced then { s.engineWrite (s.slotAddr c) (imageAll h.u (s.memberOf h.id) s.freeCount) with freeCount := s.freeCount + 1 } else s

theorem slotWritten_placed (hp : s.part.parkPlaced = true) :
    (s.slotWritten h c).mem = (s.engineWrite (s.slotAddr c) (imageAll h.u (s.memberOf h.id) s.freeCount)).mem := by
  rw [State.slotWritten, if_pos hp]

theorem slotWritten_unplaced (hp : s.part.parkPlaced = false) : s.slotWritten h c = s := by
  rw [State.slotWritten, if_neg (by simp [hp])]

theorem quiet_slotWritten : Quiet s (s.slotWritten h c) := by
  unfold State.slotWritten
  split
  · exact (Quiet.engineWrite ..).trans ⟨rfl, rfl, rfl, rfl, rfl, rfl, rfl, rfl, rfl⟩
  · exact .refl s

/-- Of the current hart, a slot written can end the reservation and the watch. -/
theorem slotWritten_hart : ∃ r q, (s.slotWritten h c).hart = { s.hart with resv := r, watch := q } := by
  unfold State.slotWritten
  split
  · exact ⟨_, _, engineWrite_hart⟩
  · exact ⟨_, _, rfl⟩

section Stow

variable (hx : s.hart? (.wthread ctx) = some h) (hc : h.car = some c)
include hx hc

theorem stow_eq : s.stow ctx = (s.slotWritten h c).modHart h.id Hart.inactive := by
  simp only [State.stow, hx, hc, Option.bind_some, Option.map_some]
  rfl

/-- A thread stowed keeps its registers, and its record says that they are in its slot. -/
theorem hart?_stow :
    ∃ g, (s.stow ctx).hart? (.wthread ctx) = some g ∧ g.bare = h.bare ∧ g.car = some { c with active := false } := by
  have hlook := (quiet_slotWritten (s := s) (h := h) (c := c)).hart? (.wthread ctx)
  rw [hx, Option.map_some, Option.map_eq_some_iff] at hlook
  obtain ⟨g, hg, hb⟩ := hlook
  have hgc : g.bare.car = some { c with active := false } := by
    rw [hb, Hart.bare, hc]
    rfl
  refine ⟨g.inactive, ?_, ?_, hgc⟩
  · rw [stow_eq hx hc, State.id_of_hart? hx, State.hart?_modHart_same (f := Hart.inactive) fun _ => rfl, hg]
    rfl
  · rw [← hb, Hart.bare, Hart.bare, Hart.inactive, Option.map_map]
    rfl

end Stow

/-- A hart that has lost its reservation or its watch is otherwise the same. -/
theorem sameHart_of_resv {r : Option Nat} {q : Option Watch} (h : t.hart = { s.hart with resv := r, watch := q }) :
    SameHart { resv := true, watch := true } s t := by
  refine sameHart_iff.2 ⟨?_, ?_, ?_⟩
  · simp [SameRegs, State.rx, State.rf, State.rp, State.rw, State.rk, State.rd, State.rb, h]
  · simp [SameFlags, h]
  · rw [h]
    rfl

/-! ## ARRIVAL_W_SITE (R33, R53) -/

/-- The Carousel entry of an arrival. -/
def arrivalCar (s : State) (w : Nat) : Car :=
  let used := s.allHarts.filterMap fun h => h.car.map Car.slot
  { core := w, slot := lowestIdx used used.length 0, active := false, entered := s.pkg.zaclk.toNat, waited := 0, skip := none,
    w32 := s.part.w32, conv := none, faultTag := none, emulTag := none, zparked := false, preempted := s.part.preempting,
    unfiled := none, leaving := none }

theorem arrivalCar_slot {k : Hart} {c' : Car} (hk : k ∈ s.allHarts) (hc : k.car = some c') : c'.slot ≠ (arrivalCar s w).slot := by
  intro he
  refine lowestIdx_not_mem (s.allHarts.filterMap fun h => h.car.map Car.slot) ?_
  exact List.mem_filterMap.2 ⟨k, hk, by rw [hc]; exact congrArg some he⟩

/-- The thread of a transit as it stands at the W-site. -/
def arrivedHart (s : State) (x : Transit) (w : Nat) : Hart := { x.hart with id := .wthread x.ctx, car := some (arrivalCar s w), wait := none }

/-- The machine with the arrived thread among its harts. -/
def State.withArrived (s : State) (x : Transit) (w : Nat) : State :=
  { s.endTransit x.ctx with harts := s.harts ++ [arrivedHart s x w] }

/-- The clean granules of the team of the arrived thread discarded (R86). -/
def State.granulesDropped (s : State) (ctx : Nat) : State :=
  match s.memberOf (.wthread ctx) with
  | some m => s.dropGranules m.team fun _ _ => true
  | none => s

theorem find_transit {x : Transit} (hx : x ∈ s.part.transit) (hu : ∀ y ∈ s.part.transit, y.ctx = x.ctx → y = x) :
    (s.part.transit.find? fun t => t.ctx == x.ctx) = some x := by
  cases hf : s.part.transit.find? fun t => t.ctx == x.ctx with
  | none => exact absurd (List.find?_eq_none.1 hf x hx) (by simp)
  | some y => rw [hu y (List.mem_of_find?_eq_some hf) (by simpa using List.find?_some hf)]

theorem exec_arrivalWSite {x : Transit} (hf : (s.part.transit.find? fun t => t.ctx == x.ctx) = some x) (hw : x.dest = some w) :
    exec (.arrivalWSite x.ctx) s = .next (((s.withArrived x w).granulesDropped x.ctx).stow x.ctx) := by
  show execArrivalWSite x.ctx s = _
  simp only [execArrivalWSite, hf, hw]
  rfl

theorem granulesDropped_rest (s : State) (ctx : Nat) :
    (s.granulesDropped ctx).hart = s.hart ∧ (s.granulesDropped ctx).harts = s.harts ∧ (s.granulesDropped ctx).mem = s.mem ∧
    (s.granulesDropped ctx).poison = s.poison ∧ { (s.granulesDropped ctx).part with teams := [] } = { s.part with teams := [] } := by
  unfold State.granulesDropped
  split <;> exact ⟨rfl, rfl, rfl, rfl, rfl⟩

section WSite

variable {x : Transit} (hx : x ∈ s.part.transit) (hu : ∀ y ∈ s.part.transit, y.ctx = x.ctx → y = x)
  (hn : s.hart? (.wthread x.ctx) = none) (hw : x.dest = some w)

/-- The state of an arrival before its registers are stowed. -/
def State.landed (s : State) (x : Transit) (w : Nat) : State := (s.withArrived x w).granulesDropped x.ctx

omit hx hu hw in
include hn in
theorem hart?_landed : (s.landed x w).hart? (.wthread x.ctx) = some (arrivedHart s x w) := by
  obtain ⟨hh, hhs, -⟩ := granulesDropped_rest (s.withArrived x w) x.ctx
  have happ : ({ s with harts := s.harts ++ [arrivedHart s x w] } : State).hart? (.wthread x.ctx) = some (arrivedHart s x w) :=
    hart?_append (g := arrivedHart s x w) hn
  rw [State.hart?_def] at happ ⊢
  rwa [State.landed, hh, hhs]

theorem landed_part {α : Sort*} (f : Part → α) (hf : ∀ p l, f { p with teams := l } = f p) :
    f (s.landed x w).part = f (s.endTransit x.ctx).part := by
  obtain ⟨-, -, -, -, hp⟩ := granulesDropped_rest (s.withArrived x w) x.ctx
  exact (hf _ []).symm.trans ((congrArg f hp).trans (hf _ []))

include hx hu hn hw in
/-- An arrival gives the thread a Carousel entry and its registers a park slot. -/
theorem arrivalWSite_arrives :
    ∃ t g c, exec (.arrivalWSite x.ctx) s = .next t ∧ t.hart? (.wthread x.ctx) = some g ∧ g.u = x.hart.u ∧ g.wait = none ∧
      g.car = some c ∧ c.core = w ∧ c.faultTag = none ∧ c.emulTag = none ∧ c.zparked = false ∧
      c.active = false ∧ (∀ k ∈ s.allHarts, ∀ c', k.car = some c' → c'.slot ≠ c.slot) ∧
      t.part.transit = s.part.transit.filter (fun y => y.ctx ≠ x.ctx) ∧ SameHart { resv := true, watch := true } s t ∧
      (s.part.parkPlaced = false → t.mem = s.mem) ∧
      (let slot := s.part.parkBase + 2048 * c.slot
       s.part.parkPlaced = true → s.poison = [] → s.Inv →
         (∀ a, (a < slot ∨ slot + 2048 ≤ a) → t.byte a = s.byte a) ∧ t.memNat (slot + 0x200) 8 = x.hart.u.pc.toNat ∧
         ∀ i : Fin 32, i ≠ 0 → t.memNat (slot + 8 * i.val) 8 = (x.hart.u.x[i]).toNat) := by
  obtain ⟨hh, -, hm, hpo, -⟩ := granulesDropped_rest (s.withArrived x w) x.ctx
  set v := s.landed x w with hv
  have hplaced : v.part.parkPlaced = s.part.parkPlaced := landed_part Part.parkPlaced fun _ _ => rfl
  have hbase : v.part.parkBase = s.part.parkBase := landed_part Part.parkBase fun _ _ => rfl
  have hlook : v.hart? (.wthread x.ctx) = some (arrivedHart s x w) := hart?_landed hn
  have heq := stow_eq hlook (c := arrivalCar s w) rfl
  obtain ⟨g, hg, hb, hgc⟩ := hart?_stow hlook (c := arrivalCar s w) rfl
  have hne : s.hart.id ≠ .wthread x.ctx := fun he => by simp [State.hart?_def, he] at hn
  have hgu : g.u = x.hart.u := (congrArg Hart.u hb :)
  have hgw : g.wait = none := (congrArg Hart.wait hb :)
  refine ⟨v.stow x.ctx, g, arrivalCar s w, exec_arrivalWSite (find_transit hx hu) hw, hg, hgu, hgw, hgc, rfl,
    rfl, rfl, rfl, rfl, fun k hk c' => arrivalCar_slot hk, ?_, ?_, fun hp => ?_, fun hp hpoison hinv => ?_⟩
  · have ht := (Quiet.stow v x.ctx).part_eq Part.transit fun _ _ => rfl
    rw [ht, landed_part Part.transit fun _ _ => rfl]
    exact List.filter_congr fun y _ => by by_cases h : y.ctx = x.ctx <;> simp [h]
  · obtain ⟨r, q, hrq⟩ := slotWritten_hart (s := v) (h := arrivedHart s x w) (c := arrivalCar s w)
    rw [show v.hart = s.hart from hh] at hrq
    have hsame : (v.stow x.ctx).hart = (v.slotWritten (arrivedHart s x w) (arrivalCar s w)).hart := by
      rw [heq]
      refine if_neg ?_
      rw [hrq]
      exact fun he => hne (eq_of_beq he)
    exact sameHart_of_resv (hsame.trans hrq)
  · rw [heq, slotWritten_unplaced (hplaced.trans hp)]
    exact hm
  · have hslot : v.slotAddr (arrivalCar s w) = s.part.parkBase + 2048 * (arrivalCar s w).slot := by rw [State.slotAddr, hbase]
    set img := imageAll (arrivedHart s x w).u (v.memberOf (arrivedHart s x w).id) v.freeCount with himg
    have hlen : img.length = 2048 := imageAll_length ..
    have hmem : (v.stow x.ctx).mem = (v.engineWrite (s.part.parkBase + 2048 * (arrivalCar s w).slot) img).mem := by
      rw [heq, ← hslot]
      exact slotWritten_placed (hplaced.trans hp)
    have himage : (v.stow x.ctx).bytes (s.part.parkBase + 2048 * (arrivalCar s w).slot) 2048 = img := by
      rw [State.bytes, hmem, ← hlen]
      exact bytes_engineWrite (State.inv_of_mem hm hinv) (hpo.trans hpoison)
    obtain ⟨hxs, -, hpc⟩ := memNat_image himage
    refine ⟨fun a ha => ?_, hpc, hxs⟩
    rw [State.byte, hmem, ← State.byte, byte_engineWrite (hlen.symm ▸ ha)]
    exact congrArg (sparseGet 0#8 · a) hm

end WSite

end Sys2Proof.Machine
end
section
/-! ## ARRIVAL_L_SITE: the image and the ARRIVE record (R33, R304, R307) -/
namespace Sys2Proof.Machine

variable {s t : State} {r : WfRec} {time : Word} {x : Transit}

/-! ## Records and TAGs (R307) -/

theorem wfRec_length : (r.bytes time).length = 64 := by simp [WfRec.bytes, natLe_length]

/-- The fields of a W-fault record that an ARRIVE has. -/
theorem wfRec_fields :
    recNat (r.bytes time) 0 1 = r.kind % 2 ^ 8 ∧ recNat (r.bytes time) 4 4 = r.tag % 2 ^ 32 ∧ recNat (r.bytes time) 8 8 = r.ctx % 2 ^ 64 ∧
    recNat (r.bytes time) 16 8 = r.pc.toNat := by
  have hpc : r.pc.toNat < 18446744073709551616 := r.pc.isLt
  refine ⟨?_, ?_, ?_, ?_⟩ <;>
    simp [recNat, WfRec.bytes, List.drop_append, natLe_length, List.drop_eq_nil_of_le, leNat_natLe, hpc]

/-- The TAG at hand is taken where no record has it. -/
theorem freeTag_unused {l : List Await} {n tag : Nat} (h : ∀ y ∈ l, y.tag ≠ tag) : freeTag l n tag = tag := by
  cases n with
  | zero => rfl
  | succ n =>
    have hno : ¬ (l.any fun a => a.tag == tag) = true := by simpa using h
    rw [freeTag, if_neg hno]

/-! ## A record behind what was written before it -/

theorem pushWf_mem : (s.pushWf r).mem = (s.engineWrite (wfqAddr s.part.wfq s.part.wfq.count) (r.bytes s.pkg.zaclk)).mem := rfl

/-- The bytes of a span that the record's place does not meet stand. -/
theorem bytes_pushWf_outside {a n : Nat} (h : a + n ≤ wfqAddr s.part.wfq s.part.wfq.count ∨ wfqAddr s.part.wfq s.part.wfq.count + 64 ≤ a) :
    (s.pushWf r).bytes a n = s.bytes a n := by
  rw [State.bytes, pushWf_mem]
  exact bytes_engineWrite_outside (by rwa [wfRec_length])

/-- The record stands at its place. -/
theorem memNat_pushWf (hi : s.Inv) (hp : s.poison = []) :
    let at' := wfqAddr s.part.wfq s.part.wfq.count
    (s.pushWf r).memNat at' 1 = r.kind % 2 ^ 8 ∧ (s.pushWf r).memNat (at' + 4) 4 = r.tag % 2 ^ 32 ∧
    (s.pushWf r).memNat (at' + 8) 8 = r.ctx % 2 ^ 64 ∧ (s.pushWf r).memNat (at' + 16) 8 = r.pc.toNat := by
  intro at'
  have hrec : (s.pushWf r).bytes at' 64 = r.bytes s.pkg.zaclk := by
    have hb := bytes_engineWrite (pa := at') (bs := r.bytes s.pkg.zaclk) hi hp
    rw [wfRec_length] at hb
    rwa [State.bytes, pushWf_mem]
  obtain ⟨hk, ht, hc, hpc⟩ := wfRec_fields (r := r) (time := s.pkg.zaclk)
  have hread (o m : Nat) (h : o + m ≤ 64) : (s.pushWf r).memNat (at' + o) m = recNat (r.bytes s.pkg.zaclk) o m := by
    rw [← hrec, recNat_bytes h]
  exact ⟨(hread 0 1 (by omega)).trans hk, (hread 4 4 (by omega)).trans ht, (hread 8 8 (by omega)).trans hc, (hread 16 8 (by omega)).trans hpc⟩

/-! ## The arrival -/

/-- The trap that an ARRIVE record carries, or the pc of a thread without one. -/
def arriveTrap (x : Transit) : PendTrap := x.trap.getD ⟨0, x.hart.u.pc, 0⟩

/-- The TAG of the next record. -/
def State.tagAtHand (s : State) : Nat := freeTag s.part.awaiting s.part.awaiting.length s.part.nextTag

/-- The image of an arriving thread written. -/
def State.imaged (s : State) (x : Transit) : State :=
  s.engineWrite x.ctx (imageAll x.hart.u (s.memberOf (.wthread x.ctx)) s.freeCount)

/-- The thread of a transit in its image, and a record of it that awaits disposition. -/
def State.awaits (v : State) (tag : Nat) (x : Transit) : State :=
  ((({ v with freeCount := v.freeCount + 1 } : State).putAsleep (asleepOf x.ctx x.hart)).endTransit x.ctx).modPart fun p =>
    { p with
      nextTag := tag % (2 ^ 32 - 1) + 1
      awaiting := p.awaiting ++ [⟨tag, .arrive, x.ctx, (arriveTrap x).cause, (arriveTrap x).tval, (arriveTrap x).epc, []⟩] }

section Awaits

variable (v : State) (tag : Nat) (x : Transit)

theorem awaits_mem : (v.awaits tag x).mem = v.mem := rfl
theorem awaits_poison : (v.awaits tag x).poison = v.poison := rfl
theorem awaits_wfq : (v.awaits tag x).part.wfq = v.part.wfq := rfl
theorem awaits_transit : (v.awaits tag x).part.transit = v.part.transit.filter fun t => t.ctx != x.ctx := rfl
theorem awaits_awaiting :
    (v.awaits tag x).part.awaiting =
      v.part.awaiting ++ [⟨tag, .arrive, x.ctx, (arriveTrap x).cause, (arriveTrap x).tval, (arriveTrap x).epc, []⟩] := rfl

end Awaits

/-- The ARRIVE record (R307). -/
def arriveRec (s : State) (x : Transit) : WfRec :=
  { kind := 2, cause := (arriveTrap x).cause, flags := (if x.trap.isSome then 1 else 0) + (if x.sig.isSome then 2 else 0)
    sigcode := (match x.sig with | some c => c.toNat | none => 0), tag := s.tagAtHand, ctx := x.ctx, pc := (arriveTrap x).epc
    addr := (arriveTrap x).tval, core := x.fromCore }

theorem exec_arrivalLSite (hf : (s.part.transit.find? fun t => t.ctx == x.ctx) = some x) (hd : x.dest = none) (hr : s.wfqRoom = true) :
    exec (.arrivalLSite x.ctx) s = .next (((s.imaged x).awaits s.tagAtHand x).pushWf (arriveRec s x)) := by
  have hq := Quiet.engineWrite s x.ctx (imageAll x.hart.u (s.memberOf (.wthread x.ctx)) s.freeCount)
  have htag : freeTag (s.imaged x).part.awaiting (s.imaged x).part.awaiting.length (s.imaged x).part.nextTag = s.tagAtHand :=
    hq.part_eq (fun p => freeTag p.awaiting p.awaiting.length p.nextTag) fun _ _ => rfl
  show execArrivalLSite x.ctx s = _
  simp only [execArrivalLSite, hf, hd, hr]
  unfold arriveRec
  rw [← htag]
  rfl

theorem exec_arrivalLSite_full (hf : (s.part.transit.find? fun t => t.ctx == x.ctx) = some x) (hr : s.wfqRoom = false) :
    exec (.arrivalLSite x.ctx) s = .next s := by
  show execArrivalLSite x.ctx s = _
  simp [execArrivalLSite, hf, hr]

/-- An arrival at the L-site writes the thread's image and an ARRIVE record. -/
theorem arrivalLSite_arrives (hx : x ∈ s.part.transit) (hu : ∀ y ∈ s.part.transit, y.ctx = x.ctx → y = x) (hd : x.dest = none)
    (hr : s.wfqRoom = true) (hp : s.poison = []) (hi : s.Inv)
    (hdis : wfqAddr s.part.wfq s.part.wfq.count + 64 ≤ x.ctx ∨ x.ctx + 2048 ≤ wfqAddr s.part.wfq s.part.wfq.count) :
    let rec' := wfqAddr s.part.wfq s.part.wfq.count
    ∃ t, exec (.arrivalLSite x.ctx) s = .next t ∧ t.part.transit = s.part.transit.filter (fun y => y.ctx ≠ x.ctx) ∧
      (∀ i : Fin 32, i ≠ 0 → t.memNat (x.ctx + 8 * i.val) 8 = (x.hart.u.x[i]).toNat) ∧
      (∀ i : Fin 32, t.memNat (x.ctx + 0x100 + 8 * i.val) 8 = (x.hart.u.f[i]).toNat) ∧
      t.memNat (x.ctx + 0x200) 8 = x.hart.u.pc.toNat ∧
      t.part.wfq.count = s.part.wfq.count + 1 ∧ t.memNat rec' 1 = 2 ∧ t.memNat (rec' + 8) 8 = x.ctx % 2 ^ 64 ∧
      t.memNat (rec' + 16) 8 = (match x.trap with | some p => p.epc.toNat | none => x.hart.u.pc.toNat) ∧
      ∃ a ∈ t.part.awaiting, a.kind = .arrive ∧ a.ctx = x.ctx ∧ t.memNat (rec' + 4) 4 = a.tag % 2 ^ 32 ∧
        ((∀ y ∈ s.part.awaiting, y.tag ≠ s.part.nextTag) → a.tag = s.part.nextTag) := by
  intro rec'
  set img := imageAll x.hart.u (s.memberOf (.wthread x.ctx)) s.freeCount with himg
  have hlen : img.length = 2048 := imageAll_length ..
  have hq : Quiet s (s.imaged x) := Quiet.engineWrite s x.ctx img
  set v := (s.imaged x).awaits s.tagAtHand x with hv
  have hpush := quiet_pushWf v (arriveRec s x)
  have hwfq : v.part.wfq = s.part.wfq := (awaits_wfq ..).trans (hq.part_eq Part.wfq fun _ _ => rfl)
  have hplace : wfqAddr v.part.wfq v.part.wfq.count = rec' := by rw [hwfq]
  have hvi : v.Inv := State.inv_of_mem (awaits_mem ..) (State.engineWrite_inv hi)
  have hvp : v.poison = [] := (awaits_poison ..).trans (engineWrite_poison_nil hp)
  have hrec := memNat_pushWf (r := arriveRec s x) hvi hvp
  simp only [hplace] at hrec
  obtain ⟨hkind, htag, hctx, hpc⟩ := hrec
  have himage : (v.pushWf (arriveRec s x)).bytes x.ctx 2048 = img := by
    have hout : x.ctx + 2048 ≤ rec' ∨ rec' + 64 ≤ x.ctx := hdis.symm
    rw [bytes_pushWf_outside (by rwa [hplace]), State.bytes, hv, awaits_mem, ← State.bytes, State.imaged, ← himg, ← hlen]
    exact bytes_engineWrite hi hp
  obtain ⟨hxs, hfs, hipc⟩ := memNat_image himage
  refine ⟨_, exec_arrivalLSite (find_transit hx hu) hd hr, ?_, hxs, hfs, hipc, ?_, hkind, hctx, hpc.trans ?_,
    ⟨s.tagAtHand, .arrive, x.ctx, (arriveTrap x).cause, (arriveTrap x).tval, (arriveTrap x).epc, []⟩, ?_, rfl, rfl, htag, freeTag_unused⟩
  · rw [hpush.part_eq Part.transit fun _ _ => rfl, State.modPart, hv, awaits_transit, hq.part_eq Part.transit fun _ _ => rfl]
    exact List.filter_congr fun y _ => by by_cases h : y.ctx = x.ctx <;> simp [h]
  · rw [hpush.part_eq (fun p => p.wfq.count) fun _ _ => rfl]
    exact congrArg (fun q => q.count + 1) hwfq
  · unfold arriveRec arriveTrap
    cases x.trap <;> rfl
  · rw [hpush.part_eq Part.awaiting fun _ _ => rfl, State.modPart, hv, awaits_awaiting]
    exact List.mem_append_right _ (List.mem_singleton_self _)

end Sys2Proof.Machine
end
section
/-! ## Migration (R30 to R34, R147) -/
namespace Sys2Proof
open Machine

/-- Settles O48: a departure is one operation whatever begins it (departToW_departed, departToL_rest), and an arrival writes one image
(arrivalWSite_arrives, arrivalLSite_arrives). -/
theorem migration : Obligations.Migration := by
  unfold Obligations.Migration
  intro s hm hd moved departs
  refine ⟨fun n hid hi => migrW_noThread hid hi, fun n ctx hid hi hdr hc => ⟨fun w hw => ⟨?_, fun v hv hmem => ?_, fun m tm hch hmb ht => ?_,
    fun hch hmb => ?_, fun hg => ?_⟩, fun hw => ?_⟩, fun h x hx hw hdep => migrationDepart_wakes hx hw hdep,
    fun ctx c hid hc hne hmb hdr => ⟨?_, fun sig hsig hx => extraction_leaves hd hne hid hc hmb hdr hsig hx⟩, fun x hx hu hn => ⟨fun w hw => ?_,
    fun _ hr => exec_arrivalLSite_full (find_transit hx hu) hr, fun hdest hr hp hi hdis => arrivalLSite_arrives hx hu hdest hr hp hi hdis⟩⟩
  · obtain ⟨hpart, hharts⟩ := setsOut_rest hid false
    have hv := setsOut_hart (s := s)
    obtain ⟨htr, hcount, hidt, hit, hmode, hcause, hsepc, hids⟩ :=
      departToW_departed (s := s.setsOut false) (w := w) (rpc := s.nextPc) (by rw [hv]; exact hid) (by rw [hv]; exact hi)
    rw [hpart] at htr hcount
    rw [hharts] at hids
    refine ⟨_, exec_migrW_departs hid hi (goW_departs hm hdr hw false), ⟨_, htr, ?_, rfl, ?_⟩, hcount, hidt, hit, hmode, hcause, hsepc, hids⟩
    · rw [departing, hv]
      rfl
    · rw [departing, hv, if_neg (show (moved s.hart.u .w).pc ≠ s.pc from nextPc_ne)]
  · exact Option.some.inj ((chosenDest_of_departure hw).symm.trans (chosenDest_chosen hv hmem))
  · exact Option.some.inj ((chosenDest_of_departure hw).symm.trans (chosenDest_team hch hmb ht))
  · exact leastLoaded_least ((chosenDest_alone hch hmb).symm.trans (chosenDest_of_departure hw))
  · obtain ⟨htr, hcount, hidt, hit, hmode, hcause, hsepc, hids⟩ := departToW_departed (w := w) (rpc := s.pc) hid hi
    exact ⟨_, migrationDepart_home hid hi hc hdr hw hg, ⟨_, htr, rfl, rfl, (if_pos rfl).symm⟩, hcount, hidt, hit, hmode, hcause, hsepc, hids⟩
  · exact ⟨_, (exec_migrW_waits hid hi (goW_waits hm hdr hw false)).trans (congrArg _ (setWait_migrate hid)), rfl, rfl, rfl, rfl⟩
  · obtain ⟨th, htr, hu, hr, hgone, hmem⟩ := leaveHome_leaves hd hne hid hc hmb
    exact ⟨_, th, exec_migrL hid hm hdr, htr, hu, hr, hgone, hmem⟩
  · exact arrivalWSite_arrives hx hu hn hw

end Sys2Proof
end
section
/-! ## The dirty bytes of a thread's windows written home (R84, R158) -/
namespace Sys2Proof.Machine

variable {s t u : State} {b : PrivByte} {l : List PrivByte}

/-- A team but for its windows. -/
def Team.bare (x : Team) : Team := { x with windows := [] }

/-- t differs from s in memory, in the other harts' reservations and watches, in own bytes (R84) and the granules of windows, in the counts of
pages and in what the package holds for others. -/
structure Homed (s t : State) : Prop where
  hart : t.hart = s.hart
  teams : t.part.teams.map Team.bare = s.part.teams.map Team.bare
  part : { t.part with hotCounts := s.part.hotCounts, priv := s.part.priv, teams := s.part.teams } = s.part
  pkg : { t.pkg with remote := s.pkg.remote, held := s.pkg.held, hostOut := s.pkg.hostOut } = s.pkg
  own : SameOwn s t

namespace Homed

theorem refl (s : State) : Homed s s := ⟨rfl, rfl, rfl, rfl, rfl, rfl, rfl, rfl, rfl⟩

theorem trans (h1 : Homed s t) (h2 : Homed t u) : Homed s u := by
  refine ⟨h2.hart.trans h1.hart, h2.teams.trans h1.teams, ?_, ?_, h1.own.trans h2.own⟩
  · rw [← h1.part, ← h2.part]
  · rw [← h1.pkg, ← h2.pkg]

theorem part_eq {α : Sort*} (h : Homed s t) (f : Part → α) (hf : ∀ p a b c, f { p with hotCounts := a, priv := b, teams := c } = f p) :
    f t.part = f s.part :=
  (hf t.part ..).symm.trans (congrArg f h.part)

theorem pkg_eq {α : Sort*} (h : Homed s t) (f : Pkg → α) (hf : ∀ k a b c, f { k with remote := a, held := b, hostOut := c } = f k) :
    f t.pkg = f s.pkg :=
  (hf t.pkg ..).symm.trans (congrArg f h.pkg)

theorem memberOf (h : Homed s t) (who : HartId) : t.memberOf who = s.memberOf who :=
  congrArg (List.find? fun m : Member => m.who == who) (h.part_eq Part.members fun _ _ _ _ => rfl)

theorem team? (h : Homed s t) (n : BitVec 16) : (t.team? n).map Team.bare = (s.team? n).map Team.bare := by
  have hbare : ∀ v : State, (v.team? n).map Team.bare = (v.part.teams.map Team.bare).find? fun x => x.num == n :=
    fun v => (List.find?_map (f := Team.bare) (p := fun x : Team => x.num == n)).symm
  rw [hbare, hbare, h.teams]

theorem who (h : Homed s t) : t.who = s.who := by rw [State.who, State.who, h.hart]

theorem dropGranules (s : State) (team : BitVec 16) (sel : Window → Nat → Bool) : Homed s (s.dropGranules team sel) := by
  refine ⟨rfl, ?_, rfl, rfl, rfl, rfl, rfl, rfl, rfl⟩
  show (adjust _ _ s.part.teams).map Team.bare = _
  rw [adjust, List.map_map]
  refine List.map_congr_left fun x _ => ?_
  simp only [Function.comp]
  split <;> rfl

theorem notifyHost_package (s : State) (pa len : Nat) :
    { (s.notifyHost pa len).pkg with hostOut := s.pkg.hostOut } = s.pkg := by
  unfold State.notifyHost
  split
  · split <;> rfl
  · rfl

theorem store (s : State) (pa : Nat) (bs : List Byte) : Homed s (s.store pa bs) := by
  obtain ⟨-, -, hh, -, hp, ho, -⟩ := store_rest s pa bs
  obtain ⟨-, -, -, hk, -, -⟩ := rawWrite_rest s pa bs
  have hn := notifyHost_package { s.rawWrite pa bs with harts := s.harts.map (touched pa bs.length) } pa bs.length
  refine ⟨hh, by rw [hp], by rw [hp], ?_, ho⟩
  calc _ = { (State.notifyHost { s.rawWrite pa bs with harts := s.harts.map (touched pa bs.length) } pa bs.length).pkg with
      remote := s.pkg.remote, held := s.pkg.held, hostOut := s.pkg.hostOut } := rfl
    _ = { s.pkg with remote := s.pkg.remote, held := s.pkg.held, hostOut := s.pkg.hostOut } := by
      have h := congrArg (fun k : Pkg => { k with remote := s.pkg.remote, held := s.pkg.held, hostOut := s.pkg.hostOut }) (hn.trans hk)
      exact h

theorem sample (s : State) (l : List Nat) : Homed s (s.sample l) := by
  unfold State.sample
  split
  · exact ⟨rfl, rfl, rfl, rfl, rfl, rfl, rfl, rfl, rfl⟩
  · exact refl s

theorem homeByte (s : State) (pa : Nat) (v : Byte) : Homed s (s.homeByte s.who pa v) := by
  rw [State.homeByte, if_pos (beq_self_eq_true _)]
  exact (sample s _).trans (store ..)

theorem writeBackByte (hb : b.who = s.who) : Homed s (s.writeBackByte b) := by
  refine trans ?_ (dropGranules ..)
  have h := homeByte s b.pa b.val
  rw [← hb] at h
  exact ⟨h.hart, h.teams, h.part, h.pkg, h.own⟩

theorem foldl_writeBackByte (hl : ∀ b ∈ l, b.who = s.who) : Homed s (l.foldl State.writeBackByte s) := by
  induction l generalizing s with
  | nil => exact refl s
  | cons b l ih =>
    have h1 := writeBackByte (hl b (List.mem_cons_self ..))
    exact h1.trans (ih fun b' hb' => (hl b' (List.mem_cons_of_mem _ hb')).trans h1.who.symm)

theorem writeBackAll (hl : ∀ b ∈ l, b.who = s.who) : Homed s (s.writeBackAll l) :=
  (⟨rfl, rfl, rfl, rfl, rfl, rfl, rfl, rfl, rfl⟩ : Homed s (s.unpoison (coversWord l))).trans (foldl_writeBackByte hl)

end Homed

/-! ## What reaches memory -/

section Memory

theorem writeBackByte_mem (hb : b.who = s.who) (hp : s.poison = []) : (s.writeBackByte b).mem = (s.rawWrite b.pa [b.val]).mem := by
  have h : (s.homeByte b.who b.pa b.val).mem = (s.rawWrite b.pa [b.val]).mem := by
    rw [State.homeByte, hb, if_pos (beq_self_eq_true _), State.store_mem, State.rawWrite_of_clean hp,
      State.rawWrite_of_clean ((sample_poison ..).trans hp), sample_mem]
  exact h

theorem writeBackByte_poison (hb : b.who = s.who) (hp : s.poison = []) : (s.writeBackByte b).poison = [] := by
  have h : (s.homeByte b.who b.pa b.val).poison = [] := by
    obtain ⟨-, hpo, -⟩ := store_rest (s.sample [b.pa]) b.pa [b.val]
    have hclean : (s.sample [b.pa]).poison = [] := (sample_poison ..).trans hp
    rw [State.homeByte, hb, if_pos (beq_self_eq_true _), hpo, State.rawWrite_of_clean hclean]
    exact hclean
  exact h

theorem writeBackByte_inv (hb : b.who = s.who) (hi : s.Inv) (hp : s.poison = []) : (s.writeBackByte b).Inv :=
  State.inv_of_mem (t := s.writeBackByte b) (writeBackByte_mem hb hp) (State.rawWrite_inv hi)

theorem byte_writeBackByte (hb : b.who = s.who) (hi : s.Inv) (hp : s.poison = []) (a : Nat) :
    (s.writeBackByte b).byte a = if a = b.pa then b.val else s.byte a := by
  rw [State.byte, writeBackByte_mem hb hp, ← State.byte]
  split
  · rename_i ha
    have hbytes := State.bytes_rawWrite (pa := b.pa) (bs := [b.val]) hi hp
    rw [ha]
    simpa [State.bytes, State.byte, sparseGets] using hbytes
  · exact State.byte_rawWrite_outside (by simp; omega)

/-- A byte that no written one lies at stands, and one that is written alone at its place arrives. -/
theorem byte_foldl_writeBackByte (hl : ∀ b ∈ l, b.who = s.who) (hi : s.Inv) (hp : s.poison = []) :
    (∀ a, (∀ b ∈ l, b.pa ≠ a) → (l.foldl State.writeBackByte s).byte a = s.byte a) ∧
    ∀ b ∈ l, (∀ q ∈ l, q.pa = b.pa → q = b) → (l.foldl State.writeBackByte s).byte b.pa = b.val := by
  induction l generalizing s with
  | nil => exact ⟨fun _ _ => rfl, fun b hb => nomatch hb⟩
  | cons c l ih =>
    have hc := hl c (List.mem_cons_self ..)
    have hrest : ∀ b ∈ l, b.who = (s.writeBackByte c).who := fun b hb =>
      (hl b (List.mem_cons_of_mem _ hb)).trans (Homed.writeBackByte hc).who.symm
    obtain ⟨hout, hin⟩ := ih hrest (writeBackByte_inv hc hi hp) (writeBackByte_poison hc hp)
    have hstep := byte_writeBackByte hc hi hp
    refine ⟨fun a ha => ?_, fun b hb hu => ?_⟩
    · rw [List.foldl_cons, hout a fun b hb => ha b (List.mem_cons_of_mem _ hb), hstep, if_neg fun he => ha c (List.mem_cons_self ..) he.symm]
    · rw [List.foldl_cons]
      by_cases hex : ∃ q ∈ l, q.pa = b.pa
      · obtain ⟨q, hq, hqb⟩ := hex
        obtain rfl := hu q (List.mem_cons_of_mem _ hq) hqb
        exact hin q hq fun q' hq' => hu q' (List.mem_cons_of_mem _ hq')
      · have hbc : b = c := by
          rcases List.mem_cons.1 hb with rfl | hb
          · rfl
          · exact absurd ⟨b, hb, rfl⟩ hex
        rw [hout b.pa fun q hq he => hex ⟨q, hq, he⟩, hstep, if_pos (congrArg _ hbc), hbc]

end Memory

end Sys2Proof.Machine
end
section
/-! ## The team barrier instructions (R35, R154 to R159, R305) -/
namespace Sys2Proof.Machine

variable {s t : State} {n : BitVec 4} {m : Member} {tm : Team} {b : BarView} {e : Exc}

/-- What holds of the three team barrier instructions. -/
def AllTbar (n : BitVec 4) (P : Sys2Proof.Instr → Prop) : Prop := P (.tbarArr n) ∧ P (.tbarWait n) ∧ P (.tbarSync n)

/-! ## The site (R35) -/

theorem needWSite_w (h : s.site = .w) : needWSite s = .ok () s := by simp [needWSite, h]

theorem needWSite_traps (h : s.site = .l) (hno : s.hart.installed = none ∨ ¬ s.hart.u.zsitectl.getLsbD 0 = true) :
    needWSite s = .error .siteTrap s := by
  have hf : (s.hart.installed.isSome && s.hart.u.zsitectl.getLsbD 0) = false := by
    rcases hno with hi | ha
    · simp [hi]
    · rw [Bool.eq_false_iff.2 ha, Bool.and_false]
  simp only [needWSite, h, hf]
  rfl

theorem needWSite_migrates (h : s.site = .l) {ctx : Nat} (hi : s.hart.installed = some ctx) (ha : s.hart.u.zsitectl.getLsbD 0 = true) :
    needWSite s = goW true s := by simp [needWSite, h, hi, ha]

theorem tbar_traps (h : needWSite s = .error .siteTrap s) : AllTbar n fun i => Traps i s 24 ((instrWord i).setWidth 64) :=
  ⟨finish_siteTrap (run_bind_error h), finish_siteTrap (run_bind_error h), finish_siteTrap (run_bind_error h)⟩

theorem tbar_departs (h : needWSite s = .error .done t) : AllTbar n fun i => exec i s = .next t :=
  ⟨finish_done (run_bind_error h), finish_done (run_bind_error h), finish_done (run_bind_error h)⟩

theorem tbar_waitsToMigrate {w : Wait} (h : needWSite s = .error (.wait w) t) : AllTbar n fun i => exec i s = .next (t.setWait w) :=
  ⟨finish_wait (run_bind_error h), finish_wait (run_bind_error h), finish_wait (run_bind_error h)⟩

theorem AllTbar.imp {P Q : Sys2Proof.Instr → Prop} (h : ∀ i, P i → Q i) : AllTbar n P → AllTbar n Q :=
  fun ⟨ha, hw, hs⟩ => ⟨h _ ha, h _ hw, h _ hs⟩

/-! ## Barriers of no team -/

theorem barView_none (h : s.memberOf s.who = none) : s.barView s.who n = none := by simp [State.barView, h]

theorem barrierWait_none (h : s.barView s.who n = none) : barrierWait n s = .ok () s := by
  rw [barrierWait, run_bind_ok (run_get s)]
  simp only [h]
  rfl

theorem tbar_alone (hs : s.site = .w) (hm : s.myMends = []) (hd : s.hart.dropped = none) (h : s.memberOf s.who = none) :
    AllTbar n fun i => Yields i s {} fun _ => True := by
  have hv := barView_none (n := n) h
  have hstep : ∀ i, exec i s = .next s.retire → Yields i s {} fun _ => True := fun i he => (Effect.refl {} s).yields he trivial
  refine ⟨hstep _ (finish_ok ?_), hstep _ (finish_ok ?_), hstep _ (finish_ok ?_)⟩
  · rw [run_bind_ok (needWSite_w hs), run_bind_ok (orderingPoint_passes hm hd), run_bind_ok (run_get s)]
    simp only [hv]
    rfl
  · rw [run_bind_ok (needWSite_w hs), run_bind_ok (barrierWait_none hv)]
    rfl
  · rw [run_bind_ok (needWSite_w hs), run_bind_ok (orderingPoint_passes hm hd), run_bind_ok (run_get s)]
    simp only [hv]
    exact run_bind_ok (barrierWait_none hv)

/-! ## A member's barrier -/

theorem barrierWait_waits (hv : s.barView s.who n = some b) (hp : b.passes = false) : barrierWait n s = .error (.wait (.tbar n)) s := by
  rw [barrierWait, run_bind_ok (run_get s)]
  simp only [hv, hp]
  rfl

theorem barrierWait_passes (hv : s.barView s.who n = some b) (hp : b.passes = true) :
    barrierWait n s = .ok () (if b.pending then s.setPending n false else s) := by
  rw [barrierWait, run_bind_ok (run_get s)]
  simp only [hv, hp]
  rfl

section Member

variable (hs : s.site = .w) (hv : s.barView s.who n = some b)
include hs hv

theorem exec_tbarArr (hm : s.myMends = []) (hd : s.hart.dropped = none) :
    exec (.tbarArr n) s = .next (s.homeWindows.arriveBar n).retire := by
  refine finish_ok ?_
  rw [run_bind_ok (needWSite_w hs), run_bind_ok (orderingPoint_passes hm hd), run_bind_ok (run_get s)]
  simp only [hv]
  rfl

theorem exec_tbarWait_waits (hp : b.passes = false) : exec (.tbarWait n) s = .next (s.setWait (.tbar n)) := by
  refine finish_wait ?_
  rw [run_bind_ok (needWSite_w hs)]
  exact run_bind_error (barrierWait_waits hv hp)

theorem exec_tbarWait_passes (hp : b.passes = true) :
    exec (.tbarWait n) s = .next (if b.pending then s.setPending n false else s).retire := by
  refine finish_ok ?_
  rw [run_bind_ok (needWSite_w hs), run_bind_ok (barrierWait_passes hv hp)]
  rfl

theorem exec_tbarSync_waits (hm : s.myMends = []) (hd : s.hart.dropped = none) (hpe : b.pending = true) (hp : b.passes = false) :
    exec (.tbarSync n) s = .next (s.setWait (.tbar n)) := by
  refine finish_wait ?_
  rw [run_bind_ok (needWSite_w hs), run_bind_ok (orderingPoint_passes hm hd), run_bind_ok (run_get s)]
  simp only [hv, hpe]
  exact run_bind_error (barrierWait_waits hv hp)

theorem exec_tbarSync_passes (hm : s.myMends = []) (hd : s.hart.dropped = none) (hpe : b.pending = true) (hp : b.passes = true) :
    exec (.tbarSync n) s = .next (s.setPending n false).retire := by
  refine finish_ok ?_
  rw [run_bind_ok (needWSite_w hs), run_bind_ok (orderingPoint_passes hm hd), run_bind_ok (run_get s)]
  simp only [hv, hpe]
  have h := barrierWait_passes hv hp
  rw [hpe] at h
  exact run_bind_ok h

theorem exec_tbarSync_arrives (hm : s.myMends = []) (hd : s.hart.dropped = none) (hpe : b.pending = false) {b' : BarView}
    (hv' : (s.homeWindows.arriveBar n).barView (s.homeWindows.arriveBar n).who n = some b') (hp : b'.passes = false) :
    exec (.tbarSync n) s = .next ((s.homeWindows.arriveBar n).setWait (.tbar n)) := by
  refine finish_wait ?_
  rw [run_bind_ok (needWSite_w hs), run_bind_ok (orderingPoint_passes hm hd), run_bind_ok (run_get s)]
  simp only [hv, hpe]
  exact (run_bind_ok (run_set ..)).trans (run_bind_error (barrierWait_waits hv' hp))

end Member

/-! ## A wait of the current thread -/

theorem leaveGroup_still (s : State) (ctx w : Nat) (ends : Bool) : (s.leaveGroup ctx w ends).part.still = s.part.still := by
  have hw : ((s.leaveGroup ctx w ends).part.wcores.map fun w => { w with slots := Vector.replicate 4 none }) =
      s.part.wcores.map fun w => { w with slots := Vector.replicate 4 none } := by
    show (adjust _ _ s.part.wcores).map _ = _
    rw [adjust, List.map_map]
    refine List.map_congr_left fun c _ => ?_
    simp only [Function.comp]
    split <;> rfl
  exact congrArg (fun l => { s.part with hotCounts := [], wcores := l }) hw

theorem wthread_of_site (h : s.site = .w) : ∃ ctx, s.hart.id = .wthread ctx := by
  unfold State.site at h
  split at h
  · exact ⟨_, ‹_›⟩
  · cases h

/-- The wait of a thread for a team barrier files it anew and ends its group for it: of the partition only the groups change (R47, R49). -/
theorem setWait_tbar (hs : s.site = .w) (n : BitVec 4) :
    (s.setWait (.tbar n)).hart = { s.hart with wait := some (.tbar n), resume := none, car := s.hart.car.map (Car.refiled s) } ∧
    (s.setWait (.tbar n)).harts = s.harts ∧ (s.setWait (.tbar n)).mem = s.mem ∧ (s.setWait (.tbar n)).poison = s.poison ∧
    (s.setWait (.tbar n)).part.still = s.part.still ∧ (s.setWait (.tbar n)).pkg = s.pkg := by
  obtain ⟨ctx, hid⟩ := wthread_of_site hs
  cases hc : s.hart.car with
  | none =>
    have he : s.setWait (.tbar n) = { s with hart := { s.hart with wait := some (.tbar n), resume := none } } := by
      simp only [State.setWait, hid, hc]
    rw [he, Option.map_none, ← hc]
    exact ⟨rfl, rfl, rfl, rfl, rfl, rfl⟩
  | some c =>
    have he : s.setWait (.tbar n) =
        { (s.leaveGroup ctx c.core true).refile with
          hart := { (s.leaveGroup ctx c.core true).refile.hart with wait := some (.tbar n), resume := none } } := by
      unfold State.setWait
      rw [hid, hc]
      rfl
    rw [he, ← hc]
    exact ⟨rfl, rfl, rfl, rfl, leaveGroup_still s ctx c.core true, rfl⟩

theorem waits_tbar {i : Sys2Proof.Instr} (hs : s.site = .w) (he : exec i s = .next (s.setWait (.tbar n))) : Waits i s (.tbar n) :=
  have ⟨hh, hhs, hm, hp, hpt, hk⟩ := setWait_tbar hs n
  ⟨_, he, hh, hhs, hm, hp, hpt, hk⟩

/-! ## The own dirty bytes (R84, R158) -/

/-- The dirty bytes of the current thread in its team's windows. -/
def ownDirty (s : State) (tm : Team) : List PrivByte :=
  s.part.priv.filter fun p => p.dirty && (p.who == s.who && tm.windows.any fun w =>
    w.asid == p.asid && w.base.toNat ≤ p.va && p.va < w.base.toNat + w.len)

section Homing

variable (hm : s.memberOf s.who = some m) (ht : s.team? m.team = some tm)
include hm

theorem myTeam_eq : s.myTeam = m.team := by simp [State.myTeam, State.teamNum, hm]

include ht

theorem homeWindows_eq : s.homeWindows = s.writeBackAll (ownDirty s tm) := by
  simp only [State.homeWindows, myTeam_eq hm, ht]
  rfl

theorem homed_homeWindows : Homed s s.homeWindows := by
  rw [homeWindows_eq hm ht]
  refine Homed.writeBackAll fun b hb => ?_
  simp only [ownDirty, List.mem_filter, Bool.and_eq_true, beq_iff_eq] at hb
  exact hb.2.2.1

theorem byte_homeWindows (hi : s.Inv) (hp : s.poison = []) :
    (∀ p ∈ ownDirty s tm, (∀ q ∈ ownDirty s tm, q.pa = p.pa → q = p) → s.homeWindows.byte p.pa = p.val) ∧
    ∀ a, (∀ p ∈ ownDirty s tm, p.pa ≠ a) → s.homeWindows.byte a = s.byte a := by
  have hwho : ∀ b ∈ ownDirty s tm, b.who = s.who := fun b hb => by
    simp only [ownDirty, List.mem_filter, Bool.and_eq_true, beq_iff_eq] at hb
    exact hb.2.2.1
  have hclean : (s.unpoison (coversWord (ownDirty s tm))).poison = [] := by simp [State.unpoison, hp]
  obtain ⟨hout, hin⟩ := byte_foldl_writeBackByte (s := s.unpoison (coversWord (ownDirty s tm))) hwho hi hclean
  rw [homeWindows_eq hm ht]
  exact ⟨hin, hout⟩

theorem homeWindows_nothing (h : ownDirty s tm = []) :
    s.homeWindows.mem = s.mem ∧ s.homeWindows.poison = s.poison ∧ s.homeWindows.harts = s.harts := by
  rw [homeWindows_eq hm ht, h]
  refine ⟨rfl, ?_, rfl⟩
  show s.poison.filter (fun w => !coversWord [] w) = s.poison
  exact List.filter_eq_self.2 fun _ _ => rfl

end Homing

end Sys2Proof.Machine
end
section
/-! ## A member at a team barrier (R154 to R159) -/
namespace Sys2Proof.Machine

variable {s t u v : State} {n : BitVec 4} {m : Member} {tm : Team} {bit : Bool} {bar : TeamBar}

/-! ## Teams and members changed -/

theorem team?_modBar {a k : BitVec 16} {i : Fin 16} {f : TeamBar → TeamBar} :
    (s.modBar a i f).team? k = (s.team? k).map fun x => if x.num == a then { x with bars := x.bars.set i (f x.bars[i]) } else x := by
  refine State.find?_adjust (fun x => ?_) s.part.teams
  rfl

theorem memberOf_modMember {f : Member → Member} (hf : ∀ x, (f x).who = x.who) {who : HartId} :
    (s.modMember f).memberOf who = (s.memberOf who).map fun x => if x.who == s.who then f x else x := by
  refine State.find?_adjust (fun x => ?_) s.part.members
  rw [hf]

/-! ## Memory, the member and its barrier afterwards -/

/-- The member and its barrier n in t, memory being that of s1. -/
def Becomes (s : State) (n : BitVec 4) (m : Member) (tm : Team) (s1 t : State) (bit : Bool) (bar : TeamBar) : Prop :=
  t.mem = s1.mem ∧ t.poison = s1.poison ∧ t.harts = s1.harts ∧
  ∃ m' tm', t.memberOf s.who = some m' ∧ t.team? m.team = some tm' ∧
    (∀ k : BitVec 4, m'.pending.getLsbD k.toNat = if k = n then bit else m.pending.getLsbD k.toNat) ∧
    m'.phase = m.phase ∧ m'.rank = m.rank ∧ (s1.team? m.team).map Team.windows = some tm'.windows ∧
    ∀ k : BitVec 4, tm'.bars[k.toNat]'k.isLt = if k = n then bar else tm.bars[k.toNat]'k.isLt

/-- What a retirement or a wait changes is nothing of it. -/
theorem Becomes.of_still {s1 : State} (h : Becomes s n m tm s1 u bit bar) (hm : t.mem = u.mem) (hp : t.poison = u.poison)
    (hh : t.harts = u.harts) (hs : t.part.still = u.part.still) : Becomes s n m tm s1 t bit bar := by
  obtain ⟨hm1, hp1, hh1, hrest⟩ := h
  have hmem : t.part.members = u.part.members := (congrArg Part.members hs :)
  have hteams : t.part.teams = u.part.teams := (congrArg Part.teams hs :)
  refine ⟨hm.trans hm1, hp.trans hp1, hh.trans hh1, ?_⟩
  rwa [State.memberOf, State.team?, hmem, hteams]

theorem Becomes.retire {s1 : State} (h : Becomes s n m tm s1 u bit bar) : Becomes s n m tm s1 u.retire bit bar :=
  h.of_still (State.retireTo_mem ..) (State.retireTo_poison ..) (State.retireTo_harts ..) (State.retireTo_still ..)

/-! ## A retirement that changes no register -/

theorem sameHart_of_eq {w : Writes} (h : t.hart = s.hart) : SameHart w s t := by
  refine sameHart_iff.2 ⟨?_, ?_, ?_⟩
  · simp [SameRegs, State.rx, State.rf, State.rp, State.rw, State.rk, State.rd, State.rb, h]
  · simp [SameFlags, h]
  · rw [h]
    unfold Hart.putBack
    cases w.resv <;> cases w.watch <;> cases w.task <;> rfl

/-- An instruction that leaves the hart as it is retires behind itself. -/
theorem retires (hh : u.hart = s.hart) (ho : SameOwn s u) : RetiredTo s.nextPc s u.retire ∧ SameHart {} s u.retire := by
  have hpc : u.pc + u.ilen none = s.nextPc := by
    have hp : u.pfx = s.pfx := ho.1
    rw [← State.pc_add_ilen, State.pc, State.pc, State.ilen, State.ilen, hh, hp]
  rw [State.retire_eq, hpc]
  refine ⟨RetiredTo.of_effect (by rw [hh]) (by rw [hh]) (by rw [hh]), (sameHart_of_eq hh).trans (Frame.refl {} u).retireTo.1⟩

/-! ## An arrival (R157) -/

section Arrive

variable (hm : s.memberOf s.who = some m) (ht : s.team? m.team = some tm)

/-- The barrier with the thread's arrival in this A-clock. -/
def TeamBar.arrival (b : TeamBar) (who : HartId) : TeamBar := { b with arriving := insertNew who b.arriving }

include hm ht

theorem team_homeWindows :
    ∃ tv, s.homeWindows.team? m.team = some tv ∧ tv.bars = tm.bars := by
  have h := (homed_homeWindows hm ht).team? m.team
  rw [ht, Option.map_some, Option.map_eq_some_iff] at h
  obtain ⟨tv, htv, hb⟩ := h
  exact ⟨tv, htv, (congrArg Team.bars hb :)⟩

theorem team_arriveBar :
    ∃ tv, s.homeWindows.team? m.team = some tv ∧ (s.homeWindows.arriveBar n).team? m.team =
      some { tv with bars := tm.bars.set n.toFin ((tm.bars[n.toNat]'n.isLt).arrival s.who) } := by
  obtain ⟨tv, htv, hb⟩ := team_homeWindows hm ht
  have hhome := homed_homeWindows hm ht
  have hteam : s.homeWindows.myTeam = m.team := myTeam_eq (by rw [hhome.who, hhome.memberOf, hm])
  have hnum : (tv.num == m.team) = true := List.find?_some (p := fun x : Team => x.num == m.team) htv
  refine ⟨tv, htv, ?_⟩
  rw [State.arriveBar, team?_modBar, htv, Option.map_some, hteam, if_pos hnum, hhome.who, hb]
  rfl

theorem becomes_arriveBar :
    Becomes s n m tm s.homeWindows (s.homeWindows.arriveBar n) (m.pending.getLsbD n.toNat) ((tm.bars[n.toNat]'n.isLt).arrival s.who) := by
  obtain ⟨tv, htv, htu⟩ := team_arriveBar (n := n) hm ht
  have hmu : (s.homeWindows.arriveBar n).memberOf s.who = some m := ((homed_homeWindows hm ht).memberOf s.who).trans hm
  refine ⟨rfl, rfl, rfl, m, _, hmu, htu, fun k => ?_, rfl, rfl, by rw [htv]; rfl, fun k => ?_⟩
  · split
    · rename_i hk
      rw [hk]
    · rfl
  · by_cases hk : k = n
    · subst hk
      rw [if_pos rfl]
      exact Vector.getElem_set_self ..
    · rw [if_neg hk]
      exact Vector.getElem_set_ne n.isLt k.isLt fun he => hk (BitVec.eq_of_toNat_eq he.symm)

end Arrive

/-! ## A pending bit cleared (R156) -/

theorem getLsbD_bit (k n : BitVec 4) : (1#16 <<< n.toNat).getLsbD k.toNat = decide (k = n) := by
  have hk := k.isLt
  have hn := n.isLt
  simp only [BitVec.getLsbD_shiftLeft, BitVec.getLsbD_one, ← BitVec.toNat_inj]
  by_cases h : k.toNat = n.toNat <;> simp [h] <;> omega

theorem getLsbD_clearBit (p : BitVec 16) (k n : BitVec 4) :
    (p &&& ~~~(1#16 <<< n.toNat)).getLsbD k.toNat = if k = n then false else p.getLsbD k.toNat := by
  have hk : k.toNat < 16 := k.isLt
  rw [BitVec.getLsbD_and, BitVec.getLsbD_not, getLsbD_bit]
  by_cases h : k = n <;> simp [h, hk]

theorem becomes_setPending (hm : s.memberOf s.who = some m) (ht : s.team? m.team = some tm) :
    Becomes s n m tm s (s.setPending n false) false (tm.bars[n.toNat]'n.isLt) := by
  have hwho : (m.who == s.who) = true := List.find?_some (p := fun x : Member => x.who == s.who) hm
  have hfind := memberOf_modMember (s := s) (who := s.who)
    (f := fun m => { m with pending := if false then m.pending ||| (1#16 <<< n.toNat) else m.pending &&& ~~~(1#16 <<< n.toNat) }) fun _ => rfl
  rw [hm, Option.map_some, if_pos hwho] at hfind
  refine ⟨rfl, rfl, rfl, _, tm, hfind, ht, fun k => ?_, rfl, rfl, by rw [ht]; rfl, fun k => ?_⟩
  · exact getLsbD_clearBit m.pending k n
  · split
    · rename_i hk
      rw [hk]
    · rfl

/-! ## What a member's instructions do -/

section Clauses

variable (hs : s.site = .w) (hmends : s.myMends = []) (hd : s.hart.dropped = none) (hm : s.memberOf s.who = some m)
  (ht : s.team? m.team = some tm)

include hm ht in
theorem barView_member :
    s.barView s.who n = some ⟨m.pending.getLsbD n.toNat, m.phase[n.toNat]'n.isLt, tm.bars[n.toNat]'n.isLt,
      (tm.bars[n.toNat]'n.isLt).arriving.contains s.who⟩ := by
  simp [State.barView, hm, ht]

include hm ht in
/-- After its arrival the thread's view of the barrier holds the arrival. -/
theorem barView_arriveBar :
    ∃ b, (s.homeWindows.arriveBar n).barView (s.homeWindows.arriveBar n).who n = some b ∧ b.passes = false := by
  have hhome := homed_homeWindows hm ht
  obtain ⟨tv, -, htu⟩ := team_arriveBar (n := n) hm ht
  have hwho : (s.homeWindows.arriveBar n).who = s.who := hhome.who
  have hmu : (s.homeWindows.arriveBar n).memberOf s.who = some m := (hhome.memberOf s.who).trans hm
  refine ⟨_, by rw [hwho, State.barView, hmu]; simp only [htu]; rfl, ?_⟩
  simp [BarView.passes, TeamBar.arrival, mem_insertNew]

/-- The instruction i completes with no register changed, the member and the barrier as given. -/
def Leaves (s : State) (n : BitVec 4) (m : Member) (tm : Team) (i : Sys2Proof.Instr) (s1 : State) (bit : Bool) (bar : TeamBar) : Prop :=
  ∃ t, exec i s = .next t ∧ RetiredTo s.nextPc s t ∧ SameHart {} s t ∧ Becomes s n m tm s1 t bit bar

include hs hmends hd hm ht in
theorem tbarArr_leaves :
    Leaves s n m tm (.tbarArr n) s.homeWindows (m.pending.getLsbD n.toNat) ((tm.bars[n.toNat]'n.isLt).arrival s.who) := by
  have hhome := homed_homeWindows hm ht
  obtain ⟨hr, hh⟩ := retires (u := s.homeWindows.arriveBar n) hhome.hart hhome.own
  exact ⟨_, exec_tbarArr hs (barView_member hm ht) hmends hd, hr, hh, (becomes_arriveBar hm ht).retire⟩

include hm ht in
theorem setPending_leaves {i : Sys2Proof.Instr} (he : exec i s = .next (s.setPending n false).retire) :
    Leaves s n m tm i s false (tm.bars[n.toNat]'n.isLt) := by
  obtain ⟨hr, hh⟩ := retires (s := s) (u := s.setPending n false) rfl ⟨rfl, rfl, rfl, rfl, rfl⟩
  exact ⟨_, he, hr, hh, (becomes_setPending hm ht).retire⟩

include hs hmends hd hm ht in
/-- TBAR.SYNC without a pending arrival arrives and waits. -/
theorem tbarSync_arrives (hpe : m.pending.getLsbD n.toNat = false) :
    ∃ t, exec (.tbarSync n) s = .next t ∧
      Becomes s n m tm s.homeWindows t false ((tm.bars[n.toNat]'n.isLt).arrival s.who) ∧
      t.hart = { s.hart with wait := some (.tbar n), resume := none, car := s.hart.car.map (Car.refiled s) } := by
  have hhome := homed_homeWindows hm ht
  obtain ⟨b, hb, hp⟩ := barView_arriveBar (n := n) hm ht
  set u := s.homeWindows.arriveBar n with hu
  have hsite : u.site = .w := by
    have hh : u.hart = s.hart := hhome.hart
    rw [State.site, hh]
    exact hs
  obtain ⟨hh, hhs, hmem, hpo, hst, -⟩ := setWait_tbar hsite n
  refine ⟨_, exec_tbarSync_arrives hs (barView_member hm ht) hmends hd hpe hb hp, ?_, ?_⟩
  · rw [← hpe]
    exact (becomes_arriveBar hm ht).of_still hmem hpo hhs hst
  · have hw32 : u.part.w32 = s.part.w32 := hhome.part_eq Part.w32 fun _ _ _ _ => rfl
    have hclk : u.pkg.zaclk = s.pkg.zaclk := hhome.pkg_eq Pkg.zaclk fun _ _ _ _ => rfl
    have href : Car.refiled u = Car.refiled s := by
      funext c
      simp [Car.refiled, hw32, hclk]
    rw [hh, href, show u.hart = s.hart from hhome.hart]

end Clauses

end Sys2Proof.Machine
end
section
/-! ## What an A-clock leaves standing before the barriers (R49, R288, R308) -/
namespace Sys2Proof.Machine

/-- The members and the teams, Ringmaster, what waits for the partition, and the clock. -/
def standing (s : State) :=
  (s.part.members, s.part.teams, s.part.rm, s.part.cmds, s.part.hostReqs, s.part.netReqs, s.pkg.zaclk)

variable {s t : State}

theorem standing_foldl {α : Type} {f : State → α → State} (hf : ∀ t a, standing (f t a) = standing t) (l : List α) (s : State) :
    standing (l.foldl f s) = standing s := by
  induction l generalizing s with
  | nil => rfl
  | cons a l ih => exact (ih _).trans (hf s a)

theorem Quiet.standing (h : Quiet s t) : standing t = standing s := by
  have hp := h.part_eq (fun p => (p.members, p.teams, p.rm, p.cmds, p.hostReqs, p.netReqs)) fun _ _ => rfl
  have hk := h.pkg_eq Pkg.zaclk fun _ _ _ _ => rfl
  simp only [Prod.mk.injEq] at hp
  simp only [Machine.standing, hp, hk]

theorem standing_of (hp : t.part = s.part) (hk : t.pkg = s.pkg) : standing t = standing s := by simp only [standing, hp, hk]

theorem standing_modW (w : Nat) (f : WCore → WCore) : standing (s.modW w f) = standing s := rfl

/-! ## The issue slots -/

theorem standing_settleGroup (s : State) (w slot : Nat) (g : Group) : standing (s.settleGroup w slot g) = standing s := by
  unfold State.settleGroup
  split
  · rw [standing_modW]
    refine standing_foldl (fun t c => ?_) _ _
    rfl
  · rfl

theorem standing_drawBin (s : State) (w slot : Nat) (b : Bin) : standing (s.drawBin w slot b) = standing s := by
  rw [drawBin_eq]
  exact (Quiet.parkContexts ..).standing

theorem standing_slotLimit (s : State) (w slot : Nat) : standing (s.slotLimit w slot) = standing s := by
  unfold State.slotLimit
  split
  · split
    · split
      · exact standing_settleGroup ..
      · rfl
    · rfl
  · rfl

theorem standing_drawFree (s : State) (w slot : Nat) : standing (s.drawFree w slot) = standing s := by
  unfold State.drawFree
  split
  · split
    · rfl
    · split
      · exact standing_drawBin ..
      · rfl
  · rfl

theorem standing_drawClock (s : State) : standing s.drawClock = standing s :=
  (standing_foldl (fun t (x : Nat × Nat) => standing_drawFree t x.1 x.2) _ _).trans
    (standing_foldl (fun t (x : Nat × Nat) => standing_slotLimit t x.1 x.2) _ _)

/-! ## Registers stowed anew -/

theorem Quiet.restowChanged (old s : State) : Quiet s (old.restowChanged s) := by
  refine Quiet.foldl (fun t ctx => ?_) _ s
  unfold State.restow
  split
  · split
    · exact .refl t
    · exact .stow ..
  · exact .refl t

/-! ## Records that wait -/

theorem standing_newTag (s : State) (k : AwaitKind) (ctx cause : Nat) (addr pc : Word) (entry : List Byte) :
    standing (s.newTag k ctx cause addr pc entry).2 = standing s := rfl

theorem standing_pushWf (s : State) (r : WfRec) : standing (s.pushWf r) = standing s := (quiet_pushWf s r).standing

theorem standing_fileFault (s : State) (ctx core cause acc : Nat) (va pc : Word) : standing (s.fileFault ctx core cause acc va pc) = standing s :=
  (standing_pushWf ..).trans (standing_newTag ..)

theorem standing_writeMend (s : State) (core : Nat) (m : Mend) : standing (s.writeMend core m).2 = standing s :=
  (standing_pushWf ..).trans (standing_newTag ..)

theorem standing_withHart {f : State → State} (hf : ∀ t, standing (f t) = standing t) (h : HartId) (s : State) :
    standing (s.withHart h f) = standing s := by
  have hfocus : ∀ (k : HartId) (v : State), standing (v.focus k) = standing v := fun k v => standing_of State.focus_part State.focus_pkg
  unfold State.withHart
  split
  · exact (hfocus ..).trans ((hf _).trans (hfocus ..))
  · rfl

theorem standing_fileEmul (s : State) (ctx : Nat) (e : Illegal) (entry : List Byte) : standing (s.fileEmul ctx e entry) = standing s := by
  unfold State.fileEmul
  exact ((Quiet.engineWrite ..).standing :).trans (standing_newTag s .emul ctx 2 e.stval s.pc entry)

theorem standing_fileFirst (s : State) : standing s.fileFirst = standing s := by
  unfold State.fileFirst
  split
  · rfl
  · dsimp only
    split
    · split
      · exact standing_fileFault ..
      · rfl
    · split
      · split
        · exact (standing_writeMend ..)
        · rfl
      · rfl

theorem standing_fileFirstEmul (s : State) : standing s.fileFirstEmul = standing s := by
  unfold State.fileFirstEmul
  split
  · rfl
  · refine (standing_withHart (fun t => ?_) _ _).trans ?_
    · split
      · exact standing_fileEmul ..
      · rfl
    · rfl

theorem standing_fileWaiting (s : State) : standing s.fileWaiting = standing s := by
  refine (standing_foldl (fun t _ => ?_) _ _).trans (standing_foldl (fun t _ => ?_) _ _)
  · split
    · exact standing_fileFirstEmul t
    · rfl
  · split
    · exact standing_fileFirst t
    · rfl

theorem standing_tick (s : State) : standing s.tick = standing s := standing_fileWaiting _

/-! ## Ringmaster without requests and waiters (R288) -/

/-- No request and no waiter is at Ringmaster. -/
def Ringmaster.Unasked (r : Ringmaster) : Prop := r.reqs = [] ∧ r.takers = [] ∧ r.settlers = []

/-- t is s but for Ringmaster, which nobody asks anything. -/
def OnlyRm (s t : State) : Prop := ∃ r : Ringmaster, r.Unasked ∧ t = s.modRm fun _ => r

namespace OnlyRm

theorem modRm {f : Ringmaster → Ringmaster} (hf : ∀ r, r.Unasked → (f r).Unasked) : OnlyRm s t → OnlyRm s (t.modRm f) := by
  rintro ⟨r, hr, rfl⟩
  exact ⟨f r, hf r hr, rfl⟩

theorem unasked : OnlyRm s t → t.part.rm.Unasked := by
  rintro ⟨r, hr, rfl⟩
  exact hr

theorem rmRequests (h : OnlyRm s t) : OnlyRm s t.rmRequests := by
  obtain ⟨hreqs, -, -⟩ := h.unasked
  unfold State.rmRequests
  split
  · exact h
  · rw [hreqs]
    refine h.modRm fun r hr => ?_
    obtain ⟨h1, h2, h3⟩ := hr
    exact ⟨by rw [h1]; rfl, h2, h3⟩

theorem rmJoin (h : OnlyRm s t) : OnlyRm s t.rmJoin := h.modRm fun _ hr => hr

theorem rmAssign (h : OnlyRm s t) : OnlyRm s t.rmAssign := by
  obtain ⟨-, htakers, -⟩ := h.unasked
  unfold State.rmAssign
  rw [htakers]
  exact h.modRm fun r ⟨h1, _, h3⟩ => ⟨h1, rfl, h3⟩

theorem liveSettlers (h : OnlyRm s t) : OnlyRm s t.liveSettlers :=
  h.modRm fun r ⟨h1, h2, h3⟩ => ⟨h1, h2, by rw [h3]; rfl⟩

theorem settle (tr : BitVec 32) (h : OnlyRm s t) : OnlyRm s (t.settle tr) := by
  unfold State.settle
  split
  · exact h.modRm fun r ⟨h1, h2, h3⟩ => ⟨h1, h2, by rw [h3]; rfl⟩
  · exact h

theorem rmSettle (h : OnlyRm s t) : OnlyRm s t.rmSettle := by
  have hfold : ∀ (l : List (BitVec 32)) (t : State), OnlyRm s t → OnlyRm s (l.foldl State.settle t) := by
    intro l
    induction l with
    | nil => exact fun _ ht => ht
    | cons tr l ih => exact fun t ht => ih _ (ht.settle tr)
  have hs := hfold ((((t.liveSettlers.part.rm.tasks.filter Task.live).map fun t => t.desc.troupe) ++
    t.liveSettlers.part.rm.settlers.map Settler.troupe).dedup) _ h.liveSettlers
  obtain ⟨-, -, hnone⟩ := hs.unasked
  unfold State.rmSettle
  dsimp only
  rw [hnone]
  exact hs.liveSettlers

theorem rmClock (h : OnlyRm s t) : OnlyRm s t.rmClock := h.rmRequests.rmJoin.rmAssign.rmSettle.modRm fun _ hr => hr

end OnlyRm

/-- The partition as an A-clock comes to the barriers. -/
def State.atBarriers (s : State) : State := if s.active then s.drawClock.restowChanged s.drawClock.rmClock.tick else s

theorem exec_ringmasterClock (s : State) :
    exec .ringmasterClock s = .next (State.zaclkNext { s.atBarriers.restowChanged s.atBarriers.barClock with ran := [] }).pump := rfl

/-- What an A-clock leaves of the state for the barriers, Ringmaster aside. -/
theorem standing_atBarriers (h : s.part.rm.Unasked) : ∃ r, standing s.atBarriers = standing (s.modRm fun _ => r) := by
  unfold State.atBarriers
  split
  · have hd : standing s.drawClock = standing s := standing_drawClock s
    have hrm : s.drawClock.part.rm = s.part.rm := congrArg (fun x => x.2.2.1) hd
    obtain ⟨r, -, hr⟩ := OnlyRm.rmClock (s := s.drawClock) (t := s.drawClock) ⟨s.drawClock.part.rm, by rwa [hrm], rfl⟩
    refine ⟨r, ?_⟩
    rw [(Quiet.restowChanged ..).standing, standing_tick, hr]
    exact congrArg (fun x => (x.1, x.2.1, r, x.2.2.2)) hd
  · exact ⟨s.part.rm, rfl⟩

/-- Commands and requests being none, the clock's end does nothing more. -/
theorem pump_idle (hc : s.part.cmds = []) (hh : s.part.hostReqs = []) (hn : s.part.netReqs = []) : s.pump = s := by
  have hs : (s.modPart fun p => { p with hostReqs := [], netReqs := [] }) = s := by
    rw [State.modPart, ← hh, ← hn]
  unfold State.pump
  rw [hc]
  show (if s.part.netBusy then s else _) = s
  split
  · rfl
  · show s.part.netReqs.foldl _ (s.part.hostReqs.foldl _ _) = s
    rw [hh, hn]
    exact hs

end Sys2Proof.Machine
end
section
/-! ## The arrivals of an A-clock on one barrier (R155 to R157) -/
namespace Sys2Proof.Machine

/-! ## A barrier and its members -/

/-- What a barrier knows of a member: its pending bit and its arrival phase there. -/
structure Brief where
  who : HartId
  rank : BitVec 12
  pend : Bool
  phase : BitVec 32

/-- A member at barrier i. -/
def brief (i : Fin 16) (m : Member) : Brief := ⟨m.who, m.rank, m.pending.getLsbD i, m.phase[i]⟩

/-- The member with its arrival in a phase, when it is among those that arrive. -/
def Brief.arrive (a : List HartId) (phase : BitVec 32) (e : Brief) : Brief :=
  if e.who ∈ a then { e with pend := true, phase := phase } else e

/-- The barrier's phase advances when k members have arrived. -/
def TeamBar.completed (k : Nat) (b : TeamBar) : TeamBar := if 1 ≤ k && k ≤ b.count then { b with phase := b.phase + 1, count := 0 } else b

theorem TeamBar.completed_of_lt {k : Nat} {b : TeamBar} (h : b.count < k) : b.completed k = b := by
  simp [TeamBar.completed, h]

/-- In u the members of team N at barrier i are those of L, all expected, and the barrier is bar. -/
structure AtBar (N : BitVec 16) (i : Fin 16) (L : List Brief) (bar : TeamBar) (u : State) : Prop where
  briefs : (u.part.members.filter fun m => m.team == N).map (brief i) = L
  nodup : (u.part.members.map Member.who).Nodup
  expected : ∀ m ∈ u.part.members, m.team = N → m.since ≠ u.pkg.zaclk
  bar : ∀ x ∈ u.part.teams, x.num = N → x.bars[i] = bar
  team : ∃ x ∈ u.part.teams, x.num = N

namespace AtBar

variable {N a : BitVec 16} {i j : Fin 16} {L : List Brief} {bar : TeamBar} {u v : State} {who : HartId} {m : Member} {x : Team}

theorem of_eq (h : AtBar N i L bar u) (hm : v.part.members = u.part.members) (ht : v.part.teams = u.part.teams) (hz : v.pkg.zaclk = u.pkg.zaclk) :
    AtBar N i L bar v :=
  ⟨by rw [hm]; exact h.briefs, by rw [hm]; exact h.nodup, by rw [hm, hz]; exact h.expected, by rw [ht]; exact h.bar, by rw [ht]; exact h.team⟩

theorem memberOf_eq (h : AtBar N i L bar u) (hm : m ∈ u.part.members) : u.memberOf m.who = some m := by
  cases hf : u.memberOf m.who with
  | none => exact absurd (List.find?_eq_none.1 hf m hm) (by simp)
  | some y =>
    have hy : y.who = m.who := by simpa using List.find?_some (p := fun x : Member => x.who == m.who) hf
    rw [List.inj_on_of_nodup_map h.nodup (List.mem_of_find?_eq_some hf) hm hy]

theorem team?_bar (h : AtBar N i L bar u) (hx : u.team? N = some x) : x.bars[i] = bar :=
  h.bar x (List.mem_of_find?_eq_some hx) (by simpa using List.find?_some (p := fun x : Team => x.num == N) hx)

/-- The number of members that a phase waits for. -/
theorem expected_eq (h : AtBar N i L bar u) (j : Fin 16) (phase : BitVec 32) : u.expected N j phase = L.length := by
  have hall : (u.teamMembers N).filter (fun m => m.since != u.pkg.zaclk || m.arrived j phase) = u.teamMembers N := by
    refine List.filter_eq_self.2 fun m hm => ?_
    obtain ⟨hmem, hteam⟩ := List.mem_filter.1 hm
    have hs := h.expected m hmem (eq_of_beq hteam)
    simp [hs]
  rw [State.expected, hall, ← h.briefs, List.length_map, State.teamMembers]

/-! ### Steps on teams -/

/-- A change of the teams that keeps their numbers. -/
theorem adjustTeams (h : AtBar N i L bar u) {f : Team → Team} {bar' : TeamBar} (hn : ∀ x, (f x).num = x.num)
    (hb : ∀ x ∈ u.part.teams, x.num = N → (if x.num == a then f x else x).bars[i] = bar') :
    AtBar N i L bar' (u.modPart fun p => { p with teams := adjust (fun x => x.num == a) f p.teams }) := by
  have hnum : ∀ x : Team, (if x.num == a then f x else x).num = x.num := fun x => by
    split
    · exact hn x
    · rfl
  refine ⟨h.briefs, h.nodup, h.expected, fun y hy hN => ?_, ?_⟩
  · obtain ⟨x, hx, rfl⟩ := List.mem_map.1 hy
    exact hb x hx ((hnum x).symm.trans hN)
  · obtain ⟨x, hx, hN⟩ := h.team
    exact ⟨_, List.mem_map_of_mem hx, (hnum x).trans hN⟩

theorem modBar_other (h : AtBar N i L bar u) (f : TeamBar → TeamBar) (hne : a ≠ N ∨ j ≠ i) : AtBar N i L bar (u.modBar a j f) := by
  refine h.adjustTeams (fun _ => rfl) fun x hx hN => ?_
  split
  · rename_i hxa
    have hij : j ≠ i := hne.resolve_left (not_not.2 ((eq_of_beq hxa).symm.trans hN))
    rw [← h.bar x hx hN]
    exact Vector.getElem_set_ne j.isLt i.isLt fun he => hij (Fin.ext he)
  · exact h.bar x hx hN

theorem modBar_same (h : AtBar N i L bar u) (f : TeamBar → TeamBar) : AtBar N i L (f bar) (u.modBar N i f) := by
  refine h.adjustTeams (fun _ => rfl) fun x hx hN => ?_
  rw [if_pos (beq_iff_eq.2 hN), ← h.bar x hx hN]
  exact Vector.getElem_set_self ..

theorem completeBars_other (h : AtBar N i L bar u) (hne : a ≠ N) : AtBar N i L bar (u.completeBars a) := by
  refine h.adjustTeams (fun _ => rfl) fun x hx hN => ?_
  rw [if_neg fun he => hne ((eq_of_beq he).symm.trans hN)]
  exact h.bar x hx hN

theorem completeBars_same (h : AtBar N i L bar u) : AtBar N i L (bar.completed L.length) (u.completeBars N) := by
  refine h.adjustTeams (fun _ => rfl) fun x hx hN => ?_
  rw [if_pos (beq_iff_eq.2 hN)]
  have hb : x.bars[i.val] = bar := h.bar x hx hN
  simp only [Fin.getElem_fin, Vector.getElem_ofFn, h.expected_eq, TeamBar.completed, hb]

/-! ### Steps on members -/

/-- A change of one member that keeps who it is, its team and its join. -/
theorem adjustMembers (h : AtBar N i L bar u) {g : Member → Member} {e : Brief → Brief}
    (hk : ∀ y, (g y).who = y.who ∧ (g y).team = y.team ∧ (g y).since = y.since)
    (hb : ∀ y ∈ u.part.members, y.team = N → brief i (if y.who == who then g y else y) = e (brief i y)) :
    AtBar N i (L.map e) bar (u.modPart fun p => { p with members := adjust (fun y => y.who == who) g p.members }) := by
  have hkeep : ∀ y : Member, (if y.who == who then g y else y).who = y.who ∧ (if y.who == who then g y else y).team = y.team ∧
      (if y.who == who then g y else y).since = y.since := fun y => by
    split
    · exact hk y
    · exact ⟨rfl, rfl, rfl⟩
  refine ⟨?_, ?_, ?_, h.bar, h.team⟩
  · simp only [State.modPart, adjust, List.filter_map, List.map_map, ← h.briefs]
    have hf : u.part.members.filter ((fun m => m.team == N) ∘ fun y => if y.who == who then g y else y) =
        u.part.members.filter fun m => m.team == N :=
      List.filter_congr fun y _ => by simp only [Function.comp, (hkeep y).2.1]
    rw [hf]
    refine List.map_congr_left fun y hy => ?_
    obtain ⟨hmem, hteam⟩ := List.mem_filter.1 hy
    exact hb y hmem (eq_of_beq hteam)
  · have hwho : (u.part.members.map fun y => if y.who == who then g y else y).map Member.who = u.part.members.map Member.who := by
      rw [List.map_map]
      exact List.map_congr_left fun y _ => (hkeep y).1
    exact (congrArg List.Nodup hwho).mpr h.nodup
  · intro y hy hN
    obtain ⟨z, hz, rfl⟩ := List.mem_map.1 hy
    obtain ⟨-, hteam, hsince⟩ := hkeep z
    rw [hsince]
    exact h.expected z hz (hteam.symm.trans hN)

end AtBar

/-! ## One arrival (R157) -/

/-- A member with its arrival at barrier j in a phase. -/
def Member.arrive (j : Fin 16) (phase : BitVec 32) (y : Member) : Member :=
  { y with pending := y.pending ||| (1#16 <<< j.val), phase := y.phase.set j phase }

/-- The member who with its arrival. -/
def State.memberArrives (s : State) (who : HartId) (j : Fin 16) (phase : BitVec 32) : State :=
  s.modPart fun p => { p with members := adjust (fun y => y.who == who) (Member.arrive j phase) p.members }

/-- The arrival was already pending in the phase. -/
def Brief.again (phase : BitVec 32) (e : Brief) : Bool := e.pend && e.phase == phase

section Arrival

variable {N a : BitVec 16} {i j : Fin 16} {L : List Brief} {bar : TeamBar} {u : State} {who : HartId} {y : Member} {phase : BitVec 32} {e : Brief}

theorem getLsbD_setBit (p : BitVec 16) (i j : Fin 16) : (p ||| 1#16 <<< j.val).getLsbD i = (p.getLsbD i || decide (i = j)) := by
  have h : (1#16 <<< j.val).getLsbD i = decide (i = j) := getLsbD_bit (BitVec.ofFin i) (BitVec.ofFin j) |>.trans (by simp)
  rw [BitVec.getLsbD_or, h]

theorem brief_arrive_same : brief i (y.arrive i phase) = { brief i y with pend := true, phase := phase } := by
  simp only [brief, Member.arrive, getLsbD_setBit, decide_true, Bool.or_true]
  congr
  exact Vector.getElem_set_self ..

theorem brief_arrive_other (h : j ≠ i) : brief i (y.arrive j phase) = brief i y := by
  simp only [brief, Member.arrive, getLsbD_setBit, decide_eq_false h.symm, Bool.or_false]
  congr 1
  exact Vector.getElem_set_ne j.isLt i.isLt fun he => h (Fin.ext he)

/-- The arrival of the thread who, counted. -/
def State.countArrival (s : State) (a : BitVec 16) (j : Fin 16) (who : HartId) (phase : BitVec 32) : State :=
  ((s.memberArrives who j phase).modBar a j fun b => { b with count := b.count + 1 }).completeBars a

/-- An arrival either has no effect or is that of a member of the team, and counts. -/
theorem applyArrival_cases (a : BitVec 16) (j : Fin 16) (u : State) (who : HartId) :
    u.applyArrival a j who = u ∨
    ∃ m x, u.memberOf who = some m ∧ u.team? a = some x ∧ m.team = a ∧ u.applyArrival a j who = u.countArrival a j who x.bars[j].phase := by
  unfold State.applyArrival
  split
  next m x hm hx =>
    dsimp only
    split
    · exact .inl rfl
    next hc =>
      rw [Bool.not_eq_true, Bool.or_eq_false_iff] at hc
      exact .inr ⟨m, x, hm, hx, by simpa using hc.1, rfl⟩
  · exact .inl rfl

namespace AtBar

/-- An arrival at another barrier, or of another team. -/
theorem applyArrival_other (h : AtBar N i L bar u) (hlt : bar.count < L.length) (hne : a ≠ N ∨ j ≠ i) (who : HartId) :
    AtBar N i L bar (u.applyArrival a j who) := by
  rcases applyArrival_cases a j u who with he | ⟨m, x, hm, -, hteam, he⟩
  · rwa [he]
  have hmem : AtBar N i L bar (u.memberArrives who j x.bars[j].phase) := by
    have hadj := h.adjustMembers (who := who) (g := Member.arrive j x.bars[j].phase) (e := id) (fun _ => ⟨rfl, rfl, rfl⟩) fun y hy hN => by
      split
      next hw =>
        have hym : y = m := Option.some.inj ((h.memberOf_eq hy).symm.trans (by rw [eq_of_beq hw, hm]))
        exact brief_arrive_other (hne.resolve_left (not_not.2 (by rw [← hteam, ← hym, hN])))
      · rfl
    rwa [List.map_id] at hadj
  have hbar := hmem.modBar_other (fun b => { b with count := b.count + 1 }) hne
  rw [he, State.countArrival]
  by_cases ha : a = N
  · subst ha
    have hdone := hbar.completeBars_same
    rwa [TeamBar.completed_of_lt hlt] at hdone
  · exact hbar.completeBars_other ha

theorem exists_member (h : AtBar N i L bar u) (he : e ∈ L) : ∃ m ∈ u.part.members, m.team = N ∧ brief i m = e := by
  rw [← h.briefs, List.mem_map] at he
  obtain ⟨m, hm, rfl⟩ := he
  obtain ⟨hmem, hteam⟩ := List.mem_filter.1 hm
  exact ⟨m, hmem, eq_of_beq hteam, rfl⟩

theorem exists_team? (h : AtBar N i L bar u) : ∃ x, u.team? N = some x := by
  obtain ⟨x, hx, hN⟩ := h.team
  exact Option.isSome_iff_exists.1 (List.find?_isSome.2 ⟨x, hx, beq_iff_eq.2 hN⟩)

theorem who_nodup (h : AtBar N i L bar u) : (L.map Brief.who).Nodup := by
  rw [← h.briefs, List.map_map]
  exact h.nodup.sublist (List.filter_sublist.map _)

theorem brief_inj (h : AtBar N i L bar u) {e f : Brief} (he : e ∈ L) (hf : f ∈ L) (hw : e.who = f.who) : e = f :=
  List.inj_on_of_nodup_map h.who_nodup he hf hw

/-- An arrival of the team at the barrier. -/
theorem applyArrival_own (h : AtBar N i L bar u) (he : e ∈ L) :
    AtBar N i (L.map (Brief.arrive [e.who] bar.phase))
      (if e.again bar.phase then bar else { bar with count := bar.count + 1 }.completed L.length) (u.applyArrival N i e.who) := by
  obtain ⟨m, hm, hteam, rfl⟩ := h.exists_member he
  obtain ⟨x, hx⟩ := h.exists_team?
  have hm? : u.memberOf (brief i m).who = some m := h.memberOf_eq hm
  have hagain : m.arrived i x.bars[i].phase = (brief i m).again bar.phase := by rw [h.team?_bar hx]; rfl
  have heq : u.applyArrival N i (brief i m).who =
      if (brief i m).again bar.phase then u else u.countArrival N i m.who bar.phase := by
    simp only [State.applyArrival, hm?, hx, hteam, bne_self_eq_false, Bool.false_or, hagain]
    rw [h.team?_bar hx]
    rfl
  rw [heq]
  split
  next hag =>
    obtain ⟨hpend, hphase⟩ := Bool.and_eq_true_iff.1 hag
    have hsame : L.map (Brief.arrive [(brief i m).who] bar.phase) = L := by
      refine (List.map_congr_left fun f hf => ?_).trans (List.map_id L)
      unfold Brief.arrive
      split
      next hw =>
        rw [h.brief_inj hf he (List.mem_singleton.1 hw), ← hpend, ← eq_of_beq hphase]
        rfl
      · rfl
    rwa [hsame]
  next hag =>
    have hmem := h.adjustMembers (who := m.who) (g := Member.arrive i bar.phase) (e := Brief.arrive [m.who] bar.phase)
      (fun _ => ⟨rfl, rfl, rfl⟩) fun y hy hN => by
        by_cases hw : y.who = m.who
        · rw [if_pos (beq_iff_eq.2 hw), brief_arrive_same, Brief.arrive, if_pos (show (brief i y).who ∈ [m.who] from List.mem_singleton.2 hw)]
        · rw [if_neg (by simpa using hw), Brief.arrive, if_neg (by simpa [brief] using hw)]
    have hdone := (hmem.modBar_same fun b => { b with count := b.count + 1 }).completeBars_same
    rwa [List.length_map] at hdone

end AtBar

end Arrival

end Sys2Proof.Machine
end
section
/-! ## The arrivals of an A-clock, counted at its end (R155 to R157) -/
namespace Sys2Proof.Machine

variable {N : BitVec 16} {i : Fin 16} {L A : List Brief} {bar : TeamBar} {s u : State}

/-! ## The arrivals on the barrier, in turn -/

/-- The barrier after k arrivals that count, of len members. -/
def TeamBar.after (b : TeamBar) (k len : Nat) : TeamBar :=
  if b.count + k = len then { b with phase := b.phase + 1, count := 0 } else { b with count := b.count + k }

theorem map_arrive_nil (L : List Brief) (phase : BitVec 32) : L.map (Brief.arrive [] phase) = L :=
  (List.map_congr_left fun _ _ => if_neg List.not_mem_nil).trans (List.map_id L)

theorem map_arrive_cons (w : HartId) (ws : List HartId) (L : List Brief) (phase : BitVec 32) :
    (L.map (Brief.arrive [w] phase)).map (Brief.arrive ws phase) = L.map (Brief.arrive (w :: ws) phase) := by
  rw [List.map_map]
  refine List.map_congr_left fun e _ => ?_
  by_cases h1 : e.who = w <;> by_cases h2 : e.who ∈ ws <;> simp [Brief.arrive, h1, h2]

namespace AtBar

/-- Arrivals of members that differ, counted in turn: the phase advances at the last of them or not at all. -/
theorem foldl_applyArrival (h : AtBar N i L bar u) (hA : ∀ e ∈ A, e ∈ L) (hnd : (A.map Brief.who).Nodup) (hlt : bar.count < L.length)
    (hle : bar.count + A.countP (fun e => !e.again bar.phase) ≤ L.length)
    (hlast : bar.count + A.countP (fun e => !e.again bar.phase) = L.length → ∀ e ∈ A, e.again bar.phase = false) :
    AtBar N i (L.map (Brief.arrive (A.map Brief.who) bar.phase)) (bar.after (A.countP fun e => !e.again bar.phase) L.length)
      ((A.map Brief.who).foldl (State.applyArrival N i) u) := by
  induction A generalizing L bar u with
  | nil =>
    rw [List.map_nil, map_arrive_nil]
    rwa [TeamBar.after, if_neg (by simp; omega)]
  | cons e A ih =>
    have hL : e ∈ L := hA e List.mem_cons_self
    have hone := h.applyArrival_own hL
    rw [List.map_cons, List.nodup_cons] at hnd
    have hrest : ∀ f ∈ A, f ∈ L.map (Brief.arrive [e.who] bar.phase) := fun f hf => by
      refine List.mem_map.2 ⟨f, hA f (List.mem_cons_of_mem _ hf), if_neg fun hw => hnd.1 ?_⟩
      rw [← List.mem_singleton.1 hw]
      exact List.mem_map_of_mem hf
    have hlen : (L.map (Brief.arrive [e.who] bar.phase)).length = L.length := List.length_map ..
    rw [List.map_cons, List.foldl_cons, ← map_arrive_cons]
    cases hag : e.again bar.phase with
    | true =>
      simp only [List.countP_cons, hag, if_true, Bool.not_true, Bool.false_eq_true, if_false, Nat.add_zero] at hone hle hlast ⊢
      have hih := ih hone hrest hnd.2 (by rwa [hlen]) (by rwa [hlen]) fun hk f hf => hlast (by rwa [hlen] at hk) f (List.mem_cons_of_mem _ hf)
      rwa [hlen] at hih
    | false =>
      simp only [List.countP_cons, hag, Bool.not_false, if_true, Bool.false_eq_true, if_false] at hone hle hlast ⊢
      by_cases hfull : bar.count + 1 = L.length
      · have hnone : A.countP (fun e => !e.again bar.phase) = 0 := by omega
        have hA' : A = [] := List.eq_nil_iff_forall_not_mem.2 fun f hf => by
          have h1 := List.countP_eq_zero.1 hnone f hf
          rw [hlast (by omega) f (List.mem_cons_of_mem _ hf)] at h1
          exact h1 rfl
        subst hA'
        rw [List.map_nil, map_arrive_nil, TeamBar.after, if_pos (by simpa using hfull)]
        rw [TeamBar.completed, if_pos (by simp; omega)] at hone
        exact hone
      · rw [TeamBar.completed_of_lt (by show bar.count + 1 < _; omega)] at hone
        have hlt' : bar.count + 1 < L.length := by omega
        have hle' : bar.count + 1 + A.countP (fun e => !e.again bar.phase) ≤ L.length := by omega
        have hih := ih hone hrest hnd.2 (by rw [hlen]; exact hlt') (by rw [hlen]; exact hle') fun hk f hf =>
          hlast (by rw [hlen] at hk; rw [← hk, Nat.add_comm _ 1, ← Nat.add_assoc]) f (List.mem_cons_of_mem _ hf)
        rw [hlen] at hih
        have hk : ∀ k, TeamBar.after { bar with count := bar.count + 1 } k L.length = bar.after (k + 1) L.length := fun k => by
          simp only [TeamBar.after, Nat.add_assoc, Nat.add_comm 1]
        rwa [hk] at hih

end AtBar

/-! ## One barrier's arrivals -/

/-- The arrivals on a barrier that count. -/
def TeamBar.counted (b : TeamBar) (L : List Brief) : Nat := L.countP fun e => b.arriving.contains e.who && !e.again b.phase

/-- The barrier with its arrivals counted. -/
def TeamBar.settled (b : TeamBar) (L : List Brief) : TeamBar := { b.after (b.counted L) L.length with arriving := [] }

theorem TeamBar.settled_eq (b : TeamBar) (L : List Brief) :
    b.settled L = if b.count + b.counted L = L.length then ⟨b.phase + 1, 0, []⟩ else ⟨b.phase, b.count + b.counted L, []⟩ := by
  unfold TeamBar.settled TeamBar.after
  split <;> rfl

/-- The arrivals are of members that differ, and complete the phase without second arrivals or leave it open. -/
structure Fair (L : List Brief) (b : TeamBar) : Prop where
  nodup : b.arriving.Nodup
  member : ∀ w ∈ b.arriving, w ∈ L.map Brief.who
  open_ : b.count < L.length
  room : b.count + b.counted L ≤ L.length
  last : b.count + b.counted L = L.length → ∀ e ∈ L, e.who ∈ b.arriving → e.again b.phase = false

theorem TeamBar.counted_nil {b : TeamBar} (h : b.arriving = []) (L : List Brief) : b.counted L = 0 := by
  simp [TeamBar.counted, h]

theorem Fair.of_none {b : TeamBar} (h : b.arriving = []) (hlt : b.count < L.length) : Fair L b where
  nodup := by simp [h]
  member := by simp [h]
  open_ := hlt
  room := by rw [TeamBar.counted_nil h]; omega
  last := by simp [h]

theorem TeamBar.settled_of_none {b : TeamBar} (h : b.arriving = []) (hlt : b.count < L.length) : b.settled L = b := by
  rw [TeamBar.settled, TeamBar.counted_nil h, TeamBar.after, if_neg (by omega), Nat.add_zero, ← h]

theorem Fair.settled_open (h : Fair L bar) : (bar.settled L).count < L.length := by
  have hroom := h.room
  have hopen := h.open_
  simp only [TeamBar.settled, TeamBar.after]
  split
  · show 0 < _
    omega
  · show bar.count + bar.counted L < _
    omega

/-- The members that arrive, in the order of the arrivals. -/
theorem Fair.exists_briefs (h : Fair L bar) (hL : (L.map Brief.who).Nodup) {ws : List HartId} (hp : ws.Perm bar.arriving) :
    ∃ A : List Brief, ws = A.map Brief.who ∧ A.Perm (L.filter fun e => bar.arriving.contains e.who) := by
  have hperm : ws.Perm ((L.filter fun e => bar.arriving.contains e.who).map Brief.who) := by
    refine hp.trans ((List.perm_ext_iff_of_nodup h.nodup (hL.sublist (List.filter_sublist.map _))).2 fun w => ⟨fun hw => ?_, fun hw => ?_⟩)
    · obtain ⟨e, he, rfl⟩ := List.mem_map.1 (h.member w hw)
      exact List.mem_map_of_mem (List.mem_filter.2 ⟨he, List.contains_iff_mem.2 hw⟩)
    · obtain ⟨e, he, rfl⟩ := List.mem_map.1 hw
      exact List.contains_iff_mem.1 (List.mem_filter.1 he).2
  exact (congrFun₂ (List.eq_map_comp_perm Brief.who) ws _).mpr hperm

/-- The members at the barrier once its arrivals are counted. -/
def TeamBar.arrived (b : TeamBar) (L : List Brief) : List Brief := L.map (Brief.arrive b.arriving b.phase)

theorem TeamBar.arrived_of_none {b : TeamBar} (h : b.arriving = []) (L : List Brief) : b.arrived L = L := by
  rw [TeamBar.arrived, h, map_arrive_nil]

namespace AtBar

theorem applyArrivals_own (h : AtBar N i L bar u) (hf : Fair L bar) :
    AtBar N i (bar.arrived L) (bar.settled L) (State.applyArrivals N u i) := by
  obtain ⟨x, hx⟩ := h.exists_team?
  have hbar : x.bars[i] = bar := h.team?_bar hx
  have hset := h.modBar_same fun b => { b with arriving := [] }
  unfold State.applyArrivals
  simp only [hx, hbar]
  generalize hws : sortOn _ bar.arriving = ws
  have hp : ws.Perm bar.arriving := by
    rw [← hws]
    exact sortOn_perm _
  obtain ⟨A, rfl, hA⟩ := hf.exists_briefs h.who_nodup hp
  have hcount : A.countP (fun e => !e.again bar.phase) = bar.counted L := by
    rw [hA.countP_eq, List.countP_filter, TeamBar.counted]
    simp only [Bool.and_comm]
  have hmem : ∀ e ∈ A, e ∈ L ∧ e.who ∈ bar.arriving := fun e he => by
    obtain ⟨h1, h2⟩ := List.mem_filter.1 (hA.mem_iff.1 he)
    exact ⟨h1, List.contains_iff_mem.1 h2⟩
  have hfold := hset.foldl_applyArrival (A := A) (fun e he => (hmem e he).1) (hp.nodup_iff.2 hf.nodup) hf.open_ (by rw [hcount]; exact hf.room)
    fun hk e he => hf.last (by rw [← hk, hcount]) e (hmem e he).1 (hmem e he).2
  have harr : ∀ w, w ∈ A.map Brief.who ↔ w ∈ bar.arriving := fun w => hp.mem_iff
  have hmap : L.map (Brief.arrive (A.map Brief.who) bar.phase) = bar.arrived L :=
    List.map_congr_left fun e _ => by simp only [Brief.arrive, harr]
  have hafter : TeamBar.after { bar with arriving := [] } (bar.counted L) L.length = bar.settled L := by
    unfold TeamBar.settled TeamBar.after
    split <;> rfl
  rwa [hmap, hcount, hafter] at hfold

theorem applyArrivals_other {a : BitVec 16} {j : Fin 16} (h : AtBar N i L bar u) (hlt : bar.count < L.length) (hne : a ≠ N ∨ j ≠ i) :
    AtBar N i L bar (State.applyArrivals a u j) := by
  unfold State.applyArrivals
  split
  · exact List.foldlRecOn _ _ (h.modBar_other _ hne) fun _ ht w _ => ht.applyArrival_other hlt hne w
  · exact h

end AtBar

/-! ## The barriers of every team -/

/-- What a fold reaches when one of its steps reaches it and no step leaves it. -/
theorem foldl_reaches {α β : Type} {f : β → α → β} {P Q : β → Prop} {own : α → Prop} {l : List α}
    (hother : ∀ a ∈ l, ∀ t, ¬ own a → P t → P (f t a)) (hown : ∀ a ∈ l, ∀ t, own a → P t → Q (f t a))
    (hstays : ∀ a ∈ l, ∀ t, Q t → Q (f t a)) (hex : ∃ a ∈ l, own a) {t : β} (ht : P t) : Q (l.foldl f t) := by
  induction l generalizing t with
  | nil => simp at hex
  | cons a l ih =>
    rw [List.forall_mem_cons] at hother hown hstays
    by_cases ha : own a
    · exact List.foldlRecOn l f (hown.1 t ha ht) fun v hv b hb => hstays.2 b hb v hv
    · exact ih hother.2 hown.2 hstays.2 (by simpa [ha] using hex) (hother.1 t ha ht)

/-- The arrivals of an A-clock on every barrier of a team. -/
def State.teamClock (u : State) (x : Team) : State :=
  if x.bars.toList.all fun b => b.arriving.isEmpty then u else (List.finRange 16).foldl (State.applyArrivals x.num) u

theorem barClock_eq (s : State) : s.barClock = s.part.teams.foldl State.teamClock s := rfl

namespace AtBar

theorem team_other {a : BitVec 16} (h : AtBar N i L bar u) (hlt : bar.count < L.length) (hne : a ≠ N) :
    AtBar N i L bar ((List.finRange 16).foldl (State.applyArrivals a) u) :=
  List.foldlRecOn _ _ h fun _ ht _ _ => ht.applyArrivals_other hlt (.inl hne)

theorem team_own (h : AtBar N i L bar u) (hf : Fair L bar) :
    AtBar N i (bar.arrived L) (bar.settled L) ((List.finRange 16).foldl (State.applyArrivals N) u) := by
  have hopen : (bar.settled L).count < (bar.arrived L).length := by
    rw [TeamBar.arrived, List.length_map]
    exact hf.settled_open
  have hnone : (bar.settled L).arriving = [] := rfl
  refine foldl_reaches (P := AtBar N i L bar) (own := fun j => j = i) (fun j _ t hne ht => ht.applyArrivals_other hf.open_ (.inr hne))
    (fun j _ t hj ht => ?_) (fun j _ t ht => ?_) ⟨i, List.mem_finRange i, rfl⟩ h
  · rw [hj]
    exact ht.applyArrivals_own hf
  · by_cases hj : j = i
    · have hagain := ht.applyArrivals_own (.of_none hnone hopen)
      rw [TeamBar.settled_of_none hnone hopen, TeamBar.arrived_of_none hnone] at hagain
      rwa [hj]
    · exact ht.applyArrivals_other hopen (.inr hj)

/-- The end of an A-clock at a barrier of a team. -/
theorem barClock (h : AtBar N i L bar s) (hf : Fair L bar) : AtBar N i (bar.arrived L) (bar.settled L) s.barClock := by
  have hopen : (bar.settled L).count < (bar.arrived L).length := by
    rw [TeamBar.arrived, List.length_map]
    exact hf.settled_open
  have hnone : (bar.settled L).arriving = [] := rfl
  obtain ⟨x, hx, hxN⟩ := h.team
  rw [barClock_eq]
  refine foldl_reaches (P := AtBar N i L bar) (own := fun x => x.num = N) (fun y _ t hne ht => ?_) (fun y hy t hown ht => ?_)
    (fun y _ t ht => ?_) ⟨x, hx, hxN⟩ h
  · unfold State.teamClock
    split
    · exact ht
    · exact ht.team_other hf.open_ hne
  · unfold State.teamClock
    split
    next hall =>
      have hbar : bar.arriving = [] := by
        have hb := List.all_eq_true.1 hall (y.bars[i]) (by simp)
        rw [h.bar y hy hown] at hb
        exact List.isEmpty_iff.1 hb
      rwa [TeamBar.arrived_of_none hbar, TeamBar.settled_of_none hbar hf.open_]
    · rw [hown]
      exact ht.team_own hf
  · unfold State.teamClock
    split
    · exact ht
    · by_cases hN : y.num = N
      · have hagain := ht.team_own (.of_none hnone hopen)
        rw [TeamBar.settled_of_none hnone hopen, TeamBar.arrived_of_none hnone] at hagain
        rwa [hN]
      · exact ht.team_other hopen hN

end AtBar

end Sys2Proof.Machine
end
section
/-! ## The A-clock that counts the arrivals (R155 to R157, R288) -/
namespace Sys2Proof.Machine

variable {N : BitVec 16} {i : Fin 16} {L : List Brief} {bar : TeamBar} {s : State}

/-! ## What the barriers leave of the partition -/

/-- The commands and the requests that wait for the partition. -/
def asides (s : State) := (s.part.cmds, s.part.hostReqs, s.part.netReqs)

theorem asides_applyArrival (a : BitVec 16) (j : Fin 16) (u : State) (who : HartId) : asides (u.applyArrival a j who) = asides u := by
  rcases applyArrival_cases a j u who with he | ⟨m, x, -, -, -, he⟩
  · rw [he]
  · rw [he]
    rfl

theorem asides_applyArrivals (a : BitVec 16) (u : State) (j : Fin 16) : asides (State.applyArrivals a u j) = asides u := by
  unfold State.applyArrivals
  split
  · exact List.foldlRecOn (motive := fun t => asides t = asides u) _ _ rfl fun t ht w _ => (asides_applyArrival a j t w).trans ht
  · rfl

theorem asides_barClock (s : State) : asides s.barClock = asides s := by
  rw [barClock_eq]
  refine List.foldlRecOn (motive := fun t => asides t = asides s) _ _ rfl fun t ht x _ => ?_
  unfold State.teamClock
  split
  · exact ht
  · exact List.foldlRecOn (motive := fun t => asides t = asides s) _ _ ht fun v hv j _ => (asides_applyArrivals x.num v j).trans hv

/-- Nothing waits for the partition, and nobody asks Ringmaster for anything. -/
structure Calm (s : State) : Prop where
  unasked : s.part.rm.Unasked
  asides : asides s = ([], [], [])

/-- An A-clock ends with the arrivals of its barriers counted. -/
theorem ringmasterClock_counts (h : AtBar N i L bar s) (hf : Fair L bar) (hc : Calm s) :
    ∃ t v, exec .ringmasterClock s = .next t ∧ t.part.members = v.part.members ∧ t.part.teams = v.part.teams ∧
      AtBar N i (bar.arrived L) (bar.settled L) v := by
  obtain ⟨r, hr⟩ := standing_atBarriers hc.unasked
  set u := s.atBarriers
  obtain ⟨hmem, hteams, -, hcmds, hhost, hnet, hclk⟩ : u.part.members = s.part.members ∧ u.part.teams = s.part.teams ∧ u.part.rm = r ∧
      u.part.cmds = s.part.cmds ∧ u.part.hostReqs = s.part.hostReqs ∧ u.part.netReqs = s.part.netReqs ∧ u.pkg.zaclk = s.pkg.zaclk := by
    simp only [standing, Prod.mk.injEq] at hr
    exact hr
  have hv := (h.of_eq hmem hteams hclk).barClock hf
  have hquiet : standing (u.restowChanged u.barClock) = standing u.barClock := (Quiet.restowChanged u u.barClock).standing
  obtain ⟨hmem', hteams', -, hcmds', hhost', hnet', -⟩ := by simpa only [standing, Prod.mk.injEq] using hquiet
  have hidle : asides u.barClock = ([], [], []) := by
    rw [asides_barClock, ← hc.asides, asides, asides, hcmds, hhost, hnet]
  simp only [asides, Prod.mk.injEq] at hidle
  obtain ⟨h1, h2, h3⟩ := hidle
  refine ⟨_, u.barClock, (exec_ringmasterClock s).trans (congrArg _ (pump_idle ?_ ?_ ?_)), hmem', hteams', hv⟩
  · exact hcmds'.trans h1
  · exact hhost'.trans h2
  · exact hnet'.trans h3

/-! ## A member after its arrival -/

theorem AtBar.member_after {v : State} (h : AtBar N i (bar.arrived L) (bar.settled L) v) {x : Member} (hx : brief i x ∈ L) :
    ∃ y, v.memberOf x.who = some y ∧ y.team = N ∧ y.rank = x.rank ∧
      (x.who ∈ bar.arriving → y.pending.getLsbD i = true ∧ y.phase[i] = bar.phase) ∧
      (x.who ∉ bar.arriving → y.pending.getLsbD i = x.pending.getLsbD i ∧ y.phase[i] = x.phase[i]) := by
  obtain ⟨y, hy, hteam, hbrief⟩ := h.exists_member (List.mem_map_of_mem (f := Brief.arrive bar.arriving bar.phase) hx)
  have hkeep : (brief i y).who = x.who ∧ (brief i y).rank = x.rank := by
    rw [hbrief, Brief.arrive]
    split <;> exact ⟨rfl, rfl⟩
  obtain ⟨hwho, hrank⟩ := hkeep
  have hfind := h.memberOf_eq hy
  rw [show y.who = x.who from hwho] at hfind
  refine ⟨y, hfind, hteam, hrank, fun hw => ?_, fun hw => ?_⟩
  · rw [Brief.arrive, if_pos (show (brief i x).who ∈ bar.arriving from hw)] at hbrief
    exact ⟨congrArg Brief.pend hbrief, congrArg Brief.phase hbrief⟩
  · rw [Brief.arrive, if_neg (show (brief i x).who ∉ bar.arriving from hw)] at hbrief
    exact ⟨congrArg Brief.pend hbrief, congrArg Brief.phase hbrief⟩

/-! ## The barrier as the clock finds it -/

section Found

variable {tm : Team}

/-- The members of a team, as its barrier i knows them. -/
def briefs (s : State) (tm : Team) (i : Fin 16) : List Brief := (s.part.members.filter fun x => x.team == tm.num).map (brief i)

theorem atBar_briefs (hx : tm ∈ s.part.teams) (hone : ∀ x ∈ s.part.teams, x.num = tm.num → x = tm)
    (hnd : (s.part.members.map Member.who).Nodup) (hsince : ∀ x ∈ s.part.members.filter fun x => x.team == tm.num, x.since ≠ s.pkg.zaclk) :
    AtBar tm.num i (briefs s tm i) tm.bars[i] s where
  briefs := rfl
  nodup := hnd
  expected m hm hN := hsince m (List.mem_filter.2 ⟨hm, beq_iff_eq.2 hN⟩)
  bar x hx hN := by rw [hone x hx hN]
  team := ⟨tm, hx, rfl⟩

theorem counted_briefs (b : TeamBar) :
    b.counted (briefs s tm i) = ((s.part.members.filter fun x => x.team == tm.num).filter fun x =>
      b.arriving.contains x.who && !decide (x.pending.getLsbD i = true ∧ x.phase[i] = b.phase)).length := by
  rw [TeamBar.counted, briefs, List.countP_map, List.countP_eq_length_filter]
  refine congrArg List.length (List.filter_congr fun x _ => ?_)
  simp [brief, Brief.again, beq_eq_decide]

theorem again_brief (x : Member) (phase : BitVec 32) :
    (brief i x).again phase = false ↔ ¬ (x.pending.getLsbD i = true ∧ x.phase[i] = phase) := by
  simp [brief, Brief.again]

end Found

end Sys2Proof.Machine
end
section
/-! ## The team barriers (R35, R154 to R159, R305) -/
namespace Sys2Proof.Machine

variable {s : State} {n : BitVec 4} {w l ctx : Nat}

/-- The implicit MIGR.W of a team barrier instruction (R35). -/
theorem tbar_migrates (hm : s.myMends = []) (hd : s.hart.dropped = none) (hid : s.hart.id = .lcore l) (hi : s.hart.installed = some ctx)
    (ha : s.hart.u.zsitectl.getLsbD 0 = true) (hw : s.departure = some w) :
    AllTbar n fun i => ∃ t th, exec i s = .next t ∧ t.part.transit = s.part.transit ++ [⟨ctx, th, some w, 0, none, none⟩] ∧
      th.u = { s.hart.u with home := .w } ∧ t.hart.id = .lcore l ∧ t.hart.installed = none ∧ t.hart.sup.mode = .s ∧
      t.hart.sup.scause = 0x8000000000000010 ∧ t.hart.sup.sepc = s.pc &&& ~~~1 := by
  have hgo := (needWSite_migrates (site_lcore hid) hi ha).trans (goW_departs hm hd hw true)
  obtain ⟨htr, -, hidt, hit, hmode, hcause, hsepc, -⟩ := departToW_departed (s := s.setsOut true) (w := w) (rpc := s.pc) hid hi
  rw [(setsOut_rest hid true).1] at htr
  exact (tbar_departs hgo).imp fun i he => ⟨_, _, he, htr, rfl, hidt, hit, hmode, hcause, hsepc⟩

theorem tbar_waitsForPlace (hm : s.myMends = []) (hd : s.hart.dropped = none) (hid : s.hart.id = .lcore l) (hi : s.hart.installed = some ctx)
    (ha : s.hart.u.zsitectl.getLsbD 0 = true) (hw : s.departure = none) :
    AllTbar n fun i => ∃ t, exec i s = .next t ∧
      t.hart = { s.hart with wait := some .migrate, resume := none, chosen := s.chosenDest } ∧
      t.harts = s.harts ∧ t.mem = s.mem ∧ t.part = s.part := by
  have hgo := (needWSite_migrates (site_lcore hid) hi ha).trans (goW_waits hm hd hw true)
  refine (tbar_waitsToMigrate hgo).imp fun i he => ?_
  rw [setWait_migrate hid] at he
  exact ⟨_, he, rfl, rfl, rfl, rfl⟩

theorem passes_iff {b : BarView} : b.passes = true ↔ b.arriving = false ∧ (b.pending = true → b.mine ≠ b.bar.phase) := by
  cases hp : b.pending <;> simp [BarView.passes, hp]

theorem arrival_eq (b : TeamBar) (who : HartId) :
    b.arrival who = { b with arriving := if who ∈ b.arriving then b.arriving else b.arriving ++ [who] } := by
  simp only [TeamBar.arrival, insertNew, List.contains_iff_mem]

end Sys2Proof.Machine

namespace Sys2Proof
open Machine

/-- Settles O47: at the L-site the three are one implicit MIGR.W (tbar_traps, tbar_migrates), at the W-site they are judged by the thread's view
of its barrier (passes_iff), and an A-clock counts the arrivals of distinct members in turn (AtBar.foldl_applyArrival, AtBar.barClock). -/
theorem teamBarriers : Obligations.TeamBarriers := by
  unfold Obligations.TeamBarriers
  intro s n hmends hd all automig
  refine ⟨fun hs hno => tbar_traps (needWSite_traps hs hno), fun l ctx hid hi _ ha => ⟨fun w hw => tbar_migrates hmends hd hid hi ha hw,
    fun hw => tbar_waitsForPlace hmends hd hid hi ha hw⟩, fun hs hm => tbar_alone hs hmends hd hm, ?_, ?_⟩
  · intro m tm hs hm ht _ _ b pending coming done arrival becomes leaves own s1
    have hview := barView_member (n := n) hm ht
    have harr : arrival = b.arrival s.who := (arrival_eq b s.who).symm
    rw [harr]
    have hin : b.arriving.contains s.who = false ↔ ¬ coming := by rw [← Bool.not_eq_true, List.contains_iff_mem]
    have hstays : coming ∨ pending ∧ ¬ done →
        (⟨m.pending.getLsbD n.toNat, m.phase[n.toNat]'n.isLt, b, b.arriving.contains s.who⟩ : BarView).passes = false := fun h => by
      refine Bool.eq_false_iff.2 fun hpass => ?_
      obtain ⟨hno, hdone⟩ := passes_iff.1 hpass
      exact h.elim (hin.1 hno) fun hp => hp.2 (hdone hp.1)
    have hpasses (hc : ¬ coming) (hdn : pending → done) := passes_iff (b := ⟨_, _, b, b.arriving.contains s.who⟩).2 ⟨hin.2 hc, hdn⟩
    refine ⟨byte_homeWindows hm ht, homeWindows_nothing hm ht, tbarArr_leaves hs hmends hd hm ht,
      fun h => waits_tbar hs (exec_tbarWait_waits hs hview (hstays h)), fun hc hp hdn => setPending_leaves hm ht ?_, fun hc hp => ?_,
      fun hp h => waits_tbar hs (exec_tbarSync_waits hs hview hmends hd hp (hstays (h.imp_right fun hdn => ⟨hp, hdn⟩))),
      fun hp hc hdn => setPending_leaves hm ht (exec_tbarSync_passes hs hview hmends hd hp (hpasses hc fun _ => hdn)),
      fun hp => tbarSync_arrives hs hmends hd hm ht (Bool.eq_false_iff.2 hp)⟩
    · have he := exec_tbarWait_passes hs hview (hpasses hc fun _ => hdn)
      rwa [if_pos hp] at he
    · have he := exec_tbarWait_passes hs hview (hpasses hc fun hpe => absurd hpe hp)
      rw [if_neg hp] at he
      exact (Effect.refl {} s).yields he trivial
  · intro tm htm hone hnd _ hreqs htakers hsettlers hcmds hhost hnet b members again counted last hsince hand hlt hle hin hlast
    have hat : AtBar tm.num n.toFin (briefs s tm n.toFin) b s := atBar_briefs (i := n.toFin) htm hone hnd hsince
    have hcounted : b.counted (briefs s tm n.toFin) = counted := counted_briefs b
    have hlen : (briefs s tm n.toFin).length = members.length := List.length_map ..
    have hfull : last ↔ b.count + b.counted (briefs s tm n.toFin) = (briefs s tm n.toFin).length := by
      rw [hcounted, hlen]
      exact ⟨fun h => h.2, fun h => ⟨by omega, h⟩⟩
    have hfair : Fair (briefs s tm n.toFin) b := by
      refine ⟨hand, fun who hw => ?_, by rwa [hlen], by rwa [hcounted, hlen], fun h e he hw => ?_⟩
      · obtain ⟨x, hx, rfl⟩ := hin who hw
        exact List.mem_map_of_mem (f := Brief.who) (List.mem_map_of_mem hx)
      · obtain ⟨x, hx, rfl⟩ := List.mem_map.1 he
        exact (again_brief x b.phase).2 (hlast (hfull.2 h) x hx hw)
    obtain ⟨t, v, he, hmem, hteams, hv⟩ :=
      ringmasterClock_counts hat hfair ⟨⟨hreqs, htakers, hsettlers⟩, by rw [asides, hcmds, hhost, hnet]⟩
    obtain ⟨tm', htm'⟩ := hv.exists_team?
    refine ⟨t, tm', he, by rwa [State.team?, hteams], (hv.team?_bar htm').trans ?_, fun x hx => ?_⟩
    · rw [TeamBar.settled_eq]
      by_cases hl : last
      · rw [if_pos hl, if_pos (hfull.1 hl)]
      · rw [if_neg hl, if_neg (mt hfull.2 hl), hcounted]
    · obtain ⟨y, hy, hteam, hrank, hin, hout⟩ := hv.member_after (x := x) (List.mem_map_of_mem hx)
      exact ⟨y, by rwa [State.memberOf, hmem], hteam.trans (eq_of_beq (List.mem_filter.1 hx).2).symm, hrank, hin, hout⟩

end Sys2Proof
end
section
/-! ## Waits of a hart that no Carousel holds (R47, R91, R195, R198) -/
namespace Sys2Proof.Machine

variable {s u : State}

/-- No wait that is the waiting state leaves an L-core as the statements describe it, where a Carousel record stands that has waited: the record is
not filed anew. -/
theorem not_waits_lcore {i : Sys2Proof.Instr} {n : Nat} {w : Wait} (hid : s.hart.id = .lcore n) (hcar : s.hart.car = some waitedCar)
    (hw : w.waits = true) (hu : u.hart = s.hart) (he : exec i s = .next (u.setWait w)) : ¬ Waits i s w := by
  rintro ⟨t, ht, hh, -⟩
  rw [he] at ht
  obtain rfl := Host.Outcome.next.inj ht
  have hstands : (u.setWait w).hart.car = s.hart.car := by rw [setWait_lcore (n := n) (by rw [hu, hid]), hu]
  rw [hh, hcar] at hstands
  simp only [hw, if_true] at hstands
  have hwaited : some 0 = some 1 := congrArg (Option.map Car.waited) hstands
  exact absurd hwaited (by decide)

/-- MWAIT with an unwritten watch waits (R91). -/
theorem exec_mwait_unwritten {line : Nat} (h : s.hart.watch = some ⟨line, false⟩) : exec .mwait s = .next (s.setWait .mwait) := by
  refine finish_wait ?_
  rw [run_bind_ok (run_get s)]
  simp only [h]
  exact run_throw ..

/-- L-core 0 under a Carousel record, with a watch that nothing has written. -/
def watchingLcore : State :=
  { State.reset with hart := { Hart.init (.lcore 0) with watch := some ⟨0, false⟩, car := some waitedCar } }

end Sys2Proof.Machine

namespace Sys2Proof
open Machine

/-- Refutes O23: where MWAIT waits, the statement asks that the hart's Carousel record be filed anew, and nothing in it says that the hart is a
thread of the W-site. L-core 0 of `watchingLcore` has a record that has waited one A-clock, which MWAIT leaves as it is. -/
theorem not_monitorWatchAndWakes : ¬ Obligations.MonitorWatchAndWakes := by
  unfold Obligations.MonitorWatchAndWakes
  intro h
  obtain ⟨hmwait, -⟩ := h
  obtain ⟨-, -, -, hwaits⟩ := hmwait watchingLcore 0 0 0
  exact not_waits_lcore rfl rfl rfl rfl (exec_mwait_unwritten rfl) (hwaits rfl)

end Sys2Proof
end
section
/-! ## Sync objects in plain memory (R72, R188) -/
namespace Sys2Proof.Machine

variable {s : State} {va : Word} {pa : Nat}

@[simp] theorem sample_rx (l : List Nat) (r : XReg) : (s.sample l).rx r = s.rx r := by simp [State.rx]
@[simp] theorem sample_objWord (l : List Nat) (i : Nat) : (s.sample l).objWord pa i = s.objWord pa i := by simp [State.objWord]

/-- The access of an instruction that names a sync object. -/
abbrev objAcc (writes : Bool) : Acc := if writes then .store else .load

/-- An object in plain memory is found, no word of it poisoned (R188). -/
theorem objAddr_plain {writes : Bool} {words : List Nat} (ha : va.toNat % 32 = 0) (hp : PlainAccess (objAcc writes) s va 32 pa)
    (hw : ∀ i ∈ words, i < 4) : objAddr va writes words s = .ok pa (s.sample (accessReads (objAcc writes) s va pa)) := by
  have hl := locate_plain hp
  obtain ⟨-, ho, -, -, -, -, hpo, hb, -⟩ := hp
  have hbind : s.bindingAt (asidOf s.hart) va.toNat = none := hb 0 (by decide)
  have hclean : (words.any fun i => s.poison.contains (pa / 8 + i)) = false := by
    simp only [List.any_eq_false, List.contains_iff_mem]
    intro i hi hm
    simp only [State.poisoned, List.any_eq_false, Bool.and_eq_true, decide_eq_true_eq] at hpo
    have h4 := hw i hi
    exact hpo _ hm ⟨by omega, by omega⟩
  simp only [objAddr, ha, ne_eq, not_true_eq_false, if_false, ho, hbind, Option.isSome_none, Bool.false_eq_true, hl, sample_poison, hclean]

end Sys2Proof.Machine
end
section
/-! ## A barrier wait of a hart that no Carousel holds (R47, R195) -/
namespace Sys2Proof.Machine

variable {s : State} {a b : XReg} {pa : Nat}

/-- BARWAIT of a phase that has not ended waits (R195). -/
theorem exec_barwait_early (hd : s.hart.dropped = none) (ha : (s.rx a).toNat % 32 = 0) (hp : PlainAccess .load s (s.rx a) 32 pa)
    (hr : s.hart.resume = none) (he : (s.objWord pa 1).toNat < (s.rx b).toNat) :
    exec (.barwait a b) s = .next ((s.sample (accessReads .load s (s.rx a) pa)).setWait (.barwait pa (s.rx b))) := by
  have hobj : objAddr (s.rx a) false [0, 1] s = _ := objAddr_plain (writes := false) ha hp (by decide)
  obtain ⟨-, -, -, -, -, -, -, -, hm⟩ := hp
  refine finish_wait ?_
  rw [run_bind_ok (orderingPoint_passes hm hd), run_bind_ok (run_get s), run_bind_ok hobj, run_bind_ok (run_get _)]
  have hearly : ¬ (s.rx b).toNat ≤ (s.objWord pa 1).toNat := Nat.not_le.2 he
  simp only [sample_hart, hr, sample_rx, sample_objWord, hearly, reduceCtorEq, decide_false, Bool.or_self, Bool.false_eq_true, if_false]
  exact run_throw ..

/-- L-core 0 under a Carousel record, with an object at 2000h in x1 whose phase is 0, and the target 1 in x2. -/
def barrierLcore : State :=
  { State.reset with
    hart := { Hart.init (.lcore 0) with u := { User.init with x := (User.init.x.set 1 0x2000).set 2 1 }, car := some waitedCar }
    part := { Part.init with ranges := [(0, 0x100000)] } }

theorem barrierLcore_plain : PlainAccess .load barrierLcore (barrierLcore.rx 1) 32 0x2000 :=
  ⟨by decide, by decide +kernel, by decide +kernel, by decide +kernel, by decide +kernel, by decide +kernel, by decide +kernel,
    fun _ _ => rfl, by decide +kernel⟩

end Sys2Proof.Machine

namespace Sys2Proof
open Machine

/-- Refutes O20: where BARWAIT waits, the statement asks that the hart's Carousel record be filed anew, and nothing in it says that the hart is a
thread of the W-site. L-core 0 of `barrierLcore` has a record that has waited one A-clock, which BARWAIT before its phase leaves as it is. -/
theorem not_acquireDropsCopies : ¬ Obligations.AcquireDropsCopies := by
  unfold Obligations.AcquireDropsCopies
  intro h
  obtain ⟨-, -, -, hwaits⟩ := h barrierLcore 0 1 2 0x2000 rfl (by decide +kernel) barrierLcore_plain
  have hearly : (barrierLcore.objWord 0x2000 1).toNat < (barrierLcore.rx 2).toNat := by decide +kernel
  exact not_waits_lcore rfl rfl rfl (sample_hart ..) (exec_barwait_early rfl (by decide +kernel) barrierLcore_plain rfl hearly)
    (hwaits (by decide) hearly)

end Sys2Proof
end
section
/-! ## Effects on the narrower register classes, and effects widened -/
namespace Sys2Proof.Machine

/-- What inner names, outer names too. -/
structure Writes.Within (inner outer : Writes) : Prop where
  x : inner.x ⊆ outer.x := by simp
  f : inner.f ⊆ outer.f := by simp
  p : inner.p ⊆ outer.p := by simp
  w : inner.w ⊆ outer.w := by simp
  k : inner.k ⊆ outer.k := by simp
  d : inner.d ⊆ outer.d := by simp
  b : inner.b ⊆ outer.b := by simp
  fflags : outer.fflags = false → inner.fflags = false := by simp
  zaflags : outer.zaflags = false → inner.zaflags = false := by simp
  zamax : outer.zamax = false → inner.zamax = false := by simp
  zdflags : outer.zdflags = false → inner.zdflags = false := by simp
  draw : outer.draw = false → inner.draw = false := by simp
  task : outer.task = false → inner.task = false := by simp
  zrfvec : outer.zrfvec = false → inner.zrfvec = false := by simp
  resv : outer.resv = false → inner.resv = false := by simp
  watch : outer.watch = false → inner.watch = false := by simp
  mem : inner.mem = none ∨ inner.mem = outer.mem := by simp

section Within

variable {w v : Writes} {s t : State}

theorem SameRegs.within (h : SameRegs w s t) (hv : w.Within v) : SameRegs v s t := by
  obtain ⟨hx, hf, hp, hw, hk, hd, hb⟩ := h
  exact ⟨fun r hr => hx r fun h => hr (hv.x h), fun r hr => hf r fun h => hr (hv.f h), fun r hr => hp r fun h => hr (hv.p h),
    fun r hr => hw r fun h => hr (hv.w h), fun r hr => hk r fun h => hr (hv.k h), fun r hr => hd r fun h => hr (hv.d h),
    fun r hr => hb r fun h => hr (hv.b h)⟩

theorem SameFlags.within (h : SameFlags w s t) (hv : w.Within v) : SameFlags v s t := by
  obtain ⟨h1, h2, h3, h4, h5, h6, h7, hrest⟩ := h
  exact ⟨fun h => h1 (hv.fflags h), fun h => h2 (hv.zaflags h), fun h => h3 (hv.zamax h), fun h => h4 (hv.zdflags h),
    fun h => h5 (hv.draw h), fun h => h6 (hv.task h), fun h => h7 (hv.zrfvec h), hrest⟩

theorem Hart.putBack_within {a b : Hart} (h : a.putBack w b = a) (hv : w.Within v) : a.putBack v b = a := by
  have hresv : w.resv = true → v.resv = true := fun hw => by
    cases hr : v.resv with
    | true => rfl
    | false => exact absurd hw (by simp [hv.resv hr])
  have hwatch : w.watch = true → v.watch = true := fun hw => by
    cases hr : v.watch with
    | true => rfl
    | false => exact absurd hw (by simp [hv.watch hr])
  have htask : w.task = true → v.task = true := fun hw => by
    cases hr : v.task with
    | true => rfl
    | false => exact absurd hw (by simp [hv.task hr])
  have hb : (a.putBack v b) = a.putBack v (a.putBack w b) := by
    simp only [Hart.putBack, Hart.mk.injEq, and_true, true_and]
    cases hr : w.resv <;> cases hw : w.watch <;> cases ht : w.task <;> simp_all
  rw [hb, h]
  unfold Hart.putBack
  cases v.resv <;> cases v.watch <;> cases v.task <;> rfl

theorem SameHart.within (h : SameHart w s t) (hv : w.Within v) : SameHart v s t := by
  obtain ⟨hr, hf, hh⟩ := sameHart_iff.1 h
  exact sameHart_iff.2 ⟨hr.within hv, hf.within hv, Hart.putBack_within hh hv⟩

theorem SameMemory.within (h : SameMemory w s t) (hv : w.Within v) : SameMemory v s t := by
  refine ⟨fun a ha => h.1 a fun r hr => ?_, h.2⟩
  rcases hv.mem with hm | hm
  · rw [hm] at hr
    exact absurd hr (by simp)
  · exact ha r (hm ▸ hr)

theorem SameHarts.within (h : SameHarts w s t) (hv : w.Within v) : SameHarts v s t := by
  unfold SameHarts at *
  rcases hv.mem with hm | hm
  · rw [hm] at h
    have h : t.harts = s.harts := h
    rw [h]
    cases v.mem <;> rfl
  · rwa [hm] at h

theorem Frame.within (h : Frame w s t) (hv : w.Within v) : Frame v s t := by
  obtain ⟨hh, hm, hs, hp, hk, ho⟩ := h
  refine ⟨hh.within hv, hm.within hv, hs.within hv, hp, ?_, ho⟩
  unfold Pkg.still at *
  rcases hv.mem with hm | hm
  · simp only [hm, Option.isSome_none, Bool.false_eq_true, if_false] at hk
    have hk : t.pkg = s.pkg := hk
    rw [hk]
  · rwa [hm] at hk

/-- An effect is one within every frame that names what its own names. -/
theorem Effect.within (h : Effect w s t) (hv : w.Within v) : Effect v s t := ⟨h.frame.within hv, h.pc, h.instret, h.cycle⟩

end Within

namespace Effect

theorem wf (s : State) (r : FReg) (v : Word) : Effect { f := [r] } s (s.wf r v) := ⟨wf_frame s r v, rfl, rfl, rfl⟩

theorem wk (s : State) (r : KReg) (v : KIdx) : Effect { k := [r] } s (s.wk r v) := by
  have hk : ∀ q : KReg, q ∉ [r] → (s.wk r v).rk q = s.rk q := by
    intro q hq
    simp only [List.mem_singleton] at hq
    simp [State.rk_wk, hq]
  refine ⟨⟨⟨⟨?_, ?_, ?_, ?_, hk, ?_, ?_⟩, ?_, ?_⟩, ⟨fun _ _ => rfl, rfl⟩, by simp [SameHarts], rfl, rfl, rfl, rfl, rfl, rfl, rfl⟩, rfl, rfl, rfl⟩
  all_goals simp [State.wk, State.rx, State.rf, State.rp, State.rw, State.rd, State.rb, SameFlags]

theorem ww (s : State) (n : Nat) (v : BitVec 32) : Effect { w := [n] } s (s.ww n v) := by
  have hw : ∀ m : Nat, m ∉ [n] → (s.ww n v).rw m = s.rw m := by
    intro m hm
    simp only [List.mem_singleton] at hm
    simp [State.rw_ww, hm]
  by_cases hn : n < 64
  · have he : s.ww n v = s.modU fun u => { u with w := u.w.set n v hn } := by simp [State.ww, hn]
    rw [he] at hw ⊢
    refine ⟨⟨⟨⟨?_, ?_, ?_, hw, ?_, ?_, ?_⟩, ?_, ?_⟩, ⟨fun _ _ => rfl, rfl⟩, by simp [SameHarts], rfl, rfl, rfl, rfl, rfl, rfl, rfl⟩, rfl, rfl, rfl⟩
    all_goals simp [State.rx, State.rf, State.rp, State.rk, State.rd, State.rb, SameFlags]
  · have he : s.ww n v = s := by simp [State.ww, hn]
    rw [he]
    exact refl ..

end Effect

end Sys2Proof.Machine
end
section
/-! ## Array words (R62, R186, R187) -/
namespace Sys2Proof.Machine

variable {s : State} {i : Sys2Proof.Instr} {sel : M Nat} {n c : Nat} {word : BitVec 32} {v : Word}

/-! ## The words that an instruction names -/

/-- The stval of an array word outside the profile (R28). -/
def wordOutside (n : Nat) : Word := BitVec.ofNat 64 (2 * 256 + n)

theorem prof48_word (h : n < 256) : prof48 2 n = wordOutside n := by rw [prof48, Nat.mod_eq_of_lt h, wordOutside]

theorem needW_ok (h : n < profW s.hart.u.zwprof) : needW n s = .ok () s := by simp [needW, h]

theorem needW_outside (h : profW s.hart.u.zwprof ≤ n) (hn : n < 256) : needW n s = .error (.trap 48 (wordOutside n)) s := by
  simp [needW, Nat.not_lt.2 h, prof48_word hn]

theorem directWord_ok {w : WIdx} (h : w.toNat < profW s.hart.u.zwprof) : directWord w s = .ok w.toNat s := run_bind_ok (needW_ok h)

theorem directWord_outside {w : WIdx} (h : profW s.hart.u.zwprof ≤ w.toNat) :
    directWord w s = .error (.trap 48 (wordOutside w.toNat)) s :=
  run_bind_error (needW_outside h (by have := w.isLt; omega))

section Indexed

variable {k : KReg} {a : XReg} (hn : (s.rk k).base.toNat + (s.rx a).toNat = n)

theorem indexedWord_beyond (h : (s.rk k).len.toNat ≤ (s.rx a).toNat) : indexedWord k a s = .error (.trap 25 (s.rx a)) s := by
  rw [indexedWord, run_bind_ok (run_get s)]
  simp only [h, if_true]
  exact run_bind_error (run_throw ..)

include hn

theorem indexedWord_eq (h : (s.rx a).toNat < (s.rk k).len.toNat) : indexedWord k a s = (needW n >>= fun _ => pure n : M Nat) s := by
  rw [indexedWord, run_bind_ok (run_get s)]
  simp only [Nat.not_le.2 h, if_false, hn]

theorem indexedWord_ok (h : (s.rx a).toNat < (s.rk k).len.toNat) (hp : n < profW s.hart.u.zwprof) : indexedWord k a s = .ok n s :=
  (indexedWord_eq hn h).trans (run_bind_ok (needW_ok hp))

theorem indexedWord_outside (h : (s.rx a).toNat < (s.rk k).len.toNat) (hp : profW s.hart.u.zwprof ≤ n) (h256 : n < 256) :
    indexedWord k a s = .error (.trap 48 (wordOutside n)) s :=
  (indexedWord_eq hn h).trans (run_bind_error (needW_outside hp h256))

end Indexed

/-! ## Words read and written -/

/-- What WLD does with the word it has read. -/
abbrev intoX (d : XReg) (s : State) (v : BitVec 32) : State := s.wx d (sx32 v)

/-- What WLDF does with the word it has read. -/
abbrev intoF (d : FReg) (s : State) (v : BitVec 32) : State := s.wf d (nanBox v.toNat)

section Move

variable (h : sel s = .ok n s)
include h

theorem wldX_yields {d : XReg} (hi : exec i s = wldM word sel (intoX d) s) :
    Yields i s { x := [d] } fun t => t.rx d = if d = 0 then 0 else (s.rw n).signExtend 64 :=
  (Effect.wx s d _).yields (hi.trans (finish_ok (run_bind_ok h))) (by simp [sx32])

theorem wldF_yields {d : FReg} (hi : exec i s = wldM word sel (intoF d) s) :
    Yields i s { f := [d] } fun t => t.rf d = 0xFFFFFFFF#32 ++ s.rw n :=
  (Effect.wf s d _).yields (hi.trans (finish_ok (run_bind_ok h))) (by simp [nanBox])

theorem wstM_yields {val : State → Word} (hi : exec i s = wstM word sel val s) (hn : n < 64) :
    Yields i s { w := [n] } fun t => t.rw n = (val s).setWidth 32 :=
  (Effect.ww s n _).yields (hi.trans (finish_ok (run_bind_ok h))) (by simp [State.rw_ww, hn, lo32])

end Move

/-! ## Words refused -/

section Refuse

variable (h : sel s = .error (.trap c v) s)
include h

theorem wldM_traps (put : State → BitVec 32 → State) : wldM word sel put s = .next (s.takeTrap c s.pc v) :=
  finish_trap (run_bind_error h)

theorem wstM_traps (val : State → Word) : wstM word sel val s = .next (s.takeTrap c s.pc v) :=
  finish_trap (run_bind_error h)

end Refuse

section Pairs

variable {w u : WIdx}

theorem needProf_ok {kind : Nat} {limit : BitVec 16 → Nat} {ns : List Nat} (h : ∀ m ∈ ns, m < limit s.hart.u.zwprof) :
    needProf kind limit ns s = .ok () s := by
  have hf : (ns.filter fun m => limit s.hart.u.zwprof ≤ m) = [] := by
    simpa [List.filter_eq_nil_iff] using h
  simp only [needProf, hf]

/-- The one word of a list that is outside the profile is the one reported (R28). -/
theorem needProf_one {ns : List Nat} (h : (ns.filter fun m => profW s.hart.u.zwprof ≤ m) = [n]) (hn : n < 256) :
    needProf 2 profW ns s = .error (.trap 48 (wordOutside n)) s := by
  simp only [needProf, h, prof48_word hn]

theorem wmv_yields (hw : w.toNat < profW s.hart.u.zwprof) (hu : u.toNat < profW s.hart.u.zwprof) :
    Yields (.wmv w u) s { w := [w.toNat] } fun t => t.rw w.toNat = s.rw u.toNat :=
  (Effect.ww s w.toNat _).yields (finish_ok (run_bind_ok (needProf_ok (by simp [hw, hu])))) (by simp [State.rw_ww, w.isLt])

theorem wmvw_yields {d : XReg} (hw : w.toNat + 1 < profW s.hart.u.zwprof) :
    Yields (.wmvw d w) s { x := [d] } fun t => t.rx d = if d = 0 then 0 else s.rw (w.toNat + 1) ++ s.rw w.toNat :=
  (Effect.wx s d _).yields (finish_ok (run_bind_ok (needProf_ok (by simp; omega)))) (by simp)

theorem wmv_traps (h : ([w.toNat, u.toNat].filter fun m => profW s.hart.u.zwprof ≤ m) = [n]) (hn : n < 256) :
    Traps (.wmv w u) s 48 (wordOutside n) :=
  finish_trap (run_bind_error (needProf_one h hn))

theorem wmvw_traps {d : XReg} (hw : w.toNat < profW s.hart.u.zwprof) (h : profW s.hart.u.zwprof ≤ w.toNat + 1) :
    Traps (.wmvw d w) s 48 (wordOutside (w.toNat + 1)) := by
  refine finish_trap (run_bind_error (needProf_one ?_ (by have := w.isLt; omega)))
  simp [h, hw]

end Pairs

/-! ## KSET (R187) -/

section Kset

variable {k : KReg} {a b : XReg}

/-- The base and the length that KSET takes (R187). -/
def KsetLegal (s : State) (a b : XReg) : Prop := (s.rx a).toNat ≤ 63 ∧ (s.rx a).toNat + (s.rx b).toNat ≤ profW s.hart.u.zwprof

theorem ksetLegal_iff : KsetLegal s a b ↔
    ¬ (decide (63 < (s.rx a).toNat) || decide (profW s.hart.u.zwprof < (s.rx a).toNat + (s.rx b).toNat)) = true := by
  simp [KsetLegal]

theorem kset_yields (h : KsetLegal s a b) :
    Yields (.kset k a b) s { k := [k] } fun t => (t.rk k).base = (s.rx a).setWidth 6 ∧ (t.rk k).len = (s.rx b).setWidth 7 := by
  refine (Effect.wk s k ⟨BitVec.ofNat 6 (s.rx a).toNat, BitVec.ofNat 7 (s.rx b).toNat⟩).yields (finish_ok ?_) ?_
  · rw [run_bind_ok (run_get s)]
    dsimp only
    rw [if_neg (ksetLegal_iff.1 h)]
    rfl
  · simp [BitVec.ofNat_toNat]

theorem kset_traps (h : ¬ KsetLegal s a b) :
    Traps (.kset k a b) s 48 (wordOutside (min ((s.rx a).toNat + (s.rx b).toNat) 255)) := by
  refine finish_trap ?_
  rw [run_bind_ok (run_get s)]
  dsimp only
  rw [if_pos (not_not.1 (mt ksetLegal_iff.2 h)), prof48_word (by omega)]
  exact run_bind_error (run_throw ..)

end Kset

end Sys2Proof.Machine

namespace Sys2Proof
open Machine

/-- Settles O18: a word is selected directly or through an index register, and the four moves go with the selection (wldX_yields, wldF_yields,
wstM_yields) or trap with it (wldM_traps, wstM_traps). -/
theorem arrayMoves : Obligations.ArrayMoves := by
  unfold Obligations.ArrayMoves
  refine ⟨fun s w k a => ?_, fun s k a b => ⟨fun h => kset_yields h, fun h _ => kset_traps h⟩⟩
  refine ⟨fun hw => ⟨fun d => ?_, fun d => ?_, fun v hv => wmv_yields hw hv, fun d hw1 => wmvw_yields hw1⟩,
    fun hi hp h64 => ⟨fun d => ?_, fun d => ?_⟩, fun _ hl d => ?_, fun _ hi hp h256 d => ?_,
    fun _ => ⟨fun hw d => ⟨?_, ?_, ?_, ?_, fun v hv => ⟨?_, ?_⟩⟩, fun hw hw1 d => wmvw_traps hw hw1⟩⟩
  · exact ⟨wldX_yields (directWord_ok hw) rfl, wstM_yields (val := (·.rx d)) (directWord_ok hw) rfl w.isLt⟩
  · exact ⟨wldF_yields (directWord_ok hw) rfl, wstM_yields (val := (·.rf d)) (directWord_ok hw) rfl w.isLt⟩
  · have hs := indexedWord_ok rfl hi hp
    exact ⟨wldX_yields hs rfl, wstM_yields (val := (·.rx d)) hs rfl h64⟩
  · have hs := indexedWord_ok rfl hi hp
    exact ⟨wldF_yields hs rfl, wstM_yields (val := (·.rf d)) hs rfl h64⟩
  · have hs := indexedWord_beyond hl
    exact ⟨wldM_traps hs (intoX d), wstM_traps hs (·.rx d), wldM_traps hs (intoF d), wstM_traps hs (·.rf d)⟩
  · have hs := indexedWord_outside rfl hi hp h256
    exact ⟨wldM_traps hs (intoX d), wstM_traps hs (·.rx d), wldM_traps hs (intoF d), wstM_traps hs (·.rf d)⟩
  · exact wldM_traps (directWord_outside hw) (intoX d)
  · exact wstM_traps (directWord_outside hw) (·.rx d)
  · exact wldM_traps (directWord_outside hw) (intoF d)
  · exact wstM_traps (directWord_outside hw) (·.rf d)
  · exact wmv_traps (by simp [hw, hv]) (by have := w.isLt; omega)
  · exact wmv_traps (by simp [hw, hv]) (by have := w.isLt; omega)

end Sys2Proof
end
section
/-! ## Elements through buffer records (R60, R182, R183) -/
namespace Sys2Proof.Machine

variable {s : State} {a : XReg} {b : BReg} {pa n : Nat} {i : Sys2Proof.Instr} {word : BitVec 32}

/-! ## Flags accrued -/

namespace Effect

theorem accrue (s : State) (fl : BitVec 5) : Effect { fflags := true } s (s.accrue fl) := by
  refine ⟨⟨⟨⟨?_, ?_, ?_, ?_, ?_, ?_, ?_⟩, ?_, ?_⟩, ⟨fun _ _ => rfl, rfl⟩, by simp [SameHarts], rfl, rfl, rfl, rfl, rfl, rfl, rfl⟩, rfl, rfl, rfl⟩
  all_goals simp [State.accrue, State.rx, State.rf, State.rp, State.rw, State.rk, State.rd, State.rb, SameFlags]

theorem accrueZa (s : State) (fl : BitVec 3) : Effect { zaflags := true } s (s.accrueZa fl) := by
  refine ⟨⟨⟨⟨?_, ?_, ?_, ?_, ?_, ?_, ?_⟩, ?_, ?_⟩, ⟨fun _ _ => rfl, rfl⟩, by simp [SameHarts], rfl, rfl, rfl, rfl, rfl, rfl, rfl⟩, rfl, rfl, rfl⟩
  all_goals simp [State.accrueZa, State.rx, State.rf, State.rp, State.rw, State.rk, State.rd, State.rb, SameFlags]

theorem zamax (s : State) (f : BitVec 31 → BitVec 31) : Effect { zamax := true } s (s.modU fun u => { u with zamax := f u.zamax }) := by
  refine ⟨⟨⟨⟨?_, ?_, ?_, ?_, ?_, ?_, ?_⟩, ?_, ?_⟩, ⟨fun _ _ => rfl, rfl⟩, by simp [SameHarts], rfl, rfl, rfl, rfl, rfl, rfl, rfl⟩, rfl, rfl, rfl⟩
  all_goals simp [State.rx, State.rf, State.rp, State.rw, State.rk, State.rd, State.rb, SameFlags]

theorem widenF (s : State) (t : Fmt2) (daz ftz : Bool) (d : FReg) (code : Nat) :
    Effect { f := [d], fflags := true, zaflags := true } s (s.widenF t daz ftz d code) :=
  (((Effect.wf s d _).within {}).trans ((Effect.accrue _ _).within {})).trans ((Effect.accrueZa _ _).within {})

theorem narrowed (s : State) (n : Narrow) (code : Nat) :
    Effect { fflags := true, zaflags := true, zamax := true } s (s.narrowed n code) :=
  (((Effect.accrue s _).within {}).trans ((Effect.accrueZa _ _).within {})).trans
    ((Effect.zamax _ fun z => zamaxNext z (unpack fp32 code) code).within {})

end Effect

/-! ## Registers and memory behind the choice of a stall -/

@[simp] theorem mayStall_rx (s : State) (r : XReg) : s.mayStall.rx r = s.rx r := by simp [State.rx]

/-! ## The element that an index names -/

/-- The address of the element of b[b] that x[a] names (R60). -/
abbrev elemAddr (s : State) (b : BReg) (a : XReg) : Word :=
  bufAddr (bufOf (s.rb b)) (s.rx a).toNat (setwOf s s.hart) (vlaneOf s s.hart)

/-- The record is within the profile and the index within EXTENT (R185). -/
def ElemOk (s : State) (b : BReg) (a : XReg) : Prop := b.toNat < profB s.hart.u.zwprof ∧ (s.rx a).toNat < (bufOf (s.rb b)).extent

theorem bufElem_ok (h : ElemOk s b a) : bufElem b a s = .ok (elemAddr s b a, bufOf (s.rb b)) s := by
  obtain ⟨hb, hx⟩ := h
  rw [bufElem, run_bind_ok (needB_ok hb), run_bind_ok (run_get s)]
  simp only [Nat.not_le.2 hx, if_false]
  rfl

/-! ## BLD (R182) -/

section Loads

variable (h : ElemOk s b a) (hp : PlainAccess .load s (elemAddr s b a) n pa) (hl : InLine (elemAddr s b a) n)

theorem leNat_lt (l : List Byte) : leNat l < 2 ^ (8 * l.length) := by
  induction l with
  | nil => simp [leNat]
  | cons x l ih =>
    have hx := x.isLt
    have he : 2 ^ (8 * (x :: l).length) = 256 * 2 ^ (8 * l.length) := by
      rw [List.length_cons, Nat.mul_add, Nat.pow_add]
      ring
    simp only [leNat, he]
    omega

theorem memNat_lt (s : State) (pa n : Nat) : s.memNat pa n < 2 ^ (8 * n) := by
  have h := leNat_lt (s.bytes pa n)
  rwa [State.bytes, sparseGets_length] at h

include h hp hl

theorem bldVal_ok : bldVal b a n s = .ok (BitVec.ofNat 64 (s.memNat pa n)) (s.sample (accessReads .load s (elemAddr s b a) pa)) := by
  rw [bldVal, run_bind_ok (bufElem_ok h)]
  exact loadScalar_plain hp hl

theorem bldX_yields {op : LoadOp} {d : XReg} (hn : loadSize op = n) (hi : exec i s = bldX word op d a b s) :
    Yields i s { x := [d] } fun t => t.rx d = if d = 0 then 0 else loadExtend op (BitVec.ofNat 64 (s.memNat pa n)) := by
  subst hn
  exact (((Effect.sample _ s _).trans (.wx _ d _)).mayStall).yields (hi.trans (finish_ok (run_bind_ok (bldVal_ok h hp hl)))) (by simp)

theorem bld_yields {f : State → Word → State} {w : Writes} {R : State → Prop}
    (hi : exec i s = finish word (bldVal b a n >>= fun v => effectMem fun s => f s v) s)
    (hf : ∀ t v, Effect w t (f t v))
    (hR : ∀ t u : State, t.hart = s.hart → u.hart = (f t (BitVec.ofNat 64 (s.memNat pa n))).hart → R (u.retireTo s.nextPc)) :
    Yields i s w R :=
  (((Effect.sample _ s _).trans (hf _ _)).mayStall).yields (hi.trans (finish_ok (run_bind_ok (bldVal_ok h hp hl))))
    (hR _ _ (sample_hart ..) (mayStall_hart _))

end Loads

theorem bldFw_yields (h : ElemOk s b a) (hp : PlainAccess .load s (elemAddr s b a) 4 pa) (hl : InLine (elemAddr s b a) 4) (d : FReg) :
    Yields (.bldFw d a b) s { f := [d] } fun t => t.rf d = 0xFFFFFFFF#32 ++ BitVec.ofNat 32 (s.memNat pa 4) := by
  have hv : (BitVec.ofNat 64 (s.memNat pa 4)).toNat = s.memNat pa 4 := Nat.mod_eq_of_lt (by have := memNat_lt s pa 4; omega)
  refine bld_yields h hp hl (f := fun s v => s.wf d (nanBox v.toNat)) rfl (fun t v => Effect.wf t d _) fun t u _ hu => ?_
  rw [State.retireTo_rf, State.rf, hu]
  exact (State.rf_wf_same ..).trans (by rw [hv]; rfl)

theorem bldFd_yields (h : ElemOk s b a) (hp : PlainAccess .load s (elemAddr s b a) 8 pa) (hl : InLine (elemAddr s b a) 8) (d : FReg) :
    Yields (.bldFd d a b) s { f := [d] } fun t => t.rf d = BitVec.ofNat 64 (s.memNat pa 8) := by
  refine bld_yields h hp hl (f := fun s v => s.wf d v) rfl (fun t v => Effect.wf t d _) fun t u _ hu => ?_
  rw [State.retireTo_rf, State.rf, hu]
  exact State.rf_wf_same ..

/-- BLD.FH widens its element exactly, under DAZ16 (R109, R182). -/
theorem bldFh_yields (h : ElemOk s b a) (hp : PlainAccess .load s (elemAddr s b a) 2 pa) (hl : InLine (elemAddr s b a) 2) (d : FReg) :
    Yields (.bldFh d a b) s { f := [d], fflags := true, zaflags := true } fun t =>
      let x0 := unpack fp16 (s.memNat pa 2)
      let x := if s.hart.u.daz16 then x0.daz fp16 else x0
      let v := roundFp fp32 .rne false x
      t.rf d = nanBox v.bits ∧ t.hart.u.fflags = s.hart.u.fflags ||| v.flags ∧
        t.hart.u.zaflags = s.hart.u.zaflags ||| (if x.isNan then 1 else 0) := by
  have hv : (BitVec.ofNat 64 (s.memNat pa 2)).toNat = s.memNat pa 2 := Nat.mod_eq_of_lt (by have := memNat_lt s pa 2; omega)
  refine bld_yields h hp hl (f := fun s v => s.widenF fp16 s.hart.u.daz16 false d v.toNat) rfl (fun t v => Effect.widenF ..) fun t u ht hu => ?_
  rw [hv, ht] at hu
  intro x0 x v
  simp only [State.retireTo_hart, State.rf, hu]
  refine ⟨?_, ?_, ?_⟩
  · exact State.rf_wf_same t d _
  · show t.hart.u.fflags ||| v.flags = _
    rw [ht]
  · show t.hart.u.zaflags ||| (if x.isNan then 1 else 0) = _
    rw [ht]

/-! ## BST (R183) -/

section Stores

variable {v : Word}

theorem Holds.of_mem {t u : State} (h : Holds t pa n v) (hm : u.mem = t.mem) : Holds u pa n v := by
  rwa [Holds, State.memNat, State.bytes, hm]

/-- What a scalar store to plain memory has done before it retires. -/
theorem storeScalar_effect {l : List Nat} (hp : s.poisoned pa n = false) (hs : s.Inv) :
    Effect { mem := some (pa, n) } s ((s.sample l).store pa (natLe n v.toNat)) ∧
    Holds ((s.sample l).store pa (natLe n v.toNat)) pa n v := by
  have hlen : (natLe n v.toNat).length = n := natLe_length ..
  have hp' : (s.sample l).poisoned pa n = false := (sample_poisoned ..).trans hp
  have hst := Effect.store (s := s.sample l) (pa := pa) (bs := natLe n v.toNat) (by rw [hlen]; exact hp')
  rw [hlen] at hst
  exact ⟨(Effect.sample _ s _).trans hst, store_holds (State.sample_inv hs) hp'⟩

variable (hs : s.Inv) (h : ElemOk s b a)
include hs h

theorem bstM_yields {val : State → Word} (hi : exec i s = bstM word n b a val s) (hp : PlainAccess .store s (elemAddr s b a) n pa)
    (hl : InLine (elemAddr s b a) n) : Yields i s { mem := some (pa, n) } fun t => Holds t pa n (val s) := by
  have hstore := storeScalar_plain (v := val s) hp hl
  obtain ⟨-, -, -, -, -, -, hpo, -⟩ := hp
  obtain ⟨heff, hh⟩ := storeScalar_effect (v := val s) (l := accessReads .store s (elemAddr s b a) pa) hpo hs
  refine heff.yields (hi.trans (finish_ok ?_)) (hh.of_mem (State.retireTo_mem ..))
  exact (run_bind_ok (bufElem_ok h)).trans ((run_bind_ok (run_get s)).trans (run_bind_ok hstore))

/-- BST.FH narrows under the effective mode, and accrues its flags and zamax (R108, R110, R183). -/
theorem bstFh_yields {rm : Rnd} (hr : effRnd s none = some rm) (hp : PlainAccess .store s (elemAddr s b a) 2 pa)
    (hl : InLine (elemAddr s b a) 2) (x : FReg) :
    let code := s.dazCode .s (s.fs x)
    let m := narrowIeee fp16 rm s.hart.u.ftz16 (unpack fp32 code)
    Yields (.bstFh b a x) s { mem := some (pa, 2), fflags := true, zaflags := true, zamax := true } fun t =>
      Holds t pa 2 (BitVec.ofNat 64 m.bits) ∧ t.hart.u.fflags = s.hart.u.fflags ||| m.flags ∧
        t.hart.u.zaflags = s.hart.u.zaflags ||| m.za ∧ t.hart.u.zamax = zamaxNext s.hart.u.zamax (unpack fp32 code) code := by
  intro code m
  have hstore := storeScalar_plain (v := BitVec.ofNat 64 m.bits) hp hl
  obtain ⟨-, -, -, -, -, -, hpo, -⟩ := hp
  obtain ⟨heff, hh⟩ := storeScalar_effect (v := BitVec.ofNat 64 m.bits) (l := accessReads .store s (elemAddr s b a) pa) hpo hs
  generalize hg : (s.sample (accessReads .store s (elemAddr s b a) pa)).store pa (natLe 2 (BitVec.ofNat 64 m.bits).toNat) = g
    at hstore heff hh
  have hgh : g.hart = s.hart := by rw [← hg, store_hart, sample_hart]
  have hrnd : ∀ w, withRnd w none s = .ok rm s := fun w => by simp only [withRnd, hr]
  refine ((heff.within {}).trans ((Effect.narrowed g m code).within {})).yields (finish_ok ?_) ⟨?_, ?_, ?_, ?_⟩
  · rw [run_bind_ok (needB_ok h.1), run_bind_ok (hrnd _)]
    exact (run_bind_ok (bufElem_ok h)).trans ((run_bind_ok (run_get s)).trans (run_bind_ok hstore))
  · exact hh.of_mem (State.retireTo_mem ..)
  all_goals
    rw [State.retireTo_hart, ← hgh]
    rfl

end Stores

end Sys2Proof.Machine

namespace Sys2Proof
open Machine

/-- Settles O15: a load is the element's bytes and what the mnemonic makes of them (bldX_yields, bld_yields); a store is one scalar store
(bstM_yields), BST.FH one of the narrowed value. -/
theorem bufferElements : Obligations.BufferElements := by
  unfold Obligations.BufferElements
  refine ⟨fun s a b pa hb => ?_, fun s a d pa hs hd => ?_⟩
  · intro r i va reads gives hx
    have h : ElemOk s b a := ⟨hb, hx⟩
    refine ⟨fun d => ⟨fun hp hl => ?_, fun hp hl => ?_, fun hp hl => ?_, fun hp hl => ?_, fun hp hl => ?_, fun hp hl => ?_, fun hp hl => ?_⟩,
      fun d => ⟨fun hp hl => bldFw_yields h hp hl d, fun hp hl => bldFd_yields h hp hl d, fun hp hl => bldFh_yields h hp hl d⟩⟩
    · simpa [loadExtend] using bldX_yields (op := .lb) (d := d) h hp hl rfl rfl
    · simpa [loadExtend] using bldX_yields (op := .lh) (d := d) h hp hl rfl rfl
    · simpa [loadExtend, sx32, lo32] using bldX_yields (op := .lw) (d := d) h hp hl rfl rfl
    · exact bldX_yields (op := .ld) h hp hl rfl rfl
    · exact bldX_yields (op := .lbu) h hp hl rfl rfl
    · exact bldX_yields (op := .lhu) h hp hl rfl rfl
    · exact bldX_yields (op := .lwu) h hp hl rfl rfl
  · intro r i va stores hx
    have h : ElemOk s d a := ⟨hd, hx⟩
    refine ⟨fun b => ⟨?_, ?_, ?_, ?_⟩, fun b => ⟨?_, ?_, fun rm hr hp hl => bstFh_yields hs h hr hp hl b⟩⟩
    · exact bstM_yields (val := (·.rx b)) hs h rfl
    · exact bstM_yields (val := (·.rx b)) hs h rfl
    · exact bstM_yields (val := (·.rx b)) hs h rfl
    · exact bstM_yields (val := (·.rx b)) hs h rfl
    · exact bstM_yields (val := (·.rf b)) hs h rfl
    · exact bstM_yields (val := (·.rf b)) hs h rfl

end Sys2Proof
end
section
/-! ## A release that ends the releasing thread's reservation (R85, R91, R190) -/
namespace Sys2Proof.Machine

variable {s : State} {a b d : XReg} {obj : Nat}

/-- An instruction that is not said to write the reservation keeps it. -/
theorem SameHart.resv {t : State} {w : Writes} (h : SameHart w s t) (hw : w.resv = false) : t.hart.resv = s.hart.resv := by
  obtain ⟨-, -, h⟩ := h
  have hresv := congrArg Hart.resv h
  simpa only [hw, Bool.false_eq_true, if_false] using hresv

/-- SOUNBIND of a region that no binding holds releases its object and answers 1 (R190). -/
theorem exec_sounbind_unbound (hd : s.hart.dropped = none) (ha : (s.rx b).toNat % 32 = 0) (hp : PlainAccess .store s (s.rx b) 32 obj)
    (hb : ((s.sample (accessReads .store s (s.rx b) obj)).releaseObj obj 1 id).part.bindings = []) :
    exec (.sounbind d a b) s =
      .next ((((s.sample (accessReads .store s (s.rx b) obj)).releaseObj obj 1 id).wx d 1).mayStall.retire) := by
  have hobj : objAddr (s.rx b) true [0] s = .ok obj (s.sample (accessReads .store s (s.rx b) obj)) :=
    objAddr_plain (writes := true) ha hp (by decide)
  obtain ⟨-, -, -, -, -, -, -, -, hm⟩ := hp
  refine finish_ok ?_
  rw [run_bind_ok (orderingPoint_passes hm hd), run_bind_ok (run_get s), run_bind_ok hobj, run_bind_ok (run_modify ..), run_bind_ok (run_get _)]
  simp only [hb, List.find?_nil]
  rfl

/-- L-core 0, a member of team 1, with a reservation on the line of 4000h and the sync object at 2000h in x2; a window of the team over 4000h
belongs to that object and holds a dirty byte of another member. -/
def reservingLcore : State :=
  { State.reset with
    hart := { Hart.init (.lcore 0) with u := { User.init with x := User.init.x.set 2 0x2000 }, resv := some 0x80 }
    part :=
      { Part.init with
        ranges := [(0, 0x100000)]
        wcores := [WCore.init 0]
        members := [⟨.lcore 0, 1, 0, false, 0, Vector.replicate 16 0, 0⟩, ⟨.lcore 1, 1, 1, false, 0, Vector.replicate 16 0, 0⟩]
        teams := [⟨1, 0, Vector.replicate 16 ⟨0, 0, []⟩, [⟨0, 0x4000, 128, 0, 0x2000, 0, [⟨0, 0x4000, [(0, .lcore 1)], []⟩]⟩]⟩] } }

theorem reservingLcore_plain : PlainAccess .store reservingLcore (reservingLcore.rx 2) 32 0x2000 :=
  ⟨by decide, by decide +kernel, by decide +kernel, by decide +kernel, by decide +kernel, by decide +kernel, by decide +kernel,
    fun _ _ => rfl, by decide +kernel⟩

/-- The release writes the other member's byte home, on the line of the reservation. -/
theorem reservingLcore_released :
    let t := (reservingLcore.sample (accessReads .store reservingLcore (reservingLcore.rx 2) 0x2000)).releaseObj 0x2000 1 id
    t.hart.resv = none ∧ t.part.bindings = [] := by decide +kernel

end Sys2Proof.Machine

namespace Sys2Proof
open Machine

/-- Refutes O22: where SOUNBIND finds no binding, the statement asks that the thread keep its reservation. The release of its object (R73) writes
home the dirty bytes of the object's windows of the whole team (R85), and another member's byte ends the reservation on its line (R91), as in
`reservingLcore`. -/
theorem not_regionBindings : ¬ Obligations.RegionBindings := by
  unfold Obligations.RegionBindings
  intro h
  obtain ⟨hr, hb⟩ := reservingLcore_released
  obtain ⟨-, hunbound⟩ := h.2 reservingLcore 1 1 2 0x2000 rfl (by decide +kernel) reservingLcore_plain
  obtain ⟨t, ht, -, hsame, -⟩ := hunbound (by decide)
  rw [exec_sounbind_unbound rfl (by decide +kernel) reservingLcore_plain hb] at ht
  obtain rfl := Host.Outcome.next.inj ht
  have hkeeps := hsame.resv rfl
  rw [State.retire_eq, State.retireTo_hart, ((Effect.wx _ 1 1).mayStall).frame.1.resv rfl] at hkeeps
  exact absurd (hr.symm.trans hkeeps) (by decide +kernel)

end Sys2Proof
end
section
/-! ## Bytes that reach their homes (R73, R85) -/
namespace Sys2Proof.Machine

variable {s t u : State}

/-! ## What lands in memory -/

/-- From s to t the bytes of l, by address, reach memory and no others: where no word is poisoned, a byte that none of l lies at stands, and one
that l gives one value arrives. -/
def Lands (l : List (Nat × Byte)) (s t : State) : Prop :=
  s.Inv → s.poison = [] → t.Inv ∧ t.poison = [] ∧ (∀ a, (∀ b ∈ l, b.1 ≠ a) → t.byte a = s.byte a) ∧
    ∀ b ∈ l, (∀ q ∈ l, q.1 = b.1 → q = b) → t.byte b.1 = b.2

namespace Lands

variable {l m : List (Nat × Byte)}

theorem of_mem (hm : t.mem = s.mem) (hp : s.poison = [] → t.poison = []) : Lands [] s t := by
  intro hi hpo
  refine ⟨State.inv_of_mem hm hi, hp hpo, fun a _ => ?_, fun b hb => nomatch hb⟩
  rw [State.byte, State.byte, hm]

/-- Of the bytes that land one after another at one place the last one stands. -/
theorem append (h1 : Lands l s t) (h2 : Lands m t u) : Lands (l ++ m) s u := by
  intro hi hp
  obtain ⟨hi1, hp1, hout1, hin1⟩ := h1 hi hp
  obtain ⟨hi2, hp2, hout2, hin2⟩ := h2 hi1 hp1
  refine ⟨hi2, hp2, fun a ha => ?_, fun b hb hu => ?_⟩
  · rw [hout2 a fun b hb => ha b (List.mem_append_right _ hb), hout1 a fun b hb => ha b (List.mem_append_left _ hb)]
  · by_cases hex : ∃ q ∈ m, q.1 = b.1
    · obtain ⟨q, hq, hqb⟩ := hex
      obtain rfl := hu q (List.mem_append_right _ hq) hqb
      exact hin2 q hq fun r hr => hu r (List.mem_append_right _ hr)
    · have hm : ∀ q ∈ m, q.1 ≠ b.1 := fun q hq he => hex ⟨q, hq, he⟩
      rcases List.mem_append.1 hb with hb | hb
      · rw [hout2 b.1 hm]
        exact hin1 b hb fun r hr => hu r (List.mem_append_left _ hr)
      · exact absurd rfl (hm b hb)

theorem then_mem (h : Lands l s t) (hm : u.mem = t.mem) (hp : u.poison = t.poison) : Lands l s u := by
  have h' := h.append (of_mem hm fun hpo => hp.trans hpo)
  rwa [List.append_nil] at h'

/-- What each step of a fold lands, while an invariant of the steps holds. -/
theorem foldl {α : Type} {f : State → α → State} {g : α → List (Nat × Byte)} {xs : List α} {Q : State → Prop} (hQ : Q s)
    (hf : ∀ t, ∀ a ∈ xs, Q t → Q (f t a) ∧ Lands (g a) t (f t a)) : Q (xs.foldl f s) ∧ Lands (xs.flatMap g) s (xs.foldl f s) := by
  induction xs generalizing s with
  | nil => exact ⟨hQ, of_mem rfl id⟩
  | cons a xs ih =>
    obtain ⟨hQ1, h1⟩ := hf s a (List.mem_cons_self ..) hQ
    obtain ⟨hQ2, h2⟩ := ih hQ1 fun t b hb => hf t b (List.mem_cons_of_mem _ hb)
    exact ⟨hQ2, h1.append h2⟩

end Lands

/-! ## One byte -/

section HomeByte

variable (who : HartId) (pa : Nat) (v : Byte)

theorem homeByte_memory (hp : s.poison = []) :
    (s.homeByte who pa v).mem = (s.rawWrite pa [v]).mem ∧ (s.homeByte who pa v).poison = [] := by
  unfold State.homeByte
  split
  · have hclean : (s.sample [pa]).poison = [] := (sample_poison ..).trans hp
    obtain ⟨hm, hpo, -⟩ := store_rest (s.sample [pa]) pa [v]
    rw [hm, hpo, State.rawWrite_of_clean hp, State.rawWrite_of_clean hclean, sample_mem]
    exact ⟨rfl, hclean⟩
  · obtain ⟨-, -, -, hpo, -⟩ := notifyHost_rest (s.engineWrite pa [v]) pa 1
    exact ⟨(State.notifyHost_mem ..).trans (engineWrite_mem ..), hpo.trans (engineWrite_poison_nil hp)⟩

theorem lands_homeByte : Lands [(pa, v)] s (s.homeByte who pa v) := by
  intro hi hp
  obtain ⟨hm, hpo⟩ := homeByte_memory (s := s) who pa v hp
  refine ⟨State.inv_of_mem hm (State.rawWrite_inv hi), hpo, fun a ha => ?_, fun b hb _ => ?_⟩
  · have hne : pa ≠ a := ha (pa, v) (List.mem_singleton_self _)
    rw [State.byte, hm, ← State.byte]
    exact State.byte_rawWrite_outside (by simp only [List.length_singleton]; omega)
  · obtain rfl := List.mem_singleton.1 hb
    have hbytes := State.bytes_rawWrite (s := s) (pa := pa) (bs := [v]) hi hp
    rw [State.byte, hm]
    simpa [State.bytes, sparseGets] using hbytes

end HomeByte

/-! ## What stands beside memory -/

/-- t differs from s, of the current hart, in its reservation and its watch alone (R91). -/
structure Loose (s t : State) : Prop where
  here : { t.hart with resv := s.hart.resv, watch := s.hart.watch } = s.hart
  own : SameOwn s t

theorem Loose.of_hart (hh : t.hart = s.hart) (ho : SameOwn s t) : Loose s t := ⟨by rw [hh], ho⟩

theorem Loose.trans (h1 : Loose s t) (h2 : Loose t u) : Loose s u := by
  refine ⟨?_, h1.own.trans h2.own⟩
  rw [← h1.here, ← h2.here]

theorem Loose.refl (s : State) : Loose s s := .of_hart rfl ⟨rfl, rfl, rfl, rfl, rfl⟩

/-- t differs from s so, and of the partition in the counts of pages alone. -/
structure Sent (s t : State) : Prop where
  loose : Loose s t
  part : { t.part with hotCounts := s.part.hotCounts } = s.part

namespace Sent

theorem of_quiet (h : Quiet s t) (hh : { t.hart with resv := s.hart.resv, watch := s.hart.watch } = s.hart) : Sent s t :=
  ⟨⟨hh, h.own⟩, h.part⟩

theorem of_part (hh : t.hart = s.hart) (ho : SameOwn s t) (hp : t.part = s.part) : Sent s t := ⟨.of_hart hh ho, by rw [hp]⟩

theorem refl (s : State) : Sent s s := .of_part rfl ⟨rfl, rfl, rfl, rfl, rfl⟩ rfl

theorem trans (h1 : Sent s t) (h2 : Sent t u) : Sent s u := by
  refine ⟨h1.loose.trans h2.loose, ?_⟩
  rw [← h1.part, ← h2.part]

theorem part_eq {α : Sort*} (h : Sent s t) (f : Part → α) (hf : ∀ p c, f { p with hotCounts := c } = f p) : f t.part = f s.part :=
  (hf t.part s.part.hotCounts).symm.trans (congrArg f h.part)

theorem wcore? (h : Sent s t) (n : Nat) : t.wcore? n = s.wcore? n :=
  congrArg (List.find? fun w : WCore => w.num == n) (h.part_eq Part.wcores fun _ _ => rfl)

theorem foldl {α : Type} {f : State → α → State} (hf : ∀ t a, Sent t (f t a)) (l : List α) (s : State) : Sent s (l.foldl f s) := by
  induction l generalizing s with
  | nil => exact refl s
  | cons a l ih => exact (hf s a).trans (ih _)

theorem engineWrite (s : State) (pa : Nat) (bs : List Byte) : Sent s (s.engineWrite pa bs) :=
  of_quiet (.engineWrite ..) (by rw [engineWrite_hart]; rfl)

theorem homeByte (s : State) (who : HartId) (pa : Nat) (v : Byte) : Sent s (s.homeByte who pa v) := by
  unfold State.homeByte
  split
  · obtain ⟨-, -, hh, -, hp, ho, -⟩ := store_rest (s.sample [pa]) pa [v]
    exact (of_quiet (.sample s [pa]) (by rw [sample_hart])).trans (of_part hh ho hp)
  · obtain ⟨hh, -, hp, -, ho⟩ := notifyHost_rest (s.engineWrite pa [v]) pa 1
    exact (engineWrite ..).trans (of_part hh ho hp)

theorem unpoison (s : State) (whole : Nat → Bool) : Sent s (s.unpoison whole) := of_part rfl ⟨rfl, rfl, rfl, rfl, rfl⟩ rfl

end Sent

theorem lands_unpoison (whole : Nat → Bool) : Lands [] s (s.unpoison whole) :=
  .of_mem rfl fun hp => by simp [State.unpoison, hp]

/-! ## A thread's own bytes written back (R73) -/

/-- A thread's own byte after the bytes of l have been written back: clean where its thread's byte at its place was one of them. -/
def PrivByte.cleaned (l : List PrivByte) (c : PrivByte) : PrivByte :=
  if l.any fun b => c.who == b.who && c.pa == b.pa then { c with dirty := false } else c

theorem PrivByte.cleaned_cons (b : PrivByte) (l : List PrivByte) (c : PrivByte) : (c.cleaned [b]).cleaned l = c.cleaned (b :: l) := by
  by_cases hb : (c.who == b.who && c.pa == b.pa) = true
  · have hone : c.cleaned [b] = { c with dirty := false } := if_pos (by simp [hb])
    have hall : c.cleaned (b :: l) = { c with dirty := false } := if_pos (by simp [hb])
    rw [hone, hall]
    unfold cleaned
    split <;> rfl
  · have hone : c.cleaned [b] = c := if_neg (by simpa using hb)
    rw [hone]
    unfold cleaned
    rw [List.any_cons, Bool.not_eq_true _ |>.mp hb, Bool.false_or]

/-- A byte that stays dirty is none of those written back, and is as it was. -/
theorem PrivByte.cleaned_dirty {l : List PrivByte} {c : PrivByte} (h : (c.cleaned l).dirty = true) :
    c.cleaned l = c ∧ ∀ b ∈ l, c.who = b.who → c.pa ≠ b.pa := by
  unfold cleaned at *
  split at h
  · exact absurd h (by simp)
  · rename_i hl
    refine ⟨if_neg hl, fun b hb hw hp => hl ?_⟩
    simp only [List.any_eq_true, Bool.and_eq_true, beq_iff_eq]
    exact ⟨b, hb, hw, hp⟩

/-- Where a written-back byte goes, and what it is. -/
def PrivByte.home (b : PrivByte) : Nat × Byte := (b.pa, b.val)

/-- A property of the windows that holds of every team's. -/
def EveryWindow (P : Window → Prop) (s : State) : Prop := ∀ x ∈ s.part.teams, ∀ w ∈ x.windows, P w

theorem EveryWindow.modWindows {P : Window → Prop} {team : BitVec 16} {f : Window → Window} (h : EveryWindow P s) (hf : ∀ w, P w → P (f w)) :
    EveryWindow P (s.modWindows team f) := by
  intro x hx w hw
  obtain ⟨y, hy, rfl⟩ := List.mem_map.1 hx
  split at hw
  · obtain ⟨v, hv, rfl⟩ := List.mem_map.1 hw
    exact hf v (h y hy v hv)
  · exact h y hy w hw

/-- What a write-back of the bytes of l has done: each has reached its home and is clean, windows have lost granules at most. -/
structure WroteBack (l : List PrivByte) (s t : State) : Prop where
  lands : Lands (l.map PrivByte.home) s t
  priv : t.part.priv = s.part.priv.map (PrivByte.cleaned l)
  windows : ∀ P : Window → Prop, (∀ w gs, P w → P { w with granules := gs }) → EveryWindow P s → EveryWindow P t

namespace WroteBack

variable {l : List PrivByte}

theorem writeBackByte (s : State) (b : PrivByte) : WroteBack [b] s (s.writeBackByte b) := by
  have hs := Sent.homeByte s b.who b.pa b.val
  have hl := lands_homeByte (s := s) b.who b.pa b.val
  unfold State.writeBackByte
  generalize s.homeByte b.who b.pa b.val = t at *
  refine ⟨hl.then_mem rfl rfl, ?_, fun P hP h => ?_⟩
  · show t.part.priv.map _ = _
    rw [hs.part_eq Part.priv fun _ _ => rfl]
    refine List.map_congr_left fun c _ => ?_
    simp [PrivByte.cleaned]
  · refine EveryWindow.modWindows ?_ fun w hw => hP w _ hw
    show EveryWindow P t
    rw [EveryWindow, hs.part_eq Part.teams fun _ _ => rfl]
    exact h

theorem foldl (l : List PrivByte) (s : State) : WroteBack l s (l.foldl State.writeBackByte s) := by
  induction l generalizing s with
  | nil => exact ⟨.of_mem rfl id, (List.map_congr_left fun c _ => rfl).trans (List.map_id _) |>.symm, fun _ _ h => h⟩
  | cons b l ih =>
    obtain ⟨hl1, hp1, hw1⟩ := writeBackByte s b
    obtain ⟨hl2, hp2, hw2⟩ := ih (s.writeBackByte b)
    refine ⟨hl1.append hl2, ?_, fun P hP h => hw2 P hP (hw1 P hP h)⟩
    rw [List.foldl_cons, hp2, hp1, List.map_map]
    exact List.map_congr_left fun c _ => PrivByte.cleaned_cons b l c

theorem writeBackAll (l : List PrivByte) (s : State) : WroteBack l s (s.writeBackAll l) := by
  obtain ⟨hl, hp, hw⟩ := foldl l (s.unpoison (coversWord l))
  exact ⟨(lands_unpoison (coversWord l)).append hl, hp, hw⟩

end WroteBack

/-! ## Windows flushed (R85, R207) -/

/-- The dirty bytes of a granule at the stash offset off, by their homes. -/
def Granule.homes (c : WCore) (off : Nat) (g : Granule) : List (Nat × Byte) :=
  g.dirty.map fun o => (g.pa + o.1, c.sramByte (off + 128 * g.idx + o.1))

/-- The dirty bytes of some windows, by their homes. -/
def windowHomes (c : WCore) (ws : List Window) : List (Nat × Byte) := ws.flatMap fun x => x.granules.flatMap (Granule.homes c x.off)

/-- A window whose granules are clean. -/
def Window.clean (w : Window) : Window := { w with granules := w.granules.map fun g => { g with dirty := [] } }

section Flush

variable {n : Nat} {c : WCore} {off : Nat}

theorem writeGranule_sent (s : State) (n off : Nat) (g : Granule) (offs : List (Nat × HartId)) : Sent s (s.writeGranule n off g offs) := by
  refine (Sent.unpoison s _).trans (Sent.foldl (fun t o => ?_) offs _)
  split
  · exact Sent.homeByte ..
  · exact Sent.refl t

theorem writeGranule_lands (hc : s.wcore? n = some c) (g : Granule) : Lands (g.homes c off) s (s.writeGranule n off g g.dirty) := by
  rw [Granule.homes, List.map_eq_flatMap]
  refine (lands_unpoison _).append (Lands.foldl (s := s.unpoison _) (Q := fun t => t.wcore? n = some c) hc fun t o _ ht => ?_).2
  simp only [ht]
  exact ⟨((Sent.homeByte ..).wcore? n).trans ht, lands_homeByte _ _ _⟩

/-- The dirty bytes of a window sent home, from the SRAM of W-core n. -/
def State.sendWindow (s : State) (n : Nat) (w : Window) : State := w.granules.foldl (fun t g => t.writeGranule n w.off g g.dirty) s

theorem sendWindow_sent (s : State) (n : Nat) (w : Window) : Sent s (s.sendWindow n w) :=
  Sent.foldl (fun t g => writeGranule_sent t n w.off g g.dirty) w.granules s

theorem sendWindow_lands (hc : s.wcore? n = some c) (w : Window) :
    Lands (w.granules.flatMap (Granule.homes c w.off)) s (s.sendWindow n w) :=
  (Lands.foldl (Q := fun t => t.wcore? n = some c) hc fun _ g _ ht => ⟨((writeGranule_sent ..).wcore? n).trans ht, writeGranule_lands ht g⟩).2

/-- The dirty bytes of some windows sent home. -/
def State.sendWindows (s : State) (n : Nat) (ws : List Window) : State := ws.foldl (fun t w => t.sendWindow n w) s

theorem sendWindows_sent (s : State) (n : Nat) (ws : List Window) : Sent s (s.sendWindows n ws) :=
  Sent.foldl (fun t w => sendWindow_sent t n w) ws s

theorem sendWindows_lands (hc : s.wcore? n = some c) (ws : List Window) : Lands (windowHomes c ws) s (s.sendWindows n ws) :=
  (Lands.foldl (Q := fun t => t.wcore? n = some c) hc fun _ w _ ht => ⟨((sendWindow_sent ..).wcore? n).trans ht, sendWindow_lands ht w⟩).2

/-- A flush sends the dirty bytes of the windows it names home, and cleans their granules. -/
theorem flushWindows_eq {team : BitVec 16} {tm : Team} (ht : s.team? team = some tm) (sel : Window → Bool) :
    s.flushWindows team sel =
      (s.sendWindows tm.wcore (tm.windows.filter sel)).modWindows team fun w => if sel w then w.clean else w := by
  simp only [State.flushWindows, ht]
  rfl

theorem flushWindows_loose (s : State) (team : BitVec 16) (sel : Window → Bool) : Loose s (s.flushWindows team sel) := by
  cases ht : s.team? team with
  | none =>
    simp only [State.flushWindows, ht]
    exact .refl s
  | some tm =>
    rw [flushWindows_eq ht]
    exact (sendWindows_sent ..).loose.trans (.of_hart rfl ⟨rfl, rfl, rfl, rfl, rfl⟩)

theorem modWindows_id {team : BitVec 16} {f : Window → Window} (h : EveryWindow (fun w => f w = w) s) : s.modWindows team f = s := by
  have hid : adjust (fun x : Team => x.num == team) (fun x => { x with windows := x.windows.map f }) s.part.teams = s.part.teams := by
    refine (List.map_congr_left fun x hx => ?_).trans (List.map_id _)
    have hw : x.windows.map f = x.windows := (List.map_congr_left fun w hw => h x hx w hw).trans (List.map_id _)
    show (if _ then { x with windows := x.windows.map f } else x) = x
    rw [hw]
    split <;> rfl
  simp only [State.modWindows, State.modPart]
  rw [hid]

/-- A flush of no window changes nothing. -/
theorem flushWindows_none {team : BitVec 16} {sel : Window → Bool} (h : EveryWindow (fun w => sel w = false) s) :
    s.flushWindows team sel = s := by
  cases ht : s.team? team with
  | none => simp only [State.flushWindows, ht]
  | some tm =>
    have hf : tm.windows.filter sel = [] := List.filter_eq_nil_iff.2 fun w hw => by
      simp [h tm (List.mem_of_find?_eq_some ht) w hw]
    rw [flushWindows_eq ht, hf]
    exact modWindows_id fun x hx w hw => if_neg (by simp [h x hx w hw])

end Flush

end Sys2Proof.Machine
end
section
/-! ## Words of a sync object (R72) -/
namespace Sys2Proof.Machine

variable {s t u : State} {pa i : Nat} {ws : List Word}

theorem bytes_congr {a n : Nat} (h : ∀ k, a ≤ k → k < a + n → t.byte k = s.byte k) : t.bytes a n = s.bytes a n := by
  induction n generalizing a with
  | zero => rfl
  | succ n ih =>
    have hhead := h a (Nat.le_refl a) (by omega)
    have htail := ih (a := a + 1) fun k h1 h2 => h k (by omega) (by omega)
    exact congrArg₂ List.cons hhead htail

theorem objWord_congr (h : ∀ k, pa + 8 * i ≤ k → k < pa + 8 * i + 8 → t.byte k = s.byte k) : t.objWord pa i = s.objWord pa i := by
  rw [State.objWord, State.objWord, bytes_congr h]

theorem objWord_of_mem (h : t.mem = s.mem) (pa i : Nat) : t.objWord pa i = s.objWord pa i :=
  objWord_congr fun k _ _ => by rw [State.byte, State.byte, h]

/-- Words as bytes, one behind another (R4). -/
def wordBytes (ws : List Word) : List Byte := ws.flatMap fun v => natLe 8 v.toNat

@[simp] theorem wordBytes_length (ws : List Word) : (wordBytes ws).length = 8 * ws.length :=
  (length_flatMap_const (k := 8) (fun _ => natLe_length 8 _) ws).trans (Nat.mul_comm ..)

/-- The words ws stand at pa, and no byte behind them has changed. -/
structure WroteWords (pa : Nat) (ws : List Word) (s t : State) : Prop where
  here : t.bytes pa (wordBytes ws).length = wordBytes ws
  out : ∀ a, (a < pa ∨ pa + 8 * ws.length ≤ a) → t.byte a = s.byte a

namespace WroteWords

theorem word (h : WroteWords pa ws s t) (hi : i < ws.length) : t.objWord pa i = ws[i] := by
  have hrow : ((wordBytes ws).drop (8 * i)).take 8 = natLe 8 ws[i].toNat := by
    rw [wordBytes, List.flatMap_def]
    have hr := flatten_row (rows := ws.map fun v => natLe 8 v.toNat) (n := 8) (i := i) (by simp [natLe_length]) (by simpa using hi)
    rwa [List.getElem_map] at hr
  have hlen : 8 * i + 8 ≤ (wordBytes ws).length := by rw [wordBytes_length]; omega
  rw [State.objWord, ← State.bytes_part hlen, h.here, hrow, leNat_natLe, Nat.mod_eq_of_lt (BitVec.isLt _), BitVec.ofNat_toNat, BitVec.setWidth_eq]

theorem word_beyond (h : WroteWords pa ws s t) (hi : ws.length ≤ i) : t.objWord pa i = s.objWord pa i :=
  objWord_congr fun k _ _ => h.out k (by omega)

theorem store (hi : s.Inv) (hp : s.poison = []) (pa : Nat) (ws : List Word) : WroteWords pa ws s (s.store pa (wordBytes ws)) := by
  have hpo : s.poisoned pa (wordBytes ws).length = false := by simp [State.poisoned, hp]
  refine ⟨store_bytes hi hpo, fun a ha => ?_⟩
  rw [State.byte, State.store_mem, ← State.byte]
  exact State.byte_rawWrite_outside (by rwa [wordBytes_length])

theorem engineWrite (hi : s.Inv) (hp : s.poison = []) (pa : Nat) (ws : List Word) : WroteWords pa ws s (s.engineWrite pa (wordBytes ws)) :=
  ⟨bytes_engineWrite hi hp, fun a ha => byte_engineWrite (by rwa [wordBytes_length])⟩

end WroteWords

/-! ## What an arrival makes of them (R192) -/

theorem arriveWith_zero (w : Word × Word × Word) : arriveWith 0 w = w := if_pos rfl

theorem arriveWith_second (amount : Nat) (w : Word × Word × Word) : (arriveWith amount w).2.1 = w.2.1 := by
  unfold arriveWith
  split <;> rfl

section Amount

variable {amount : Nat} {w1 w2 w3 : Word} (h : amount ≠ 0)
include h

theorem arriveWith_third : (arriveWith amount (w1, w2, w3)).2.2 = w3 + BitVec.ofNat 64 amount := by
  rw [arriveWith, if_neg h]
  apply BitVec.eq_of_toNat_eq
  simp [arrivalWords, BitVec.toNat_add]

theorem arriveWith_first :
    (arriveWith amount (w1, w2, w3)).1.toNat = (w3 + BitVec.ofNat 64 amount).toNat / (if w2 = 0 then 1 else w2.toNat) := by
  have hn : (w3 + BitVec.ofNat 64 amount).toNat = (w3.toNat + amount) % 2 ^ 64 := by simp [BitVec.toNat_add]
  rw [arriveWith, if_neg h, hn]
  exact Nat.mod_eq_of_lt (Nat.lt_of_le_of_lt (Nat.div_le_self ..) (Nat.mod_lt _ (by decide)))

end Amount

end Sys2Proof.Machine
end
section
/-! ## An instruction's work before it retires -/
namespace Sys2Proof.Machine

variable {s t u : State} {w : Writes}

theorem mayStall_part {α : Sort*} (f : Part → α) (hf : ∀ p, f p.still = f p) : f s.mayStall.part = f s.part := by
  rw [← hf, mayStall_still, hf]

/-- t differs from s, of the current hart, in what w names alone, and nothing has retired. -/
structure Worked (w : Writes) (s t : State) : Prop where
  same : SameHart w s t
  own : SameOwn s t
  pc : t.pc = s.pc
  instret : t.hart.instret = s.hart.instret
  cycle : t.hart.cycle = s.hart.cycle

namespace Worked

theorem of_effect (h : Effect w s t) : Worked w s t := by
  obtain ⟨⟨hh, -, -, -, -, ho⟩, hpc, hi, hc⟩ := h
  exact ⟨hh, ho, hpc, hi, hc⟩

theorem of_hart (hh : t.hart = s.hart) (ho : SameOwn s t) : Worked w s t :=
  ⟨sameHart_of_eq hh, ho, by rw [State.pc, hh, State.pc], by rw [hh], by rw [hh]⟩

theorem trans (h1 : Worked w s t) (h2 : Worked w t u) : Worked w s u :=
  ⟨h1.same.trans h2.same, h1.own.trans h2.own, h2.pc.trans h1.pc, h2.instret.trans h1.instret, h2.cycle.trans h1.cycle⟩

theorem within {v : Writes} (h : Worked w s t) (hv : w.Within v) : Worked v s t := ⟨h.same.within hv, h.own, h.pc, h.instret, h.cycle⟩

/-- What leaves a reservation and a watch open. -/
theorem of_loose (h : Loose s t) (hr : w.resv = true) (hw : w.watch = true) : Worked w s t := by
  obtain ⟨hh, ho⟩ := h
  have hu : t.hart.u = s.hart.u := (congrArg Hart.u hh :)
  refine ⟨sameHart_iff.2 ⟨?_, ?_, ?_⟩, ho, (congrArg User.pc hu :), (congrArg Hart.instret hh :), (congrArg Hart.cycle hh :)⟩
  · simp [SameRegs, State.rx, State.rf, State.rp, State.rw, State.rk, State.rd, State.rb, hu]
  · simp [SameFlags, hu]
  · rw [← hh]
    unfold Hart.putBack
    rw [hr, hw]
    cases w.task <;> rfl

theorem wx (h : Worked w s t) {d : XReg} (hd : d ∈ w.x) (v : Word) : Worked w s (t.wx d v) :=
  h.trans ((of_effect (.wx t d v)).within { x := by simpa using hd })

theorem mayStall (h : Worked w s t) : Worked w s t.mayStall := h.trans (of_effect (Effect.mayStall_self w t))

/-- Work retires to the pc behind the instruction (R118, R124). -/
theorem retires (h : Worked w s t) : RetiredTo s.nextPc s t.retire ∧ SameHart w s t.retire := by
  obtain ⟨hh, ho, hpc, hi, hc⟩ := h
  have hsup : t.hart.sup = s.hart.sup := by
    obtain ⟨-, -, hb⟩ := sameHart_iff.1 hh
    exact (congrArg Hart.sup hb :)
  have hnext : t.pc + t.ilen none = s.nextPc := by
    have hp : t.pfx = s.pfx := ho.1
    rw [← State.pc_add_ilen, hpc, State.ilen, State.ilen, hp]
  rw [State.retire_eq, hnext]
  exact ⟨.of_effect hi hc hsup, hh.trans (Frame.refl w t).retireTo.1⟩

end Worked

end Sys2Proof.Machine
end
section
/-! ## A release by the current thread (R73) -/
namespace Sys2Proof.Machine

variable {s t u : State} {pa : Nat}

@[simp] theorem sample_byte (l : List Nat) (a : Nat) : (s.sample l).byte a = s.byte a := by simp [State.byte]
@[simp] theorem sample_carried (l : List Nat) : (s.sample l).carried pa = s.carried pa := by simp [State.carried, State.who]
theorem sample_settled (l : List Nat) : Settled (s.sample l) pa ↔ Settled s pa := by
  simp [Settled, NoPrivate, State.who]

/-- A release that no window takes part in carries the thread's dirty bytes home, and writes its words at once (R73). -/
theorem releaseObj_eq (hw : EveryWindow (fun w => w.obj ≠ pa) s) (n : Nat) (f : Word × Word × Word → Word × Word × Word) :
    let v := s.writeBackAll (s.carried pa)
    let w := f (v.objWord pa 1, v.objWord pa 2, v.objWord pa 3)
    s.releaseObj pa n f = v.store pa (wordBytes ([v.objWord pa 0 + 1, w.1, w.2.1, w.2.2].take n)) := by
  have hb := (WroteBack.writeBackAll (s.carried pa) s).windows (fun w => w.obj ≠ pa) (fun _ _ h => h) hw
  have hflush : s.releaseBytes (· == pa) = s.writeBackAll (s.carried pa) :=
    flushWindows_none fun x hx w hwx => beq_eq_false_iff_ne.2 (hb x hx w hwx)
  simp only [State.releaseObj, hflush]
  rfl

section Release

variable (hi : s.Inv) (hp : s.poison = []) (hset : Settled s pa) (hout : ∀ b ∈ s.carried pa, ¬ (pa ≤ b.pa ∧ b.pa < pa + 32))

include hp hi hout

theorem carried_objWord {i : Nat} (h4 : i < 4) : (s.writeBackAll (s.carried pa)).objWord pa i = s.objWord pa i := by
  obtain ⟨-, -, hstands, -⟩ := (WroteBack.writeBackAll (s.carried pa) s).lands hi hp
  refine objWord_congr fun k h1 h2 => hstands k fun b hb he => ?_
  obtain ⟨c, hc, rfl⟩ := List.mem_map.1 hb
  have he : c.pa = k := he
  exact hout c hc ⟨by omega, by omega⟩

/-- The words that a release writes, of an object that no dirty byte lies in (R73). -/
theorem released_words {ws : List Word} (h0 : ws[0]? = some (s.objWord pa 0 + 1)) (h4 : ws.length ≤ 4) :
    let t := (s.writeBackAll (s.carried pa)).store pa (wordBytes ws)
    Released pa s t ∧ t.hart = s.hart ∧ SameOwn s t ∧ ∀ i < 4, t.objWord pa i = (ws[i]?).getD (s.objWord pa i) := by
  intro t
  obtain ⟨hl0, hpriv, -⟩ := WroteBack.writeBackAll (s.carried pa) s
  obtain ⟨hiv, hpv, hstands, harrive⟩ := hl0 hi hp
  have hhomed : Homed s (s.writeBackAll (s.carried pa)) := Homed.writeBackAll fun b hb => by
    have hsel := List.of_mem_filter hb
    simp only [Bool.and_eq_true, beq_iff_eq] at hsel
    exact hsel.2.1
  have hw := WroteWords.store hiv hpv pa ws
  obtain ⟨-, -, hh, -, hpt, ho, -⟩ := store_rest (s.writeBackAll (s.carried pa)) pa (wordBytes ws)
  have hwords : ∀ i < 4, t.objWord pa i = (ws[i]?).getD (s.objWord pa i) := by
    intro i h
    rcases Nat.lt_or_ge i ws.length with hlt | hge
    · rw [hw.word hlt, List.getElem?_eq_getElem hlt, Option.getD_some]
    · rw [hw.word_beyond hge, carried_objWord hi hp hout h, List.getElem?_eq_none hge, Option.getD_none]
  refine ⟨⟨?_, ?_, ?_, ?_⟩, hh.trans hhomed.hart, hhomed.own.trans ho, hwords⟩
  · intro b hb hwho hobj
    rw [hpt, hpriv] at hb
    obtain ⟨c, hc, rfl⟩ := List.mem_map.1 hb
    by_contra hd
    obtain ⟨heq, hnone⟩ := PrivByte.cleaned_dirty (Bool.eq_true_of_not_eq_false hd)
    rw [heq] at hwho hobj hd
    exact hnone c (List.mem_filter.2 ⟨hc, by simp [hwho, hobj, Bool.eq_true_of_not_eq_false hd]⟩) rfl rfl
  · intro b hb huniq
    have hfar := hout b hb
    refine (hw.out b.pa (by omega)).trans (harrive b.home (List.mem_map_of_mem hb) fun q hq he => ?_)
    obtain ⟨c, hc, rfl⟩ := List.mem_map.1 hq
    rw [huniq c hc he]
  · intro a hnone ha
    refine (hw.out a (by omega)).trans (hstands a fun q hq => ?_)
    obtain ⟨c, hc, rfl⟩ := List.mem_map.1 hq
    exact hnone c hc
  · rw [hwords 0 (by decide), h0, Option.getD_some]

include hset

/-- A release of an object that no window takes part in and no dirty byte lies in (R73). -/
theorem releaseObj_released (n : Nat) (hn : 0 < n) (f : Word × Word × Word → Word × Word × Word) :
    let t := s.releaseObj pa n f
    let w := f (s.objWord pa 1, s.objWord pa 2, s.objWord pa 3)
    Released pa s t ∧ t.hart = s.hart ∧ SameOwn s t ∧
      ∀ i < 4, t.objWord pa i = (([s.objWord pa 0 + 1, w.1, w.2.1, w.2.2].take n)[i]?).getD (s.objWord pa i) := by
  have heq := releaseObj_eq hset.2 n f
  have hword : ∀ i < 4, (s.writeBackAll (s.carried pa)).objWord pa i = s.objWord pa i := fun _ => carried_objWord hi hp hout
  simp only [hword 0 (by decide), hword 1 (by decide), hword 2 (by decide), hword 3 (by decide)] at heq
  rw [heq]
  refine released_words hi hp hout ?_ ?_
  · rw [List.getElem?_take_of_lt hn]
    rfl
  · rw [List.length_take]
    exact Nat.min_le_right ..

end Release

/-- A release is told by the bytes of memory and the threads' own bytes alone. -/
theorem Released.of_same (h : Released pa s t) (hm : u.mem = t.mem) (hp : u.part.priv = t.part.priv) : Released pa s u := by
  obtain ⟨hclean, hin, hout, h0⟩ := h
  have hb : ∀ a, u.byte a = t.byte a := fun a => by rw [State.byte, hm, State.byte]
  refine ⟨hp ▸ hclean, fun b hb' hu => (hb _).trans (hin b hb' hu), fun a h1 h2 => (hb a).trans (hout a h1 h2), ?_⟩
  rw [objWord_of_mem hm, h0]

theorem Released.of_sample {l : List Nat} (h : Released pa (s.sample l) t) : Released pa s t := by
  simpa [Released, State.who] using h

/-! ## REL and BARARR (R191, R194) -/

section Exec

variable {a b d : XReg} (hd : s.hart.dropped = none) (ha : (s.rx a).toNat % 32 = 0) (hp : PlainAccess .store s (s.rx a) 32 pa)
include hd ha hp

theorem exec_rel : exec (.rel a) s = .next ((s.sample (accessReads .store s (s.rx a) pa)).releaseObj pa 1 id).retire := by
  have hobj : objAddr (s.rx a) true [0] s = _ := objAddr_plain (writes := true) ha hp (by decide)
  obtain ⟨-, -, -, -, -, -, -, -, hm⟩ := hp
  refine finish_ok ?_
  rw [run_bind_ok (orderingPoint_passes hm hd), run_bind_ok (run_get s), run_bind_ok hobj]
  rfl

theorem exec_bararr :
    exec (.bararr d a b) s =
      let s1 := s.sample (accessReads .store s (s.rx a) pa)
      .next (((s1.releaseObj pa 4 (arriveWith (s.rx b).toNat)).wx d (s.objWord pa 1)).mayStall).retire := by
  have hobj : objAddr (s.rx a) true [0, 1, 2, 3] s = _ := objAddr_plain (writes := true) ha hp (by decide)
  obtain ⟨-, -, -, -, -, -, -, -, hm⟩ := hp
  refine finish_ok ?_
  rw [run_bind_ok (orderingPoint_passes hm hd), run_bind_ok (run_get s), run_bind_ok hobj]
  simp only [effectMem, effectM, run_modify, sample_rx, sample_objWord, objAcc, if_true]

end Exec

/-! ## What they leave -/

section Leaves

variable {a b d : XReg} (hi : s.Inv) (hpo : s.poison = []) (hset : Settled s pa) (hout : ∀ b ∈ s.carried pa, ¬ (pa ≤ b.pa ∧ b.pa < pa + 32))

include hi hpo hset hout

/-- The release of an object that has been found. -/
theorem found_released (l : List Nat) {n : Nat} (hn : 0 < n) (f : Word × Word × Word → Word × Word × Word) :
    let t := (s.sample l).releaseObj pa n f
    let w := f (s.objWord pa 1, s.objWord pa 2, s.objWord pa 3)
    Released pa s t ∧ Worked {} s t ∧
      ∀ i < 4, t.objWord pa i = (([s.objWord pa 0 + 1, w.1, w.2.1, w.2.2].take n)[i]?).getD (s.objWord pa i) := by
  obtain ⟨hr, hh, ho, hwords⟩ := releaseObj_released (State.sample_inv (l := l) hi) ((sample_poison ..).trans hpo) ((sample_settled l).2 hset)
    (by simpa using hout) n hn f
  simp only [sample_objWord] at hwords
  exact ⟨hr.of_sample, (Worked.of_effect (.sample _ s l)).trans (.of_hart hh ho), hwords⟩

variable (hd : s.hart.dropped = none) (ha : (s.rx a).toNat % 32 = 0) (hp : PlainAccess .store s (s.rx a) 32 pa)
include hd ha hp

theorem rel_releases :
    ∃ t, exec (.rel a) s = .next t ∧ RetiredTo s.nextPc s t ∧ SameHart {} s t ∧ Released pa s t ∧
      t.objWord pa 1 = s.objWord pa 1 ∧ t.objWord pa 2 = s.objWord pa 2 ∧ t.objWord pa 3 = s.objWord pa 3 := by
  obtain ⟨hr, hwork, hwords⟩ := found_released hi hpo hset hout (accessReads .store s (s.rx a) pa) (n := 1) (by decide) id
  obtain ⟨hto, hsame⟩ := hwork.retires
  generalize hu : (s.sample (accessReads .store s (s.rx a) pa)).releaseObj pa 1 id = u at *
  have hmem : u.retire.mem = u.mem := State.retireTo_mem ..
  have hword : ∀ i < 4, u.retire.objWord pa i = _ := fun i h => (objWord_of_mem hmem pa i).trans (hwords i h)
  exact ⟨_, hu ▸ exec_rel hd ha hp, hto, hsame, hr.of_same hmem (retireTo_part Part.priv fun _ => rfl), hword 1 (by decide),
    hword 2 (by decide), hword 3 (by decide)⟩

theorem bararr_releases :
    let amount := (s.rx b).toNat
    let w2 := s.objWord pa 2
    let w3 := s.objWord pa 3
    ∃ t, exec (.bararr d a b) s = .next t ∧ RetiredTo s.nextPc s t ∧ SameHart { x := [d] } s t ∧ Released pa s t ∧
      t.rx d = (if d = 0 then 0 else s.objWord pa 1) ∧ t.objWord pa 2 = w2 ∧
      (amount = 0 → t.objWord pa 1 = s.objWord pa 1 ∧ t.objWord pa 3 = w3) ∧
      (amount ≠ 0 → t.objWord pa 3 = w3 + BitVec.ofNat 64 amount ∧
        (t.objWord pa 1).toNat = (w3 + BitVec.ofNat 64 amount).toNat / (if w2 = 0 then 1 else w2.toNat)) := by
  intro amount w2 w3
  obtain ⟨hr, hwork, hwords⟩ := found_released hi hpo hset hout (accessReads .store s (s.rx a) pa) (n := 4) (by decide) (arriveWith amount)
  obtain ⟨hto, hsame⟩ := ((hwork.within (v := { x := [d] }) {}).wx (List.mem_singleton_self d) (s.objWord pa 1)).mayStall.retires
  generalize hu : (s.sample (accessReads .store s (s.rx a) pa)).releaseObj pa 4 (arriveWith amount) = u at *
  generalize hv : (u.wx d (s.objWord pa 1)).mayStall = v at *
  have hmem : v.retire.mem = u.mem := by rw [State.retire_eq, State.retireTo_mem, ← hv, mayStall_mem, State.wx_mem]
  have hpriv : v.retire.part.priv = u.part.priv := by
    rw [State.retire_eq, retireTo_part Part.priv fun _ => rfl, ← hv, mayStall_part Part.priv fun _ => rfl, State.wx_part]
  have hword : ∀ i < 4, v.retire.objWord pa i = _ := fun i h => (objWord_of_mem hmem pa i).trans (hwords i h)
  refine ⟨_, ?_, hto, hsame, hr.of_same hmem hpriv, ?_, (hword 2 (by decide)).trans (arriveWith_second ..), fun h0 => ?_, fun h0 => ?_⟩
  · rw [← hv, ← hu]
    exact exec_bararr hd ha hp
  · rw [State.retire_eq, State.retireTo_rx, ← hv, mayStall_rx, State.rx_wx_same]
    rfl
  · rw [h0, arriveWith_zero] at hword
    exact ⟨hword 1 (by decide), hword 3 (by decide)⟩
  · exact ⟨(hword 3 (by decide)).trans (arriveWith_third h0), (congrArg BitVec.toNat (hword 1 (by decide))).trans (arriveWith_first h0)⟩

end Leaves

end Sys2Proof.Machine

namespace Sys2Proof
open Machine

/-- Settles O19: a release is what `found_released` says of the object's words, REL's of word 0 alone (rel_releases), BARARR's of all four, which
`arriveWith` gives (bararr_releases). -/
theorem releaseCarriesBytes : Obligations.ReleaseCarriesBytes := by
  unfold Obligations.ReleaseCarriesBytes
  intro s d a b pa hi hpo hd hset hout va amount w1 w2 w3 ha hp
  exact ⟨rel_releases hi hpo hset hout hd ha hp, bararr_releases hi hpo hset hout hd ha hp⟩

end Sys2Proof
end
section
/-! ## The windows of a team (R84, R85, R207) -/
namespace Sys2Proof.Machine

variable {s t u : State} {team : BitVec 16} {tm : Team} {x : Window} {c : WCore} {sel : Window → Bool}

theorem num_of_team? (h : s.team? team = some tm) : tm.num = team := by simpa using List.find?_some h

theorem team?_modWindows (h : s.team? team = some tm) (f : Window → Window) :
    (s.modWindows team f).team? team = some { tm with windows := tm.windows.map f } := by
  have hmap : (s.modWindows team f).team? team =
      (s.team? team).map fun y : Team => if y.num == team then { y with windows := y.windows.map f } else y :=
    State.find?_adjust (f := fun y : Team => { y with windows := y.windows.map f }) (fun _ => rfl) s.part.teams
  rw [hmap, h, Option.map_some, num_of_team? h, beq_self_eq_true, if_pos rfl]

/-- A window after a flush of those that sel names. -/
def Window.flushed (sel : Window → Bool) (w : Window) : Window := if sel w then w.clean else w

@[simp] theorem Window.flushed_num (sel : Window → Bool) (w : Window) : (w.flushed sel).num = w.num := by
  unfold flushed
  split <;> rfl

theorem team?_flushWindows (h : s.team? team = some tm) :
    (s.flushWindows team sel).team? team = some { tm with windows := tm.windows.map (Window.flushed sel) } := by
  rw [flushWindows_eq h]
  refine team?_modWindows ?_ _
  rw [← h]
  exact congrArg (List.find? fun y : Team => y.num == team) ((sendWindows_sent ..).part_eq Part.teams fun _ _ => rfl)

theorem flushWindows_lands (h : s.team? team = some tm) (hc : s.wcore? tm.wcore = some c) :
    Lands (windowHomes c (tm.windows.filter sel)) s (s.flushWindows team sel) := by
  rw [flushWindows_eq h]
  exact (sendWindows_lands hc _).then_mem rfl rfl

/-- The windows that stand when those of a number are flushed and removed. -/
theorem windows_unmapped (l : List Window) (n : Nat) :
    (l.map (Window.flushed fun w => w.num == n)).filter (fun w => w.num != n) = l.filter fun w => w.num != n := by
  rw [List.filter_map, List.filter_congr fun w _ => (by simp : ((fun w : Window => w.num != n) ∘ _) w = (w.num != n))]
  refine (List.map_congr_left fun w hw => ?_).trans (List.map_id _)
  have hne : (w.num != n) = true := (List.mem_filter.1 hw).2
  exact if_neg (by simpa using hne)

/-- Unmapping a window flushes it and removes it from its team (R207). -/
structure Unmapped (tm : Team) (n : Nat) (s u : State) : Prop where
  loose : Loose s u
  lands : ∀ c, s.wcore? tm.wcore = some c → Lands (windowHomes c (tm.windows.filter fun w => w.num == n)) s u
  team : ∃ tm', u.team? tm.num = some tm' ∧ tm'.windows = tm.windows.filter fun w => w.num != n

theorem unmapWindow_unmapped (h : s.team? team = some tm) (hx : x ∈ tm.windows) : Unmapped tm x.num s (s.unmapWindow team x.num) := by
  obtain rfl := num_of_team? h
  have ht := team?_flushWindows (sel := fun w => w.num == x.num) h
  have hl := flushWindows_loose s tm.num fun w => w.num == x.num
  have hlands := fun c hc => flushWindows_lands (sel := fun w => w.num == x.num) (c := c) h hc
  obtain ⟨y, hy⟩ : ∃ y, (tm.windows.map (Window.flushed fun w => w.num == x.num)).find? (fun w => w.num == x.num) = some y := by
    rw [← Option.isSome_iff_exists, List.find?_isSome]
    exact ⟨x.flushed _, List.mem_map_of_mem hx, by simp⟩
  simp only [State.unmapWindow, ht, hy]
  generalize s.flushWindows tm.num (fun w => w.num == x.num) = v at *
  refine ⟨hl.trans (.of_hart rfl ⟨rfl, rfl, rfl, rfl, rfl⟩), fun c hc => (hlands c hc).then_mem rfl rfl,
    { tm with windows := (tm.windows.map (Window.flushed fun w => w.num == x.num)).filter fun w => w.num != x.num }, ?_, windows_unmapped ..⟩
  refine (State.find?_adjust (f := fun y : Team => { y with windows := y.windows.filter fun w => w.num != x.num }) (fun _ => rfl) _).trans ?_
  refine (congrArg (Option.map _) ht).trans ?_
  rw [Option.map_some, if_pos (beq_self_eq_true _)]

/-- The bytes of ws, by homes that are each given once, are at their homes in t, and no other byte differs (R85). -/
def HomedWindows (c : WCore) (ws : List Window) (s t : State) : Prop :=
  (∀ b ∈ windowHomes c ws, (∀ b' ∈ windowHomes c ws, b'.1 = b.1 → b' = b) → t.byte b.1 = b.2) ∧
    ∀ p, (∀ b ∈ windowHomes c ws, b.1 ≠ p) → t.byte p = s.byte p

theorem Lands.homed {ws : List Window} (h : Lands (windowHomes c ws) s u) (hi : s.Inv) (hp : s.poison = []) (hm : t.mem = u.mem) :
    HomedWindows c ws s t := by
  obtain ⟨-, -, hout, hin⟩ := h hi hp
  have hb : ∀ a, t.byte a = u.byte a := fun a => by rw [State.byte, hm, State.byte]
  exact ⟨fun b hb' hu => (hb _).trans (hin b hb' hu), fun p hp => (hb p).trans (hout p hp)⟩

/-! ## SUNMAP and SFLUSH (R207) -/

theorem Resides.site {w : Nat} (h : Resides s w c) : s.site = .w := by
  obtain ⟨⟨ctx, k, hid, -⟩, -⟩ := h
  simp [State.site, hid]

section Exec

variable {a d : XReg} {m : Member} (hw : s.site = .w)
include hw

theorem sunmap_unknown (h : s.myWindow (s.rx a) = none) :
    Yields (.sunmap d a) s { x := [d] } fun t => t.rx d = if d = 0 then 0 else -1 := by
  refine (Effect.wx s d (-1)).yields (finish_ok ?_) (by simp)
  rw [run_bind_ok (needWSite_w hw), run_bind_ok (run_get s)]
  simp only [h]
  rfl

theorem exec_sunmap (h : s.myWindow (s.rx a) = some (tm, x)) :
    exec (.sunmap d a) s = .next ((s.unmapWindow tm.num x.num).wx d 0).retire := by
  refine finish_ok ?_
  rw [run_bind_ok (needWSite_w hw), run_bind_ok (run_get s)]
  simp only [h]
  rfl

theorem exec_sflush (hm : s.memberOf s.who = some m) :
    exec (.sflush a) s = .next (s.flushWindows m.team fun y => s.rx a == -1 || y.num == (s.rx a).toNat).retire := by
  refine finish_ok ?_
  rw [run_bind_ok (needWSite_w hw), run_bind_ok (run_get s), effectM, run_modify, hm, myTeam_eq hm]
  rfl

/-- SUNMAP of a window of the thread's team. -/
theorem sunmap_unmaps (h : s.myWindow (s.rx a) = some (tm, x)) :
    ∃ t, exec (.sunmap d a) s = .next t ∧ RetiredTo s.nextPc s t ∧ SameHart { x := [d], resv := true, watch := true } s t ∧ t.rx d = 0 ∧
      (s.Inv → s.poison = [] → ∀ c, s.wcore? tm.wcore = some c → HomedWindows c (tm.windows.filter fun y => y.num == x.num) s t) ∧
      ∃ tm', t.team? tm.num = some tm' ∧ tm'.windows = tm.windows.filter fun y => y.num != x.num := by
  obtain ⟨tm, hteam, hx⟩ : ∃ tm', s.team? tm'.num = some tm' ∧ (tm'.windows.find? fun w => w.num == (s.rx a).toNat).map (fun w => (tm', w)) =
      some (tm, x) := by
    obtain ⟨tm', h1, h2⟩ := Option.bind_eq_some_iff.1 h
    obtain ⟨m, -, hm⟩ := Option.bind_eq_some_iff.1 h1
    exact ⟨tm', (num_of_team? hm).symm ▸ hm, h2⟩
  obtain ⟨y, hy, he⟩ := Option.map_eq_some_iff.1 hx
  obtain ⟨rfl, rfl⟩ := Prod.mk.inj he
  obtain ⟨hl, hlands, tm', ht', hws⟩ := unmapWindow_unmapped hteam (List.mem_of_find?_eq_some hy)
  obtain ⟨hto, hsame⟩ := ((Worked.of_loose (w := { x := [d], resv := true, watch := true }) hl rfl rfl).wx (List.mem_singleton_self d) 0).retires
  have hmem : ((s.unmapWindow tm.num y.num).wx d 0).retire.mem = (s.unmapWindow tm.num y.num).mem := by
    rw [State.retire_eq, State.retireTo_mem, State.wx_mem]
  refine ⟨_, exec_sunmap hw h, hto, hsame, ?_, fun hi hp c hc => (hlands c hc).homed hi hp hmem, tm', ?_, hws⟩
  · rw [State.retire_eq, State.retireTo_rx, State.rx_wx_same]
    exact ite_self _
  · rw [State.team?, State.retire_eq, retireTo_part Part.teams fun _ => rfl, State.wx_part]
    exact ht'

/-- SFLUSH by a thread of a team. -/
theorem sflush_flushes (hm : s.memberOf s.who = some m) (hteam : s.team? m.team = some tm) :
    ∃ t tm', exec (.sflush a) s = .next t ∧ RetiredTo s.nextPc s t ∧ SameHart { resv := true, watch := true } s t ∧
      t.team? m.team = some tm' ∧
      (s.Inv → s.poison = [] → ∀ c, s.wcore? tm.wcore = some c →
        HomedWindows c (tm.windows.filter fun y => s.rx a == -1 || y.num == (s.rx a).toNat) s t) ∧
      tm'.windows.map Window.num = tm.windows.map Window.num ∧
      ∀ x ∈ tm'.windows, (s.rx a = -1 ∨ x.num = (s.rx a).toNat) → ∀ g ∈ x.granules, g.dirty = [] := by
  have hl := flushWindows_loose s m.team fun y => s.rx a == -1 || y.num == (s.rx a).toNat
  obtain ⟨hto, hsame⟩ := (Worked.of_loose (w := { resv := true, watch := true }) hl rfl rfl).retires
  refine ⟨_, { tm with windows := tm.windows.map (Window.flushed fun y => s.rx a == -1 || y.num == (s.rx a).toNat) }, exec_sflush hw hm, hto,
    hsame, ?_, fun hi hp c hc => ?_, ?_, fun x hx hs g hg => ?_⟩
  · rw [State.team?, State.retire_eq, retireTo_part Part.teams fun _ => rfl]
    exact team?_flushWindows hteam
  · exact (flushWindows_lands hteam hc).homed hi hp (by rw [State.retire_eq, State.retireTo_mem])
  · simp [Function.comp_def]
  · obtain ⟨y, hy, rfl⟩ := List.mem_map.1 hx
    rw [Window.flushed_num] at hs
    rw [Window.flushed, if_pos (by simpa using hs)] at hg
    obtain ⟨k, -, rfl⟩ := List.mem_map.1 hg
    rfl

end Exec

end Sys2Proof.Machine
end
section
/-! ## SMAP (R206) -/
namespace Sys2Proof.Machine

variable {s t : State} {tm : Team} {base : Word} {len off : Nat}

/-! ## The refusals, in the order of their table -/

/-- The record is ill formed, or its stash range is not one of a bank's (R206). -/
def BadWindow (s : State) (base : Word) (len off : Nat) : Prop :=
  base.toNat % 128 ≠ 0 ∨ len % 128 ≠ 0 ∨ len = 0 ∨ off % 128 ≠ 0 ∨ stashRange s off len = false

/-- A bound stash region of the address space covers the span (R206). -/
def SpanCovered (s : State) (base : Word) (len : Nat) : Prop :=
  ∃ g ∈ s.part.bindings, g.asid = asidOf s.hart ∧ g.stash = true ∧ g.base.toNat ≤ base.toNat ∧
    base.toNat + len ≤ g.base.toNat + 64 * g.len64

/-- The span overlaps a mapped one of the team (R206). -/
def SpanTaken (tm : Team) (base : Word) (len : Nat) : Prop := ∃ x ∈ tm.windows, overlap x.base.toNat x.len base.toNat len = true

/-- The check of SpanCovered as SMAP makes it. -/
def anyCovers (s : State) (base : Word) (len : Nat) : Bool :=
  s.part.bindings.any fun b =>
    b.asid == asidOf s.hart && b.stash && b.base.toNat ≤ base.toNat && base.toNat + len ≤ b.base.toNat + 64 * b.len64

theorem anyCovers_iff : anyCovers s base len = true ↔ SpanCovered s base len := by simp [anyCovers, SpanCovered, and_assoc]

section Refusals

variable (hfree : ∀ x ∈ tm.windows, overlap x.off x.len off len = false)
include hfree

theorem smapFail_full (h : 16 ≤ tm.windows.length) : smapFail s (some tm) base len off = some (-2) := by
  have hall : (tm.windows.filter fun w => !overlap w.off w.len off len) = tm.windows := List.filter_eq_self.2 fun w hw => by simp [hfree w hw]
  rw [smapFail, hall, if_pos h]

variable (h16 : ¬ 16 ≤ tm.windows.length)
include h16

/-- Where the team has room, the checks of the record and the span decide. -/
theorem smapFail_room :
    smapFail s (some tm) base len off =
      if base.toNat % 128 ≠ 0 || len % 128 ≠ 0 || len = 0 || off % 128 ≠ 0 || !stashRange s off len then some (-3)
      else if !anyCovers s base len then some (-4)
      else if tm.windows.any fun w => overlap w.base.toNat w.len base.toNat len then some (-5)
      else none := by
  have hall : (tm.windows.filter fun w => !overlap w.off w.len off len) = tm.windows := List.filter_eq_self.2 fun w hw => by simp [hfree w hw]
  rw [smapFail, hall, if_neg h16]
  rfl

theorem smapFail_bad (h : BadWindow s base len off) : smapFail s (some tm) base len off = some (-3) := by
  rw [smapFail_room hfree h16, if_pos]
  simpa [BadWindow, or_assoc] using h

variable (hok : ¬ BadWindow s base len off)
include hok

theorem smapFail_formed :
    smapFail s (some tm) base len off =
      if !anyCovers s base len then some (-4)
      else if tm.windows.any fun w => overlap w.base.toNat w.len base.toNat len then some (-5)
      else none := by
  rw [smapFail_room hfree h16, if_neg]
  simpa [BadWindow, and_assoc] using hok

theorem smapFail_uncovered (h : ¬ SpanCovered s base len) : smapFail s (some tm) base len off = some (-4) := by
  rw [smapFail_formed hfree h16 hok, if_pos]
  rw [Bool.not_eq_true', ← Bool.not_eq_true, anyCovers_iff]
  exact h

variable (hcov : SpanCovered s base len)
include hcov

theorem smapFail_covered :
    smapFail s (some tm) base len off = if tm.windows.any fun w => overlap w.base.toNat w.len base.toNat len then some (-5) else none := by
  rw [smapFail_formed hfree h16 hok, if_neg]
  rw [Bool.not_eq_true', Bool.not_eq_false, anyCovers_iff]
  exact hcov

theorem smapFail_taken (h : SpanTaken tm base len) : smapFail s (some tm) base len off = some (-5) := by
  rw [smapFail_covered hfree h16 hok hcov, if_pos (List.any_eq_true.2 h)]

theorem smapFail_none (h : ¬ SpanTaken tm base len) : smapFail s (some tm) base len off = none := by
  rw [smapFail_covered hfree h16 hok hcov, if_neg fun ha => h (List.any_eq_true.1 ha)]

end Refusals

/-- The binding that the new window's span begins in. -/
theorem exists_bindingAt (hok : ¬ BadWindow s base len off) (hcov : SpanCovered s base len) :
    ∃ g, s.bindingAt (asidOf s.hart) base.toNat = some g := by
  obtain ⟨g, hg, ha, -, hb, hl⟩ := hcov
  rw [← Option.isSome_iff_exists, State.bindingAt, List.find?_isSome]
  have hpos : len ≠ 0 := fun h => hok (.inr (.inr (.inl h)))
  refine ⟨g, hg, ?_⟩
  simp only [Bool.and_eq_true, beq_iff_eq, decide_eq_true_eq]
  exact ⟨⟨ha, hb⟩, by omega⟩

/-- A team of less than 16 windows has a number free, the lowest of which a new window takes. -/
theorem freeWindow_lowest (h : tm.windows.length < 16) :
    (∀ x ∈ tm.windows, x.num ≠ freeWindow tm) ∧ ∀ k < freeWindow tm, ∃ x ∈ tm.windows, x.num = k := by
  have hsome : ((List.range 16).find? fun n => !(tm.windows.any fun w => w.num == n)).isSome := by
    by_contra hnone
    have hall : List.range 16 ⊆ tm.windows.map Window.num := by
      intro n hn
      have htaken := List.find?_eq_none.1 (Option.not_isSome_iff_eq_none.1 hnone) n hn
      simpa using htaken
    have hlen := (List.nodup_range.subperm hall).length_le
    rw [List.length_range, List.length_map] at hlen
    omega
  obtain ⟨n, hn⟩ := Option.isSome_iff_exists.1 hsome
  have hfree : freeWindow tm = n := by rw [freeWindow, hn, Option.getD_some]
  obtain ⟨hp, -, hlow⟩ := List.find?_range_eq_some.1 hn
  rw [hfree]
  exact ⟨by simpa using hp, fun k hk => by simpa using hlow k hk⟩

/-! ## SMAP of a record of plain memory -/

section Exec

variable {a d : XReg} {rec : Nat} {m : Member} (hw : s.site = .w) (ha : (s.rx a).toNat % 16 = 0) (hp : PlainAccess .load s (s.rx a) 16 rec)

/-- The fields of the record that 16 bytes of memory hold (R206). -/
abbrev smapBase (s : State) (rec : Nat) : Word := BitVec.ofNat 64 (s.memNat rec 8)
abbrev smapLen (s : State) (rec : Nat) : Nat := s.memNat (rec + 8) 4
abbrev smapOff (s : State) (rec : Nat) : Nat := s.memNat (rec + 12) 4

theorem smap_fields (s : State) (rec : Nat) :
    recNat (s.bytes rec 16) 0 8 = s.memNat rec 8 ∧ recNat (s.bytes rec 16) 8 4 = smapLen s rec ∧ recNat (s.bytes rec 16) 12 4 = smapOff s rec :=
  ⟨recNat_bytes (by decide), recNat_bytes (by decide), recNat_bytes (by decide)⟩

theorem smapFail_sample (l : List Nat) (o : Option Team) : smapFail (s.sample l) o base len off = smapFail s o base len off := by
  unfold State.sample
  split <;> rfl

theorem team_sample (l : List Nat) :
    ((s.sample l).memberOf (s.sample l).who).bind (fun m => (s.sample l).team? m.team) = (s.memberOf s.who).bind fun m => s.team? m.team := by
  unfold State.sample
  split <;> rfl

include hw ha hp

/-- SMAP that its record refuses answers why, and changes nothing. -/
theorem smap_refused {v : Word}
    (h : smapFail s ((s.memberOf s.who).bind fun m => s.team? m.team) (smapBase s rec) (smapLen s rec) (smapOff s rec) = some v) :
    Yields (.smap d a) s { x := [d] } fun t => t.rx d = if d = 0 then 0 else v := by
  refine ((Effect.sample _ s (accessReads .load s (s.rx a) rec)).trans (.wx _ d v)).mayStall.yields (finish_ok ?_) (by simp)
  rw [run_bind_ok (needWSite_w hw), run_bind_ok (run_get s), run_bind_ok (loadRecord_plain ha hp), run_bind_ok (run_get _)]
  obtain ⟨hbase, hlen, hoff⟩ := smap_fields s rec
  simp only [hbase, hlen, hoff, team_sample, smapFail_sample, h]
  rfl

/-- The state with a window appended to those of a team. -/
def State.addWindow (s : State) (team : BitVec 16) (win : Window) : State :=
  s.modPart fun p => { p with teams := adjust (fun x => x.num == team) (fun x => { x with windows := x.windows ++ [win] }) p.teams }

theorem exec_smap {g : Binding} (hm : s.memberOf s.who = some m) (hteam : s.team? m.team = some tm)
    (hfree : ∀ x ∈ tm.windows, overlap x.off x.len (smapOff s rec) (smapLen s rec) = false)
    (hok : smapFail s (some tm) (smapBase s rec) (smapLen s rec) (smapOff s rec) = none)
    (hg : s.bindingAt (asidOf s.hart) (smapBase s rec).toNat = some g) :
    exec (.smap d a) s =
      let win : Window := ⟨freeWindow tm, smapBase s rec, smapLen s rec, smapOff s rec, g.obj, asidOf s.hart, []⟩
      .next ((((s.sample (accessReads .load s (s.rx a) rec)).addWindow tm.num win).wx d (BitVec.ofNat 64 (freeWindow tm))).mayStall).retire := by
  have hnone : (tm.windows.filter fun w => overlap w.off w.len (smapOff s rec) (smapLen s rec)) = [] :=
    List.filter_eq_nil_iff.2 fun w hw => by simp [hfree w hw]
  refine finish_ok ?_
  rw [run_bind_ok (needWSite_w hw), run_bind_ok (run_get s), run_bind_ok (loadRecord_plain ha hp), run_bind_ok (run_get _)]
  obtain ⟨hbase, hlen, hoff⟩ := smap_fields s rec
  have hteam' : ∀ l, (s.sample l).team? tm.num = some tm := fun l => by
    rw [State.team?, sample_teams, num_of_team? hteam]
    exact hteam
  simp only [hbase, hlen, hoff, team_sample, smapFail_sample, hm, hteam, hok, Option.bind_some, hnone, List.foldl_nil, hteam', Option.getD_some,
    sample_bindingAt, hg, Option.elim_some, sample_hart]
  rfl

/-- SMAP that its record does not refuse maps a window under the lowest free number (R206). -/
theorem smap_maps {g : Binding} (hm : s.memberOf s.who = some m) (hteam : s.team? m.team = some tm)
    (hfree : ∀ x ∈ tm.windows, overlap x.off x.len (smapOff s rec) (smapLen s rec) = false)
    (hok : smapFail s (some tm) (smapBase s rec) (smapLen s rec) (smapOff s rec) = none)
    (hg : s.bindingAt (asidOf s.hart) (smapBase s rec).toNat = some g) :
    ∃ t, exec (.smap d a) s = .next t ∧ RetiredTo s.nextPc s t ∧ SameHart { x := [d] } s t ∧ SameMemory {} s t ∧ t.harts = s.harts ∧
      t.rx d = (if d = 0 then 0 else BitVec.ofNat 64 (freeWindow tm)) ∧
      t.team? m.team = some
        { tm with windows := tm.windows ++ [⟨freeWindow tm, smapBase s rec, smapLen s rec, smapOff s rec, g.obj, asidOf s.hart, []⟩] } := by
  have hexec := exec_smap (d := d) hw ha hp hm hteam hfree hok hg
  set win : Window := ⟨freeWindow tm, smapBase s rec, smapLen s rec, smapOff s rec, g.obj, asidOf s.hart, []⟩
  have hwork : Worked { x := [d] } s ((s.sample (accessReads .load s (s.rx a) rec)).addWindow tm.num win) :=
    (Worked.of_effect (.sample ..)).trans (.of_hart rfl ⟨rfl, rfl, rfl, rfl, rfl⟩)
  obtain ⟨hto, hsame⟩ := (hwork.wx (List.mem_singleton_self d) (BitVec.ofNat 64 (freeWindow tm))).mayStall.retires
  refine ⟨_, hexec, hto, hsame, ⟨fun b _ => ?_, ?_⟩, ?_, ?_, ?_⟩
  · rw [State.byte, State.retire_eq, State.retireTo_mem, mayStall_mem, State.wx_mem]
    exact (congrArg (fun mem => sparseGet 0#8 mem b) (sample_mem s _) :)
  · rw [State.retire_eq, State.retireTo_poison, mayStall_poison, State.wx_poison]
    exact sample_poison s _
  · rw [State.retire_eq, State.retireTo_harts, mayStall_harts, State.wx_harts]
    exact sample_harts s _
  · rw [State.retire_eq, State.retireTo_rx, mayStall_rx, State.rx_wx_same]
    rfl
  · rw [State.team?, State.retire_eq, retireTo_part Part.teams fun _ => rfl, mayStall_part Part.teams fun _ => rfl, State.wx_part]
    refine (State.find?_adjust (f := fun y : Team => { y with windows := y.windows ++ [win] }) (fun _ => rfl) _).trans ?_
    rw [sample_teams]
    refine (congrArg (Option.map _) hteam).trans ?_
    rw [Option.map_some, if_pos (beq_self_eq_true _)]

end Exec

end Sys2Proof.Machine

namespace Sys2Proof
open Machine

/-- Settles O27: SMAP's refusals are smapFail's, one after another, with the record's fields read from memory (smap_refused), and its window is
`smap_maps`; SUNMAP and SFLUSH are `sunmap_unmaps` and `sflush_flushes`. -/
theorem stashWindows : Obligations.StashWindows := by
  unfold Obligations.StashWindows
  intro s d a rec w c hres base len off asid keeps dirtyOf home
  have hw := hres.site
  obtain ⟨-, hc⟩ := hres
  refine ⟨fun ha hp => ⟨fun hm => ?_, fun m tm hm hteam hfree => ?_⟩, sunmap_unknown hw, fun tm x hx => ?_, fun m tm hm hteam => ?_⟩
  · exact smap_refused hw ha hp (by rw [hm]; rfl)
  · intro full bad covered taken
    have hmine : ((s.memberOf s.who).bind fun m => s.team? m.team) = some tm := by rw [hm, Option.bind_some, hteam]
    have refused : ∀ v, smapFail s (some tm) base len off = some v → keeps (.smap d a) v := fun v hv =>
      smap_refused hw ha hp (by rw [hmine]; exact hv)
    refine ⟨fun h => refused _ (smapFail_full hfree h), fun h16 h => refused _ (smapFail_bad hfree h16 h), fun h16 hok h => ?_,
      fun h16 hok hcov h => ?_, fun h16 hok hcov h => ?_⟩
    · exact refused _ (smapFail_uncovered hfree h16 hok h)
    · exact refused _ (smapFail_taken hfree h16 hok hcov h)
    · obtain ⟨g, hg⟩ := exists_bindingAt hok hcov
      obtain ⟨hnew, hlow⟩ := freeWindow_lowest (Nat.not_le.1 h16)
      obtain ⟨t, he, hto, hsame, hmem, hharts, hx, ht⟩ := smap_maps (d := d) hw ha hp hm hteam hfree (smapFail_none hfree h16 hok hcov h) hg
      exact ⟨t, freeWindow tm, g, he, hto, hsame, hmem, hharts, hg, hnew, hlow, hx, ht⟩
  · obtain ⟨t, he, hto, hsame, hrx, hhome, ht⟩ := sunmap_unmaps (d := d) hw hx
    exact ⟨t, he, hto, hsame, hrx, fun hi hp hwc => hhome hi hp c (hwc ▸ hc), ht⟩
  · obtain ⟨t, tm', he, hto, hsame, ht, hhome, hrest⟩ := sflush_flushes (a := a) hw hm hteam
    exact ⟨t, tm', he, hto, hsame, ht, fun hi hp hwc => hhome hi hp c (hwc ▸ hc), hrest⟩

end Sys2Proof
end
section
/-! ## The channels of the copy engines (R88, R200) -/
namespace Sys2Proof.Machine

variable {s t : State} {e ch : Nat} {c : Chan} {f : Chan → Chan}

/-- Channel ch of a W-core with f applied. -/
def WCore.modChan (w : WCore) (ch : Nat) (f : Chan → Chan) : WCore := { w with chans := w.chans.mapIdx fun i c => if i = ch then f c else c }

theorem getElem?_mapIdx_chan {n : Nat} (l : Vector Chan n) (ch k : Nat) (f : Chan → Chan) :
    (l.mapIdx fun i c => if i = ch then f c else c)[k]? = l[k]?.map fun c => if k = ch then f c else c := by simp

/-- A channel changed: the named one becomes what f makes of it, the others stand. -/
theorem chan?_modChan (s : State) (e ch : Nat) (f : Chan → Chan) (e' ch' : Nat) :
    (s.modChan e ch f).chan? e' ch' = (s.chan? e' ch').map fun c => if e' = e ∧ ch' = ch then f c else c := by
  have hid : ∀ o : Option Chan, e' ≠ e → o = o.map fun c => if e' = e ∧ ch' = ch then f c else c := fun o h => by simp [h]
  by_cases he : e < 256 <;> by_cases he' : e' < 256
  · have hmod : s.modChan e ch f = s.modW e fun w => w.modChan ch f := if_pos he
    rw [hmod, State.chan?, State.chan?, if_pos he', if_pos he', State.wcore?_modW (f := fun w => w.modChan ch f) fun _ => rfl]
    cases hw : s.wcore? e' with
    | none => rfl
    | some w =>
      have hn : w.num = e' := State.num_of_wcore? hw
      simp only [Option.map_some, Option.bind_some, hn, beq_iff_eq]
      split
      · rename_i heq
        simp only [WCore.modChan, getElem?_mapIdx_chan, heq, true_and]
      · exact hid _ ‹_›
  · have hmod : s.modChan e ch f = s.modW e fun w => w.modChan ch f := if_pos he
    rw [hmod, State.chan?, State.chan?, if_neg he', if_neg he']
    exact hid _ (by omega)
  · rw [State.modChan, if_neg he, State.chan?, State.chan?, if_pos he', if_pos he']
    exact hid _ (by omega)
  · rw [State.modChan, if_neg he, State.chan?, State.chan?, if_neg he', if_neg he']
    split
    · rename_i h2
      have hl : ((s.part.lce.mapIdx fun j l => if j = e - 256 then l.mapIdx fun i c => if i = ch then f c else c else l)[e' - 256]) =
          if e' - 256 = e - 256 then s.part.lce[e' - 256].mapIdx fun i c => if i = ch then f c else c else s.part.lce[e' - 256] := by simp
      refine (congrArg (fun l : Vector Chan 16 => l[ch']?) hl).trans ?_
      have hiff : e' - 256 = e - 256 ↔ e' = e := by omega
      simp only [hiff]
      split
      · rename_i heq
        simp only [getElem?_mapIdx_chan, heq, true_and]
      · exact hid _ ‹_›
    · rfl

theorem chan?_modChan_same (h : s.chan? e ch = some c) : (s.modChan e ch f).chan? e ch = some (f c) := by
  rw [chan?_modChan, h, Option.map_some, if_pos ⟨rfl, rfl⟩]

theorem chan?_modChan_other {e' ch' : Nat} (h : (e', ch') ≠ (e, ch)) : (s.modChan e ch f).chan? e' ch' = s.chan? e' ch' := by
  rw [chan?_modChan]
  have hne : ¬ (e' = e ∧ ch' = ch) := by simpa using h
  simp [hne]

/-- A channel is one of a W-core or of an L-die. -/
theorem chan?_congr (hw : ∀ n, (t.wcore? n).map WCore.chans = (s.wcore? n).map WCore.chans) (hl : t.part.lce = s.part.lce) :
    t.chan? e ch = s.chan? e ch := by
  have hbind : ∀ v : State, ((v.wcore? e).bind fun w => w.chans[ch]?) = ((v.wcore? e).map WCore.chans).bind fun l => l[ch]? :=
    fun v => by cases v.wcore? e <;> rfl
  rw [State.chan?, State.chan?, hbind, hbind, hw, hl]

theorem Quiet.chan? (h : Quiet s t) (e ch : Nat) : t.chan? e ch = s.chan? e ch :=
  chan?_congr (fun n => by rw [h.wcore?]) (h.part_eq Part.lce fun _ _ => rfl)

section Unchanged

variable (s e ch f)

theorem modChan_mem : (s.modChan e ch f).mem = s.mem := by unfold State.modChan; split <;> rfl
theorem modChan_hart : (s.modChan e ch f).hart = s.hart := by unfold State.modChan; split <;> rfl
theorem modChan_harts : (s.modChan e ch f).harts = s.harts := by unfold State.modChan; split <;> rfl
theorem modChan_copyRel : (s.modChan e ch f).part.copyRel = s.part.copyRel := by unfold State.modChan; split <;> rfl

end Unchanged

end Sys2Proof.Machine
end
section
/-! ## A row of a copy (R87) -/
namespace Sys2Proof.Machine

variable {s t : State} {e ch : Nat} {c : Chan} {r : Req} {rest : List Req} {sp dp : Nat}

/-- An access whose walk ends in memory that it may reach, with no entry to update, is located there. -/
theorem locate_ok {acc : Acc} {x : XMode} {va : Word} {n pa : Nat} (hw : walkOf s x acc va = .ok pa none) (hp : s.physOk pa n = true)
    (ht : acc = .store → s.inTable pa n = false) : locate acc x va n s = (.ok pa, s.sample (tableReads s x va ++ [pa])) := by
  have htable : ¬ (acc = .store ∧ s.inTable pa n = true) := fun ⟨ha, h⟩ => by simp [ht ha] at h
  simp [locate, hw, hp, htable]

/-- An engine finds plain memory at a virtual address (R90, R201). -/
theorem placeOf_mem {acc : Acc} {va : Word} {n pa : Nat} (hoff : s.part.hotEn = false) (hwin : windowOff va = none)
    (hw : walkOf s r.xmode acc va = .ok pa none) (hp : s.physOk pa n = true) (ht : acc = .store → s.inTable pa n = false) :
    placeOf e r acc va n s = (some (.mem pa), s) := by
  simp only [placeOf, hwin, ite_self, locate_ok hw hp ht, sample_off hoff]

/-- Bytes that the request has not written are read as they stand. -/
theorem readPlace_mem (h : r.olds = []) (n i : Nat) : readPlace e r (.mem sp) n i s = (s.bytes (sp + i) n, s) := by
  induction n generalizing i with
  | zero => rfl
  | succ n ih =>
    simp only [readPlace, h, List.find?_nil, ih, State.placeByte]
    rfl

/-- Where no thread holds a byte of its own there is none to bring home. -/
theorem homeDirty_none (hpriv : s.part.priv = []) (hp : s.poison = []) (who : HartId) (p : Place) (n : Nat) : s.homeDirty who p n = s := by
  cases p with
  | sram off => rfl
  | mem pa =>
    simp only [State.homeDirty, State.writeBack, hpriv, State.writeBackAll, State.unpoison, List.filter_nil, List.foldl_nil, hp]
    rw [← hp]

theorem homeRequest_none (hpriv : s.part.priv = []) : s.homeRequest e r = s := by simp [State.homeRequest, hpriv]

theorem overlapCut_apart {n : Nat} (h : sp + n ≤ dp ∨ dp + n ≤ sp) : overlapCut (.mem sp) (.mem dp) n = n := by
  simp only [overlapCut]
  split <;> omega

/-- A channel after a row of r has been written in one piece outside every bound region: what it has overwritten, and the bytes counted. -/
def Chan.wrote (r : Req) (olds : List ((Bool × Nat) × List Byte)) (k : Chan) : Chan :=
  { modHead (fun q => { q with olds := olds, out := r.out }) k with cwp := k.cwp + BitVec.ofNat 64 r.rowlen, boundOut := k.boundOut }

/-- A row whose bytes are all written ends. -/
theorem copyRow_end {fuel n : Nat} (hf : 0 < fuel) (h : r.rowlen ≤ n) :
    copyRow e ch fuel r n s = s.modChan e ch (modHead fun q => { q with row := q.row + 1 }) := by
  obtain ⟨m, rfl⟩ : ∃ m, fuel = m + 1 := ⟨fuel - 1, by omega⟩
  rw [copyRow, if_pos h]

/-- The virtual addresses of the row that a request writes next. -/
def Req.srcRow (r : Req) : Word := r.src + BitVec.ofNat 64 (r.row * r.spitch)
def Req.dstRow (r : Req) : Word := r.dst + BitVec.ofNat 64 (r.row * r.dpitch)

/-- The next row of r lies in one page of memory at its source, from sp on, and at its destination, from dp on, and the two lie apart. -/
structure PlainRow (s : State) (r : Req) (sp dp : Nat) : Prop where
  pos : 0 < r.rowlen
  pages : r.srcRow.toNat % 4096 + r.rowlen ≤ 4096 ∧ r.dstRow.toNat % 4096 + r.rowlen ≤ 4096
  windows : windowOff r.srcRow = none ∧ windowOff r.dstRow = none
  walks : walkOf s r.xmode .load r.srcRow = .ok sp none ∧ walkOf s r.xmode .store r.dstRow = .ok dp none
  phys : s.physOk sp r.rowlen = true ∧ s.physOk dp r.rowlen = true
  table : s.inTable dp r.rowlen = false
  apart : sp + r.rowlen ≤ dp ∨ dp + r.rowlen ≤ sp

/-- A row that lies in one page of memory on each side is written in one piece, where nothing is bound, poisoned or a thread's own. -/
theorem copyRow_one (h : PlainRow s r sp dp) (hpriv : s.part.priv = []) (hpo : s.poison = []) (hoff : s.part.hotEn = false)
    (hb : s.part.bindings = []) (holds : r.olds = []) :
    copyRow e ch (r.rowlen + 1) r 0 s =
      ((s.engineWrite dp (s.bytes sp r.rowlen)).modChan e ch (Chan.wrote r (pushOlds s e (.mem dp) r.rowlen []))).modChan e ch
        (modHead fun q => { q with row := q.row + 1 }) := by
  obtain ⟨hpos, ⟨hs1, hd1⟩, ⟨hsw, hdw⟩, ⟨hsp, hdp⟩, ⟨hs2, hd2⟩, hd3, happ⟩ := h
  have hn : min (r.rowlen - 0) (min (4096 - r.srcRow.toNat % 4096) (4096 - r.dstRow.toNat % 4096)) = r.rowlen := by omega
  have hsrc : r.src + BitVec.ofNat 64 (r.row * r.spitch) = r.srcRow := rfl
  have hdst : r.dst + BitVec.ofNat 64 (r.row * r.dpitch) = r.dstRow := rfl
  have hclean : ∀ n, s.poisoned sp n = false := fun n => by simp [State.poisoned, hpo]
  rw [copyRow, if_neg (by omega)]
  simp only [Nat.add_zero, hsrc, hdst, hn, placeOf_mem hoff hsw hsp hs2 (fun h => nomatch h), homeDirty_none hpriv hpo, hclean,
    Bool.false_eq_true, if_false, placeOf_mem hoff hdw hdp hd2 (fun _ => hd3), overlapCut_apart happ, readPlace_mem holds, hb, holds]
  exact copyRow_end (r := { r with olds := _, out := _ }) hpos (Nat.zero_add r.rowlen).ge

/-- COPY_REQUEST_PERFORM of such a row. -/
theorem exec_copyRequestPerform (hc : s.chan? e ch = some c) (hq : c.queue = r :: rest) (hrun : s.engineRuns e = true) (hrow : r.row < r.rows)
    (h : PlainRow s r sp dp) (hpriv : s.part.priv = []) (hpo : s.poison = []) (hoff : s.part.hotEn = false) (hb : s.part.bindings = [])
    (holds : r.olds = []) :
    exec (.copyRequestPerform e ch) s =
      .next (((s.engineWrite dp (s.bytes sp r.rowlen)).modChan e ch (Chan.wrote r (pushOlds s e (.mem dp) r.rowlen []))).modChan e ch
        (modHead fun q => { q with row := q.row + 1 })) := by
  show execCopyRequestPerform e ch s = _
  simp only [execCopyRequestPerform, hc, hq, hrun, hrow, decide_true, Bool.and_self, if_true, homeRequest_none hpriv, ite_self,
    copyRow_one h hpriv hpo hoff hb holds]

theorem copyRequestPerform_row (hi : s.Inv) (hc : s.chan? e ch = some c) (hq : c.queue = r :: rest) (hrun : s.engineRuns e = true)
    (hrow : r.row < r.rows) (h : PlainRow s r sp dp) (hpriv : s.part.priv = []) (hpo : s.poison = []) (hoff : s.part.hotEn = false)
    (hb : s.part.bindings = []) (holds : r.olds = []) :
    ∃ t c' r', exec (.copyRequestPerform e ch) s = .next t ∧ t.bytes dp r.rowlen = s.bytes sp r.rowlen ∧
      (∀ a, (a < dp ∨ dp + r.rowlen ≤ a) → t.byte a = s.byte a) ∧ t.chan? e ch = some c' ∧ c'.queue = r' :: rest ∧
      r'.row = r.row + 1 ∧ r'.seq = r.seq ∧ c'.cwp = c.cwp + BitVec.ofNat 64 r.rowlen ∧ c'.seq = c.seq ∧ c'.status = c.status ∧
      SameHart { resv := true, watch := true } s t := by
  have hexec := exec_copyRequestPerform hc hq hrun hrow h hpriv hpo hoff hb holds
  have hlen : (s.bytes sp r.rowlen).length = r.rowlen := sparseGets_length ..
  have hwrite := bytes_engineWrite (pa := dp) (bs := s.bytes sp r.rowlen) hi hpo
  have hout := fun a => byte_engineWrite (s := s) (pa := dp) (bs := s.bytes sp r.rowlen) (a := a)
  have hsame := (Worked.of_loose (w := { resv := true, watch := true }) (Sent.engineWrite s dp (s.bytes sp r.rowlen)).loose rfl rfl).same
  have hchan : (s.engineWrite dp (s.bytes sp r.rowlen)).chan? e ch = some c := (Quiet.engineWrite ..).chan? e ch |>.trans hc
  rw [hlen] at hwrite hout
  generalize s.engineWrite dp (s.bytes sp r.rowlen) = u at *
  refine ⟨_, _, { r with olds := pushOlds s e (.mem dp) r.rowlen [], row := r.row + 1 }, hexec, ?_, fun a ha => ?_,
    chan?_modChan_same (chan?_modChan_same hchan), ?_, rfl, rfl, ?_, ?_, ?_, ?_⟩
  · rw [State.bytes, modChan_mem, modChan_mem]
    exact hwrite
  · rw [State.byte, modChan_mem, modChan_mem]
    exact hout a ha
  · simp [Chan.wrote, modHead, hq]
  · simp [Chan.wrote, modHead, hq]
  · simp [Chan.wrote, modHead, hq]
  · simp [Chan.wrote, modHead, hq]
  · exact hsame.trans (sameHart_of_eq (by rw [modChan_hart, modChan_hart]))

end Sys2Proof.Machine
end
section
/-! ## The completion of a request (R88, R89) -/
namespace Sys2Proof.Machine

variable {s t : State} {e ch : Nat} {c : Chan} {r : Req} {rest : List Req} {obj : Nat}

theorem copyDone_chan (hc : s.chan? e ch = some c) (hq : c.queue = r :: rest) :
    (s.copyDone e ch).chan? e ch = some { c with queue := rest, status := ((r.seq, 0) :: c.status).take 1024 } := by
  rw [State.copyDone, chan?_modChan_same hc, hq]

section Completion

variable (hc : s.chan? e ch = some c) (hq : c.queue = r :: rest) (hrun : s.engineRuns e = true) (hrow : r.rows ≤ r.row)
include hc hq hrun hrow

theorem exec_copyCompletion_plain (hb : r.barrier = 0) : exec (.copyCompletion e ch) s = .next (s.copyDone e ch) := by
  show execCopyCompletion e ch s = _
  simp [execCopyCompletion, hc, hq, hrun, Nat.not_lt.2 hrow, hb]

theorem exec_copyCompletion_arrives (hb : r.barrier ≠ 0) (hw : walkOf s r.xmode .store r.barrier = .ok obj none)
    (hp : s.physOk obj 32 = true) (ht : s.inTable obj 32 = false) (hpo : s.poison = []) (hbind : s.bindingAt r.asid r.barrier.toNat = none) :
    ∃ l, exec (.copyCompletion e ch) s = .next (((s.sample l).copyArrive e ch obj r).copyDone e ch) := by
  refine ⟨tableReads s r.xmode r.barrier ++ [obj], ?_⟩
  have hb' : ¬ r.barrier = 0#64 := hb
  show execCopyCompletion e ch s = _
  simp [execCopyCompletion, hc, hq, hrun, Nat.not_lt.2 hrow, hb', locate_ok hw hp (fun _ => ht), hbind, State.poisoned, hpo]

end Completion

/-- The state whose object a request's writes are released with (R89). -/
abbrev State.releasing (s : State) (e ch obj : Nat) (r : Req) : State :=
  s.modW e (WCore.modWrites (fun u => u.src == some ⟨r.who, ch, r.seq⟩) fun u => { u with objs := obj :: u.objs })

/-- An arrival writes the object's four words at once (R192). -/
theorem copyArrive_eq (s : State) (e ch obj : Nat) (r : Req) :
    let w := arriveWith (r.rows * r.rowlen) (s.objWord obj 1, s.objWord obj 2, s.objWord obj 3)
    s.copyArrive e ch obj r =
      ((s.releasing e ch obj r).engineWrite obj (wordBytes [s.objWord obj 0 + 1, w.1, w.2.1, w.2.2])).modPart fun p =>
        { p with copyRel := p.copyRel ++ r.out.map fun x => (obj, x.1, x.2) } := by
  simp [State.copyArrive, wordBytes]

theorem releasing_chan (s : State) (e ch obj : Nat) (r : Req) (e' ch' : Nat) : (s.releasing e ch obj r).chan? e' ch' = s.chan? e' ch' := by
  refine chan?_congr (fun n => ?_) rfl
  rw [State.releasing, State.wcore?_modW (f := WCore.modWrites _ _) fun _ => rfl, Option.map_map]
  congr 1
  funext w
  simp only [Function.comp]
  split <;> rfl

/-- What an arrival leaves of memory, of the current hart and of the channels. -/
theorem copyArrive_arrives (hi : s.Inv) (hpo : s.poison = []) (e ch obj : Nat) (r : Req) (hpos : 0 < r.rows * r.rowlen) :
    let t := s.copyArrive e ch obj r
    let n := s.objWord obj 3 + BitVec.ofNat 64 (r.rows * r.rowlen)
    let w2 := s.objWord obj 2
    t.objWord obj 0 = s.objWord obj 0 + 1 ∧ t.objWord obj 3 = n ∧ (t.objWord obj 1).toNat = n.toNat / (if w2 = 0 then 1 else w2.toNat) ∧
      t.objWord obj 2 = w2 ∧ (∀ a, (a < obj ∨ obj + 32 ≤ a) → t.byte a = s.byte a) ∧ Worked { resv := true, watch := true } s t ∧
      (∀ e' ch', t.chan? e' ch' = s.chan? e' ch') ∧ t.part.copyRel = s.part.copyRel ++ r.out.map fun x => (obj, x.1, x.2) := by
  intro t n w2
  have ht : t = _ := copyArrive_eq s e ch obj r
  generalize hws : [s.objWord obj 0 + 1, _, _, _] = ws at ht
  have hw := WroteWords.engineWrite (s := s.releasing e ch obj r) (State.inv_of_mem rfl hi) hpo obj ws
  have hloose := (Sent.engineWrite (s.releasing e ch obj r) obj (wordBytes ws)).loose
  have hchan := fun e' ch' => (Quiet.engineWrite (s.releasing e ch obj r) obj (wordBytes ws)).chan? e' ch'
  have hrel : ((s.releasing e ch obj r).engineWrite obj (wordBytes ws)).part.copyRel = s.part.copyRel :=
    (Quiet.engineWrite (s.releasing e ch obj r) obj (wordBytes ws)).part_eq Part.copyRel fun _ _ => rfl
  generalize (s.releasing e ch obj r).engineWrite obj (wordBytes ws) = u at *
  have h4 : ws.length = 4 := by rw [← hws]; rfl
  have hword : ∀ i (h : i < 4), t.objWord obj i = ws[i]'(h4 ▸ h) := fun i h => by
    rw [ht]
    exact (objWord_of_mem rfl obj i).trans (hw.word (h4 ▸ h))
  subst hws
  have hne : r.rows * r.rowlen ≠ 0 := by omega
  refine ⟨hword 0 (by decide), (hword 3 (by decide)).trans (arriveWith_third hne),
    (congrArg BitVec.toNat (hword 1 (by decide))).trans (arriveWith_first hne), (hword 2 (by decide)).trans (arriveWith_second ..),
    fun a ha => ?_, ?_, fun e' ch' => ?_, ?_⟩
  · rw [ht]
    exact hw.out a ha
  · rw [ht]
    have hnamed : Worked { resv := true, watch := true } s (s.releasing e ch obj r) := .of_hart rfl ⟨rfl, rfl, rfl, rfl, rfl⟩
    exact (hnamed.trans (.of_loose hloose rfl rfl)).trans (.of_hart rfl ⟨rfl, rfl, rfl, rfl, rfl⟩)
  · rw [ht]
    exact (hchan e' ch').trans (releasing_chan ..)
  · rw [ht]
    exact congrArg (· ++ _) hrel

end Sys2Proof.Machine

namespace Sys2Proof
open Machine

/-- Settles O26: a row is one piece (copyRow_one), whose bytes are the write's; a completion ends the head request (copyDone_chan), after the
arrival of `copyArrive_arrives` where the request names an object. -/
theorem copyRowAndCompletion : Obligations.CopyRowAndCompletion := by
  unfold Obligations.CopyRowAndCompletion
  intro s e ch c r rest hi hc hq hrun src dst
  refine ⟨?_, fun hrow hb => ?_, ?_⟩
  · intro sp dp hrow hpos hs1 hd1 hsw hdw hb hpriv hpo hoff holds hsp hdp hs2 hd2 hd3 happ
    exact copyRequestPerform_row hi hc hq hrun hrow ⟨hpos, ⟨hs1, hd1⟩, ⟨hsw, hdw⟩, ⟨hsp, hdp⟩, ⟨hs2, hd2⟩, hd3, happ⟩ hpriv hpo hoff hb
      holds
  · exact ⟨_, exec_copyCompletion_plain hc hq hrun hrow hb, modChan_mem .., modChan_hart .., modChan_harts .., copyDone_chan hc hq,
      fun e' ch' h => chan?_modChan_other h⟩
  · intro obj hrow hb hpos hw hp ht hpo hbind n w2
    obtain ⟨l, hexec⟩ := exec_copyCompletion_arrives hc hq hrun hrow hb hw hp ht hpo hbind
    obtain ⟨h0, h3, h1, h2, hout, hwork, hchan, hrel⟩ :=
      copyArrive_arrives (State.sample_inv (l := l) hi) ((sample_poison ..).trans hpo) e ch obj r hpos
    have hmem : (((s.sample l).copyArrive e ch obj r).copyDone e ch).mem = _ := modChan_mem ..
    simp only [sample_objWord, sample_byte] at h0 h3 h1 h2 hout
    refine ⟨_, hexec, (objWord_of_mem hmem obj 0).trans h0, (objWord_of_mem hmem obj 3).trans h3, ?_, (objWord_of_mem hmem obj 2).trans h2,
      fun a ha => ?_, ?_, ?_, ?_⟩
    · rw [objWord_of_mem hmem]
      exact h1
    · rw [State.byte, hmem]
      exact hout a ha
    · exact ((Worked.of_effect (.sample ..)).trans hwork).same.trans (sameHart_of_eq (modChan_hart ..))
    · exact copyDone_chan ((hchan e ch).trans (((Quiet.sample s l).chan? e ch).trans hc)) hq
    · exact (modChan_copyRel ..).trans (hrel.trans (congrArg (· ++ _) ((Quiet.sample s l).part_eq Part.copyRel fun _ _ => rfl)))

end Sys2Proof
end
section
/-! ## Results in f registers, and the effective rounding mode (R96, R103, R105) -/
namespace Sys2Proof.Machine

variable {s : State} {rm : Option (BitVec 3)} {r : Rnd}

theorem withRnd_ok (h : effRnd s rm = some r) (word : BitVec 32) : withRnd word rm s = .ok r s := by simp only [withRnd, h]

theorem Effect.putF (s : State) (fmt : Fmt) (d : FReg) (v : FRes) : Effect { f := [d], fflags := true } s (s.putF fmt d v) :=
  ((Effect.wf s d _).within {}).trans ((Effect.accrue _ _).within {})

@[simp] theorem putF_rf (s : State) (fmt : Fmt) (d : FReg) (v : FRes) : (s.putF fmt d v).rf d = boxOf fmt v.bits :=
  State.rf_wf_same s d _

@[simp] theorem putF_fflags (s : State) (fmt : Fmt) (d : FReg) (v : FRes) :
    (s.putF fmt d v).hart.u.fflags = s.hart.u.fflags ||| v.flags := rfl

@[simp] theorem putF_zaflags (s : State) (fmt : Fmt) (d : FReg) (v : FRes) : (s.putF fmt d v).hart.u.zaflags = s.hart.u.zaflags := rfl

end Sys2Proof.Machine
end
section
/-! ## NCVT, WCVT and FSCL.S (R108 to R111, R239 to R241) -/
namespace Sys2Proof.Machine

variable {s : State} {i : Sys2Proof.Instr} {word : BitVec 32} {r : Rnd} {a : FReg}

/-! ## Narrowing -/

/-- The FP32 code that a narrowing of f[a] reads (R107, R108). -/
abbrev narrowCode (s : State) (a : FReg) : Nat := s.dazCode .s (s.fs a)

/-- What a narrowing of the source code to n leaves in x[d] and in the flags (R108, R110, R111). -/
def NarrowedTo (s : State) (d : XReg) (code : Nat) (n : Narrow) (t : State) : Prop :=
  t.rx d = (if d = 0 then 0 else BitVec.ofNat 64 n.bits) ∧ t.hart.u.fflags = s.hart.u.fflags ||| n.flags ∧
  t.hart.u.zaflags = s.hart.u.zaflags ||| n.za ∧ t.hart.u.zamax = zamaxNext s.hart.u.zamax (unpack fp32 code) code

theorem narrowedTo_narrowed (d : XReg) (n : Narrow) (code : Nat) : NarrowedTo s d code n ((s.wx d (BitVec.ofNat 64 n.bits)).narrowed n code) := by
  have hx : ((s.wx d (BitVec.ofNat 64 n.bits)).narrowed n code).rx d = (s.wx d (BitVec.ofNat 64 n.bits)).rx d := rfl
  refine ⟨hx.trans (State.rx_wx_same ..), ?_⟩
  rcases s.wx_cases d (BitVec.ofNat 64 n.bits) with h | h <;> rw [h] <;> exact ⟨rfl, rfl, rfl⟩

theorem NarrowedTo.retireTo {d : XReg} {code : Nat} {n : Narrow} {t : State} {npc : Word} (h : NarrowedTo s d code n t) :
    NarrowedTo s d code n (t.retireTo npc) := by simpa [NarrowedTo] using h

/-- A narrowing conversion writes what its rule makes of the value it reads. -/
theorem ncvtM_yields {conv : State → Rnd → Fp → Narrow} {d : XReg} {x : Fp} {n : Narrow} (hr : effRnd s none = some r)
    (hx : unpack fp32 (narrowCode s a) = x) (hi : exec i s = ncvtM word conv d a s) (hn : conv s r x = n) :
    Yields i s { x := [d], fflags := true, zaflags := true, zamax := true } (NarrowedTo s d (narrowCode s a) n) := by
  subst hx hn
  exact (((Effect.wx s d _).within {}).trans ((Effect.narrowed _ _ _).within {})).yields
    (hi.trans (finish_ok (run_bind_ok (withRnd_ok hr word)))) (narrowedTo_narrowed ..).retireTo

/-! ## The special cases of R108's table -/

/-- Without an overflow NCVT.E5 follows the IEEE rules (R108). -/
theorem narrowE5_eq_ieee {x : Fp} (h : (narrowIeee fp8e5 r false x).flags &&& flagOF = 0) : narrowE5 r x = narrowIeee fp8e5 r false x := by
  simp [narrowE5, h]

section Table

variable (q g : Bool)

theorem narrowSat_fp8e4_nan : narrowSat fp8e4 r (.nan q) = ⟨0x7F, if q then 16 else 0, 1⟩ := rfl
theorem narrowSat_fp8e5_nan : narrowSat fp8e5 r (.nan q) = ⟨0x7E, if q then 16 else 0, 1⟩ := rfl
theorem narrowE5_nan : narrowE5 r (.nan q) = ⟨0x7E, if q then 16 else 0, 1⟩ :=
  narrowE5_eq_ieee (show (if q then flagNV else 0) &&& flagOF = 0 by cases q <;> decide)
theorem narrowIeee_bf16_nan (ftz : Bool) : narrowIeee bf16 r ftz (.nan q) = ⟨0x7FC0, if q then 16 else 0, 1⟩ := rfl
theorem narrowIeee_fp16_nan (ftz : Bool) : narrowIeee fp16 r ftz (.nan q) = ⟨0x7E00, if q then 16 else 0, 1⟩ := rfl
theorem narrowByte_nan (lo hi : Int) : narrowByte lo hi r (.nan q) = ⟨0, 16, 1⟩ := rfl

theorem narrowSat_fp8e4_inf : narrowSat fp8e4 r (.inf g) = ⟨(if g then 0x80 else 0) + 0x7E, 0, 2⟩ := by cases g <;> rfl
theorem narrowSat_fp8e5_inf : narrowSat fp8e5 r (.inf g) = ⟨(if g then 0x80 else 0) + 0x7B, 0, 2⟩ := by cases g <;> rfl
theorem narrowE5_inf : narrowE5 r (.inf g) = ⟨(if g then 0x80 else 0) + 0x7C, 0, 0⟩ :=
  (narrowE5_eq_ieee (x := .inf g) (show 0 &&& flagOF = 0 by decide)).trans (by cases g <;> rfl)
theorem narrowIeee_bf16_inf (ftz : Bool) : narrowIeee bf16 r ftz (.inf g) = ⟨256 * (if g then 0x80 else 0) + 0x7F80, 0, 0⟩ := by
  cases g <;> rfl
theorem narrowIeee_fp16_inf (ftz : Bool) : narrowIeee fp16 r ftz (.inf g) = ⟨256 * (if g then 0x80 else 0) + 0x7C00, 0, 0⟩ := by
  cases g <;> rfl
theorem narrowByte_signed_inf : narrowByte (-128) 127 r (.inf g) = ⟨if g then 0x80 else 0x7F, 16, 2⟩ := by cases g <;> rfl
theorem narrowByte_unsigned_inf : narrowByte 0 255 r (.inf g) = ⟨if g then 0 else 255, 16, 2⟩ := by cases g <;> rfl

end Table

/-! ## Widening -/

/-- WCVT of a small format: the code's value, which FP32 holds, and NANSEEN (R109, R111). -/
theorem widenF_yields {t : Fmt2} {daz ftz : Bool} {fd : FReg} {code : Nat} (hi : exec i s = .next (s.widenF t daz ftz fd code).retire) :
    let x := if daz then (unpack t code).daz t else unpack t code
    let v := roundFp fp32 .rne ftz x
    Yields i s { f := [fd], fflags := true, zaflags := true } fun u =>
      u.rf fd = nanBox v.bits ∧ u.hart.u.fflags = s.hart.u.fflags ||| v.flags ∧
        u.hart.u.zaflags = s.hart.u.zaflags ||| (if x.isNan then 1 else 0) := by
  intro x v
  refine (Effect.widenF s t daz ftz fd code).yields hi ?_
  simp only [State.retireTo_rf, State.retireTo_hart]
  exact ⟨State.rf_wf_same s fd _, rfl, rfl⟩

/-- WCVT of an integer byte: no NaN is seen (R109). -/
theorem widenByte_yields {fd : FReg} {v : FRes} (hi : exec i s = .next (s.putF .s fd v).retire) :
    Yields i s { f := [fd], fflags := true, zaflags := true } fun u =>
      u.rf fd = nanBox v.bits ∧ u.hart.u.fflags = s.hart.u.fflags ||| v.flags ∧ u.hart.u.zaflags = s.hart.u.zaflags ||| 0 :=
  ((Effect.putF s .s fd v).within {}).yields hi (by simp [boxOf])

/-! ## FSCL.S -/

theorem clampScale_eq (v : Int) : clampScale v = max (-1024) (min 1024 v) := by
  unfold clampScale
  split
  · omega
  · split <;> omega

theorem fsclS_yields {fd : FReg} {xb : XReg} (hr : effRnd s none = some r) :
    let f := fpScale fp32 r s.hart.u.ftz32 (s.valS a) (clampScale (s.rx xb).toInt)
    Yields (.fsclS fd a xb) s { f := [fd], fflags := true } fun t => t.rf fd = nanBox f.bits ∧ t.hart.u.fflags = s.hart.u.fflags ||| f.flags :=
  (Effect.putF s .s fd _).yields (finish_ok (run_bind_ok (withRnd_ok hr _))) (by simp [boxOf, State.ftz])

end Sys2Proof.Machine

namespace Sys2Proof
open Machine

/-- Settles O36: a narrowing writes what its rule makes of the value read (ncvtM_yields), R108's table being the rules' own cases; a widening
gives the exact value (widenF_yields). -/
theorem formatConversions : Obligations.FormatConversions := by
  unfold Obligations.FormatConversions
  intro s d fd a xa xb r hr code x narrows widens low nv
  refine ⟨⟨?_, ?_, ?_, ?_, ?_, ?_, ?_⟩, fun q hx => ⟨?_, ?_, ?_, ?_, ?_, ?_, ?_⟩, fun g hx => ?_, ?_, ?_⟩
  · exact ncvtM_yields hr rfl rfl rfl
  · exact ncvtM_yields hr rfl rfl rfl
  · exact ncvtM_yields hr rfl rfl rfl
  · exact ncvtM_yields hr rfl rfl rfl
  · exact ncvtM_yields hr rfl rfl rfl
  · exact ncvtM_yields hr rfl rfl rfl
  · exact ncvtM_yields hr rfl rfl rfl
  · exact ncvtM_yields hr hx rfl (narrowSat_fp8e4_nan q)
  · exact ncvtM_yields hr hx rfl (narrowE5_nan q)
  · exact ncvtM_yields hr hx rfl (narrowSat_fp8e5_nan q)
  · exact ncvtM_yields hr hx rfl (narrowIeee_bf16_nan q _)
  · exact ncvtM_yields hr hx rfl (narrowIeee_fp16_nan q _)
  · exact ncvtM_yields hr hx rfl (narrowByte_nan q _ _)
  · exact ncvtM_yields hr hx rfl (narrowByte_nan q _ _)
  · intro sign
    exact ⟨ncvtM_yields hr hx rfl (narrowSat_fp8e4_inf g), ncvtM_yields hr hx rfl (narrowE5_inf g),
      ncvtM_yields hr hx rfl (narrowSat_fp8e5_inf g),
      ncvtM_yields hr hx rfl (narrowIeee_bf16_inf g _),
      ncvtM_yields hr hx rfl (narrowIeee_fp16_inf g _),
      ncvtM_yields hr hx rfl (narrowByte_signed_inf g),
      ncvtM_yields hr hx rfl (narrowByte_unsigned_inf g)⟩
  · intro bf hf e4 e5
    refine ⟨?_, ?_, ?_, ?_, ?_, ?_⟩
    · exact widenF_yields (t := fp8e4) (daz := false) rfl
    · exact widenF_yields (t := fp8e5) (daz := false) rfl
    · exact widenF_yields (t := bf16) rfl
    · exact widenF_yields (t := fp16) rfl
    · exact widenByte_yields rfl
    · exact widenByte_yields rfl
  · have h := fsclS_yields (a := a) (fd := fd) (xb := xb) hr
    rw [clampScale_eq] at h
    generalize s.valS a = v at h ⊢
    cases v <;> exact h

end Sys2Proof
end
section
/-! ## Codes by their magnitude (R95) -/
namespace Sys2Proof.Machine

variable {t : Fmt2} {a b : Nat}

/-- The sign of a code. -/
def Fmt2.neg (t : Fmt2) (code : Nat) : Bool := decide (code / t.signBit % 2 = 1)

/-- A code without its sign. -/
def Fmt2.mag (t : Fmt2) (code : Nat) : Nat := code % t.signBit

/-- A format whose all-ones exponent is of infinities and NaNs. -/
def Fmt2.Ieee (t : Fmt2) : Prop := t.ext = false ∧ 0 < t.ew

theorem ieee_formatOf (fmt : Fmt) : (formatOf fmt).Ieee := by cases fmt <;> exact ⟨rfl, by decide⟩

/-- Codes rise with their values: zeros, subnormals, normals, infinities, NaNs (R95). -/
theorem unpack_eq_mag (h : t.Ieee) (code : Nat) :
    unpack t code =
      if t.mag code = 0 then .zero (t.neg code)
      else if t.mag code < 2 ^ t.fw then .fin (t.neg code) (t.mag code) t.qmin
      else if t.mag code < t.infBits then
        .fin (t.neg code) (2 ^ t.fw + t.mag code % 2 ^ t.fw) (t.qmin + ((t.mag code / 2 ^ t.fw : Nat) : Int) - 1)
      else if t.mag code = t.infBits then .inf (t.neg code)
      else .nan (decide (t.mag code < t.nanBits)) := by
  obtain ⟨hext, hew⟩ := h
  have hQ : 2 ≤ 2 ^ t.ew := Nat.pow_le_pow_right (n := 2) (by decide) hew
  have hE : code / 2 ^ t.fw % 2 ^ t.ew < 2 ^ t.ew := Nat.mod_lt _ (Nat.two_pow_pos _)
  have hF : code % 2 ^ t.fw < 2 ^ t.fw := Nat.mod_lt _ (Nat.two_pow_pos _)
  have hmag : t.mag code = code % 2 ^ t.fw + 2 ^ t.fw * (code / 2 ^ t.fw % 2 ^ t.ew) := by
    rw [Fmt2.mag, Fmt2.signBit, Nat.add_comm t.ew, Nat.pow_add, Nat.mod_mul]
  have hinf : t.infBits = 2 ^ t.fw * (2 ^ t.ew - 1) := by rw [Fmt2.infBits, Fmt2.emaxF, Nat.mul_comm]
  have hnan : t.nanBits = t.infBits + 2 ^ (t.fw - 1) := by rw [Fmt2.nanBits, hext]; rfl
  have hmod : t.mag code % 2 ^ t.fw = code % 2 ^ t.fw := by rw [hmag, Nat.add_mul_mod_self_left, Nat.mod_mod]
  have hdiv : t.mag code / 2 ^ t.fw = code / 2 ^ t.fw % 2 ^ t.ew := by
    rw [hmag, Nat.add_mul_div_left _ _ (Nat.two_pow_pos _), Nat.div_eq_of_lt hF, Nat.zero_add]
  have hunpack : unpack t code =
      if code / 2 ^ t.fw % 2 ^ t.ew = 2 ^ t.ew - 1 then
        (if code % 2 ^ t.fw = 0 then .inf (t.neg code) else .nan (decide (code % 2 ^ t.fw < 2 ^ (t.fw - 1))))
      else if code / 2 ^ t.fw % 2 ^ t.ew = 0 then
        (if code % 2 ^ t.fw = 0 then .zero (t.neg code) else .fin (t.neg code) (code % 2 ^ t.fw) t.qmin)
      else .fin (t.neg code) (2 ^ t.fw + code % 2 ^ t.fw) (t.qmin + ((code / 2 ^ t.fw % 2 ^ t.ew : Nat) : Int) - 1) := by
    by_cases htop : code / 2 ^ t.fw % 2 ^ t.ew = 2 ^ t.ew - 1 <;> simp [unpack, hext, Fmt2.emaxF, Fmt2.neg, htop]
  rw [hunpack, hmod, hdiv, hnan, hinf, hmag]
  generalize code / 2 ^ t.fw % 2 ^ t.ew = E at *
  generalize code % 2 ^ t.fw = F at *
  generalize 2 ^ t.ew = Q at *
  generalize 2 ^ (t.fw - 1) = H at *
  generalize 2 ^ t.fw = P at *
  rcases Nat.eq_zero_or_pos E with h0 | h0
  · subst h0
    have : ¬ 0 = Q - 1 := by omega
    simp [this, hF]
  · have hP : P ≤ P * E := Nat.le_mul_of_pos_right _ h0
    rcases Nat.lt_or_ge E (Q - 1) with h1 | h1
    · have hlt : F + P * E < P * (Q - 1) :=
        calc F + P * E < P + P * E := by omega
          _ = P * (E + 1) := by ring
          _ ≤ P * (Q - 1) := Nat.mul_le_mul_left _ h1
      have hne : ¬ F + P * E = 0 := by omega
      have hnl : ¬ F + P * E < P := by omega
      rw [if_neg (by omega), if_neg (by omega), if_neg hne, if_neg hnl, if_pos hlt]
    · obtain rfl : E = Q - 1 := by omega
      have hne : ¬ F + P * (Q - 1) = 0 := by omega
      have hnl : ¬ F + P * (Q - 1) < P := by omega
      have hni : ¬ F + P * (Q - 1) < P * (Q - 1) := by omega
      have hinf : F + P * (Q - 1) = P * (Q - 1) ↔ F = 0 := by omega
      have hq : F + P * (Q - 1) < P * (Q - 1) + H ↔ F < H := by omega
      simp only [if_true, if_neg hne, if_neg hnl, if_neg hni, hinf, hq]

/-- A code is its sign and its magnitude. -/
theorem code_eq_sign_add_mag {code : Nat} (hc : code < 2 * t.signBit) : code = signOf t (t.neg code) + t.mag code := by
  have hdm := Nat.div_add_mod code t.signBit
  have hlt : code / t.signBit < 2 := Nat.div_lt_of_lt_mul (by omega)
  rw [signOf, Fmt2.mag, Fmt2.neg]
  generalize code / t.signBit = q at hdm hlt ⊢
  obtain rfl | rfl : q = 0 ∨ q = 1 := by omega
  · simpa using hdm.symm
  · simpa using hdm.symm

/-- The code of a value that a format holds; the canonical one of a NaN. -/
def codeOf (t : Fmt2) : Fp → Nat
  | .nan _ => t.nanBits
  | .inf g => signOf t g + t.infBits
  | .zero g => signOf t g
  | .fin g m e => signOf t g + packFin t m e

/-- A code is that of its value, unless this is a NaN. -/
theorem codeOf_unpack (h : t.Ieee) {code : Nat} (hc : code < 2 * t.signBit) (hn : (unpack t code).isNan = false) :
    codeOf t (unpack t code) = code := by
  have hcode := code_eq_sign_add_mag hc
  have hdm := Nat.div_add_mod (t.mag code) (2 ^ t.fw)
  rw [unpack_eq_mag h] at hn ⊢
  split_ifs at hn ⊢ with h0 h1 h2 h3
  · rw [codeOf]
    omega
  · rw [codeOf, packFin, if_pos h1, ← hcode]
  · have hE : 1 ≤ t.mag code / 2 ^ t.fw := (Nat.one_le_div_iff (Nat.two_pow_pos _)).2 (Nat.not_lt.1 h1)
    have hq : (t.qmin + ((t.mag code / 2 ^ t.fw : Nat) : Int) - 1 - t.qmin).toNat + 1 = t.mag code / 2 ^ t.fw := by omega
    rw [codeOf, packFin, if_neg (by omega), hq, Nat.mul_comm, Nat.add_sub_cancel_left, hdm, ← hcode]
  · rw [codeOf, ← h3, ← hcode]
  · cases hn

/-! ## One value, one code -/

/-- A finite value as a code of the format gives it: a significand below the normal ones has the least exponent. -/
def Fp.Scaled (t : Fmt2) : Fp → Prop
  | .fin _ m e => t.qmin ≤ e ∧ m < 2 * 2 ^ t.fw ∧ (m < 2 ^ t.fw → e = t.qmin)
  | _ => True

theorem scaled_unpack (h : t.Ieee) (code : Nat) : (unpack t code).Scaled t := by
  have hF : t.mag code % 2 ^ t.fw < 2 ^ t.fw := Nat.mod_lt _ (Nat.two_pow_pos _)
  rw [unpack_eq_mag h]
  split_ifs with h0 h1 h2 h3
  · exact trivial
  · exact ⟨le_refl _, by omega, fun _ => rfl⟩
  · have hE : 1 ≤ t.mag code / 2 ^ t.fw := (Nat.one_le_div_iff (Nat.two_pow_pos _)).2 (Nat.not_lt.1 h1)
    exact ⟨by omega, by omega, fun hlt => by omega⟩
  · exact trivial
  · exact trivial

/-- Of two magnitudes equal in value the one with the greater exponent would be no significand of the format. -/
theorem scaled_exponent_le {m n : Nat} {e f : Int} {g g' : Bool} (hm : (Fp.fin g m e).Scaled t) (hn : (Fp.fin g' n f).Scaled t)
    (h : e < f) : m ≠ n * 2 ^ (f - e).toNat := by
  obtain ⟨hqe, hm2, -⟩ := hm
  obtain ⟨-, -, hn1⟩ := hn
  have hn1 : 2 ^ t.fw ≤ n := Nat.not_lt.1 fun hlt => by have := hn1 hlt; omega
  have h2 : 2 ≤ 2 ^ (f - e).toNat := Nat.pow_le_pow_right (n := 2) (by decide) (show 1 ≤ (f - e).toNat by omega)
  have := Nat.mul_le_mul hn1 h2
  omega

/-- Two magnitudes at their smaller exponent are equal where neither is below the other. -/
theorem alignAdd_balanced {g : Bool} {m n : Nat} {e f : Int} (hef : e ≤ f) (h1 : 0 ≤ (alignAdd g m e (!g) n f).1)
    (h2 : 0 ≤ (alignAdd g n f (!g) m e).1) : m = n * 2 ^ (f - e).toNat := by
  have hmin : (if f ≤ e then f else e) = e := by split <;> omega
  simp only [alignAdd, if_pos hef, hmin, sub_self, Int.toNat_zero, pow_zero, Nat.mul_one] at h1 h2
  cases g <;> simp only [Bool.not_true, Bool.not_false, Bool.false_eq_true, if_true, if_false] at h1 h2 <;> omega

/-- Equal values of one sign are the same. -/
theorem eq_of_fpEq {x y : Fp} (hx : x.Scaled t) (hy : y.Scaled t) (h : fpEq x y = true) (hs : x.neg = y.neg) : x = y := by
  cases x <;> cases y <;> simp [fpEq, fpLt, Fp.isNan, Fp.neg] at h hs ⊢
  case inf.inf => exact hs
  case zero.zero => exact hs
  case fin.fin g m e g' n f =>
    subst hs
    obtain ⟨h1, h2⟩ := h
    rcases lt_trichotomy e f with hlt | rfl | hlt
    · exact absurd (alignAdd_balanced hlt.le h1 h2) (scaled_exponent_le hx hy hlt)
    · simpa using alignAdd_balanced le_rfl h1 h2
    · exact absurd (alignAdd_balanced hlt.le h2 h1) (scaled_exponent_le hy hx hlt)

/-- Codes of equal values of one sign are the same. -/
theorem code_eq_of_fpEq (h : t.Ieee) (ha : a < 2 * t.signBit) (hb : b < 2 * t.signBit) (heq : fpEq (unpack t a) (unpack t b) = true)
    (hs : (unpack t a).neg = (unpack t b).neg) : a = b := by
  have hnan : (unpack t a).isNan = false ∧ (unpack t b).isNan = false := by
    simp only [fpEq, Bool.and_eq_true, Bool.not_eq_true'] at heq
    exact heq.1.1
  rw [← codeOf_unpack h ha hnan.1, ← codeOf_unpack h hb hnan.2, eq_of_fpEq (scaled_unpack h a) (scaled_unpack h b) heq hs]

/-! ## FMIN and FMAX (R105, R115) -/

section MinMax

variable {isMax : Bool} {fl : BitVec 5} {x y : Fp} (hfl : (if x.isSnan || y.isSnan then 16 else 0) = fl)
include hfl

theorem fpMinMax_nans (hx : x.isNan = true) (hy : y.isNan = true) : fpMinMax t isMax a b x y = ⟨t.nanBits, fl⟩ := by
  simp [fpMinMax, hx, hy, ← hfl, flagNV]

theorem fpMinMax_nan_left (hx : x.isNan = true) (hy : y.isNan = false) : fpMinMax t isMax a b x y = ⟨b, fl⟩ := by
  simp [fpMinMax, hx, hy, ← hfl, flagNV]

theorem fpMinMax_nan_right (hx : x.isNan = false) (hy : y.isNan = true) : fpMinMax t isMax a b x y = ⟨a, fl⟩ := by
  simp [fpMinMax, hx, hy, ← hfl, flagNV]

/-- Neither operand is a NaN: the lesser or the greater code, −0.0 below +0.0. -/
theorem fpMinMax_numbers (hx : x.isNan = false) (hy : y.isNan = false) :
    fpMinMax t isMax a b x y =
      ⟨if (fpLt x y || (fpEq x y && x.neg && !y.neg)) != isMax then a else b, fl⟩ := by
  simp only [fpMinMax, hx, hy, ← hfl, flagNV, Bool.and_false, Bool.false_eq_true, if_false]
  cases isMax <;> cases (fpLt x y || (fpEq x y && x.neg && !y.neg)) <;> rfl

theorem fpMinMax_least (hx : x.isNan = false) (hy : y.isNan = false) (hcode : fpEq x y = true → x.neg = y.neg → a = b)
    (h : fpLt x y = true ∨ fpEq x y = true ∧ x.neg = true) : fpMinMax t isMax a b x y = ⟨if isMax then b else a, fl⟩ := by
  rw [fpMinMax_numbers hfl hx hy]
  rcases h with h | ⟨h, hn⟩
  · cases isMax <;> simp [h]
  · cases hy' : y.neg with
    | false => cases isMax <;> simp [h, hn]
    | true => rw [hcode h (hn.trans hy'.symm), ite_self, ite_self]

theorem fpMinMax_not_least (hx : x.isNan = false) (hy : y.isNan = false) (h : ¬ (fpLt x y = true ∨ fpEq x y = true ∧ x.neg = true)) :
    fpMinMax t isMax a b x y = ⟨if isMax then a else b, fl⟩ := by
  have hlt : (fpLt x y || (fpEq x y && x.neg && !y.neg)) = false := by
    rw [not_or, not_and, Bool.not_eq_true, Bool.not_eq_true] at h
    obtain ⟨h1, h2⟩ := h
    cases he : fpEq x y with
    | false => simp [h1]
    | true => simp [h1, h2 he]
  rw [fpMinMax_numbers hfl hx hy, hlt]
  cases isMax <;> rfl

end MinMax

/-! ## FCLASS and FSGNJ -/

theorem two_pow_le_infBits (h : 2 ≤ t.ew) : 2 ^ t.fw ≤ t.infBits := by
  have : 2 ^ 2 ≤ 2 ^ t.ew := Nat.pow_le_pow_right (by decide) h
  rw [Fmt2.infBits, Fmt2.emaxF]
  exact Nat.le_mul_of_pos_left _ (by omega)

/-- The class of a code by its sign and its magnitude. -/
theorem fclassOf_word (h : t.Ieee) (hew : 2 ≤ t.ew) (code : Nat) :
    1#64 <<< fclassOf t code =
      if t.mag code = t.infBits then (if t.neg code then 0x001 else 0x080)
      else if t.nanBits ≤ t.mag code then 0x200 else if t.infBits < t.mag code then 0x100
      else if t.mag code = 0 then (if t.neg code then 0x008 else 0x010)
      else if t.mag code < 2 ^ t.fw then (if t.neg code then 0x004 else 0x020)
      else if t.neg code then 0x002 else 0x040 := by
  have hinf := two_pow_le_infBits hew
  have hnan : t.infBits ≤ t.nanBits := by rw [Fmt2.nanBits, h.1]; exact Nat.le_add_right _ _
  have hpos := Nat.two_pow_pos t.fw
  rw [fclassOf, unpack_eq_mag h]
  by_cases h0 : t.mag code = 0
  · rw [if_pos h0, if_neg (by omega), if_neg (by omega), if_neg (by omega), if_pos h0]
    cases t.neg code <;> rfl
  by_cases h1 : t.mag code < 2 ^ t.fw
  · rw [if_neg h0, if_pos h1, if_neg (by omega), if_neg (by omega), if_neg (by omega), if_neg h0, if_pos h1]
    cases t.neg code <;> simp [h1]
  by_cases h2 : t.mag code < t.infBits
  · rw [if_neg h0, if_neg h1, if_pos h2, if_neg (by omega), if_neg (by omega), if_neg (by omega), if_neg h0, if_neg h1]
    cases t.neg code <;> simp
  by_cases h3 : t.mag code = t.infBits
  · rw [if_neg h0, if_neg h1, if_neg h2, if_pos h3, if_pos h3]
    cases t.neg code <;> rfl
  · rw [if_neg h0, if_neg h1, if_neg h2, if_neg h3, if_neg h3, if_pos (show t.infBits < t.mag code by omega)]
    by_cases h4 : t.nanBits ≤ t.mag code
    · rw [if_pos h4, decide_eq_false (by omega)]
      rfl
    · rw [if_neg h4, decide_eq_true (by omega)]
      rfl

/-- The sign that a sign injection gives, from the signs of its operands. -/
def injectedSign : FSgnOp → Bool → Bool → Bool
  | .sgnj, _, g => g
  | .sgnjn, _, g => !g
  | .sgnjx, f, g => f != g

/-- A sign injection keeps the magnitude and takes a sign. -/
theorem fsgnOf_eq (op : FSgnOp) (a b : Nat) :
    fsgnOf op t a b = t.mag a + if injectedSign op (t.neg a) (t.neg b) then t.signBit else 0 := by
  have ha : a / t.signBit % 2 = 0 ∨ a / t.signBit % 2 = 1 := by omega
  have hb : b / t.signBit % 2 = 0 ∨ b / t.signBit % 2 = 1 := by omega
  unfold fsgnOf
  rw [Nat.add_comm, Fmt2.mag]
  cases op <;> rcases ha with ha | ha <;> rcases hb with hb | hb <;> simp [injectedSign, Fmt2.neg, ha, hb]

end Sys2Proof.Machine
end
section
/-! ## F and D instructions (R96, R103, R105, R107, R118) -/
namespace Sys2Proof.Machine

variable {s g : State} {c : Option (BitVec 16)} {fmt : Fmt} {d a b e : FReg} {xd xa : XReg} {m : BitVec 3} {r : Rnd}

/-! ## Operands -/

/-- A subnormal code read as zero (R107). -/
theorem daz_unpack {t : Fmt2} (h : t.Ieee) (code : Nat) :
    (unpack t code).daz t = unpack t (if t.mag code < 2 ^ t.fw then code / t.signBit * t.signBit else code) := by
  have hpos : 0 < t.signBit := Nat.two_pow_pos _
  by_cases h1 : t.mag code < 2 ^ t.fw
  · have hmag : t.mag (code / t.signBit * t.signBit) = 0 := Nat.mul_mod_left ..
    have hneg : t.neg (code / t.signBit * t.signBit) = t.neg code := by rw [Fmt2.neg, Nat.mul_div_cancel _ hpos, Fmt2.neg]
    rw [if_pos h1, unpack_eq_mag h, unpack_eq_mag h (code / t.signBit * t.signBit), if_pos hmag, hneg]
    by_cases h0 : t.mag code = 0
    · rw [if_pos h0]
      rfl
    · rw [if_neg h0, if_pos h1]
      simp [Fp.daz, h1]
  · have hfw := Nat.two_pow_pos t.fw
    rw [if_neg h1, unpack_eq_mag h, if_neg (by omega), if_neg h1]
    split_ifs
    · simp [Fp.daz]
    · rfl
    · rfl

/-- The operand that an instruction reads is the value of the code that FMIN and FMAX pass on (R96, R107). -/
theorem fval_eq_unpack (s : State) (fmt : Fmt) (a : FReg) : s.fval fmt a = unpack (formatOf fmt) (s.dazCode fmt (s.fcode fmt a)) := by
  cases fmt with
  | d => rfl
  | s =>
    show dazS s (unpack fp32 (s.fs a)) = unpack fp32 (s.dazCode .s (s.fs a))
    cases hd : s.hart.u.daz32 with
    | false => simp [dazS, State.dazCode, hd]
    | true =>
      have h : (unpack fp32 (s.fs a)).daz fp32 = _ := daz_unpack (ieee_formatOf .s) (s.fs a)
      simp only [dazS, State.dazCode, hd, Bool.true_and, decide_eq_true_eq, if_true, h]
      rfl

theorem unbox_lt (v : Word) : unbox v < 2 ^ 32 := by
  unfold unbox
  split
  · exact BitVec.isLt _
  · decide

theorem fcode_lt (s : State) (fmt : Fmt) (a : FReg) : s.fcode fmt a < 2 * (formatOf fmt).signBit := by
  cases fmt with
  | s => exact unbox_lt _
  | d => exact (s.rf a).isLt

theorem dazCode_lt (s : State) (fmt : Fmt) (a : FReg) : s.dazCode fmt (s.fcode fmt a) < 2 * (formatOf fmt).signBit := by
  refine lt_of_le_of_lt ?_ (fcode_lt s fmt a)
  cases fmt with
  | d => exact le_refl _
  | s =>
    unfold State.dazCode
    dsimp only
    split
    · exact Nat.div_mul_le_self ..
    · exact le_refl _

/-! ## What the instructions do -/

theorem needFs_ok (h : fsOn s = true) (word : BitVec 32) : needFs word s = .ok () s := by simp [needFs, needPriv, h]

section Exec

variable (hfs : fsOn s = true)
include hfs

theorem exec_fminmax (isMax : Bool) : exec (.base c (.fminmax isMax fmt d a b)) s =
    .next ((s.putF fmt d (fpMinMax (formatOf fmt) isMax (s.dazCode fmt (s.fcode fmt a)) (s.dazCode fmt (s.fcode fmt b))
      (s.fval fmt a) (s.fval fmt b))).retire c) := by
  rw [fval_eq_unpack, fval_eq_unpack]
  exact finish_ok (run_bind_ok (needFs_ok hfs _))

theorem exec_fsgn (op : FSgnOp) : exec (.base c (.fsgn op fmt d a b)) s =
    .next ((s.wf d (boxOf fmt (fsgnOf op (formatOf fmt) (s.fcode fmt a) (s.fcode fmt b)))).retire c) :=
  finish_ok (run_bind_ok (needFs_ok hfs _))

theorem exec_fcmp (op : FCmpOp) : exec (.base c (.fcmp op fmt xd a b)) s =
    .next (((s.wx xd (flagWord (fcmpOf op (s.fval fmt a) (s.fval fmt b)).1)).accrue (fcmpOf op (s.fval fmt a) (s.fval fmt b)).2).retire c) :=
  finish_ok (run_bind_ok (needFs_ok hfs _))

theorem exec_fclass : exec (.base c (.fclass fmt xd a)) s =
    .next ((s.wx xd (1#64 <<< fclassOf (formatOf fmt) (s.fcode fmt a))).retire c) :=
  finish_ok (run_bind_ok (needFs_ok hfs _))

theorem exec_fmvToX_s : exec (.base c (.fmvToX .s xd a)) s = .next ((s.wx xd (sx32 (lo32 (s.rf a)))).retire c) :=
  finish_ok (run_bind_ok (needFs_ok hfs _))

theorem exec_fmvToX_d : exec (.base c (.fmvToX .d xd a)) s = .next ((s.wx xd (s.rf a)).retire c) :=
  finish_ok (run_bind_ok (needFs_ok hfs _))

theorem exec_fmvFromX_s : exec (.base c (.fmvFromX .s d xa)) s = .next ((s.wf d (nanBox (lo32 (s.rx xa)).toNat)).retire c) :=
  finish_ok (run_bind_ok (needFs_ok hfs _))

theorem exec_fmvFromX_d : exec (.base c (.fmvFromX .d d xa)) s = .next ((s.wf d (s.rx xa)).retire c) :=
  finish_ok (run_bind_ok (needFs_ok hfs _))

variable (hr : effRnd s (some m) = some r)
include hr

theorem exec_farith (op : FArithOp) : exec (.base c (.farith op fmt d a b m)) s =
    .next ((s.putF fmt d (farithOf op (formatOf fmt) r (s.ftz fmt) (s.fval fmt a) (s.fval fmt b))).retire c) :=
  finish_ok ((run_bind_ok (needFs_ok hfs _)).trans (run_bind_ok (withRnd_ok hr _)))

theorem exec_fsqrt : exec (.base c (.fsqrt fmt d a m)) s =
    .next ((s.putF fmt d (fpSqrt (formatOf fmt) r (s.ftz fmt) (s.fval fmt a))).retire c) :=
  finish_ok ((run_bind_ok (needFs_ok hfs _)).trans (run_bind_ok (withRnd_ok hr _)))

theorem exec_fma (op : FmaOp) : exec (.base c (.fma op fmt d a b e m)) s =
    .next ((s.putF fmt d (fmaOf op (formatOf fmt) r (s.ftz fmt) (s.fval fmt a) (s.fval fmt b) (s.fval fmt e))).retire c) :=
  finish_ok ((run_bind_ok (needFs_ok hfs _)).trans (run_bind_ok (withRnd_ok hr _)))

theorem exec_fcvtToInt (ty : IntTy) :
    let v := fpToInt r (intBounds ty).1 (intBounds ty).2 (s.fval fmt a)
    exec (.base c (.fcvtToInt ty fmt xd a m)) s = .next (((s.wx xd (intWord ty v.1)).accrue v.2).retire c) :=
  finish_ok ((run_bind_ok (needFs_ok hfs _)).trans (run_bind_ok (withRnd_ok hr _)))

theorem exec_fcvtFromInt (ty : IntTy) : exec (.base c (.fcvtFromInt ty fmt d xa m)) s =
    .next ((s.putF fmt d (intToFp (formatOf fmt) r (s.ftz fmt) (wordInt ty (s.rx xa)))).retire c) :=
  finish_ok ((run_bind_ok (needFs_ok hfs _)).trans (run_bind_ok (withRnd_ok hr _)))

theorem exec_fcvtSD : exec (.base c (.fcvtSD d a m)) s = .next ((s.putF .s d (roundFp fp32 r (s.ftz .s) (s.valD a))).retire c) :=
  finish_ok ((run_bind_ok (needFs_ok hfs _)).trans (run_bind_ok (withRnd_ok hr _)))

theorem exec_fcvtDS : exec (.base c (.fcvtDS d a m)) s = .next ((s.putF .d d (roundFp fp64 r false (s.valS a))).retire c) :=
  finish_ok ((run_bind_ok (needFs_ok hfs _)).trans (run_bind_ok (withRnd_ok hr _)))

end Exec

/-! ## Completion -/

/-- An instruction of the base profile that retires after its effect completes. -/
theorem Effect.yieldsTo {w : Writes} {i : Sys2Proof.Instr} {R : State → Prop} (h : Effect w s g) (he : exec i s = .next (g.retire c))
    (hR : R (g.retireTo (s.pc + s.ilen c))) : YieldsTo (s.pc + s.ilen c) i s w R := by
  have hp : g.pfx = s.pfx := h.frame.2.2.2.2.2.1
  have hil : g.ilen c = s.ilen c := by simp [State.ilen, hp]
  refine .of_effect (he.trans ?_) h.frame h.instret h.cycle h.sup hR
  rw [State.retire_eq, h.pc, hil]

/-- A result in f[d] with its flags. -/
def FResult (s : State) (fmt : Fmt) (d : FReg) (v : FRes) (u : State) : Prop :=
  u.rf d = boxOf fmt v.bits ∧ u.hart.u.fflags = s.hart.u.fflags ||| v.flags

/-- A result in x[d] with its flags. -/
def XResult (s : State) (d : XReg) (v : Word) (fl : BitVec 5) (u : State) : Prop :=
  u.rx d = (if d = 0 then 0 else v) ∧ u.hart.u.fflags = s.hart.u.fflags ||| fl

section Completes

variable {i : BaseInstr} {v : FRes} {w : Word} {fl : BitVec 5}

theorem putF_yieldsTo (he : exec (.base c i) s = .next ((s.putF fmt d v).retire c)) :
    YieldsTo (s.pc + s.ilen c) (.base c i) s { f := [d], fflags := true } (FResult s fmt d v) :=
  (Effect.putF s fmt d v).yieldsTo he (by simp [FResult])

/-- A move to f[d] raises no flag. -/
theorem wf_yieldsTo (he : exec (.base c i) s = .next ((s.wf d w).retire c)) {n : Nat} (hw : w = boxOf fmt n) :
    YieldsTo (s.pc + s.ilen c) (.base c i) s { f := [d], fflags := true } (FResult s fmt d ⟨n, 0⟩) :=
  ((Effect.wf s d w).within {}).yieldsTo he ⟨by simp [hw], by simp [State.wf]⟩

theorem wx_accrue_yieldsTo (he : exec (.base c i) s = .next (((s.wx xd w).accrue fl).retire c)) :
    YieldsTo (s.pc + s.ilen c) (.base c i) s { x := [xd], fflags := true } (XResult s xd w fl) := by
  have hx : ((s.wx xd w).accrue fl).rx xd = (s.wx xd w).rx xd := rfl
  refine (((Effect.wx s xd w).within {}).trans ((Effect.accrue _ fl).within {})).yieldsTo he ⟨?_, ?_⟩
  · rw [State.retireTo_rx, hx]
    exact State.rx_wx_same ..
  · rw [State.retireTo_hart]
    rcases s.wx_cases xd w with h | h <;> rw [h] <;> rfl

/-- A move to x[d] raises no flag. -/
theorem wx_yieldsTo (he : exec (.base c i) s = .next ((s.wx xd w).retire c)) :
    YieldsTo (s.pc + s.ilen c) (.base c i) s { x := [xd], fflags := true } (XResult s xd w 0) := by
  refine ((Effect.wx s xd w).within {}).yieldsTo he ⟨by simp, ?_⟩
  rw [State.retireTo_hart]
  rcases s.wx_cases xd w with h | h <;> rw [h] <;> simp

end Completes

/-- A comparison answers whether it holds, and raises NV where it is invalid. -/
theorem fcmp_yieldsTo (hfs : fsOn s = true) {op : FCmpOp} {P Q : Prop} {v : Bool} {q : Bool}
    (hop : fcmpOf op (s.fval fmt a) (s.fval fmt b) = (v, if q then flagNV else 0)) (hv : v = true ↔ P) (hq : q = true ↔ Q) :
    let gives (w : Word) (fl : BitVec 5) : Prop :=
      YieldsTo (s.pc + s.ilen c) (.base c (.fcmp op fmt xd a b)) s { x := [xd], fflags := true } (XResult s xd w fl)
    (P → ¬ Q → gives 1 0) ∧ (¬ P → ¬ Q → gives 0 0) ∧ (P → Q → gives 1 16) ∧ (¬ P → Q → gives 0 16) := by
  intro gives
  have h : gives (flagWord v) (if q then 16 else 0) := wx_accrue_yieldsTo (by rw [exec_fcmp hfs op, hop]; rfl)
  rw [← hv, ← hq]
  cases v <;> cases q <;> simpa [flagWord] using h

end Sys2Proof.Machine
end
section
namespace Sys2Proof
open Machine

/-- Settles O34: each instruction writes what its equation says (exec_farith and the others). FMIN and FMAX pass on one operand's code, equal values
of one sign having one code (code_eq_of_fpEq); FSGNJ and FCLASS speak of a code's sign and magnitude (fsgnOf_eq, fclassOf_word). -/
theorem floatArithmetic : Obligations.FloatArithmetic := by
  unfold Obligations.FloatArithmetic
  intro s c fmt d a b e xd xa m r hfs hr t z x y w writes gives nan snan compares
  refine ⟨⟨?_, ?_, ?_, ?_, ?_⟩, ⟨?_, ?_, ?_, ?_⟩, ⟨?_, ?_, ?_⟩, fun ty => ⟨?_, ?_⟩, ⟨?_, ?_⟩, ⟨?_, ?_, ?_, ?_⟩, ?_, ?_⟩
  · exact putF_yieldsTo (exec_farith hfs hr .add)
  · exact putF_yieldsTo (exec_farith hfs hr .sub)
  · exact putF_yieldsTo (exec_farith hfs hr .mul)
  · exact putF_yieldsTo (exec_farith hfs hr .div)
  · exact putF_yieldsTo (exec_fsqrt hfs hr)
  · exact putF_yieldsTo (exec_fma hfs hr .madd)
  · exact putF_yieldsTo (exec_fma hfs hr .msub)
  · exact putF_yieldsTo (exec_fma hfs hr .nmsub)
  · exact putF_yieldsTo (exec_fma hfs hr .nmadd)
  · exact fcmp_yieldsTo hfs rfl Iff.rfl (by simp [snan, x, y])
  · exact fcmp_yieldsTo hfs rfl (by simp [nan, x, y]) (by simp [nan, x, y])
  · exact fcmp_yieldsTo hfs rfl (by simp [nan, x, y]) (by simp [nan, x, y])
  · exact wx_accrue_yieldsTo (exec_fcvtToInt hfs hr ty)
  · exact putF_yieldsTo (exec_fcvtFromInt hfs hr ty)
  · exact putF_yieldsTo (exec_fcvtSD hfs hr)
  · exact putF_yieldsTo (exec_fcvtDS hfs hr)
  · exact wx_yieldsTo (exec_fmvToX_s hfs)
  · exact wx_yieldsTo (exec_fmvToX_d hfs)
  · exact wf_yieldsTo (exec_fmvFromX_s hfs) (by simp [boxOf, lo32])
  · exact wf_yieldsTo (exec_fmvFromX_d hfs) (by simp [boxOf])
  · intro ca cb fl least picks isMax
    have hpicks : ∀ v, fpMinMax t isMax ca cb x y = ⟨v, fl⟩ → picks isMax v := fun v hv =>
      putF_yieldsTo (by rw [exec_fminmax hfs isMax]; rw [← hv])
    have hcode : fpEq x y = true → x.neg = y.neg → ca = cb := by
      simp only [x, y, fval_eq_unpack]
      exact code_eq_of_fpEq (ieee_formatOf fmt) (dazCode_lt s fmt a) (dazCode_lt s fmt b)
    refine ⟨fun hx hy => ?_, fun hx hy => ?_, fun hx hy => ?_, fun hn h => ?_, fun hn h => ?_⟩
    · exact hpicks _ (fpMinMax_nans rfl hx hy)
    · exact hpicks _ (fpMinMax_nan_left rfl hx hy)
    · exact hpicks _ (fpMinMax_nan_right rfl hx hy)
    · obtain ⟨hx, hy⟩ := not_or.1 hn
      exact hpicks _ (fpMinMax_least rfl (Bool.not_eq_true _ |>.mp hx) (Bool.not_eq_true _ |>.mp hy) hcode h)
    · obtain ⟨hx, hy⟩ := not_or.1 hn
      exact hpicks _ (fpMinMax_not_least rfl (Bool.not_eq_true _ |>.mp hx) (Bool.not_eq_true _ |>.mp hy) h)
  · intro ca cb n mag sign signed inf quiet least g
    have hn : t.signBit = 2 ^ n := by cases fmt <;> rfl
    have hinf : t.infBits = inf := by
      cases fmt with
      | s => exact (by decide : fp32.infBits = 0x7F800000)
      | d => exact (by decide : fp64.infBits = 0x7FF0000000000000)
    have hquiet : t.nanBits = quiet := by
      cases fmt with
      | s => exact (by decide : fp32.nanBits = 0x7FC00000)
      | d => exact (by decide : fp64.nanBits = 0x7FF8000000000000)
    have hleast : 2 ^ t.fw = least := by cases fmt <;> rfl
    have hmag : t.mag ca = mag := by rw [Fmt2.mag, hn]
    have hsign : ∀ v, t.neg v = sign v := fun v => by
      rw [Fmt2.neg, hn]
      exact Nat.testBit_eq_decide_div_mod_eq.symm
    have hsgn : ∀ op, writes (.fsgn op fmt d a b) fmt (signed (injectedSign op (sign ca) (sign cb))) := fun op =>
      wf_yieldsTo (exec_fsgn hfs op) (congrArg _ ((fsgnOf_eq (t := t) op ca cb).trans (by rw [hsign, hsign, hmag, hn])))
    have hclass := fclassOf_word (ieee_formatOf fmt) (by cases fmt <;> decide) ca
    refine ⟨hsgn .sgnj, hsgn .sgnjn, hsgn .sgnjx, wx_yieldsTo ?_⟩
    rw [exec_fclass hfs, hclass]
    simp only [← hinf, ← hquiet, ← hleast, ← hmag, g, ← hsign]
    rfl

end Sys2Proof
end
section
/-! ## A cross-lane instruction executed for its set (R44, R160) -/
namespace Sys2Proof.Machine

/-! ## Harts of distinct names changed one after another -/

/-- Changes of distinct harts, each by a function that the changes leave as it is, are one change of all harts. -/
theorem State.foldl_modHart_distinct {α : Type} {s : State} {name : α → HartId} {G : State → α → Hart → Hart}
    (hid : ∀ t a y, (G t a y).id = y.id) (hG : ∀ t f, G (mapHarts f t) = G t) {l : List α} (hn : (l.map name).Nodup) :
    l.foldl (fun (t : State) a => t.modHart (name a) (G t a)) s =
      s.mapHarts fun y => ((l.find? fun a => name a == y.id).map fun a => G s a y).getD y := by
  induction l generalizing s with
  | nil => exact s.mapHarts_id.symm
  | cons a l ih =>
    rw [List.map_cons, List.nodup_cons] at hn
    rw [List.foldl_cons, ih hn.2, modHart_eq_mapHarts, hG, mapHarts_mapHarts]
    congr 1
    funext y
    by_cases hy : y.id = name a
    · have hnone : (l.find? fun b => name b == name a) = none :=
        List.find?_eq_none.2 fun b hb he => hn.1 (eq_of_beq he ▸ List.mem_map_of_mem hb)
      simp [hy, hid, hnone]
    · simp [hy, Ne.symm hy]

theorem State.mapHarts_congr {s : State} {f g : Hart → Hart} (h : ∀ y ∈ s.allHarts, f y = g y) : s.mapHarts f = s.mapHarts g := by
  simp only [mapHarts, h s.hart List.mem_cons_self, List.map_congr_left fun y hy => h y (List.mem_cons_of_mem _ hy)]

/-! ## Lanes out of their groups -/

/-- t differs from s in the groups of the issue slots alone. -/
structure Regrouped (s t : State) : Prop where
  hart : t.hart = s.hart
  harts : t.harts = s.harts
  mem : t.mem = s.mem
  poison : t.poison = s.poison
  pkg : t.pkg = s.pkg
  still : t.part.still = s.part.still
  own : SameOwn s t

theorem Regrouped.refl (s : State) : Regrouped s s := ⟨rfl, rfl, rfl, rfl, rfl, rfl, rfl, rfl, rfl, rfl, rfl⟩

theorem Regrouped.trans {s t u : State} (h1 : Regrouped s t) (h2 : Regrouped t u) : Regrouped s u :=
  ⟨h2.hart.trans h1.hart, h2.harts.trans h1.harts, h2.mem.trans h1.mem, h2.poison.trans h1.poison, h2.pkg.trans h1.pkg,
    h2.still.trans h1.still, h1.own.trans h2.own⟩

theorem Regrouped.leaveGroup (s : State) (ctx w : Nat) (ends : Bool) : Regrouped s (s.leaveGroup ctx w ends) :=
  ⟨rfl, rfl, rfl, rfl, rfl, leaveGroup_still s ctx w ends, rfl, rfl, rfl, rfl, rfl⟩

theorem Regrouped.foldl {α : Type} {f : State → α → State} (hf : ∀ t a, Regrouped t (f t a)) (l : List α) (s : State) :
    Regrouped s (l.foldl f s) := by
  induction l generalizing s with
  | nil => exact refl s
  | cons a l ih => exact (hf s a).trans (ih _)

theorem Regrouped.allHarts {s t : State} (h : Regrouped s t) : t.allHarts = s.allHarts := by rw [State.allHarts, h.hart, h.harts, State.allHarts]

/-- The lanes of a set taken out of their groups. -/
def State.lanesLeave (s : State) (ls : List Lane) : State :=
  ls.foldl (fun (t : State) l =>
    match l.id, (t.hart? l.id).bind (·.car) with
    | .wthread ctx, some c => t.leaveGroup ctx c.core true
    | _, _ => t) s

theorem regrouped_lanesLeave (s : State) (ls : List Lane) : Regrouped s (s.lanesLeave ls) := by
  refine Regrouped.foldl (fun t l => ?_) ls s
  split
  · exact .leaveGroup ..
  · exact .refl t

/-! ## The lanes of a set -/

/-- The lane that a hart is of the current thread's set. -/
def State.laneOf (s : State) (h : Hart) : Lane := ⟨vlaneOf s h, h.id, h.u, guardTrue s.pfx h.u⟩

/-- A hart after the instruction, which gives each lane of the set a user state: a member passes it, another hart is as it was. -/
def State.laneAfter (s : State) (F : Lane → User) (h : Hart) : Hart :=
  if s.inMySet h then Hart.laneNext (s.ilen none) s.pkg.zaclk.toNat s.part.w32 (F (s.laneOf h)) h else h

section Lanes

variable {s : State} {F : Lane → User} {h : Hart}

theorem mem_mySet : h ∈ s.mySet ↔ h ∈ s.allHarts ∧ s.inMySet h = true := List.mem_filter

theorem laneAfter_id : (s.laneAfter F h).id = h.id := by
  unfold State.laneAfter
  split <;> rfl

theorem laneAfter_residentOn (w : Nat) : (s.laneAfter F h).residentOn w = h.residentOn w := by
  unfold State.laneAfter
  split
  · simp only [Hart.residentOn, Hart.laneNext]
    cases h.car <;> rfl
  · rfl

/-- A hart on a W-core is active after the instruction when it was, or when it is of the set. -/
theorem laneAfter_active {w : Nat} (hr : h.residentOn w = true) :
    (s.laneAfter F h).car.any Car.active = (h.car.any Car.active || s.inMySet h) := by
  unfold State.laneAfter
  cases hs : s.inMySet h with
  | false => simp
  | true =>
    cases hc : h.car with
    | none => simp [Hart.residentOn, hc] at hr
    | some c => simp [Hart.laneNext, hc]

variable (hd : s.NamesDistinct)
include hd

theorem find?_lanes (hh : h ∈ s.allHarts) : (s.lanes.find? fun l => l.id == h.id) = if s.inMySet h then some (s.laneOf h) else none := by
  have hlanes : s.lanes = s.mySet.map s.laneOf := rfl
  have hsame : ∀ g ∈ s.mySet, g.id = h.id → g = h := fun g hg he => List.inj_on_of_nodup_map hd (mem_mySet.1 hg).1 hh he
  rw [hlanes, List.find?_map]
  split
  · next hin =>
    cases hf : s.mySet.find? ((fun l : Lane => l.id == h.id) ∘ s.laneOf) with
    | none => exact absurd (List.find?_eq_none.1 hf h (mem_mySet.2 ⟨hh, hin⟩)) (by simp [State.laneOf])
    | some g => rw [hsame g (List.mem_of_find?_eq_some hf) (by simpa [State.laneOf] using List.find?_some hf)]; rfl
  · next hin =>
    rw [Option.map_eq_none_iff, List.find?_eq_none]
    intro g hg he
    have he : g.id = h.id := by simpa [State.laneOf] using he
    exact hin (hsame g hg he ▸ (mem_mySet.1 hg).2)

/-- The instruction performed for the set: its lanes leave their groups, and each member passes it; contexts that the register file cannot
hold go to their park slots. -/
theorem crossPerform_eq {c : Car} (hc : s.hart.car = some c) (f : Nat → List Lane → Lane → User) (zero : User → User) :
    s.crossPerform f zero =
      ((s.lanesLeave s.lanes).mapHarts
        (s.laneAfter (laneUser (s.pfx.any (·.mz)) (setwOf s s.hart) s.lanes f zero))).parkContexts c.core := by
  have hr := regrouped_lanesLeave s s.lanes
  have hmz : (match s.pfx with | some p => p.mz | none => false) = s.pfx.any (·.mz) := by cases s.pfx <;> rfl
  have hw32 : (s.lanesLeave s.lanes).part.w32 = s.part.w32 := (congrArg Part.w32 hr.still :)
  have hnames : (s.lanes.map Lane.id).Nodup := by
    have he : s.lanes.map Lane.id = s.mySet.map Hart.id := by simp [State.lanes, Function.comp_def]
    rw [he]
    exact hd.sublist (List.filter_sublist.map _)
  have hfold := State.foldl_modHart_distinct (s := s.lanesLeave s.lanes) (name := Lane.id)
    (G := fun (t : State) l => Hart.laneNext (s.ilen none) t.pkg.zaclk.toNat t.part.w32
      (laneUser (s.pfx.any (·.mz)) (setwOf s s.hart) s.lanes f zero l)) (fun _ _ _ => rfl) (fun _ _ => rfl) hnames
  have hmap := State.mapHarts_congr (s := s.lanesLeave s.lanes) (g := s.laneAfter (laneUser (s.pfx.any (·.mz)) (setwOf s s.hart) s.lanes f zero))
    (f := fun y => ((s.lanes.find? fun l => l.id == y.id).map fun l =>
      Hart.laneNext (s.ilen none) (s.lanesLeave s.lanes).pkg.zaclk.toNat (s.lanesLeave s.lanes).part.w32
        (laneUser (s.pfx.any (·.mz)) (setwOf s s.hart) s.lanes f zero l) y).getD y) fun y hy => by
      rw [find?_lanes hd (hr.allHarts ▸ hy), hr.pkg, hw32, State.laneAfter]
      split <;> rfl
  rw [← hmap, ← hfold, ← hmz]
  simp only [State.crossPerform, hc]
  rfl

omit hd in
/-- The register file holds the set and the active contexts: it has room for them after the instruction (R27). -/
theorem fileOver_mapHarts_laneAfter {c : Car} (hc : s.hart.car = some c) (hF : ∀ h, (F (s.laneOf h)).zwprof = h.u.zwprof) (hfit : SetFits s)
    {t : State} (ht : t.allHarts = s.allHarts) : (t.mapHarts (s.laneAfter F)).fileOver c.core = false := by
  obtain ⟨hlen, hspace⟩ := hfit c hc
  have hact : (t.mapHarts (s.laneAfter F)).activeOn c.core =
      (s.allHarts.filter fun h => h.residentOn c.core && (h.car.any Car.active || s.inMySet h)).map (s.laneAfter F) := by
    rw [State.activeOn, State.allHarts_mapHarts, ht, List.filter_map]
    congr 2
    funext h
    have hany : (match (s.laneAfter F h).car with | some c => c.active | none => false) = (s.laneAfter F h).car.any Car.active := by
      cases (s.laneAfter F h).car <;> rfl
    show ((s.laneAfter F h).residentOn c.core && (match (s.laneAfter F h).car with | some c => c.active | none => false)) = _
    rw [hany, laneAfter_residentOn]
    cases hr : h.residentOn c.core with
    | false => rfl
    | true => rw [laneAfter_active hr]
  have hprof : ∀ h, (s.laneAfter F h).u.zwprof = h.u.zwprof := fun h => by
    unfold State.laneAfter
    split
    · exact hF h
    · rfl
  simp only [State.fileOver, hact, List.length_map, List.map_map, Function.comp_def, hprof, Bool.or_eq_false_iff, decide_eq_false_iff_not,
    Nat.not_lt]
  exact ⟨hlen, hspace⟩

end Lanes

/-! ## What each hart is left with -/

section Performed

variable {s : State} {i : Sys2Proof.Instr} {word : BitVec 32} {f : Nat → List Lane → Lane → User} {zero : User → User} {h : Hart}

theorem exec_cross (hs : SetStands s) (hi : exec i s = cross word f zero s) : exec i s = .next (s.crossPerform f zero) := by
  obtain ⟨hw, hconv, -, hready, -⟩ := hs
  have hsite : needWSite s = .ok () s := by simp only [needWSite, hw]
  rw [hi, cross, finish_ok ((run_bind_ok hsite).trans (run_modify ..)), hconv, hready]
  rfl

/-- A cross-lane instruction gives each member of a set that stands at it what f makes of its lane. -/
theorem crossYields_of_cross {G : Hart → User} (hs : SetStands s) (hi : exec i s = cross word f zero s)
    (hG : ∀ h, f (setwOf s s.hart) s.lanes (s.laneOf h) = G h) (hprof : ∀ h, (G h).zwprof = h.u.zwprof)
    (hzero : ∀ u, (zero u).zwprof = u.zwprof) : CrossYields i s G zero := by
  have hexec := exec_cross hs hi
  obtain ⟨-, hconv, hd, -, -⟩ := hs
  obtain ⟨c, hc⟩ : ∃ c, s.hart.car = some c := by
    cases hcar : s.hart.car with
    | none => simp [State.converging, hcar] at hconv
    | some c => exact ⟨c, rfl⟩
  rw [crossPerform_eq hd hc] at hexec
  set F := laneUser (s.pfx.any (·.mz)) (setwOf s s.hart) s.lanes f zero with hFdef
  have hF : ∀ h, F (s.laneOf h) = if guardTrue s.pfx h.u then G h else if s.pfx.any (·.mz) then zero h.u else h.u := fun h => by
    rw [hFdef, laneUser, hG]
    rfl
  have hFprof : ∀ h, (F (s.laneOf h)).zwprof = h.u.zwprof := fun h => by
    rw [hF]
    split_ifs
    · exact hprof h
    · exact hzero h.u
    · rfl
  have hr := regrouped_lanesLeave s s.lanes
  set s1 := s.lanesLeave s.lanes
  have hq := Quiet.parkContexts (s1.mapHarts (s.laneAfter F)) c.core
  have hroom : SetFits s → (s1.mapHarts (s.laneAfter F)).parkContexts c.core = s1.mapHarts (s.laneAfter F) := fun hfit =>
    parkContexts_of_room (fileOver_mapHarts_laneAfter hc hFprof hfit hr.allHarts)
  have hlook : ∀ h ∈ s.allHarts, (s1.mapHarts (s.laneAfter F)).hart? h.id = some (s.laneAfter F h) := fun h hh => by
    have hd1 : s1.NamesDistinct := by rwa [State.NamesDistinct, hr.allHarts]
    rw [State.hart?_mapHarts fun _ => laneAfter_id, State.hart?_of_mem hd1 (hr.allHarts ▸ hh)]
    rfl
  have hfind : ∀ h ∈ s.allHarts, ∃ g, ((s1.mapHarts (s.laneAfter F)).parkContexts c.core).hart? h.id = some g ∧
      g.bare = (s.laneAfter F h).bare := fun h hh => by
    have hb := hq.hart? h.id
    rw [hlook h hh, Option.map_some, Option.map_eq_some_iff] at hb
    exact hb
  refine ⟨_, hexec, fun h hh => ?_, fun h hh hn => ?_, fun hfit => ?_, ?_, ?_, ?_⟩
  · obtain ⟨hall, hin⟩ := mem_mySet.1 hh
    obtain ⟨g, hg, hb⟩ := hfind h hall
    rw [State.laneAfter, if_pos hin] at hb
    refine ⟨g, hg, (congrArg Hart.u hb :).trans ?_, (congrArg Hart.sup hb :), (congrArg Hart.instret hb :), (congrArg Hart.wait hb :)⟩
    show ({ F (s.laneOf h) with pc := h.u.pc + s.ilen none } : User) = _
    rw [hF]
    cases hp : s.pfx <;> simp [State.ilen, hp]
  · obtain ⟨g, hg, hb⟩ := hfind h hh
    have hsame : s.laneAfter F h = h := if_neg fun hin => hn (mem_mySet.2 ⟨hh, hin⟩)
    rw [hsame] at hb
    refine ⟨g, hg, (congrArg Hart.u hb :), (congrArg Hart.wait hb :), fun hfit => ?_⟩
    rw [hroom hfit, hlook h hh, hsame] at hg
    exact (Option.some.inj hg).symm
  · rw [hroom hfit]
    exact ⟨hr.mem, hr.poison, congrArg _ hr.pkg⟩
  · have hid := (congrArg Hart.id hq.hart :)
    exact hid.trans (laneAfter_id.trans (congrArg Hart.id hr.hart))
  · exact (hq.part_eq Part.still fun _ _ => rfl).trans hr.still
  · exact (hr.own.trans ⟨rfl, rfl, rfl, rfl, rfl⟩).trans hq.own

end Performed

/-! ## What the vlanes of a set give -/

/-- A vlane contributes what its giver gives, or the identity (R44). -/
theorem contrib_lanes {α : Type} (s : State) (ident : α) (val : User → α) (i : Nat) :
    contrib s.lanes ident val i = (s.giverAt val i).getD ident := by
  have hlanes : s.lanes = s.mySet.map s.laneOf := rfl
  have hat : laneAt s.lanes i = (s.givers.find? fun h => vlaneOf s h == i).map s.laneOf := by
    rw [laneAt, hlanes, List.find?_map, State.givers, List.find?_filter]
    congr 2
    funext h
    rw [Bool.decide_and, Bool.decide_coe, Bool.decide_coe, Bool.and_comm]
    rfl
  rw [contrib, hat, State.giverAt]
  cases s.givers.find? fun h => vlaneOf s h == i <;> rfl

theorem contribs_lanes {α : Type} (s : State) (ident : α) (val : User → α) (n : Nat) :
    contribs s.lanes ident val n = (List.range n).map fun i => (s.giverAt val i).getD ident :=
  List.map_congr_left fun i _ => contrib_lanes s ident val i

/-! ## Reductions and the scan (R115 to R117, R166) -/

section Reductions

variable {s : State} {i : Sys2Proof.Instr} {word : BitVec 32} {fmt : Fmt} {op : Nat → Nat → FRes} {ident : Nat} {d a : FReg}

theorem gredF_yields (hs : SetStands s) (hi : exec i s = gredF word fmt op ident d a s) :
    CrossYields i s
      (fun h => h.u.putLane fmt d
        (treeRes (formatOf fmt) op ((List.range (setwOf s s.hart)).map fun i => (s.giverAt (laneCode fmt a) i).getD ident)))
      fun u => u.wf d (boxOf fmt 0) :=
  crossYields_of_cross hs hi (fun h => by rw [contribs_lanes]; rfl) (fun _ => rfl) fun _ => rfl

/-- The scan's trees: that of each vlane is over the contributions up to it (R116). -/
theorem gscanS_yields (hs : SetStands s) :
    let setw := setwOf s s.hart
    let vector := (List.range setw).map fun i => (s.giverAt (laneCode .s a) i).getD fp32.signBit
    let upTo (i : Nat) : FRes := treeRes fp32 (sumNode fp32) (scanVec vector fp32.signBit i)
    CrossYields (.gscanS d a) s
      (fun h => h.u.putLane .s d ⟨(upTo (vlaneOf s h)).bits, (List.range setw).foldl (fun fl i => fl ||| (upTo i).flags) 0⟩)
      fun u => u.wf d (boxOf .s 0) :=
  crossYields_of_cross hs rfl (fun h => by rw [contribs_lanes]; simp only [List.foldl_map]; rfl) (fun _ => rfl) fun _ => rfl

end Reductions

end Sys2Proof.Machine

namespace Sys2Proof
open Machine

/-- Settles O14: each member of the set gets what the instruction makes of its lane (crossYields_of_cross), from the contributions in vlane order
(contribs_lanes). -/
theorem crossLaneFpResult : Obligations.CrossLaneFpResult := by
  unfold Obligations.CrossLaneFpResult
  intro s d a hs setw vector tree gives
  exact ⟨gredF_yields hs rfl, gredF_yields hs rfl, gredF_yields hs rfl, gredF_yields hs rfl, gredF_yields hs rfl, gredF_yields hs rfl,
    gscanS_yields hs⟩

end Sys2Proof
end
section
/-! ## CSR instructions (R118, R134) -/
namespace Sys2Proof.Machine

variable {s g : State} {a : BitVec 12} {rd rs1 : XReg} {op : CsrOp} {word : BitVec 32} {operand old v : Word} {writes : Bool}
  {c : Option (BitVec 16)} {i : Sys2Proof.Instr}

/-! ## The checks of an access -/

/-- What an access to an assigned CSR passes: its privilege, the firmware's addresses, whether it may write, the counters' enables, TVM and FS. -/
structure CsrOpen (s : State) (a : Nat) (writes : Bool) : Prop where
  level : a / 256 % 4 ≤ s.hart.sup.mode.level
  assigned : (s.csrVal a).isSome = true
  manual : a < 0x7C0 ∨ 0x7FF < a := by decide
  writable : writes = true → a / 1024 ≠ 3 ∧ a ≠ 0x5C0 ∨ s.hart.sup.mode = .s ∧ 0xC03 ≤ a ∧ a ≤ 0xC1F
  counter : counterOk s a = true
  satp : a ≠ 0x180 := by decide
  fs : 1 ≤ a → a ≤ 3 → fsOn s = true

theorem csrCheck_ok {a : Nat} (h : CsrOpen s a writes) : csrCheck word a writes s = .ok () s := by
  have h1 : ¬ s.hart.sup.mode.level < a / 256 % 4 := Nat.not_lt.2 h.level
  have h2 : (decide (0x7C0 ≤ a) && decide (a ≤ 0x7FF)) = false := by have := h.manual; simp; omega
  have h3 : (s.csrVal a).isNone = false := by simp [h.assigned]
  have h4 : (writes && a / 1024 == 3 && !(s.hart.sup.mode == .s && 0xC03 ≤ a && a ≤ 0xC1F)) = false := by
    cases hw : writes with
    | false => rfl
    | true =>
      rcases h.writable hw with ⟨hr, -⟩ | ⟨hm, hlo, hhi⟩
      · simp [hr]
      · simp [hm, hlo, hhi]
  have h5 : (writes && a == 0x5C0) = false := by
    cases hw : writes with
    | false => rfl
    | true => rcases h.writable hw with ⟨-, hr⟩ | ⟨-, hlo, -⟩ <;> simp <;> omega
  have h6 : (!counterOk s a || !satpOk s a || (decide (1 ≤ a) && decide (a ≤ 3) && !fsOn s)) = false := by
    have hsatp : satpOk s a = true := by simp [satpOk, h.satp]
    have hfs := h.fs
    cases hf : fsOn s with
    | true => simp [h.counter, hsatp]
    | false =>
      simp [h.counter, hsatp]
      intro hlo
      by_contra hhi
      exact absurd (hfs hlo (Nat.not_lt.1 hhi)) (by simp [hf])
  unfold csrCheck
  simp only [h1, h3, h4, h5, h6, if_false]
  simp only [h2, Bool.false_eq_true, if_false]

/-! ## The access -/

/-- The value that a CSR instruction makes of the old one and its operand (Zicsr). -/
def csrNew (op : CsrOp) (old v : Word) : Word := match op with | .rw => v | .rs => old ||| v | .rc => old &&& ~~~v

/-- A count read is seen (R88). -/
def State.chanSeen (s : State) (a : Nat) : State :=
  if 0xCD0 ≤ a && a ≤ 0xCDF then s.sawChan (engineOf s.hart) (a - 0xCD0) (s.chanOf (a - 0xCD0)) fun _ => true else s

theorem chanSeen_other {a : Nat} (h : a < 0xCD0 ∨ 0xCDF < a) : s.chanSeen a = s :=
  if_neg (by simp; omega)

/-- An access that writes nothing gives rd the CSR's value. -/
theorem csrAccess_reads (h : CsrOpen s a.toNat writes) (hv : s.csrVal a.toNat = some old) (hw : writes = true → a.toNat / 1024 = 3) :
    csrAccess word op rd operand writes a s = .ok () ((s.chanSeen a.toNat).wx rd old) := by
  have hput : (writes && a.toNat / 1024 != 3) = false := by
    cases hb : writes with
    | false => rfl
    | true => simp [hw hb]
  rw [csrAccess]
  dsimp only
  rw [run_bind_ok (csrCheck_ok h), run_bind_ok (run_get s), run_bind_ok (run_modify ..), run_modify, hput, hv]
  rfl

/-- An access that writes gives rd the old value and puts the new one, but for the pending bits of interrupts. -/
theorem csrAccess_writes (h : CsrOpen s a.toNat true) (hv : s.csrVal a.toNat = some old) (ha : a.toNat / 1024 ≠ 3)
    (hirq : a.toNat ≠ 0x344 ∧ a.toNat ≠ 0x144) :
    csrAccess word op rd operand true a s = .ok () ((s.csrPut a.toNat (csrNew op old operand)).wx rd old) := by
  have hput : (true && a.toNat / 1024 != 3) = true := by simp [ha]
  have hbase : (a.toNat == 0x344 || a.toNat == 0x144) = false := by simp [hirq]
  have hchan : a.toNat < 0xCD0 ∨ 0xCDF < a.toNat := by omega
  rw [csrAccess]
  dsimp only
  rw [run_bind_ok (csrCheck_ok h), run_bind_ok (run_get s), run_bind_ok (run_modify ..), run_modify, hput, hbase, hv]
  exact congrArg (fun t : State => EStateM.Result.ok () (t.wx rd old)) (chanSeen_other hchan)

/-! ## Completion -/

/-- What a CSR instruction that leaves the user state v does: rd takes the old value, and nothing else changes. -/
def CsrRuns (s : State) (c : Option (BitVec 16)) (rd : XReg) (old : Word) (v : User) (i : Sys2Proof.Instr) : Prop :=
  ∃ t, exec i s = .next t ∧ t.rx rd = (if rd = 0 then 0 else old) ∧ RetiredTo (s.pc + s.ilen c) s t ∧
    Frame { x := [rd] } { s with hart := { s.hart with u := v } } t

theorem csrRuns_of_effect {v : User} (hpc : v.pc = s.pc) (hg : Effect {} { s with hart := { s.hart with u := v } } g)
    (he : exec i s = .next ((g.wx rd old).retire c)) : CsrRuns s c rd old v i := by
  have h := (hg.within {}).trans (Effect.wx g rd old)
  have hp : (g.wx rd old).pfx = s.pfx := h.frame.2.2.2.2.2.1
  have hil : (g.wx rd old).ilen c = s.ilen c := by simp only [State.ilen, hp]
  have hretire : (g.wx rd old).retire c = (g.wx rd old).retireTo (s.pc + s.ilen c) := by
    rw [State.retire_eq, h.pc, hil, ← hpc]
    rfl
  refine ⟨_, he.trans (congrArg _ hretire), by simp, ?_, h.frame.retireTo⟩
  exact RetiredTo.of_effect (s := s) h.instret h.cycle h.sup

/-- An instruction of the base profile whose work is one access. -/
def IsAccess (s : State) (c : Option (BitVec 16)) (rd : XReg) (b : BaseInstr) (op : CsrOp) (operand : Word) (writes : Bool) (a : BitVec 12) :
    Prop :=
  baseM (instrWord (.base c b)) c b s = (csrAccess (instrWord (.base c b)) op rd operand writes a >>= fun _ => retireM c) s

theorem isAccess_csr : IsAccess s c rd (.csr op rd rs1 a) op (s.rx rs1) (op == .rw || rs1 != 0#5) a := run_bind_ok (run_get s)

theorem isAccess_csrImm {i : BitVec 5} : IsAccess s c rd (.csrImm op rd i a) op (i.setWidth 64) (op == .rw || i != 0#5) a := rfl

theorem exec_of_access {b : BaseInstr} (hi : IsAccess s c rd b op operand writes a)
    (h : csrAccess (instrWord (.base c b)) op rd operand writes a s = .ok () g) : exec (.base c b) s = .next (g.retire c) :=
  finish_ok (hi.trans (run_bind_ok h))

section Runs

/-- The CSR a reads old: the instructions that write nothing give it to rd. -/
def CsrReads (s : State) (c : Option (BitVec 16)) (rd : XReg) (a : BitVec 12) (old : Word) : Prop :=
  s.csrVal a.toNat = some old ∧ ∀ op, op ≠ .rw →
    CsrRuns s c rd old s.hart.u (.base c (.csr op rd 0 a)) ∧ CsrRuns s c rd old s.hart.u (.base c (.csrImm op rd 0 a))

/-- The CSR a reads old, and a write of v leaves the user state put v. -/
def CsrStores (s : State) (c : Option (BitVec 16)) (rd rs1 : XReg) (i : BitVec 5) (a : BitVec 12) (old : Word) (put : Word → User) : Prop :=
  CsrReads s c rd a old ∧ ∀ op,
    (op = .rw ∨ rs1 ≠ 0 → CsrRuns s c rd old (put (csrNew op old (s.rx rs1))) (.base c (.csr op rd rs1 a))) ∧
    (op = .rw ∨ i ≠ 0 → CsrRuns s c rd old (put (csrNew op old (i.setWidth 64))) (.base c (.csrImm op rd i a)))

theorem csrRuns_reads {b : BaseInstr} (hi : IsAccess s c rd b op operand writes a)
    (h : CsrOpen s a.toNat writes) (hv : s.csrVal a.toNat = some old) (hw : writes = true → a.toNat / 1024 = 3)
    (hchan : a.toNat < 0xCD0 ∨ 0xCDF < a.toNat) : CsrRuns s c rd old s.hart.u (.base c b) :=
  csrRuns_of_effect rfl (Effect.refl {} s) (exec_of_access hi ((csrAccess_reads h hv hw).trans (by rw [chanSeen_other hchan])))

theorem csrReads_of_open (h : CsrOpen s a.toNat false) (hv : s.csrVal a.toNat = some old)
    (hchan : a.toNat < 0xCD0 ∨ 0xCDF < a.toNat := by decide) : CsrReads s c rd a old := by
  refine ⟨hv, fun op hop => ?_⟩
  have hx : (op == .rw || (0 : BitVec 5) != 0#5) = false := by simpa using hop
  refine ⟨csrRuns_reads isAccess_csr ?_ hv ?_ hchan, csrRuns_reads isAccess_csrImm ?_ hv ?_ hchan⟩ <;> rw [hx]
  · exact h
  · exact nofun
  · exact h
  · exact nofun

theorem csrStores_of_open {put : Word → User} {i : BitVec 5} (h : ∀ w, CsrOpen s a.toNat w) (hv : s.csrVal a.toNat = some old)
    (hput : ∀ v, (put v).pc = s.pc ∧ Effect {} { s with hart := { s.hart with u := put v } } (s.csrPut a.toNat v))
    (ha : a.toNat / 1024 ≠ 3 := by decide) (hirq : a.toNat ≠ 0x344 ∧ a.toNat ≠ 0x144 := by decide) :
    CsrStores s c rd rs1 i a old put := by
  refine ⟨csrReads_of_open (h false) hv (by omega), fun op => ⟨fun hw => ?_, fun hw => ?_⟩⟩
  · have hb : (op == .rw || rs1 != 0#5) = true := by simpa using hw
    refine csrRuns_of_effect (hput _).1 (hput _).2 (exec_of_access isAccess_csr ?_)
    rw [hb]
    exact csrAccess_writes (h true) hv ha hirq
  · have hb : (op == .rw || i != 0#5) = true := by simpa using hw
    refine csrRuns_of_effect (hput _).1 (hput _).2 (exec_of_access isAccess_csrImm ?_)
    rw [hb]
    exact csrAccess_writes (h true) hv ha hirq

/-- A CSR whose write changes the user state alone. -/
theorem csrStores_of_modU {put : Word → User} {i : BitVec 5} (h : ∀ w, CsrOpen s a.toNat w) (hv : s.csrVal a.toNat = some old)
    (hput : ∀ v, s.csrPut a.toNat v = { s with hart := { s.hart with u := put v } }) (hpc : ∀ v, (put v).pc = s.hart.u.pc)
    (ha : a.toNat / 1024 ≠ 3 := by decide) (hirq : a.toNat ≠ 0x344 ∧ a.toNat ≠ 0x144 := by decide) :
    CsrStores s c rd rs1 i a old put :=
  csrStores_of_open h hv (fun v => ⟨hpc v, by rw [hput]; exact .refl ..⟩) ha hirq

end Runs

/-! ## The user CSRs -/

/-- A CSR of the user level that nothing gates. -/
theorem csrOpen_user {a : Nat} (hv : (s.csrVal a).isSome = true) (hw : writes = true → a / 1024 ≠ 3 := by decide)
    (hl : a / 256 % 4 = 0 := by decide) (hm : (a < 0x7C0 ∨ 0x7FF < a) ∧ 3 < a ∧ (a < 0xC00 ∨ 0xC02 < a) := by decide) :
    CsrOpen s a writes where
  level := by omega
  assigned := hv
  manual := hm.1
  writable hb := .inl ⟨hw hb, by omega⟩
  counter := by
    have hc : (decide (0xC00 ≤ a) && decide (a ≤ 0xC02)) = false := by simp; omega
    simp only [counterOk, hc, Bool.false_eq_true, if_false]
  satp := by omega
  fs := by omega

end Sys2Proof.Machine
end
section
/-! ## The CSRs of the user level and their neighbours (R106, R110, R111, R173, R180, R245 to R247) -/
namespace Sys2Proof.Machine

variable {s : State} {a : BitVec 12} {rd rs1 : XReg} {writes : Bool} {c : Option (BitVec 16)} {i : BitVec 5}

/-! ## Values -/

theorem csrVal_zexp (n : Fin 16) : s.csrVal (0x810 + n.val) = some s.hart.u.zexp[n] := by
  have h : ∀ k, k < 16 → s.csrVal (0x810 + k) = some (s.hart.u.zexp.toList.getD k 0) := fun k hk => by interval_cases k <;> rfl
  rw [h n n.isLt]
  simp [List.getD]

theorem csrVal_chan (n : Fin 16) : s.csrVal (0xCD0 + n.val) = some (s.chanOf n.val).cwp := by
  have h : ∀ k, k < 16 → s.csrVal (0xCD0 + k) = some (s.chanOf k).cwp := fun k hk => by interval_cases k <;> rfl
  exact h n n.isLt

theorem csrVal_noCounter {k : Nat} (hlo : 0xC03 ≤ k) (hhi : k ≤ 0xC1F) : s.csrVal k = some 0 := by interval_cases k <;> rfl

theorem csrPut_zexp (n : Fin 16) (v : Word) :
    s.csrPut (0x810 + n.val) v = { s with hart := { s.hart with u := { s.hart.u with zexp := s.hart.u.zexp.set n v } } } := by
  have h : ∀ k (hk : k < 16), s.csrPut (0x810 + k) v =
      { s with hart := { s.hart with u := { s.hart.u with zexp := s.hart.u.zexp.set k v hk } } } := fun k hk => by interval_cases k <;> rfl
  exact h n n.isLt

/-- A reserved LRM of zfmode reads 000 (R106). -/
theorem csrPut_zfmode (v : Word) :
    s.csrPut 0x800 v = { s with hart := { s.hart with u := { s.hart.u with
      zfmode := if v.extractLsb' 4 3 = 6#3 ∨ v.extractLsb' 4 3 = 7#3 then (v.setWidth 4).setWidth 7 else v.setWidth 7 } } } := by
  have hlrm : 6 ≤ (v.extractLsb' 4 3).toNat ↔ v.extractLsb' 4 3 = 6#3 ∨ v.extractLsb' 4 3 = 7#3 := by
    generalize v.extractLsb' 4 3 = x
    revert x
    decide
  simp only [← hlrm]
  rfl

/-- zamax holds no code above that of infinity (R110). -/
theorem csrPut_zamax (v : Word) :
    s.csrPut 0x801 v = { s with hart := { s.hart with u := { s.hart.u with
      zamax := if (v.setWidth 31).toNat ≤ 0x7F800000 then v.setWidth 31 else 0x7F800000 } } } := by
  have hflip : (if (v.setWidth 31).toNat ≤ 0x7F800000 then v.setWidth 31 else 0x7F800000) =
      if 0x7F800000 < (v.setWidth 31).toNat then 0x7F800000 else v.setWidth 31 := by
    by_cases hv : (v.setWidth 31).toNat ≤ 0x7F800000
    · rw [if_pos hv, if_neg (Nat.not_lt.2 hv)]
    · rw [if_neg hv, if_pos (Nat.not_le.1 hv)]
  rw [hflip]
  rfl

/-! ## Which accesses are open -/

/-- fflags, frm and fcsr need FS. -/
theorem csrOpen_float (hfs : fsOn s = true) {k : Nat} (hk : 1 ≤ k ∧ k ≤ 3) : CsrOpen s k writes := by
  have hgate : ∀ k, 1 ≤ k ∧ k ≤ 3 → k / 256 % 4 = 0 ∧ (s.csrVal k).isSome = true ∧ counterOk s k = true := fun k ⟨hlo, hhi⟩ => by
    interval_cases k <;> exact ⟨rfl, rfl, rfl⟩
  obtain ⟨hl, hv, hc⟩ := hgate k hk
  exact { level := by omega, assigned := hv, manual := by omega, writable := fun _ => .inl (by omega), counter := hc, satp := by omega,
          fs := fun _ _ => hfs }

theorem csrOpen_counter {k : Nat} (hc : counterOk s k = true) (hv : (s.csrVal k).isSome = true)
    (hk : 0xC00 ≤ k ∧ k ≤ 0xC02 := by decide) : CsrOpen s k false where
  level := by omega
  assigned := hv
  manual := by omega
  writable := nofun
  counter := hc
  satp := by omega
  fs := by omega

theorem csrOpen_zpart (hm : s.hart.sup.mode ≠ .u) : CsrOpen s 0x5C0 false where
  level := by
    cases hmode : s.hart.sup.mode with
    | u => exact absurd hmode hm
    | s => decide
    | m => decide
  assigned := rfl
  writable := nofun
  counter := rfl
  fs := by omega

/-- A counter beyond the three is open to reads, and in S-mode to writes, which are ignored (R118). -/
theorem csrOpen_noCounter (hm : s.hart.sup.mode = .s) {k : Nat} (hk : 0xC03 ≤ k ∧ k ≤ 0xC1F) : CsrOpen s k writes where
  level := by omega
  assigned := by rw [csrVal_noCounter hk.1 hk.2]; rfl
  manual := by omega
  writable _ := .inr ⟨hm, hk⟩
  counter := by
    have hc : (decide (0xC00 ≤ k) && decide (k ≤ 0xC02)) = false := by simp; omega
    simp only [counterOk, hc, Bool.false_eq_true, if_false]
  satp := by omega
  fs := by omega

/-- In S-mode an access to a counter beyond the three reads 0 and writes nothing (R118). -/
theorem csrRuns_noCounter (hm : s.hart.sup.mode = .s) (hk : 0xC03 ≤ a.toNat ∧ a.toNat ≤ 0xC1F) (op : CsrOp) :
    CsrRuns s c rd 0 s.hart.u (.base c (.csr op rd rs1 a)) ∧ CsrRuns s c rd 0 s.hart.u (.base c (.csrImm op rd i a)) :=
  have hv := csrVal_noCounter hk.1 hk.2
  ⟨csrRuns_reads isAccess_csr (csrOpen_noCounter hm hk) hv (by omega) (by omega),
    csrRuns_reads isAccess_csrImm (csrOpen_noCounter hm hk) hv (by omega) (by omega)⟩

/-! ## Stores and reads -/

variable {old : Word} {put : Word → User}

theorem csrStores_float (hfs : fsOn s = true) (hv : s.csrVal a.toNat = some old)
    (hput : ∀ v, s.csrPut a.toNat v = { s with hart := { s.hart with u := put v } }) (hpc : ∀ v, (put v).pc = s.hart.u.pc)
    (ha : 1 ≤ a.toNat ∧ a.toNat ≤ 3 := by decide) : CsrStores s c rd rs1 i a old put :=
  csrStores_of_modU (fun _ => csrOpen_float hfs ha) hv hput hpc (by omega) (by omega)

theorem csrStores_user (hv : s.csrVal a.toNat = some old)
    (hput : ∀ v, s.csrPut a.toNat v = { s with hart := { s.hart with u := put v } }) (hpc : ∀ v, (put v).pc = s.hart.u.pc)
    (ha : 0x800 ≤ a.toNat ∧ a.toNat < 0x900 := by decide) : CsrStores s c rd rs1 i a old put :=
  csrStores_of_modU (fun _ => csrOpen_user (by rw [hv]; rfl) (fun _ => by omega) (by omega) (by omega)) hv hput hpc (by omega) (by omega)

theorem csrReads_user (hv : s.csrVal a.toNat = some old) (ha : 0xC03 ≤ a.toNat ∧ a.toNat < 0xCD0 := by decide) : CsrReads s c rd a old :=
  csrReads_of_open (csrOpen_user (by rw [hv]; rfl) nofun (by omega) (by omega)) hv (by omega)

theorem csrReads_counter (hc : counterOk s a.toNat = true) (hv : s.csrVal a.toNat = some old)
    (ha : 0xC00 ≤ a.toNat ∧ a.toNat ≤ 0xC02 := by decide) : CsrReads s c rd a old :=
  csrReads_of_open (csrOpen_counter hc (by rw [hv]; rfl) ha) hv (by omega)

/-! ## zpack (R40) -/

/-- What changes groups alone is no effect that an instruction has to name. -/
theorem Regrouped.effect {t : State} (h : Regrouped s t) : Effect {} s t :=
  ⟨⟨sameHart_of_eq h.hart, ⟨fun b _ => congrArg (sparseGet 0#8 · b) h.mem, h.poison⟩, h.harts, h.still, congrArg _ h.pkg, h.own⟩,
    congrArg (fun y => y.u.pc) h.hart, congrArg Hart.instret h.hart, congrArg Hart.cycle h.hart⟩

theorem Regrouped.rebin (s : State) : Regrouped s s.rebin := by
  constructor <;> simp [State.rebin, SameOwn]

theorem csrStores_zpack : CsrStores s c rd rs1 i 0x805 (s.hart.u.zpack.setWidth 64) fun v => { s.hart.u with zpack := v.setWidth 2 } :=
  csrStores_of_open (fun _ => csrOpen_user rfl fun _ => by decide) rfl fun _ => ⟨rfl, (Regrouped.rebin _).effect⟩

/-! ## zexp and zcwp -/

theorem zexp_toNat (n : Fin 16) : ((0x810 : BitVec 12) + BitVec.ofNat 12 n.val).toNat = 0x810 + n.val := by
  have := n.isLt
  simp [BitVec.toNat_add]
  omega

theorem zcwp_toNat (n : Fin 16) : ((0xCD0 : BitVec 12) + BitVec.ofNat 12 n.val).toNat = 0xCD0 + n.val := by
  have := n.isLt
  simp [BitVec.toNat_add]
  omega

theorem csrStores_zexp (n : Fin 16) :
    CsrStores s c rd rs1 i (0x810 + BitVec.ofNat 12 n.val) s.hart.u.zexp[n] fun v => { s.hart.u with zexp := s.hart.u.zexp.set n v } := by
  have hn := zexp_toNat n
  have hv : s.csrVal ((0x810 : BitVec 12) + BitVec.ofNat 12 n.val).toNat = some s.hart.u.zexp[n] := by rw [hn, csrVal_zexp]
  refine csrStores_user hv (fun v => ?_) (fun _ => rfl) (by omega)
  rw [hn, csrPut_zexp]

theorem chanSeen_rest (s : State) (k : Nat) :
    (s.chanSeen k).hart = s.hart ∧ (s.chanSeen k).harts = s.harts ∧ (s.chanSeen k).mem = s.mem ∧ (s.chanSeen k).poison = s.poison ∧
      (s.chanSeen k).pfx = s.pfx := by
  unfold State.chanSeen State.sawChan
  split
  · dsimp only
    split <;> simp [State.dropClean, State.dropGranules, State.modWindows]
  · exact ⟨rfl, rfl, rfl, rfl, rfl⟩

/-- A read of a channel's count may discard the reader's stale copies of what the channel wrote, and nothing of the hart or memory (R88). -/
theorem csr_zcwp (n : Fin 16) :
    ∃ t, exec (.base c (.csr .rs rd 0 (0xCD0 + BitVec.ofNat 12 n.val))) s = .next t ∧
      t.rx rd = (if rd = 0 then 0 else (s.chanOf n.val).cwp) ∧ RetiredTo (s.pc + s.ilen c) s t ∧ SameHart { x := [rd] } s t ∧
      SameMemory {} s t ∧ t.harts = s.harts := by
  have hn := zcwp_toNat n
  have hv : s.csrVal ((0xCD0 : BitVec 12) + BitVec.ofNat 12 n.val).toNat = some (s.chanOf n.val).cwp := by rw [hn, csrVal_chan]
  have hopen : CsrOpen s ((0xCD0 : BitVec 12) + BitVec.ofNat 12 n.val).toNat false :=
    csrOpen_user (by rw [hv]; rfl) nofun (by omega) (by omega)
  have he := exec_of_access (c := c) isAccess_csr (csrAccess_reads (op := .rs) (rd := rd) (operand := s.rx 0) hopen hv nofun)
  obtain ⟨hh, hhs, hm, hp, hpfx⟩ := chanSeen_rest s ((0xCD0 : BitVec 12) + BitVec.ofNat 12 n.val).toNat
  generalize s.chanSeen ((0xCD0 : BitVec 12) + BitVec.ofNat 12 n.val).toNat = g at *
  have heff := Effect.wx g rd (s.chanOf n.val).cwp
  have hpc : g.pc = s.pc := congrArg (fun y => y.u.pc) hh
  have hil : (g.wx rd (s.chanOf n.val).cwp).ilen c = s.ilen c :=
    (wx_ilen ..).trans (by simp only [State.ilen, hpfx])
  rw [State.retire_eq, wx_pc, hpc, hil] at he
  refine ⟨_, he, by simp, .of_effect ?_ ?_ ?_, (sameHart_of_eq hh).trans heff.frame.retireTo.1, ?_, ?_⟩
  · rw [wx_instret, hh]
  · rw [wx_cycle, hh]
  · rw [wx_sup, hh]
  · obtain ⟨hb, hpo⟩ := heff.frame.retireTo (npc := s.pc + s.ilen c).2.1
    exact ⟨fun b _ => (hb b (by simp)).trans (congrArg (sparseGet 0#8 · b) hm), hpo.trans hp⟩
  · have hharts : (g.wx rd (s.chanOf n.val).cwp).harts = g.harts := heff.frame.2.2.1
    rw [State.retireTo_harts, hharts, hhs]

end Sys2Proof.Machine
end
section
/-! ## The writes of the partition's CSRs (R40, R41, R51, R53, R71, R83, R93, R306, R309) -/
namespace Sys2Proof.Machine

variable {s : State} {v w old : Word}

/-! ## Fields -/

theorem field_eq_div (v : Word) (lo len : Nat) : field v lo len = v.toNat / 2 ^ lo % 2 ^ len := by
  rw [field, Nat.shiftRight_eq_div_pow]

theorem field_putField_same {lo len x : Nat} (h : lo + len ≤ 64) : field (putField w lo len x) lo len = x % 2 ^ len := by
  refine Nat.eq_of_testBit_eq fun j => ?_
  rw [testBit_field, Nat.testBit_mod_two_pow]
  by_cases hj : j < len
  · rw [getLsbD_putField (by omega), if_pos ⟨by omega, by omega⟩, Nat.add_sub_cancel_left]
  · simp [hj]

theorem field_putField_apart {lo len lo' len' x : Nat} (h : lo' + len' ≤ 64) (ha : lo' + len' ≤ lo ∨ lo + len ≤ lo') :
    field (putField w lo len x) lo' len' = field w lo' len' := by
  refine Nat.eq_of_testBit_eq fun j => ?_
  rw [testBit_field, testBit_field]
  by_cases hj : j < len'
  · rw [getLsbD_putField (by omega), if_neg (by omega)]
  · simp [hj]

/-! ## zbankrole (R83) -/

/-- The role that a write of v to zbankrole gives bank n: 11 keeps the old one. -/
def roleWritten (old v : Word) (n : Nat) : Nat := if field v (2 * n) 2 = 3 then field old (2 * n) 2 else field v (2 * n) 2

theorem roleWritten_eq_div (old v : Word) (n : Nat) :
    roleWritten old v n = if field v (2 * n) 2 = 3 then old.toNat / 2 ^ (2 * n) % 4 else field v (2 * n) 2 := by
  rw [roleWritten, field_eq_div old]
  rfl

/-- One more bank merged: it takes its written role, and the other banks keep theirs. -/
theorem field_mergeRoles_succ {k n : Nat} (hk : k < 32) (hn : n < 32) (hsame : field (mergeRoles old v n) (2 * n) 2 = field old (2 * n) 2) :
    field (mergeRoles old v (n + 1)) (2 * k) 2 = if k = n then roleWritten old v k else field (mergeRoles old v n) (2 * k) 2 := by
  rw [mergeRoles]
  by_cases hkn : k = n
  · subst hkn
    rw [if_pos rfl, roleWritten]
    split
    · exact hsame
    · exact (field_putField_same (by omega)).trans (Nat.mod_mod ..)
  · rw [if_neg hkn]
    split
    · rfl
    · exact field_putField_apart (by omega) (by omega)

theorem field_mergeRoles {k n : Nat} (hk : k < 32) (hn : n ≤ 32) :
    field (mergeRoles old v n) (2 * k) 2 = if k < n then roleWritten old v k else field old (2 * k) 2 := by
  induction n generalizing k with
  | zero => rfl
  | succ n ih =>
    have hsame : field (mergeRoles old v n) (2 * n) 2 = field old (2 * n) 2 := by
      rw [ih (by omega) (by omega), if_neg (Nat.lt_irrefl n)]
    rw [field_mergeRoles_succ hk (by omega) hsame, ih hk (by omega)]
    rcases Nat.lt_trichotomy k n with hlt | rfl | hgt
    · rw [if_neg (by omega), if_pos hlt, if_pos (by omega : k < n + 1)]
    · rw [if_pos rfl, if_pos (by omega : k < k + 1)]
    · rw [if_neg (by omega), if_neg (by omega), if_neg (by omega : ¬ k < n + 1)]

theorem l1Banks_mergeRoles : l1Banks (mergeRoles old v 32) = ((List.range 32).filter fun n => roleWritten old v n = 0).length := by
  rw [l1Banks]
  congr 1
  refine List.filter_congr fun n hn => ?_
  have hn := List.mem_range.1 hn
  rw [field_mergeRoles hn (le_refl _), if_pos hn]

theorem anyResident_iff : s.anyResident = true ↔ ∃ h ∈ s.allHarts, h.car ≠ none := by
  simp [State.anyResident, Option.isSome_iff_ne_none]

/-- Private bytes written back change the current hart at most in its reservation and its watch. -/
theorem writeBack_loose (s : State) (sel : PrivByte → Bool) : Loose s (s.writeBack sel) := by
  have hbyte : ∀ (t : State) (b : PrivByte), Loose t (t.writeBackByte b) := fun t b =>
    (Sent.homeByte t b.who b.pa b.val).loose.trans (.of_hart rfl ⟨rfl, rfl, rfl, rfl, rfl⟩)
  have hfold : ∀ (l : List PrivByte) (t : State), Loose t (l.foldl State.writeBackByte t) := fun l => by
    induction l with
    | nil => exact Loose.refl
    | cons b l ih => exact fun t => (hbyte t b).trans (ih _)
  exact (Sent.unpoison s _).loose.trans (hfold _ _)

theorem writeZbankrole_keeps (h : s.anyResident = true ∨ l1Banks (mergeRoles s.part.bankrole v 32) < 2) : s.writeZbankrole v = s := by
  have hb : (s.anyResident || decide (l1Banks (mergeRoles s.part.bankrole v 32) < 2)) = true := by simpa using h
  simp only [State.writeZbankrole, hb, if_true]

/-- The roles written stand, and where one has changed the reservations of every W-core are free (R83, R214). -/
theorem writeZbankrole_changes (hr : s.anyResident = false) (hl : 2 ≤ l1Banks (mergeRoles s.part.bankrole v 32)) :
    (s.writeZbankrole v).part.bankrole = mergeRoles s.part.bankrole v 32 ∧
      ((s.writeZbankrole v).part.bankrole ≠ s.part.bankrole →
        ∀ w ∈ (s.writeZbankrole v).part.wcores, w.press.resvs = Vector.replicate 32 none) ∧
      (s.writeZbankrole v).hart.u = s.hart.u := by
  have hb : (s.anyResident || decide (l1Banks (mergeRoles s.part.bankrole v 32) < 2)) = false := by
    simp [hr]
    omega
  by_cases hsame : mergeRoles s.part.bankrole v 32 = s.part.bankrole
  · have he : s.writeZbankrole v = s := by simp [State.writeZbankrole, hsame]
    rw [he]
    exact ⟨hsame.symm, fun hne => absurd rfl hne, rfl⟩
  · simp only [State.writeZbankrole, hb, hsame, Bool.false_eq_true, if_false]
    refine ⟨rfl, fun _ w hw => ?_, (congrArg Hart.u (writeBack_loose s _).here :)⟩
    obtain ⟨c, -, rfl⟩ := List.mem_map.1 hw
    rfl

/-! ## Writes that a rule refuses -/

/-- A step that is refused where A holds or B does not, and otherwise gives y. -/
theorem refused_unless {i : Sys2Proof.Instr} {a b : Bool} {A B : Prop} {y : State} (he : exec i s = .next (if a || !b then s else y))
    (ha : a = true ↔ A) (hb : b = true ↔ B) : (A ∨ ¬ B → exec i s = .next s) ∧ (¬ A → B → exec i s = .next y) := by
  rw [he, ← ha, ← hb]
  cases a <;> cases b <;> simp

/-- The writes of zwfq and zemq are refused where the queue moves and holds a record, or where its place is not the partition's (R306). -/
theorem refused_unless_here {i : Sys2Proof.Instr} {a b c : Bool} {A B C : Prop} {y : State}
    (he : exec i s = .next (if a || !b || !c then s else y)) (ha : a = true ↔ A) (hb : b = true ↔ B) (hc : c = true ↔ C) :
    (A ∨ ¬ B ∨ ¬ C → exec i s = .next s) ∧ (¬ A → B → C → exec i s = .next y) := by
  rw [he, ← ha, ← hb, ← hc]
  cases a <;> cases b <;> cases c <;> simp

/-- A queue moves where its base or its size changes; it is not moved while it holds a record (R306). -/
theorem moved_iff (base base' size size' : Nat) :
    (decide (base ≠ base') || decide (size ≠ size')) = true ↔ base ≠ base' ∨ size ≠ size' := by simp

theorem movedFull_iff (base base' size size' count : Nat) :
    ((decide (base ≠ base') || decide (size ≠ size')) && decide (count ≠ 0)) = true ↔ (base ≠ base' ∨ size ≠ size') ∧ count ≠ 0 := by
  simp

theorem onPackage_iff (pa : Nat) : s.onPackage pa = true ↔ pa / 2 ^ 47 = s.pkg.pkgId := by simp [State.onPackage]

/-! ## CSR_WRITE (R134) -/

theorem exec_csrWrite_keeps {a : BitVec 12} (h : 3 * 1024 ≤ a.toNat ∨ s.csrVal a.toNat = none) : exec (.csrWrite a v) s = .next s := by
  have hlt := a.isLt
  have hb : (a.toNat / 1024 = 3 || a.toNat = 0x5C0 || ownWrite a.toNat || (s.csrVal a.toNat).isNone) = true := by
    rcases h with h | h
    · simp [show a.toNat / 1024 = 3 by omega]
    · simp [h]
  exact if_pos hb

theorem exec_csrWrite_puts {a : BitVec 12} (ha : a.toNat / 1024 ≠ 3 ∧ a.toNat ≠ 0x5C0 ∧ ownWrite a.toNat = false)
    (hv : s.csrVal a.toNat = some old) : exec (.csrWrite a v) s = .next (s.csrPut a.toNat v) := by
  obtain ⟨h1, h2, h3⟩ := ha
  have hb : ¬ (a.toNat / 1024 = 3 || a.toNat = 0x5C0 || ownWrite a.toNat || (s.csrVal a.toNat).isNone) = true := by
    simp [h1, h2, h3, hv]
  exact if_neg hb

theorem exec_csrWrite_zexp (n : Fin 16) :
    exec (.csrWrite (0x810 + BitVec.ofNat 12 n.val) v) s =
      .next { s with hart := { s.hart with u := { s.hart.u with zexp := s.hart.u.zexp.set n v } } } := by
  have hn := zexp_toNat n
  have hown : ∀ k, k < 16 → ownWrite (0x810 + k) = false := by decide
  rw [exec_csrWrite_puts ⟨by omega, by omega, hn ▸ hown n n.isLt⟩ (hn ▸ csrVal_zexp n), hn, csrPut_zexp]

/-! ## zpack (R40) -/

theorem rebin_part (s : State) : { s.rebin with part := s.part } = s := by
  unfold State.rebin State.modMyGroup
  split <;> rfl

end Sys2Proof.Machine

namespace Sys2Proof
open Machine

/-- Settles O9: a CSR instruction is one access (csrAccess_reads, csrAccess_writes) and then retires; the writes of the partition's CSRs are refused
by their rules (refused_unless) or place their area; zbankrole merges its roles field by field (field_mergeRoles). -/
theorem csrWrites : Obligations.CsrWrites := by
  unfold Obligations.CsrWrites
  refine ⟨?_, ?_⟩
  · intro s c rd rs1 i u runs new reads writes
    have stores : ∀ {a old put}, CsrStores s c rd rs1 i a old put → writes a old put := id
    have gives : ∀ {a old}, CsrReads s c rd a old → reads a old := id
    clear_value writes reads
    refine ⟨fun hfs => ⟨?_, ?_, ?_⟩, ?_, ?_, ?_, ?_, ?_, stores csrStores_zpack, ?_, ?_, ?_, fun n => stores (csrStores_zexp n),
      ⟨fun hc => gives (csrReads_counter hc rfl), fun hc => gives (csrReads_counter hc rfl), fun hc => gives (csrReads_counter hc rfl),
        ?_, ?_, ?_, ?_, ?_, ?_, ?_, ?_, ?_, ?_, ?_, ?_, ?_⟩,
      fun hm => gives (csrReads_of_open (csrOpen_zpart hm) rfl), csr_zcwp, fun hm a hlo hhi op => csrRuns_noCounter hm ⟨hlo, hhi⟩ op⟩
    · exact stores (csrStores_float hfs rfl (fun _ => rfl) fun _ => rfl)
    · exact stores (csrStores_float hfs rfl (fun _ => rfl) fun _ => rfl)
    · exact stores (csrStores_float hfs rfl (fun _ => rfl) fun _ => rfl)
    · exact stores (csrStores_user rfl csrPut_zfmode fun _ => rfl)
    · exact stores (csrStores_user rfl csrPut_zamax fun _ => rfl)
    · exact stores (csrStores_user rfl (fun _ => rfl) fun _ => rfl)
    · exact stores (csrStores_user rfl (fun _ => rfl) fun _ => rfl)
    · exact stores (csrStores_user rfl (fun _ => rfl) fun _ => rfl)
    · exact stores (csrStores_user rfl (fun _ => rfl) fun _ => rfl)
    · exact stores (csrStores_user rfl (fun _ => rfl) fun _ => rfl)
    · exact stores (csrStores_user rfl (fun _ => rfl) fun _ => rfl)
    all_goals exact gives (csrReads_user rfl)
  · intro s v bits becomes keeps resident inside here
    have hbits : ∀ lo len, bits lo len = field v lo len := fun lo len => (field_eq_div v lo len).symm
    refine ⟨⟨_, rfl, State.modMyGroup_still .., rebin_part _⟩, rfl, rfl, rfl, exec_csrWrite_zexp, fun _ => exec_csrWrite_keeps,
      ?_, ?_, ?_, ?_, ?_, ?_⟩
    all_goals simp only [hbits]
    · exact refused_unless rfl anyResident_iff Iff.rfl
    · have hbound : (!s.part.bindings.isEmpty) = true ↔ s.part.bindings ≠ [] := by simp
      obtain ⟨hkeeps, hbecomes⟩ := refused_unless (i := .zrbtWrite v) rfl hbound Iff.rfl
      exact ⟨hkeeps, fun hb => hbecomes (not_not.2 hb)⟩
    · obtain ⟨hkeeps, hbecomes⟩ := refused_unless_here (i := .zwfqWrite v) rfl (movedFull_iff ..) Iff.rfl (onPackage_iff _)
      exact ⟨hkeeps, fun hm hin hh => ⟨_, hbecomes hm hin hh, fun hstays => if_neg (mt (moved_iff ..).1 hstays)⟩⟩
    · obtain ⟨hkeeps, hbecomes⟩ := refused_unless_here (i := .zemqWrite v) rfl (movedFull_iff ..) Iff.rfl (onPackage_iff _)
      exact ⟨hkeeps, fun hm hin hh => ⟨_, hbecomes hm hin hh, fun hstays => if_neg (mt (moved_iff ..).1 hstays)⟩⟩
    · obtain ⟨hkeeps, hbecomes⟩ := refused_unless (i := .zhotlWrite v) rfl (a := false) (A := False) (by simp) Iff.rfl
      exact ⟨fun hout => hkeeps (.inr hout), fun hin => ⟨_, _, hbecomes not_false hin⟩⟩
    · have hrole := roleWritten_eq_div s.part.bankrole v
      simp only [← hrole, ← l1Banks_mergeRoles]
      refine ⟨fun h => congrArg Host.Outcome.next (writeZbankrole_keeps (h.imp_left anyResident_iff.2)), fun hr hl => ?_⟩
      obtain ⟨hb, hresvs, hu⟩ := writeZbankrole_changes (by simpa using mt anyResident_iff.1 hr) hl
      refine ⟨_, rfl, fun n hn => ?_, hresvs, hu⟩
      rw [hb]
      exact (field_eq_div _ _ 2).symm.trans ((field_mergeRoles hn (le_refl _)).trans (if_pos hn))

end Sys2Proof
end
